-- ==== Sys2Proof/Word.lean ====
section
/-! DEFINITION. The plainest data of the model: bytes and two-byte words of the serial link (R185), and the
fixed-size containers in which the N460 keeps its three machines, its two directions and its numbered tables. -/

namespace Sys2Proof

/-- A byte of the serial link (R172). -/
abbrev Byte := BitVec 8

/-- A two-byte field of a payload (R185). -/
abbrev Half := BitVec 16

/-- A running timer holds the milliseconds left; a stopped timer holds nothing. -/
abbrev Timer := Option Nat

/-- The three machines: windlass, swim platform, tender-garage hatch. -/
inductive MachineId where
  | w | p | h
deriving DecidableEq, Repr, Inhabited

/-- OUT or IN. -/
inductive Direction where
  | outward | inward
deriving DecidableEq, Repr, Inhabited

/-- One value for each machine. -/
structure Three (α : Type) where
  w : α
  p : α
  h : α
deriving DecidableEq, Repr, Inhabited

def Three.get {α : Type} (t : Three α) : MachineId → α
  | .w => t.w
  | .p => t.p
  | .h => t.h

def Three.set {α : Type} (t : Three α) (m : MachineId) (x : α) : Three α :=
  match m with
  | .w => { t with w := x }
  | .p => { t with p := x }
  | .h => { t with h := x }

def Three.adjust {α : Type} (t : Three α) (m : MachineId) (f : α → α) : Three α :=
  t.set m (f (t.get m))

/-- One value for each direction. -/
structure Pair (α : Type) where
  outward : α
  inward : α
deriving DecidableEq, Repr, Inhabited

def Pair.get {α : Type} (t : Pair α) : Direction → α
  | .outward => t.outward
  | .inward => t.inward

def Pair.set {α : Type} (t : Pair α) (d : Direction) (x : α) : Pair α :=
  match d with
  | .outward => { t with outward := x }
  | .inward => { t with inward := x }

/-- The other direction. -/
def Direction.other : Direction → Direction
  | .outward => .inward
  | .inward => .outward

/-- Entry `i` of a numbered table; the default value beyond its last entry. -/
def peek {α : Type} [Inhabited α] {n : Nat} (v : Vector α n) (i : Nat) : α :=
  (v[i]?).getD default

/-- The table with entry `i` replaced; unchanged beyond its last entry. -/
def poke {α : Type} {n : Nat} (v : Vector α n) (i : Nat) (x : α) : Vector α n :=
  v.setIfInBounds i x

/-- The table with entry `i` passed through `f`. -/
def adjust {α : Type} [Inhabited α] {n : Nat} (v : Vector α n) (i : Nat) (f : α → α) : Vector α n :=
  poke v i (f (peek v i))

end Sys2Proof
end

