-- ==== Sys2Proof/Syntax.lean ====
section
/-! DEFINITION. The commands of the N460: one constructor of `Instr` for each row of spec/opcode_table.json. A command is
either an event at the part's pins, clocks and timers, or a valid request frame of the host. Enumerated fields of a
request stand as the bytes the host sent, because an undefined code is answered REFUSED_VALUE (R175, R185). -/

namespace Sys2Proof

/-- The link rate straps RATE1 and RATE0; true is an open strap (R172). -/
structure Straps where
  rate1 : Bool
  rate0 : Bool
deriving DecidableEq, Repr, Inhabited

/-- A dual-channel hold-to-run input, named by its machine and direction (R90). -/
structure HoldInput where
  machine : MachineId
  dir : Direction
deriving DecidableEq, Repr, Inhabited

/-- A single contact: a display button, a reset button or a guest key (R98). -/
inductive ContactId where
  | display (m : MachineId)
  | reset (m : MachineId)
  | key (k : Fin 8)
deriving DecidableEq, Repr, Inhabited

/-- The three unfiltered inputs of R80. -/
inductive PlainInput where
  | ladder | mat | cradle
deriving DecidableEq, Repr, Inhabited

/-- What the converter hands over at one position sample (R24). -/
inductive Sample where
  | windlass
  | platform (a b : BitVec 12)
  | hatch (a b : BitVec 12)
deriving DecidableEq, Repr, Inhabited

/-- The machine parameters that CONFIGURE MACHINE carries for one machine alone (R72, R88). -/
inductive MachineTail where
  | windlass (pocketPitch rodeMax stallDemand stallTime : Half) (creepPockets : Byte)
  | platform (tol disagreeCount : Byte)
  | hatch (tol disagreeCount pinsFlow : Byte) (lockTime : Half)
deriving DecidableEq, Repr, Inhabited

/-- The fields of CONFIGURE MACHINE naming W, P or H, after the machine code (R21, chapter 13). -/
structure MachineFields where
  enabled : Byte
  vmax : Half
  vcreep : Half
  slowOut : Half
  slowIn : Half
  rampUp : Byte
  rampDown : Half
  qmax : Half
  endBand : Byte
  tail : MachineTail
deriving DecidableEq, Repr, Inhabited

/-- The fields of a non-empty interlock entry as WRITE INTERLOCK carries them; the cap value follows action 2 (R118). -/
structure EntryFields where
  machine : Byte
  dir : Byte
  group : Byte
  place : Byte
  sense : Byte
  action : Byte
  cap : Option Half
deriving DecidableEq, Repr, Inhabited

/-- The fields of CONFIGURE STATION (R102). -/
structure StationFields where
  qualifyTime : Byte
  releaseTime : Byte
  disagreeTime : Half
  bindings : Vector Byte 8
deriving DecidableEq, Repr

/-- The fields of CONFIGURE SOURCE after the source code (R134). -/
structure SourceFields where
  enabled : Byte
  word : Byte
  mono : Byte
  start : Byte
  count : Byte
  lowMark : Half
  highMark : Half
deriving DecidableEq, Repr, Inhabited

/-- The fields of CONFIGURE ZONE after the zone code (R135). -/
structure ZoneFields where
  source : Byte
  volume : Byte
  fold : Byte
  safety : Byte
  level : Byte
deriving DecidableEq, Repr, Inhabited

/-- The fields of CONFIGURE ANNOUNCE after the machine code (R143). -/
structure AnnounceFields where
  clip : Byte
  zones : Byte
  duck : Byte
  repeatInterval : Half
deriving DecidableEq, Repr, Inhabited

/-- The fields of CONFIGURE DISPLAY after the display code (R160). -/
structure DisplayFields where
  outThresholds : Vector Half 8
  inThresholds : Vector Half 8
  rampDelay : Half
  holdTime : Byte
  blinkPeriod : Half
  flashPeriod : Half
  flashHigh : Half
deriving DecidableEq, Repr

/-- The item an ITEM binding of CONFIGURE LAMP names: group, place, sense (R163). -/
structure LampItemFields where
  group : Byte
  place : Byte
  sense : Byte
deriving DecidableEq, Repr, Inhabited

/-- The commands. Operands of pin events are the levels the pins take; operands of requests are the fields of their
payloads. -/
inductive Instr where
  -- resets and initialization
  | powerReset (straps : Straps)
  | pinReset
  | rstGoesHigh (straps : Straps)
  | endOfInitialization
  -- the serial link below the requests
  | receivedByte (b : Byte)
  | gapTimerExpiry
  | framingError
  | crcMismatchFrame
  | undefinedRequestCode (code : Byte)
  | replySent
  | linkQuietTimerExpiry
  -- requests
  | identify
  | reset
  | readStatus (group : Byte)
  | setWatch (index group : Byte) (items : Half) (combine edge : Byte)
  | fetchEvents (count : Byte)
  | saveSettings (sections : Byte)
  | configureMachine (machine : Byte) (fields : MachineFields)
  | configureMachineGlobal (refreshTime linkQuiet : Half)
  | readMachine (machine : Byte)
  | run (machine dir : Byte) (target : Option Half)
  | refresh (machine : Byte) (runId : Half)
  | stop (machine : Byte)
  | setRode (count : Half)
  | calibrate (machine : Byte) (endpoint : Half)
  | configureHsu (fcap primeTime : Half) (primeTries : Byte) (runOn : Half)
  | readHsu
  | writeInterlock (index : Byte) (entry : Option EntryFields)
  | readInterlock (index : Byte)
  | configureCause (cause cls trip : Byte)
  | readFaults
  | clearFault (cause : Byte)
  | serviceClear (cause : Byte)
  | configureStation (fields : StationFields)
  | readStations
  | configureSource (source : Byte) (fields : SourceFields)
  | configureZone (zone : Byte) (fields : ZoneFields)
  | setVolume (zone volume : Byte)
  | setQuiet (zone quiet : Byte)
  | allocateClip (slot start count : Byte)
  | clipData (slot : Byte) (offset : Half) (samples : List Half)
  | clipEnd (slot : Byte) (length : Half)
  | freeClip (slot : Byte)
  | configureAnnounce (machine : Byte) (fields : AnnounceFields)
  | page (slot zones duck : Byte)
  | cancelPage
  | readAudio (part : Byte)
  | clearAudioFlags (sources : Byte)
  | configureDisplay (display : Byte) (fields : DisplayFields)
  | displayRequest (display action : Byte)
  | configureLamp (lamp binding : Byte) (item : Option LampItemFields) (mode : Byte)
  -- machines
  | positionSample (sample : Sample)
  | refreshTimerExpiry (machine : MachineId)
  -- stations
  | holdToRunLevelChange (input : HoldInput) (a b : Bool)
  | qualifyTimerExpiry (input : HoldInput)
  | disagreeTimerExpiry (input : HoldInput)
  | releaseTimerExpiry (input : HoldInput)
  | buttonLevelChange (contact : ContactId) (closed : Bool)
  | debounceTimerExpiry (contact : ContactId)
  | longPressTimerExpiry (machine : MachineId)
  -- hydraulic supply
  | pressureOkChange (active : Bool)
  | primeTimerExpiry
  | gapTimerExpiryPump
  | runOnTimerExpiry
  | pressureLossTimerExpiry
  | oilHotChange (active : Bool)
  -- protection
  | estopChange (active : Bool)
  | serviceInputChange (asserted : Bool)
  -- windlass
  | wOvldChange (active : Bool)
  | overloadQualifyTimerExpiry
  | stallTimerExpiry
  | gypARisingEdge (gypB : Bool)
  | homeChange (closed : Bool)
  -- hatch pins and plain inputs
  | pinsUlChange (active : Bool)
  | pinsLkChange (active : Bool)
  | pinTimerExpiry
  | ladderMatCradleChange (input : PlainInput) (active : Bool)
  -- audio
  | sourceFrameArrival (source : Fin 3) (left right : BitVec 32) (arefEdges : Nat)
  | frameTimerExpiry (source : Fin 3)
  | outputFrame
  -- indication
  | rampTimerExpiry (display : MachineId)
  | holdTimerExpiry (display : MachineId)
  | overlayHalfExpiry (display : MachineId)
  | lampFlashHalfExpiry
  -- store
  | storeWriteCompletion (verified : Bool)
deriving DecidableEq, Repr

/-- A request as the serial link port takes, holds and serves it (R174, R175): a request with its fields, a request whose
payload length its layout does not allow, or one whose selecting code names no layout. -/
inductive Ticket where
  | ask (request : Instr)
  | wrongLength (code : Byte)
  | undefinedSelector (code : Byte)
deriving DecidableEq, Repr

end Sys2Proof
end

