-- ==== Sys2Proof/Decode.lean ====
section
/-! DEFINITION. What a request frame's code and payload say: the request with its fields, and back (R175, R184, R185 and the
request layouts of chapter 13). The table of commands gives no row any bits, so no word spells a command. -/

namespace Sys2Proof

/-- The command that a word of the table spells: the rows of spec/opcode_table.json carry no bits, so none. -/
def decodeTableWord (_nbits _w : Nat) : Option Instr := none

/-! ## Numbers on the wire -/

/-- A two-byte field, high byte first (R185). -/
def halfOf (high low : Byte) : Half := high ++ low

/-- The bytes of a two-byte field. -/
def halfBytes (h : Half) : List Byte := [h.extractLsb' 8 8, h.extractLsb' 0 8]

/-- The two-byte fields of a list of bytes; nothing for an odd number of bytes. -/
def halvesOf (bytes : List Byte) : Option (List Half) :=
  match bytes with
  | [] => some []
  | [_] => none
  | h :: l :: rest =>
    match halvesOf rest with
    | some hs => some (halfOf h l :: hs)
    | none => none

/-! ## Layouts -/

/-- A payload of no bytes, and of one byte. -/
def bytes0 (i : Instr) : List Byte → Option Instr
  | [] => some i
  | _ => none

def bytes1 (f : Byte → Instr) : List Byte → Option Instr
  | [a] => some (f a)
  | _ => none

def bytes2 (f : Byte → Byte → Instr) : List Byte → Option Instr
  | [a, b] => some (f a b)
  | _ => none

def bytes3 (f : Byte → Byte → Byte → Instr) : List Byte → Option Instr
  | [a, b, c] => some (f a b c)
  | _ => none

/-- One byte and a two-byte field. -/
def byteHalf (f : Byte → Half → Instr) : List Byte → Option Instr
  | [a, h, l] => some (f a (halfOf h l))
  | _ => none

def oneHalf (f : Half → Instr) : List Byte → Option Instr
  | [h, l] => some (f (halfOf h l))
  | _ => none

/-- RUN: machine, direction, optional target. -/
def parseRun : List Byte → Option Instr
  | [m, d, p] => if p = 0 then some (.run m d none) else none
  | [m, d, p, h, l] => if p = 0 then none else some (.run m d (some (halfOf h l)))
  | _ => none

/-- SET WATCH: index, group, item set, combine, edge. -/
def parseWatch : List Byte → Option Instr
  | [i, g, h, l, c, e] => some (.setWatch i g (halfOf h l) c e)
  | _ => none

/-- The common fields of CONFIGURE MACHINE, with the bytes that follow them. -/
def parseCommon (tail : List Byte → Option MachineTail) : List Byte → Option MachineFields
  | en :: v1 :: v0 :: c1 :: c0 :: o1 :: o0 :: i1 :: i0 :: up :: d1 :: d0 :: q1 :: q0 :: band :: rest =>
    (tail rest).map fun t =>
      { enabled := en, vmax := halfOf v1 v0, vcreep := halfOf c1 c0, slowOut := halfOf o1 o0, slowIn := halfOf i1 i0,
        rampUp := up, rampDown := halfOf d1 d0, qmax := halfOf q1 q0, endBand := band, tail := t }
  | _ => none

def windlassTail : List Byte → Option MachineTail
  | [p1, p0, r1, r0, d1, d0, t1, t0, c] =>
    some (.windlass (halfOf p1 p0) (halfOf r1 r0) (halfOf d1 d0) (halfOf t1 t0) c)
  | _ => none

def platformTail : List Byte → Option MachineTail
  | [t, d] => some (.platform t d)
  | _ => none

def hatchTail : List Byte → Option MachineTail
  | [t, d, p, l1, l0] => some (.hatch t d p (halfOf l1 l0))
  | _ => none

def parseGlobal : List Byte → Option Instr
  | [r1, r0, q1, q0] => some (.configureMachineGlobal (halfOf r1 r0) (halfOf q1 q0))
  | _ => none

def parseHsu : List Byte → Option Instr
  | [f1, f0, p1, p0, n, r1, r0] => some (.configureHsu (halfOf f1 f0) (halfOf p1 p0) n (halfOf r1 r0))
  | _ => none

/-- WRITE INTERLOCK: the index and the empty marker, or the index and the fields of an entry; a cap value follows the action
CAP alone. -/
def parseInterlock : List Byte → Option Instr
  | [i, marker] => if marker = 0 then some (.writeInterlock i none) else none
  | [i, m, d, g, p, s, a] =>
    if a = 2 then none
    else some (.writeInterlock i (some { machine := m, dir := d, group := g, place := p, sense := s, action := a, cap := none }))
  | [i, m, d, g, p, s, a, c1, c0] =>
    if a = 2 then
      some (.writeInterlock i
        (some { machine := m, dir := d, group := g, place := p, sense := s, action := a, cap := some (halfOf c1 c0) }))
    else none
  | _ => none

def parseStation : List Byte → Option Instr
  | [q, r, d1, d0, k0, k1, k2, k3, k4, k5, k6, k7] =>
    some (.configureStation
      { qualifyTime := q, releaseTime := r, disagreeTime := halfOf d1 d0, bindings := #v[k0, k1, k2, k3, k4, k5, k6, k7] })
  | _ => none

def parseSource : List Byte → Option Instr
  | [n, en, w, mono, st, ct, l1, l0, h1, h0] =>
    some (.configureSource n
      { enabled := en, word := w, mono := mono, start := st, count := ct, lowMark := halfOf l1 l0, highMark := halfOf h1 h0 })
  | _ => none

def parseZone : List Byte → Option Instr
  | [z, src, v, f, sf, a] => some (.configureZone z { source := src, volume := v, fold := f, safety := sf, level := a })
  | _ => none

/-- CLIP DATA: slot, offset, 1 to 96 samples. -/
def parseClipData : List Byte → Option Instr
  | slot :: o1 :: o0 :: rest =>
    match halvesOf rest with
    | some hs => if 1 ≤ hs.length ∧ hs.length ≤ 96 then some (.clipData slot (halfOf o1 o0) hs) else none
    | none => none
  | _ => none

def parseAnnounce : List Byte → Option Instr
  | [m, c, z, d, r1, r0] => some (.configureAnnounce m { clip := c, zones := z, duck := d, repeatInterval := halfOf r1 r0 })
  | _ => none

/-- The eight thresholds at the front of a list of two-byte fields, with what follows. -/
def parseDisplayFields (d : Byte) : List Half → Option (Byte → Half → Half → Half → Instr)
  | [o1, o2, o3, o4, o5, o6, o7, o8, i1, i2, i3, i4, i5, i6, i7, i8, ramp] =>
    some fun hold blink flash high => .configureDisplay d
      { outThresholds := #v[o1, o2, o3, o4, o5, o6, o7, o8], inThresholds := #v[i1, i2, i3, i4, i5, i6, i7, i8],
        rampDelay := ramp, holdTime := hold, blinkPeriod := blink, flashPeriod := flash, flashHigh := high }
  | _ => none

/-- CONFIGURE DISPLAY: display, both threshold sets, RampDelay, HoldTime, BlinkPeriod, FlashPeriod, FlashHigh. -/
def parseDisplay : List Byte → Option Instr
  | d :: rest =>
    match halvesOf (rest.take 34), rest.drop 34 with
    | some hs, [hold, b1, b0, f1, f0, h1, h0] =>
      (parseDisplayFields d hs).map fun k => k hold (halfOf b1 b0) (halfOf f1 f0) (halfOf h1 h0)
    | _, _ => none
  | [] => none

/-- CONFIGURE LAMP: lamp, binding, the item of an ITEM binding, mode. -/
def parseLamp : List Byte → Option Instr
  | [l, b, mode] => if b = 2 then none else some (.configureLamp l b none mode)
  | [l, b, g, p, s, mode] =>
    if b = 2 then some (.configureLamp l b (some { group := g, place := p, sense := s }) mode) else none
  | _ => none

/-! ## Requests -/

/-- The request that a code and a payload say; nothing for a payload of a length that the layout does not allow. -/
def parsePayload (code : Nat) : Option (List Byte → Option Instr) :=
  match code with
  | 0x01 => some (bytes0 .identify)
  | 0x02 => some (bytes0 .reset)
  | 0x03 => some (bytes1 .readStatus)
  | 0x04 => some parseWatch
  | 0x05 => some (bytes1 .fetchEvents)
  | 0x06 => some (bytes1 .saveSettings)
  | 0x11 => some (bytes1 .readMachine)
  | 0x12 => some parseRun
  | 0x13 => some (byteHalf .refresh)
  | 0x14 => some (bytes1 .stop)
  | 0x15 => some (oneHalf .setRode)
  | 0x16 => some (byteHalf .calibrate)
  | 0x20 => some parseHsu
  | 0x21 => some (bytes0 .readHsu)
  | 0x30 => some parseInterlock
  | 0x31 => some (bytes1 .readInterlock)
  | 0x32 => some (bytes3 .configureCause)
  | 0x33 => some (bytes0 .readFaults)
  | 0x34 => some (bytes1 .clearFault)
  | 0x35 => some (bytes1 .serviceClear)
  | 0x40 => some parseStation
  | 0x41 => some (bytes0 .readStations)
  | 0x50 => some parseSource
  | 0x51 => some parseZone
  | 0x52 => some (bytes2 .setVolume)
  | 0x53 => some (bytes2 .setQuiet)
  | 0x54 => some (bytes3 .allocateClip)
  | 0x55 => some parseClipData
  | 0x56 => some (byteHalf .clipEnd)
  | 0x57 => some (bytes1 .freeClip)
  | 0x58 => some parseAnnounce
  | 0x59 => some (bytes3 .page)
  | 0x5A => some (bytes0 .cancelPage)
  | 0x5B => some (bytes1 .readAudio)
  | 0x5C => some (bytes1 .clearAudioFlags)
  | 0x60 => some parseDisplay
  | 0x61 => some (bytes2 .displayRequest)
  | 0x62 => some parseLamp
  | _ => none

/-- The payload lengths that CONFIGURE MACHINE has after the machine code: naming W, P, H and GLOBAL (chapter 13). -/
def machineLengths : List Nat := [24, 17, 20, 4]

/-- CONFIGURE MACHINE: the machine code says which layout follows. An undefined code leaves the request with no layout of its
own; a length that no layout has is judged first (R175), at any other the code is (log entry 8). -/
def parseMachine : List Byte → Ticket
  | [] => .wrongLength 0x10
  | m :: rest =>
    let fields (tail : List Byte → Option MachineTail) : Ticket :=
      match parseCommon tail rest with
      | some f => .ask (.configureMachine m f)
      | none => .wrongLength 0x10
    if m = 0 then fields windlassTail
    else if m = 1 then fields platformTail
    else if m = 2 then fields hatchTail
    else if m = 3 then
      match parseGlobal rest with
      | some i => .ask i
      | none => .wrongLength 0x10
    else if rest.length ∈ machineLengths then .undefinedSelector 0x10
    else .wrongLength 0x10

/-- What a valid frame asks (R175). -/
def parseFrame (code : Byte) (payload : List Byte) : Ticket :=
  if code = 0x10 then parseMachine payload
  else
    match parsePayload code.toNat with
    | none => .ask (.undefinedRequestCode code)
    | some layout =>
      match layout payload with
      | some i => .ask i
      | none => .wrongLength code

/-! ## From a request to its frame -/

def tailBytes : MachineTail → List Byte
  | .windlass pitch rodeMax demand time creep =>
    halfBytes pitch ++ halfBytes rodeMax ++ halfBytes demand ++ halfBytes time ++ [creep]
  | .platform tol dis => [tol, dis]
  | .hatch tol dis pins lock => [tol, dis, pins] ++ halfBytes lock

def machineFieldBytes (f : MachineFields) : List Byte :=
  f.enabled :: (halfBytes f.vmax ++ halfBytes f.vcreep ++ halfBytes f.slowOut ++ halfBytes f.slowIn ++ [f.rampUp]
    ++ halfBytes f.rampDown ++ halfBytes f.qmax ++ [f.endBand] ++ tailBytes f.tail)

def entryBytes (e : EntryFields) : List Byte :=
  [e.machine, e.dir, e.group, e.place, e.sense, e.action]
    ++ (match e.cap with
        | some c => halfBytes c
        | none => [])

/-- The code and the payload of a request; nothing for a command that is no request. -/
def encodeRequest : Instr → Option (Byte × List Byte)
  | .identify => some (0x01, [])
  | .reset => some (0x02, [])
  | .readStatus g => some (0x03, [g])
  | .setWatch i g items c e => some (0x04, [i, g] ++ halfBytes items ++ [c, e])
  | .fetchEvents n => some (0x05, [n])
  | .saveSettings x => some (0x06, [x])
  | .configureMachine m f => some (0x10, m :: machineFieldBytes f)
  | .configureMachineGlobal r q => some (0x10, 3 :: (halfBytes r ++ halfBytes q))
  | .readMachine m => some (0x11, [m])
  | .run m d none => some (0x12, [m, d, 0])
  | .run m d (some t) => some (0x12, [m, d, 1] ++ halfBytes t)
  | .refresh m i => some (0x13, m :: halfBytes i)
  | .stop m => some (0x14, [m])
  | .setRode n => some (0x15, halfBytes n)
  | .calibrate m e => some (0x16, m :: halfBytes e)
  | .configureHsu f p n r => some (0x20, halfBytes f ++ halfBytes p ++ [n] ++ halfBytes r)
  | .readHsu => some (0x21, [])
  | .writeInterlock i none => some (0x30, [i, 0])
  | .writeInterlock i (some e) => some (0x30, i :: entryBytes e)
  | .readInterlock i => some (0x31, [i])
  | .configureCause c k t => some (0x32, [c, k, t])
  | .readFaults => some (0x33, [])
  | .clearFault c => some (0x34, [c])
  | .serviceClear c => some (0x35, [c])
  | .configureStation f => some (0x40, [f.qualifyTime, f.releaseTime] ++ halfBytes f.disagreeTime ++ f.bindings.toList)
  | .readStations => some (0x41, [])
  | .configureSource n f =>
    some (0x50, [n, f.enabled, f.word, f.mono, f.start, f.count] ++ halfBytes f.lowMark ++ halfBytes f.highMark)
  | .configureZone z f => some (0x51, [z, f.source, f.volume, f.fold, f.safety, f.level])
  | .setVolume z v => some (0x52, [z, v])
  | .setQuiet z q => some (0x53, [z, q])
  | .allocateClip k st ct => some (0x54, [k, st, ct])
  | .clipData k o xs => some (0x55, k :: (halfBytes o ++ xs.flatMap halfBytes))
  | .clipEnd k n => some (0x56, k :: halfBytes n)
  | .freeClip k => some (0x57, [k])
  | .configureAnnounce m f => some (0x58, [m, f.clip, f.zones, f.duck] ++ halfBytes f.repeatInterval)
  | .page k z d => some (0x59, [k, z, d])
  | .cancelPage => some (0x5A, [])
  | .readAudio p => some (0x5B, [p])
  | .clearAudioFlags x => some (0x5C, [x])
  | .configureDisplay d f =>
    some (0x60, d :: (f.outThresholds.toList.flatMap halfBytes ++ f.inThresholds.toList.flatMap halfBytes
      ++ halfBytes f.rampDelay ++ [f.holdTime] ++ halfBytes f.blinkPeriod ++ halfBytes f.flashPeriod ++ halfBytes f.flashHigh))
  | .displayRequest d a => some (0x61, [d, a])
  | .configureLamp l b none mode => some (0x62, [l, b, mode])
  | .configureLamp l b (some x) mode => some (0x62, [l, b, x.group, x.place, x.sense, mode])
  | .undefinedRequestCode code => some (code, [])
  | _ => none

end Sys2Proof
end

