-- ==== Sys2Proof/Config.lean ====
section
/-! DEFINITION. What one N460 fixes and the manual does not state: free values, which no proof can see through. -/

namespace Sys2Proof

/-- Whether the time left to the next play of a voice in REPEAT_WAIT counts a rest of less than a millisecond as a whole
millisecond, for a number of output frames still to pass (R153). The manual counts the wait in output frames, of which a
millisecond has 48, and does not state how such a rest is rounded. DESIGN CHOICE: a free value, log entry 7. Safe. -/
opaque Config.repeatRestRoundsUp : Nat → Bool

/-- The levels that stand at the straps when the reset behind the reply to RESET samples them, for the number of such samples
taken before (R172, R182). REPLY_SENT carries no operand for them in the table, and the straps may have changed since the last
sample. DESIGN CHOICE: a free value, log entry 10. Safe. -/
opaque Config.strapLevels : Nat → Straps

end Sys2Proof
end

