-- ==== Sys2Proof/Machine/Settings.lean ====
section
/-! DEFINITION. The configuration of the N460, one structure for each configuration section of the store (R179), and the
factory values of every parameter. -/

namespace Sys2Proof.Machine

/-- The nine status groups (chapter 11). -/
inductive Group where
  | sys | win | plat | hatch | hsu | stn | flt | aud | zone
deriving DecidableEq, Repr, Inhabited

/-- The group's code (R185). -/
def Group.code : Group → Nat
  | .sys => 0 | .win => 1 | .plat => 2 | .hatch => 3 | .hsu => 4 | .stn => 5 | .flt => 6 | .aud => 7 | .zone => 8

/-- How many items the group has (chapter 11, the status groups). -/
def Group.size : Group → Nat
  | .sys => 6 | .win => 14 | .plat => 14 | .hatch => 16 | .hsu => 9 | .stn => 14 | .flt => 16 | .aud => 14 | .zone => 16

/-- A status item, by its group and its place in the group. -/
structure ItemRef where
  group : Group
  place : Nat
deriving DecidableEq, Repr, Inhabited

/-- The parameters the three machines have in common (chapter 1, Machine parameters). -/
structure CommonParams where
  enabled : Bool
  vmax : Nat
  vcreep : Nat
  slowOut : Nat
  slowIn : Nat
  rampUp : Nat
  rampDown : Nat
  qmax : Nat
  endBand : Nat
deriving DecidableEq, Repr, Inhabited

/-- The windlass parameters (chapter 4). -/
structure WindlassParams where
  pocketPitch : Nat
  rodeMax : Nat
  stallDemand : Nat
  stallTime : Nat
  creepPockets : Nat
deriving DecidableEq, Repr, Inhabited

/-- The counts one position sensor gives at position 0 and at position 1000 (R25). -/
structure Calibration where
  c0 : Nat
  c1 : Nat
deriving DecidableEq, Repr, Inhabited

/-- The sensor parameters of the platform or the hatch (chapter 5). -/
structure SensorParams where
  tol : Nat
  disagreeCount : Nat
  calA : Calibration
  calB : Calibration
deriving DecidableEq, Repr, Inhabited

/-- The MACHINES section (R179). -/
structure MachineSettings where
  common : Three CommonParams
  windlass : WindlassParams
  platform : SensorParams
  hatch : SensorParams
  pinsFlow : Nat
  lockTime : Nat
  refreshTime : Nat
  linkQuiet : Nat
deriving DecidableEq, Repr, Inhabited

/-- The HSU section. -/
structure HsuSettings where
  fcap : Nat
  primeTime : Nat
  primeTries : Nat
  runOn : Nat
deriving DecidableEq, Repr, Inhabited

/-- What an interlock entry does: BLOCK, or CAP with its value (R118). -/
inductive InterlockAction where
  | block
  | cap (value : Nat)
deriving DecidableEq, Repr, Inhabited

/-- A non-empty interlock entry (R118); `dir` is absent for BOTH. -/
structure InterlockEntry where
  machine : MachineId
  dir : Option Direction
  item : ItemRef
  sense : Bool
  action : InterlockAction
deriving DecidableEq, Repr, Inhabited

/-- The INTERLOCKS section: entries 3..23, entry `i` at place `i - 3`. -/
abbrev InterlockSettings := Vector (Option InterlockEntry) 21

/-- The clearing class of a cause. -/
inductive CauseClass where
  | self | crew | latched
deriving DecidableEq, Repr, Inhabited

/-- Class and trip enable of one cause (R104). -/
structure CauseSetting where
  cls : CauseClass
  trip : Bool
deriving DecidableEq, Repr, Inhabited

/-- The CAUSES section. -/
abbrev CauseSettings := Vector CauseSetting 16

/-- The STATIONS section; a binding is a zone, or absent for NONE (chapter 6). -/
structure StationSettings where
  qualifyTime : Nat
  releaseTime : Nat
  disagreeTime : Nat
  bindings : Vector (Option Nat) 8
deriving DecidableEq, Repr

/-- The configuration of one audio source (chapter 8). -/
structure SourceConfig where
  enabled : Bool
  word : Nat
  mono : Bool
  start : Nat
  count : Nat
  lowMark : Nat
  highMark : Nat
deriving DecidableEq, Repr, Inhabited

/-- The stored configuration of one zone (chapter 8); the source is absent for NONE. -/
structure ZoneConfig where
  source : Option Nat
  volume : Nat
  fold : Bool
  safety : Bool
  level : Nat
deriving DecidableEq, Repr, Inhabited

/-- The announce record of one machine (R143); the clip is absent for NONE. -/
structure AnnounceRecord where
  clip : Option Nat
  zones : Vector Bool 8
  duck : Nat
  repeatInterval : Nat
deriving DecidableEq, Repr

/-- The AUDIO section. -/
structure AudioSettings where
  sources : Vector SourceConfig 3
  zones : Vector ZoneConfig 8
  announce : Three AnnounceRecord
deriving DecidableEq, Repr

/-- The parameters of one bar display (chapter 10); `holdTime` is in seconds. -/
structure DisplayParams where
  outThresholds : Vector Nat 8
  inThresholds : Vector Nat 8
  rampDelay : Nat
  holdTime : Nat
  blinkPeriod : Nat
  flashPeriod : Nat
  flashHigh : Nat
deriving DecidableEq, Repr

/-- What a lamp is bound to (R162). -/
inductive LampBinding where
  | off
  | on
  | item (r : ItemRef) (sense : Bool)
deriving DecidableEq, Repr, Inhabited

/-- Binding and mode of one lamp; `flash` is the mode FLASH (R162). -/
structure LampConfig where
  binding : LampBinding
  flash : Bool
deriving DecidableEq, Repr, Inhabited

/-- The INDICATORS section. -/
structure IndicatorSettings where
  displays : Three DisplayParams
  lamps : Vector LampConfig 6
deriving DecidableEq, Repr

/-- The working values of the seven configuration sections (R179). -/
structure Settings where
  machines : MachineSettings
  hsu : HsuSettings
  interlocks : InterlockSettings
  causes : CauseSettings
  stations : StationSettings
  audio : AudioSettings
  indicators : IndicatorSettings
deriving DecidableEq, Repr

/-! ## Factory values -/

/-- The factory common parameters of each machine (chapter 1). -/
def factoryCommon : Three CommonParams where
  w := { enabled := true, vmax := 1000, vcreep := 150, slowOut := 20, slowIn := 30, rampUp := 20, rampDown := 50, qmax := 120, endBand := 0 }
  p := { enabled := true, vmax := 800, vcreep := 120, slowOut := 80, slowIn := 80, rampUp := 15, rampDown := 40, qmax := 80, endBand := 10 }
  h := { enabled := true, vmax := 700, vcreep := 100, slowOut := 100, slowIn := 120, rampUp := 10, rampDown := 30, qmax := 60, endBand := 10 }

/-- The factory sensor parameters: no calibration (chapter 5). -/
def factorySensors : SensorParams :=
  { tol := 40, disagreeCount := 3, calA := { c0 := 0, c1 := 0 }, calB := { c0 := 0, c1 := 0 } }

/-- The factory MACHINES section (chapters 1, 4 and 5). -/
def factoryMachines : MachineSettings where
  common := factoryCommon
  windlass := { pocketPitch := 152, rodeMax := 900, stallDemand := 300, stallTime := 3000, creepPockets := 3 }
  platform := factorySensors
  hatch := factorySensors
  pinsFlow := 10
  lockTime := 4000
  refreshTime := 300
  linkQuiet := 3000

/-- The factory HSU section (chapter 3). -/
def factoryHsu : HsuSettings := { fcap := 150, primeTime := 1500, primeTries := 3, runOn := 10000 }

/-- The factory INTERLOCKS section: every host entry empty (R118). -/
def factoryInterlocks : InterlockSettings := Vector.replicate 21 none

/-- The factory class of each cause (the cause table of chapter 7); no trip is enabled. -/
def factoryCauses : CauseSettings :=
  #v[.crew, .crew, .crew, .self, .crew, .crew, .self, .crew, .crew, .crew, .crew, .crew, .self, .self, .crew, .crew].map
    fun c => { cls := c, trip := false }

/-- The factory STATIONS section (chapter 6). -/
def factoryStations : StationSettings where
  qualifyTime := 50
  releaseTime := 20
  disagreeTime := 150
  bindings := #v[some 0, some 1, some 2, some 3, some 4, none, none, none]

/-- A factory source owning eight blocks from `start` (chapter 8). -/
def factorySource (start : Nat) : SourceConfig :=
  { enabled := true, word := 24, mono := false, start := start, count := 8, lowMark := 64, highMark := 960 }

/-- A factory zone on source `src`; `deck` holds for the safety zones Z5 to Z7 (chapter 8). -/
def factoryZone (src : Nat) (deck : Bool) : ZoneConfig :=
  { source := some src, volume := 8, fold := deck, safety := deck, level := if deck then 0 else 1 }

/-- A factory announce record over the zone set `zones` (chapter 9). -/
def factoryAnnounce (zones : Vector Bool 8) : AnnounceRecord :=
  { clip := none, zones := zones, duck := 4, repeatInterval := 5000 }

/-- The factory AUDIO section (chapters 8 and 9). -/
def factoryAudio : AudioSettings where
  sources := #v[factorySource 0, factorySource 8, factorySource 16]
  zones := #v[factoryZone 0 false, factoryZone 0 false, factoryZone 0 false, factoryZone 1 false, factoryZone 1 false,
    factoryZone 2 true, factoryZone 2 true, factoryZone 2 true]
  announce :=
    { w := factoryAnnounce #v[false, false, false, false, false, true, false, false]
      p := factoryAnnounce #v[false, false, false, false, false, false, true, false]
      h := factoryAnnounce #v[false, false, false, false, false, false, true, true] }

/-- The factory display parameters over the thresholds `ts` (chapter 10). -/
def factoryDisplay (ts : Vector Nat 8) (flashHigh : Nat) : DisplayParams :=
  { outThresholds := ts, inThresholds := ts, rampDelay := 50, holdTime := 4, blinkPeriod := 500, flashPeriod := 250,
    flashHigh := flashHigh }

/-- The factory INDICATORS section (chapter 10). -/
def factoryIndicators : IndicatorSettings where
  displays :=
    { w := factoryDisplay #v[0, 15, 30, 45, 60, 75, 90, 105] 120
      p := factoryDisplay #v[0, 125, 250, 375, 500, 625, 750, 875] 0
      h := factoryDisplay #v[0, 125, 250, 375, 500, 625, 750, 875] 0 }
  lamps := #v[
    { binding := .item ⟨.sys, 4⟩ true, flash := false },
    { binding := .item ⟨.hsu, 0⟩ true, flash := false },
    { binding := .item ⟨.win, 3⟩ true, flash := true },
    { binding := .item ⟨.plat, 6⟩ true, flash := false },
    { binding := .item ⟨.hatch, 12⟩ true, flash := true },
    { binding := .item ⟨.stn, 13⟩ true, flash := true }]

/-- Every parameter at its factory value. -/
def factorySettings : Settings where
  machines := factoryMachines
  hsu := factoryHsu
  interlocks := factoryInterlocks
  causes := factoryCauses
  stations := factoryStations
  audio := factoryAudio
  indicators := factoryIndicators

end Sys2Proof.Machine
end

