-- ==== Sys2Proof/Machine/Blocks.lean ====
section
/-! DEFINITION. What each block of the N460 holds, as plain data, and its value while the part initializes. The blocks
and their contents are those of the block overview (00_scope.md). -/

namespace Sys2Proof.Machine

/-! ## Pins -/

/-- The input levels as last seen. A level outlasts a reset, because it belongs to the world outside the part. The
converter counts are those at P_SA, P_SB, H_SA and H_SB. `strapReads` is the model's own: it counts the strap samples whose levels
no command carries (log entry 10). -/
structure Pins where
  straps : Straps
  strapReads : Nat
  estop : Bool
  service : Bool
  pressureOk : Bool
  oilHot : Bool
  home : Bool
  wOvld : Bool
  ladder : Bool
  mat : Bool
  cradle : Bool
  pinsLk : Bool
  pinsUl : Bool
  platformA : Nat
  platformB : Nat
  hatchA : Nat
  hatchB : Nat
deriving DecidableEq, Repr, Inhabited

/-- Every input inactive, the straps open. -/
def Pins.idle : Pins where
  straps := { rate1 := true, rate0 := true }
  strapReads := 0
  estop := false
  service := false
  pressureOk := false
  oilHot := false
  home := false
  wOvld := false
  ladder := false
  mat := false
  cradle := false
  pinsLk := false
  pinsUl := false
  platformA := 0
  platformB := 0
  hatchA := 0
  hatchB := 0

/-! ## Serial link port -/

/-- The receiver states of R172. -/
inductive RxState where
  | hunt | syncSeen | length | code | payload | check
deriving DecidableEq, Repr, Inhabited

/-- The frame receiver: state, the LEN and CODE taken, the payload bytes taken in order, the first CRC byte once taken,
and the gap timer (R172). -/
structure Receiver where
  state : RxState
  len : Nat
  code : Byte
  payload : List Byte
  crcHigh : Option Byte
  gap : Timer
deriving DecidableEq, Repr, Inhabited

/-- The reply being sent: its CODE, its payload, and whether the part resets once it has been sent (R174, R178). -/
structure Reply where
  code : Byte
  payload : List Byte
  resets : Bool
deriving DecidableEq, Repr, Inhabited

/-- The serial link port (R172 to R177). `rate` holds the straps sampled at the start of initialization. -/
structure Slp where
  rx : Receiver
  rate : Straps
  linkOk : Bool
  quiet : Timer
  inService : Option Reply
  held : Option Ticket
deriving DecidableEq, Repr

def Receiver.hunting : Receiver :=
  { state := .hunt, len := 0, code := 0, payload := [], crcHigh := none, gap := none }

/-- The link port after a reset (R172, R176). -/
def Slp.fresh (straps : Straps) : Slp :=
  { rx := Receiver.hunting, rate := straps, linkOk := false, quiet := none, inService := none, held := none }

/-! ## Machine controller -/

/-- The nine channel states (R1). -/
inductive ChanState where
  | disabled | idle | waiting | priming | unlocking | moving | stopping | locking | held
deriving DecidableEq, Repr, Inhabited

inductive Origin where
  | station | link
deriving DecidableEq, Repr, Inhabited

/-- The ten end reasons (R3). -/
inductive EndReason where
  | targetReached | limitReached | released | linkStop | refreshMissed | overridden | conflict | interlock | fault | isolated
deriving DecidableEq, Repr, Inhabited

/-- A run record (R3). -/
structure RunRec where
  id : Nat
  origin : Origin
  dir : Direction
  target : Option Nat
  startPos : Nat
  endReason : Option EndReason
  cause : Option Nat
  endPos : Option Nat
deriving DecidableEq, Repr, Inhabited

/-- One channel of the machine controller (R1 to R4), with the machine position of the last sample (R24). -/
structure Channel where
  state : ChanState
  live : Option RunRec
  last : Option RunRec
  counter : Nat
  demand : Nat
  flow : Nat
  share : Nat
  applied : Nat
  refresh : Timer
  position : Nat
  dirOut : Bool
  conflict : Bool
deriving DecidableEq, Repr, Inhabited

/-- A channel while the part initializes, with the values of R2. DESIGN CHOICE: R2 and R24 give the channel a state and the machine a
position at the end of initialization; until then the model holds DISABLED and position 0 (log entry 24). -/
def Channel.fresh : Channel :=
  { state := .disabled, live := none, last := none, counter := 0, demand := 0, flow := 0, share := 0, applied := 0,
    refresh := none, position := 0, dirOut := true, conflict := false }

/-! ## Sensor front end -/

/-- The two position sensors of the platform or the hatch: the counts and raw positions of the last sample, the
disagreement count and the two conditions (R73 to R75, R89). -/
structure SensorRec where
  countA : Nat
  countB : Nat
  rawA : Option Int
  rawB : Option Int
  disagree : Nat
  sensorBad : Bool
  overtravel : Bool
deriving DecidableEq, Repr, Inhabited

def SensorRec.fresh : SensorRec :=
  { countA := 0, countB := 0, rawA := none, rawB := none, disagree := 0, sensorBad := false, overtravel := false }

/-- The sensor front end, with the windlass supervisions of chapter 4 and the hatch pin timer (R81). `rodeWriteDue` marks
the RECORDS write that a HOME closed at start-up leaves for the end of initialization (R69). -/
structure Sfe where
  rode : Nat
  rodeUnknown : Bool
  rodeWriteDue : Bool
  creepRef : Option Nat
  stall : Timer
  overload : Timer
  platform : SensorRec
  hatch : SensorRec
  pinTimer : Timer
deriving DecidableEq, Repr, Inhabited

/-! ## Hydraulic supply controller -/

inductive PumpState where
  | off | starting | retryGap | running | runOn
deriving DecidableEq, Repr, Inhabited

/-- The hydraulic supply controller (chapter 3). `timer` is the prime, gap or run-on timer, whichever the pump state runs
(R40); `pn`, `avail` and `total` are Pn, Avail and R as last computed. -/
structure Hsc where
  pump : PumpState
  attempt : Nat
  timer : Timer
  pressLoss : Timer
  grants : List MachineId
  queue : List MachineId
  pn : Nat
  avail : Nat
  total : Nat
  scaled : Bool
  isolate : Bool
deriving DecidableEq, Repr, Inhabited

/-- The supply controller during initialization: pump off, ISOLATE asserted (R41). -/
def Hsc.fresh : Hsc :=
  { pump := .off, attempt := 0, timer := none, pressLoss := none, grants := [], queue := [], pn := 0, avail := 0,
    total := 0, scaled := false, isolate := true }

/-! ## Station input qualifier -/

inductive InputState where
  | released | early | agreed | valid | releasing | faulted | inhibited
deriving DecidableEq, Repr, Inhabited

/-- The three patterns of a hold-to-run input (R90). -/
inductive Pattern where
  | released | pressed | partly
deriving DecidableEq, Repr, Inhabited

/-- The three timers of a hold-to-run input (R90). -/
inductive StationTimer where
  | qualify | disagree | release
deriving DecidableEq, Repr, Inhabited

/-- A hold-to-run input: state, the two contacts (true is closed), and the timer that runs with the time left on it. At
most one of the three timers runs in any state (R91 to R95). -/
structure HoldRec where
  state : InputState
  a : Bool
  b : Bool
  timer : Option (StationTimer × Nat)
deriving DecidableEq, Repr, Inhabited

/-- A button or guest key (R98). -/
structure ContactRec where
  closed : Bool
  pressed : Bool
  armed : Bool
  debounce : Timer
deriving DecidableEq, Repr, Inhabited

structure Siq where
  inputs : Three (Pair HoldRec)
  display : Three ContactRec
  reset : Three ContactRec
  keys : Vector ContactRec 8
  longPress : Three Timer
deriving DecidableEq, Repr

def HoldRec.idle : HoldRec := { state := .released, a := false, b := true, timer := none }

def ContactRec.idle : ContactRec := { closed := false, pressed := false, armed := true, debounce := none }

/-- Every input let go. -/
def Siq.idle : Siq where
  inputs := { w := ⟨.idle, .idle⟩, p := ⟨.idle, .idle⟩, h := ⟨.idle, .idle⟩ }
  display := { w := .idle, p := .idle, h := .idle }
  reset := { w := .idle, p := .idle, h := .idle }
  keys := Vector.replicate 8 .idle
  longPress := { w := none, p := none, h := none }

/-! ## Fault and interlock supervisor -/

/-- The working state of one cause (R104). -/
structure CauseRec where
  active : Bool
  present : Bool
  raisedAt : Option Nat
deriving DecidableEq, Repr, Inhabited

/-- The trip record (R113). -/
structure TripRec where
  cause : Nat
  time : Nat
  rode : Nat
  restored : Bool
deriving DecidableEq, Repr, Inhabited

/-- The fault and interlock supervisor. `faulted` is the faulted-station set of cause 12 (R94); the interlock table is
configuration. -/
structure Fis where
  causes : Vector CauseRec 16
  faulted : Three (Pair Bool)
  trip : Option TripRec
deriving DecidableEq, Repr

def Fis.fresh : Fis where
  causes := Vector.replicate 16 { active := false, present := false, raisedAt := none }
  faulted := { w := ⟨false, false⟩, p := ⟨false, false⟩, h := ⟨false, false⟩ }
  trip := none

/-! ## Zone audio engine -/

inductive SourceState where
  | disabled | detecting | unsupported | filling | playing
deriving DecidableEq, Repr, Inhabited

inductive RateClass where
  | r48 | r96 | r192 | unsupported | none
deriving DecidableEq, Repr, Inhabited

/-- An audio source (R123 to R127). `measuring` tells that a measurement is in progress, `frames` and `edges` are the
frames and AREF edges it has counted, `lastCount` is the count of the last completed one (DESIGN CHOICE: 0 until there is one, log
entry 24), `decim` is the decimation count modulo 4, and the FIFO has its oldest frame first. -/
structure SourceRec where
  state : SourceState
  cls : RateClass
  candidate : Option (RateClass × Nat)
  lastCount : Nat
  measuring : Bool
  frames : Nat
  edges : Nat
  frameTimer : Timer
  decim : Nat
  fifo : List (Int × Int)
  xrun : Bool
deriving DecidableEq, Repr, Inhabited

def SourceRec.fresh : SourceRec :=
  { state := .disabled, cls := .none, candidate := none, lastCount := 0, measuring := false, frames := 0, edges := 0,
    frameTimer := none, decim := 0, fifo := [], xrun := false }

/-- The owner of a block of sample memory (R128). -/
inductive BlockOwner where
  | free
  | source (n : Nat)
  | clip (slot : Nat)
deriving DecidableEq, Repr, Inhabited

/-- The clip samples of the sample memory, by sample address (block × 256 + place in the block). An unlisted address reads
0, as ALLOCATE CLIP leaves every sample (R141). -/
abbrev SampleMemory := List (Nat × Half)

inductive ClipState where
  | empty | loading | ready
deriving DecidableEq, Repr, Inhabited

/-- A clip slot (chapter 9); start and count count while it is LOADING or READY, the length while READY. -/
structure ClipRec where
  state : ClipState
  start : Nat
  count : Nat
  length : Nat
deriving DecidableEq, Repr, Inhabited

inductive VoiceState where
  | silent | play | repeatWait | played | page
deriving DecidableEq, Repr, Inhabited

/-- What a play hands out: the built-in tone or a clip (R146). -/
inductive Sound where
  | tone
  | clip (slot : Nat)
deriving DecidableEq, Repr, Inhabited

/-- The working state of a zone: QUIET, the announce list with its head first, the voice with the sound of its play, the
place of the next sample and the output frames since the play's first sample, and the duck and output of the last output
frame (chapters 8 and 9). -/
structure ZoneRec where
  quiet : Bool
  list : List MachineId
  voice : VoiceState
  sound : Sound
  place : Nat
  since : Nat
  duck : Nat
  left : Int
  right : Int
deriving DecidableEq, Repr, Inhabited

def ZoneRec.fresh : ZoneRec :=
  { quiet := false, list := [], voice := .silent, sound := .tone, place := 0, since := 0, duck := 0, left := 0, right := 0 }

/-- The page record (chapter 9), with the place of the clip's next sample. -/
structure PageRec where
  clip : Nat
  duck : Nat
  playing : Vector Bool 8
  completed : Vector Bool 8
  cut : Vector Bool 8
  place : Nat
deriving DecidableEq, Repr

structure Zae where
  sources : Vector SourceRec 3
  owners : Vector BlockOwner 64
  memory : SampleMemory
  clips : Vector ClipRec 16
  zones : Vector ZoneRec 8
  page : Option PageRec
deriving DecidableEq, Repr

/-- The audio engine during initialization, with the block owners `owners` (R123, R128, R140, R145, R150). -/
def Zae.fresh (owners : Vector BlockOwner 64) : Zae where
  sources := Vector.replicate 3 .fresh
  owners := owners
  memory := []
  clips := Vector.replicate 16 { state := .empty, start := 0, count := 0, length := 0 }
  zones := Vector.replicate 8 .fresh
  page := none

/-- The owners of the blocks when source `n` owns those of its configuration and no clip owns any (R128). -/
def ownersOf (sources : Vector SourceConfig 3) : Vector BlockOwner 64 :=
  Vector.ofFn fun b : Fin 64 =>
    let owns (n : Nat) : Bool := decide ((peek sources n).start ≤ b.val ∧ b.val < (peek sources n).start + (peek sources n).count)
    if owns 0 then .source 0 else if owns 1 then .source 1 else if owns 2 then .source 2 else .free

/-! ## Indicator driver -/

inductive DisplayState where
  | off | ramping | showing
deriving DecidableEq, Repr, Inhabited

inductive Overlay where
  | none | flash | blink
deriving DecidableEq, Repr, Inhabited

/-- A bar display: state, lit count, ramp and hold timers, the overlay in force, its half (true is the on half) and the
time left of that half (R155, R159). -/
structure DisplayRec where
  state : DisplayState
  lit : Nat
  ramp : Timer
  hold : Timer
  overlay : Overlay
  overlayOn : Bool
  overlayTimer : Timer
deriving DecidableEq, Repr, Inhabited

def DisplayRec.fresh : DisplayRec :=
  { state := .off, lit := 0, ramp := none, hold := none, overlay := .none, overlayOn := false, overlayTimer := none }

/-- The indicator driver: the displays D0, D1, D2 by machine, and the lamp flash clock (R162). -/
structure Ind where
  displays : Three DisplayRec
  flashOn : Bool
  flashTimer : Timer
deriving DecidableEq, Repr, Inhabited

def Ind.fresh : Ind :=
  { displays := { w := .fresh, p := .fresh, h := .fresh }, flashOn := false, flashTimer := none }

/-! ## Settings store -/

/-- The eight sections, in section order (R179). -/
inductive SectionName where
  | machines | hsu | interlocks | causes | stations | audio | indicators | records
deriving DecidableEq, Repr, Inhabited

/-- The stored rode record (chapter 4). -/
structure RodeRecord where
  count : Nat
  known : Bool
  settled : Bool
deriving DecidableEq, Repr, Inhabited

/-- The RECORDS section: the active LATCHED causes, the trip record and the stored rode record (R179). -/
structure Records where
  latched : Vector Bool 16
  trip : Option TripRec
  rode : RodeRecord
deriving DecidableEq, Repr

/-- The contents of one section. -/
inductive SectionData where
  | machines (x : MachineSettings)
  | hsu (x : HsuSettings)
  | interlocks (x : InterlockSettings)
  | causes (x : CauseSettings)
  | stations (x : StationSettings)
  | audio (x : AudioSettings)
  | indicators (x : IndicatorSettings)
  | records (x : Records)
deriving DecidableEq, Repr

/-- A section's copy in the store, and whether its check value agrees with it. -/
structure Copy (α : Type) where
  content : α
  ok : Bool
deriving DecidableEq, Repr

/-- A write in progress: what it writes, and the host mark (R179, R180). -/
structure StoreWrite where
  data : SectionData
  mark : Bool
deriving DecidableEq, Repr

/-- The settings store: the eight copies, the pending-write queue with its head first and each entry's host mark, and the
write in progress. -/
structure Sto where
  machines : Copy MachineSettings
  hsu : Copy HsuSettings
  interlocks : Copy InterlockSettings
  causes : Copy CauseSettings
  stations : Copy StationSettings
  audio : Copy AudioSettings
  indicators : Copy IndicatorSettings
  records : Copy Records
  queue : List (SectionName × Bool)
  writing : Option StoreWrite
deriving DecidableEq, Repr

/-- The factory RECORDS section: rode 0, not known, settled (chapter 4). -/
def factoryRecords : Records :=
  { latched := Vector.replicate 16 false, trip := none, rode := { count := 0, known := false, settled := true } }

/-- The store as it leaves the factory: every section holds its factory contents and passes its check. -/
def Sto.factory : Sto where
  machines := ⟨factoryMachines, true⟩
  hsu := ⟨factoryHsu, true⟩
  interlocks := ⟨factoryInterlocks, true⟩
  causes := ⟨factoryCauses, true⟩
  stations := ⟨factoryStations, true⟩
  audio := ⟨factoryAudio, true⟩
  indicators := ⟨factoryIndicators, true⟩
  records := ⟨factoryRecords, true⟩
  queue := []
  writing := none

/-! ## Status and event unit -/

inductive ResetCause where
  | power | pin | request
deriving DecidableEq, Repr, Inhabited

inductive ClearMeans where
  | self | crew | station | service
deriving DecidableEq, Repr, Inhabited

/-- The kinds of event record with their fields (chapter 11). A snapshot is the group's 16-bit word. -/
inductive EventKind where
  | resetDone (cause : ResetCause) (failed : List SectionName)
  | runEnded (machine : MachineId) (id : Nat) (origin : Origin) (dir : Direction) (reason : EndReason)
      (cause : Option Nat) (startPos endPos : Nat)
  | faultRaised (cause : Nat) (machines : Three Bool) (tripped : Bool)
  | faultCleared (cause : Nat) (means : ClearMeans)
  | watch (index : Nat) (value : Bool) (snapshot : Nat)
  | guestKey (key : Nat) (zone : Option (Nat × Bool))
  | rateChanged (source : Nat) (cls : RateClass)
  | storeDone (sect : SectionName) (ok : Bool)
  | pageEnded (clip : Nat) (completed cut : Vector Bool 8)
deriving DecidableEq, Repr

/-- A queued record (R169). -/
structure Event where
  kind : EventKind
  time : Nat
  lost : Bool
deriving DecidableEq, Repr

inductive WatchCombine where
  | any | all
deriving DecidableEq, Repr, Inhabited

inductive WatchEdge where
  | rise | fall | both
deriving DecidableEq, Repr, Inhabited

/-- A watch (R166, R167). The item set is a mask over the places of the group; the last value is absent while disarmed. -/
structure WatchRec where
  group : Group
  items : Nat
  combine : WatchCombine
  edge : WatchEdge
  last : Option Bool
deriving DecidableEq, Repr, Inhabited

/-- The status and event unit: item `k` of group `g` at place `16 × code g + k`, the eight watches, and the event queue
with its head first. -/
structure Seu where
  items : Vector Bool 144
  watches : Vector WatchRec 8
  events : List Event
deriving DecidableEq, Repr

def WatchRec.disarmed : WatchRec := { group := .sys, items := 0, combine := .any, edge := .rise, last := none }

def Seu.fresh : Seu where
  items := Vector.replicate 144 false
  watches := Vector.replicate 8 .disarmed
  events := []

/-- Held in reset, initializing, or serving (R178, R182). -/
inductive Phase where
  | heldInReset | initializing | running
deriving DecidableEq, Repr, Inhabited

end Sys2Proof.Machine
end

