-- ==== Sys2Proof/Machine/State.lean ====
section
/-! DEFINITION. The state of the N460: every piece of state the manual gives the part, by the block that owns it, and the
queue of commands that wait. -/

namespace Sys2Proof.Machine

/-- The whole part. `settings` is the working configuration (R179), `now` the timestamp in milliseconds, and `pending` the
commands that wait, first in, first out. -/
structure State where
  phase : Phase
  resetCause : ResetCause
  now : Nat
  pins : Pins
  settings : Settings
  slp : Slp
  mc : Three Channel
  sfe : Sfe
  hsc : Hsc
  siq : Siq
  fis : Fis
  zae : Zae
  ind : Ind
  seu : Seu
  sto : Sto
  pending : List Instr
deriving DecidableEq, Repr

/-- Why a command stops the machine: no command of the N460 does, so there is no reason. Safe. -/
inductive Fault where
deriving DecidableEq, Repr

/-- Why a command is not carried out. -/
inductive Refusal where
  /-- Answered by an arm of `exec` alone, for a command that has no meaning yet. Safe: the model stops where the part
  goes on. No arm answers it now. -/
  | notModelled (mnemonic : String)
deriving DecidableEq, Repr

/-- The part right after its supply was applied for the first time: initialization in progress with reset cause POWER,
the store as it left the factory, every input inactive and the straps open. -/
def State.reset : State where
  phase := .initializing
  resetCause := .power
  now := 0
  pins := Pins.idle
  settings := factorySettings
  slp := Slp.fresh Pins.idle.straps
  mc := { w := .fresh, p := .fresh, h := .fresh }
  sfe := { rode := 0, rodeUnknown := true, rodeWriteDue := false, creepRef := none, stall := none, overload := none,
           platform := .fresh, hatch := .fresh, pinTimer := none }
  hsc := Hsc.fresh
  siq := Siq.idle
  fis := Fis.fresh
  zae := Zae.fresh (ownersOf factoryAudio.sources)
  ind := Ind.fresh
  seu := Seu.fresh
  sto := Sto.factory
  pending := []

/-! ## One update for each block -/

def State.onPins (f : Pins → Pins) (s : State) : State := { s with pins := f s.pins }
def State.onSettings (f : Settings → Settings) (s : State) : State := { s with settings := f s.settings }
def State.onSlp (f : Slp → Slp) (s : State) : State := { s with slp := f s.slp }
def State.onMc (f : Three Channel → Three Channel) (s : State) : State := { s with mc := f s.mc }
def State.onSfe (f : Sfe → Sfe) (s : State) : State := { s with sfe := f s.sfe }
def State.onHsc (f : Hsc → Hsc) (s : State) : State := { s with hsc := f s.hsc }
def State.onSiq (f : Siq → Siq) (s : State) : State := { s with siq := f s.siq }
def State.onFis (f : Fis → Fis) (s : State) : State := { s with fis := f s.fis }
def State.onZae (f : Zae → Zae) (s : State) : State := { s with zae := f s.zae }
def State.onInd (f : Ind → Ind) (s : State) : State := { s with ind := f s.ind }
def State.onSeu (f : Seu → Seu) (s : State) : State := { s with seu := f s.seu }
def State.onSto (f : Sto → Sto) (s : State) : State := { s with sto := f s.sto }

end Sys2Proof.Machine
end

