-- ==== Sys2Proof/Machine/Tables.lean ====
section
/-! DEFINITION. The fixed numbers and tables of the manual: timings, parameter ranges, the cause table, the status items and
the built-in interlock entries. -/

namespace Sys2Proof.Machine

/-! ## Times in milliseconds, sizes and identification -/

/-- The gap timer of the receiver (R172). -/
def gapTime : Nat := 25
/-- The largest frame payload (R172). -/
def maxPayload : Nat := 200
/-- The pump off time between two start attempts (chapter 3). -/
def retryGap : Nat := 500
/-- The pressure-loss qualify time (R47). -/
def pressureLossTime : Nat := 200
/-- The overload qualify time (R65). -/
def overloadTime : Nat := 200
/-- The hold of a reset button that clears causes (R100). -/
def longPressTime : Nat := 3000
/-- The frame timer of a source (R125). -/
def frameTime : Nat := 2
/-- One half of the lamp flash clock (R162). -/
def lampFlashHalf : Nat := 250
/-- Timestamps wrap at 32 bits (00_scope.md, Timestamps). -/
def timeWrap : Nat := 4294967296
/-- Run ids wrap at 16 bits (R3). -/
def runIdWrap : Nat := 65536
/-- The grant slots of the pump (R49). -/
def grantSlots : Nat := 2
/-- The records the event queue holds (R169). -/
def eventCapacity : Nat := 32
/-- Output frames in a millisecond (R130, R148). -/
def framesPerMs : Nat := 48
/-- Stereo frames in a block of sample memory (R128). -/
def framesPerBlock : Nat := 128
/-- Clip samples in a block of sample memory (R128). -/
def samplesPerBlock : Nat := 256
/-- The length of the built-in tone in output frames (R149). -/
def toneLength : Nat := 24000
/-- The level of the built-in tone (R149). -/
def toneLevel : Int := 1048576
/-- The largest and smallest 24-bit output sample (R133). -/
def sampleMax : Int := 8388607
def sampleMin : Int := -8388608
def vendorCode : Nat := 0x0042
def partCode : Nat := 0x0460
def siliconRevision : Nat := 1

/-! ## Machines -/

/-- The machines in the order W, P, H, in which a handling takes them. -/
def machines : List MachineId := [.w, .p, .h]

/-- The code of a machine (R185). -/
def machineCode : MachineId → Nat
  | .w => 0 | .p => 1 | .h => 2

/-- The status group of a machine. -/
def machineGroup : MachineId → Group
  | .w => .win | .p => .plat | .h => .hatch

/-- The hold-to-run inputs, in the order of their codes (R185). -/
def holdInputs : List HoldInput :=
  [⟨.w, .outward⟩, ⟨.w, .inward⟩, ⟨.p, .outward⟩, ⟨.p, .inward⟩, ⟨.h, .outward⟩, ⟨.h, .inward⟩]

/-- The code of a direction (R185). -/
def directionCode : Direction → Nat
  | .outward => 0 | .inward => 1

/-- The running states (R1). -/
def ChanState.isRunning : ChanState → Bool
  | .waiting | .priming | .unlocking | .moving | .stopping | .locking => true
  | .disabled | .idle | .held => false

/-- The states in which a channel holds a grant (R1). -/
def ChanState.isGranted : ChanState → Bool
  | .priming | .unlocking | .moving | .stopping | .locking => true
  | .disabled | .idle | .waiting | .held => false

/-- The states in which a valve carries the applied demand (R1). -/
def ChanState.isFlowing : ChanState → Bool
  | .moving | .stopping => true
  | .disabled | .idle | .waiting | .priming | .unlocking | .locking | .held => false

/-- The pump is confirmed in RUNNING and RUN_ON (R40). -/
def PumpState.confirmed : PumpState → Bool
  | .running | .runOn => true
  | .off | .starting | .retryGap => false

/-! ## The cause table (chapter 7) -/

def causeEstop : Nat := 0
def causeNoPressure : Nat := 1
def causePressureLost : Nat := 2
def causeOilHot : Nat := 3
def causeOverload : Nat := 4
def causeStall : Nat := 5
def causeCreep : Nat := 6
def causePlatformSensor : Nat := 7
def causePlatformOvertravel : Nat := 8
def causeHatchSensor : Nat := 9
def causeHatchOvertravel : Nat := 10
def causePins : Nat := 11
def causeStationChannel : Nat := 12
def causeLinkLost : Nat := 13
def causeStoreConfig : Nat := 14
def causeStoreRecords : Nat := 15

/-- The cause indexes, in index order. -/
def causeIndexes : List Nat := List.range 16

/-- The machines a cause affects by the cause table; cause 12 affects those of its faulted-station set instead. -/
def causeAffectsByTable (c : Nat) (m : MachineId) : Bool :=
  match c with
  | 0 | 1 | 2 | 3 | 15 => true
  | 4 | 5 => m == .w
  | 7 | 8 => m == .p
  | 9 | 10 | 11 => m == .h
  | _ => false

/-- The classes a cause allows. -/
def classAllowed (c : Nat) (k : CauseClass) : Bool :=
  match c, k with
  | 0, .crew | 14, .crew | 15, .crew => true
  | 13, .self => true
  | 1, _ | 4, _ | 5, _ | 11, _ => true
  | 2, .crew | 2, .latched | 7, .crew | 7, .latched | 8, .crew | 8, .latched => true
  | 9, .crew | 9, .latched | 10, .crew | 10, .latched => true
  | 3, .self | 3, .crew | 6, .self | 6, .crew | 12, .self | 12, .crew => true
  | _, _ => false

/-- The causes that may trip. -/
def tripAllowed (c : Nat) : Bool :=
  [1, 2, 4, 5, 7, 8, 9, 10, 11].contains c

/-! ## Status items (chapter 11) -/

def Item.linkOk : ItemRef := ⟨.sys, 0⟩
def Item.storeBusy : ItemRef := ⟨.sys, 1⟩
def Item.serviceIn : ItemRef := ⟨.sys, 2⟩
def Item.estopIn : ItemRef := ⟨.sys, 3⟩
def Item.isolateOut : ItemRef := ⟨.sys, 4⟩
def Item.tripRecorded : ItemRef := ⟨.sys, 5⟩
def Item.idle (m : MachineId) : ItemRef := ⟨machineGroup m, 0⟩
def Item.running (m : MachineId) : ItemRef := ⟨machineGroup m, 1⟩
def Item.moving (m : MachineId) : ItemRef := ⟨machineGroup m, 2⟩
def Item.held (m : MachineId) : ItemRef := ⟨machineGroup m, 3⟩
def Item.dirOut (m : MachineId) : ItemRef := ⟨machineGroup m, 4⟩
def Item.linkRun (m : MachineId) : ItemRef := ⟨machineGroup m, 5⟩
def Item.blocked (m : MachineId) : ItemRef := ⟨machineGroup m, 6⟩
def Item.capped (m : MachineId) : ItemRef := ⟨machineGroup m, 7⟩
def Item.atHome : ItemRef := ⟨.win, 8⟩
def Item.atRodeMax : ItemRef := ⟨.win, 9⟩
def Item.rodeUnknown : ItemRef := ⟨.win, 10⟩
def Item.brakeReleased : ItemRef := ⟨.win, 11⟩
def Item.overloadIn : ItemRef := ⟨.win, 12⟩
/-- STOWED of the platform or CLOSED of the hatch. -/
def Item.atIn (m : MachineId) : ItemRef := ⟨machineGroup m, 8⟩
/-- LOWER_LIMIT of the platform or OPEN_LIMIT of the hatch. -/
def Item.atOut (m : MachineId) : ItemRef := ⟨machineGroup m, 9⟩
def Item.ladderDown : ItemRef := ⟨.plat, 10⟩
def Item.matOccupied : ItemRef := ⟨.plat, 11⟩
def Item.pinsLocked : ItemRef := ⟨.hatch, 10⟩
def Item.pinsUnlocked : ItemRef := ⟨.hatch, 11⟩
def Item.unsecured : ItemRef := ⟨.hatch, 12⟩
def Item.cradleHome : ItemRef := ⟨.hatch, 13⟩
def Item.conflict : MachineId → ItemRef
  | .w => ⟨.win, 13⟩ | .p => ⟨.plat, 12⟩ | .h => ⟨.hatch, 14⟩
/-- UNCALIBRATED of the platform or the hatch. -/
def Item.uncalibrated : MachineId → ItemRef
  | .w => ⟨.win, 15⟩ | .p => ⟨.plat, 13⟩ | .h => ⟨.hatch, 15⟩
def Item.pumpOn : ItemRef := ⟨.hsu, 0⟩
def Item.starting : ItemRef := ⟨.hsu, 1⟩
def Item.pressureOk : ItemRef := ⟨.hsu, 2⟩
def Item.runOn : ItemRef := ⟨.hsu, 3⟩
def Item.oilHotIn : ItemRef := ⟨.hsu, 4⟩
def Item.grantsFull : ItemRef := ⟨.hsu, 5⟩
def Item.waitingAny : ItemRef := ⟨.hsu, 6⟩
def Item.isolated : ItemRef := ⟨.hsu, 7⟩
def Item.scaled : ItemRef := ⟨.hsu, 8⟩
def Item.holdInput (i : HoldInput) : ItemRef := ⟨.stn, 2 * machineCode i.machine + directionCode i.dir⟩
def Item.displayButton (m : MachineId) : ItemRef := ⟨.stn, 6 + machineCode m⟩
def Item.resetButton (m : MachineId) : ItemRef := ⟨.stn, 9 + machineCode m⟩
def Item.inhibitedAny : ItemRef := ⟨.stn, 12⟩
def Item.faultedAny : ItemRef := ⟨.stn, 13⟩
def Item.cause (c : Nat) : ItemRef := ⟨.flt, c⟩
def Item.sourcePlaying (n : Nat) : ItemRef := ⟨.aud, 4 * n⟩
def Item.sourceLow (n : Nat) : ItemRef := ⟨.aud, 4 * n + 1⟩
def Item.sourceUnsupported (n : Nat) : ItemRef := ⟨.aud, 4 * n + 2⟩
def Item.sourceXrun (n : Nat) : ItemRef := ⟨.aud, 4 * n + 3⟩
def Item.paging : ItemRef := ⟨.aud, 12⟩
def Item.toneAny : ItemRef := ⟨.aud, 13⟩
def Item.announcing (z : Nat) : ItemRef := ⟨.zone, z⟩
def Item.quiet (z : Nat) : ItemRef := ⟨.zone, 8 + z⟩

/-- The groups in the order of their codes. -/
def groups : List Group := [.sys, .win, .plat, .hatch, .hsu, .stn, .flt, .aud, .zone]

/-- The item is one its group has (chapter 11). -/
def ItemRef.exists (r : ItemRef) : Bool := decide (r.place < r.group.size)

/-- The items that follow the running of the machines, which an interlock condition may not name (R121). -/
def ItemRef.followsRunning (r : ItemRef) : Bool :=
  match r.group with
  | .win => decide (r.place < 8) || r == Item.brakeReleased
  | .plat => decide (r.place < 8)
  | .hatch => decide (r.place < 8) || r == Item.unsecured
  | .hsu => [0, 1, 3, 5, 6, 8].contains r.place
  | .zone => decide (r.place < 8)
  | .aud => r == Item.toneAny
  | .sys | .stn | .flt => false

/-- Where the value of an item stands in the status and event unit. -/
def ItemRef.index (r : ItemRef) : Nat := 16 * r.group.code + r.place

/-! ## The interlock table (R118) -/

/-- Entries 0, 1 and 2. -/
def builtInEntry (i : Nat) : Option InterlockEntry :=
  match i with
  | 0 => some { machine := .p, dir := some .inward, item := Item.ladderDown, sense := true, action := .block }
  | 1 => some { machine := .h, dir := some .inward, item := Item.cradleHome, sense := false, action := .block }
  | 2 => some { machine := .p, dir := none, item := Item.matOccupied, sense := true, action := .cap 300 }
  | _ => none

/-- How many entries are built in, and how many there are. -/
def builtInEntries : Nat := 3
def interlockEntries : Nat := 24

/-! ## Numbers -/

/-- The nearest value of the range `lo..hi` (00_scope.md, clamped). -/
def clamp (lo hi n : Nat) : Nat := max lo (min n hi)

/-- The nearest value of the range `lo..hi` of whole numbers (00_scope.md, saturated). -/
def clampInt (lo hi n : Int) : Int := max lo (min n hi)

/-- The mask whose bit `k` is `f k`, for `k` below `n` (R185, sets). -/
def maskOf (n : Nat) (f : Nat → Bool) : Nat :=
  (List.range n).foldl (fun w k => if f k then w + 2 ^ k else w) 0

end Sys2Proof.Machine
end

