-- ==== Sys2Proof/Machine/Queries.lean ====
section
/-! DEFINITION. What one block asks of another: read-only functions of the state, and the value each status item has by the
rule of its owner. -/

namespace Sys2Proof.Machine

/-! ## Machines and their parameters -/

def State.chan (s : State) (m : MachineId) : Channel := s.mc.get m

def State.params (s : State) (m : MachineId) : CommonParams := s.settings.machines.common.get m

/-- The sensor parameters of the platform or the hatch. -/
def State.sensorParams (s : State) (m : MachineId) : SensorParams :=
  match m with
  | .h => s.settings.machines.hatch
  | _ => s.settings.machines.platform

def State.sensors (s : State) (m : MachineId) : SensorRec :=
  match m with
  | .h => s.sfe.hatch
  | _ => s.sfe.platform

/-- A sensor whose c0 equals its c1 (R26). -/
def Calibration.missing (c : Calibration) : Bool := c.c0 == c.c1

/-- Either sensor of the machine is uncalibrated; the windlass has no sensors to calibrate (R26, R28). -/
def State.uncalibrated (s : State) (m : MachineId) : Bool :=
  match m with
  | .w => false
  | _ => (s.sensorParams m).calA.missing || (s.sensorParams m).calB.missing

/-- The top of the machine's position range (00_scope.md, Position). -/
def State.positionTop (s : State) (m : MachineId) : Nat :=
  match m with
  | .w => s.settings.machines.windlass.rodeMax
  | _ => 1000

/-- The rode length of a count in metres and in centimetres (R60). -/
def rodeMetres (pitch count : Nat) : Nat := count * pitch / 1000
def rodeCentimetres (pitch count : Nat) : Nat := count * pitch / 10

/-- The channel holds a grant (R49). -/
def State.granted (s : State) (m : MachineId) : Bool := s.hsc.grants.contains m

/-- The channel has a live run whose origin is LINK. -/
def Channel.hasLinkRun (c : Channel) : Bool :=
  match c.live with
  | some r => r.origin == .link
  | none => false

/-- The channel has a live run of direction `d`. -/
def Channel.runsIn (c : Channel) (d : Direction) : Bool :=
  match c.live with
  | some r => r.dir == d
  | none => false

/-- The platform or hatch position is within EndBand of the IN end; of the OUT end (R76, R77). -/
def State.atInEnd (s : State) (m : MachineId) : Bool := decide ((s.chan m).position ≤ (s.params m).endBand)
def State.atOutEnd (s : State) (m : MachineId) : Bool := decide (1000 ≤ (s.chan m).position + (s.params m).endBand)

/-! ## Station inputs -/

def State.input (s : State) (i : HoldInput) : HoldRec := (s.siq.inputs.get i.machine).get i.dir

def State.inputState (s : State) (m : MachineId) (d : Direction) : InputState := (s.input ⟨m, d⟩).state

/-- Some hold-to-run input of the machine is VALID. -/
def State.anyValid (s : State) (m : MachineId) : Bool :=
  s.inputState m .outward == .valid || s.inputState m .inward == .valid

/-- Every hold-to-run input of the machine is RELEASED. -/
def State.allReleased (s : State) (m : MachineId) : Bool :=
  s.inputState m .outward == .released && s.inputState m .inward == .released

def InputState.letGo : InputState → Bool
  | .released | .inhibited => true
  | .early | .agreed | .valid | .releasing | .faulted => false

/-- Every hold-to-run input of the machine is RELEASED or INHIBITED (R108). -/
def State.allLetGo (s : State) (m : MachineId) : Bool :=
  (s.inputState m .outward).letGo && (s.inputState m .inward).letGo

/-- Some hold-to-run input is in the state `x`. -/
def State.anyInput (s : State) (x : InputState) : Bool := holdInputs.any fun i => (s.input i).state == x

def contactOf (q : Siq) : ContactId → ContactRec
  | .display m => q.display.get m
  | .reset m => q.reset.get m
  | .key k => peek q.keys k.val

def setContact (c : ContactId) (x : ContactRec) (q : Siq) : Siq :=
  match c with
  | .display m => { q with display := q.display.set m x }
  | .reset m => { q with reset := q.reset.set m x }
  | .key k => { q with keys := poke q.keys k.val x }

/-! ## Causes -/

def State.cause (s : State) (c : Nat) : CauseRec := peek s.fis.causes c

def State.causeSetting (s : State) (c : Nat) : CauseSetting := peek s.settings.causes c

/-- The faulted-station set holds an input of the machine (R94). -/
def State.stationFaulted (s : State) (m : MachineId) : Bool :=
  (s.fis.faulted.get m).outward || (s.fis.faulted.get m).inward

/-- The faulted-station set is not empty. -/
def State.anyStationFaulted (s : State) : Bool := machines.any s.stationFaulted

/-- The cause affects the machine, if it is active (the cause table; R94 for cause 12). -/
def State.affects (s : State) (c : Nat) (m : MachineId) : Bool :=
  if c = causeStationChannel then s.stationFaulted m else causeAffectsByTable c m

/-- Some active cause affects the machine (R19, R20). -/
def State.affected (s : State) (m : MachineId) : Bool :=
  causeIndexes.any fun c => (s.cause c).active && s.affects c m

/-- The machines a cause affects, as a set. -/
def State.affectedSet (s : State) (c : Nat) : Three Bool :=
  { w := s.affects c .w, p := s.affects c .p, h := s.affects c .h }

/-! ## Items and interlocks -/

/-- The published value of an item; a place its group does not have is false (R164, R165). -/
def State.item (s : State) (r : ItemRef) : Bool := r.exists && peek s.seu.items r.index

/-- A group's items as a 16-bit word (R185). -/
def State.groupWord (s : State) (g : Group) : Nat := maskOf 16 fun k => s.item ⟨g, k⟩

/-- Entry `i` of the interlock table: built in, or written by the host (R118). -/
def State.entry (s : State) (i : Nat) : Option InterlockEntry :=
  if i < builtInEntries then builtInEntry i else peek s.settings.interlocks (i - builtInEntries)

/-- The non-empty entries, in index order. -/
def State.entries (s : State) : List InterlockEntry := (List.range interlockEntries).filterMap s.entry

/-- The entry's condition holds (R119). -/
def State.holds (s : State) (e : InterlockEntry) : Bool := s.item e.item == e.sense

/-- The entry is for this machine and direction (R119). -/
def InterlockEntry.covers (e : InterlockEntry) (m : MachineId) (d : Direction) : Bool :=
  e.machine == m && (e.dir == none || e.dir == some d)

def InterlockEntry.blocks (e : InterlockEntry) : Bool := e.action == .block

/-- A BLOCK entry matches the machine and the direction (R119). -/
def State.blockMatches (s : State) (m : MachineId) (d : Direction) : Bool :=
  s.entries.any fun e => e.blocks && e.covers m d && s.holds e

/-- The lowest cap among the CAP entries that match (R35, R119). -/
def State.lowestCap (s : State) (m : MachineId) (d : Direction) : Option Nat :=
  s.entries.foldl (fun low e =>
    match e.action with
    | .cap v => if e.covers m d && s.holds e then some (match low with | none => v | some x => min x v) else low
    | .block => low) none

/-- The FIS part of BLOCKED: a BLOCK entry for the machine, in any direction, has its condition holding (R119). -/
def State.anyBlock (s : State) (m : MachineId) : Bool :=
  s.entries.any fun e => e.blocks && e.machine == m && s.holds e

/-- BLOCKED, with the part the MC contributes while ISOLATE is asserted (R4). -/
def State.isBlocked (s : State) (m : MachineId) : Bool :=
  s.anyBlock m || ((s.chan m).state == .idle && s.anyValid m && s.hsc.isolate)

/-- CAPPED (R119). -/
def State.isCapped (s : State) (m : MachineId) : Bool :=
  match (s.chan m).live with
  | some r => (s.lowestCap m r.dir).isSome
  | none => false

/-! ## Audio -/

def State.source (s : State) (n : Nat) : SourceRec := peek s.zae.sources n
def State.sourceConfig (s : State) (n : Nat) : SourceConfig := peek s.settings.audio.sources n
def State.zone (s : State) (z : Nat) : ZoneRec := peek s.zae.zones z
def State.zoneConfig (s : State) (z : Nat) : ZoneConfig := peek s.settings.audio.zones z
def State.announce (s : State) (m : MachineId) : AnnounceRecord := s.settings.audio.announce.get m
def State.clip (s : State) (k : Nat) : ClipRec := peek s.zae.clips k

/-- The capacity of a source in frames, and its StartFill (R123). -/
def SourceConfig.capacity (c : SourceConfig) : Nat := c.count * framesPerBlock
def SourceConfig.startFill (c : SourceConfig) : Nat := c.capacity / 2

/-- SRCn_LOW (R123). -/
def State.sourceIsLow (s : State) (n : Nat) : Bool :=
  ((s.source n).state == .filling || (s.source n).state == .playing)
    && decide ((s.source n).fifo.length ≤ (s.sourceConfig n).lowMark)

/-- The voice is in a play of the built-in tone (R149). -/
def ZoneRec.playsTone (z : ZoneRec) : Bool := z.voice == .play && z.sound == .tone

/-- The clip is in play: a voice plays its samples (R140). -/
def State.clipInPlay (s : State) (k : Nat) : Bool :=
  (List.range 8).any (fun z => (s.zone z).voice == .play && (s.zone z).sound == .clip k)
    || (match s.zae.page with
        | some p => p.clip == k && p.playing.any id
        | none => false)

/-! ## The value of each item by its owner's rule -/

/-- The items of a machine's group that the three groups share (R4). -/
def State.machineItem (s : State) (m : MachineId) (k : Nat) : Bool :=
  match k with
  | 0 => (s.chan m).state == .idle
  | 1 => (s.chan m).state.isRunning
  | 2 => (s.chan m).state == .moving
  | 3 => (s.chan m).state == .held
  | 4 => (s.chan m).dirOut
  | 5 => (s.chan m).hasLinkRun
  | 6 => s.isBlocked m
  | _ => s.isCapped m

/-- STOWED or CLOSED, and LOWER_LIMIT or OPEN_LIMIT: false while UNCALIBRATED (R76). -/
def State.atInItem (s : State) (m : MachineId) : Bool := !s.uncalibrated m && s.atInEnd m
def State.atOutItem (s : State) (m : MachineId) : Bool := !s.uncalibrated m && s.atOutEnd m

/-- UNSECURED (R87): the CLOSED item is the one of the most recent sample (R76). -/
def State.isUnsecured (s : State) : Bool :=
  s.item (Item.atIn .h) && !s.pins.pinsLk && (s.chan .h).state == .idle

/-- The value an item has by the rule of its owner, from the state its owner keeps (chapter 11, Set by). -/
def State.itemNow (s : State) (r : ItemRef) : Bool :=
  match r.group with
  | .sys =>
    match r.place with
    | 0 => s.slp.linkOk
    | 1 => !s.sto.queue.isEmpty || s.sto.writing.isSome
    | 2 => s.pins.service
    | 3 => s.pins.estop
    | 4 => s.hsc.isolate
    | 5 => s.fis.trip.isSome
    | _ => false
  | .win =>
    match r.place with
    | 8 => s.pins.home
    | 9 => s.sfe.rode == s.settings.machines.windlass.rodeMax
    | 10 => s.sfe.rodeUnknown
    | 11 => (s.chan .w).state.isFlowing
    | 12 => s.pins.wOvld
    | 13 => (s.chan .w).conflict
    | k => decide (k < 8) && s.machineItem .w k
  | .plat =>
    match r.place with
    | 8 => s.atInItem .p
    | 9 => s.atOutItem .p
    | 10 => s.pins.ladder
    | 11 => s.pins.mat
    | 12 => (s.chan .p).conflict
    | 13 => s.uncalibrated .p
    | k => decide (k < 8) && s.machineItem .p k
  | .hatch =>
    match r.place with
    | 8 => s.atInItem .h
    | 9 => s.atOutItem .h
    | 10 => s.pins.pinsLk
    | 11 => s.pins.pinsUl
    | 12 => s.isUnsecured
    | 13 => s.pins.cradle
    | 14 => (s.chan .h).conflict
    | 15 => s.uncalibrated .h
    | k => decide (k < 8) && s.machineItem .h k
  | .hsu =>
    match r.place with
    | 0 => s.hsc.pump == .starting || s.hsc.pump == .running || s.hsc.pump == .runOn
    | 1 => s.hsc.pump == .starting || s.hsc.pump == .retryGap
    | 2 => s.pins.pressureOk
    | 3 => s.hsc.pump == .runOn
    | 4 => s.pins.oilHot
    | 5 => decide (grantSlots ≤ s.hsc.grants.length)
    | 6 => !s.hsc.queue.isEmpty
    | 7 => s.hsc.isolate
    | 8 => s.hsc.scaled
    | _ => false
  | .stn =>
    match r.place with
    | 0 => s.inputState .w .outward == .valid
    | 1 => s.inputState .w .inward == .valid
    | 2 => s.inputState .p .outward == .valid
    | 3 => s.inputState .p .inward == .valid
    | 4 => s.inputState .h .outward == .valid
    | 5 => s.inputState .h .inward == .valid
    | 6 => s.siq.display.w.pressed
    | 7 => s.siq.display.p.pressed
    | 8 => s.siq.display.h.pressed
    | 9 => s.siq.reset.w.pressed
    | 10 => s.siq.reset.p.pressed
    | 11 => s.siq.reset.h.pressed
    | 12 => s.anyInput .inhibited
    | 13 => s.anyInput .faulted
    | _ => false
  | .flt => (s.cause r.place).active
  | .aud =>
    match r.place with
    | 12 => s.zae.page.isSome
    | 13 => (List.range 8).any fun z => (s.zone z).playsTone
    | k =>
      if k < 12 then
        match k % 4 with
        | 0 => (s.source (k / 4)).state == .playing
        | 1 => s.sourceIsLow (k / 4)
        | 2 => (s.source (k / 4)).state == .unsupported
        | _ => (s.source (k / 4)).xrun
      else false
  | .zone => if r.place < 8 then !(s.zone r.place).list.isEmpty else (s.zone (r.place - 8)).quiet

end Sys2Proof.Machine
end

