-- ==== Sys2Proof/Machine/Ops.lean ====
section
/-! DEFINITION. The shared operations every block uses: queueing an event, publishing a status item, requesting a store
write. A block reaches another block's rule through a message, and `go` is what carries the message out: publishing an
item may end or start a run, which publishes items in turn, all inside one handling (R120, R164). -/

namespace Sys2Proof.Machine

/-- The messages between blocks that one handling may give rise to. -/
inductive Msg where
  /-- An item has changed: the FIS re-evaluates the interlock entries that name it (R120). -/
  | itemChanged (r : ItemRef)
  /-- An event of R7: the MC tries the station start of the machine. -/
  | tryStart (m : MachineId)
  /-- A block reports the condition of a cause present or absent (R105). -/
  | report (cause : Nat) (present : Bool)
  /-- A hold-to-run input of the machine entered RELEASED or INHIBITED: SELF causes are tried (R108). -/
  | letGo (m : MachineId)
deriving DecidableEq, Repr

/-- What carries a message out. -/
abbrev Go := Msg → State → State

/-! ## Event queue -/

/-- The list with the LOST flag of its last record set (R169). -/
def markLost : List Event → List Event
  | [] => []
  | [e] => [{ e with lost := true }]
  | e :: es => e :: markLost es

/-- A record is queued at the tail, or dropped with LOST set on the tail (R169). -/
def pushEvent (e : Event) (q : List Event) : List Event :=
  if q.length < eventCapacity then q ++ [e] else markLost q

def queueEvent (k : EventKind) (s : State) : State :=
  s.onSeu fun u => { u with events := pushEvent { kind := k, time := s.now, lost := false } u.events }

/-! ## Watches -/

/-- The combined value of the item set `items` in the group word `word` (chapter 11, Watches). -/
def combined (c : WatchCombine) (items word : Nat) : Bool :=
  match c with
  | .any => items &&& word != 0
  | .all => items &&& word == items

/-- The change to `new` matches the watch's edge (R168). -/
def edgeMatches (e : WatchEdge) (new : Bool) : Bool :=
  match e with
  | .rise => new
  | .fall => !new
  | .both => true

/-- Watch `i` is evaluated at a change of an item of group `g` (R168). -/
def evalWatch (g : Group) (s : State) (i : Nat) : State :=
  let w := peek s.seu.watches i
  match w.last with
  | none => s
  | some old =>
    if w.group = g then
      let word := s.groupWord g
      let new := combined w.combine w.items word
      if new = old then s
      else
        let s := if edgeMatches w.edge new then queueEvent (.watch i new word) s else s
        s.onSeu fun u => { u with watches := poke u.watches i { w with last := some new } }
    else s

/-- Every armed watch of the group, in index order (R168). -/
def evalWatches (g : Group) (s : State) : State := (List.range 8).foldl (evalWatch g) s

/-! ## Items -/

/-- An owner reports the value of an item: a change is recorded, the watches of the group are evaluated, and the interlock
entries that name the item are re-evaluated; the value already held is no change (R164). A place without an item takes no
value. -/
def setItem (go : Go) (r : ItemRef) (v : Bool) (s : State) : State :=
  if s.item r = v ∨ r.exists = false then s
  else
    go (.itemChanged r)
      (evalWatches r.group (s.onSeu fun u => { u with items := poke u.items r.index v }))

/-- The owner reports the item at the value its rule gives it now. -/
def publish (go : Go) (s : State) (r : ItemRef) : State := setItem go r (s.itemNow r) s

def publishAll (go : Go) (rs : List ItemRef) (s : State) : State := rs.foldl (publish go) s

/-! ## Store requests -/

def sectionCode : SectionName → Nat
  | .machines => 0 | .hsu => 1 | .interlocks => 2 | .causes => 3 | .stations => 4 | .audio => 5 | .indicators => 6 | .records => 7

def sections : List SectionName := [.machines, .hsu, .interlocks, .causes, .stations, .audio, .indicators, .records]

/-- The section is pending. -/
def isPending (x : SectionName) (q : List (SectionName × Bool)) : Bool := q.any fun e => e.1 == x

/-- A write request in the pending queue: RECORDS at the head, a configuration section at the tail, each at most once; a
SAVE SETTINGS sets the host mark of its entry (R179). -/
def enqueueWrite (x : SectionName) (mark : Bool) (q : List (SectionName × Bool)) : List (SectionName × Bool) :=
  if isPending x q then q.map fun e => if e.1 = x then (e.1, e.2 || mark) else e
  else if x = .records then (x, mark) :: q
  else q ++ [(x, mark)]

def requestWrite (go : Go) (x : SectionName) (mark : Bool) (s : State) : State :=
  publish go (s.onSto fun t => { t with queue := enqueueWrite x mark t.queue }) Item.storeBusy

/-- The RECORDS contents as they stand (R68, R116). -/
def recordsNow (s : State) : Records where
  latched := Vector.ofFn fun c : Fin 16 => (s.cause c.val).active && (s.causeSetting c.val).cls == .latched
  trip := s.fis.trip
  rode := { count := s.sfe.rode, known := !s.sfe.rodeUnknown, settled := (s.chan .w).live.isNone }

/-- A section's contents as they stand (R180). -/
def contentsNow (s : State) : SectionName → SectionData
  | .machines => .machines s.settings.machines
  | .hsu => .hsu s.settings.hsu
  | .interlocks => .interlocks s.settings.interlocks
  | .causes => .causes s.settings.causes
  | .stations => .stations s.settings.stations
  | .audio => .audio s.settings.audio
  | .indicators => .indicators s.settings.indicators
  | .records => .records (recordsNow s)

def SectionData.name : SectionData → SectionName
  | .machines _ => .machines
  | .hsu _ => .hsu
  | .interlocks _ => .interlocks
  | .causes _ => .causes
  | .stations _ => .stations
  | .audio _ => .audio
  | .indicators _ => .indicators
  | .records _ => .records

/-- When no write is in progress and the queue is not empty, the head section's write begins with the contents as they
stand (R180). No section is written during initialization (R183). DEDUCED: it begins at the end of the handling that
asked for it, since R113 has the write queued in step 6 of a raise carry the trip record of step 7 (log entry 5). -/
def beginWrite (s : State) : State :=
  match s.phase, s.sto.writing, s.sto.queue with
  | .running, none, (x, mark) :: rest =>
    s.onSto fun t => { t with queue := rest, writing := some { data := contentsNow s x, mark := mark } }
  | _, _, _ => s

/-- The end of every handling: the outcome is the state in which a store write that can begin has begun. -/
def finish (s : State) : Host.Outcome State Fault Refusal := .next (beginWrite s)

end Sys2Proof.Machine
end

