-- ==== Sys2Proof/Machine/Announce.lean ====
section
/-! DEFINITION. The announce lists, the voices' reactions to them, and the cutting of pages (R144, R145, R146, R148, R151). -/

namespace Sys2Proof.Machine

def zoneIndexes : List Nat := List.range 8

def setZone (z : Nat) (x : ZoneRec) (s : State) : State :=
  s.onZae fun a => { a with zones := poke a.zones z x }

/-- The zone may hold an entry for the machine: the machine holds a grant, the zone is in its announce zone set, and the zone
is safety or not QUIET (R144). -/
def State.announces (s : State) (z : Nat) (m : MachineId) : Bool :=
  s.granted m && peek (s.announce m).zones z && ((s.zoneConfig z).safety || !(s.zone z).quiet)

/-- The list a zone has after a reconsideration: the entries that stay in their order, then those that join, in the order
of the grant list (R144). -/
def State.reconsidered (s : State) (z : Nat) : List MachineId :=
  let old := (s.zone z).list
  old.filter (s.announces z) ++ s.hsc.grants.filter fun m => s.announces z m && !old.contains m

/-- The sound a play for the machine has at its start: the clip of its announce record if READY, else the tone (R146, R149). -/
def State.soundOf (s : State) (m : MachineId) : Sound :=
  match (s.announce m).clip with
  | some k => if (s.clip k).state = .ready then .clip k else .tone
  | none => .tone

/-- The zone with a play begun for the machine (R146). -/
def State.beginPlay (s : State) (m : MachineId) (z : ZoneRec) : ZoneRec :=
  { z with voice := .play, sound := s.soundOf m, place := 0, since := 0 }

/-- The voice falls silent. -/
def ZoneRec.silenced (z : ZoneRec) : ZoneRec := { z with voice := .silent, place := 0, since := 0 }

/-- The zone with the list `new` and the voice it then has: a new head plays at once, an empty list silences, any other
change leaves the voice as it is (R145, R148). -/
def State.withList (s : State) (new : List MachineId) (z : ZoneRec) : ZoneRec :=
  let y := { z with list := new }
  match z.list, new with
  | [], [] => y
  | _ :: _, [] => y.silenced
  | [], m :: _ => s.beginPlay m y
  | old :: _, m :: _ => if old = m then y else s.beginPlay m y

/-- The page is cut in a zone whose list is not empty, or which is QUIET and not safety (R151). -/
def State.cutsPage (s : State) (z : Nat) : Bool :=
  !(s.zone z).list.isEmpty || ((s.zone z).quiet && !(s.zoneConfig z).safety)

/-- The zones for which `f` holds among those still playing the page move from the playing set to the cut set; a voice still
in PAGE there falls silent (R145, R151). -/
def cutPage (f : Nat → Bool) (s : State) : State :=
  match s.zae.page with
  | none => s
  | some p =>
    let goes (z : Nat) : Bool := peek p.playing z && f z
    let s := zoneIndexes.foldl (fun s z =>
      if goes z && (s.zone z).voice == .page then setZone z (s.zone z).silenced s else s) s
    let p' : PageRec :=
      { p with
        playing := Vector.ofFn fun z : Fin 8 => peek p.playing z.val && !goes z.val
        cut := Vector.ofFn fun z : Fin 8 => peek p.cut z.val || goes z.val }
    s.onZae fun a => { a with page := some p' }

/-- When no zone plays the page any longer, PAGE_ENDED is queued, the page record is removed and PAGING becomes false
(R151). -/
def endPageIfDone (go : Go) (s : State) : State :=
  match s.zae.page with
  | none => s
  | some p =>
    if p.playing.any id then s
    else
      publish go
        (queueEvent (.pageEnded p.clip p.completed p.cut) s |>.onZae fun a => { a with page := none }) Item.paging

/-- Every zone's announce list is reconsidered; the items of the lists and of the tone follow, and then a page that no zone
plays any longer ends (R144, R145, R149, R151). -/
def reconsiderLists (go : Go) (s : State) : State :=
  let s := zoneIndexes.foldl (fun s z => setZone z (s.withList (s.reconsidered z) (s.zone z)) s) s
  let s := cutPage s.cutsPage s
  let s := publishAll go (zoneIndexes.map Item.announcing ++ [Item.toneAny]) s
  endPageIfDone go s

/-- CANCEL PAGE, or the raise of LINK_LOST: every zone still playing is cut (R152). -/
def cancelPageNow (go : Go) (s : State) : State := endPageIfDone go (cutPage (fun _ => true) s)

/-- A zone's QUIET takes the value; a change reconsiders its announce list and any page in it (R131, R137). -/
def setZoneQuiet (go : Go) (z : Nat) (q : Bool) (s : State) : State :=
  if (s.zone z).quiet = q then s
  else reconsiderLists go (publish go (setZone z { s.zone z with quiet := q } s) (Item.quiet z))

end Sys2Proof.Machine
end

