-- ==== Sys2Proof/Machine/Indicators.lean ====
section
/-! DEFINITION. The indicator driver: quantity and target of the bar displays, activation, ramp, hold time, overlays
(R154 to R159). It publishes no item and queues no event. -/

namespace Sys2Proof.Machine

def State.display (s : State) (m : MachineId) : DisplayRec := s.ind.displays.get m
def State.displayParams (s : State) (m : MachineId) : DisplayParams := s.settings.indicators.displays.get m

def setDisplay (m : MachineId) (d : DisplayRec) (s : State) : State :=
  s.onInd fun i => { i with displays := i.displays.set m d }

/-- The quantity of a display: metres of rode at the last sample, or the machine position (R154). -/
def State.quantity (s : State) (m : MachineId) : Nat :=
  match m with
  | .w => rodeMetres s.settings.machines.windlass.pocketPitch (s.chan .w).position
  | _ => (s.chan m).position

/-- How many thresholds of the set in use the quantity equals or exceeds (R154). -/
def State.target (s : State) (m : MachineId) : Nat :=
  let ts := if (s.chan m).dirOut then (s.displayParams m).outThresholds else (s.displayParams m).inThresholds
  (ts.toList.filter fun t => decide (t ≤ s.quantity m)).length

/-- The machine is at rest: its channel is IDLE or DISABLED (R158). -/
def ChanState.atRest : ChanState → Bool
  | .idle | .disabled => true
  | .waiting | .priming | .unlocking | .moving | .stopping | .locking | .held => false

/-- The hold time in milliseconds. -/
def State.holdMs (s : State) (m : MachineId) : Nat := (s.displayParams m).holdTime * 1000

/-- The overlay whose condition holds (R159). -/
def State.overlayWanted (s : State) (m : MachineId) : Overlay :=
  let p := s.displayParams m
  if (s.display m).state = .off then .none
  else if (s.chan m).state = .held || (p.flashHigh != 0 && decide (p.flashHigh ≤ s.quantity m)) then .flash
  else if p.blinkPeriod != 0 && (s.chan m).state = .moving then .blink
  else .none

def DisplayParams.period (p : DisplayParams) : Overlay → Nat
  | .none => 0
  | .flash => p.flashPeriod
  | .blink => p.blinkPeriod

/-- The overlay is judged: one that comes into force begins with an on half; the one in force keeps its phase (R159). -/
def judgeOverlay (m : MachineId) (s : State) : State :=
  let d := s.display m
  let o := s.overlayWanted m
  if o = d.overlay then s
  else
    setDisplay m
      (match o with
       | .none => { d with overlay := .none, overlayOn := false, overlayTimer := none }
       | _ => { d with overlay := o, overlayOn := true, overlayTimer := some ((s.displayParams m).period o / 2) }) s

/-- The display enters SHOWING with the lit count at the target; the hold timer starts if the machine is at rest (R157,
R158). -/
def enterShowing (m : MachineId) (s : State) : State :=
  setDisplay m
    { s.display m with
      state := .showing, lit := s.target m, ramp := none
      hold := if (s.chan m).state.atRest then some (s.holdMs m) else none } s

/-- A ramp goes on toward a target above the lit count, or ends at the target (R157). A RampDelay of 0 lights every
segment at once. -/
def continueRamp (m : MachineId) (s : State) : State :=
  let d := s.display m
  let t := s.target m
  if t ≤ d.lit then enterShowing m s
  else
    match d.ramp with
    | some _ => s
    | none =>
      if (s.displayParams m).rampDelay = 0 then enterShowing m s
      else setDisplay m { d with ramp := some (s.displayParams m).rampDelay } s

/-- The target of the display is recomputed and the display acts on it (R154, R157, R158, R159). -/
def refreshDisplay (m : MachineId) (s : State) : State :=
  judgeOverlay m
    (match (s.display m).state with
     | .off => s
     | .ramping => continueRamp m s
     | .showing => setDisplay m { s.display m with lit := s.target m } s)

/-- An activation (R156). -/
def activate (m : MachineId) (s : State) : State :=
  match (s.display m).state with
  | .off =>
    judgeOverlay m (continueRamp m (setDisplay m { s.display m with state := .ramping, lit := 0, ramp := none, hold := none } s))
  | .ramping => s
  | .showing =>
    if (s.chan m).state.atRest then setDisplay m { s.display m with hold := some (s.holdMs m) } s else s

/-- OFF from any state: every segment unlit, timers stopped, no overlay (R158, R161). -/
def displayOff (m : MachineId) (s : State) : State := setDisplay m DisplayRec.fresh s

/-- The channel has gone from `old` to its present state: the hold timer starts or stops, the overlay is judged (R158,
R159). -/
def displayFollows (old : ChanState) (m : MachineId) (s : State) : State :=
  let d := s.display m
  let rest := (s.chan m).state.atRest
  judgeOverlay m
    (if d.state = .showing then
      if rest && !old.atRest then setDisplay m { d with hold := some (s.holdMs m) } s
      else if !rest then setDisplay m { d with hold := none } s
      else s
    else s)

/-- The ramp timer expires: one more segment is lit (R157). -/
def rampExpiry (m : MachineId) (s : State) : State :=
  let d := s.display m
  if d.state = .ramping ∧ d.ramp.isSome then
    judgeOverlay m (continueRamp m (setDisplay m { d with lit := min (d.lit + 1) (s.target m), ramp := none } s))
  else s

/-- The hold timer expires: the display enters OFF (R158). -/
def holdExpiry (m : MachineId) (s : State) : State :=
  let d := s.display m
  if d.state = .showing ∧ d.hold.isSome then displayOff m s else s

/-- A half of the overlay in force ends: the other half starts, with the period now in force (R159). -/
def overlayExpiry (m : MachineId) (s : State) : State :=
  let d := s.display m
  if d.overlayTimer.isSome ∧ d.overlay ≠ .none then
    let period := (s.displayParams m).period d.overlay
    setDisplay m
      { d with
        overlayOn := !d.overlayOn
        overlayTimer := some (if d.overlayOn then period - period / 2 else period / 2) } s
  else s

/-- A half of the lamp flash clock ends (R162). -/
def flashClockExpiry (s : State) : State :=
  if s.ind.flashTimer.isSome then
    s.onInd fun i => { i with flashOn := !i.flashOn, flashTimer := some lampFlashHalf }
  else s

end Sys2Proof.Machine
end

