-- ==== Sys2Proof/Machine/Supply.lean ====
section
/-! DEFINITION. The channels of the machine controller and the hydraulic supply controller, which answer each other inside one
handling: channel states, flow sharing, grants and the wait queue, the pump, the end of a run (R1, R6, R15 to R17, R40 to
R53). -/

namespace Sys2Proof.Machine

def setChan (m : MachineId) (c : Channel) (s : State) : State := s.onMc fun t => t.set m c

/-! ## Channel states -/

/-- The stall timer runs while channel W is in MOVING with its applied demand at or above StallDemand (R63). -/
def stallCheck (s : State) : State :=
  let w := s.settings.machines.windlass
  if (s.chan .w).state = .moving ∧ w.stallDemand ≤ (s.chan .w).applied then
    match s.sfe.stall with
    | some _ => s
    | none => s.onSfe fun f => { f with stall := some w.stallTime }
  else s.onSfe fun f => { f with stall := none }

/-- The channel with its state set: a state other than MOVING and STOPPING has demand, flow request and applied demand 0
(R1), and MOVING is entered with demand 0 (R37). -/
def Channel.inState (c : Channel) (st : ChanState) : Channel :=
  match st with
  | .stopping => { c with state := st }
  | _ => { c with state := st, demand := 0, flow := 0, share := 0, applied := 0 }

/-- The pin timer runs in UNLOCKING and LOCKING, from the entry (R81). -/
def State.pinTimerFor (s : State) (st : ChanState) : Timer :=
  match st with
  | .unlocking | .locking => some s.settings.machines.lockTime
  | _ => none

/-- The creep reference is set when channel W enters IDLE and is none in every other state (R66). -/
def State.creepRefFor (s : State) (st : ChanState) : Option Nat :=
  match st with
  | .idle => some s.sfe.rode
  | _ => none

/-- What a channel's state change does beside the channel: pin timer of the hatch, creep reference of the windlass. -/
def followState (m : MachineId) (st : ChanState) (s : State) : State :=
  match m with
  | .w => s.onSfe fun f => { f with creepRef := s.creepRefFor st }
  | .p => s
  | .h => s.onSfe fun f => { f with pinTimer := s.pinTimerFor st }

/-- The items a channel's state and runs decide (R4, R62, R87, R119). -/
def channelItems (m : MachineId) : List ItemRef :=
  [Item.idle m, Item.running m, Item.moving m, Item.held m, Item.dirOut m, Item.linkRun m, Item.blocked m, Item.capped m]
    ++ (match m with
        | .w => [Item.brakeReleased]
        | .p => []
        | .h => [Item.unsecured])

/-- The channel, whose state was `old`, takes the state, with everything that follows at once: timers, display, items. -/
def changeFrom (go : Go) (old : ChanState) (m : MachineId) (st : ChanState) (s : State) : State :=
  let s := setChan m ((s.chan m).inState st) s
  publishAll go (channelItems m) (displayFollows old m (stallCheck (followState m st s)))

/-- The channel takes the state, from the one it is in. -/
def changeState (go : Go) (m : MachineId) (st : ChanState) (s : State) : State := changeFrom go (s.chan m).state m st s

/-- The channel enters a state; entering or leaving the granted states is told to the audio engine (R144). -/
def enter (go : Go) (m : MachineId) (st : ChanState) (s : State) : State :=
  let old := (s.chan m).state
  let s := changeState go m st s
  if old.isGranted = st.isGranted then s else reconsiderLists go s

/-! ## Flow sharing -/

/-- The channel is granted and in MOVING or STOPPING (R51). -/
def State.draws (s : State) (m : MachineId) : Bool := s.granted m && (s.chan m).state.isFlowing

/-- Pn (R51). -/
def State.pinFlow (s : State) : Nat :=
  if (s.chan .h).state = .unlocking ∨ (s.chan .h).state = .locking then min s.settings.machines.pinsFlow s.settings.hsu.fcap
  else 0

/-- Avail (R51). -/
def State.availFlow (s : State) : Nat := s.settings.hsu.fcap - s.pinFlow

/-- R: the sum of the flow requests of the channels that draw (R51). -/
def State.totalFlow (s : State) : Nat :=
  machines.foldl (fun r m => if s.draws m then r + (s.chan m).flow else r) 0

/-- The flow share and the applied demand of a channel with flow request `r`, demand `v` and valve flow `qmax` (R52). -/
def shareOf (avail total r v qmax : Nat) : Nat × Nat :=
  if r = 0 then (0, 0)
  else if total ≤ avail then (r, v)
  else (r * avail / total, r * avail / total * 1000 / qmax)

/-- The channel with the share that flow sharing gives it (R52); a channel that does not draw has none. -/
def State.shared (s : State) (m : MachineId) : Channel :=
  let c := s.chan m
  if s.draws m then
    let g := shareOf s.availFlow s.totalFlow c.flow c.demand (s.params m).qmax
    { c with share := g.1, applied := g.2 }
  else { c with share := 0, applied := 0 }

/-- The flow shares are recomputed; SCALED and the stall timer follow (R51, R52, R63). -/
def recompute (go : Go) (s : State) : State :=
  let mc : Three Channel := { w := s.shared .w, p := s.shared .p, h := s.shared .h }
  let s := s.onHsc fun h =>
    { h with pn := s.pinFlow, avail := s.availFlow, total := s.totalFlow, scaled := decide (s.availFlow < s.totalFlow) }
  publish go (stallCheck (s.onMc fun _ => mc)) Item.scaled

/-! ## The pump -/

def pumpItems : List ItemRef := [Item.pumpOn, Item.starting, Item.runOn]

/-- The pump takes a state, with its attempt number and timer; the pressure-loss timer stops outside RUNNING and RUN_ON
(R40, R47). -/
def setPump (go : Go) (p : PumpState) (attempt : Nat) (timer : Timer) (s : State) : State :=
  publishAll go pumpItems
    (s.onHsc fun h =>
      { h with pump := p, attempt := attempt, timer := timer, pressLoss := if p.confirmed then h.pressLoss else none })

/-- When the grant list is empty, a start is abandoned and a RUNNING pump enters RUN_ON, or OFF with RunOn 0 (R45, R46). -/
def pumpAfterRelease (go : Go) (s : State) : State :=
  if s.hsc.grants.isEmpty then
    match s.hsc.pump with
    | .starting | .retryGap => setPump go .off 0 none s
    | .running =>
      if s.settings.hsu.runOn = 0 then setPump go .off 0 none s
      else setPump go .runOn 0 (some s.settings.hsu.runOn) s
    | .off | .runOn => s
  else s

/-! ## Where a granted channel goes -/

/-- The channel enters MOVING; a hatch entering it with the pins not drawn, away from its closed end, raises H_PINS
(R6, R86). -/
def enterMoving (go : Go) (m : MachineId) (s : State) : State :=
  let s := recompute go (enter go m .moving s)
  if m = .h ∧ s.pins.pinsUl = false ∧ s.atInEnd .h = false then
    go (.report causePins false) (go (.report causePins true) s)
  else s

/-- The channel's live run needs the pins drawn first: a hatch OUT run while PINS_UL is inactive (R6, R82). -/
def State.needsUnlocking (s : State) (m : MachineId) : Bool :=
  m == .h && (s.chan m).runsIn .outward && !s.pins.pinsUl

/-- The state a granted channel enters (R6). -/
def routeGranted (go : Go) (m : MachineId) (s : State) : State :=
  if s.hsc.pump.confirmed then
    if s.needsUnlocking m then recompute go (enter go m .unlocking s) else enterMoving go m s
  else enter go m .priming s

/-- The pump is confirmed: the PRIMING channels move on in grant-list order and the shares are recomputed (R42). -/
def confirmPump (go : Go) (s : State) : State :=
  let s := setPump go .running 0 none s
  recompute go
    (s.hsc.grants.foldl (fun s m => if (s.chan m).state = .priming then routeGranted go m s else s) s)

/-- The attempt in progress is confirmed when PRESSURE_OK is active. A start that has been abandoned meanwhile, because a
reaction took its grant away, has no attempt to confirm (R42, R45). -/
def judgeAttempt (go : Go) (s : State) : State :=
  if s.hsc.pump = .starting ∧ s.pins.pressureOk = true then confirmPump go s else s

/-- Start attempt `k` begins; it is confirmed at once when PRESSURE_OK is active (R42, R43). -/
def beginAttempt (go : Go) (k : Nat) (s : State) : State :=
  judgeAttempt go (setPump go .starting k (some s.settings.hsu.primeTime) s)

/-- A slot is given to the channel: the pump is started or returned from RUN_ON, and the channel goes where R6 sends it
(R42, R46, R49). -/
def giveGrant (go : Go) (m : MachineId) (s : State) : State :=
  let s := publish go (s.onHsc fun h => { h with grants := h.grants ++ [m] }) Item.grantsFull
  let s :=
    match s.hsc.pump with
    | .off => judgeAttempt go (enter go m .priming (setPump go .starting 1 (some s.settings.hsu.primeTime) s))
    | .runOn => routeGranted go m (setPump go .running 0 none s)
    | .starting | .retryGap | .running => routeGranted go m s
  recompute go s

/-- A channel asks for a grant (R49). -/
def requestGrant (go : Go) (m : MachineId) (s : State) : State :=
  if s.hsc.grants.length < grantSlots then giveGrant go m s
  else
    publish go (enter go m .waiting (s.onHsc fun h => { h with queue := h.queue ++ [m] })) Item.waitingAny

/-- A free slot goes to the head of the wait queue (R50). -/
def handOver (go : Go) (s : State) : State :=
  match s.hsc.queue with
  | [] => s
  | m :: rest =>
    if s.hsc.grants.length < grantSlots then
      publish go (giveGrant go m (s.onHsc fun h => { h with queue := rest })) Item.waitingAny
    else s

/-! ## The end of a run -/

/-- Whether a channel that leaves the granted states hands its slot on now, at the end of the raise that holds it (R106), or
never, because ISOLATE has emptied both collections (R53). -/
inductive Handing where
  | now | later | never
deriving DecidableEq, Repr

/-- What the HSC does once a channel has left the grant list or the wait queue (R45, R46, R50, R51). -/
def afterRelease (go : Go) (hand : Handing) (s : State) : State :=
  match hand with
  | .never => s
  | .now => recompute go (publishAll go [Item.grantsFull, Item.waitingAny] (pumpAfterRelease go (handOver go s)))
  | .later => recompute go (publishAll go [Item.grantsFull, Item.waitingAny] (pumpAfterRelease go s))

/-- The channel is in neither the grant list nor the wait queue, and its live run, if any, is completed (R17, R50). -/
def dropRun (m : MachineId) (s : State) : State :=
  let c := s.chan m
  let s := s.onHsc fun h => { h with grants := h.grants.erase m, queue := h.queue.erase m }
  match c.live with
  | some r => setChan m { c with live := none, last := some { r with endPos := some c.position }, refresh := none } s
  | none => setChan m { c with refresh := none } s

/-- RUN_ENDED of a run that ends at position `pos` (R17). -/
def runEnded (m : MachineId) (r : RunRec) (pos : Nat) : EventKind :=
  .runEnded m r.id r.origin r.dir (r.endReason.getD .isolated) r.cause r.startPos pos

/-- The channel while its grant is handed back: its run is over and its demand 0, and it is neither IDLE nor HELD yet, so
that nothing that happens meanwhile starts a run on it (R15 to R17). -/
def Channel.released (c : Channel) : Channel := { c.inState .idle with state := .stopping }

/-- The channel's run is over, and its grant or its place in the queue is the HSC's again (R16, R50). -/
def handBack (m : MachineId) (s : State) : State :=
  let s := dropRun m s
  setChan m (s.chan m).released s

/-- The brake is engaged, or stays engaged, when channel W leaves its running state (R16, R62). -/
def engageBrake (go : Go) (m : MachineId) (s : State) : State :=
  match m with
  | .w => setItem go Item.brakeReleased false s
  | .p | .h => s

/-- The channel leaves its running state for IDLE or HELD, in the order of R16: the brake is engaged and the grant released,
with all that the HSC does then; the channel enters its state; its run is completed; and at IDLE the station start is tried
(R15 to R17, R50). DEDUCED: the hatch leaving LOCKING keeps this order too, as R84's words do (log entry 34). -/
def leave (go : Go) (m : MachineId) (st : ChanState) (hand : Handing) (s : State) : State :=
  let c := s.chan m
  let s := afterRelease go hand (engageBrake go m (handBack m s))
  let s := changeFrom go c.state m st s
  let s :=
    match c.live with
    | some r => queueEvent (runEnded m r c.position) s
    | none => s
  let s := if c.state.isGranted then reconsiderLists go s else s
  let s := if m = .w ∧ c.live.isSome then requestWrite go .records false s else s
  if st = .idle then go (.tryStart m) s else s

/-- A ramped end reason is written when the run has none yet; the refresh timer stops (R11, R15). -/
def noteReason (m : MachineId) (x : EndReason) (s : State) : State :=
  let c := s.chan m
  match c.live with
  | some r => setChan m { c with live := some { r with endReason := some (r.endReason.getD x) }, refresh := none } s
  | none => s

/-- FAULT, with its cause, and ISOLATED are written even over a ramped reason (R15). -/
def forceReason (m : MachineId) (x : EndReason) (cause : Option Nat) (s : State) : State :=
  let c := s.chan m
  match c.live with
  | some r => setChan m { c with live := some { r with endReason := some x, cause := cause }, refresh := none } s
  | none => s

/-- The stop completes: a closed hatch whose pins are not home locks them, every other channel enters IDLE (R16, R84). -/
def stopComplete (go : Go) (m : MachineId) (s : State) : State :=
  if m = .h ∧ (s.chan m).runsIn .inward ∧ s.atInEnd m ∧ s.pins.pinsLk = false then
    recompute go (enter go m .locking s)
  else leave go m .idle .now s

/-- A ramped end reason is taken (R15). A channel that enters STOPPING with demand 0 completes its stop at once (R16). -/
def endRun (go : Go) (m : MachineId) (x : EndReason) (s : State) : State :=
  match (s.chan m).state with
  | .waiting | .priming | .unlocking => leave go m .idle .now (noteReason m x s)
  | .moving =>
    let v := (s.chan m).demand
    let s := enter go m .stopping (noteReason m x s)
    if v = 0 then stopComplete go m s else recompute go s
  | .stopping | .locking | .disabled | .idle | .held => s

end Sys2Proof.Machine
end

