-- ==== Sys2Proof/Machine/Supervisor.lean ====
section
/-! DEFINITION. The inhibiting of station inputs and the fault supervisor: holding a channel, raising and clearing a cause, the
trip, ISOLATE, and the reports of conditions (R18 to R20, R53, R54, R94, R95, R104 to R116). -/

namespace Sys2Proof.Machine

/-! ## Inhibiting station inputs -/

def setInput (i : HoldInput) (x : HoldRec) (s : State) : State :=
  s.onSiq fun q => { q with inputs := q.inputs.set i.machine ((q.inputs.get i.machine).set i.dir x) }

/-- The pattern of the two contacts (R90). -/
def patternOf (a b : Bool) : Pattern :=
  match a, b with
  | false, true => .released
  | true, false => .pressed
  | _, _ => .partly

/-- An input on an inhibit order (R95). -/
def HoldRec.inhibited (x : HoldRec) (releaseTime : Nat) : HoldRec :=
  match x.state with
  | .early | .agreed | .valid | .releasing =>
    { x with state := .inhibited, timer := if patternOf x.a x.b = .released then some (.release, releaseTime) else none }
  | .released | .faulted | .inhibited => x

/-- The items an input's state decides (R97), with the part the MC contributes to BLOCKED (R4). -/
def inputItems (i : HoldInput) : List ItemRef :=
  [Item.holdInput i, Item.inhibitedAny, Item.faultedAny, Item.blocked i.machine]

/-- The MC orders the two inputs of the machine inhibited; SELF causes of the machine are then tried (R95, R108). DESIGN CHOICE: both
inputs take their state before any item changes, and the items of the OUT input, INHIBITED_ANY among them, change before that of the
IN input (log entry 46). -/
def inhibit (go : Go) (m : MachineId) (s : State) : State :=
  let t := s.settings.stations.releaseTime
  let s := setInput ⟨m, .outward⟩ ((s.input ⟨m, .outward⟩).inhibited t) s
  let s := setInput ⟨m, .inward⟩ ((s.input ⟨m, .inward⟩).inhibited t) s
  go (.letGo m) (publishAll go (inputItems ⟨m, .outward⟩ ++ inputItems ⟨m, .inward⟩) s)

/-! ## Holding and releasing channels -/

/-- The MC holds a machine on an active cause: a running channel ends its run FAULT, an IDLE one has no run to end, and both
enter HELD with the machine's inputs inhibited (R15, R19). DESIGN CHOICE: the inhibit order comes once the channel is HELD and its
run is completed (log entry 46). -/
def hold (go : Go) (m : MachineId) (cause : Nat) (hand : Handing) (s : State) : State :=
  match (s.chan m).state with
  | .disabled | .held => s
  | .idle => inhibit go m (enter go m .held s)
  | .waiting | .priming | .unlocking | .moving | .stopping | .locking =>
    inhibit go m (leave go m .held hand (forceReason m .fault (some cause) s))

/-- Every HELD channel that no active cause affects any longer enters IDLE and tries its station start (R20). -/
def releaseHeld (go : Go) (s : State) : State :=
  machines.foldl (fun s m =>
    if (s.chan m).state = .held ∧ s.affected m = false then go (.tryStart m) (enter go m .idle s) else s) s

/-! ## ISOLATE -/

/-- The MC ends the run of a channel whose grant or place in the queue ISOLATE has taken (R18, R53). -/
def isolateChannel (go : Go) (s : State) (m : MachineId) : State :=
  if (s.chan m).state.isRunning then leave go m .idle .never (forceReason m .isolated none s)
  else dropRun m s

/-- Flow sharing as it stands once ISOLATE has emptied the grant list, which held `dropped` when it was asserted: each grant released
recomputes it (R51); with none to release Avail and R stay as last computed, and SCALED is false all the same (R53). -/
def flowIsolated (go : Go) (dropped : List MachineId) (s : State) : State :=
  if dropped.isEmpty then publish go (s.onHsc fun h => { h with scaled := false }) Item.scaled else recompute go s

/-- ISOLATE is asserted: the items, the dropped grants and queue places in the order W, P, H, the pump, the supply items
(R53). -/
def assertIsolate (go : Go) (s : State) : State :=
  let s := publishAll go [Item.isolated, Item.isolateOut] (s.onHsc fun h => { h with isolate := true })
  let dropped := s.hsc.grants
  let named := machines.filter fun m => dropped.contains m || s.hsc.queue.contains m
  let s := named.foldl (isolateChannel go) (s.onHsc fun h => { h with queue := [] })
  let s := flowIsolated go dropped (setPump go .off 0 none s)
  publishAll go ([Item.grantsFull, Item.waitingAny] ++ machines.map Item.blocked) s

/-- ISOLATE is released: the items, and the station start of every IDLE channel (R54). DESIGN CHOICE: the starts are tried in
the order W, P, H, which decides who gets the two slots (log entry 22). -/
def releaseIsolate (go : Go) (s : State) : State :=
  let s := publishAll go [Item.isolated, Item.isolateOut] (s.onHsc fun h => { h with isolate := false })
  machines.foldl (fun s m => publish go (go (.tryStart m) s) (Item.blocked m)) s

/-- ISOLATE is asserted while the ESTOP input is active or a trip record exists (R114). -/
def reconsiderIsolate (go : Go) (s : State) : State :=
  let want := s.pins.estop || s.fis.trip.isSome
  if want && !s.hsc.isolate then assertIsolate go s
  else if !want && s.hsc.isolate then releaseIsolate go s
  else s

/-! ## Causes -/

def setCause (c : Nat) (x : CauseRec) (s : State) : State :=
  s.onFis fun f => { f with causes := poke f.causes c x }

/-- The trip: a record is written when none exists, and ISOLATE is reconsidered (R113). -/
def takeTrip (go : Go) (c : Nat) (s : State) : State :=
  match s.fis.trip with
  | some _ => s
  | none =>
    let record : TripRec := { cause := c, time := s.now, rode := s.sfe.rode, restored := false }
    reconsiderIsolate go (publish go (s.onFis fun f => { f with trip := some record }) Item.tripRecorded)

/-- A cause is raised: steps 1 to 7, and at the end the slots freed in step 2 go to the wait queue (R106). The raise of
LINK_LOST is handed to the audio engine (R152, R177). -/
def raise (go : Go) (c : Nat) (s : State) : State :=
  let setting := s.causeSetting c
  let affected := s.affectedSet c
  let named := machines.filter affected.get
  let s := setCause c { s.cause c with active := true, raisedAt := some s.now } s
  let s := named.foldl (fun s m => hold go m c .later s) s
  let s := publish go s (Item.cause c)
  let s := queueEvent (.faultRaised c affected setting.trip) s
  let s := if c = causeLinkLost then cancelPageNow go s else s
  let s := named.foldl (fun s m => activate m s) s
  let s := if setting.cls = .latched then requestWrite go .records false s else s
  let s := if setting.trip then takeTrip go c s else s
  if s.hsc.queue.isEmpty then s else afterRelease go .now (handOver go s)

/-- A cause is cleared (R110). -/
def clearCause (go : Go) (c : Nat) (means : ClearMeans) (s : State) : State :=
  let setting := s.causeSetting c
  let s := setCause c { s.cause c with active := false, raisedAt := none } s
  let s := publish go s (Item.cause c)
  let s := queueEvent (.faultCleared c means) s
  let s := if setting.cls = .latched then requestWrite go .records false s else s
  releaseHeld go s

/-- The clear of a SELF cause: its condition is absent and every input of every machine it affects is let go (R108). -/
def trySelfClear (go : Go) (c : Nat) (s : State) : State :=
  if (s.cause c).active ∧ (s.causeSetting c).cls = .self ∧ (s.cause c).present = false
      ∧ (machines.all fun m => !s.affects c m || s.allLetGo m) then clearCause go c .self s
  else s

/-- A block reports the condition of a cause present or absent (R105, R107). -/
def report (go : Go) (c : Nat) (present : Bool) (s : State) : State :=
  let x := s.cause c
  if present then
    if x.present then s
    else
      let s := setCause c { x with present := true } s
      if x.active then s else raise go c s
  else trySelfClear go c (setCause c { x with present := false } s)

/-- An event condition: present and then absent in the same handling (chapter 7). -/
def reportEvent (go : Go) (c : Nat) (s : State) : State := report go c false (report go c true s)

/-- An input of the machine entered RELEASED or INHIBITED: the SELF causes that affect the machine are tried, in index order
(R108). -/
def letGo (go : Go) (m : MachineId) (s : State) : State :=
  causeIndexes.foldl (fun s c => if s.affects c m then trySelfClear go c s else s) s

/-! ## The faulted-station set of cause 12 (R94) -/

def setFaulted (i : HoldInput) (v : Bool) (s : State) : State :=
  s.onFis fun f => { f with faulted := f.faulted.set i.machine ((f.faulted.get i.machine).set i.dir v) }

/-- An input joins the set: the condition is present, and a machine not yet affected is held and its display activated
(R94, R156). DESIGN CHOICE: a slot that the hold frees goes to the waiter at the end, as in a raise (log entry 47). -/
def addFaulted (go : Go) (i : HoldInput) (s : State) : State :=
  let wasActive := (s.cause causeStationChannel).active
  let wasAffected := s.stationFaulted i.machine
  let s := report go causeStationChannel true (setFaulted i true s)
  if wasActive ∧ wasAffected = false then
    let s := activate i.machine (hold go i.machine causeStationChannel .later s)
    if s.hsc.queue.isEmpty then s else afterRelease go .now s
  else s

/-- An input leaves the set: an empty set makes the condition absent, and a machine with no input left in the set may leave
HELD (R94, R20). -/
def removeFaulted (go : Go) (i : HoldInput) (s : State) : State :=
  let s := setFaulted i false s
  let s := if s.anyStationFaulted then s else report go causeStationChannel false s
  releaseHeld go s

end Sys2Proof.Machine
end

