-- ==== Sys2Proof/Machine/Runs.lean ====
section
/-! DEFINITION. Starting runs, conflicts and presses (R5 to R9, R12, R13), the re-evaluation of interlock entries (R120), and the
delivery of the messages that one handling gives rise to. -/

namespace Sys2Proof.Machine

/-! ## Creating a run -/

/-- The run record at creation (R3). -/
def newRun (c : Channel) (o : Origin) (d : Direction) (target : Option Nat) : RunRec :=
  { id := c.counter, origin := o, dir := d, target := target, startPos := c.position, endReason := none, cause := none,
    endPos := none }

/-- The channel with the run created: the last-run record is discarded, the run counter advances, and a LINK run carries a
refresh timer (R3, R5, R8). -/
def Channel.withRun (c : Channel) (o : Origin) (d : Direction) (target : Option Nat) (refreshTime : Nat) : Channel :=
  { c with
    live := some (newRun c o d target), last := none, counter := (c.counter + 1) % runIdWrap, dirOut := d == .outward
    refresh := match o with | .link => some refreshTime | .station => none }

/-- A run is created: the record, DIR_OUT, the grant request, the windlass's creep reference and condition and its RECORDS
write, the display (R5, R6, R66 to R68, R154, R156). -/
def createRun (go : Go) (m : MachineId) (o : Origin) (d : Direction) (target : Option Nat) (s : State) : State :=
  let s := setChan m ((s.chan m).withRun o d target s.settings.machines.refreshTime) s
  let s := publish go s (Item.dirOut m)
  let s := requestGrant go m s
  let s :=
    match m with
    | .w => requestWrite go .records false (report go causeCreep false s)
    | .p => s
    | .h => s
  activate m (refreshDisplay m s)

/-! ## Starts and conflicts -/

/-- The outcome of the checks of R5 that a station start and a RUN share. -/
inductive StartCheck where
  | passes | notReady | faulted | interlocked
deriving DecidableEq, Repr

/-- Checks 1 to 3 and 5 to 7 of R5. A channel that an active cause affects counts as HELD from step 1 of the raise on
(R19; log entry 9). -/
def State.startCheck (s : State) (m : MachineId) (d : Direction) : StartCheck :=
  let st := (s.chan m).state
  if st = .disabled then .notReady
  else if st = .held ∨ s.affected m then .faulted
  else if st ≠ .idle then .notReady
  else if s.uncalibrated m then .notReady
  else if s.hsc.isolate then .notReady
  else if s.blockMatches m d then .interlocked
  else .passes

/-- A conflict is taken: both inputs inhibited, CONFLICT true, a run not yet ending ended (R13). -/
def takeConflict (go : Go) (m : MachineId) (s : State) : State :=
  let s := inhibit go m s
  let s := publish go (setChan m { s.chan m with conflict := true } s) (Item.conflict m)
  endRun go m .conflict s

/-- The station start of R7: an IDLE channel with one VALID input whose checks pass. DESIGN CHOICE: CONFLICT bars no start, so
after a conflict an input that was released and pressed afresh to VALID starts its run though the other input is still
INHIBITED (R13's last sentence and R95's read differently there, log entry 35). -/
def tryStart (go : Go) (m : MachineId) (s : State) : State :=
  if (s.chan m).state = .idle then
    match s.inputState m .outward == .valid, s.inputState m .inward == .valid with
    | true, true => takeConflict go m s
    | true, false => if s.startCheck m .outward = .passes then createRun go m .station .outward none s else s
    | false, true => if s.startCheck m .inward = .passes then createRun go m .station .inward none s else s
    | false, false => s
  else s

/-- A hold-to-run input has become VALID: a conflict, the override of a LINK run, or a station start (R7, R12, R13). -/
def becameValid (go : Go) (i : HoldInput) (s : State) : State :=
  if s.inputState i.machine i.dir ≠ .valid then s
  else if s.inputState i.machine i.dir.other = .valid then takeConflict go i.machine s
  else if (s.chan i.machine).hasLinkRun then endRun go i.machine .overridden s
  else tryStart go i.machine s

/-- The press of an input has ended: the station run it started ends RELEASED (R92). -/
def pressEnded (go : Go) (i : HoldInput) (s : State) : State :=
  match (s.chan i.machine).live with
  | some r => if r.origin = .station ∧ r.dir = i.dir then endRun go i.machine .released s else s
  | none => s

/-- An input has entered RELEASED: CONFLICT ends once both inputs are RELEASED, and SELF causes are tried (R13, R108). -/
def enteredReleased (go : Go) (i : HoldInput) (s : State) : State :=
  let m := i.machine
  let s :=
    if (s.chan m).conflict ∧ s.allReleased m then
      publish go (setChan m { s.chan m with conflict := false } s) (Item.conflict m)
    else s
  letGo go m s

/-! ## Interlock re-evaluation -/

/-- The live run that a BLOCK entry coming to match ends (R120). -/
def blockedRun (s : State) (e : InterlockEntry) : Bool :=
  match (s.chan e.machine).live with
  | some r => e.blocks && e.covers e.machine r.dir && s.holds e
  | none => false

/-- The entries `es` are re-evaluated: runs they come to block end INTERLOCK, starts they no longer block are tried, BLOCKED
and CAPPED follow (R120). -/
def reevaluate (go : Go) (es : List InterlockEntry) (s : State) : State :=
  let s := es.foldl (fun s e => if blockedRun s e then endRun go e.machine .interlock s else s) s
  let s := es.foldl (fun s e => if e.blocks && !s.holds e then tryStart go e.machine s else s) s
  publishAll go (machines.map Item.blocked ++ machines.map Item.capped) s

/-- An item has changed: the entries that name it are re-evaluated (R120). -/
def react (go : Go) (r : ItemRef) (s : State) : State :=
  match s.entries.filter fun e => e.item == r with
  | [] => s
  | es => reevaluate go es s

/-! ## Delivering messages -/

/-- One message is carried out. -/
def handle (go : Go) : Msg → State → State
  | .itemChanged r, s => react go r s
  | .tryStart m, s => tryStart go m s
  | .report c p, s => report go c p s
  | .letGo m, s => letGo go m s

/-- A message is carried out with the messages it gives rise to, at once and depth first, to the depth `n`. -/
def deliver : Nat → Go
  | 0, _, s => s
  | n + 1, m, s => handle (deliver n) m s

/-- How deep the messages of one handling may follow from one another (log entry 3). -/
def cascadeDepth : Nat := 64

/-- The messages of a handling, as every command sends them. -/
def send : Go := deliver cascadeDepth

end Sys2Proof.Machine
end

