-- ==== Sys2Proof/Machine/Stations.lean ====
section
/-! DEFINITION. The station input qualifier: hold-to-run inputs, buttons and guest keys (R90 to R101). A timer expiry is an event
of its own and takes effect while its timer runs (log entry 2). -/

namespace Sys2Proof.Machine

/-! ## Hold-to-run inputs -/

/-- The input in a state with the timer that the state runs. -/
def HoldRec.goes (x : HoldRec) (st : InputState) (timer : Option (StationTimer × Nat)) : HoldRec :=
  { x with state := st, timer := timer }

/-- The input after its pattern has become `new` (R91, R92, R93, R95). `x` has the new contact levels already. -/
def HoldRec.onPattern (x : HoldRec) (new : Pattern) (p : StationSettings) : HoldRec :=
  match x.state, new with
  | .released, .partly => x.goes .early (some (.disagree, p.disagreeTime))
  | .released, .pressed => x.goes .agreed (some (.qualify, p.qualifyTime))
  | .released, .released => x
  | .early, .pressed => x.goes .agreed (some (.qualify, p.qualifyTime))
  | .early, .released => x.goes .released none
  | .early, .partly => x
  | .agreed, .partly => x.goes .early (some (.disagree, p.disagreeTime))
  | .agreed, .released => x.goes .released none
  | .agreed, .pressed => x
  | .valid, .partly => x.goes .releasing (some (.disagree, p.disagreeTime))
  | .valid, .released => x.goes .releasing (some (.release, p.releaseTime))
  | .valid, .pressed => x
  | .releasing, .pressed => x.goes .valid none
  | .releasing, .released => x.goes .releasing (some (.release, p.releaseTime))
  | .releasing, .partly => x.goes .releasing (some (.disagree, p.disagreeTime))
  | .faulted, .released => x.goes .faulted (some (.release, p.releaseTime))
  | .faulted, _ => x.goes .faulted none
  | .inhibited, .released => x.goes .inhibited (some (.release, p.releaseTime))
  | .inhibited, _ => x.goes .inhibited none

/-- The input with new contact levels: an unchanged pattern, as when one partial pattern passes into the other, changes
neither state nor timer (R90). -/
def HoldRec.withLevels (x : HoldRec) (a b : Bool) (p : StationSettings) : HoldRec :=
  let y := { x with a := a, b := b }
  if patternOf a b = patternOf x.a x.b then y else y.onPattern (patternOf a b) p

/-- The input takes the record `y`: its items follow, and an entry into VALID or RELEASED is reported to the MC (R92, R97). DESIGN
CHOICE: the items change, with their reactions, before the report (log entry 40). -/
def inputBecomes (go : Go) (i : HoldInput) (y : HoldRec) (s : State) : State :=
  let old := (s.input i).state
  let s := publishAll go (inputItems i) (setInput i y s)
  if y.state = old then s
  else
    match y.state with
    | .valid => becameValid go i s
    | .released => enteredReleased go i s
    | .early | .agreed | .releasing | .faulted | .inhibited => s

/-- A change of level on either channel of a hold-to-run input (R90). Outside service the level alone is kept: during
initialization the levels are not read. -/
def holdToRunLevelChange (go : Go) (i : HoldInput) (a b : Bool) (s : State) : State :=
  let x := s.input i
  if x.a = a ∧ x.b = b then s
  else if s.phase = .running then inputBecomes go i (x.withLevels a b s.settings.stations) s
  else setInput i { x with a := a, b := b } s

/-- The timer `k` of the input runs. -/
def HoldRec.runs (x : HoldRec) (k : StationTimer) : Bool :=
  match x.timer with
  | some (k', _) => k' == k
  | none => false

/-- The qualify timer expires: AGREED becomes VALID (R91). -/
def qualifyTimerExpiry (go : Go) (i : HoldInput) (s : State) : State :=
  let x := s.input i
  if x.state = .agreed ∧ x.runs .qualify then inputBecomes go i (x.goes .valid none) s else s

/-- The disagree timer expires: the input enters FAULTED, with its items, and joins the faulted-station set (R93, log entry 40). -/
def disagreeTimerExpiry (go : Go) (i : HoldInput) (s : State) : State :=
  let x := s.input i
  if (x.state = .early ∨ x.state = .releasing) ∧ x.runs .disagree then
    addFaulted go i (inputBecomes go i (x.goes .faulted none) s)
  else s

/-- The release timer expires: the input enters RELEASED; from RELEASING the press has ended, from FAULTED the input leaves
the set (R92, R93, R95). The report that ends the press comes before the reaction to the entry into RELEASED. DESIGN CHOICE: so does
the removal from the set, with the releases and starts it brings (log entry 45). -/
def releaseTimerExpiry (go : Go) (i : HoldInput) (s : State) : State :=
  let x := s.input i
  if x.runs .release then
    let s := publishAll go (inputItems i) (setInput i (x.goes .released none) s)
    match x.state with
    | .releasing => enteredReleased go i (pressEnded go i s)
    | .faulted => enteredReleased go i (removeFaulted go i s)
    | .inhibited => enteredReleased go i s
    | .released | .early | .agreed | .valid => s
  else s

/-! ## Buttons and guest keys -/

/-- A contact changes level: the debounce timer runs while level and debounced state differ (R98). -/
def ContactRec.withLevel (x : ContactRec) (closed : Bool) (qualifyTime : Nat) : ContactRec :=
  { x with
    closed := closed
    debounce :=
      if closed = x.pressed then none
      else match x.debounce with
        | some t => some t
        | none => some qualifyTime }

def buttonLevelChange (c : ContactId) (closed : Bool) (s : State) : State :=
  let x := contactOf s.siq c
  if x.closed = closed then s
  else if s.phase = .running then
    s.onSiq (setContact c (x.withLevel closed s.settings.stations.qualifyTime))
  else s.onSiq (setContact c { x with closed := closed })

def setLongPress (m : MachineId) (t : Timer) (s : State) : State :=
  s.onSiq fun q => { q with longPress := q.longPress.set m t }

/-- The item a contact decides; guest keys have none (R97). -/
def contactItems : ContactId → List ItemRef
  | .display m => [Item.displayButton m]
  | .reset m => [Item.resetButton m]
  | .key _ => []

/-- A press of guest key `k`: the bound zone's QUIET is toggled, and GUEST_KEY is queued (R101). -/
def guestKeyPress (go : Go) (k : Nat) (s : State) : State :=
  match peek s.settings.stations.bindings k with
  | some z =>
    let s := setZoneQuiet go z (!(s.zone z).quiet) s
    queueEvent (.guestKey k (some (z, (s.zone z).quiet))) s
  | none => queueEvent (.guestKey k none) s

/-- A press of an armed contact (R99, R100, R101). -/
def contactPress (go : Go) (c : ContactId) (s : State) : State :=
  match c with
  | .display m => activate m s
  | .reset m => setLongPress m (some longPressTime) s
  | .key k => guestKeyPress go k.val s

/-- The release of a contact: a reset button stops its long-press timer (R100). -/
def contactRelease (c : ContactId) (s : State) : State :=
  match c with
  | .reset m => setLongPress m none s
  | .display _ | .key _ => s

/-- The debounce timer expires: the debounced state takes the level; entering RELEASED arms, and an armed entry into PRESSED
is a press (R98). -/
def debounceTimerExpiry (go : Go) (c : ContactId) (s : State) : State :=
  let x := contactOf s.siq c
  if x.debounce.isSome then
    let y : ContactRec := { x with pressed := x.closed, debounce := none, armed := x.armed || !x.closed }
    let s := publishAll go (contactItems c) (s.onSiq (setContact c y))
    if x.closed then (if x.armed then contactPress go c s else s)
    else contactRelease c s
  else s

/-- A long press at the station of `m` may clear cause `c` (R100). -/
def State.longPressClears (s : State) (m : MachineId) (c : Nat) : Bool :=
  (s.cause c).active && (s.causeSetting c).cls == .crew && !(s.cause c).present
    && (s.affects c m || (m == .w && c == causeCreep) || (c == causeStationChannel && !s.anyStationFaulted))

/-- The long-press timer expires: the causes found clearable are cleared in index order, with means STATION (R100). DESIGN CHOICE:
every cause is judged at the expiry, before the first one is cleared (log entry 41). -/
def longPressTimerExpiry (go : Go) (m : MachineId) (s : State) : State :=
  match s.siq.longPress.get m with
  | none => s
  | some _ =>
    (causeIndexes.filter (s.longPressClears m)).foldl (fun s c => clearCause go c .station s) (setLongPress m none s)

end Sys2Proof.Machine
end

