-- ==== Sys2Proof/Machine/Samples.lean ====
section
/-! DEFINITION. Position samples: the position of each machine, the sensor checks, and the demand arithmetic of a channel in
MOVING or STOPPING (R10, R16, R24 to R39, R61, R73 to R77); the expiry of a refresh timer (R11). -/

namespace Sys2Proof.Machine

/-! ## Sensor counts to position -/

/-- The raw position a calibrated sensor gives for a count: signed division, truncated toward zero (R25, R26). -/
def Calibration.raw (c : Calibration) (count : Nat) : Option Int :=
  if c.missing then none else some ((((count : Int) - c.c0) * 1000).tdiv ((c.c1 : Int) - c.c0))

/-- The clamped position; 0 stands for an uncalibrated sensor (R26, R27). -/
def clampedPosition : Option Int → Nat
  | none => 0
  | some r => (clampInt 0 1000 r).toNat

/-- The machine position of two sensors (R27). -/
def meanPosition (a b : Option Int) : Nat := (clampedPosition a + clampedPosition b) / 2

/-! ## Sensor checks -/

def setSensors (m : MachineId) (x : SensorRec) (s : State) : State :=
  match m with
  | .h => s.onSfe fun f => { f with hatch := x }
  | _ => s.onSfe fun f => { f with platform := x }

def sensorCause : MachineId → Nat
  | .h => causeHatchSensor
  | _ => causePlatformSensor

def overtravelCause : MachineId → Nat
  | .h => causeHatchOvertravel
  | _ => causePlatformOvertravel

/-- A raw position outside the window (R75). -/
def outsideTravel (r : Int) : Bool := decide (r < -50) || decide (1050 < r)

/-- The sample is an overtravel sample; an uncalibrated machine's is not (R73, R75). -/
def SensorRec.overtravels (x : SensorRec) : Bool :=
  match x.rawA, x.rawB with
  | some a, some b => outsideTravel a || outsideTravel b
  | _, _ => false

/-- The sample is a disagreeing sample; an uncalibrated machine's is not (R73, R74). -/
def SensorRec.disagrees (x : SensorRec) (tol : Nat) : Bool :=
  match x.rawA, x.rawB with
  | some a, some b =>
    let p := clampedPosition (some a)
    let q := clampedPosition (some b)
    decide (tol < max p q - min p q)
  | _, _ => false

/-- The overtravel check (R75). -/
def checkOvertravel (go : Go) (m : MachineId) (s : State) : State :=
  let x := s.sensors m
  if x.overtravels = x.overtravel then s
  else report go (overtravelCause m) x.overtravels (setSensors m { x with overtravel := x.overtravels } s)

/-- The disagreement check (R74). -/
def checkDisagreement (go : Go) (m : MachineId) (s : State) : State :=
  let x := s.sensors m
  let p := s.sensorParams m
  if x.disagrees p.tol then
    let n := min (x.disagree + 1) p.disagreeCount
    if n = p.disagreeCount ∧ x.sensorBad = false then
      report go (sensorCause m) true (setSensors m { x with disagree := n, sensorBad := true } s)
    else setSensors m { x with disagree := n } s
  else if x.sensorBad then
    report go (sensorCause m) false (setSensors m { x with disagree := 0, sensorBad := false } s)
  else setSensors m { x with disagree := 0 } s

/-! ## Position -/

/-- The two sensors at a sample (R25, R89). -/
def SensorRec.sampled (x : SensorRec) (p : SensorParams) (a b : Nat) : SensorRec :=
  { x with countA := a, countB := b, rawA := p.calA.raw a, rawB := p.calB.raw b }

/-- The counts of the platform or the hatch are taken and its position formed (R27). -/
def takeCounts (m : MachineId) (a b : Nat) (s : State) : State :=
  let x := (s.sensors m).sampled (s.sensorParams m) a b
  setChan m { s.chan m with position := meanPosition x.rawA x.rawB } (setSensors m x s)

/-- The windlass position is the rode count (R28). -/
def takeRode (s : State) : State := setChan .w { s.chan .w with position := s.sfe.rode } s

/-- The items a sample of the machine decides (R76, R87). -/
def positionItems : MachineId → List ItemRef
  | .w => []
  | .p => [Item.atIn .p, Item.atOut .p]
  | .h => [Item.atIn .h, Item.atOut .h, Item.unsecured]

/-! ## Ends, profile, demand -/

/-- The machine is at its limit in the direction of the run (R61, R77). -/
def State.atLimit (s : State) (m : MachineId) (d : Direction) : Bool :=
  match m, d with
  | .w, .outward => (s.chan .w).position == s.settings.machines.windlass.rodeMax
  | .w, .inward => s.pins.home
  | m, .outward => s.atOutEnd m
  | m, .inward => s.atInEnd m

/-- The stop point of a run (R29). -/
def State.stopPoint (s : State) (m : MachineId) (r : RunRec) : Nat :=
  match r.target, r.dir with
  | some t, _ => t
  | none, .outward => s.positionTop m
  | none, .inward => 0

/-- The distance of a run to its stop point, never negative (R30). -/
def State.distance (s : State) (m : MachineId) (r : RunRec) : Nat :=
  match r.dir with
  | .outward => s.stopPoint m r - (s.chan m).position
  | .inward => (s.chan m).position - s.stopPoint m r

/-- How a run in MOVING ends on this sample, if it does (R10, R31). -/
def State.endFound (s : State) (m : MachineId) (r : RunRec) : Option EndReason :=
  if s.atLimit m r.dir then some .limitReached
  else if r.target.isSome ∧ s.distance m r ≤ (s.params m).endBand then some .targetReached
  else none

/-- The slow zone length of a direction (R32). -/
def CommonParams.slowZone (p : CommonParams) : Direction → Nat
  | .outward => p.slowOut
  | .inward => p.slowIn

/-- The profile of R33 for slow zone length `l` and distance `d`. -/
def taper (vmax vcreep l d : Nat) : Nat :=
  if l = 0 ∨ l ≤ d then vmax else vcreep + (vmax - vcreep) * d / l

/-- The profile value (R33, R34). -/
def State.profile (s : State) (m : MachineId) (r : RunRec) : Nat :=
  let p := s.params m
  let d := s.distance m r
  if m = .w ∧ r.dir = .inward ∧ r.target = none ∧ d = 0 then p.vcreep
  else taper p.vmax p.vcreep (p.slowZone r.dir) d

/-- The capped value (R35, R36). -/
def State.cappedValue (s : State) (m : MachineId) (r : RunRec) : Nat :=
  let v := match s.lowestCap m r.dir with
    | some c => min c (s.profile m r)
    | none => s.profile m r
  if m = .w ∧ s.sfe.rodeUnknown then min v (s.params m).vcreep else v

/-- The ramp of R37: from the previous demand toward the capped value. -/
def rampedDemand (previous rampUp capped : Nat) : Nat :=
  if previous < capped then min (previous + rampUp) capped else capped

/-- The flow request of a demand (R39). -/
def flowRequest (demand qmax : Nat) : Nat := demand * qmax / 1000

/-- A channel in MOVING or STOPPING hands the HSC a demand with its flow request; in every other state both stay 0 (R1,
R39). -/
def handDemand (go : Go) (m : MachineId) (v : Nat) (s : State) : State :=
  if (s.chan m).state.isFlowing then
    recompute go (setChan m { s.chan m with demand := v, flow := flowRequest v (s.params m).qmax } s)
  else s

/-- A sample in STOPPING (R16, R38). DESIGN CHOICE: on the sample that reaches 0 the stop completes at once: demand 0 is not handed
over first, and the shares are recomputed after the release and the hand-over, so SCALED takes no value in between (log entry 42). -/
def stoppingSample (go : Go) (m : MachineId) (s : State) : State :=
  let v := (s.chan m).demand - (s.params m).rampDown
  if v = 0 then stopComplete go m s else handDemand go m v s

/-- A sample in MOVING; a run that ends on it goes on as a STOPPING sample (R10, R37). -/
def movingSample (go : Go) (m : MachineId) (s : State) : State :=
  match (s.chan m).live with
  | none => s
  | some r =>
    match s.endFound m r with
    | some x => stoppingSample go m (enter go m .stopping (noteReason m x s))
    | none => handDemand go m (rampedDemand (s.chan m).demand (s.params m).rampUp (s.cappedValue m r)) s

/-- What the machine controller does at a sample (R24, parts 2 and 3). -/
def mcSample (go : Go) (m : MachineId) (s : State) : State :=
  match (s.chan m).state with
  | .moving => movingSample go m s
  | .stopping => stoppingSample go m s
  | .disabled | .idle | .waiting | .priming | .unlocking | .locking | .held => s

/-! ## The sample -/

/-- A sample of the platform or the hatch: position, items, display, checks, channel (R24). DESIGN CHOICE: the position items
change, with their reactions, and the display follows, before the two checks (R24, R73 and R76 give no order, log entry 36); and
a run that enters MOVING in that first part takes this very sample as its first in MOVING (R24's order against R37's words, log
entry 37). -/
def sensorSample (go : Go) (m : MachineId) (a b : Nat) (s : State) : State :=
  let s := refreshDisplay m (publishAll go (positionItems m) (takeCounts m a b s))
  mcSample go m (checkDisagreement go m (checkOvertravel go m s))

/-- A sample of the windlass (R24, R28). -/
def windlassSample (go : Go) (s : State) : State := mcSample go .w (refreshDisplay .w (takeRode s))

/-- The counts stand at the converter inputs. -/
def Pins.withSample (p : Pins) : Sample → Pins
  | .windlass => p
  | .platform a b => { p with platformA := a.toNat, platformB := b.toNat }
  | .hatch a b => { p with hatchA := a.toNat, hatchB := b.toNat }

def positionSample (go : Go) (x : Sample) (s : State) : State :=
  let s := s.onPins fun p => p.withSample x
  if s.phase = .running then
    match x with
    | .windlass => windlassSample go s
    | .platform a b => sensorSample go .p a.toNat b.toNat s
    | .hatch a b => sensorSample go .h a.toNat b.toNat s
  else s

/-! ## Refresh timer -/

/-- The refresh timer expires: a run without an end reason ends REFRESH_MISSED (R11). -/
def refreshTimerExpiry (go : Go) (m : MachineId) (s : State) : State :=
  match (s.chan m).refresh with
  | some _ => endRun go m .refreshMissed (setChan m { s.chan m with refresh := none } s)
  | none => s

end Sys2Proof.Machine
end

