-- ==== Sys2Proof/Machine/Windlass.lean ====
section
/-! DEFINITION. The anchor windlass between its samples: pocket counting, HOME, creep, stall, overload (R57 to R59, R63 to
R67). -/

namespace Sys2Proof.Machine

/-! ## Creep -/

/-- The distance of the count from the creep reference. -/
def apart (a b : Nat) : Nat := max a b - min a b

/-- A change of the rode count while channel W is IDLE is compared with the creep reference (R67). -/
def creepCheck (go : Go) (s : State) : State :=
  match (s.chan .w).state, s.sfe.creepRef with
  | .idle, some r =>
    if s.settings.machines.windlass.creepPockets ≤ apart s.sfe.rode r ∧ (s.cause causeCreep).present = false then
      report go causeCreep true s
    else s
  | _, _ => s

/-! ## Pockets -/

/-- The count after a rising edge of GYP_A with the level of GYP_B (R58). -/
def nextRode (home : Bool) (rodeMax count : Nat) (gypB : Bool) : Nat :=
  if home then 0
  else if gypB then count - 1
  else if count < rodeMax then count + 1
  else count

/-- A rising edge of GYP_A restarts a running stall timer (R63). -/
def restartStall (s : State) : State :=
  match s.sfe.stall with
  | some _ => s.onSfe fun f => { f with stall := some s.settings.machines.windlass.stallTime }
  | none => s

/-- A rising edge of GYP_A. Pockets are counted from the moment the count exists, during initialization too (R57, R58). DESIGN CHOICE:
AT_RODE_MAX changes, with its reactions, before the count is compared with the creep reference (log entry 44). -/
def gypARisingEdge (go : Go) (gypB : Bool) (s : State) : State :=
  let n := nextRode s.pins.home s.settings.machines.windlass.rodeMax s.sfe.rode gypB
  let changed := n ≠ s.sfe.rode
  let counted := s.onSfe fun f => { f with rode := n }
  match s.phase with
  | .heldInReset => s
  | .initializing => counted
  | .running =>
    let s := publish go (restartStall counted) Item.atRodeMax
    if changed then creepCheck go s else s

/-! ## HOME -/

/-- HOME has closed: the count is forced to 0 and becomes known (R59). DESIGN CHOICE: the items change, with their reactions, before the
count is compared with the creep reference (log entry 44). -/
def homeCloses (go : Go) (s : State) : State :=
  let unknown := s.sfe.rodeUnknown
  let s := publishAll go [Item.atHome, Item.rodeUnknown, Item.atRodeMax]
    (s.onSfe fun f => { f with rode := 0, rodeUnknown := false })
  let s := if unknown then requestWrite go .records false s else s
  creepCheck go s

/-- The HOME input changes (R59). A HOME that closes during initialization leaves its RECORDS write to the end of it. -/
def homeChange (go : Go) (closed : Bool) (s : State) : State :=
  if s.pins.home = closed then s
  else
    let s := s.onPins fun p => { p with home := closed }
    match s.phase with
    | .heldInReset => s
    | .initializing =>
      if closed then
        s.onSfe fun f => { f with rode := 0, rodeUnknown := false, rodeWriteDue := f.rodeWriteDue || f.rodeUnknown }
      else s
    | .running => if closed then homeCloses go s else publish go s Item.atHome

/-! ## Overload and stall -/

/-- The W_OVLD input changes (R65). -/
def wOvldChange (go : Go) (active : Bool) (s : State) : State :=
  if s.pins.wOvld = active then s
  else
    let s := s.onPins fun p => { p with wOvld := active }
    if s.phase = .running then
      let s := publish go s Item.overloadIn
      if active then s.onSfe fun f => { f with overload := some overloadTime }
      else
        let s := s.onSfe fun f => { f with overload := none }
        if (s.cause causeOverload).present then report go causeOverload false s else s
    else s

/-- The overload qualify timer expires (R65). -/
def overloadQualifyTimerExpiry (go : Go) (s : State) : State :=
  match s.sfe.overload with
  | some _ => report go causeOverload true (s.onSfe fun f => { f with overload := none })
  | none => s

/-- The stall timer expires (R64). -/
def stallTimerExpiry (go : Go) (s : State) : State :=
  match s.sfe.stall with
  | some _ => reportEvent go causeStall (s.onSfe fun f => { f with stall := none })
  | none => s

end Sys2Proof.Machine
end

