-- ==== Sys2Proof/Machine/Plant.lean ====
section
/-! DEFINITION. The inputs of the power pack, of the protection side, of the hatch pins and the plain inputs, with the timers of the
pump and the pins (R42 to R48, R80, R83, R84, R86, R111, R115). -/

namespace Sys2Proof.Machine

/-- In service the part reacts to an input; outside it the level alone is kept (R40, R65, R81, R111, R115). -/
def reacts (f : State → State) (s : State) : State := if s.phase = .running then f s else s

/-! ## Power pack -/

/-- PRESSURE_OK has gone active: an attempt is confirmed, a pressure-loss timer stops (R42, R47). -/
def pressureAppears (go : Go) (s : State) : State :=
  match s.hsc.pump with
  | .starting => judgeAttempt go s
  | .running | .runOn => s.onHsc fun h => { h with pressLoss := none }
  | .off | .retryGap => s

/-- PRESSURE_OK has gone inactive: the pressure-loss timer of a confirmed pump starts (R47). -/
def pressureGoes (s : State) : State :=
  match s.hsc.pump with
  | .running | .runOn => s.onHsc fun h => { h with pressLoss := some pressureLossTime }
  | .off | .starting | .retryGap => s

/-- The PRESSURE_OK input changes (R40, R42, R47). DESIGN CHOICE: the item changes, with its reactions, before the supply controller
judges the input (log entry 43). -/
def pressureOkChange (go : Go) (active : Bool) (s : State) : State :=
  if s.pins.pressureOk = active then s
  else
    reacts (fun s =>
      let s := publish go s Item.pressureOk
      if active then pressureAppears go s else pressureGoes s) (s.onPins fun p => { p with pressureOk := active })

/-- The prime timer expires: a retry gap, or the failure of the last attempt (R43, R44). -/
def primeTimerExpiry (go : Go) (s : State) : State :=
  match s.hsc.pump, s.hsc.timer with
  | .starting, some _ =>
    if s.hsc.attempt < s.settings.hsu.primeTries then setPump go .retryGap s.hsc.attempt (some retryGap) s
    else reportEvent go causeNoPressure (setPump go .off 0 none s)
  | _, _ => s

/-- The gap timer expires: the next attempt begins (R43). -/
def pumpGapExpiry (go : Go) (s : State) : State :=
  match s.hsc.pump, s.hsc.timer with
  | .retryGap, some _ => beginAttempt go (s.hsc.attempt + 1) s
  | _, _ => s

/-- The run-on timer expires (R46). -/
def runOnTimerExpiry (go : Go) (s : State) : State :=
  match s.hsc.pump, s.hsc.timer with
  | .runOn, some _ => setPump go .off 0 none s
  | _, _ => s

/-- The pressure-loss timer expires (R47). -/
def pressureLossTimerExpiry (go : Go) (s : State) : State :=
  match s.hsc.pressLoss with
  | some _ => reportEvent go causePressureLost (setPump go .off 0 none s)
  | none => s

/-- The OIL_HOT input changes (R48). DESIGN CHOICE: OIL_HOT_IN changes, with its reactions, before the condition is reported (log
entry 43). -/
def oilHotChange (go : Go) (active : Bool) (s : State) : State :=
  if s.pins.oilHot = active then s
  else
    reacts (fun s => report go causeOilHot active (publish go s Item.oilHotIn)) (s.onPins fun p => { p with oilHot := active })

/-! ## Protection -/

/-- The ESTOP input changes (R115). -/
def estopChange (go : Go) (active : Bool) (s : State) : State :=
  if s.pins.estop = active then s
  else
    reacts (fun s => reconsiderIsolate go (report go causeEstop active (publish go s Item.estopIn)))
      (s.onPins fun p => { p with estop := active })

/-- The SERVICE# input changes (R111). -/
def serviceInputChange (go : Go) (asserted : Bool) (s : State) : State :=
  if s.pins.service = asserted then s
  else reacts (fun s => publish go s Item.serviceIn) (s.onPins fun p => { p with service := asserted })

/-! ## Hatch pins -/

/-- The PINS_UL input changes: the end of UNLOCKING, or a pin fault in MOVING (R81, R83, R86). DESIGN CHOICE: PINS_UNLOCKED
changes, with its reactions, before the channel's state is looked at, so that a BLOCK entry on the item ends the run INTERLOCK
and no pin event is reported (log entry 39). -/
def pinsUlChange (go : Go) (active : Bool) (s : State) : State :=
  if s.pins.pinsUl = active then s
  else
    reacts (fun s =>
      let s := publish go s Item.pinsUnlocked
      match (s.chan .h).state, active with
      | .unlocking, true => enterMoving go .h s
      | .moving, false => reportEvent go causePins s
      | _, _ => s) (s.onPins fun p => { p with pinsUl := active })

/-- The PINS_LK input changes: the end of LOCKING (R81, R84, R87). -/
def pinsLkChange (go : Go) (active : Bool) (s : State) : State :=
  if s.pins.pinsLk = active then s
  else
    reacts (fun s =>
      let s := publishAll go [Item.pinsLocked, Item.unsecured] s
      match (s.chan .h).state, active with
      | .locking, true => leave go .h .idle .now s
      | _, _ => s) (s.onPins fun p => { p with pinsLk := active })

/-- The pin timer expires (R86). -/
def pinTimerExpiry (go : Go) (s : State) : State :=
  match s.sfe.pinTimer with
  | some _ => reportEvent go causePins s
  | none => s

/-! ## Ladder, mat and cradle -/

def Pins.withPlain (p : Pins) (i : PlainInput) (active : Bool) : Pins :=
  match i with
  | .ladder => { p with ladder := active }
  | .mat => { p with mat := active }
  | .cradle => { p with cradle := active }

def plainItem : PlainInput → ItemRef
  | .ladder => Item.ladderDown
  | .mat => Item.matOccupied
  | .cradle => Item.cradleHome

/-- One of the three unfiltered inputs changes (R80). -/
def plainInputChange (go : Go) (i : PlainInput) (active : Bool) (s : State) : State :=
  reacts (fun s => publish go s (plainItem i)) (s.onPins fun p => p.withPlain i active)

end Sys2Proof.Machine
end

