-- ==== Sys2Proof/Machine/Memory.lean ====
section
/-! DEFINITION. The sample memory of the clips: a list of sample address and value in one canonical form, addresses strictly
rising and no value 0, which is what an unlisted address reads as (R128, R141, R142). -/

namespace Sys2Proof.Machine

/-- What an unlisted address reads as: ALLOCATE CLIP leaves every sample 0 (R141). -/
def unlistedSample : Half := 0

/-- The sample at an address. -/
def readSample (m : SampleMemory) (a : Nat) : Half :=
  match m with
  | [] => unlistedSample
  | (b, v) :: rest => if b = a then v else readSample rest a

/-- The memory with one sample written; writing what an unlisted address reads as removes the entry. -/
def writeSample (a : Nat) (v : Half) (m : SampleMemory) : SampleMemory :=
  match m with
  | [] => if v = unlistedSample then [] else [(a, v)]
  | (b, w) :: rest =>
    if a < b then (if v = unlistedSample then (b, w) :: rest else (a, v) :: (b, w) :: rest)
    else if a = b then (if v = unlistedSample then rest else (a, v) :: rest)
    else (b, w) :: writeSample a v rest

/-- The memory with samples written from an address onward (R142). -/
def writeSamples (a : Nat) (vs : List Half) (m : SampleMemory) : SampleMemory :=
  match vs with
  | [] => m
  | v :: rest => writeSamples (a + 1) rest (writeSample a v m)

/-- The memory with `n` samples from an address set to 0 (R141). -/
def clearSamples (a n : Nat) (m : SampleMemory) : SampleMemory :=
  m.filter fun c => decide (c.1 < a ∨ a + n ≤ c.1)

/-- The canonical form: addresses strictly rising, no entry equal to what an unlisted address reads as. -/
def Memory.wf (m : SampleMemory) : Bool :=
  match m with
  | [] => true
  | (a, v) :: rest => (v != unlistedSample) && rest.all (fun c => decide (a < c.1)) && Memory.wf rest

end Sys2Proof.Machine
end

