-- ==== Sys2Proof/Machine/Audio.lean ====
section
/-! DEFINITION. The zone audio engine between its requests: reception, rate detection, FIFOs, the output frame with voices, pages
and mix (R123 to R133, R144 to R151). -/

namespace Sys2Proof.Machine

/-! ## Sources -/

def setSource (n : Nat) (x : SourceRec) (s : State) : State :=
  s.onZae fun a => { a with sources := poke a.sources n x }

/-- The AUD items of a source (R123). -/
def sourceItems (n : Nat) : List ItemRef :=
  [Item.sourcePlaying n, Item.sourceLow n, Item.sourceUnsupported n, Item.sourceXrun n]

/-- A received word in the 24-bit domain, rounded down (R124). The word stands left-justified in 32 bits, most significant
bit first, missing bits 0. -/
def storedWord (width : Nat) (word : BitVec 32) : Int :=
  if width = 16 then word.toInt / 65536 * 256
  else word.toInt / 256

/-- The stored frame (R124). -/
def SourceConfig.frame (c : SourceConfig) (left right : BitVec 32) : Int × Int :=
  (storedWord c.word left, if c.mono then storedWord c.word left else storedWord c.word right)

/-- The frame at place `k` of the decimation count is kept (R127). -/
def RateClass.keeps (c : RateClass) (k : Nat) : Bool :=
  match c with
  | .r48 => true
  | .r96 => k % 2 == 0
  | .r192 => k % 4 == 0
  | .unsupported | .none => false

/-- The source with a kept frame pushed: an overflow, or one more frame and perhaps PLAYING (R127). -/
def SourceRec.pushed (x : SourceRec) (c : SourceConfig) (f : Int × Int) : SourceRec :=
  if x.fifo.length < c.capacity then
    let q := x.fifo ++ [f]
    { x with
      fifo := q
      state := if x.state = .filling ∧ c.startFill ≤ q.length then .playing else x.state }
  else { x with xrun := true }

/-- The source after a frame has arrived (R127). -/
def SourceRec.arrived (x : SourceRec) (c : SourceConfig) (f : Int × Int) : SourceRec :=
  match x.state with
  | .filling | .playing =>
    let y := if x.cls.keeps x.decim then x.pushed c f else x
    { y with decim := (x.decim + 1) % 4 }
  | .disabled | .detecting | .unsupported => x

/-! ## Rate detection -/

/-- The class of a measurement by its count (R125). -/
def classOf (count : Nat) : RateClass :=
  if 508 ≤ count ∧ count ≤ 516 then .r48
  else if 252 ≤ count ∧ count ≤ 260 then .r96
  else if 124 ≤ count ∧ count ≤ 132 then .r192
  else .unsupported

/-- How many frames a measurement spans, and how often in a row a class is measured before it is adopted (R125). -/
def measurementFrames : Nat := 8
def adoptionCount : Nat := 4

/-- The candidate after a measurement of class `c` (R125). -/
def SourceRec.candidateAfter (x : SourceRec) (c : RateClass) : Option (RateClass × Nat) :=
  if c = x.cls then none
  else match x.candidate with
    | some (d, k) => if d = c then some (c, k + 1) else some (c, 1)
    | none => some (c, 1)

/-- The state that an adopted class brings (R126). -/
def RateClass.stateOf : RateClass → SourceState
  | .r48 | .r96 | .r192 => .filling
  | .unsupported => .unsupported
  | .none => .detecting

/-- The source with class `c` adopted; entering DETECTING starts the frame timer (R125, R126). -/
def SourceRec.adopted (x : SourceRec) (c : RateClass) : SourceRec :=
  { x with
    fifo := [], cls := c, candidate := none, state := c.stateOf, decim := 0
    measuring := match c with | .none => false | _ => x.measuring
    frameTimer := match c with | .none => some frameTime | _ => x.frameTimer }

/-- A class is adopted: the source, its items, RATE_CHANGED (R126). -/
def adopt (go : Go) (n : Nat) (c : RateClass) (s : State) : State :=
  queueEvent (.rateChanged n c) (publishAll go (sourceItems n) (setSource n ((s.source n).adopted c) s))

/-- The measurement is closed at its last frame edge, and the next one begins there (R125). -/
def closeMeasurement (go : Go) (n : Nat) (s : State) : State :=
  let x := s.source n
  let candidate := x.candidateAfter (classOf x.edges)
  let s := setSource n { x with lastCount := x.edges, candidate := candidate, frames := 0, edges := 0 } s
  match candidate with
  | some (c, k) => if adoptionCount ≤ k then adopt go n c s else s
  | none => s

/-- A frame edge of a source, with the two words received since the edge before and the AREF edges counted since then. The
first edge after the source enters DETECTING delivers no frame and begins a measurement (R124, R125); a frame that ends a
measurement is handled before the measurement is closed (R126). -/
def sourceFrameArrival (go : Go) (n : Nat) (left right : BitVec 32) (arefEdges : Nat) (s : State) : State :=
  let x := s.source n
  if x.state = .disabled then s
  else if x.measuring = false then
    setSource n { x with measuring := true, frames := 0, edges := 0, frameTimer := some frameTime } s
  else
    let c := s.sourceConfig n
    let y := { x.arrived c (c.frame left right) with
      frames := x.frames + 1, edges := x.edges + arefEdges, frameTimer := some frameTime }
    let s := publishAll go (sourceItems n) (setSource n y s)
    if measurementFrames ≤ x.frames + 1 then closeMeasurement go n s else s

/-- The frame timer expires: the measurement is discarded and class NONE is adopted (R125). -/
def frameTimerExpiry (go : Go) (n : Nat) (s : State) : State :=
  let x := s.source n
  match x.frameTimer with
  | none => s
  | some _ =>
    let s := setSource n
      { x with measuring := false, frames := 0, edges := 0, candidate := none, frameTimer := none } s
    if x.cls = .none then s else adopt go n .none s

/-! ## The output frame: sources -/

/-- The frame a source gives, and the source afterwards (R130). -/
def SourceRec.popped (x : SourceRec) : (Int × Int) × SourceRec :=
  match x.state with
  | .playing =>
    match x.fifo with
    | f :: rest => (f, { x with fifo := rest })
    | [] => ((0, 0), { x with xrun := true, state := .filling })
  | .disabled | .detecting | .unsupported | .filling => ((0, 0), x)

/-! ## The output frame: voices -/

/-- The tone at place `k` (R149). -/
def toneAt (k : Nat) : Int := if k % 120 < 60 then toneLevel else -toneLevel

/-- What a voice gives the mix: nothing, a clip sample, or a tone value (R133, R147). -/
inductive VoiceOut where
  | nothing
  | sample (k : Int)
  | tone (t : Int)
deriving DecidableEq, Repr

/-- The sample of a clip at a place. -/
def State.clipSample (s : State) (k place : Nat) : Int :=
  (readSample s.zae.memory ((s.clip k).start * samplesPerBlock + place)).toInt

/-- The sound at a place, and its length. -/
def State.soundAt (s : State) (x : Sound) (place : Nat) : VoiceOut :=
  match x with
  | .tone => .tone (toneAt place)
  | .clip k => .sample (s.clipSample k place)

def State.soundLength (s : State) : Sound → Nat
  | .tone => toneLength
  | .clip k => (s.clip k).length

/-- The RepeatInterval of the head of a list, 0 for an empty list. -/
def State.headRepeat (s : State) (list : List MachineId) : Nat :=
  match list with
  | [] => 0
  | m :: _ => (s.announce m).repeatInterval

/-- The largest duck of the announce records of a list (R147). -/
def State.listDuck (s : State) (list : List MachineId) : Nat :=
  list.foldl (fun d m => max d (s.announce m).duck) 0

/-- The play moves on by the sample it hands at this frame; the last one ends it (R146). -/
def State.playMoves (s : State) (z : ZoneRec) : ZoneRec :=
  let since := if z.place = 0 then 0 else z.since + 1
  if s.soundLength z.sound ≤ z.place + 1 then
    { z with voice := if s.headRepeat z.list = 0 then .played else .repeatWait, place := 0, since := since }
  else { z with place := z.place + 1, since := since }

/-- The voice at the start of an output frame: a repeat that is due begins its play (R148). -/
def State.voiceBegins (s : State) (z : ZoneRec) : ZoneRec :=
  match z.voice, z.list with
  | .repeatWait, m :: _ =>
    if s.headRepeat z.list * framesPerMs ≤ z.since + 1 then s.beginPlay m z else { z with since := z.since + 1 }
  | _, _ => z

/-- What the voice hands the mix, its duck, and the zone afterwards; a voice in PAGE hands the page's sample (R147). -/
def State.voiceFrame (s : State) (z : ZoneRec) : VoiceOut × Nat × ZoneRec :=
  match z.voice with
  | .silent => (.nothing, 0, z)
  | .repeatWait | .played => (.nothing, s.listDuck z.list, z)
  | .play => (s.soundAt z.sound z.place, s.listDuck z.list, s.playMoves z)
  | .page =>
    match s.zae.page with
    | some p => (.sample (s.clipSample p.clip p.place), p.duck, z)
    | none => (.nothing, 0, z)

/-! ## The output frame: mix -/

/-- The source samples of a zone for its source's frame (R132). -/
def foldFrame (fold : Bool) (f : Int × Int) : Int × Int :=
  if fold then ((f.1 + f.2) / 2, (f.1 + f.2) / 2) else f

/-- The music term (R133). -/
def musicTerm (sample : Int) (shift : Nat) : Int := if shift ≤ 23 then sample / 2 ^ shift else 0

/-- The clip term (R133). -/
def clipTerm (v : VoiceOut) (level : Nat) : Int :=
  match v with
  | .nothing => 0
  | .sample k => k * 256 / 2 ^ level
  | .tone t => t / 2 ^ level

/-- One channel of a zone output (R133). -/
def mixed (sample : Int) (shift : Nat) (clip : Int) : Int := clampInt sampleMin sampleMax (musicTerm sample shift + clip)

/-- The zone after an output frame, from the frames its source may give (R130, R132, R133, R147). -/
def State.zoneFrame (s : State) (frames : Vector (Int × Int) 3) (c : ZoneConfig) (z : ZoneRec) : ZoneRec :=
  let given := match c.source with
    | some n => peek frames n
    | none => (0, 0)
  let f := foldFrame c.fold given
  let v := s.voiceFrame (s.voiceBegins z)
  let clip := clipTerm v.1 c.level
  { v.2.2 with duck := v.2.1, left := mixed f.1 (c.volume + v.2.1) clip, right := mixed f.2 (c.volume + v.2.1) clip }

/-- The page moves on by the sample handed at this frame; its last one completes every zone still playing (R151). -/
def State.pageMoves (s : State) (p : PageRec) : PageRec × Bool :=
  if (s.clip p.clip).length ≤ p.place + 1 then
    ({ p with
        playing := Vector.replicate 8 false
        completed := Vector.ofFn fun z : Fin 8 => peek p.completed z.val || peek p.playing z.val }, true)
  else ({ p with place := p.place + 1 }, false)

/-- The zone of a voice whose page has been completed. -/
def ZoneRec.pageCompleted (z : ZoneRec) : ZoneRec := if z.voice = .page then z.silenced else z

/-- The engine after an output frame, before anything is published. -/
def State.zaeFrame (s : State) : Zae :=
  let pops := s.zae.sources.map SourceRec.popped
  let frames := pops.map Prod.fst
  let zones := Vector.ofFn fun z : Fin 8 => s.zoneFrame frames (s.zoneConfig z.val) (s.zone z.val)
  match s.zae.page with
  | none => { s.zae with sources := pops.map Prod.snd, zones := zones }
  | some p =>
    let moved := s.pageMoves p
    { s.zae with
      sources := pops.map Prod.snd, page := some moved.1
      zones := if moved.2 then zones.map ZoneRec.pageCompleted else zones }

/-- An output frame: sources popped, voices and page moved on, zones mixed, items published, a finished page ended (R130). -/
def outputFrame (go : Go) (s : State) : State :=
  if s.phase = .running then
    let s := s.onZae fun _ => s.zaeFrame
    endPageIfDone go (publishAll go (sourceItems 0 ++ sourceItems 1 ++ sourceItems 2 ++ [Item.toneAny]) s)
  else s

/-! ## What a changed announce record does to a voice that waits -/

/-- A RepeatInterval written as 0 ends a wait; one above 0 ends PLAYED with a new play (R148). -/
def State.repeatRewritten (s : State) (m : MachineId) (z : ZoneRec) : ZoneRec :=
  if z.list.head? = some m then
    match z.voice with
    | .repeatWait => if (s.announce m).repeatInterval = 0 then { z with voice := .played } else z
    | .played => if (s.announce m).repeatInterval = 0 then z else s.beginPlay m z
    | .silent | .play | .page => z
  else z

end Sys2Proof.Machine
end

