-- ==== Sys2Proof/Machine/Wire.lean ====
section
/-! DEFINITION. The encodings of the link: the CRC, reply fields and records as bytes, the codes of the enumerations in both
directions (R173, R184, R185, R186). -/

namespace Sys2Proof.Machine

/-! ## CRC (R173) -/

/-- One bit of the CRC, most significant bit first. -/
def crcBit (c : BitVec 16) : BitVec 16 := if c.msb then (c <<< 1) ^^^ 0x1021 else c <<< 1

def crcByte (c : BitVec 16) (b : Byte) : BitVec 16 :=
  crcBit (crcBit (crcBit (crcBit (crcBit (crcBit (crcBit (crcBit (c ^^^ (b ++ (0 : Byte))))))))))

/-- The CRC over a list of bytes. -/
def crcOf (bytes : List Byte) : BitVec 16 := bytes.foldl crcByte 0xFFFF

/-- The bytes over which a frame's CRC is taken (R173). -/
def frameBody (len : Nat) (code : Byte) (payload : List Byte) : List Byte := BitVec.ofNat 8 len :: code :: payload

def sync0 : Byte := 0xC9
def sync1 : Byte := 0x36

/-- A whole frame (chapter 13). -/
def frameBytes (code : Byte) (payload : List Byte) : List Byte :=
  let body := frameBody payload.length code payload
  [sync0, sync1] ++ body ++ halfBytes (crcOf body)

/-! ## Fields of replies and records (R185) -/

def byte (n : Nat) : List Byte := [BitVec.ofNat 8 n]
def word (n : Nat) : List Byte := halfBytes (BitVec.ofNat 16 n)
def long (n : Nat) : List Byte := halfBytes (BitVec.ofNat 16 (n / 65536)) ++ halfBytes (BitVec.ofNat 16 n)
def longInt (i : Int) : List Byte := long (BitVec.ofInt 32 i).toNat
def flag (b : Bool) : List Byte := byte b.toNat

/-- An optional field: a presence byte, and the field when present. -/
def optional {α : Type} (f : α → List Byte) : Option α → List Byte
  | none => byte 0
  | some x => byte 1 ++ f x

/-- A list: a count byte, and the elements in order. -/
def counted {α : Type} (f : α → List Byte) (xs : List α) : List Byte := byte xs.length ++ xs.flatMap f

/-- A set of up to eight members, and of up to sixteen. -/
def set8 (f : Nat → Bool) : List Byte := byte (maskOf 8 f)
def set16 (f : Nat → Bool) : List Byte := word (maskOf 16 f)

/-! ## Statuses (R184) -/

inductive Status where
  | ok | okClamped | refusedCode | refusedLength | refusedValue | refusedState | refusedInterlock | refusedFault
  | refusedService
deriving DecidableEq, Repr, Inhabited

def Status.code : Status → Byte
  | .ok => 0x00
  | .okClamped => 0x01
  | .refusedCode => 0x80
  | .refusedLength => 0x81
  | .refusedValue => 0x82
  | .refusedState => 0x83
  | .refusedInterlock => 0x84
  | .refusedFault => 0x85
  | .refusedService => 0x86

/-- OK, or OK_CLAMPED when a value was clamped. -/
def accepted (clamped : Bool) : Status := if clamped then .okClamped else .ok

/-! ## Codes of what a reply reports (R185) -/

def originCode : Origin → Nat
  | .station => 0 | .link => 1

def ChanState.code : ChanState → Nat
  | .disabled => 0 | .idle => 1 | .waiting => 2 | .priming => 3 | .unlocking => 4 | .moving => 5 | .stopping => 6
  | .locking => 7 | .held => 8

def EndReason.code : EndReason → Nat
  | .targetReached => 0 | .limitReached => 1 | .released => 2 | .linkStop => 3 | .refreshMissed => 4 | .overridden => 5
  | .conflict => 6 | .interlock => 7 | .fault => 8 | .isolated => 9

def CauseClass.code : CauseClass → Nat
  | .self => 0 | .crew => 1 | .latched => 2

def ClearMeans.code : ClearMeans → Nat
  | .self => 0 | .crew => 1 | .station => 2 | .service => 3

def RateClass.code : RateClass → Nat
  | .r48 => 0 | .r96 => 1 | .r192 => 2 | .unsupported => 3 | .none => 4

def ResetCause.code : ResetCause → Nat
  | .power => 0 | .pin => 1 | .request => 2

def InputState.code : InputState → Nat
  | .released => 0 | .early => 1 | .agreed => 2 | .valid => 3 | .releasing => 4 | .faulted => 5 | .inhibited => 6

def Pattern.code : Pattern → Nat
  | .released => 0 | .pressed => 1 | .partly => 2

def StationTimer.code : StationTimer → Nat
  | .qualify => 1 | .disagree => 2 | .release => 3

def PumpState.code : PumpState → Nat
  | .off => 0 | .starting => 1 | .retryGap => 2 | .running => 3 | .runOn => 4

def SourceState.code : SourceState → Nat
  | .disabled => 0 | .detecting => 1 | .unsupported => 2 | .filling => 3 | .playing => 4

def BlockOwner.code : BlockOwner → Nat
  | .free => 0xFF | .source n => n | .clip k => 16 + k

def ClipState.code : ClipState → Nat
  | .empty => 0 | .loading => 1 | .ready => 2

def VoiceState.code : VoiceState → Nat
  | .silent => 0 | .play => 1 | .repeatWait => 2 | .played => 3 | .page => 4

def DisplayState.code : DisplayState → Nat
  | .off => 0 | .ramping => 1 | .showing => 2

def Overlay.code : Overlay → Nat
  | .none => 0 | .flash => 1 | .blink => 2

/-- A zone, source or clip slot that may be NONE. -/
def zoneOrNone : Option Nat → Nat
  | some z => z | none => 0xFF

def sourceOrNone : Option Nat → Nat
  | some n => n | none => 3

/-- The strap rate: RATE1 × 2 + RATE0 (R185). -/
def strapsCode (r : Straps) : Nat := 2 * r.rate1.toNat + r.rate0.toNat

/-! ## Codes that a request names; nothing for an undefined code (R185) -/

def machineNamed (b : Byte) : Option MachineId :=
  match b.toNat with
  | 0 => some .w | 1 => some .p | 2 => some .h | _ => none

def directionNamed (b : Byte) : Option Direction :=
  match b.toNat with
  | 0 => some .outward | 1 => some .inward | _ => none

/-- The direction of an interlock entry; BOTH is the absent direction. -/
def entryDirectionNamed (b : Byte) : Option (Option Direction) :=
  match b.toNat with
  | 0 => some (some .outward) | 1 => some (some .inward) | 2 => some none | _ => none

def groupNamed (b : Byte) : Option Group :=
  match b.toNat with
  | 0 => some .sys | 1 => some .win | 2 => some .plat | 3 => some .hatch | 4 => some .hsu | 5 => some .stn | 6 => some .flt
  | 7 => some .aud | 8 => some .zone | _ => none

/-- Yes and no, and the senses TRUE and FALSE. -/
def yesNoNamed (b : Byte) : Option Bool :=
  match b.toNat with
  | 0 => some false | 1 => some true | _ => none

/-- An item its group has. -/
def itemNamed (group place : Byte) : Option ItemRef :=
  match groupNamed group with
  | some g => if place.toNat < g.size then some ⟨g, place.toNat⟩ else none
  | none => none

def classNamed (b : Byte) : Option CauseClass :=
  match b.toNat with
  | 0 => some .self | 1 => some .crew | 2 => some .latched | _ => none

/-- A number below `n`: a cause, zone, source, slot, lamp or watch index. -/
def indexNamed (n : Nat) (b : Byte) : Option Nat := if b.toNat < n then some b.toNat else none

/-- A number below `n`, or the code `none` for NONE. -/
def indexOrNoneNamed (n none : Nat) (b : Byte) : Option (Option Nat) :=
  if b.toNat = none then some Option.none else (indexNamed n b).map some

def combineNamed (b : Byte) : Option WatchCombine :=
  match b.toNat with
  | 0 => some .any | 1 => some .all | _ => none

def edgeNamed (b : Byte) : Option WatchEdge :=
  match b.toNat with
  | 0 => some .rise | 1 => some .fall | 2 => some .both | _ => none

/-- The machines a STOP or DISPLAY REQUEST names: one, or all (R14, R161). -/
def machinesNamed (b : Byte) : Option (List MachineId) :=
  if b = 0xFF then some machines else (machineNamed b).map fun m => [m]

/-- The causes a clear names: one, or all, with whether it is one (R109, R111). -/
inductive CauseChoice where
  | one (c : Nat)
  | all
deriving DecidableEq, Repr

def causesNamed (b : Byte) : Option CauseChoice :=
  if b = 0xFF then some .all else (indexNamed 16 b).map .one

/-- Bit `k` of a set byte, as a set over the eight zones, sections or sources. -/
def memberOf (b : Byte) (k : Nat) : Bool := b.getLsbD k

/-! ## Records -/

def machineMask (t : Three Bool) : Nat := t.w.toNat + 2 * t.p.toNat + 4 * t.h.toNat

def faultedMask (f : Three (Pair Bool)) : Nat :=
  f.w.outward.toNat + 2 * f.w.inward.toNat + 4 * f.p.outward.toNat + 8 * f.p.inward.toNat + 16 * f.h.outward.toNat
    + 32 * f.h.inward.toNat

/-- A run record, in the order of R3. -/
def RunRec.bytes (r : RunRec) : List Byte :=
  word r.id ++ byte (originCode r.origin) ++ byte (directionCode r.dir) ++ optional word r.target ++ word r.startPos
    ++ optional (fun x => byte (EndReason.code x)) r.endReason ++ optional byte r.cause ++ optional word r.endPos

def EventKind.code : EventKind → Nat
  | .resetDone _ _ => 0
  | .runEnded _ _ _ _ _ _ _ _ => 1
  | .faultRaised _ _ _ => 2
  | .faultCleared _ _ => 3
  | .watch _ _ _ => 4
  | .guestKey _ _ => 5
  | .rateChanged _ _ => 6
  | .storeDone _ _ => 7
  | .pageEnded _ _ _ => 8

/-- The fields of a record after its header (R186). -/
def EventKind.fields : EventKind → List Byte
  | .resetDone c failed => byte c.code ++ set8 (fun k => failed.any fun x => sectionCode x == k)
  | .runEnded m i o d x c a b =>
    byte (machineCode m) ++ word i ++ byte (originCode o) ++ byte (directionCode d) ++ byte x.code ++ optional byte c ++ word a
      ++ word b
  | .faultRaised c ms t => byte c ++ byte (machineMask ms) ++ flag t
  | .faultCleared c m => byte c ++ byte m.code
  | .watch i v w => byte i ++ flag v ++ word w
  | .guestKey k z => byte k ++ optional byte (z.map Prod.fst) ++ optional flag (z.map Prod.snd)
  | .rateChanged n c => byte n ++ byte c.code
  | .storeDone x ok => byte (sectionCode x) ++ byte (if ok then 0 else 1)
  | .pageEnded k done cut => byte k ++ set8 (peek done) ++ set8 (peek cut)

/-- A record (R186). -/
def Event.bytes (e : Event) : List Byte := byte e.kind.code ++ long e.time ++ flag e.lost ++ e.kind.fields

end Sys2Proof.Machine
end

