-- ==== Sys2Proof/Machine/LinkRequests.lean ====
section
/-! DEFINITION. What the owners of the requests of the link, the status and event unit and the store do: IDENTIFY, RESET, READ
STATUS, SET WATCH, FETCH EVENTS, SAVE SETTINGS (R165, R167, R170, R178, R181). -/

namespace Sys2Proof.Machine

/-- A request served: the state after its handling, and the payload of its reply. -/
abbrev Served := State × List Byte

/-- A refused request changes no state, and its reply is the status alone (R175, R184). -/
def refuse (x : Status) (s : State) : Served := (s, [x.code])

/-- An accepted request: status and fields. -/
def reply (x : Status) (fields : List Byte) (s : State) : Served := (s, x.code :: fields)

/-! ## IDENTIFY and RESET -/

/-- IDENTIFY (R178, R185). -/
def serveIdentify (s : State) : Served :=
  reply .ok (word vendorCode ++ word partCode ++ byte siliconRevision ++ byte (strapsCode s.slp.rate) ++ byte s.resetCause.code) s

/-- RESET is answered OK; the reset follows the reply (R178). -/
def serveReset (s : State) : Served := reply .ok [] s

/-! ## Status items and watches -/

/-- READ STATUS (R165, R185). -/
def serveReadStatus (group : Byte) (s : State) : Served :=
  match groupNamed group with
  | some g => reply .ok (byte g.code ++ word (s.groupWord g) ++ long s.now) s
  | none => refuse .refusedValue s

/-- The set names no place that the group does not have. -/
def placesExist (g : Group) (items : Nat) : Bool := decide (items < 2 ^ g.size)

/-- The watch that SET WATCH leaves: disarmed by an empty set, else armed with the value that stands (R167). -/
def State.watchSet (s : State) (g : Group) (items : Nat) (c : WatchCombine) (e : WatchEdge) (w : WatchRec) : WatchRec :=
  if items = 0 then { w with items := 0, last := none }
  else { group := g, items := items, combine := c, edge := e, last := some (combined c items (s.groupWord g)) }

/-- SET WATCH (R167). -/
def serveSetWatch (index group : Byte) (items : Half) (combine edge : Byte) (s : State) : Served :=
  match indexNamed 8 index, groupNamed group, combineNamed combine, edgeNamed edge with
  | some i, some g, some c, some e =>
    if placesExist g items.toNat then
      let w := s.watchSet g items.toNat c e (peek s.seu.watches i)
      reply .ok (optional flag w.last) (s.onSeu fun u => { u with watches := poke u.watches i w })
    else refuse .refusedValue s
  | _, _, _, _ => refuse .refusedValue s

/-! ## Events -/

/-- The fixed part of a FETCH EVENTS reply, in bytes (R186). -/
def fetchFixed : Nat := 7

/-- How many records from the head fit: at most `n`, and no more than the payload holds (R170). -/
def takeable (n room : Nat) (q : List Event) : Nat :=
  match n, q with
  | 0, _ => 0
  | _, [] => 0
  | n + 1, e :: rest => if e.bytes.length ≤ room then 1 + takeable n (room - e.bytes.length) rest else 0

/-- FETCH EVENTS (R170). -/
def serveFetchEvents (count : Byte) (s : State) : Served :=
  let n := clamp 1 8 count.toNat
  let k := takeable n (maxPayload - fetchFixed) s.seu.events
  reply (accepted (n != count.toNat))
    (long s.now ++ counted Event.bytes (s.seu.events.take k) ++ byte (s.seu.events.drop k).length)
    (s.onSeu fun u => { u with events := u.events.drop k })

/-! ## Settings store -/

/-- SAVE SETTINGS: the sections are requested in section order with the host mark (R181). -/
def serveSaveSettings (go : Go) (set : Byte) (s : State) : Served :=
  let named := sections.filter fun x => memberOf set (sectionCode x)
  let s := beginWrite (named.foldl (fun s x => requestWrite go x true s) s)
  reply .ok (set8 fun k => s.sto.queue.any fun e => sectionCode e.1 == k) s

end Sys2Proof.Machine
end

