-- ==== Sys2Proof/Machine/MachineRequests.lean ====
section
/-! DEFINITION. What the owners of the machine requests do: CONFIGURE MACHINE, READ MACHINE, RUN, REFRESH, STOP, SET RODE,
CALIBRATE, CONFIGURE HSU, READ HSU (R8, R9, R11, R14, R21 to R23, R55, R56, R60, R71, R72, R78, R79, R88, R89). -/

namespace Sys2Proof.Machine

/-! ## CONFIGURE MACHINE -/

/-- The common parameters as the request carries them. -/
def commonOf (f : MachineFields) (enabled : Bool) : CommonParams :=
  { enabled := enabled, vmax := f.vmax.toNat, vcreep := f.vcreep.toNat, slowOut := f.slowOut.toNat, slowIn := f.slowIn.toNat,
    rampUp := f.rampUp.toNat, rampDown := f.rampDown.toNat, qmax := f.qmax.toNat, endBand := f.endBand.toNat }

/-- The largest slow zone and the largest end band of a machine (chapter 1). -/
def slowMax : MachineId → Nat
  | .w => 400
  | .p | .h => 500

def endBandMax : MachineId → Nat
  | .w => 0
  | .p | .h => 50

/-- The common parameters clamped: Vmax first, and Vcreep to the Vmax of the same request (R21). -/
def CommonParams.clamped (m : MachineId) (p : CommonParams) : CommonParams :=
  let vmax := clamp 100 1000 p.vmax
  { enabled := p.enabled, vmax := vmax, vcreep := clamp 20 vmax p.vcreep, slowOut := min p.slowOut (slowMax m),
    slowIn := min p.slowIn (slowMax m), rampUp := clamp 1 200 p.rampUp, rampDown := clamp 1 500 p.rampDown,
    qmax := clamp 1 400 p.qmax, endBand := min p.endBand (endBandMax m) }

/-- The windlass parameters clamped (R72). -/
def WindlassParams.clamped (p : WindlassParams) : WindlassParams :=
  { pocketPitch := clamp 20 400 p.pocketPitch, rodeMax := clamp 10 4000 p.rodeMax,
    stallDemand := clamp 50 1000 p.stallDemand, stallTime := clamp 500 10000 p.stallTime,
    creepPockets := clamp 1 50 p.creepPockets }

/-- Tol and DisagreeCount clamped; the calibration is not carried (R88). -/
def SensorParams.clamped (p : SensorParams) : SensorParams :=
  { p with tol := clamp 10 200 p.tol, disagreeCount := clamp 1 20 p.disagreeCount }

/-- The machine settings with a machine's own parameters as carried, before they are clamped; nothing when the tail is
another machine's. -/
def MachineSettings.withTail (x : MachineSettings) (m : MachineId) (t : MachineTail) : Option MachineSettings :=
  match m, t with
  | .w, .windlass pitch rodeMax demand time creep =>
    some { x with windlass :=
      { pocketPitch := pitch.toNat, rodeMax := rodeMax.toNat, stallDemand := demand.toNat, stallTime := time.toNat,
        creepPockets := creep.toNat } }
  | .p, .platform tol dis => some { x with platform := { x.platform with tol := tol.toNat, disagreeCount := dis.toNat } }
  | .h, .hatch tol dis pins lock =>
    some { x with
      hatch := { x.hatch with tol := tol.toNat, disagreeCount := dis.toNat }
      pinsFlow := pins.toNat
      lockTime := lock.toNat }
  | _, _ => none

/-- The machine settings with the parameters of `m` clamped to their ranges. -/
def MachineSettings.clamped (x : MachineSettings) (m : MachineId) : MachineSettings :=
  let y := { x with common := x.common.adjust m (CommonParams.clamped m) }
  match m with
  | .w => { y with windlass := x.windlass.clamped }
  | .p => { y with platform := x.platform.clamped }
  | .h => { y with hatch := x.hatch.clamped, pinsFlow := clamp 1 100 x.pinsFlow, lockTime := clamp 500 15000 x.lockTime }

def setMachines (x : MachineSettings) (s : State) : State := s.onSettings fun t => { t with machines := x }

/-- A RodeMax below the count sets the count to it; AT_RODE_MAX and display D0 follow the new parameters (R72, R154). -/
def applyWindlass (go : Go) (s : State) : State :=
  let top := s.settings.machines.windlass.rodeMax
  let s :=
    if top < s.sfe.rode then
      let ref := if (s.chan .w).state = .idle then some top else s.sfe.creepRef
      requestWrite go .records false (publish go (s.onSfe fun f => { f with rode := top, creepRef := ref }) Item.atRodeMax)
    else publish go s Item.atRodeMax
  refreshDisplay .w s

/-- A disagreement count above the new DisagreeCount is taken down to it (R88). -/
def applySensors (m : MachineId) (s : State) : State :=
  let x := s.sensors m
  setSensors m { x with disagree := min x.disagree (s.sensorParams m).disagreeCount } s

def applyParams (go : Go) (m : MachineId) (s : State) : State :=
  match m with
  | .w => applyWindlass go s
  | .p => applySensors .p s
  | .h => applySensors .h s

/-- The Enabled flag takes effect on the channel (R21). -/
def applyEnabled (go : Go) (m : MachineId) (s : State) : State :=
  match (s.chan m).state, (s.params m).enabled with
  | .idle, false | .held, false => enter go m .disabled s
  | .disabled, true => if s.affected m then enter go m .held s else go (.tryStart m) (enter go m .idle s)
  | _, _ => s

/-- CONFIGURE MACHINE naming W, P or H (R21). -/
def serveConfigureMachine (go : Go) (machine : Byte) (f : MachineFields) (s : State) : Served :=
  match machineNamed machine, yesNoNamed f.enabled with
  | some m, some enabled =>
    match ({ s.settings.machines with common := s.settings.machines.common.set m (commonOf f enabled) }).withTail m f.tail with
    | none => refuse .refusedValue s
    | some raw =>
      if (s.chan m).state.isRunning ∨ (enabled = true ∧ (s.params m).enabled = false ∧ s.allReleased m = false) then
        refuse .refusedState s
      else
        let new := raw.clamped m
        reply (accepted (new != raw)) [] (applyEnabled go m (applyParams go m (setMachines new s)))
  | _, _ => refuse .refusedValue s

/-- A clamped LinkQuiet: 0 is kept (R22). -/
def clampQuiet (n : Nat) : Nat := if n = 0 then 0 else clamp 500 30000 n

/-- A timer started at a time for which 0 leaves it stopped (R176, R177). -/
def timerUnlessZero (n : Nat) : Timer := if n = 0 then none else some n

/-- CONFIGURE MACHINE naming GLOBAL (R22, R177). -/
def serveConfigureGlobal (refreshTime linkQuiet : Half) (s : State) : Served :=
  let r := clamp 100 1000 refreshTime.toNat
  let q := clampQuiet linkQuiet.toNat
  reply (accepted (r != refreshTime.toNat || q != linkQuiet.toNat)) []
    ((setMachines { s.settings.machines with refreshTime := r, linkQuiet := q } s).onSlp fun l =>
      { l with quiet := timerUnlessZero q })

/-! ## READ MACHINE -/

def CommonParams.bytes (p : CommonParams) : List Byte :=
  flag p.enabled ++ word p.vmax ++ word p.vcreep ++ word p.slowOut ++ word p.slowIn ++ byte p.rampUp ++ word p.rampDown
    ++ word p.qmax ++ byte p.endBand

/-- The parameters a machine has alone, in the order of CONFIGURE MACHINE (chapter 13). -/
def State.ownParams (s : State) (m : MachineId) : List Byte :=
  let x := s.settings.machines
  match m with
  | .w => word x.windlass.pocketPitch ++ word x.windlass.rodeMax ++ word x.windlass.stallDemand ++ word x.windlass.stallTime
      ++ byte x.windlass.creepPockets
  | .p => byte x.platform.tol ++ byte x.platform.disagreeCount
  | .h => byte x.hatch.tol ++ byte x.hatch.disagreeCount ++ byte x.pinsFlow ++ word x.lockTime

/-- The fields of R60 beside the windlass parameters that CONFIGURE MACHINE carries; of the parameter table the fixed Overload qualify
time is left, in one byte, which holds it (R185). -/
def State.windlassReport (s : State) : List Byte :=
  word s.sfe.rode ++ long (rodeCentimetres s.settings.machines.windlass.pocketPitch s.sfe.rode) ++ flag (s.item Item.rodeUnknown)
    ++ flag (s.item Item.atHome) ++ flag (s.item Item.atRodeMax) ++ flag (s.item Item.brakeReleased)
    ++ optional word s.sfe.creepRef ++ optional word s.sfe.stall ++ flag s.sfe.overload.isSome
    ++ byte overloadTime

/-- The raw and clamped position of a sensor. -/
def rawBytes (r : Int) : List Byte := longInt r ++ word (clampedPosition (some r))

/-- PIN_UNLOCK and PIN_LOCK (R81). -/
def State.pinUnlock (s : State) : Bool := (s.chan .h).state == .unlocking
def State.pinLock (s : State) : Bool := (s.chan .h).state == .locking

/-- The fields of R89 that are not parameters of CONFIGURE MACHINE. -/
def State.sensorReport (s : State) (m : MachineId) : List Byte :=
  let x := s.sensors m
  let p := s.sensorParams m
  word x.countA ++ word x.countB ++ optional rawBytes x.rawA ++ optional rawBytes x.rawB
    ++ word p.calA.c0 ++ word p.calA.c1 ++ word p.calB.c0 ++ word p.calB.c1
    ++ byte x.disagree ++ flag x.sensorBad ++ flag x.overtravel
    ++ flag (s.item (Item.atIn m)) ++ flag (s.item (Item.atOut m)) ++ flag (s.item (Item.uncalibrated m))
    ++ flag (s.item (Item.conflict m))

/-- What a machine reports beside R23. -/
def State.machineReport (s : State) (m : MachineId) : List Byte :=
  match m with
  | .w => s.windlassReport
  | .p => s.sensorReport .p ++ flag (s.item Item.ladderDown) ++ flag (s.item Item.matOccupied)
  | .h => s.sensorReport .h ++ flag (s.item Item.cradleHome) ++ flag (s.item Item.pinsLocked) ++ flag (s.item Item.pinsUnlocked)
      ++ flag (s.item Item.unsecured) ++ flag s.pinUnlock ++ flag s.pinLock ++ optional word s.sfe.pinTimer

/-- READ MACHINE (R23, R60, R89, chapter 13). -/
def serveReadMachine (machine : Byte) (s : State) : Served :=
  match machineNamed machine with
  | none => refuse .refusedValue s
  | some m =>
    let c := s.chan m
    let x := s.settings.machines
    reply .ok
      (byte c.state.code ++ word c.position ++ word c.demand ++ word c.flow ++ word c.share ++ word c.applied
        ++ optional RunRec.bytes c.live ++ optional RunRec.bytes c.last ++ optional word c.refresh
        ++ (s.params m).bytes ++ s.ownParams m ++ word x.refreshTime ++ word x.linkQuiet ++ s.machineReport m) s

/-! ## RUN, REFRESH, STOP -/

/-- A target after clamping, and as it is recorded: a windlass IN target of 0 is recorded as absent (R9). -/
def State.clampedTarget (s : State) (m : MachineId) (t : Option Half) : Option Nat :=
  t.map fun x => min x.toNat (s.positionTop m)

def recordedTarget (m : MachineId) (d : Direction) (t : Option Nat) : Option Nat :=
  if m = .w ∧ d = .inward ∧ t = some 0 then none else t

/-- Check 8 of R5: the target lies on the run's side of the position (R9). -/
def State.targetAhead (s : State) (m : MachineId) (d : Direction) (t : Option Nat) : Bool :=
  match t, d with
  | none, _ => true
  | some x, .outward => decide ((s.chan m).position < x)
  | some x, .inward => decide (x < (s.chan m).position)

/-- The first check of R5 that a RUN fails, as the status of its reply. -/
def State.runRefusal (s : State) (m : MachineId) (d : Direction) (t : Option Nat) : Option Status :=
  match s.startCheck m d with
  | .faulted => some .refusedFault
  | .notReady => some .refusedState
  | .interlocked => if s.anyValid m then some .refusedState else some .refusedInterlock
  | .passes =>
    if s.anyValid m then some .refusedState
    else if s.targetAhead m d t then none
    else some .refusedValue

/-- RUN (R8, R9). -/
def serveRun (go : Go) (machine dir : Byte) (target : Option Half) (s : State) : Served :=
  match machineNamed machine, directionNamed dir with
  | some m, some d =>
    let t := s.clampedTarget m target
    let r := recordedTarget m d t
    match s.runRefusal m d r with
    | some x => refuse x s
    | none =>
      let id := (s.chan m).counter
      let s := createRun go m .link d r s
      reply (accepted (t != target.map BitVec.toNat)) (word id ++ byte (s.chan m).state.code ++ optional word r) s
  | _, _ => refuse .refusedValue s

/-- The live run is a LINK run of this id without an end reason (R11). -/
def Channel.refreshable (c : Channel) (id : Nat) : Bool :=
  match c.live with
  | some r => r.origin == .link && r.id == id && r.endReason == none
  | none => false

/-- REFRESH (R11). -/
def serveRefresh (machine : Byte) (runId : Half) (s : State) : Served :=
  match machineNamed machine with
  | none => refuse .refusedValue s
  | some m =>
    if (s.chan m).refreshable runId.toNat then
      reply .ok [] (setChan m { s.chan m with refresh := some s.settings.machines.refreshTime } s)
    else refuse .refusedState s

/-- One machine is stopped: its inputs are inhibited, so that no press starts it again, and its run ends (R14). -/
def stopMachine (go : Go) (s : State) (m : MachineId) : State := endRun go m .linkStop (inhibit go m s)

/-- STOP (R14). -/
def serveStop (go : Go) (machine : Byte) (s : State) : Served :=
  match machinesNamed machine with
  | none => refuse .refusedValue s
  | some ms => reply .ok [] (ms.foldl (stopMachine go) s)

/-! ## SET RODE and CALIBRATE -/

/-- SET RODE (R71). -/
def serveSetRode (go : Go) (count : Half) (s : State) : Served :=
  let n := min count.toNat s.settings.machines.windlass.rodeMax
  if (s.chan .w).state ≠ .idle ∨ (s.pins.home = true ∧ n ≠ 0) then refuse .refusedState s
  else
    let s := s.onSfe fun f => { f with rode := n, rodeUnknown := false, creepRef := some n }
    reply (accepted (n != count.toNat)) []
      (requestWrite go .records false (publishAll go [Item.rodeUnknown, Item.atRodeMax] s))

/-- The calibration of a sensor with one end captured. -/
def Calibration.captured (c : Calibration) (atIn : Bool) (count : Nat) : Calibration :=
  if atIn then { c with c0 := count } else { c with c1 := count }

def setSensorParams (m : MachineId) (p : SensorParams) (s : State) : State :=
  setMachines (match m with
    | .h => { s.settings.machines with hatch := p }
    | _ => { s.settings.machines with platform := p }) s

/-- The endpoint a CALIBRATE names: 0 is the IN end, 1000 the OUT end (R78). -/
def endpointNamed (e : Half) : Option Bool := if e = 0 then some true else if e = 1000 then some false else none

/-- A new calibration takes effect (R79). -/
def applyCalibration (go : Go) (m : MachineId) (p : SensorParams) (s : State) : State :=
  let was := s.uncalibrated m
  let s := setSensors m { s.sensors m with disagree := 0 } (setSensorParams m p s)
  let s := publish go s (Item.uncalibrated m)
  if was && !s.uncalibrated m then go (.tryStart m) s else s

/-- CALIBRATE of the platform or the hatch (R78). -/
def calibrateMachine (go : Go) (m : MachineId) (atIn : Bool) (s : State) : Served :=
  if (s.chan m).state.isRunning ∨ (s.chan m).state = .disabled then refuse .refusedState s
  else
    let p := s.sensorParams m
    let x := s.sensors m
    let q := { p with calA := p.calA.captured atIn x.countA, calB := p.calB.captured atIn x.countB }
    if q.calA.missing || q.calB.missing then refuse .refusedValue s
    else
      reply .ok (word q.calA.c0 ++ word q.calA.c1 ++ word q.calB.c0 ++ word q.calB.c1) (applyCalibration go m q s)

/-- CALIBRATE (R78). -/
def serveCalibrate (go : Go) (machine : Byte) (endpoint : Half) (s : State) : Served :=
  match machineNamed machine, endpointNamed endpoint with
  | some .p, some e => calibrateMachine go .p e s
  | some .h, some e => calibrateMachine go .h e s
  | _, _ => refuse .refusedValue s

/-! ## Hydraulic supply -/

/-- The HSU parameters clamped (R55). -/
def HsuSettings.clamped (x : HsuSettings) : HsuSettings :=
  { fcap := clamp 10 600 x.fcap, primeTime := clamp 200 5000 x.primeTime, primeTries := clamp 1 5 x.primeTries,
    runOn := min x.runOn 60000 }

/-- CONFIGURE HSU (R55). -/
def serveConfigureHsu (fcap primeTime : Half) (primeTries : Byte) (runOn : Half) (s : State) : Served :=
  if s.hsc.grants.isEmpty && s.hsc.queue.isEmpty then
    let raw : HsuSettings :=
      { fcap := fcap.toNat, primeTime := primeTime.toNat, primeTries := primeTries.toNat, runOn := runOn.toNat }
    reply (accepted (raw.clamped != raw)) [] (s.onSettings fun t => { t with hsu := raw.clamped })
  else refuse .refusedState s

/-- One channel of the grant list as READ HSU reports it. -/
def State.grantBytes (s : State) (m : MachineId) : List Byte :=
  let c := s.chan m
  byte (machineCode m) ++ byte c.state.code ++ word c.flow ++ word c.share ++ word c.applied

/-- READ HSU (R56). -/
def serveReadHsu (s : State) : Served :=
  let h := s.hsc
  let x := s.settings.hsu
  reply .ok
    (byte h.pump.code ++ byte h.attempt ++ optional word h.timer ++ flag s.pins.pressureOk ++ flag s.pins.oilHot
      ++ flag h.pressLoss.isSome ++ counted s.grantBytes h.grants ++ counted (fun m => byte (machineCode m)) h.queue
      ++ word h.pn ++ word h.avail ++ word h.total ++ flag h.scaled ++ flag h.isolate
      ++ word x.fcap ++ word x.primeTime ++ byte x.primeTries ++ word x.runOn) s

end Sys2Proof.Machine
end

