-- ==== Sys2Proof/Machine/FaultRequests.lean ====
section
/-! DEFINITION. What the fault and interlock supervisor and the station input qualifier do with their requests: interlock entries,
causes, clears, station settings (R102, R103, R109, R111, R112, R117, R121, R122). -/

namespace Sys2Proof.Machine

/-! ## Interlock entries -/

/-- The action of an entry as carried: its code and its cap value (R118). -/
def actionNamed (action : Byte) (cap : Option Half) : Option InterlockAction :=
  match action.toNat, cap with
  | 1, none => some .block
  | 2, some v => some (.cap v.toNat)
  | _, _ => none

/-- The entry that the fields of WRITE INTERLOCK name; nothing for an undefined code, an item that does not exist, or one that
follows the running of the machines (R121). -/
def entryNamed (f : EntryFields) : Option InterlockEntry :=
  match machineNamed f.machine, entryDirectionNamed f.dir, itemNamed f.group f.place, yesNoNamed f.sense,
    actionNamed f.action f.cap with
  | some m, some d, some r, some sense, some a =>
    if r.followsRunning then none else some { machine := m, dir := d, item := r, sense := sense, action := a }
  | _, _, _, _, _ => none

/-- A CAP value is clamped to 50..1000 (R121). -/
def InterlockEntry.clamped (e : InterlockEntry) : InterlockEntry :=
  match e.action with
  | .cap v => { e with action := .cap (clamp 50 1000 v) }
  | .block => e

/-- Entry `i` is replaced and every entry evaluated; the station start of the replaced entry's machine is tried (R7, R120,
R121). -/
def replaceEntry (go : Go) (i : Nat) (e : Option InterlockEntry) (s : State) : State :=
  let old := s.entry i
  let s := s.onSettings fun t => { t with interlocks := poke t.interlocks (i - builtInEntries) e }
  let s := reevaluate go s.entries s
  match old with
  | some x => go (.tryStart x.machine) s
  | none => s

/-- The index is one that the host may write (R121). -/
def writableEntry (i : Nat) : Bool := decide (builtInEntries ≤ i ∧ i < interlockEntries)

/-- WRITE INTERLOCK (R121). -/
def serveWriteInterlock (go : Go) (index : Byte) (entry : Option EntryFields) (s : State) : Served :=
  if writableEntry index.toNat then
    match entry with
    | none => reply .ok [] (replaceEntry go index.toNat none s)
    | some f =>
      match entryNamed f with
      | none => refuse .refusedValue s
      | some e => reply (accepted (e.clamped != e)) [] (replaceEntry go index.toNat (some e.clamped) s)
  else refuse .refusedValue s

def entryDirectionCode : Option Direction → Nat
  | some d => directionCode d
  | none => 2

/-- An entry as READ INTERLOCK carries it, an empty one by its marker (R185). -/
def entryReport : Option InterlockEntry → List Byte
  | none => byte 0
  | some e =>
    byte (machineCode e.machine) ++ byte (entryDirectionCode e.dir) ++ byte e.item.group.code ++ byte e.item.place ++ flag e.sense
      ++ (match e.action with
          | .block => byte 1
          | .cap v => byte 2 ++ word v)

/-- READ INTERLOCK (R122). -/
def serveReadInterlock (index : Byte) (s : State) : Served :=
  match indexNamed interlockEntries index with
  | none => refuse .refusedValue s
  | some i =>
    reply .ok
      (entryReport (s.entry i) ++ flag (decide (i < builtInEntries)) ++ flag ((s.entry i).any s.holds)) s

/-! ## Causes -/

/-- CONFIGURE CAUSE (R112). -/
def serveConfigureCause (cause cls trip : Byte) (s : State) : Served :=
  match indexNamed 16 cause with
  | none => refuse .refusedValue s
  | some c =>
    if (s.cause c).active then refuse .refusedState s
    else
      match classNamed cls, yesNoNamed trip with
      | some k, some t =>
        if classAllowed c k && (!t || (k == .latched && tripAllowed c)) then
          reply .ok [] (s.onSettings fun x => { x with causes := poke x.causes c { cls := k, trip := t } })
        else refuse .refusedValue s
      | _, _ => refuse .refusedValue s

def State.causeBytes (s : State) (c : Nat) : List Byte :=
  flag (s.cause c).active ++ flag (s.cause c).present ++ byte (s.causeSetting c).cls.code ++ flag (s.causeSetting c).trip
    ++ optional long (s.cause c).raisedAt

def tripBytes (t : TripRec) : List Byte := byte t.cause ++ long t.time ++ word t.rode ++ flag t.restored

/-- READ FAULTS (R117). DESIGN CHOICE: the sixteen causes stand without a count byte, and the levels of ESTOP and SERVICE# are carried
as 1 for asserted (log entry 8). -/
def serveReadFaults (s : State) : Served :=
  reply .ok
    (causeIndexes.flatMap s.causeBytes ++ byte (faultedMask s.fis.faulted) ++ optional tripBytes s.fis.trip
      ++ flag s.pins.estop ++ flag s.pins.service ++ flag s.hsc.isolate) s

/-! ## Clears -/

/-- The cause is active, of the class, and its condition is absent (R109, R111). -/
def State.clearable (s : State) (k : CauseClass) (c : Nat) : Bool :=
  (s.cause c).active && (s.causeSetting c).cls == k && !(s.cause c).present

/-- The causes a clear of class `k` clears; nothing when the one named is active and may not be cleared (R109, R111). -/
def State.toClear (s : State) (k : CauseClass) (x : CauseChoice) : Option (List Nat) :=
  match x with
  | .all => some (causeIndexes.filter (s.clearable k))
  | .one c => if (s.cause c).active then (if s.clearable k c then some [c] else none) else some []

/-- The causes of the list are cleared in its order. -/
def clearCauses (go : Go) (means : ClearMeans) (cs : List Nat) (s : State) : State :=
  cs.foldl (fun s c => clearCause go c means s) s

/-- CLEAR FAULT (R109). -/
def serveClearFault (go : Go) (cause : Byte) (s : State) : Served :=
  match causesNamed cause with
  | none => refuse .refusedValue s
  | some x =>
    match s.toClear .crew x with
    | none => refuse .refusedState s
    | some cs => reply .ok (set16 cs.contains) (clearCauses go .crew cs s)

/-- No active cause has its trip enable set, and a trip record exists (R111). -/
def State.tripRemovable (s : State) : Bool :=
  s.fis.trip.isSome && causeIndexes.all fun c => !((s.cause c).active && (s.causeSetting c).trip)

/-- The trip record is removed (R111). -/
def removeTrip (go : Go) (s : State) : State :=
  reconsiderIsolate go
    (requestWrite go .records false (publish go (s.onFis fun f => { f with trip := none }) Item.tripRecorded))

/-- SERVICE CLEAR (R111). -/
def serveServiceClear (go : Go) (cause : Byte) (s : State) : Served :=
  match causesNamed cause with
  | none => refuse .refusedValue s
  | some x =>
    if s.pins.service then
      match s.toClear .latched x with
      | none => refuse .refusedState s
      | some cs =>
        let s := clearCauses go .service cs s
        let removed := s.tripRemovable
        reply .ok (set16 cs.contains ++ flag removed) (if removed then removeTrip go s else s)
    else refuse .refusedService s

/-! ## Stations -/

/-- Every hold-to-run input is RELEASED (R102). -/
def State.everyInputReleased (s : State) : Bool := machines.all s.allReleased

/-- Some channel is in a running state (R102). -/
def State.anyRunning (s : State) : Bool := machines.any fun m => (s.chan m).state.isRunning

/-- The station settings as carried; nothing when a binding is no zone and not NONE (R102). -/
def stationNamed (f : StationFields) : Option StationSettings :=
  if f.bindings.toList.all fun b => (indexOrNoneNamed 8 0xFF b).isSome then
    some
      { qualifyTime := f.qualifyTime.toNat, releaseTime := f.releaseTime.toNat, disagreeTime := f.disagreeTime.toNat,
        bindings := f.bindings.map fun b => (indexOrNoneNamed 8 0xFF b).getD none }
  else none

def StationSettings.clamped (x : StationSettings) : StationSettings :=
  { x with
    qualifyTime := clamp 10 200 x.qualifyTime, releaseTime := clamp 10 100 x.releaseTime
    disagreeTime := clamp 50 1000 x.disagreeTime }

/-- CONFIGURE STATION (R102). -/
def serveConfigureStation (f : StationFields) (s : State) : Served :=
  if s.everyInputReleased && !s.anyRunning then
    match stationNamed f with
    | none => refuse .refusedValue s
    | some raw => reply (accepted (raw.clamped != raw)) [] (s.onSettings fun t => { t with stations := raw.clamped })
  else refuse .refusedState s

/-- A hold-to-run input as READ STATIONS reports it: state, levels, pattern, running timer with its time left (R103). DESIGN
CHOICE: a closed contact is carried as 1, an open one as 0 (log entry 8). -/
def HoldRec.bytes (x : HoldRec) : List Byte :=
  byte x.state.code ++ flag x.a ++ flag x.b ++ byte (patternOf x.a x.b).code
    ++ byte (match x.timer with
        | some (k, _) => k.code
        | none => 0)
    ++ optional word (x.timer.map Prod.snd)

/-- A button or key as READ STATIONS reports it: level, debounced state, armed mark, debounce time left (R103). DESIGN CHOICE: a
closed contact is carried as 1, an open one as 0 (log entry 8). -/
def ContactRec.bytes (x : ContactRec) : List Byte :=
  flag x.closed ++ flag x.pressed ++ flag x.armed ++ optional word x.debounce

/-- A button as READ STATIONS reports it; a reset button has its long-press timer besides (R103). -/
def Siq.buttonBytes (q : Siq) : ContactId → List Byte
  | .display m => (contactOf q (.display m)).bytes
  | .reset m => (contactOf q (.reset m)).bytes ++ optional word (q.longPress.get m)
  | .key k => (contactOf q (.key k)).bytes

/-- The buttons in the order of their codes, and the guest keys (R185). -/
def buttons : List ContactId := machines.map .display ++ machines.map .reset
def guestKeys : List ContactId := (List.finRange 8).map .key

/-- READ STATIONS (R103). -/
def serveReadStations (s : State) : Served :=
  let x := s.settings.stations
  reply .ok
    (counted (fun i => (s.input i).bytes) holdInputs ++ byte (faultedMask s.fis.faulted)
      ++ counted s.siq.buttonBytes buttons ++ counted s.siq.buttonBytes guestKeys
      ++ counted (fun z => byte (zoneOrNone z)) x.bindings.toList
      ++ byte x.qualifyTime ++ byte x.releaseTime ++ word x.disagreeTime) s

end Sys2Proof.Machine
end

