-- ==== Sys2Proof/Machine/AudioRequests.lean ====
section
/-! DEFINITION. What the zone audio engine does with its requests: sources, zones, clips, announce records, pages, reading (R134 to
R143, R150, R152, R153). -/

namespace Sys2Proof.Machine

/-! ## Sources -/

/-- The input words a source may have (chapter 8). -/
def wordNamed (b : Byte) : Option Nat := if b.toNat = 16 ∨ b.toNat = 24 ∨ b.toNat = 32 then some b.toNat else none

/-- Some block of the range has an owner that `mine` does not allow (R128, R134, R141). -/
def State.claimed (s : State) (start count : Nat) (mine : BlockOwner) : Bool :=
  (List.range count).any fun k =>
    let o := peek s.zae.owners (start + k)
    o != .free && o != mine

/-- The owners after `mine` has given up its blocks and taken those of the range (R134, R141). -/
def reowned (owners : Vector BlockOwner 64) (mine : BlockOwner) (start count : Nat) : Vector BlockOwner 64 :=
  Vector.ofFn fun b : Fin 64 =>
    if start ≤ b.val ∧ b.val < start + count then mine
    else if peek owners b.val = mine then .free
    else peek owners b.val

/-- A range of blocks that does not fit in the sample memory (R134, R141). -/
def beyondMemory (start count : Nat) : Bool := decide (64 < count ∨ 63 < start ∨ 64 < start + count)

/-- The marks clamped: LowMark to the capacity, HighMark to LowMark..capacity (R134). -/
def SourceConfig.clamped (c : SourceConfig) : SourceConfig :=
  let low := min c.lowMark c.capacity
  { c with lowMark := low, highMark := clamp low c.capacity c.highMark }

/-- The source after its configuration: FIFO emptied, DISABLED or DETECTING with class NONE (R134). -/
def SourceRec.configured (x : SourceRec) (enabled : Bool) : SourceRec :=
  { x with
    state := if enabled then .detecting else .disabled
    cls := .none, candidate := none, measuring := false, frames := 0, edges := 0, decim := 0, fifo := []
    frameTimer := if enabled then some frameTime else none }

/-- A configuration is accepted for source `n` (R134). -/
def applySource (go : Go) (n : Nat) (c : SourceConfig) (s : State) : State :=
  let s := s.onSettings fun t => { t with audio := { t.audio with sources := poke t.audio.sources n c } }
  let s := s.onZae fun a =>
    { a with
      owners := reowned a.owners (.source n) c.start c.count
      sources := poke a.sources n ((peek a.sources n).configured c.enabled) }
  publishAll go (sourceItems n) s

/-- CONFIGURE SOURCE (R134). -/
def serveConfigureSource (go : Go) (source : Byte) (f : SourceFields) (s : State) : Served :=
  match indexNamed 3 source, wordNamed f.word, yesNoNamed f.enabled, yesNoNamed f.mono with
  | some n, some w, some enabled, some mono =>
    let raw : SourceConfig :=
      { enabled := enabled, word := w, mono := mono, start := f.start.toNat, count := f.count.toNat,
        lowMark := f.lowMark.toNat, highMark := f.highMark.toNat }
    if (s.source n).state ≠ .disabled ∧ enabled = true then refuse .refusedState s
    else if beyondMemory raw.start raw.count || (enabled && raw.count == 0) then refuse .refusedValue s
    else if s.claimed raw.start raw.count (.source n) then refuse .refusedValue s
    else reply (accepted (raw.clamped != raw)) [] (applySource go n raw.clamped s)
  | _, _, _, _ => refuse .refusedValue s

/-! ## Zones -/

def setZoneConfig (z : Nat) (c : ZoneConfig) (s : State) : State :=
  s.onSettings fun t => { t with audio := { t.audio with zones := poke t.audio.zones z c } }

def ZoneConfig.clamped (c : ZoneConfig) : ZoneConfig := { c with volume := min c.volume 31, level := min c.level 23 }

/-- CONFIGURE ZONE: a change of the safety attribute reconsiders the lists and the page (R135). -/
def serveConfigureZone (go : Go) (zone : Byte) (f : ZoneFields) (s : State) : Served :=
  match indexNamed 8 zone, indexOrNoneNamed 3 3 f.source, yesNoNamed f.fold, yesNoNamed f.safety with
  | some z, some src, some fold, some safety =>
    let raw : ZoneConfig := { source := src, volume := f.volume.toNat, fold := fold, safety := safety, level := f.level.toNat }
    let was := (s.zoneConfig z).safety
    let s := setZoneConfig z raw.clamped s
    reply (accepted (raw.clamped != raw)) [] (if was = safety then s else reconsiderLists go s)
  | _, _, _, _ => refuse .refusedValue s

/-- SET VOLUME (R136). -/
def serveSetVolume (zone volume : Byte) (s : State) : Served :=
  match indexNamed 8 zone with
  | none => refuse .refusedValue s
  | some z =>
    let v := min volume.toNat 31
    reply (accepted (v != volume.toNat)) [] (setZoneConfig z { s.zoneConfig z with volume := v } s)

/-- SET QUIET (R137). -/
def serveSetQuiet (go : Go) (zone quiet : Byte) (s : State) : Served :=
  match indexNamed 8 zone, yesNoNamed quiet with
  | some z, some q => reply .ok [] (setZoneQuiet go z q s)
  | _, _ => refuse .refusedValue s

/-- CLEAR AUDIO FLAGS (R138). -/
def serveClearAudioFlags (go : Go) (set : Byte) (s : State) : Served :=
  if set.toNat < 8 then
    let named := (List.range 3).filter (memberOf set)
    reply .ok []
      (named.foldl (fun s n => publish go (setSource n { s.source n with xrun := false } s) (Item.sourceXrun n)) s)
  else refuse .refusedValue s

/-! ## Clips -/

/-- The first sample address of a clip, and how many samples its blocks hold. -/
def ClipRec.base (c : ClipRec) : Nat := c.start * samplesPerBlock
def ClipRec.room (c : ClipRec) : Nat := c.count * samplesPerBlock

/-- The clip slot that holds no clip. -/
def ClipRec.free : ClipRec := { state := .empty, start := 0, count := 0, length := 0 }

def setClip (k : Nat) (c : ClipRec) (s : State) : State := s.onZae fun a => { a with clips := poke a.clips k c }

/-- The samples of slot `k` become 0, before its blocks change hands. -/
def dropSamples (k : Nat) (s : State) : State :=
  s.onZae fun a => { a with memory := clearSamples (s.clip k).base (s.clip k).room a.memory }

/-- ALLOCATE CLIP (R141). -/
def serveAllocateClip (slot start count : Byte) (s : State) : Served :=
  match indexNamed 16 slot with
  | none => refuse .refusedValue s
  | some k =>
    if s.clipInPlay k then refuse .refusedState s
    else if count.toNat = 0 ∨ beyondMemory start.toNat count.toNat = true then refuse .refusedValue s
    else if s.claimed start.toNat count.toNat (.clip k) then refuse .refusedValue s
    else
      let c : ClipRec := { state := .loading, start := start.toNat, count := count.toNat, length := 0 }
      let s := setClip k c (dropSamples k s)
      reply .ok []
        (s.onZae fun a =>
          { a with owners := reowned a.owners (.clip k) c.start c.count, memory := clearSamples c.base c.room a.memory })

/-- FREE CLIP (R141). -/
def serveFreeClip (slot : Byte) (s : State) : Served :=
  match indexNamed 16 slot with
  | none => refuse .refusedValue s
  | some k =>
    if s.clipInPlay k then refuse .refusedState s
    else
      reply .ok []
        ((setClip k ClipRec.free (dropSamples k s)).onZae fun a => { a with owners := reowned a.owners (.clip k) 0 0 })

/-- CLIP DATA (R142). -/
def serveClipData (slot : Byte) (offset : Half) (samples : List Half) (s : State) : Served :=
  if samples.length < 1 ∨ 96 < samples.length then refuse .refusedLength s
  else
    match indexNamed 16 slot with
    | none => refuse .refusedValue s
    | some k =>
      let c := s.clip k
      if c.state ≠ .loading then refuse .refusedState s
      else if c.room < offset.toNat + samples.length then refuse .refusedValue s
      else reply .ok [] (s.onZae fun a => { a with memory := writeSamples (c.base + offset.toNat) samples a.memory })

/-- CLIP END (R142). -/
def serveClipEnd (slot : Byte) (length : Half) (s : State) : Served :=
  match indexNamed 16 slot with
  | none => refuse .refusedValue s
  | some k =>
    let c := s.clip k
    if c.state ≠ .loading then refuse .refusedState s
    else if length.toNat = 0 ∨ c.room < length.toNat then refuse .refusedValue s
    else reply .ok [] (setClip k { c with state := .ready, length := length.toNat } s)

/-! ## Announce records and pages -/

/-- The zones of a set byte. -/
def zonesOf (b : Byte) : Vector Bool 8 := Vector.ofFn fun z : Fin 8 => memberOf b z.val

/-- A RepeatInterval in its range: 0 is kept (R143). -/
def clampRepeat (n : Nat) : Nat := if n = 0 then 0 else clamp 1000 30000 n

def AnnounceRecord.clamped (r : AnnounceRecord) : AnnounceRecord :=
  { r with duck := min r.duck 23, repeatInterval := clampRepeat r.repeatInterval }

/-- A new announce record for machine `m`: the lists are reconsidered, and a voice that waits for `m` follows its new
RepeatInterval (R143, R148). -/
def applyAnnounce (go : Go) (m : MachineId) (r : AnnounceRecord) (s : State) : State :=
  let s := s.onSettings fun t => { t with audio := { t.audio with announce := t.audio.announce.set m r } }
  let s := reconsiderLists go s
  publish go (zoneIndexes.foldl (fun s z => setZone z (s.repeatRewritten m (s.zone z)) s) s) Item.toneAny

/-- CONFIGURE ANNOUNCE (R143). -/
def serveConfigureAnnounce (go : Go) (machine : Byte) (f : AnnounceFields) (s : State) : Served :=
  match machineNamed machine, indexOrNoneNamed 16 0xFF f.clip with
  | some m, some clip =>
    let raw : AnnounceRecord :=
      { clip := clip, zones := zonesOf f.zones, duck := f.duck.toNat, repeatInterval := f.repeatInterval.toNat }
    reply (accepted (raw.clamped != raw)) [] (applyAnnounce go m raw.clamped s)
  | _, _ => refuse .refusedValue s

/-- The zones of a set in which a page may play (R150). -/
def State.pageable (s : State) (zones : Vector Bool 8) : Vector Bool 8 :=
  Vector.ofFn fun z : Fin 8 =>
    peek zones z.val && (s.zone z.val).list.isEmpty && ((s.zoneConfig z.val).safety || !(s.zone z.val).quiet)

/-- A page of clip `k` starts in the zones `paged` (R150). -/
def startPage (go : Go) (k duck : Nat) (paged : Vector Bool 8) (s : State) : State :=
  let record : PageRec :=
    { clip := k, duck := duck, playing := paged, completed := Vector.replicate 8 false, cut := Vector.replicate 8 false,
      place := 0 }
  let s := zoneIndexes.foldl (fun s z =>
    if peek paged z then setZone z { s.zone z with voice := .page, place := 0, since := 0 } s else s) s
  publish go (s.onZae fun a => { a with page := some record }) Item.paging

/-- PAGE (R150). -/
def servePage (go : Go) (slot zones duck : Byte) (s : State) : Served :=
  match indexNamed 16 slot with
  | none => refuse .refusedValue s
  | some k =>
    if (s.clip k).state ≠ .ready ∨ s.zae.page.isSome = true then refuse .refusedState s
    else
      let d := min duck.toNat 23
      let paged := s.pageable (zonesOf zones)
      reply (accepted (d != duck.toNat)) (set8 (peek paged)) (if paged.any id then startPage go k d paged s else s)

/-- CANCEL PAGE: the reply names the zones that it cut (R152). -/
def serveCancelPage (go : Go) (s : State) : Served :=
  match s.zae.page with
  | some p => reply .ok (set8 (peek p.playing)) (cancelPageNow go s)
  | none => reply .ok (set8 fun _ => false) s

/-! ## READ AUDIO -/

def candidateBytes (c : RateClass × Nat) : List Byte := byte c.1.code ++ byte c.2

def sourceConfigBytes (c : SourceConfig) : List Byte :=
  flag c.enabled ++ byte c.word ++ flag c.mono ++ byte c.start ++ byte c.count ++ word c.lowMark ++ word c.highMark

/-- One source of the part SOURCES (R139). -/
def State.sourceReport (s : State) (n : Nat) : List Byte :=
  let x := s.source n
  let c := s.sourceConfig n
  byte x.state.code ++ byte x.cls.code ++ optional candidateBytes x.candidate ++ word x.lastCount
    ++ word x.fifo.length ++ word c.capacity ++ word c.startFill ++ flag (decide (c.highMark ≤ x.fifo.length))
    ++ flag (s.item (Item.sourceLow n)) ++ flag (s.item (Item.sourceXrun n)) ++ sourceConfigBytes c

/-- One zone of the part ZONES (R139). -/
def State.zoneReport (s : State) (z : Nat) : List Byte :=
  let c := s.zoneConfig z
  byte (sourceOrNone c.source) ++ byte c.volume ++ flag c.fold ++ flag c.safety ++ byte c.level ++ flag (s.zone z).quiet
    ++ byte (s.zone z).duck

def AnnounceRecord.bytes (r : AnnounceRecord) : List Byte :=
  byte (zoneOrNone r.clip) ++ set8 (peek r.zones) ++ byte r.duck ++ word r.repeatInterval

/-- One slot of the part CLIPS (R153). -/
def State.clipReport (s : State) (k : Nat) : List Byte :=
  let c := s.clip k
  let owns := c.state != .empty
  byte c.state.code ++ optional (fun x : ClipRec => byte x.start ++ byte x.count) (if owns then some c else none)
    ++ optional word (if c.state = .ready then some c.length else none) ++ flag (s.clipInPlay k)

/-- The place reached in the play in progress (R153). -/
def State.voicePlace (s : State) (z : ZoneRec) : Option Nat :=
  match z.voice with
  | .play => some z.place
  | .page => s.zae.page.map PageRec.place
  | .silent | .repeatWait | .played => none

/-- The milliseconds of a number of output frames: exact for whole milliseconds, and with the rest below 48 frames rounded as
the free value says (log entry 7). -/
def framesToMs (frames : Nat) : Nat :=
  if frames % framesPerMs ≠ 0 ∧ Config.repeatRestRoundsUp frames = true then frames / framesPerMs + 1 else frames / framesPerMs

/-- The time left to the next play in REPEAT_WAIT (R153). -/
def State.repeatLeft (s : State) (z : ZoneRec) : Option Nat :=
  match z.voice with
  | .repeatWait => some (framesToMs (s.headRepeat z.list * framesPerMs - z.since))
  | .silent | .play | .played | .page => none

/-- One voice of the part VOICES (R153). -/
def State.voiceReport (s : State) (z : Nat) : List Byte :=
  let x := s.zone z
  counted (fun m => byte (machineCode m)) x.list ++ byte x.voice.code ++ optional word (s.voicePlace x)
    ++ optional word (s.repeatLeft x)

def PageRec.bytes (p : PageRec) : List Byte :=
  byte p.clip ++ byte p.duck ++ set8 (peek p.playing) ++ set8 (peek p.completed) ++ set8 (peek p.cut)

/-- READ AUDIO (R139, R153). -/
def serveReadAudio (part : Byte) (s : State) : Served :=
  match part.toNat with
  | 0 => reply .ok (counted s.sourceReport (List.range 3)) s
  | 1 =>
    reply .ok (counted s.zoneReport zoneIndexes ++ counted (fun m => AnnounceRecord.bytes (s.announce m)) machines) s
  | 2 => reply .ok (counted (fun o => byte (BlockOwner.code o)) s.zae.owners.toList) s
  | 3 => reply .ok (counted s.clipReport (List.range 16)) s
  | 4 =>
    reply .ok
      (counted s.voiceReport zoneIndexes ++ optional PageRec.bytes s.zae.page ++ flag (s.item Item.toneAny)
        ++ flag (s.item Item.paging)) s
  | _ => refuse .refusedValue s

end Sys2Proof.Machine
end

