-- ==== Sys2Proof/Machine/IndicatorRequests.lean ====
section
/-! DEFINITION. What the indicator driver does with its requests: display parameters, display requests, lamps (R160, R161,
R163). -/

namespace Sys2Proof.Machine

/-- The top of a display's range: metres on D0, permille on D1 and D2 (R160). -/
def displayTop : MachineId → Nat
  | .w => 1600
  | .p | .h => 1000

/-- The display parameters as carried. -/
def displayOf (f : DisplayFields) : DisplayParams :=
  { outThresholds := f.outThresholds.map BitVec.toNat, inThresholds := f.inThresholds.map BitVec.toNat,
    rampDelay := f.rampDelay.toNat, holdTime := f.holdTime.toNat, blinkPeriod := f.blinkPeriod.toNat,
    flashPeriod := f.flashPeriod.toNat, flashHigh := f.flashHigh.toNat }

/-- A BlinkPeriod in its range: 0 is kept (R160). -/
def clampBlink (n : Nat) : Nat := if n = 0 then 0 else clamp 100 2000 n

def DisplayParams.clamped (m : MachineId) (p : DisplayParams) : DisplayParams :=
  { outThresholds := p.outThresholds.map fun t => min t (displayTop m)
    inThresholds := p.inThresholds.map fun t => min t (displayTop m)
    rampDelay := min p.rampDelay 500
    holdTime := clamp 1 60 p.holdTime
    blinkPeriod := clampBlink p.blinkPeriod
    flashPeriod := clamp 100 2000 p.flashPeriod
    flashHigh := min p.flashHigh (displayTop m) }

/-- No element is below the one before it. -/
def nonDecreasing (xs : List Nat) : Bool :=
  match xs with
  | [] => true
  | x :: rest => rest.all (fun y => decide (x ≤ y)) && nonDecreasing rest

/-- The display a code names: D0, D1 and D2 by their machines. -/
def displayNamed (b : Byte) : Option MachineId := machineNamed b

def setDisplayParams (m : MachineId) (p : DisplayParams) (s : State) : State :=
  s.onSettings fun t => { t with indicators := { t.indicators with displays := t.indicators.displays.set m p } }

/-- CONFIGURE DISPLAY (R160). -/
def serveConfigureDisplay (display : Byte) (f : DisplayFields) (s : State) : Served :=
  match displayNamed display with
  | none => refuse .refusedValue s
  | some m =>
    let raw := displayOf f
    let new := raw.clamped m
    if nonDecreasing new.outThresholds.toList && nonDecreasing new.inThresholds.toList then
      reply (accepted (new != raw)) [] (refreshDisplay m (setDisplayParams m new s))
    else refuse .refusedValue s

/-- A display as DISPLAY REQUEST reports it (R161). -/
def State.displayReport (s : State) (m : MachineId) : List Byte :=
  byte (s.display m).state.code ++ byte (s.display m).lit ++ byte (s.target m) ++ byte (s.display m).overlay.code

/-- The displays named take the action: 0 is ACTIVATE, 1 is OFF (R161). -/
def displayAction (action : Byte) : Option (MachineId → State → State) :=
  match action.toNat with
  | 0 => some activate
  | 1 => some displayOff
  | _ => none

/-- DISPLAY REQUEST (R161). -/
def serveDisplayRequest (display action : Byte) (s : State) : Served :=
  match machinesNamed display, displayAction action with
  | some ms, some f =>
    let s := ms.foldl (fun s m => f m s) s
    reply .ok (counted s.displayReport ms) s
  | _, _ => refuse .refusedValue s

/-- The binding of a lamp as carried (R162, R163). -/
def bindingNamed (binding : Byte) (item : Option LampItemFields) : Option LampBinding :=
  match binding.toNat, item with
  | 0, none => some .off
  | 1, none => some .on
  | 2, some x =>
    match itemNamed x.group x.place, yesNoNamed x.sense with
    | some r, some sense => some (.item r sense)
    | _, _ => none
  | _, _ => none

def setLamp (l : Nat) (c : LampConfig) (s : State) : State :=
  s.onSettings fun t => { t with indicators := { t.indicators with lamps := poke t.indicators.lamps l c } }

/-- CONFIGURE LAMP (R163). -/
def serveConfigureLamp (lamp binding : Byte) (item : Option LampItemFields) (mode : Byte) (s : State) : Served :=
  match indexNamed 6 lamp, bindingNamed binding item, yesNoNamed mode with
  | some l, some b, some f => reply .ok [] (setLamp l { binding := b, flash := f } s)
  | _, _, _ => refuse .refusedValue s

/-! ## What the outputs show -/

/-- The lamp is called (R162). -/
def State.lampCalled (s : State) (l : Nat) : Bool :=
  match (peek s.settings.indicators.lamps l).binding with
  | .off => false
  | .on => true
  | .item r sense => s.item r == sense

end Sys2Proof.Machine
end

