-- ==== Sys2Proof/Machine/StartUp.lean ====
section
/-! DEFINITION. The resets, what initialization loads from the store, and the end of initialization (R2, R24, R41, R69, R73, R96,
R98, R115, R116, R123, R155, R176, R178, R182, R183). -/

namespace Sys2Proof.Machine

/-! ## The store at a reset -/

/-- A copy whose write a reset has cut short fails its check (R183). -/
def Copy.spoiled {α : Type} (c : Copy α) : Copy α := { c with ok := false }

def Sto.spoil (t : Sto) : SectionName → Sto
  | .machines => { t with machines := t.machines.spoiled }
  | .hsu => { t with hsu := t.hsu.spoiled }
  | .interlocks => { t with interlocks := t.interlocks.spoiled }
  | .causes => { t with causes := t.causes.spoiled }
  | .stations => { t with stations := t.stations.spoiled }
  | .audio => { t with audio := t.audio.spoiled }
  | .indicators => { t with indicators := t.indicators.spoiled }
  | .records => { t with records := t.records.spoiled }

/-- The store after a reset: a section whose write was cut short fails its check, the pending ones keep their copies (R179,
R183). -/
def Sto.afterReset (t : Sto) : Sto :=
  let u := match t.writing with
    | some w => t.spoil w.data.name
    | none => t
  { u with queue := [], writing := none }

/-- Whether a section's copy passes its check. -/
def Sto.passes (t : Sto) : SectionName → Bool
  | .machines => t.machines.ok
  | .hsu => t.hsu.ok
  | .interlocks => t.interlocks.ok
  | .causes => t.causes.ok
  | .stations => t.stations.ok
  | .audio => t.audio.ok
  | .indicators => t.indicators.ok
  | .records => t.records.ok

/-- The sections that fail their check, in section order (R182). -/
def Sto.failed (t : Sto) : List SectionName := sections.filter fun x => !t.passes x

/-- A configuration section that fails loads the factory values (R182). -/
def Copy.loaded {α : Type} (c : Copy α) (factory : α) : α := if c.ok then c.content else factory

def Sto.settings (t : Sto) : Settings where
  machines := t.machines.loaded factoryMachines
  hsu := t.hsu.loaded factoryHsu
  interlocks := t.interlocks.loaded factoryInterlocks
  causes := t.causes.loaded factoryCauses
  stations := t.stations.loaded factoryStations
  audio := t.audio.loaded factoryAudio
  indicators := t.indicators.loaded factoryIndicators

/-! ## Restoring the records -/

/-- The rode count and RODE_UNKNOWN at start-up (R69). -/
def restoredRode (c : Copy Records) (rodeMax : Nat) (home : Bool) : Nat × Bool :=
  if home then (0, false)
  else if c.ok then (min c.content.rode.count rodeMax, !(c.content.rode.known && c.content.rode.settled))
  else (0, true)

/-- The sensor front end while the part initializes (R69, R73). A closed HOME leaves a RECORDS write to the end of
initialization. -/
def restoredSfe (c : Copy Records) (rodeMax : Nat) (home : Bool) : Sfe :=
  let r := restoredRode c rodeMax home
  { rode := r.1, rodeUnknown := r.2, rodeWriteDue := home, creepRef := none, stall := none, overload := none,
    platform := .fresh, hatch := .fresh, pinTimer := none }

/-- The causes and the trip record that RECORDS restores (R116). -/
def restoredFis (c : Copy Records) : Fis :=
  if c.ok then
    { Fis.fresh with
      causes := c.content.latched.map fun x => { active := x, present := false, raisedAt := if x then some 0 else none }
      trip := c.content.trip.map fun t => { t with restored := true } }
  else Fis.fresh

/-! ## A reset -/

/-- What outlasts a reset at the station inputs: the contact levels. -/
def HoldRec.atReset (x : HoldRec) : HoldRec := { HoldRec.idle with a := x.a, b := x.b }
def ContactRec.atReset (x : ContactRec) : ContactRec := { ContactRec.idle with closed := x.closed }

def Siq.atReset (q : Siq) : Siq where
  inputs :=
    { w := ⟨q.inputs.w.outward.atReset, q.inputs.w.inward.atReset⟩
      p := ⟨q.inputs.p.outward.atReset, q.inputs.p.inward.atReset⟩
      h := ⟨q.inputs.h.outward.atReset, q.inputs.h.inward.atReset⟩ }
  display := { w := q.display.w.atReset, p := q.display.p.atReset, h := q.display.h.atReset }
  reset := { w := q.reset.w.atReset, p := q.reset.p.atReset, h := q.reset.h.atReset }
  keys := q.keys.map ContactRec.atReset
  longPress := { w := none, p := none, h := none }

/-- The part after a reset of the kind `c`: the store is read back and everything else set up for initialization (R182,
R183). Levels at the pins and the commands that wait belong to the world outside and stay. -/
def boot (c : ResetCause) (phase : Phase) (straps : Straps) (s : State) : State :=
  let t := s.sto.afterReset
  let x := t.settings
  { phase := phase
    resetCause := c
    now := 0
    pins := { s.pins with straps := straps }
    settings := x
    slp := Slp.fresh straps
    mc := { w := .fresh, p := .fresh, h := .fresh }
    sfe := restoredSfe t.records x.machines.windlass.rodeMax s.pins.home
    hsc := Hsc.fresh
    siq := s.siq.atReset
    fis := restoredFis t.records
    zae := Zae.fresh (ownersOf x.audio.sources)
    ind := Ind.fresh
    seu := Seu.fresh
    sto := t
    pending := s.pending }

/-- The supply is applied (R182). -/
def powerReset (straps : Straps) (s : State) : State := boot .power .initializing straps s

/-- RST# goes low: the part is held in reset (R178). -/
def pinReset (s : State) : State := boot .pin .heldInReset s.pins.straps s

/-- The levels that the next strap sample reads when no command carries them: a free value (R172, log entry 10). -/
def State.strapsNow (s : State) : Straps := Config.strapLevels s.pins.strapReads

/-- One more such sample has been taken. -/
def State.countStrapRead (s : State) : State := s.onPins fun p => { p with strapReads := p.strapReads + 1 }

/-- RST# goes high: initialization begins with the straps as sampled (R172, R178). -/
def rstGoesHigh (straps : Straps) (s : State) : State :=
  match s.phase with
  | .heldInReset => boot .pin .initializing straps s
  | .initializing | .running => s

/-! ## The end of initialization -/

/-- A store cause made active as restored causes are (R182). -/
def storeCause (c : Nat) (s : State) : State := setCause c { s.cause c with active := true, raisedAt := some 0 } s

/-- The store causes (R182). -/
def storeCauses (s : State) : State :=
  let failed := s.sto.failed
  let s := if failed.any fun x => x != .records then storeCause causeStoreConfig s else s
  if failed.contains .records then storeCause causeStoreRecords s else s

/-- The first position of a machine, from the sample taken during initialization (R24, R73). -/
def firstSample (m : MachineId) (s : State) : State :=
  match m with
  | .w => takeRode s
  | .p => takeCounts .p s.pins.platformA s.pins.platformB s
  | .h => takeCounts .h s.pins.hatchA s.pins.hatchB s

/-- The state a channel is set up in (R2). -/
def State.firstState (s : State) (m : MachineId) : ChanState :=
  if (s.params m).enabled then (if s.affected m then .held else .idle) else .disabled

/-- A channel is set up (R2, R66). -/
def setUpChannel (s : State) (m : MachineId) : State :=
  let st := s.firstState m
  followState m st (setChan m ((s.chan m).inState st) s)

/-- A hold-to-run input is set up from its pattern (R96). -/
def HoldRec.setUp (x : HoldRec) : HoldRec :=
  { x with state := if patternOf x.a x.b = .released then .released else .inhibited, timer := none }

/-- A contact is set up from its level (R98). -/
def ContactRec.setUp (x : ContactRec) : ContactRec := { x with pressed := x.closed, armed := !x.closed, debounce := none }

def Siq.setUp (q : Siq) : Siq where
  inputs :=
    { w := ⟨q.inputs.w.outward.setUp, q.inputs.w.inward.setUp⟩
      p := ⟨q.inputs.p.outward.setUp, q.inputs.p.inward.setUp⟩
      h := ⟨q.inputs.h.outward.setUp, q.inputs.h.inward.setUp⟩ }
  display := { w := q.display.w.setUp, p := q.display.p.setUp, h := q.display.h.setUp }
  reset := { w := q.reset.w.setUp, p := q.reset.p.setUp, h := q.reset.h.setUp }
  keys := q.keys.map ContactRec.setUp
  longPress := q.longPress

/-- A source is set up (R123, R125). -/
def setUpSource (s : State) (n : Nat) : State :=
  if (s.sourceConfig n).enabled then
    setSource n { s.source n with state := .detecting, frameTimer := some frameTime } s
  else s

/-- The timers that start at the end of initialization: link-quiet, overload, lamp flash clock (R65, R162, R176). -/
def startTimers (s : State) : State :=
  ((s.onSlp fun l => { l with quiet := timerUnlessZero s.settings.machines.linkQuiet }).onSfe fun f =>
    { f with overload := if s.pins.wOvld then some overloadTime else none }).onInd fun i =>
      { i with flashOn := true, flashTimer := some lampFlashHalf }

/-- The RECORDS write of a failed RECORDS section and of a HOME found closed (R69, R182). -/
def firstWrite (s : State) : State :=
  if s.sto.failed.contains .records ∨ s.sfe.rodeWriteDue = true then
    (s.onSto fun t => { t with queue := enqueueWrite .records false t.queue }).onSfe fun f => { f with rodeWriteDue := false }
  else s

/-- The item at a place of the status and event unit. -/
def itemAt (k : Nat) : ItemRef := ⟨groups.getD (k / 16) .sys, k % 16⟩

/-- Every item takes the value of its owner's rule; no watch is armed and nothing follows (R164). -/
def setItems (s : State) : State :=
  s.onSeu fun u => { u with items := Vector.ofFn fun k : Fin 144 => (itemAt k.val).exists && s.itemNow (itemAt k.val) }

/-- Everything that is set up before the first cause is raised. UNSECURED reads another item, so the items are set twice. -/
def setUp (s : State) : State :=
  let s := { s with phase := .running, now := 0 }
  let s := storeCauses (queueEvent (.resetDone s.resetCause s.sto.failed) s)
  let s := s.onHsc fun _ => { Hsc.fresh with isolate := s.pins.estop || s.fis.trip.isSome }
  let s := machines.foldl setUpChannel (machines.foldl (fun s m => firstSample m s) s)
  let s := (List.range 3).foldl setUpSource (s.onSiq Siq.setUp)
  setItems (setItems (firstWrite (startTimers s)))

/-- The displays of the channels set up HELD are activated (R155). -/
def activateHeld (s : State) : State :=
  machines.foldl (fun s m => if (s.chan m).state = .held then activate m s else s) s

/-- The end of initialization (R182). DESIGN CHOICE: the SELF causes restored are tried before the two inputs are reported, and with
both inputs active ESTOP is reported before OIL_HOT (R41, R115 and R116 give no order, log entry 38). -/
def endOfInitialization (go : Go) (s : State) : State :=
  match s.phase with
  | .initializing =>
    let s := causeIndexes.foldl (fun s c => trySelfClear go c s) (activateHeld (setUp s))
    let s := if s.pins.estop then report go causeEstop true s else s
    if s.pins.oilHot then report go causeOilHot true s else s
  | .heldInReset | .running => s

/-! ## Store writes -/

/-- The store with the contents of a completed write, verified or not (R180). -/
def Sto.store (t : Sto) (d : SectionData) (ok : Bool) : Sto :=
  match d with
  | .machines x => { t with machines := if ok then ⟨x, true⟩ else t.machines.spoiled }
  | .hsu x => { t with hsu := if ok then ⟨x, true⟩ else t.hsu.spoiled }
  | .interlocks x => { t with interlocks := if ok then ⟨x, true⟩ else t.interlocks.spoiled }
  | .causes x => { t with causes := if ok then ⟨x, true⟩ else t.causes.spoiled }
  | .stations x => { t with stations := if ok then ⟨x, true⟩ else t.stations.spoiled }
  | .audio x => { t with audio := if ok then ⟨x, true⟩ else t.audio.spoiled }
  | .indicators x => { t with indicators := if ok then ⟨x, true⟩ else t.indicators.spoiled }
  | .records x => { t with records := if ok then ⟨x, true⟩ else t.records.spoiled }

/-- A write completes and is verified or not: STORE_DONE as required, the next write, STORE_BUSY (R179, R180). -/
def storeWriteCompletion (go : Go) (verified : Bool) (s : State) : State :=
  match s.sto.writing with
  | none => s
  | some w =>
    let s := s.onSto fun t => { (t.store w.data verified) with writing := none }
    let s := if w.mark || !verified then queueEvent (.storeDone w.data.name verified) s else s
    publish go (beginWrite s) Item.storeBusy

end Sys2Proof.Machine
end

