-- ==== Sys2Proof/Machine/Link.lean ====
section
/-! DEFINITION. The serial link port: reception of frames, link supervision, serving and holding of requests, replies (R172 to R177,
R184). -/

namespace Sys2Proof.Machine

/-! ## Serving a request -/

/-- The owner's answer to a request; a command that is no request has none. -/
def serveRequest (go : Go) (i : Instr) (s : State) : Served :=
  match i with
  | .identify => serveIdentify s
  | .reset => serveReset s
  | .readStatus g => serveReadStatus g s
  | .setWatch x g items c e => serveSetWatch x g items c e s
  | .fetchEvents n => serveFetchEvents n s
  | .saveSettings x => serveSaveSettings go x s
  | .configureMachine m f => serveConfigureMachine go m f s
  | .configureMachineGlobal r q => serveConfigureGlobal r q s
  | .readMachine m => serveReadMachine m s
  | .run m d t => serveRun go m d t s
  | .refresh m x => serveRefresh m x s
  | .stop m => serveStop go m s
  | .setRode n => serveSetRode go n s
  | .calibrate m e => serveCalibrate go m e s
  | .configureHsu f p n r => serveConfigureHsu f p n r s
  | .readHsu => serveReadHsu s
  | .writeInterlock x e => serveWriteInterlock go x e s
  | .readInterlock x => serveReadInterlock x s
  | .configureCause c k t => serveConfigureCause c k t s
  | .readFaults => serveReadFaults s
  | .clearFault c => serveClearFault go c s
  | .serviceClear c => serveServiceClear go c s
  | .configureStation f => serveConfigureStation f s
  | .readStations => serveReadStations s
  | .configureSource n f => serveConfigureSource go n f s
  | .configureZone z f => serveConfigureZone go z f s
  | .setVolume z v => serveSetVolume z v s
  | .setQuiet z q => serveSetQuiet go z q s
  | .allocateClip k st ct => serveAllocateClip k st ct s
  | .clipData k o xs => serveClipData k o xs s
  | .clipEnd k n => serveClipEnd k n s
  | .freeClip k => serveFreeClip k s
  | .configureAnnounce m f => serveConfigureAnnounce go m f s
  | .page k z d => servePage go k z d s
  | .cancelPage => serveCancelPage go s
  | .readAudio p => serveReadAudio p s
  | .clearAudioFlags x => serveClearAudioFlags go x s
  | .configureDisplay d f => serveConfigureDisplay d f s
  | .displayRequest d a => serveDisplayRequest d a s
  | .configureLamp l b x m => serveConfigureLamp l b x m s
  | _ => refuse .refusedCode s

/-- The request code of a ticket (chapter 13). -/
def ticketCode : Ticket → Byte
  | .ask i => ((encodeRequest i).map Prod.fst).getD 0
  | .wrongLength c => c
  | .undefinedSelector c => c

/-- A ticket is served: refused by the link port itself, or handed to the request's owner (R175). -/
def serve (go : Go) (t : Ticket) (s : State) : Served :=
  match t with
  | .ask i => serveRequest go i s
  | .wrongLength _ => refuse .refusedLength s
  | .undefinedSelector _ => refuse .refusedValue s

/-- RESET is the request whose reply is followed by a reset (R178). -/
def ticketResets : Ticket → Bool
  | .ask .reset => true
  | _ => false

/-- A request is taken: its owner's handling, and the reply assembled from the state after it (R174, R184). -/
def take (go : Go) (t : Ticket) (s : State) : State :=
  let r := serve go t s
  r.1.onSlp fun l => { l with inService := some { code := ticketCode t + 0x80, payload := r.2, resets := ticketResets t } }

/-- A valid frame is offered for serving: taken, held, or discarded (R174). -/
def offer (go : Go) (t : Ticket) (s : State) : State :=
  match s.slp.inService, s.slp.held with
  | none, _ => take go t s
  | some _, none => s.onSlp fun l => { l with held := some t }
  | some _, some _ => s

/-! ## Link supervision -/

/-- The link-quiet supervision is told of a valid frame, and the receiver enters HUNT (R173, R177). -/
def noteValidFrame (go : Go) (s : State) : State :=
  let s := s.onSlp fun l =>
    { l with rx := Receiver.hunting, linkOk := true, quiet := timerUnlessZero s.settings.machines.linkQuiet }
  let s := publish go s Item.linkOk
  if (s.cause causeLinkLost).present then report go causeLinkLost false s else s

/-- A valid frame: the supervision is told, then the request is offered (R173). -/
def validFrame (go : Go) (t : Ticket) (s : State) : State := offer go t (noteValidFrame go s)

/-- A request of the host as a whole valid frame. Outside service received bytes are ignored (R172). -/
def requestArrives (i : Instr) (s : State) : State :=
  match s.phase with
  | .running => validFrame send (.ask i) s
  | .heldInReset | .initializing => s

/-- The link-quiet timer expires (R177). -/
def linkQuietTimerExpiry (go : Go) (s : State) : State :=
  match s.slp.quiet with
  | none => s
  | some _ =>
    report go causeLinkLost true
      (publish go (s.onSlp fun l => { l with quiet := none, linkOk := false }) Item.linkOk)

/-! ## Receiver -/

def setReceiver (r : Receiver) (s : State) : State := s.onSlp fun l => { l with rx := r }

/-- A completed frame: valid when its CRC agrees, else discarded (R173). -/
def frameCompleted (go : Go) (r : Receiver) (high low : Byte) (s : State) : State :=
  if crcOf (frameBody r.len r.code r.payload) = high ++ low then validFrame go (parseFrame r.code r.payload) s
  else setReceiver Receiver.hunting s

/-- The receiver after one more byte of a frame, with the gap timer restarted. -/
def Receiver.next (r : Receiver) (st : RxState) : Receiver := { r with state := st, gap := some gapTime }

/-- A byte received with its stop bit (R172). -/
def receivedByte (go : Go) (b : Byte) (s : State) : State :=
  let r := s.slp.rx
  match s.phase with
  | .heldInReset | .initializing => s
  | .running =>
    match r.state with
    | .hunt => if b = sync0 then setReceiver (Receiver.hunting.next .syncSeen) s else s
    | .syncSeen =>
      if b = sync1 then setReceiver (r.next .length) s
      else if b = sync0 then setReceiver (r.next .syncSeen) s
      else setReceiver Receiver.hunting s
    | .length =>
      if b.toNat ≤ maxPayload then setReceiver ({ r with len := b.toNat }.next .code) s
      else setReceiver Receiver.hunting s
    | .code => setReceiver ({ r with code := b }.next (if r.len = 0 then .check else .payload)) s
    | .payload =>
      let taken := r.payload ++ [b]
      setReceiver ({ r with payload := taken }.next (if r.len ≤ taken.length then .check else .payload)) s
    | .check =>
      match r.crcHigh with
      | none => setReceiver ({ r with crcHigh := some b }.next .check) s
      | some high => frameCompleted go r high b s

/-- No byte has come for 25 ms inside a frame, or a byte without its stop bit has: a frame is discarded (R172). -/
def discardFrame (s : State) : State :=
  match s.slp.rx.state with
  | .hunt => s
  | .syncSeen | .length | .code | .payload | .check => setReceiver Receiver.hunting s

/-- A completed frame whose CRC disagrees: the receiver enters HUNT and nothing else happens (R173). -/
def crcMismatchFrame (s : State) : State := setReceiver Receiver.hunting s

/-! ## Replies -/

/-- The last byte of a reply is sent: a reset after the RESET reply, which samples the straps as they stand at that moment, else
the held request is taken (R172, R174, R178, R182). -/
def replySent (go : Go) (s : State) : State :=
  match s.slp.inService with
  | none => s
  | some r =>
    if r.resets then boot .request .initializing s.strapsNow s.countStrapRead
    else
      match s.slp.held with
      | none => s.onSlp fun l => { l with inService := none }
      | some t => take go t (s.onSlp fun l => { l with inService := none, held := none })

/-- The bytes of the reply in progress as TXD sends them (R184). -/
def Reply.frame (r : Reply) : List Byte := frameBytes r.code r.payload

end Sys2Proof.Machine
end

