-- ==== Sys2Proof/Machine/ResetCommands.lean ====
section
/-! DEFINITION. The meanings of the commands of the resets and the end of initialization: one definition for each row of
the table, over the operations of the blocks. -/

namespace Sys2Proof.Machine

/-- POWER_RESET (R182). Supply applied: the N460 resets with cause POWER and begins initialization. -/
def execPowerReset (straps : Straps) (s : State) : Host.Outcome State Fault Refusal :=
  finish (powerReset straps s)

/-- PIN_RESET (R178). RST# goes low: the N460 resets with cause PIN and is held in reset until RST# goes high,
restarting initialization if it was in progress. -/
def execPinReset (s : State) : Host.Outcome State Fault Refusal :=
  finish (pinReset s)

/-- RST_GOES_HIGH (R178). RST# going high ends the hold in reset, and the N460 begins initialization by sampling the
straps. -/
def execRstGoesHigh (straps : Straps) (s : State) : Host.Outcome State Fault Refusal :=
  finish (rstGoesHigh straps s)

/-- END_OF_INITIALIZATION (R182). Initialization completes: the timestamp starts, RESET_DONE is queued, the store causes
are made active and every block's working state is set up in order. -/
def execEndOfInitialization (s : State) : Host.Outcome State Fault Refusal :=
  finish (endOfInitialization send s)

end Sys2Proof.Machine
end

