-- ==== Sys2Proof/Machine/LinkCommands.lean ====
section
/-! DEFINITION. The meanings of the commands of the events of the serial link below the requests: one definition for
each row of the table, over the operations of the blocks. -/

namespace Sys2Proof.Machine

/-- RECEIVED_BYTE (R172). A byte received with its stop bit moves the receiver through HUNT, SYNC_SEEN, LENGTH, CODE,
PAYLOAD and CHECK, restarting the gap timer, or discards a frame whose LEN is above 200. -/
def execReceivedByte (b : Byte) (s : State) : Host.Outcome State Fault Refusal :=
  finish (receivedByte send b s)

/-- GAP_TIMER_EXPIRY (R172). No byte has come for 25 ms inside a frame: the frame is discarded and the receiver returns
to HUNT. -/
def execGapTimerExpiry (s : State) : Host.Outcome State Fault Refusal :=
  finish (discardFrame s)

/-- FRAMING_ERROR (R172). A byte without its stop bit is ignored in HUNT and discards the frame in any other receiver
state. -/
def execFramingError (s : State) : Host.Outcome State Fault Refusal :=
  finish (discardFrame s)

/-- CRC_MISMATCH_FRAME (R173). A completed frame whose CRC disagrees is discarded with no reply and no other effect. -/
def execCrcMismatchFrame (s : State) : Host.Outcome State Fault Refusal :=
  finish (crcMismatchFrame s)

/-- UNDEFINED_REQUEST_CODE (R184). A valid frame whose CODE names no request is answered REFUSED_CODE. -/
def execUndefinedRequestCode (code : Byte) (s : State) : Host.Outcome State Fault Refusal :=
  finish (requestArrives (.undefinedRequestCode code) s)

/-- REPLY_SENT (R174). The last byte of a reply is sent: the request in service ends and any held request is taken. After
the reply to RESET the part resets, and the straps are sampled as they stand (R172, R182). -/
def execReplySent (s : State) : Host.Outcome State Fault Refusal :=
  finish (replySent send s)

/-- LINK_QUIET_TIMER_EXPIRY (R177). No valid frame has come for LinkQuiet: LINK_OK becomes false and LINK_LOST is
raised, which ends any page. -/
def execLinkQuietTimerExpiry (s : State) : Host.Outcome State Fault Refusal :=
  finish (linkQuietTimerExpiry send s)

end Sys2Proof.Machine
end

