-- ==== Sys2Proof/Machine/RequestCommands.lean ====
section
/-! DEFINITION. The meanings of the commands of the requests of the host, each as one valid frame with its fields; the
owner of each is named by `serveRequest`: one definition for each row of the table, over the operations of the blocks.
-/

namespace Sys2Proof.Machine

/-- IDENTIFY (R178). Returns the vendor code, part code, revision, strap rate and reset cause. -/
def execIdentify (s : State) : Host.Outcome State Fault Refusal :=
  finish (requestArrives .identify s)

/-- RESET (R178). Replies OK and resets the part once that reply has been sent. -/
def execReset (s : State) : Host.Outcome State Fault Refusal :=
  finish (requestArrives .reset s)

/-- READ_STATUS (R165). Returns every item of one status group with the current timestamp. -/
def execReadStatus (group : Byte) (s : State) : Host.Outcome State Fault Refusal :=
  finish (requestArrives (.readStatus group) s)

/-- SET_WATCH (R167). Arms, rearms or disarms a watch and computes its last value. -/
def execSetWatch (index : Byte) (group : Byte) (items : Half) (combine : Byte) (edge : Byte) (s : State) : Host.Outcome State Fault Refusal :=
  finish (requestArrives (.setWatch index group items combine edge) s)

/-- FETCH_EVENTS (R170). Removes up to n records from the head of the event queue and returns them. -/
def execFetchEvents (count : Byte) (s : State) : Host.Outcome State Fault Refusal :=
  finish (requestArrives (.fetchEvents count) s)

/-- SAVE_SETTINGS (R181). Requests writes of the named store sections, each with the host mark. -/
def execSaveSettings (sections : Byte) (s : State) : Host.Outcome State Fault Refusal :=
  finish (requestArrives (.saveSettings sections) s)

/-- CONFIGURE_MACHINE (R21). Writes the Enabled flag and all parameters of machine W, P or H, as a whole and with
clamping. -/
def execConfigureMachine (machine : Byte) (fields : MachineFields) (s : State) : Host.Outcome State Fault Refusal :=
  finish (requestArrives (.configureMachine machine fields) s)

/-- CONFIGURE_MACHINE_GLOBAL (R22). Writes RefreshTime and LinkQuiet and restarts the link-quiet timer. -/
def execConfigureMachineGlobal (refreshTime : Half) (linkQuiet : Half) (s : State) : Host.Outcome State Fault Refusal :=
  finish (requestArrives (.configureMachineGlobal refreshTime linkQuiet) s)

/-- READ_MACHINE (R23). Returns a channel's state, position, demand values, run records and parameters. -/
def execReadMachine (machine : Byte) (s : State) : Host.Outcome State Fault Refusal :=
  finish (requestArrives (.readMachine machine) s)

/-- RUN (R8). Checks a LINK run and creates it with a refresh timer and a grant request, or refuses it. -/
def execRun (machine : Byte) (dir : Byte) (target : Option Half) (s : State) : Host.Outcome State Fault Refusal :=
  finish (requestArrives (.run machine dir target) s)

/-- REFRESH (R11). Restarts the refresh timer of the named live LINK run, or is refused. -/
def execRefresh (machine : Byte) (runId : Half) (s : State) : Host.Outcome State Fault Refusal :=
  finish (requestArrives (.refresh machine runId) s)

/-- STOP (R14). Ends the named machines' runs with LINK_STOP and inhibits their pressed inputs. -/
def execStop (machine : Byte) (s : State) : Host.Outcome State Fault Refusal :=
  finish (requestArrives (.stop machine) s)

/-- SET_RODE (R71). Sets the rode count, clears RODE_UNKNOWN, sets the creep reference and queues a RECORDS write. -/
def execSetRode (count : Half) (s : State) : Host.Outcome State Fault Refusal :=
  finish (requestArrives (.setRode count) s)

/-- CALIBRATE (R78). Captures both sensor counts of P or H as c0 or c1 from the last sample. -/
def execCalibrate (machine : Byte) (endpoint : Half) (s : State) : Host.Outcome State Fault Refusal :=
  finish (requestArrives (.calibrate machine endpoint) s)

/-- CONFIGURE_HSU (R55). Writes Fcap, PrimeTime, PrimeTries and RunOn while no grant is held and no channel waits. -/
def execConfigureHsu (fcap : Half) (primeTime : Half) (primeTries : Byte) (runOn : Half) (s : State) : Host.Outcome State Fault Refusal :=
  finish (requestArrives (.configureHsu fcap primeTime primeTries runOn) s)

/-- READ_HSU (R56). Returns the pump state, grant list, wait queue, flow sharing values and HSU parameters. -/
def execReadHsu (s : State) : Host.Outcome State Fault Refusal :=
  finish (requestArrives .readHsu s)

/-- WRITE_INTERLOCK (R121). Writes or empties a host interlock entry and evaluates it at once. -/
def execWriteInterlock (index : Byte) (entry : Option EntryFields) (s : State) : Host.Outcome State Fault Refusal :=
  finish (requestArrives (.writeInterlock index entry) s)

/-- READ_INTERLOCK (R122). Returns one interlock entry and whether its condition holds now. -/
def execReadInterlock (index : Byte) (s : State) : Host.Outcome State Fault Refusal :=
  finish (requestArrives (.readInterlock index) s)

/-- CONFIGURE_CAUSE (R112). Writes the class and trip enable of an inactive cause. -/
def execConfigureCause (cause : Byte) (cls : Byte) (trip : Byte) (s : State) : Host.Outcome State Fault Refusal :=
  finish (requestArrives (.configureCause cause cls trip) s)

/-- READ_FAULTS (R117). Returns every cause record, the faulted-station set, the trip record and the ESTOP, SERVICE# and
ISOLATE levels. -/
def execReadFaults (s : State) : Host.Outcome State Fault Refusal :=
  finish (requestArrives .readFaults s)

/-- CLEAR_FAULT (R109). Clears a named CREW cause, or all of them, whose condition is absent. -/
def execClearFault (cause : Byte) (s : State) : Host.Outcome State Fault Refusal :=
  finish (requestArrives (.clearFault cause) s)

/-- SERVICE_CLEAR (R111). With SERVICE# asserted, clears LATCHED causes whose condition is absent and removes the trip
record when no tripping cause remains active. -/
def execServiceClear (cause : Byte) (s : State) : Host.Outcome State Fault Refusal :=
  finish (requestArrives (.serviceClear cause) s)

/-- CONFIGURE_STATION (R102). Writes the station timings and the guest key bindings. -/
def execConfigureStation (fields : StationFields) (s : State) : Host.Outcome State Fault Refusal :=
  finish (requestArrives (.configureStation fields) s)

/-- READ_STATIONS (R103). Returns the state of every station input, the faulted-station set, the bindings and the
timings. -/
def execReadStations (s : State) : Host.Outcome State Fault Refusal :=
  finish (requestArrives .readStations s)

/-- CONFIGURE_SOURCE (R134). Writes a source's configuration and blocks, empties its FIFO, and disables it or starts
detection. -/
def execConfigureSource (source : Byte) (fields : SourceFields) (s : State) : Host.Outcome State Fault Refusal :=
  finish (requestArrives (.configureSource source fields) s)

/-- CONFIGURE_ZONE (R135). Writes a zone's source, V, mono fold, safety attribute and announce level A. -/
def execConfigureZone (zone : Byte) (fields : ZoneFields) (s : State) : Host.Outcome State Fault Refusal :=
  finish (requestArrives (.configureZone zone fields) s)

/-- SET_VOLUME (R136). Writes a zone's volume shift V. -/
def execSetVolume (zone : Byte) (volume : Byte) (s : State) : Host.Outcome State Fault Refusal :=
  finish (requestArrives (.setVolume zone volume) s)

/-- SET_QUIET (R137). Sets a zone's QUIET and reconsiders its announce list and any page in it. -/
def execSetQuiet (zone : Byte) (quiet : Byte) (s : State) : Host.Outcome State Fault Refusal :=
  finish (requestArrives (.setQuiet zone quiet) s)

/-- ALLOCATE_CLIP (R141). Gives a clip slot its blocks, zeroes its samples and puts it in LOADING. -/
def execAllocateClip (slot : Byte) (start : Byte) (count : Byte) (s : State) : Host.Outcome State Fault Refusal :=
  finish (requestArrives (.allocateClip slot start count) s)

/-- CLIP_DATA (R142). Writes 1 to 96 samples into a LOADING clip at an offset. -/
def execClipData (slot : Byte) (offset : Half) (samples : List Half) (s : State) : Host.Outcome State Fault Refusal :=
  finish (requestArrives (.clipData slot offset samples) s)

/-- CLIP_END (R142). Records a LOADING clip's length and makes the clip READY. -/
def execClipEnd (slot : Byte) (length : Half) (s : State) : Host.Outcome State Fault Refusal :=
  finish (requestArrives (.clipEnd slot length) s)

/-- FREE_CLIP (R141). Frees a clip slot's blocks and empties the slot unless its clip is in play. -/
def execFreeClip (slot : Byte) (s : State) : Host.Outcome State Fault Refusal :=
  finish (requestArrives (.freeClip slot) s)

/-- CONFIGURE_ANNOUNCE (R143). Writes a machine's announce record and reconsiders every zone announce list. -/
def execConfigureAnnounce (machine : Byte) (fields : AnnounceFields) (s : State) : Host.Outcome State Fault Refusal :=
  finish (requestArrives (.configureAnnounce machine fields) s)

/-- PAGE (R150). Starts a page of a READY clip in the eligible zones of the named set. -/
def execPage (slot : Byte) (zones : Byte) (duck : Byte) (s : State) : Host.Outcome State Fault Refusal :=
  finish (requestArrives (.page slot zones duck) s)

/-- CANCEL_PAGE (R152). Cuts every zone still playing a page and queues PAGE_ENDED. -/
def execCancelPage (s : State) : Host.Outcome State Fault Refusal :=
  finish (requestArrives .cancelPage s)

/-- READ_AUDIO (R139). Returns one part of the audio state: sources, zones, blocks, clips or voices. -/
def execReadAudio (part : Byte) (s : State) : Host.Outcome State Fault Refusal :=
  finish (requestArrives (.readAudio part) s)

/-- CLEAR_AUDIO_FLAGS (R138). Clears the XRUN flags of the named sources. -/
def execClearAudioFlags (sources : Byte) (s : State) : Host.Outcome State Fault Refusal :=
  finish (requestArrives (.clearAudioFlags sources) s)

/-- CONFIGURE_DISPLAY (R160). Writes a display's thresholds and timings, then recomputes its target and overlay. -/
def execConfigureDisplay (display : Byte) (fields : DisplayFields) (s : State) : Host.Outcome State Fault Refusal :=
  finish (requestArrives (.configureDisplay display fields) s)

/-- DISPLAY_REQUEST (R161). Activates the named displays or puts them OFF. -/
def execDisplayRequest (display : Byte) (action : Byte) (s : State) : Host.Outcome State Fault Refusal :=
  finish (requestArrives (.displayRequest display action) s)

/-- CONFIGURE_LAMP (R163). Writes a lamp's binding and mode and drives the lamp from them at once. -/
def execConfigureLamp (lamp : Byte) (binding : Byte) (item : Option LampItemFields) (mode : Byte) (s : State) : Host.Outcome State Fault Refusal :=
  finish (requestArrives (.configureLamp lamp binding item mode) s)

end Sys2Proof.Machine
end

