-- ==== Sys2Proof/Machine/MachineCommands.lean ====
section
/-! DEFINITION. The meanings of the commands of the position samples, the refresh timers, the windlass, the hatch pins
and the plain inputs: one definition for each row of the table, over the operations of the blocks. -/

namespace Sys2Proof.Machine

/-- POSITION_SAMPLE (R24). Every 10 ms per machine: the position is computed, the checks are made, end tests are applied
and the demand and flow request are handed to the HSC. -/
def execPositionSample (sample : Sample) (s : State) : Host.Outcome State Fault Refusal :=
  finish (positionSample send sample s)

/-- REFRESH_TIMER_EXPIRY (R11). A LINK run without an end reason ends REFRESH_MISSED. -/
def execRefreshTimerExpiry (machine : MachineId) (s : State) : Host.Outcome State Fault Refusal :=
  finish (refreshTimerExpiry send machine s)

/-- W_OVLD_CHANGE (R65). The W_OVLD input changes: the overload qualify timer is started, or it is stopped and the
condition reported absent. -/
def execWOvldChange (active : Bool) (s : State) : Host.Outcome State Fault Refusal :=
  finish (wOvldChange send active s)

/-- OVERLOAD_QUALIFY_TIMER_EXPIRY (R65). W_OVLD has been active for 200 ms: the W_OVERLOAD condition is reported
present. -/
def execOverloadQualifyTimerExpiry (s : State) : Host.Outcome State Fault Refusal :=
  finish (overloadQualifyTimerExpiry send s)

/-- STALL_TIMER_EXPIRY (R64). No pocket has come in StallTime at stall demand: W_STALL is reported and raised. -/
def execStallTimerExpiry (s : State) : Host.Outcome State Fault Refusal :=
  finish (stallTimerExpiry send s)

/-- GYP_A_RISING_EDGE (R58). A gypsy pocket is counted in or out by the GYP_B level, restarting the stall timer. -/
def execGypARisingEdge (gypB : Bool) (s : State) : Host.Outcome State Fault Refusal :=
  finish (gypARisingEdge send gypB s)

/-- HOME_CHANGE (R59). HOME closing forces the rode count to 0 and makes the rode known; opening clears AT_HOME. -/
def execHomeChange (closed : Bool) (s : State) : Host.Outcome State Fault Refusal :=
  finish (homeChange send closed s)

/-- PINS_UL_CHANGE (R83). PINS_UL active ends UNLOCKING into MOVING; PINS_UL inactive in MOVING raises H_PINS. -/
def execPinsUlChange (active : Bool) (s : State) : Host.Outcome State Fault Refusal :=
  finish (pinsUlChange send active s)

/-- PINS_LK_CHANGE (R84). PINS_LK active in LOCKING ends the sequence, releases the grant and enters IDLE. -/
def execPinsLkChange (active : Bool) (s : State) : Host.Outcome State Fault Refusal :=
  finish (pinsLkChange send active s)

/-- PIN_TIMER_EXPIRY (R86). A pin sequence has not finished within LockTime: H_PINS is raised. -/
def execPinTimerExpiry (s : State) : Host.Outcome State Fault Refusal :=
  finish (pinTimerExpiry send s)

/-- LADDER_MAT_CRADLE_CHANGE (R80). A ladder, mat or cradle input change updates its item and re-evaluates the
interlocks that name it. -/
def execLadderMatCradleChange (input : PlainInput) (active : Bool) (s : State) : Host.Outcome State Fault Refusal :=
  finish (plainInputChange send input active s)

end Sys2Proof.Machine
end

