-- ==== Sys2Proof/Machine/StationCommands.lean ====
section
/-! DEFINITION. The meanings of the commands of the station inputs: one definition for each row of the table, over the
operations of the blocks. -/

namespace Sys2Proof.Machine

/-- HOLD_TO_RUN_LEVEL_CHANGE (R90). A channel of a hold-to-run input changes level; the pattern is reclassified and the
input's state and timers change. -/
def execHoldToRunLevelChange (input : HoldInput) (a : Bool) (b : Bool) (s : State) : Host.Outcome State Fault Refusal :=
  finish (holdToRunLevelChange send input a b s)

/-- QUALIFY_TIMER_EXPIRY (R91). The pressed pattern has held for QualifyTime: the input becomes VALID and is reported to
the MC. -/
def execQualifyTimerExpiry (input : HoldInput) (s : State) : Host.Outcome State Fault Refusal :=
  finish (qualifyTimerExpiry send input s)

/-- DISAGREE_TIMER_EXPIRY (R93). The channels have disagreed for DisagreeTime: the input enters FAULTED and joins the
faulted-station set. -/
def execDisagreeTimerExpiry (input : HoldInput) (s : State) : Host.Outcome State Fault Refusal :=
  finish (disagreeTimerExpiry send input s)

/-- RELEASE_TIMER_EXPIRY (R92). The released pattern has held for ReleaseTime: the input enters RELEASED, ending its
press or leaving FAULTED or INHIBITED. -/
def execReleaseTimerExpiry (input : HoldInput) (s : State) : Host.Outcome State Fault Refusal :=
  finish (releaseTimerExpiry send input s)

/-- BUTTON_LEVEL_CHANGE (R98). A button or guest key contact changes level; the debounce timer is started or stopped. -/
def execButtonLevelChange (contact : ContactId) (closed : Bool) (s : State) : Host.Outcome State Fault Refusal :=
  finish (buttonLevelChange contact closed s)

/-- DEBOUNCE_TIMER_EXPIRY (R98). The debounced state of a button or guest key takes the contact level, and an armed
press has its effect. -/
def execDebounceTimerExpiry (contact : ContactId) (s : State) : Host.Outcome State Fault Refusal :=
  finish (debounceTimerExpiry send contact s)

/-- LONG_PRESS_TIMER_EXPIRY (R100). Clears the active CREW causes of the button's machine whose condition is absent,
with means STATION. -/
def execLongPressTimerExpiry (machine : MachineId) (s : State) : Host.Outcome State Fault Refusal :=
  finish (longPressTimerExpiry send machine s)

end Sys2Proof.Machine
end

