-- ==== Sys2Proof/Machine/SupplyCommands.lean ====
section
/-! DEFINITION. The meanings of the commands of the power pack and the protection inputs: one definition for each row of
the table, over the operations of the blocks. -/

namespace Sys2Proof.Machine

/-- PRESSURE_OK_CHANGE (R42). The PRESSURE_OK input changes: it may confirm a start attempt, or start or stop the
pressure-loss timer. -/
def execPressureOkChange (active : Bool) (s : State) : Host.Outcome State Fault Refusal :=
  finish (pressureOkChange send active s)

/-- PRIME_TIMER_EXPIRY (R43). A start attempt is not confirmed: the pump enters RETRY_GAP, or the start fails after the
last attempt. -/
def execPrimeTimerExpiry (s : State) : Host.Outcome State Fault Refusal :=
  finish (primeTimerExpiry send s)

/-- GAP_TIMER_EXPIRY_PUMP (R43). The retry gap ends: the next start attempt begins with PUMP_RUN on. -/
def execGapTimerExpiryPump (s : State) : Host.Outcome State Fault Refusal :=
  finish (pumpGapExpiry send s)

/-- RUN_ON_TIMER_EXPIRY (R46). The run-on time ends: PUMP_RUN is turned off and the pump enters OFF. -/
def execRunOnTimerExpiry (s : State) : Host.Outcome State Fault Refusal :=
  finish (runOnTimerExpiry send s)

/-- PRESSURE_LOSS_TIMER_EXPIRY (R47). Pressure has been absent for 200 ms: the pump goes OFF and HSU_PRESSURE_LOST is
raised. -/
def execPressureLossTimerExpiry (s : State) : Host.Outcome State Fault Refusal :=
  finish (pressureLossTimerExpiry send s)

/-- OIL_HOT_CHANGE (R48). The OIL_HOT input changes: the HSU_OIL_HOT condition is reported present or absent. -/
def execOilHotChange (active : Bool) (s : State) : Host.Outcome State Fault Refusal :=
  finish (oilHotChange send active s)

/-- ESTOP_CHANGE (R115). The ESTOP input changes: cause 0 is raised or its condition goes absent, and ISOLATE is
reconsidered. -/
def execEstopChange (active : Bool) (s : State) : Host.Outcome State Fault Refusal :=
  finish (estopChange send active s)

/-- SERVICE_INPUT_CHANGE (R111). The SERVICE# keyswitch changes and SERVICE_IN follows it. -/
def execServiceInputChange (asserted : Bool) (s : State) : Host.Outcome State Fault Refusal :=
  finish (serviceInputChange send asserted s)

end Sys2Proof.Machine
end

