-- ==== Sys2Proof/Machine/AudioCommands.lean ====
section
/-! DEFINITION. The meanings of the commands of the audio frames: one definition for each row of the table, over the
operations of the blocks. -/

namespace Sys2Proof.Machine

/-- SOURCE_FRAME_ARRIVAL (R124). At a frame edge an input frame arrives, is converted and is kept or skipped into the
FIFO. -/
def execSourceFrameArrival (source : Fin 3) (left : BitVec 32) (right : BitVec 32) (arefEdges : Nat) (s : State) : Host.Outcome State Fault Refusal :=
  finish (sourceFrameArrival send source.val left right arefEdges s)

/-- FRAME_TIMER_EXPIRY (R125). No frame edge for 2 ms: the measurement is discarded and class NONE is adopted. -/
def execFrameTimerExpiry (source : Fin 3) (s : State) : Host.Outcome State Fault Refusal :=
  finish (frameTimerExpiry send source.val s)

/-- OUTPUT_FRAME (R130). Every 64th AREF edge: the sources are popped, the voices hand clip samples and ducks, and each
zone output is mixed. -/
def execOutputFrame (s : State) : Host.Outcome State Fault Refusal :=
  finish (outputFrame send s)

end Sys2Proof.Machine
end

