-- ==== Sys2Proof/Machine/IndicatorCommands.lean ====
section
/-! DEFINITION. The meanings of the commands of the displays, the lamp flash clock and the store: one definition for
each row of the table, over the operations of the blocks. -/

namespace Sys2Proof.Machine

/-- RAMP_TIMER_EXPIRY (R157). One more segment is lit, and the display enters SHOWING when the lit count reaches the
target. -/
def execRampTimerExpiry (display : MachineId) (s : State) : Host.Outcome State Fault Refusal :=
  finish (rampExpiry display s)

/-- HOLD_TIMER_EXPIRY (R158). The display enters OFF with every segment unlit. -/
def execHoldTimerExpiry (display : MachineId) (s : State) : Host.Outcome State Fault Refusal :=
  finish (holdExpiry display s)

/-- OVERLAY_HALF_EXPIRY (R159). A blink or flash half ends and the affected segments switch on or off. -/
def execOverlayHalfExpiry (display : MachineId) (s : State) : Host.Outcome State Fault Refusal :=
  finish (overlayExpiry display s)

/-- LAMP_FLASH_HALF_EXPIRY (R162). The common lamp flash clock changes half and the called FLASH lamps follow it. -/
def execLampFlashHalfExpiry (s : State) : Host.Outcome State Fault Refusal :=
  finish (flashClockExpiry s)

/-- STORE_WRITE_COMPLETION (R180). A section write completes and is verified, STORE_DONE is queued as required and the
next write begins. -/
def execStoreWriteCompletion (verified : Bool) (s : State) : Host.Outcome State Fault Refusal :=
  finish (storeWriteCompletion send verified s)

end Sys2Proof.Machine
end

