-- ==== Sys2Proof/Machine/Dispatch.lean ====
section
/-! DEFINITION. One arm for each command of the table, each the direct call of its meaning. -/

namespace Sys2Proof.Machine

/-- What a command does to everything but the queue of waiting commands. -/
def exec (i : Instr) (s : State) : Host.Outcome State Fault Refusal :=
  match i with
  | .powerReset straps => Sys2Proof.Machine.execPowerReset straps s
  | .pinReset => Sys2Proof.Machine.execPinReset s
  | .rstGoesHigh straps => Sys2Proof.Machine.execRstGoesHigh straps s
  | .endOfInitialization => Sys2Proof.Machine.execEndOfInitialization s
  | .receivedByte b => Sys2Proof.Machine.execReceivedByte b s
  | .gapTimerExpiry => Sys2Proof.Machine.execGapTimerExpiry s
  | .framingError => Sys2Proof.Machine.execFramingError s
  | .crcMismatchFrame => Sys2Proof.Machine.execCrcMismatchFrame s
  | .undefinedRequestCode code => Sys2Proof.Machine.execUndefinedRequestCode code s
  | .replySent => Sys2Proof.Machine.execReplySent s
  | .linkQuietTimerExpiry => Sys2Proof.Machine.execLinkQuietTimerExpiry s
  | .identify => Sys2Proof.Machine.execIdentify s
  | .reset => Sys2Proof.Machine.execReset s
  | .readStatus group => Sys2Proof.Machine.execReadStatus group s
  | .setWatch index group items combine edge => Sys2Proof.Machine.execSetWatch index group items combine edge s
  | .fetchEvents count => Sys2Proof.Machine.execFetchEvents count s
  | .saveSettings sections => Sys2Proof.Machine.execSaveSettings sections s
  | .configureMachine machine fields => Sys2Proof.Machine.execConfigureMachine machine fields s
  | .configureMachineGlobal refreshTime linkQuiet => Sys2Proof.Machine.execConfigureMachineGlobal refreshTime linkQuiet s
  | .readMachine machine => Sys2Proof.Machine.execReadMachine machine s
  | .run machine dir target => Sys2Proof.Machine.execRun machine dir target s
  | .refresh machine runId => Sys2Proof.Machine.execRefresh machine runId s
  | .stop machine => Sys2Proof.Machine.execStop machine s
  | .setRode count => Sys2Proof.Machine.execSetRode count s
  | .calibrate machine endpoint => Sys2Proof.Machine.execCalibrate machine endpoint s
  | .configureHsu fcap primeTime primeTries runOn => Sys2Proof.Machine.execConfigureHsu fcap primeTime primeTries runOn s
  | .readHsu => Sys2Proof.Machine.execReadHsu s
  | .writeInterlock index entry => Sys2Proof.Machine.execWriteInterlock index entry s
  | .readInterlock index => Sys2Proof.Machine.execReadInterlock index s
  | .configureCause cause cls trip => Sys2Proof.Machine.execConfigureCause cause cls trip s
  | .readFaults => Sys2Proof.Machine.execReadFaults s
  | .clearFault cause => Sys2Proof.Machine.execClearFault cause s
  | .serviceClear cause => Sys2Proof.Machine.execServiceClear cause s
  | .configureStation fields => Sys2Proof.Machine.execConfigureStation fields s
  | .readStations => Sys2Proof.Machine.execReadStations s
  | .configureSource source fields => Sys2Proof.Machine.execConfigureSource source fields s
  | .configureZone zone fields => Sys2Proof.Machine.execConfigureZone zone fields s
  | .setVolume zone volume => Sys2Proof.Machine.execSetVolume zone volume s
  | .setQuiet zone quiet => Sys2Proof.Machine.execSetQuiet zone quiet s
  | .allocateClip slot start count => Sys2Proof.Machine.execAllocateClip slot start count s
  | .clipData slot offset samples => Sys2Proof.Machine.execClipData slot offset samples s
  | .clipEnd slot length => Sys2Proof.Machine.execClipEnd slot length s
  | .freeClip slot => Sys2Proof.Machine.execFreeClip slot s
  | .configureAnnounce machine fields => Sys2Proof.Machine.execConfigureAnnounce machine fields s
  | .page slot zones duck => Sys2Proof.Machine.execPage slot zones duck s
  | .cancelPage => Sys2Proof.Machine.execCancelPage s
  | .readAudio part => Sys2Proof.Machine.execReadAudio part s
  | .clearAudioFlags sources => Sys2Proof.Machine.execClearAudioFlags sources s
  | .configureDisplay display fields => Sys2Proof.Machine.execConfigureDisplay display fields s
  | .displayRequest display action => Sys2Proof.Machine.execDisplayRequest display action s
  | .configureLamp lamp binding item mode => Sys2Proof.Machine.execConfigureLamp lamp binding item mode s
  | .positionSample sample => Sys2Proof.Machine.execPositionSample sample s
  | .refreshTimerExpiry machine => Sys2Proof.Machine.execRefreshTimerExpiry machine s
  | .holdToRunLevelChange input a b => Sys2Proof.Machine.execHoldToRunLevelChange input a b s
  | .qualifyTimerExpiry input => Sys2Proof.Machine.execQualifyTimerExpiry input s
  | .disagreeTimerExpiry input => Sys2Proof.Machine.execDisagreeTimerExpiry input s
  | .releaseTimerExpiry input => Sys2Proof.Machine.execReleaseTimerExpiry input s
  | .buttonLevelChange contact closed => Sys2Proof.Machine.execButtonLevelChange contact closed s
  | .debounceTimerExpiry contact => Sys2Proof.Machine.execDebounceTimerExpiry contact s
  | .longPressTimerExpiry machine => Sys2Proof.Machine.execLongPressTimerExpiry machine s
  | .pressureOkChange active => Sys2Proof.Machine.execPressureOkChange active s
  | .primeTimerExpiry => Sys2Proof.Machine.execPrimeTimerExpiry s
  | .gapTimerExpiryPump => Sys2Proof.Machine.execGapTimerExpiryPump s
  | .runOnTimerExpiry => Sys2Proof.Machine.execRunOnTimerExpiry s
  | .pressureLossTimerExpiry => Sys2Proof.Machine.execPressureLossTimerExpiry s
  | .oilHotChange active => Sys2Proof.Machine.execOilHotChange active s
  | .estopChange active => Sys2Proof.Machine.execEstopChange active s
  | .serviceInputChange asserted => Sys2Proof.Machine.execServiceInputChange asserted s
  | .wOvldChange active => Sys2Proof.Machine.execWOvldChange active s
  | .overloadQualifyTimerExpiry => Sys2Proof.Machine.execOverloadQualifyTimerExpiry s
  | .stallTimerExpiry => Sys2Proof.Machine.execStallTimerExpiry s
  | .gypARisingEdge gypB => Sys2Proof.Machine.execGypARisingEdge gypB s
  | .homeChange closed => Sys2Proof.Machine.execHomeChange closed s
  | .pinsUlChange active => Sys2Proof.Machine.execPinsUlChange active s
  | .pinsLkChange active => Sys2Proof.Machine.execPinsLkChange active s
  | .pinTimerExpiry => Sys2Proof.Machine.execPinTimerExpiry s
  | .ladderMatCradleChange input active => Sys2Proof.Machine.execLadderMatCradleChange input active s
  | .sourceFrameArrival source left right arefEdges => Sys2Proof.Machine.execSourceFrameArrival source left right arefEdges s
  | .frameTimerExpiry source => Sys2Proof.Machine.execFrameTimerExpiry source s
  | .outputFrame => Sys2Proof.Machine.execOutputFrame s
  | .rampTimerExpiry display => Sys2Proof.Machine.execRampTimerExpiry display s
  | .holdTimerExpiry display => Sys2Proof.Machine.execHoldTimerExpiry display s
  | .overlayHalfExpiry display => Sys2Proof.Machine.execOverlayHalfExpiry display s
  | .lampFlashHalfExpiry => Sys2Proof.Machine.execLampFlashHalfExpiry s
  | .storeWriteCompletion verified => Sys2Proof.Machine.execStoreWriteCompletion verified s

end Sys2Proof.Machine
end

