-- ==== Sys2Proof/Machine/Tick.lean ====
section
/-! DEFINITION. The passing of one millisecond, which is what a step does when no command waits: the timestamp advances, every
running timer counts down, and the timers that have run out expire, each as its own command (log entry 1). -/

namespace Sys2Proof.Machine

/-! ## Timers count down -/

/-- A running timer with one millisecond less. -/
def lessOne (t : Timer) : Timer := t.map fun n => n - 1

def HoldRec.elapsed (x : HoldRec) : HoldRec := { x with timer := x.timer.map fun t => (t.1, t.2 - 1) }

def ContactRec.elapsed (x : ContactRec) : ContactRec := { x with debounce := lessOne x.debounce }

def Siq.elapsed (q : Siq) : Siq where
  inputs :=
    { w := ⟨q.inputs.w.outward.elapsed, q.inputs.w.inward.elapsed⟩
      p := ⟨q.inputs.p.outward.elapsed, q.inputs.p.inward.elapsed⟩
      h := ⟨q.inputs.h.outward.elapsed, q.inputs.h.inward.elapsed⟩ }
  display := { w := q.display.w.elapsed, p := q.display.p.elapsed, h := q.display.h.elapsed }
  reset := { w := q.reset.w.elapsed, p := q.reset.p.elapsed, h := q.reset.h.elapsed }
  keys := q.keys.map ContactRec.elapsed
  longPress := { w := lessOne q.longPress.w, p := lessOne q.longPress.p, h := lessOne q.longPress.h }

def Channel.elapsed (c : Channel) : Channel := { c with refresh := lessOne c.refresh }

def DisplayRec.elapsed (d : DisplayRec) : DisplayRec :=
  { d with ramp := lessOne d.ramp, hold := lessOne d.hold, overlayTimer := lessOne d.overlayTimer }

/-- One millisecond passes (00_scope.md, Timestamps and Times). -/
def elapse (s : State) : State :=
  { s with
    now := (s.now + 1) % timeWrap
    slp := { s.slp with quiet := lessOne s.slp.quiet, rx := { s.slp.rx with gap := lessOne s.slp.rx.gap } }
    mc := { w := s.mc.w.elapsed, p := s.mc.p.elapsed, h := s.mc.h.elapsed }
    sfe :=
      { s.sfe with
        stall := lessOne s.sfe.stall, overload := lessOne s.sfe.overload, pinTimer := lessOne s.sfe.pinTimer }
    hsc := { s.hsc with timer := lessOne s.hsc.timer, pressLoss := lessOne s.hsc.pressLoss }
    siq := s.siq.elapsed
    zae := { s.zae with sources := s.zae.sources.map fun x => { x with frameTimer := lessOne x.frameTimer } }
    ind :=
      { s.ind with
        displays := { w := s.ind.displays.w.elapsed, p := s.ind.displays.p.elapsed, h := s.ind.displays.h.elapsed }
        flashTimer := lessOne s.ind.flashTimer } }

/-! ## Timers that have run out -/

/-- The timer has run out. -/
def ranOut (t : Timer) : Bool := t == some 0

/-- The timer that the pump state runs, when the pump is in that state. -/
def State.pumpTimer (s : State) (p : PumpState) : Timer := if s.hsc.pump = p then s.hsc.timer else none

def HoldRec.timerOf (x : HoldRec) (k : StationTimer) : Timer :=
  match x.timer with
  | some (k', n) => if k' = k then some n else none
  | none => none

/-- The expiry commands whose timers run, each with its timer, in the order in which one millisecond takes them. -/
def State.timers (s : State) : List (Instr × Timer) :=
  [(.gapTimerExpiry, s.slp.rx.gap), (.linkQuietTimerExpiry, s.slp.quiet)]
    ++ machines.map (fun m => (.refreshTimerExpiry m, (s.chan m).refresh))
    ++ holdInputs.map (fun i => (.qualifyTimerExpiry i, (s.input i).timerOf .qualify))
    ++ holdInputs.map (fun i => (.disagreeTimerExpiry i, (s.input i).timerOf .disagree))
    ++ holdInputs.map (fun i => (.releaseTimerExpiry i, (s.input i).timerOf .release))
    ++ (buttons ++ guestKeys).map (fun c => (.debounceTimerExpiry c, (contactOf s.siq c).debounce))
    ++ machines.map (fun m => (.longPressTimerExpiry m, s.siq.longPress.get m))
    ++ [(.primeTimerExpiry, s.pumpTimer .starting), (.gapTimerExpiryPump, s.pumpTimer .retryGap),
        (.runOnTimerExpiry, s.pumpTimer .runOn), (.pressureLossTimerExpiry, s.hsc.pressLoss),
        (.overloadQualifyTimerExpiry, s.sfe.overload), (.stallTimerExpiry, s.sfe.stall), (.pinTimerExpiry, s.sfe.pinTimer)]
    ++ (List.finRange 3).map (fun n => (.frameTimerExpiry n, (s.source n.val).frameTimer))
    ++ machines.map (fun m => (.rampTimerExpiry m, (s.display m).ramp))
    ++ machines.map (fun m => (.holdTimerExpiry m, (s.display m).hold))
    ++ machines.map (fun m => (.overlayHalfExpiry m, (s.display m).overlayTimer))
    ++ [(.lampFlashHalfExpiry, s.ind.flashTimer)]

/-- The expiry command is due: its timer has run out. -/
def State.due (s : State) (c : Instr) : Bool := s.timers.any fun e => decide (e.1 = c) && ranOut e.2

/-- A due expiry is carried out; one whose timer an earlier expiry has restarted or stopped does not happen. -/
def expire (s : State) (c : Instr) : State :=
  if s.due c then
    match exec c s with
    | .next t => t
    | .fault _ | .refused _ => s
  else s

/-- One millisecond in service: time elapses and the due timers expire, one after another. Outside service no timer runs. -/
def tick (s : State) : State :=
  match s.phase with
  | .running =>
    let s := elapse s
    ((s.timers.filter fun e => ranOut e.2).map Prod.fst).foldl expire s
  | .heldInReset | .initializing => s

end Sys2Proof.Machine
end

