-- ==== Sys2Proof/Machine/Outputs.lean ====
section
/-! DEFINITION. The levels of the output pins, each a function of the state that the manual says drives it (R1, R40, R41, R62, R81,
R130, R133, R155, R159, R162, R171). No output pin is a state of its own (log entry 15). -/

namespace Sys2Proof.Machine

/-- The valve output of a machine in a direction (R1). -/
def State.valve (s : State) (m : MachineId) (d : Direction) : Nat :=
  if (s.chan m).state.isFlowing ∧ (s.chan m).runsIn d then (s.chan m).applied else 0

/-- BRAKE is active, the brake released (R62). -/
def State.brakeReleased (s : State) : Bool := (s.chan .w).state.isFlowing

/-- PUMP_RUN (R40). -/
def State.pumpRun (s : State) : Bool :=
  match s.hsc.pump with
  | .starting | .running | .runOn => true
  | .off | .retryGap => false

/-- ATN# is low: outside initialization, exactly while the event queue is not empty (R171). -/
def State.atnLow (s : State) : Bool := s.phase == .running && !s.seu.events.isEmpty

/-- Segment `n` of a bar, numbered 1 to 8 from the bottom, is driven on (R155, R159). -/
def State.segment (s : State) (m : MachineId) (n : Nat) : Bool :=
  let d := s.display m
  decide (1 ≤ n ∧ n ≤ d.lit) &&
    (match d.overlay with
     | .none => true
     | .flash => d.overlayOn
     | .blink => d.overlayOn || n != d.lit)

/-- Lamp `l` is driven on (R162). During initialization every lamp is off. -/
def State.lamp (s : State) (l : Nat) : Bool :=
  s.phase == .running && s.lampCalled l && (!(peek s.settings.indicators.lamps l).flash || s.ind.flashOn)

/-- The two lines of a zone output, as driven at the last output frame (R130, R133). -/
def State.zoneOutput (s : State) (z : Nat) : Int × Int := ((s.zone z).left, (s.zone z).right)

/-- All outputs together. -/
structure Outputs where
  valves : Three (Pair Nat)
  brake : Bool
  pinUnlock : Bool
  pinLock : Bool
  pumpRun : Bool
  isolate : Bool
  atnLow : Bool
  segments : Three (List Bool)
  lamps : List Bool
  zones : List (Int × Int)
  txd : Option (List Byte)
deriving DecidableEq, Repr

/-- The outputs of a state. -/
def State.outputs (s : State) : Outputs where
  valves :=
    { w := ⟨s.valve .w .outward, s.valve .w .inward⟩
      p := ⟨s.valve .p .outward, s.valve .p .inward⟩
      h := ⟨s.valve .h .outward, s.valve .h .inward⟩ }
  brake := s.brakeReleased
  pinUnlock := s.pinUnlock
  pinLock := s.pinLock
  pumpRun := s.pumpRun
  isolate := s.hsc.isolate
  atnLow := s.atnLow
  segments :=
    { w := (List.range 8).map fun k => s.segment .w (k + 1)
      p := (List.range 8).map fun k => s.segment .p (k + 1)
      h := (List.range 8).map fun k => s.segment .h (k + 1) }
  lamps := (List.range 6).map s.lamp
  zones := zoneIndexes.map s.zoneOutput
  txd := s.slp.inService.map Reply.frame

end Sys2Proof.Machine
end

