-- ==== Sys2Proof/WellFormed.lean ====
section
/-! DEFINITION. The commands that the pins and the link can bring about: the fields of a request fit its layout (R175, R185). A
code that names nothing is no ill-formedness: its request is answered REFUSED_VALUE. -/

namespace Sys2Proof

/-- CONFIGURE MACHINE naming W, P or H, with the fields of that machine (R21). -/
def machineLayout (machine : Byte) : MachineTail → Bool
  | .windlass _ _ _ _ _ => machine == 0
  | .platform _ _ => machine == 1
  | .hatch _ _ _ _ => machine == 2

/-- A cap value follows the action CAP and no other (R185). -/
def EntryFields.wf (e : EntryFields) : Bool := e.cap.isSome == (e.action == 2)

/-- An item follows the binding ITEM and no other (R185). -/
def lampLayout (binding : Byte) (item : Option LampItemFields) : Bool := item.isSome == (binding == 2)

/-- A code that names no request (R175, R184). -/
def codeUndefined (code : Byte) : Bool := code != 0x10 && (parsePayload code.toNat).isNone

/-- The command is one that the pins or the link can bring about. -/
def Instr.wf : Instr → Bool
  | .undefinedRequestCode code => codeUndefined code
  | .configureMachine m f => machineLayout m f.tail
  | .writeInterlock _ (some e) => e.wf
  | .clipData _ _ samples => decide (1 ≤ samples.length ∧ samples.length ≤ 96)
  | .configureLamp _ binding item _ => lampLayout binding item
  | _ => true

end Sys2Proof
end

