-- ==== Sys2Proof/Safety.lean ====
section
/-! DEFINITION. What the manual says of every state of the part: the properties that the statements speak of. -/

namespace Sys2Proof.Machine

/-- A channel outside MOVING and STOPPING has demand, flow request, flow share and applied demand 0 (R1); in every state its share is
no more than its flow request, and with a flow request of 0 its valve is held closed (R52). -/
def Channel.shut (c : Channel) : Prop :=
  (c.state.isFlowing = false → c.demand = 0 ∧ c.flow = 0 ∧ c.share = 0 ∧ c.applied = 0) ∧
    c.share ≤ c.flow ∧ (c.flow = 0 → c.applied = 0)

def ValvesShut (s : State) : Prop := ∀ m, (s.chan m).shut

/-- The event queue never holds more than 32 records (R169). -/
def EventsFit (s : State) : Prop := s.seu.events.length ≤ eventCapacity

/-- The grant list never holds more than two channels (R49). -/
def GrantsFit (s : State) : Prop := s.hsc.grants.length ≤ grantSlots

/-- The rode count stays within 0..RodeMax, and is 0 while HOME is closed; while the part is held in reset it has no meaning
(R57). -/
def RodeInRange (s : State) : Prop :=
  s.sfe.rode ≤ s.settings.machines.windlass.rodeMax ∧ (s.phase ≠ .heldInReset → s.pins.home = true → s.sfe.rode = 0)

/-- A source FIFO never holds more than 128 frames for each of its blocks (R128). -/
def FifosFit (s : State) : Prop := ∀ n, n < 3 → (s.source n).fifo.length ≤ (s.sourceConfig n).capacity

/-- A READY clip's length never exceeds 256 samples for each of its blocks (R128). -/
def ClipsFit (s : State) : Prop := ∀ k, k < 16 → (s.clip k).state = .ready → (s.clip k).length ≤ (s.clip k).room

/-- The sample memory keeps its canonical form: addresses strictly rising, no entry equal to what an unlisted one reads as. -/
def MemoryCanonical (s : State) : Prop := Memory.wf s.zae.memory = true

/-- Every zone output lies in the 24-bit domain (R133). -/
def InDomain (x : Int) : Prop := sampleMin ≤ x ∧ x ≤ sampleMax

def OutputsInDomain (s : State) : Prop := ∀ z, z < 8 → InDomain (s.zone z).left ∧ InDomain (s.zone z).right

/-- The pending-write queue holds each section at most once, with RECORDS at its head whenever RECORDS is pending (R179). -/
def StoreOrdered (s : State) : Prop :=
  (s.sto.queue.map Prod.fst).Nodup ∧ (isPending .records s.sto.queue = true → (s.sto.queue.map Prod.fst).head? = some .records)

/-- In service no section waits while no write is in progress (R180). -/
def StoreAtRest (s : State) : Prop := s.phase = .running → s.sto.queue = [] ∨ s.sto.writing.isSome = true

/-- In service ISOLATE is asserted while the ESTOP input is active (R114). -/
def EstopIsolates (s : State) : Prop := s.phase = .running → s.pins.estop = true → s.hsc.isolate = true

/-- A grant is held by exactly the channels in the states that R1 names, a place in the wait queue by exactly those in WAITING, and
none has either twice (R1, R49, R50). -/
def Seated (s : State) : Prop :=
  s.hsc.grants.Nodup ∧ s.hsc.queue.Nodup ∧
    ∀ m, (m ∈ s.hsc.grants ↔ (s.chan m).state.isGranted = true) ∧ (m ∈ s.hsc.queue ↔ (s.chan m).state = .waiting)

/-- ISOLATE asserted leaves no grant, nobody waiting and the pump OFF (R53). -/
def IsolateShuts (s : State) : Prop := s.hsc.isolate = true → s.hsc.grants = [] ∧ s.hsc.queue = [] ∧ s.hsc.pump = .off

/-- ISOLATE is asserted while a trip record exists (R114). -/
def TripIsolates (s : State) : Prop := s.fis.trip.isSome = true → s.hsc.isolate = true

/-- Every armed watch holds as its last value the combined value of its items as they are published (R166, R168). -/
def WatchesCurrent (s : State) : Prop :=
  ∀ i, i < 8 → ∀ v, (peek s.seu.watches i).last = some v →
    v = combined (peek s.seu.watches i).combine (peek s.seu.watches i).items (s.groupWord (peek s.seu.watches i).group)

/-- Outside service no request is in service and no watch is armed (R167, R174, R182). -/
def AsleepOutside (s : State) : Prop :=
  s.phase ≠ .running → s.slp.inService = none ∧ ∀ i, i < 8 → (peek s.seu.watches i).last = none

/-- An entry that WRITE INTERLOCK may leave (R121): its item exists and does not follow the running of the machines, and a cap lies in
50..1000. -/
def InterlockEntry.allowed (e : InterlockEntry) : Prop :=
  e.item.exists = true ∧ e.item.followsRunning = false ∧ ∀ v, e.action = .cap v → 50 ≤ v ∧ v ≤ 1000

def InterlocksAllowed (x : InterlockSettings) : Prop := ∀ i, i < 21 → ∀ e, peek x i = some e → e.allowed

/-- The entries in force, those kept in the store and those being written are all allowed (R118, R121, R179). -/
def EntriesAllowed (s : State) : Prop :=
  InterlocksAllowed s.settings.interlocks ∧ InterlocksAllowed s.sto.interlocks.content ∧
    ∀ w x, s.sto.writing = some w → w.data = .interlocks x → InterlocksAllowed x

/-- The part serves and no request is in service: the next valid frame is taken at once (R174). -/
def Serving (s : State) : Prop := s.phase = .running ∧ s.slp.inService = none

/-- The state in which a request is judged: the link supervision has been told of its frame (R173, R177). -/
def heard (s : State) : State := noteValidFrame send s

/-- No interlock entry of the host is set: no entry but the three built-in ones acts (R118). -/
def NoHostEntries (s : State) : Prop := ∀ i, i < 21 → peek s.settings.interlocks i = none

/-- The state once a request has been answered: the reply stands in the link port, and a store write that can begin has begun
(R174, R180, R184). -/
def answered (code : Byte) (payload : List Byte) (u : State) : State :=
  beginWrite (u.onSlp fun l => { l with inService := some { code := code, payload := payload, resets := false } })

/-- The outcome of a request that is answered with the status alone: nothing but the link port has changed (R175, R184). -/
def refusal (code status : Byte) (s : State) : Host.Outcome State Fault Refusal := .next (answered code [status] (heard s))

/-- The part is calm but for the run at hand: no host entry acts, and no SELF cause waits for a hand to be lifted, its condition
being absent already. -/
def Undisturbed (s : State) : Prop :=
  NoHostEntries s ∧ ∀ c, c < 16 → (s.cause c).active = true → (s.causeSetting c).cls = .self → (s.cause c).present = true

/-- The supply `k` after a release that nobody waited for, from the supply `h` before it (R45, R46): with no grant left a start is
abandoned, and a RUNNING pump enters RUN_ON for the time `runOn`, or OFF when that is 0; any other pump, and every pump with a grant
left, stays as it was. -/
structure PumpReleased (runOn : Nat) (h k : Hsc) : Prop where
  abandoned : k.grants = [] → h.pump = .starting ∨ h.pump = .retryGap →
    k.pump = .off ∧ k.attempt = 0 ∧ k.timer = none ∧ k.pressLoss = none
  runsOn : k.grants = [] → h.pump = .running → runOn ≠ 0 →
    k.pump = .runOn ∧ k.attempt = 0 ∧ k.timer = some runOn ∧ k.pressLoss = h.pressLoss
  stops : k.grants = [] → h.pump = .running → runOn = 0 →
    k.pump = .off ∧ k.attempt = 0 ∧ k.timer = none ∧ k.pressLoss = none
  stays : k.grants ≠ [] ∨ h.pump = .off ∨ h.pump = .runOn →
    k.pump = h.pump ∧ k.attempt = h.attempt ∧ k.timer = h.timer ∧ k.pressLoss = h.pressLoss

/-- A ramped end reason `x` taken for the live run of `m` (R15): a channel in MOVING goes to STOPPING at its demand and keeps its
grant; one in WAITING, PRIMING or UNLOCKING, with no press left that starts it again and nobody waiting for its slot, completes its
run and is IDLE without a grant, and the pump follows the release; one in STOPPING or LOCKING keeps its run as it is. -/
structure RampedEnd (m : MachineId) (x : EndReason) (s t : State) : Prop where
  moving : ∀ r, (s.chan m).state = .moving → (s.chan m).live = some r → (s.chan m).demand ≠ 0 →
    (t.chan m).state = .stopping ∧ (t.chan m).live = some { r with endReason := some (r.endReason.getD x) } ∧
      (t.chan m).refresh = none ∧ (t.chan m).demand = (s.chan m).demand ∧ t.hsc.grants = s.hsc.grants
  notMoving : ∀ r, (s.chan m).state = .waiting ∨ (s.chan m).state = .priming ∨ (s.chan m).state = .unlocking →
    (s.chan m).live = some r → x = .linkStop ∨ x = .conflict ∨ s.anyValid m = false → s.hsc.queue.erase m = [] →
    (t.chan m).state = .idle ∧ (t.chan m).live = none ∧
      (t.chan m).last = some { r with endReason := some (r.endReason.getD x), endPos := some (s.chan m).position } ∧
      (t.chan m).refresh = none ∧ t.hsc.grants = s.hsc.grants.erase m ∧ t.hsc.queue = [] ∧
      PumpReleased s.settings.hsu.runOn s.hsc t.hsc
  stopping : (s.chan m).state = .stopping ∨ (s.chan m).state = .locking →
    (t.chan m).state = (s.chan m).state ∧ (t.chan m).live = (s.chan m).live

/-- The section's copy passes its check at the next start-up: it passes now, and no write of it is cut short (R183). -/
def Sto.intact (t : Sto) (x : SectionName) : Bool :=
  t.passes x && !(t.writing.any fun w => decide (w.data.name = x))

/-- The section's copy holds these contents and passes its check. -/
def Sto.holds (t : Sto) : SectionData → Prop
  | .machines x => t.machines = ⟨x, true⟩
  | .hsu x => t.hsu = ⟨x, true⟩
  | .interlocks x => t.interlocks = ⟨x, true⟩
  | .causes x => t.causes = ⟨x, true⟩
  | .stations x => t.stations = ⟨x, true⟩
  | .audio x => t.audio = ⟨x, true⟩
  | .indicators x => t.indicators = ⟨x, true⟩
  | .records x => t.records = ⟨x, true⟩

/-- What a section loads: its copy when it is intact, else the factory values (R182). -/
def Sto.loads {α : Type} (t : Sto) (x : SectionName) (c : Copy α) (factory : α) : α :=
  if t.intact x then c.content else factory

/-- Every output at rest, as during initialization (R182). -/
def OutputsAtRest (s : State) : Prop :=
  (∀ m d, s.valve m d = 0) ∧ s.brakeReleased = false ∧ s.pinUnlock = false ∧ s.pinLock = false ∧ s.pumpRun = false ∧
    s.hsc.isolate = true ∧ s.atnLow = false ∧ (∀ m n, s.segment m n = false) ∧ (∀ l, s.lamp l = false) ∧
    (∀ z, z < 8 → s.zoneOutput z = (0, 0)) ∧ s.slp.inService = none

/-- The part as a reset of kind `c` leaves it, with the straps as sampled (R172, R182, R183). -/
structure StartsOver (c : ResetCause) (phase : Phase) (straps : Straps) (s t : State) : Prop where
  phase : t.phase = phase
  cause : t.resetCause = c
  outputs : OutputsAtRest t
  link : t.slp.rate = straps ∧ t.slp.held = none ∧ t.slp.linkOk = false ∧ t.slp.rx = Receiver.hunting
  channels : ∀ m, (t.chan m).live = none ∧ (t.chan m).last = none ∧ (t.chan m).counter = 0 ∧ (t.chan m).conflict = false
  events : t.seu.events = [] ∧ ∀ i, i < 8 → (peek t.seu.watches i).last = none
  store : t.sto.queue = [] ∧ t.sto.writing = none ∧ ∀ x, t.sto.passes x = s.sto.intact x
  machines : t.settings.machines = s.sto.loads .machines s.sto.machines factoryMachines
  hsu : t.settings.hsu = s.sto.loads .hsu s.sto.hsu factoryHsu
  interlocks : t.settings.interlocks = s.sto.loads .interlocks s.sto.interlocks factoryInterlocks
  causes : t.settings.causes = s.sto.loads .causes s.sto.causes factoryCauses
  stations : t.settings.stations = s.sto.loads .stations s.sto.stations factoryStations
  audio : t.settings.audio = s.sto.loads .audio s.sto.audio factoryAudio
  indicators : t.settings.indicators = s.sto.loads .indicators s.sto.indicators factoryIndicators
  clips : t.zae.memory = [] ∧ t.zae.page = none ∧ ∀ k, k < 16 → (t.clip k).state = .empty
  world : (∀ i, (t.input i).a = (s.input i).a ∧ (t.input i).b = (s.input i).b) ∧ t.pins = { s.pins with straps := straps } ∧
    t.pending = s.pending

/-- The bytes of a frame received one after another, each in its own handling. -/
def feedBytes (bytes : List Byte) (s : State) : Host.Outcome State Fault Refusal :=
  match bytes with
  | [] => .next s
  | b :: rest =>
    match exec (.receivedByte b) s with
    | .next t => feedBytes rest t
    | other => other

/-- The announce lists, voices and page after a reconsideration (R144, R145, R148, R151): `s` has the grants, records, QUIET and
safety attributes as they now are, with the lists, voices and page as they were. -/
structure Relisted (s t : State) : Prop where
  list : ∀ z, z < 8 →
    let may := fun m => s.hsc.grants.contains m && peek (s.announce m).zones z && ((s.zoneConfig z).safety || !(s.zone z).quiet)
    (t.zone z).list = (s.zone z).list.filter may ++ s.hsc.grants.filter fun m => may m && !(s.zone z).list.contains m
  plays : ∀ z m rest, z < 8 → (t.zone z).list = m :: rest → (s.zone z).list.head? ≠ some m →
    (t.zone z).voice = .play ∧ (t.zone z).place = 0 ∧
      (∀ k, (s.announce m).clip = some k → (s.clip k).state = .ready → (t.zone z).sound = .clip k) ∧
      ((∀ k, (s.announce m).clip = some k → (s.clip k).state ≠ .ready) → (t.zone z).sound = .tone)
  stays : ∀ z m rest, z < 8 → (t.zone z).list = m :: rest → (s.zone z).list.head? = some m → (s.zone z).voice ≠ .page →
    (t.zone z).voice = (s.zone z).voice ∧ (t.zone z).sound = (s.zone z).sound ∧ (t.zone z).place = (s.zone z).place ∧
      (t.zone z).since = (s.zone z).since
  silent : ∀ z, z < 8 → (t.zone z).list = [] → (s.zone z).list ≠ [] → (t.zone z).voice = .silent
  empty : ∀ z, z < 8 → (t.zone z).list = [] → (s.zone z).list = [] →
    let cut := ((s.zone z).voice = .page ∧ ∃ p, s.zae.page = some p ∧ peek p.playing z = true) ∧
      (s.zone z).quiet = true ∧ (s.zoneConfig z).safety = false
    (cut → t.zone z = { s.zone z with voice := .silent, place := 0, since := 0 }) ∧ (¬ cut → t.zone z = s.zone z)
  kept : ∀ z, z < 8 → (t.zone z).quiet = (s.zone z).quiet ∧ (t.zone z).left = (s.zone z).left ∧
    (t.zone z).right = (s.zone z).right ∧ (t.zone z).duck = (s.zone z).duck
  noPage : s.zae.page = none → t.zae.page = none
  page : ∀ p, s.zae.page = some p →
    let cut := fun z : Nat => peek p.playing z && (!(t.zone z).list.isEmpty || ((s.zone z).quiet && !(s.zoneConfig z).safety))
    let playing := Vector.ofFn fun z : Fin 8 => peek p.playing z.val && !cut z.val
    t.zae.page = if playing.any id then
      some { p with playing := playing, cut := Vector.ofFn fun z : Fin 8 => peek p.cut z.val || cut z.val } else none
  ended : ∀ p, s.zae.page = some p → t.zae.page = none → t.seu.events.length < 32 →
    .pageEnded p.clip p.completed (Vector.ofFn fun z : Fin 8 => peek p.cut z.val ||
        (peek p.playing z.val && (!(t.zone z.val).list.isEmpty || ((s.zone z.val).quiet && !(s.zoneConfig z.val).safety)))) ∈
      t.seu.events.map Event.kind
  announcing : ∀ z, z < 8 → t.item (Item.announcing z) = !(t.zone z).list.isEmpty
  others : t.settings = s.settings ∧ t.zae.sources = s.zae.sources ∧ t.zae.owners = s.zae.owners ∧ t.zae.memory = s.zae.memory ∧
    t.zae.clips = s.zae.clips ∧ t.mc = s.mc ∧ t.hsc = s.hsc ∧ t.sfe = s.sfe ∧ t.siq = s.siq ∧ t.fis = s.fis ∧ t.pins = s.pins ∧
    t.slp = s.slp ∧ t.now = s.now

/-- The machine a position sample is of. -/
def sampleMachine : Sample → MachineId
  | .windlass => .w
  | .platform _ _ => .p
  | .hatch _ _ => .h

/-- The two sensors of the platform or the hatch as a sample with these counts leaves them, before the checks (R25). -/
def State.sampled (s : State) (m : MachineId) (a b : Nat) : SensorRec := (s.sensors m).sampled (s.sensorParams m) a b

/-- The machine position that a sample forms (R27, R28). -/
def State.positionOf (s : State) : Sample → Nat
  | .windlass => s.sfe.rode
  | .platform a b => meanPosition (s.sampled .p a.toNat b.toNat).rawA (s.sampled .p a.toNat b.toNat).rawB
  | .hatch a b => meanPosition (s.sampled .h a.toNat b.toNat).rawA (s.sampled .h a.toNat b.toNat).rawB

/-- The two checks of such a sample leave both conditions as they are (R74, R75). -/
def State.agrees (s : State) (m : MachineId) (a b : Nat) : Prop :=
  let x := s.sampled m a b
  x.overtravels = x.overtravel ∧ (x.disagrees (s.sensorParams m).tol = false → x.sensorBad = false) ∧
    (x.disagrees (s.sensorParams m).tol = true → x.sensorBad = true ∨ x.disagree + 1 < (s.sensorParams m).disagreeCount)

def SampleFindsNothing (s : State) : Sample → Prop
  | .windlass => True
  | .platform a b => s.agrees .p a.toNat b.toNat
  | .hatch a b => s.agrees .h a.toNat b.toNat

/-- The flow shares and applied demands are those of the grants, states and flow requests as they stand, and the stall timer follows
them (R51, R52, R63). -/
structure SharesFlow (t : State) : Prop where
  pn : t.hsc.pn = if (t.chan .h).state = .unlocking ∨ (t.chan .h).state = .locking then
    min t.settings.machines.pinsFlow t.settings.hsu.fcap else 0
  avail : t.hsc.avail = t.settings.hsu.fcap - t.hsc.pn
  total : t.hsc.total = ([MachineId.w, .p, .h].map fun k => if t.draws k then (t.chan k).flow else 0).sum
  scaled : t.hsc.scaled = decide (t.hsc.avail < t.hsc.total) ∧ t.item Item.scaled = t.hsc.scaled
  share : ∀ k, t.draws k = true →
    ((t.chan k).flow = 0 → (t.chan k).share = 0 ∧ (t.chan k).applied = 0) ∧
    ((t.chan k).flow ≠ 0 → t.hsc.total ≤ t.hsc.avail → (t.chan k).share = (t.chan k).flow ∧ (t.chan k).applied = (t.chan k).demand) ∧
    ((t.chan k).flow ≠ 0 → t.hsc.avail < t.hsc.total → (t.chan k).share = (t.chan k).flow * t.hsc.avail / t.hsc.total ∧
      (t.chan k).applied = (t.chan k).share * 1000 / (t.params k).qmax)
  noShare : ∀ k, t.draws k = false → (t.chan k).share = 0 ∧ (t.chan k).applied = 0
  stall : t.sfe.stall.isSome =
    ((t.chan .w).state == .moving && decide (t.settings.machines.windlass.stallDemand ≤ (t.chan .w).applied))

/-- The channel as an active cause `c` that affects its machine leaves it: a live run has ended FAULT with the cause at the machine's
position, without a ramp; DISABLED and HELD stay (R15, R19). -/
def Channel.heldBy (x : Channel) (c : Nat) : Channel :=
  match x.state with
  | .disabled | .held => x
  | .idle => { x with state := .held, demand := 0, flow := 0, share := 0, applied := 0 }
  | .waiting | .priming | .unlocking | .moving | .stopping | .locking =>
    { x with
      state := .held, demand := 0, flow := 0, share := 0, applied := 0, refresh := none, live := none
      last := match x.live with
        | some r => some { r with endReason := some .fault, cause := some c, endPos := some x.position }
        | none => x.last }

/-- The machines a cause affects whose channels are running; the others that it takes to HELD or leaves there. -/
def State.stopsRunning (s : State) (c : Nat) : List MachineId :=
  machines.filter fun m => s.affects c m && (s.chan m).state.isRunning

/-- Nobody is left waiting once the machines that the cause affects have been held. -/
def State.emptiesQueue (s : State) (c : Nat) : Prop := (s.stopsRunning c).foldl List.erase s.hsc.queue = []

/-- The cause `c` has been raised without a trip (R106): it is active from now on, the machines it affects are held with their inputs
inhibited, their grants released and their places in the queue given up, and no other channel changes but in its flow share. -/
structure Raised (c : Nat) (s t : State) : Prop where
  active : (t.cause c).active = true ∧ (t.cause c).raisedAt = some s.now
  others : ∀ d, d ≠ c → t.cause d = s.cause d
  channel : ∀ m, t.chan m = { (if s.affects c m then (s.chan m).heldBy c else s.chan m) with
                              share := (t.chan m).share, applied := (t.chan m).applied }
  input : ∀ i, t.input i =
    if s.affects c i.machine && (s.chan i.machine).state != .disabled && (s.chan i.machine).state != .held then
      (s.input i).inhibited s.settings.stations.releaseTime else s.input i
  grants : t.hsc.grants = (s.stopsRunning c).foldl List.erase s.hsc.grants
  queue : t.hsc.queue = (s.stopsRunning c).foldl List.erase s.hsc.queue
  pump : s.hsc.pump = .off → t.hsc.pump = .off ∧ t.hsc.attempt = s.hsc.attempt ∧ t.hsc.timer = s.hsc.timer ∧
    t.hsc.pressLoss = s.hsc.pressLoss
  item : t.item (Item.cause c) = true
  event : t.seu.events.length < 32 → .faultRaised c (s.affectedSet c) (s.causeSetting c).trip ∈ t.seu.events.map Event.kind
  kept : t.phase = s.phase ∧ t.now = s.now ∧ t.pins = s.pins ∧ t.settings = s.settings ∧ t.slp = s.slp ∧ t.sfe.rode = s.sfe.rode ∧
    t.fis.trip = s.fis.trip ∧ t.fis.faulted = s.fis.faulted

/-- The cause `c` is at rest, and its raise takes a new trip: its trip is enabled, no record exists, ISOLATE is released, the running
channels hold their grants and places, the others are shut, and no machine has both its inputs VALID (R13, R113). -/
def TripReady (c : Nat) (s : State) : Prop :=
  (s.cause c).active = false ∧ (s.cause c).present = false ∧ (s.causeSetting c).trip = true ∧ s.fis.trip = none ∧
    s.hsc.isolate = false ∧ Seated s ∧ ValvesShut s ∧ ∀ m, s.inputState m .outward = .valid → s.inputState m .inward ≠ .valid

/-- The channel as the assertion of ISOLATE leaves it (R18, R53): a running one is IDLE, its live run ended ISOLATED at the machine's
position, without a ramp; no channel has a flow share. -/
def Channel.isolated (x : Channel) : Channel :=
  if x.state.isRunning then
    { x with
      state := .idle, demand := 0, flow := 0, share := 0, applied := 0, refresh := none, live := none
      last := match x.live with
        | some r => some { r with endReason := some .isolated, cause := none, endPos := some x.position }
        | none => x.last }
  else { x with share := 0, applied := 0 }

/-- The cause `c` has been raised and has taken a new trip (R106, R113): the record holds the cause, the time and the rode count of
the raise, ISOLATE is asserted, the machines the cause affects are held with their runs ended FAULT and their inputs inhibited, the
runs of the others have ended ISOLATED, nothing is granted and nobody waits, and the pump is OFF. -/
structure Tripped (c : Nat) (s t : State) : Prop where
  active : (t.cause c).active = true ∧ (t.cause c).raisedAt = some s.now
  others : ∀ d, d ≠ c → t.cause d = s.cause d
  record : t.fis.trip = some { cause := c, time := s.now, rode := s.sfe.rode, restored := false }
  isolate : t.hsc.isolate = true ∧ t.item Item.isolated = true ∧ t.item Item.isolateOut = true ∧ t.item Item.tripRecorded = true
  channel : ∀ m, t.chan m = if s.affects c m then { (s.chan m).heldBy c with share := 0, applied := 0 } else (s.chan m).isolated
  input : ∀ i, t.input i =
    if s.affects c i.machine && (s.chan i.machine).state != .disabled && (s.chan i.machine).state != .held then
      (s.input i).inhibited s.settings.stations.releaseTime else s.input i
  supply : t.hsc.grants = [] ∧ t.hsc.queue = [] ∧ t.hsc.pump = .off ∧ t.hsc.attempt = 0 ∧ t.hsc.timer = none ∧ t.hsc.pressLoss = none
  item : t.item (Item.cause c) = true
  event : t.seu.events.length < 32 → .faultRaised c (s.affectedSet c) true ∈ t.seu.events.map Event.kind
  kept : t.phase = s.phase ∧ t.now = s.now ∧ t.pins = s.pins ∧ t.settings = s.settings ∧ t.slp = s.slp ∧ t.sfe.rode = s.sfe.rode ∧
    t.fis.faulted = s.fis.faulted

/-- The pump has been confirmed (R42): it runs, every granted channel in PRIMING has moved on to UNLOCKING or MOVING as its run needs,
and the flow is shared anew. -/
structure PumpConfirmed (s t : State) : Prop where
  pump : t.hsc.pump = .running ∧ t.hsc.attempt = 0 ∧ t.hsc.timer = none
  grants : t.hsc.grants = s.hsc.grants ∧ t.hsc.queue = s.hsc.queue ∧ t.hsc.isolate = s.hsc.isolate
  channel : ∀ m, t.chan m =
    { (if (s.chan m).state = .priming ∧ m ∈ s.hsc.grants then
        { s.chan m with
          state := if m = .h ∧ (s.chan .h).runsIn .outward = true ∧ s.pins.pinsUl = false then .unlocking else .moving
          demand := 0, flow := 0 } else s.chan m) with
      share := (t.chan m).share, applied := (t.chan m).applied }
  shares : SharesFlow t
  kept : t.phase = s.phase ∧ t.now = s.now ∧ t.pins = s.pins ∧ t.settings = s.settings ∧ t.slp = s.slp ∧ t.siq = s.siq ∧
    t.fis = s.fis ∧ t.sfe.rode = s.sfe.rode

/-! ## What every step keeps -/

/-- What every handling keeps. -/
def Fit (s : State) : Prop :=
  ValvesShut s ∧ EventsFit s ∧ GrantsFit s ∧ RodeInRange s ∧ FifosFit s ∧ ClipsFit s ∧ MemoryCanonical s ∧ OutputsInDomain s ∧
    StoreOrdered s ∧ EstopIsolates s

/-- What holds between the steps. -/
def Consistent (s : State) : Prop :=
  Fit s ∧ StoreAtRest s ∧ Seated s ∧ IsolateShuts s ∧ TripIsolates s ∧ WatchesCurrent s ∧ AsleepOutside s ∧ EntriesAllowed s

end Sys2Proof.Machine
end

