-- ==== Sys2Proof/Certificates/Slice0/Obligations.lean ====
section
/-! DEFINITION. The statements for the provers. Each says what the manual's rules say of the model; a request is stated from the
state `heard s`, in which the link supervision has been told of its frame, and in a link port that serves nothing (`Serving`);
`answered` puts the reply there. -/

open Sys2Proof Sys2Proof.Machine

/-! ## Steps and handlings -/

/-- A step takes the command at the front of the queue: its answer is that of `exec` on the state with the rest of the queue. -/
def Obligations.StepRunsTheFrontCommand : Prop :=
  ∀ (c : Instr) (rest : List Instr) (s : State), s.pending = c :: rest → step s = exec c { s with pending := rest }

/-- With no command waiting a step is one millisecond in service, and nothing outside service (log entry 1, the model's choice):
the timestamp moves on, wrapping at 32 bits, every running timer has one millisecond less and a stopped one stays stopped, and a
timer that alone has run out expires as its own command does. -/
def Obligations.IdleStepIsOneMillisecond : Prop :=
  ∀ s : State, s.pending = [] →
    (s.phase ≠ .running → step s = .next s) ∧
    (s.phase = .running → (elapse s).now = (s.now + 1) % 4294967296 ∧ (elapse s).settings = s.settings ∧
      (elapse s).zae.zones = s.zae.zones ∧ (elapse s).fis = s.fis ∧ (elapse s).seu = s.seu ∧ (elapse s).sto = s.sto ∧
      (elapse s).timers = s.timers.map fun e => (e.1, e.2.map fun n => n - 1)) ∧
    (s.phase = .running → (∀ e ∈ (elapse s).timers, e.2 ≠ some 0) → step s = .next (elapse s)) ∧
    (s.phase = .running → ∀ c, (((elapse s).timers.filter fun e => e.2 == some 0).map Prod.fst) = [c] →
      step s = exec c (elapse s))

/-- Every command is carried out in every state: none faults and none is refused. -/
def Obligations.NoCommandStops : Prop :=
  ∀ (c : Instr) (s : State), ∃ t, exec c s = .next t

/-! ## Resets and initialization -/

/-- Each of the three kinds of reset that a pin or the supply brings begins initialization afresh, or holds the part in reset,
with its cause recorded, the straps sampled, every output at rest, no request in service or held, the queues of the store and
of the events empty, and every configuration section loaded from its copy, or from the factory values when the copy fails its
check; a section whose write was cut short fails it. RST# going high matters only while the part is held (log entry 10). -/
def Obligations.ResetBeginsInitialization : Prop :=
  ∀ (s : State) (straps : Straps),
    (∃ t, exec (.powerReset straps) s = .next t ∧ StartsOver .power .initializing straps s t) ∧
    (∃ t, exec .pinReset s = .next t ∧ StartsOver .pin .heldInReset s.pins.straps s t) ∧
    (s.phase = .heldInReset → ∃ t, exec (.rstGoesHigh straps) s = .next t ∧ StartsOver .pin .initializing straps s t) ∧
    (s.phase ≠ .heldInReset → StoreAtRest s → exec (.rstGoesHigh straps) s = .next s)

/-- After a reset of each kind (supply applied, RST# low, RST# high from the hold, and the reset behind the reply to RESET) the
rode count, RODE_UNKNOWN, the causes and the trip record are those of the RECORDS section: 0 and known with HOME closed; else the
stored count, taken down to RodeMax, known when the record was known and settled; 0 and unknown when the section fails its check.
The latched causes come back active with raised-at 0 and condition absent, the trip record with its restored flag. -/
def Obligations.ResetRestoresTheRecords : Prop :=
  ∀ (s : State) (straps : Straps),
    let restored := fun t : State =>
      (s.pins.home = true → t.sfe.rode = 0 ∧ t.sfe.rodeUnknown = false) ∧
      (s.pins.home = false → s.sto.intact .records = true →
        t.sfe.rode = min s.sto.records.content.rode.count t.settings.machines.windlass.rodeMax ∧
        t.sfe.rodeUnknown = !(s.sto.records.content.rode.known && s.sto.records.content.rode.settled)) ∧
      (s.pins.home = false → s.sto.intact .records = false → t.sfe.rode = 0 ∧ t.sfe.rodeUnknown = true) ∧
      (∀ c, c < 16 → t.cause c =
        if s.sto.intact .records = true ∧ peek s.sto.records.content.latched c = true then
          { active := true, present := false, raisedAt := some 0 }
        else { active := false, present := false, raisedAt := none }) ∧
      t.fis.trip = (if s.sto.intact .records = true then
        s.sto.records.content.trip.map fun r => { r with restored := true } else none)
    (∃ t, exec (.powerReset straps) s = .next t ∧ restored t) ∧
    (∃ t, exec .pinReset s = .next t ∧ restored t) ∧
    (s.phase = .heldInReset → ∃ t, exec (.rstGoesHigh straps) s = .next t ∧ restored t) ∧
    (∀ r, s.slp.inService = some r → r.resets = true → ∃ t, exec .replySent s = .next t ∧ restored t)

/-- The end of initialization: the timestamp starts at 0, RESET_DONE is queued first with the reset cause and the failed sections,
the link-quiet timer is started, ISOLATE stays asserted with ESTOP active or a trip record and is released when there is neither,
the hold-to-run inputs are RELEASED or INHIBITED by their pattern, the buttons and keys are debounced to their levels and armed
when open, the positions are formed there and then from the counts last seen at the converters (deduced, log entry 20: R24 can
also be read as a sample taken earlier), and a failed section makes its store cause active with raised-at 0. Without host entries,
and coming from a reset, every channel is DISABLED, HELD or IDLE as its Enabled flag and the active causes say, with no run, the
creep reference is set with channel W in IDLE alone, the pump is OFF, and nothing is granted, waits or flows. Outside
initialization the command changes nothing. -/
def Obligations.EndOfInitializationSetsUp : Prop :=
  ∀ s : State,
    (s.phase = .initializing → ∃ t, exec .endOfInitialization s = .next t ∧
      t.phase = .running ∧ t.now = 0 ∧ t.settings = s.settings ∧ t.slp.linkOk = s.slp.linkOk ∧
      t.slp.quiet = (if s.settings.machines.linkQuiet = 0 then none else some s.settings.machines.linkQuiet) ∧
      (s.seu.events = [] → (t.seu.events.map Event.kind).head? = some (.resetDone s.resetCause s.sto.failed)) ∧
      (s.pins.estop = true ∨ s.fis.trip.isSome = true → t.hsc.isolate = true) ∧
      (t.hsc.isolate = true → s.pins.estop = true ∨ t.fis.trip.isSome = true) ∧
      (s.pins.estop = true → (s.cause causeEstop).present = false → (t.cause causeEstop).active = true ∧ (t.cause causeEstop).present = true) ∧
      (∀ i, (t.input i).state = if (s.input i).a = false ∧ (s.input i).b = true then .released else .inhibited) ∧
      (∀ k, contactOf t.siq k =
        { closed := (contactOf s.siq k).closed, pressed := (contactOf s.siq k).closed, armed := !(contactOf s.siq k).closed,
          debounce := none }) ∧
      (t.chan .w).position = s.sfe.rode ∧
      (∀ m, m ≠ .w → let counts := if m = .p then (s.pins.platformA, s.pins.platformB) else (s.pins.hatchA, s.pins.hatchB)
        (t.chan m).position =
          meanPosition (s.sampled m counts.1 counts.2).rawA (s.sampled m counts.1 counts.2).rawB) ∧
      (NoHostEntries s → (∀ m, (s.chan m).live = none) →
        (∀ m, (t.chan m).state = (if (s.params m).enabled = true then (if t.affected m = true then .held else .idle) else .disabled) ∧
          (t.chan m).live = none ∧ (t.chan m).demand = 0 ∧ (t.chan m).flow = 0 ∧ (t.chan m).share = 0 ∧ (t.chan m).applied = 0) ∧
        t.sfe.creepRef = (if (t.chan .w).state = .idle then some s.sfe.rode else none) ∧
        t.hsc.pump = .off ∧ t.hsc.attempt = 0 ∧ t.hsc.timer = none ∧ t.hsc.pressLoss = none ∧ t.hsc.grants = [] ∧ t.hsc.queue = [] ∧
        t.pinFlow = 0) ∧
      ((∃ x ∈ s.sto.failed, x ≠ .records) → (s.causeSetting causeStoreConfig).cls = .crew →
        (t.cause causeStoreConfig).active = true ∧ (t.cause causeStoreConfig).raisedAt = some 0) ∧
      (.records ∈ s.sto.failed → (s.causeSetting causeStoreRecords).cls = .crew →
        (t.cause causeStoreRecords).active = true ∧ (t.cause causeStoreRecords).raisedAt = some 0)) ∧
    (s.phase ≠ .initializing → StoreAtRest s → exec .endOfInitialization s = .next s)

/-! ## Reception -/

/-- A byte with its stop bit takes the receiver from state to state, restarting the gap timer at 25 ms; outside service it is
ignored. -/
def Obligations.ReceivedByteMovesTheReceiver : Prop :=
  ∀ (s : State) (b : Byte), StoreAtRest s →
    (s.phase ≠ .running → exec (.receivedByte b) s = .next s) ∧
    (s.phase = .running →
      (s.slp.rx.state = .hunt → b ≠ 0xC9 → exec (.receivedByte b) s = .next s) ∧
      (s.slp.rx.state = .hunt → b = 0xC9 →
        exec (.receivedByte b) s = .next (setReceiver { Receiver.hunting with state := .syncSeen, gap := some 25 } s)) ∧
      (s.slp.rx.state = .syncSeen → b = 0x36 →
        exec (.receivedByte b) s = .next (setReceiver { s.slp.rx with state := .length, gap := some 25 } s)) ∧
      (s.slp.rx.state = .syncSeen → b = 0xC9 →
        exec (.receivedByte b) s = .next (setReceiver { s.slp.rx with state := .syncSeen, gap := some 25 } s)) ∧
      (s.slp.rx.state = .syncSeen → b ≠ 0x36 → b ≠ 0xC9 →
        exec (.receivedByte b) s = .next (setReceiver Receiver.hunting s)) ∧
      (s.slp.rx.state = .length → b.toNat ≤ 200 →
        exec (.receivedByte b) s = .next (setReceiver { s.slp.rx with state := .code, len := b.toNat, gap := some 25 } s)) ∧
      (s.slp.rx.state = .length → 200 < b.toNat →
        exec (.receivedByte b) s = .next (setReceiver Receiver.hunting s)) ∧
      (s.slp.rx.state = .code → s.slp.rx.len = 0 →
        exec (.receivedByte b) s = .next (setReceiver { s.slp.rx with state := .check, code := b, gap := some 25 } s)) ∧
      (s.slp.rx.state = .code → s.slp.rx.len ≠ 0 →
        exec (.receivedByte b) s = .next (setReceiver { s.slp.rx with state := .payload, code := b, gap := some 25 } s)) ∧
      (s.slp.rx.state = .payload → s.slp.rx.payload.length + 1 < s.slp.rx.len →
        exec (.receivedByte b) s =
          .next (setReceiver { s.slp.rx with payload := s.slp.rx.payload ++ [b], gap := some 25 } s)) ∧
      (s.slp.rx.state = .payload → s.slp.rx.len ≤ s.slp.rx.payload.length + 1 →
        exec (.receivedByte b) s =
          .next (setReceiver { s.slp.rx with state := .check, payload := s.slp.rx.payload ++ [b], gap := some 25 } s)) ∧
      (s.slp.rx.state = .check → s.slp.rx.crcHigh = none →
        exec (.receivedByte b) s = .next (setReceiver { s.slp.rx with crcHigh := some b, gap := some 25 } s)))

/-- A frame broken off by the gap timer or by a framing error, and a completed frame whose CRC disagrees, leave the receiver in
HUNT and change nothing else; in HUNT a framing error and a gap change nothing. -/
def Obligations.DiscardedFrameChangesNothing : Prop :=
  ∀ s : State, StoreAtRest s →
    (s.slp.rx.state ≠ .hunt → exec .gapTimerExpiry s = .next (setReceiver Receiver.hunting s) ∧
      exec .framingError s = .next (setReceiver Receiver.hunting s)) ∧
    (s.slp.rx.state = .hunt → exec .gapTimerExpiry s = .next s ∧ exec .framingError s = .next s) ∧
    exec .crcMismatchFrame s = .next (setReceiver Receiver.hunting s) ∧
    (∀ (low high : Byte), s.phase = .running → s.slp.rx.state = .check → s.slp.rx.crcHigh = some high →
      crcOf (frameBody s.slp.rx.len s.slp.rx.code s.slp.rx.payload) ≠ high ++ low →
      exec (.receivedByte low) s = .next (setReceiver Receiver.hunting s))

/-- Every well-formed request of the link is read back from the code and the payload that chapter 13 lays out for it. What that
chapter leaves open of a layout is the model's choice (log entry 8), and so is what a CONFIGURE MACHINE with an undefined machine
code is at a length that the request has: it is judged by its code there, and by its length at any other. -/
def Obligations.RequestFramesDecodeToTheirRequests : Prop :=
  (∀ (i : Instr) (code : Byte) (payload : List Byte), i.wf = true → encodeRequest i = some (code, payload) →
    parseFrame code payload = .ask i ∧ payload.length ≤ 200) ∧
  parseFrame 0x10 [] = .wrongLength 0x10 ∧
  ∀ (m : Byte) (rest : List Byte), 3 < m.toNat →
    parseFrame 0x10 (m :: rest) = if rest.length ∈ [24, 17, 20, 4] then .undefinedSelector 0x10 else .wrongLength 0x10

/-- Every well-formed request arrives as the bytes of its frame do: fed one after another to a hunting receiver, they change
nothing but the receiver until the last, whose handling is the request's own command, because a request's row stands for its whole
valid frame (the model's choice, log entry 14). A valid frame of a defined CODE with a payload of a length that its layout does not
allow is taken at once and answered REFUSED_LENGTH, and one whose machine code names no layout REFUSED_VALUE (log entry 8); neither
changes any state but the link supervision. -/
def Obligations.FrameBytesAreTheRequest : Prop :=
  (∀ (i : Instr) (code : Byte) (payload : List Byte) (s : State), i.wf = true → encodeRequest i = some (code, payload) →
    s.phase = .running → StoreAtRest s → s.slp.rx = Receiver.hunting →
    feedBytes (frameBytes code payload) s = exec i s) ∧
  (∀ (code c : Byte) (payload : List Byte) (s : State), payload.length ≤ 200 → parseFrame code payload = .wrongLength c →
    Serving s → StoreAtRest s → s.slp.rx = Receiver.hunting →
    feedBytes (frameBytes code payload) s = refusal (code + 0x80) 0x81 s) ∧
  ∀ (code c : Byte) (payload : List Byte) (s : State), payload.length ≤ 200 → parseFrame code payload = .undefinedSelector c →
    Serving s → StoreAtRest s → s.slp.rx = Receiver.hunting →
    feedBytes (frameBytes code payload) s = refusal (code + 0x80) 0x82 s

/-! ## Link supervision and service -/

/-- A valid frame puts the receiver in HUNT, makes LINK_OK true and restarts the link-quiet timer, or leaves it stopped with
LinkQuiet 0; it makes a condition of LINK_LOST absent, and cause 13, which has class SELF and affects no machine, inactive with
FAULT_CLEARED. It changes nothing else when LINK_OK was true and the condition absent, and in every case no configuration, pin,
position, count, clip or source. -/
def Obligations.ValidFrameSupervisesTheLink : Prop :=
  ∀ s : State,
    (heard s).slp = { s.slp with
      rx := Receiver.hunting, linkOk := true
      quiet := if s.settings.machines.linkQuiet = 0 then none else some s.settings.machines.linkQuiet } ∧
    (s.item Item.linkOk = true → (s.cause causeLinkLost).present = false →
      heard s = { s with slp := (heard s).slp }) ∧
    ((s.cause causeLinkLost).present = true → ((heard s).cause causeLinkLost).present = false) ∧
    ((s.cause causeLinkLost).present = true → (s.cause causeLinkLost).active = true → (s.causeSetting causeLinkLost).cls = .self →
      (heard s).cause causeLinkLost = { active := false, present := false, raisedAt := none } ∧
      ((heard s).seu.events.length < 32 → .faultCleared causeLinkLost .self ∈ (heard s).seu.events.map Event.kind)) ∧
    (heard s).phase = s.phase ∧ (heard s).now = s.now ∧ (heard s).pins = s.pins ∧ (heard s).settings = s.settings ∧
    (heard s).sfe.rode = s.sfe.rode ∧ (∀ m, ((heard s).chan m).position = (s.chan m).position) ∧
    (heard s).zae.memory = s.zae.memory ∧ (heard s).zae.clips = s.zae.clips ∧ (heard s).zae.sources = s.zae.sources

/-- A request whose frame comes while one is in service is held, or discarded when one is held already; it still counts as a
valid frame. Outside service it is ignored. -/
def Obligations.RequestWaitsOrIsLost : Prop :=
  ∀ (i : Instr) (s : State), (encodeRequest i).isSome = true →
    (s.phase ≠ .running → exec i s = .next s) ∧
    (s.phase = .running → s.slp.inService.isSome = true → s.slp.held = none →
      exec i s = .next (beginWrite ((heard s).onSlp fun l => { l with held := some (.ask i) }))) ∧
    (s.phase = .running → s.slp.inService.isSome = true → s.slp.held.isSome = true →
      exec i s = .next (beginWrite (heard s)))

/-- The last byte of a reply ends the request in service: the reply to RESET is followed by a reset of cause REQUEST, with the
straps sampled as they stand then (a free value, log entry 10), a held request is taken at once and its reply carries its code
plus 0x80, REFUSED_LENGTH or REFUSED_VALUE (log entry 8) for a held frame that is no request, and with none held the port falls
idle. -/
def Obligations.ReplySentTakesTheHeldRequest : Prop :=
  ∀ s : State,
    (s.slp.inService = none → StoreAtRest s → exec .replySent s = .next s) ∧
    (∀ r, s.slp.inService = some r → r.resets = true →
      ∃ t, exec .replySent s = .next t ∧ StartsOver .request .initializing s.strapsNow s.countStrapRead t) ∧
    (∀ r, s.slp.inService = some r → r.resets = false → s.slp.held = none → StoreAtRest s →
      exec .replySent s = .next (s.onSlp fun l => { l with inService := none })) ∧
    (∀ r code, s.slp.inService = some r → r.resets = false → s.slp.held = some (.wrongLength code) →
      exec .replySent s = .next (answered (code + 0x80) [0x81] (s.onSlp fun l => { l with inService := none, held := none }))) ∧
    (∀ r code, s.slp.inService = some r → r.resets = false → s.slp.held = some (.undefinedSelector code) →
      exec .replySent s =
        .next (answered (code + 0x80) [0x82] (s.onSlp fun l => { l with inService := none, held := none }))) ∧
    (∀ r i, s.slp.inService = some r → r.resets = false → s.slp.held = some (.ask i) → i ≠ .reset →
      exec .replySent s =
        .next (answered (ticketCode (.ask i) + 0x80)
          (serveRequest send i (s.onSlp fun l => { l with inService := none, held := none })).2
          (serveRequest send i (s.onSlp fun l => { l with inService := none, held := none })).1))

/-- When LinkQuiet has passed with no valid frame, LINK_OK becomes false and LINK_LOST is raised, unless it stood raised; its
condition stands from then on, a page in progress is ended, and the timer is stopped. -/
def Obligations.LinkQuietExpiryRaisesLinkLost : Prop :=
  ∀ s : State,
    (s.slp.quiet = none → StoreAtRest s → exec .linkQuietTimerExpiry s = .next s) ∧
    (s.slp.quiet.isSome = true → (s.cause causeLinkLost).present = false → ∃ t, exec .linkQuietTimerExpiry s = .next t ∧
      t.slp = { s.slp with quiet := none, linkOk := false } ∧
      (t.cause causeLinkLost).active = true ∧ (t.cause causeLinkLost).present = true ∧
      ((s.cause causeLinkLost).active = false → (t.cause causeLinkLost).raisedAt = some s.now ∧ t.zae.page = none) ∧
      t.settings = s.settings ∧ t.pins = s.pins ∧ ∀ m, (t.chan m).position = (s.chan m).position)

/-! ## Requests of the link, the status and event unit and the store -/

/-- IDENTIFY is answered in every state with the vendor, part and revision codes, the strap rate and the reset cause; RESET is
answered OK and its reply is marked to be followed by the reset; a frame with an undefined CODE is answered REFUSED_CODE. -/
def Obligations.IdentifyResetAndUndefinedCodes : Prop :=
  ∀ s : State, Serving s →
    exec .identify s = .next (answered 0x81
      ([0x00, 0x00, 0x42, 0x04, 0x60, 0x01] ++ byte (strapsCode s.slp.rate) ++ byte s.resetCause.code) (heard s)) ∧
    exec .reset s = .next (beginWrite ((heard s).onSlp fun l =>
      { l with inService := some { code := 0x82, payload := [0x00], resets := true } })) ∧
    ∀ code : Byte, codeUndefined code = true → exec (.undefinedRequestCode code) s = refusal (code + 0x80) 0x80 s

/-- READ STATUS answers with the group's items as they stand in the handling and the timestamp, and changes nothing; an undefined
group is refused. The items beyond the group's last are false. -/
def Obligations.ReadStatusReportsTheGroup : Prop :=
  ∀ (s : State) (b : Byte), Serving s →
    (∀ g, groupNamed b = some g → exec (.readStatus b) s =
      .next (answered 0x83 ([0x00, b] ++ word ((heard s).groupWord g) ++ long s.now) (heard s))) ∧
    (8 < b.toNat → exec (.readStatus b) s = refusal 0x83 0x82 s) ∧
    (b.toNat ≤ 8 → ∃ g, groupNamed b = some g ∧ g.code = b.toNat ∧
      ∀ k, k < 16 → ((heard s).groupWord g).testBit k = (decide (k < g.size) && peek (heard s).seu.items (16 * g.code + k)))

/-- SET WATCH takes the fields as a whole: an empty set disarms, any other arms with the combined value that stands; no event is
queued. An index above 7, an undefined group, combine or edge, and a place the group does not have are refused. That a disarmed
watch keeps its other fields is the model's choice (log entry 29). -/
def Obligations.SetWatchArmsOrDisarms : Prop :=
  ∀ (s : State) (i g c e : Byte) (items : Half), Serving s →
    (∀ gr cm ed, i.toNat < 8 → groupNamed g = some gr → combineNamed c = some cm → edgeNamed e = some ed →
      items.toNat < 2 ^ gr.size →
      (items = 0 → exec (.setWatch i g items c e) s = .next (answered 0x84 [0x00, 0x00]
        ((heard s).onSeu fun u => { u with
          watches := poke u.watches i.toNat { peek u.watches i.toNat with items := 0, last := none } }))) ∧
      (items ≠ 0 →
        exec (.setWatch i g items c e) s = .next (answered 0x84
          ([0x00, 0x01] ++ flag (combined cm items.toNat ((heard s).groupWord gr)))
          ((heard s).onSeu fun u => { u with
            watches := poke u.watches i.toNat
              { group := gr, items := items.toNat, combine := cm, edge := ed,
                last := some (combined cm items.toNat ((heard s).groupWord gr)) } })))) ∧
    (8 ≤ i.toNat ∨ groupNamed g = none ∨ combineNamed c = none ∨ edgeNamed e = none ∨
        (∃ gr, groupNamed g = some gr ∧ 2 ^ gr.size ≤ items.toNat) →
      exec (.setWatch i g items c e) s = refusal 0x84 0x82 s)

/-- An armed watch whose group changes queues a WATCH event exactly when its combined value moves along its edge, and holds the
new value from then on; a disarmed watch and one of another group do nothing. A command that changes a watched item does this to
every armed watch of the item's group: the SERVICE# input, whose item SERVICE_IN belongs to SYS, and nothing of the other groups. -/
def Obligations.WatchFollowsItsGroup : Prop :=
  (∀ (s : State) (v : Bool), s.phase = .running → StoreAtRest s → NoHostEntries s → s.pins.service = !v →
    s.item Item.serviceIn = !v → ∃ t, exec (.serviceInputChange v) s = .next t ∧
      (∀ q, t.item q = if q = Item.serviceIn then v else s.item q) ∧
      (∀ i, i < 8 →
        let w := peek s.seu.watches i
        let k := t.groupWord .sys
        let new := combined w.combine w.items k
        (w.group ≠ .sys ∨ w.last = none → peek t.seu.watches i = w) ∧
        ∀ old, w.group = .sys → w.last = some old →
          peek t.seu.watches i = { w with last := some new } ∧
          (new ≠ old → (w.edge = .both ∨ w.edge = (if new then .rise else .fall)) → t.seu.events.length < 32 →
            .watch i new k ∈ t.seu.events.map Event.kind)) ∧
      ((∀ i, i < 8 → (peek s.seu.watches i).last = none ∨ (peek s.seu.watches i).group ≠ .sys) → t.seu.events = s.seu.events)) ∧
  ∀ (s : State) (g : Group) (i : Nat), i < 8 →
    ((peek s.seu.watches i).last = none ∨ (peek s.seu.watches i).group ≠ g → evalWatch g s i = s) ∧
    (∀ old, (peek s.seu.watches i).last = some old → (peek s.seu.watches i).group = g →
      let w := peek s.seu.watches i
      let new := combined w.combine w.items (s.groupWord g)
      (evalWatch g s i).seu.items = s.seu.items ∧
      (∀ j, peek (evalWatch g s i).seu.watches j =
        if j = i then { w with last := some new } else peek s.seu.watches j) ∧
      (new = old → (evalWatch g s i).seu.events = s.seu.events) ∧
      (new ≠ old → (w.edge = .both ∨ w.edge = (if new then .rise else .fall)) →
        (evalWatch g s i).seu.events =
          pushEvent { kind := .watch i new (s.groupWord g), time := s.now, lost := false } s.seu.events) ∧
      (new ≠ old → w.edge = (if new then .fall else .rise) → (evalWatch g s i).seu.events = s.seu.events))

/-- A record is appended at the tail while fewer than 32 wait; otherwise it is dropped and the tail record is marked LOST, all
other records staying as they were. -/
def Obligations.EventQueueAppendsOrMarksLost : Prop :=
  ∀ (e : Event) (q : List Event),
    (q.length < 32 → pushEvent e q = q ++ [e]) ∧
    (32 ≤ q.length → ∃ front tail, q = front ++ [tail] ∧ pushEvent e q = front ++ [{ tail with lost := true }])

/-- ATN# is low in service exactly while records wait. FETCH EVENTS removes records from the head, at most the clamped count and
no more than the payload holds, stopping only at the count, at the end of the queue or at a record that does not fit; the reply
carries them in order and the number left. It never leaves a waiting queue untouched, and its payload never exceeds 200 bytes. -/
def Obligations.FetchEventsTakesFromTheHead : Prop :=
  (∀ s : State, s.atnLow = true ↔ s.phase = .running ∧ s.seu.events ≠ []) ∧
  ∀ (s : State) (b : Byte), Serving s → ∃ k payload,
    exec (.fetchEvents b) s = .next (answered 0x85 payload
      ((heard s).onSeu fun u => { u with events := u.events.drop k })) ∧
    payload = (if 1 ≤ b.toNat ∧ b.toNat ≤ 8 then [0x00] else [0x01]) ++ long s.now ++
      byte (min k (heard s).seu.events.length) ++ ((heard s).seu.events.take k).flatMap Event.bytes ++
      byte ((heard s).seu.events.length - k) ∧
    payload.length ≤ 200 ∧
    k ≤ max 1 (min b.toNat 8) ∧ k ≤ (heard s).seu.events.length ∧ ((heard s).seu.events ≠ [] → 1 ≤ k) ∧
    (k = max 1 (min b.toNat 8) ∨ k = (heard s).seu.events.length ∨
      ∃ e, (heard s).seu.events[k]? = some e ∧ 200 < payload.length + e.bytes.length)

/-- SAVE SETTINGS leaves every section named pending with the host mark, or being written under it, keeps every other pending
entry as it was and makes no section pending that is not named, and reports the sections that are pending; the section order and a
write in progress stay. The reply is judged when the write that can begin has begun. -/
def Obligations.SaveSettingsRequestsWrites : Prop :=
  ∀ (s : State) (x : Byte), Serving s → StoreOrdered s → ∃ u,
    exec (.saveSettings x) s = .next (answered 0x86
      (0x00 :: set8 fun k => u.sto.queue.any fun e => sectionCode e.1 == k) u) ∧
    (∀ n, x.getLsbD (sectionCode n) = true → (n, true) ∈ u.sto.queue ∨
      (s.sto.writing = none ∧ ∃ w, u.sto.writing = some w ∧ w.mark = true ∧ w.data = contentsNow u n)) ∧
    (∀ w, s.sto.writing = some w → u.sto.writing = some w) ∧
    (∀ e ∈ (heard s).sto.queue, (∃ m, (e.1, m) ∈ u.sto.queue) ∨
      (s.sto.writing = none ∧ ∃ w, u.sto.writing = some w ∧ w.data.name = e.1)) ∧
    (x = 0 → (heard s).sto.queue = [] → u = heard s) ∧
    (NoHostEntries s →
      (∀ e ∈ u.sto.queue, x.getLsbD (sectionCode e.1) = false → e ∈ (heard s).sto.queue) ∧
      (s.sto.writing = none → ∀ w, u.sto.writing = some w → x.getLsbD (sectionCode w.data.name) = true ∨
        ∃ e ∈ (heard s).sto.queue, e.1 = w.data.name)) ∧
    StoreOrdered u ∧ StoreAtRest u ∧
    u.settings = s.settings ∧ u.phase = s.phase ∧ u.now = s.now ∧ u.pins = s.pins ∧ u.slp = (heard s).slp

/-! ## Requests of the machine controller, the sensor front end and the supply -/

/-- CONFIGURE MACHINE naming W, P or H is taken as a whole: refused for an undefined code, in a running state, and when it would
enable a machine under a pressed input; otherwise every number is taken to the nearest end of its range, Vcreep to the Vmax of the
same request, the reply is OK exactly when every written value equals its field and OK_CLAMPED otherwise, and the calibration, the
other machines and every other section stay. That an undefined Enabled is refused before the channel's state is looked at is the
model's choice (log entry 25). -/
def Obligations.ConfigureMachineTakesTheWhole : Prop :=
  ∀ (s : State) (b : Byte) (f : MachineFields), Serving s →
    (machineNamed b = none ∨ yesNoNamed f.enabled = none →
      exec (.configureMachine b f) s = refusal 0x90 0x82 s) ∧
    (∀ m en, machineNamed b = some m → yesNoNamed f.enabled = some en → machineLayout b f.tail = true →
      (((heard s).chan m).state.isRunning = true ∨
          (en = true ∧ (s.params m).enabled = false ∧ (heard s).allReleased m = false) →
        exec (.configureMachine b f) s = refusal 0x90 0x83 s) ∧
      (((heard s).chan m).state.isRunning = false →
          (en = true → (s.params m).enabled = false → (heard s).allReleased m = true) → ∃ u st,
        exec (.configureMachine b f) s = .next (answered 0x90 [st] u) ∧ (st = 0x00 ∨ st = 0x01) ∧
        (st = 0x00 ↔ (u.params m).vmax = f.vmax.toNat ∧ (u.params m).vcreep = f.vcreep.toNat ∧
          (u.params m).slowOut = f.slowOut.toNat ∧ (u.params m).slowIn = f.slowIn.toNat ∧ (u.params m).rampUp = f.rampUp.toNat ∧
          (u.params m).rampDown = f.rampDown.toNat ∧ (u.params m).qmax = f.qmax.toNat ∧ (u.params m).endBand = f.endBand.toNat ∧
          (match f.tail with
            | .windlass pitch rodeMax demand time creep => u.settings.machines.windlass =
                { pocketPitch := pitch.toNat, rodeMax := rodeMax.toNat, stallDemand := demand.toNat, stallTime := time.toNat,
                  creepPockets := creep.toNat }
            | .platform tol dis => u.settings.machines.platform.tol = tol.toNat ∧
                u.settings.machines.platform.disagreeCount = dis.toNat
            | .hatch tol dis pins lock => u.settings.machines.hatch.tol = tol.toNat ∧
                u.settings.machines.hatch.disagreeCount = dis.toNat ∧ u.settings.machines.pinsFlow = pins.toNat ∧
                u.settings.machines.lockTime = lock.toNat)) ∧
        u.params m =
          { enabled := en
            vmax := max 100 (min f.vmax.toNat 1000)
            vcreep := max 20 (min f.vcreep.toNat (max 100 (min f.vmax.toNat 1000)))
            slowOut := min f.slowOut.toNat (if m = .w then 400 else 500)
            slowIn := min f.slowIn.toNat (if m = .w then 400 else 500)
            rampUp := max 1 (min f.rampUp.toNat 200)
            rampDown := max 1 (min f.rampDown.toNat 500)
            qmax := max 1 (min f.qmax.toNat 400)
            endBand := min f.endBand.toNat (if m = .w then 0 else 50) } ∧
        (∀ k, k ≠ m → u.params k = s.params k) ∧
        (∀ pitch rodeMax demand time creep, f.tail = .windlass pitch rodeMax demand time creep →
          u.settings.machines.windlass =
            { pocketPitch := max 20 (min pitch.toNat 400), rodeMax := max 10 (min rodeMax.toNat 4000),
              stallDemand := max 50 (min demand.toNat 1000), stallTime := max 500 (min time.toNat 10000),
              creepPockets := max 1 (min creep.toNat 50) } ∧
          u.sfe.rode = min s.sfe.rode (max 10 (min rodeMax.toNat 4000)) ∧
          u.settings.machines.platform = s.settings.machines.platform ∧ u.settings.machines.hatch = s.settings.machines.hatch) ∧
        (∀ tol dis, f.tail = .platform tol dis →
          u.settings.machines.platform = { s.settings.machines.platform with
            tol := max 10 (min tol.toNat 200), disagreeCount := max 1 (min dis.toNat 20) } ∧
          (u.sensors .p).disagree = min (s.sensors .p).disagree (max 1 (min dis.toNat 20)) ∧
          u.settings.machines.windlass = s.settings.machines.windlass ∧ u.settings.machines.hatch = s.settings.machines.hatch) ∧
        (∀ tol dis pins lock, f.tail = .hatch tol dis pins lock →
          u.settings.machines.hatch = { s.settings.machines.hatch with
            tol := max 10 (min tol.toNat 200), disagreeCount := max 1 (min dis.toNat 20) } ∧
          u.settings.machines.pinsFlow = max 1 (min pins.toNat 100) ∧
          u.settings.machines.lockTime = max 500 (min lock.toNat 15000) ∧
          (u.sensors .h).disagree = min (s.sensors .h).disagree (max 1 (min dis.toNat 20)) ∧
          u.settings.machines.windlass = s.settings.machines.windlass ∧
          u.settings.machines.platform = s.settings.machines.platform) ∧
        (NoHostEntries s →
          (en = false → (u.chan m).state = .disabled) ∧
          (en = true → ((heard s).chan m).state = .disabled → (heard s).allReleased m = true →
            (u.chan m).state = if (heard s).affected m then .held else .idle) ∧
          (en = true → ((heard s).chan m).state ≠ .disabled → (u.chan m).state = ((heard s).chan m).state)) ∧
        u.settings = { s.settings with machines := u.settings.machines } ∧
        u.settings.machines.refreshTime = s.settings.machines.refreshTime ∧
        u.settings.machines.linkQuiet = s.settings.machines.linkQuiet ∧ u.pins = s.pins ∧
        ∀ k, (u.chan k).position = (s.chan k).position))

/-- CONFIGURE MACHINE naming GLOBAL writes RefreshTime and LinkQuiet, 0 of the latter kept, restarts the link-quiet timer at the
new LinkQuiet or stops it, and changes nothing else. -/
def Obligations.ConfigureGlobalRestartsTheLinkQuietTimer : Prop :=
  ∀ (s : State) (r q : Half), Serving s →
    let r' := max 100 (min r.toNat 1000)
    let q' := if q.toNat = 0 then 0 else max 500 (min q.toNat 30000)
    exec (.configureMachineGlobal r q) s = .next (answered 0x90 [if r' = r.toNat ∧ q' = q.toNat then 0x00 else 0x01]
      { heard s with
        settings := { s.settings with machines := { s.settings.machines with refreshTime := r', linkQuiet := q' } }
        slp := { (heard s).slp with quiet := if q' = 0 then none else some q' } })

/-- A RUN that fails a check is answered with the status of the first one it fails, and changes nothing: an undefined machine or
direction; a DISABLED channel; one HELD or affected by an active cause; one that runs; a VALID input of the machine, an
uncalibrated sensor or ISOLATE; a matching BLOCK entry; a target that is not on the run's side of the position. -/
def Obligations.RunRefusedByTheFirstCheckThatFails : Prop :=
  ∀ (s : State) (b db : Byte) (t : Option Half), Serving s →
    (machineNamed b = none ∨ directionNamed db = none → exec (.run b db t) s = refusal 0x92 0x82 s) ∧
    ∀ m d, machineNamed b = some m → directionNamed db = some d →
      let u := heard s
      let st := (u.chan m).state
      (st = .disabled → exec (.run b db t) s = refusal 0x92 0x83 s) ∧
      (st ≠ .disabled → st = .held ∨ u.affected m = true → exec (.run b db t) s = refusal 0x92 0x85 s) ∧
      (st ≠ .disabled → st ≠ .held → st ≠ .idle → u.affected m = false → exec (.run b db t) s = refusal 0x92 0x83 s) ∧
      (st = .idle → u.affected m = false →
        (u.anyValid m = true ∨ u.uncalibrated m = true ∨ u.hsc.isolate = true → exec (.run b db t) s = refusal 0x92 0x83 s) ∧
        (u.anyValid m = false → u.uncalibrated m = false → u.hsc.isolate = false →
          (u.blockMatches m d = true → exec (.run b db t) s = refusal 0x92 0x84 s) ∧
          (u.blockMatches m d = false → ∀ x, t = some x → ¬ (m = .w ∧ d = .inward ∧ x = 0) →
            (d = .outward → min x.toNat (u.positionTop m) ≤ (u.chan m).position → exec (.run b db t) s = refusal 0x92 0x82 s) ∧
            (d = .inward → (u.chan m).position ≤ min x.toNat (u.positionTop m) → (m = .w → min x.toNat (u.positionTop m) ≠ 0) →
              exec (.run b db t) s = refusal 0x92 0x82 s))))

/-- A RUN for an IDLE channel that no active cause affects, with no VALID input, no uncalibrated sensor, ISOLATE released, no
BLOCK entry that matches and a target on the run's side of the position, creates a LINK run: its record, DIR_OUT, the run counter,
the refresh timer, and the state that the grant decides. With a free slot the channel is granted and is in MOVING or, for a hatch
to be opened with its pins not drawn, in UNLOCKING while the pump is confirmed, in PRIMING while it is not; a pump that was OFF
starts, a run-on ends. With no free slot it is WAITING at the tail of the queue. The reply carries run id, state and recorded
target. -/
def Obligations.RunAcceptedCreatesALinkRun : Prop :=
  ∀ (s : State) (b db : Byte) (t : Option Half) (m : MachineId) (d : Direction), Serving s → NoHostEntries s →
    machineNamed b = some m → directionNamed db = some d →
    let u := heard s
    let c := u.chan m
    let clamped := t.map fun x => min x.toNat (u.positionTop m)
    let target := if m = .w ∧ d = .inward ∧ clamped = some 0 then none else clamped
    let granted := if m = .h ∧ d = .outward ∧ s.pins.pinsUl = false then ChanState.unlocking else ChanState.moving
    c.state = .idle → u.affected m = false → u.anyValid m = false → u.uncalibrated m = false → u.hsc.isolate = false →
    u.blockMatches m d = false →
    (∀ x, target = some x → (d = .outward → c.position < x) ∧ (d = .inward → x < c.position)) →
    (m = .w → (u.cause causeCreep).active = false) → (u.hsc.pump = .off → u.hsc.grants = []) →
    (m = .h → s.pins.pinsUl = true ∨ d = .outward ∨ u.atInEnd .h = true) →
    ∃ v, exec (.run b db t) s = .next (answered 0x92
        ((if clamped = t.map BitVec.toNat then [0x00] else [0x01]) ++ word c.counter ++ byte (v.chan m).state.code ++
          optional word target) v) ∧
      (v.chan m).live = some
        { id := c.counter, origin := .link, dir := d, target := target, startPos := c.position, endReason := none,
          cause := none, endPos := none } ∧
      (v.chan m).last = none ∧ (v.chan m).counter = (c.counter + 1) % 65536 ∧ (v.chan m).dirOut = decide (d = .outward) ∧
      (v.chan m).refresh = some s.settings.machines.refreshTime ∧ (v.chan m).position = c.position ∧ (v.chan m).demand = 0 ∧
      (u.hsc.grants.length < 2 → v.hsc.grants = u.hsc.grants ++ [m] ∧ v.hsc.queue = u.hsc.queue ∧
        (u.hsc.pump = .off → s.pins.pressureOk = false →
          (v.chan m).state = .priming ∧ v.hsc.pump = .starting ∧ v.hsc.attempt = 1 ∧
            v.hsc.timer = some s.settings.hsu.primeTime) ∧
        (u.hsc.pump = .off → s.pins.pressureOk = true → (v.chan m).state = granted ∧ v.hsc.pump = .running) ∧
        (u.hsc.pump = .starting ∨ u.hsc.pump = .retryGap →
          (v.chan m).state = .priming ∧ v.hsc.pump = u.hsc.pump ∧ v.hsc.timer = u.hsc.timer) ∧
        (u.hsc.pump = .running ∨ u.hsc.pump = .runOn → (v.chan m).state = granted ∧ v.hsc.pump = .running)) ∧
      (2 ≤ u.hsc.grants.length → (v.chan m).state = .waiting ∧ v.hsc.queue = u.hsc.queue ++ [m] ∧
        v.hsc.grants = u.hsc.grants ∧ v.hsc.pump = u.hsc.pump) ∧
      (∀ k, k ≠ m → (v.chan k).state = (u.chan k).state ∧ (v.chan k).live = (u.chan k).live ∧
        (v.chan k).last = (u.chan k).last ∧ (v.chan k).position = (u.chan k).position ∧ (v.chan k).demand = (u.chan k).demand) ∧
      v.settings = s.settings ∧ v.pins = s.pins ∧ v.siq = u.siq ∧ v.slp = u.slp ∧ v.sfe.rode = s.sfe.rode

/-- REFRESH restarts the timer of the live LINK run of that id that has no end reason yet, and is refused in every other case. At
expiry of the timer REFRESH_MISSED is taken for the run as a ramped reason; while no refresh timer runs there is no expiry. -/
def Obligations.RefreshTimerIsRestartedOrExpires : Prop :=
  (∀ (s : State) (b : Byte) (id : Half), Serving s →
    (machineNamed b = none → exec (.refresh b id) s = refusal 0x93 0x82 s) ∧
    ∀ m, machineNamed b = some m →
      (∀ r, ((heard s).chan m).live = some r → r.origin = .link → r.id = id.toNat → r.endReason = none →
        exec (.refresh b id) s = .next (answered 0x93 [0x00]
          (setChan m { (heard s).chan m with refresh := some s.settings.machines.refreshTime } (heard s)))) ∧
      ((∀ r, ((heard s).chan m).live = some r → r.origin = .station ∨ r.id ≠ id.toNat ∨ r.endReason.isSome = true) →
        exec (.refresh b id) s = refusal 0x93 0x83 s)) ∧
  (∀ (s : State) (m : MachineId), StoreAtRest s → (s.chan m).refresh = none → exec (.refreshTimerExpiry m) s = .next s) ∧
  ∀ (s : State) (m : MachineId), (s.chan m).refresh ≠ none → NoHostEntries s → ∃ t, exec (.refreshTimerExpiry m) s = .next t ∧
    RampedEnd m .refreshMissed (setChan m { s.chan m with refresh := none } s) t

/-- STOP is answered OK. Every hold-to-run input of the machines named is inhibited, whatever its state but RELEASED and FAULTED,
and a live run takes LINK_STOP as a ramped reason: so for one machine named, and for ALL with nobody waiting, where every run in
MOVING goes to STOPPING with its grant, every run in PRIMING or UNLOCKING is completed, and one in STOPPING or LOCKING stays as it
is. An undefined machine code is refused. -/
def Obligations.StopInhibitsAndEndsTheRun : Prop :=
  ∀ (s : State) (b : Byte), Serving s →
    (machinesNamed b = none → exec (.stop b) s = refusal 0x94 0x82 s) ∧
    (∀ ms, machinesNamed b = some ms → ∃ u, exec (.stop b) s = .next (answered 0x94 [0x00] u) ∧
      (∀ i, i.machine ∈ ms → u.input i = ((heard s).input i).inhibited s.settings.stations.releaseTime) ∧
      u.settings = s.settings ∧ u.pins = s.pins ∧ u.slp = (heard s).slp ∧ u.sfe.rode = s.sfe.rode ∧
      (∀ m, (u.chan m).position = (s.chan m).position) ∧
      (∀ m, ms = [m] → Undisturbed (heard s) → RampedEnd m .linkStop (heard s) u) ∧
      (ms = [.w, .p, .h] → Undisturbed (heard s) → (heard s).hsc.queue = [] →
        (∀ m r, ((heard s).chan m).live = some r →
          (((heard s).chan m).state = .moving → ((heard s).chan m).demand ≠ 0 →
            (u.chan m).state = .stopping ∧ (u.chan m).live = some { r with endReason := some (r.endReason.getD .linkStop) } ∧
            (u.chan m).refresh = none ∧ (u.chan m).demand = ((heard s).chan m).demand) ∧
          (((heard s).chan m).state = .priming ∨ ((heard s).chan m).state = .unlocking →
            (u.chan m).state = .idle ∧ (u.chan m).live = none ∧ (u.chan m).refresh = none ∧
            (u.chan m).last =
              some { r with endReason := some (r.endReason.getD .linkStop), endPos := some ((heard s).chan m).position }) ∧
          (((heard s).chan m).state = .stopping ∨ ((heard s).chan m).state = .locking →
            (u.chan m).state = ((heard s).chan m).state ∧ (u.chan m).live = some r)) ∧
        ((∀ m, ((heard s).chan m).state = .moving → ((heard s).chan m).demand ≠ 0) →
          u.hsc.grants = (([.w, .p, .h] : List MachineId).filter fun m => ((heard s).chan m).state == .waiting ||
            ((heard s).chan m).state == .priming || ((heard s).chan m).state == .unlocking).foldl List.erase (heard s).hsc.grants)))

/-- SET RODE is refused outside IDLE and, for a count other than 0, while HOME is closed; otherwise the count, clamped to RodeMax,
is taken and known, the creep reference follows, RECORDS is requested, and the machine position waits for its sample. -/
def Obligations.SetRodeSetsTheCount : Prop :=
  ∀ (s : State) (b : Half), Serving s →
    let n := min b.toNat s.settings.machines.windlass.rodeMax
    (((heard s).chan .w).state ≠ .idle ∨ (s.pins.home = true ∧ n ≠ 0) → exec (.setRode b) s = refusal 0x95 0x83 s) ∧
    (((heard s).chan .w).state = .idle → (s.pins.home = true → n = 0) → ∃ u,
      exec (.setRode b) s = .next (answered 0x95 [if n = b.toNat then 0x00 else 0x01] u) ∧
      u.sfe.rode = n ∧ u.sfe.rodeUnknown = false ∧ isPending .records u.sto.queue = true ∧
      (NoHostEntries s → u.sfe = { (heard s).sfe with rode := n, rodeUnknown := false, creepRef := some n } ∧
        u.mc = (heard s).mc ∧ u.hsc = (heard s).hsc ∧ u.fis = (heard s).fis ∧ u.siq = (heard s).siq) ∧
      u.settings = s.settings ∧ u.pins = s.pins ∧ u.slp = (heard s).slp ∧ (u.chan .w).position = (s.chan .w).position)

/-- CALIBRATE names P or H and an end; it captures the counts of the last sample as c0 or as c1 of both sensors, keeps the other
ones, sets the disagreement count to 0 and replies with the four counts. It is refused for other codes, in a running state and in
DISABLED, and when a sensor would be left with c0 equal to c1. -/
def Obligations.CalibrateCapturesTheLastCounts : Prop :=
  ∀ (s : State) (b : Byte) (e : Half), Serving s →
    (machineNamed b = none ∨ machineNamed b = some .w ∨ (e ≠ 0 ∧ e ≠ 1000) → exec (.calibrate b e) s = refusal 0x96 0x82 s) ∧
    ∀ m, machineNamed b = some m → m ≠ .w → (e = 0 ∨ e = 1000) →
      let x := s.sensors m
      let p := s.sensorParams m
      let a : Calibration := if e = 0 then { p.calA with c0 := x.countA } else { p.calA with c1 := x.countA }
      let c : Calibration := if e = 0 then { p.calB with c0 := x.countB } else { p.calB with c1 := x.countB }
      let st := ((heard s).chan m).state
      (st.isRunning = true ∨ st = .disabled → exec (.calibrate b e) s = refusal 0x96 0x83 s) ∧
      (st.isRunning = false → st ≠ .disabled →
        (a.c0 = a.c1 ∨ c.c0 = c.c1 → exec (.calibrate b e) s = refusal 0x96 0x82 s) ∧
        (a.c0 ≠ a.c1 → c.c0 ≠ c.c1 → ∃ u,
          exec (.calibrate b e) s = .next (answered 0x96 (0x00 :: (word a.c0 ++ word a.c1 ++ word c.c0 ++ word c.c1)) u) ∧
          u.sensorParams m = { p with calA := a, calB := c } ∧ u.uncalibrated m = false ∧
          u.sensors m = { x with disagree := 0 } ∧
          u.settings = { s.settings with machines := u.settings.machines } ∧
          u.settings.machines.common = s.settings.machines.common ∧
          (m = .p → u.settings.machines.hatch = s.settings.machines.hatch) ∧
          (m = .h → u.settings.machines.platform = s.settings.machines.platform) ∧
          (∀ k, (u.chan k).position = (s.chan k).position) ∧ u.pins = s.pins))

/-- CONFIGURE HSU is accepted while nothing is granted and nothing waits, each value clamped to its range; otherwise it is refused.
Nothing else changes, the run-on timer included. -/
def Obligations.ConfigureHsuWhileNothingIsGranted : Prop :=
  ∀ (s : State) (f p r : Half) (n : Byte), Serving s →
    ((heard s).hsc.grants ≠ [] ∨ (heard s).hsc.queue ≠ [] → exec (.configureHsu f p n r) s = refusal 0xA0 0x83 s) ∧
    ((heard s).hsc.grants = [] → (heard s).hsc.queue = [] →
      let x : HsuSettings :=
        { fcap := max 10 (min f.toNat 600), primeTime := max 200 (min p.toNat 5000), primeTries := max 1 (min n.toNat 5),
          runOn := min r.toNat 60000 }
      exec (.configureHsu f p n r) s = .next (answered 0xA0
        [if x.fcap = f.toNat ∧ x.primeTime = p.toNat ∧ x.primeTries = n.toNat ∧ x.runOn = r.toNat then 0x00 else 0x01]
        { heard s with settings := { s.settings with hsu := x } }))

/-! ## Reading -/

/-- READ MACHINE is answered in every channel state with the channel, its runs, its timer and its parameters, in the order of
chapter 13, and then with what the machine reports alone; it changes nothing. What the chapter leaves open of the layout is the
model's choice (log entry 8). -/
def Obligations.ReadMachineReportsTheChannel : Prop :=
  ∀ (s : State) (b : Byte), Serving s →
    (2 < b.toNat → exec (.readMachine b) s = refusal 0x91 0x82 s) ∧
    (∀ m, machineNamed b = some m →
      let u := heard s
      let c := u.chan m
      let p := s.params m
      let x := s.settings.machines
      let two := fun k : MachineId =>
        let r := s.sensors k
        let q := s.sensorParams k
        let raw := fun y : Int => longInt y ++ word (clampedPosition (some y))
        word r.countA ++ word r.countB ++ optional raw r.rawA ++ optional raw r.rawB ++ word q.calA.c0 ++ word q.calA.c1 ++
          word q.calB.c0 ++ word q.calB.c1 ++ byte r.disagree ++ flag r.sensorBad ++ flag r.overtravel ++ flag (u.item (Item.atIn k)) ++
          flag (u.item (Item.atOut k)) ++ flag (u.item (Item.uncalibrated k)) ++ flag (u.item (Item.conflict k))
      let own := match m with
        | .w => word x.windlass.pocketPitch ++ word x.windlass.rodeMax ++ word x.windlass.stallDemand ++ word x.windlass.stallTime ++
            byte x.windlass.creepPockets
        | .p => byte x.platform.tol ++ byte x.platform.disagreeCount
        | .h => byte x.hatch.tol ++ byte x.hatch.disagreeCount ++ byte x.pinsFlow ++ word x.lockTime
      let alone := match m with
        | .w => word s.sfe.rode ++ long (s.sfe.rode * x.windlass.pocketPitch / 10) ++ flag (u.item Item.rodeUnknown) ++
            flag (u.item Item.atHome) ++ flag (u.item Item.atRodeMax) ++ flag (u.item Item.brakeReleased) ++
            optional word u.sfe.creepRef ++ optional word u.sfe.stall ++ flag s.sfe.overload.isSome ++ [0xC8]
        | .p => two .p ++ flag (u.item Item.ladderDown) ++ flag (u.item Item.matOccupied)
        | .h => two .h ++ flag (u.item Item.cradleHome) ++ flag (u.item Item.pinsLocked) ++ flag (u.item Item.pinsUnlocked) ++
            flag (u.item Item.unsecured) ++ flag (decide ((u.chan .h).state = .unlocking)) ++
            flag (decide ((u.chan .h).state = .locking)) ++ optional word u.sfe.pinTimer
      exec (.readMachine b) s = .next (answered 0x91
        (0x00 :: (byte c.state.code ++ word c.position ++ word c.demand ++ word c.flow ++ word c.share ++ word c.applied ++
          optional RunRec.bytes c.live ++ optional RunRec.bytes c.last ++ optional word c.refresh ++
          flag p.enabled ++ word p.vmax ++ word p.vcreep ++ word p.slowOut ++ word p.slowIn ++ byte p.rampUp ++
          word p.rampDown ++ word p.qmax ++ byte p.endBand ++ own ++ word x.refreshTime ++ word x.linkQuiet ++ alone)) u))

/-- READ HSU, READ FAULTS and READ INTERLOCK are answered in every state with what they report, in the order of their rules, and
change nothing; an interlock index above 23 is refused. What chapter 13 leaves open of the layouts is the model's choice (log
entry 8). -/
def Obligations.ReadHsuFaultsAndInterlocks : Prop :=
  ∀ (s : State), Serving s →
    let u := heard s
    let h := u.hsc
    let x := s.settings.hsu
    exec .readHsu s = .next (answered 0xA1
      (0x00 :: (byte h.pump.code ++ byte h.attempt ++ optional word h.timer ++ flag s.pins.pressureOk ++ flag s.pins.oilHot ++
        flag h.pressLoss.isSome ++
        counted (fun m => byte (machineCode m) ++ byte (u.chan m).state.code ++ word (u.chan m).flow ++ word (u.chan m).share ++
          word (u.chan m).applied) h.grants ++
        counted (fun m => byte (machineCode m)) h.queue ++ word h.pn ++ word h.avail ++ word h.total ++ flag h.scaled ++
        flag h.isolate ++ word x.fcap ++ word x.primeTime ++ byte x.primeTries ++ word x.runOn)) u) ∧
    exec .readFaults s = .next (answered 0xB3
      (0x00 :: ((List.range 16).flatMap (fun c =>
          flag (u.cause c).active ++ flag (u.cause c).present ++ byte (s.causeSetting c).cls.code ++ flag (s.causeSetting c).trip ++
            optional long (u.cause c).raisedAt) ++
        byte (faultedMask s.fis.faulted) ++
        optional (fun t : TripRec => byte t.cause ++ long t.time ++ word t.rode ++ flag t.restored) u.fis.trip ++
        flag s.pins.estop ++ flag s.pins.service ++ flag h.isolate)) u) ∧
    ∀ b : Byte,
      (23 < b.toNat → exec (.readInterlock b) s = refusal 0xB1 0x82 s) ∧
      (b.toNat ≤ 23 → s.entry b.toNat = none →
        exec (.readInterlock b) s = .next (answered 0xB1 [0x00, 0x00, if b.toNat < 3 then 0x01 else 0x00, 0x00] u)) ∧
      (∀ e, b.toNat ≤ 23 → s.entry b.toNat = some e →
        exec (.readInterlock b) s = .next (answered 0xB1
          (0x00 :: (byte (machineCode e.machine) ++
            byte (match e.dir with
              | some d => directionCode d
              | none => 2) ++
            byte e.item.group.code ++ byte e.item.place ++ flag e.sense ++
            (match e.action with
             | .block => [0x01]
             | .cap v => 0x02 :: word v) ++
            flag (decide (b.toNat < 3)) ++ flag (u.item e.item == e.sense))) u))

/-- READ STATIONS and the five parts of READ AUDIO are answered in every state with what they report, in the order of their rules,
and change nothing; a part above 4 is refused. The time left of a wait for a repeat stands in milliseconds, 48 frames each, with
the rounding of a rest a free value (log entry 7), and what chapter 13 leaves open of the layouts is the model's choice (log entry
8). -/
def Obligations.ReadStationsAndAudio : Prop :=
  ∀ (s : State), Serving s →
    let u := heard s
    let p := s.settings.stations
    let contact := fun k : ContactId => flag (contactOf s.siq k).closed ++ flag (contactOf s.siq k).pressed ++
      flag (contactOf s.siq k).armed ++ optional word (contactOf s.siq k).debounce
    exec .readStations s = .next (answered 0xC1
      (0x00 :: (byte 6 ++
        ([⟨.w, .outward⟩, ⟨.w, .inward⟩, ⟨.p, .outward⟩, ⟨.p, .inward⟩, ⟨.h, .outward⟩, ⟨.h, .inward⟩] : List HoldInput).flatMap
          (fun i => byte (u.input i).state.code ++ flag (s.input i).a ++ flag (s.input i).b ++
            byte (patternOf (s.input i).a (s.input i).b).code ++
            byte (((u.input i).timer.map fun t => t.1.code).getD 0) ++ optional word ((u.input i).timer.map Prod.snd)) ++
        byte (faultedMask s.fis.faulted) ++ byte 6 ++ contact (.display .w) ++ contact (.display .p) ++ contact (.display .h) ++
        contact (.reset .w) ++ optional word s.siq.longPress.w ++ contact (.reset .p) ++ optional word s.siq.longPress.p ++
        contact (.reset .h) ++ optional word s.siq.longPress.h ++
        byte 8 ++ (List.finRange 8).flatMap (fun k => contact (.key k)) ++
        byte 8 ++ p.bindings.toList.flatMap (fun z => byte (z.getD 0xFF)) ++
        byte p.qualifyTime ++ byte p.releaseTime ++ word p.disagreeTime)) u) ∧
    (∀ b : Byte, 4 < b.toNat → exec (.readAudio b) s = refusal 0xDB 0x82 s) ∧
    exec (.readAudio 0) s = .next (answered 0xDB
      (0x00 :: (byte 3 ++ (List.range 3).flatMap (fun n =>
        let x := s.source n
        let c := s.sourceConfig n
        byte x.state.code ++ byte x.cls.code ++ optional (fun y : RateClass × Nat => byte y.1.code ++ byte y.2) x.candidate ++
          word x.lastCount ++ word x.fifo.length ++ word (c.count * 128) ++ word (c.count * 128 / 2) ++
          flag (decide (c.highMark ≤ x.fifo.length)) ++ flag (u.item (Item.sourceLow n)) ++ flag (u.item (Item.sourceXrun n)) ++
          flag c.enabled ++ byte c.word ++ flag c.mono ++ byte c.start ++ byte c.count ++ word c.lowMark ++
          word c.highMark))) u) ∧
    exec (.readAudio 1) s = .next (answered 0xDB
      (0x00 :: (byte 8 ++ (List.range 8).flatMap (fun z =>
          byte ((s.zoneConfig z).source.getD 3) ++ byte (s.zoneConfig z).volume ++ flag (s.zoneConfig z).fold ++
            flag (s.zoneConfig z).safety ++ byte (s.zoneConfig z).level ++ flag (s.zone z).quiet ++ byte (s.zone z).duck) ++
        byte 3 ++ ([.w, .p, .h] : List MachineId).flatMap (fun m =>
          byte ((s.announce m).clip.getD 0xFF) ++ set8 (peek (s.announce m).zones) ++ byte (s.announce m).duck ++
            word (s.announce m).repeatInterval))) u) ∧
    exec (.readAudio 2) s = .next (answered 0xDB
      (0x00 :: (byte 64 ++ s.zae.owners.toList.flatMap (fun o => byte o.code))) u) ∧
    exec (.readAudio 3) s = .next (answered 0xDB
      (0x00 :: (byte 16 ++ (List.range 16).flatMap (fun k =>
        byte (s.clip k).state.code ++
          (if (s.clip k).state = .empty then [0x00] else 0x01 :: (byte (s.clip k).start ++ byte (s.clip k).count)) ++
          (if (s.clip k).state = .ready then 0x01 :: word (s.clip k).length else [0x00]) ++ flag (u.clipInPlay k)))) u) ∧
    exec (.readAudio 4) s = .next (answered 0xDB
      (0x00 :: (byte 8 ++ (List.range 8).flatMap (fun z =>
          counted (fun m => byte (machineCode m)) (u.zone z).list ++ byte (u.zone z).voice.code ++
            optional word (match (u.zone z).voice with
              | .play => some (u.zone z).place
              | .page => u.zae.page.map PageRec.place
              | _ => none) ++
            optional word (match (u.zone z).voice with
              | .repeatWait =>
                let frames := u.headRepeat (u.zone z).list * 48 - (u.zone z).since
                some (frames / 48 + if frames % 48 ≠ 0 ∧ Config.repeatRestRoundsUp frames = true then 1 else 0)
              | _ => none)) ++
        optional (fun x : PageRec => byte x.clip ++ byte x.duck ++ set8 (peek x.playing) ++ set8 (peek x.completed) ++
          set8 (peek x.cut)) u.zae.page ++
        flag (u.item Item.toneAny) ++ flag (u.item Item.paging))) u)

/-! ## Interlocks, causes and clears -/

/-- WRITE INTERLOCK replaces one of the entries 3 to 23 as a whole, a CAP value clamped to 50..1000, and nothing else of the
configuration; the entry is there when the handling ends. The entries are re-evaluated in the same handling: in a part without
other host entries, where one machine alone has a run and no input is VALID, a BLOCK entry that matches takes a MOVING run to
STOPPING with end reason INTERLOCK and its grant, and BLOCKED is true; a CAP entry that matches makes CAPPED true and moves
nothing. It is refused for the built-in and the undefined indexes, for an undefined code, and for an item that its group does not
have or that follows the running of the machines. -/
def Obligations.WriteInterlockReplacesTheEntry : Prop :=
  ∀ (s : State) (b : Byte), Serving s →
    let after := fun (e : Option InterlockEntry) (st : Byte) (x : Option EntryFields) => ∃ u,
      exec (.writeInterlock b x) s = .next (answered 0xB0 [st] u) ∧
      u.settings = { s.settings with interlocks := u.settings.interlocks } ∧
      (∀ i, i < 24 → u.entry i = if i = b.toNat then e else s.entry i) ∧
      u.pins = s.pins ∧ u.slp = (heard s).slp ∧ u.sfe.rode = s.sfe.rode ∧ (∀ m, (u.chan m).position = (s.chan m).position)
    (b.toNat < 3 ∨ 23 < b.toNat → ∀ x, exec (.writeInterlock b x) s = refusal 0xB0 0x82 s) ∧
    (3 ≤ b.toNat → b.toNat ≤ 23 →
      after none 0x00 none ∧
      (∀ f : EntryFields,
        (machineNamed f.machine = none ∨ entryDirectionNamed f.dir = none ∨ itemNamed f.group f.place = none ∨
            yesNoNamed f.sense = none ∨ (f.action ≠ 1 ∧ f.action ≠ 2) ∨
            (∃ r, itemNamed f.group f.place = some r ∧ r.followsRunning = true) →
          exec (.writeInterlock b (some f)) s = refusal 0xB0 0x82 s) ∧
        (∀ m d r v, machineNamed f.machine = some m → entryDirectionNamed f.dir = some d → itemNamed f.group f.place = some r →
          r.followsRunning = false → yesNoNamed f.sense = some v →
          (f.action = 1 → f.cap = none →
            after (some { machine := m, dir := d, item := r, sense := v, action := .block }) 0x00 (some f)) ∧
          (∀ x, f.action = 2 → f.cap = some x →
            after (some { machine := m, dir := d, item := r, sense := v, action := .cap (max 50 (min x.toNat 1000)) })
              (if max 50 (min x.toNat 1000) = x.toNat then 0x00 else 0x01) (some f)))) ∧
      (∀ m d r v run, NoHostEntries s → (∀ k, (heard s).anyValid k = false) → ((heard s).chan m).live = some run →
        (∀ k, k ≠ m → ((heard s).chan k).live = none) →
        (∀ f : EntryFields, machineNamed f.machine = some m → entryDirectionNamed f.dir = some d → itemNamed f.group f.place = some r →
          r.followsRunning = false → yesNoNamed f.sense = some v → (d = none ∨ d = some run.dir) → (heard s).item r = v →
          (f.action = 1 → f.cap = none → ((heard s).chan m).state = .moving → ((heard s).chan m).demand ≠ 0 → ∃ u,
            exec (.writeInterlock b (some f)) s = .next (answered 0xB0 [0x00] u) ∧
            (u.chan m).state = .stopping ∧ (u.chan m).live = some { run with endReason := some (run.endReason.getD .interlock) } ∧
            (u.chan m).refresh = none ∧ (u.chan m).demand = ((heard s).chan m).demand ∧ u.hsc.grants = (heard s).hsc.grants ∧
            u.item (Item.blocked m) = true) ∧
          (∀ x, f.action = 2 → f.cap = some x → (heard s).blockMatches m run.dir = false → ∃ u,
            exec (.writeInterlock b (some f)) s =
              .next (answered 0xB0 [if max 50 (min x.toNat 1000) = x.toNat then 0x00 else 0x01] u) ∧
            u.mc = (heard s).mc ∧ u.hsc = (heard s).hsc ∧ u.item (Item.capped m) = true))))

/-- The LADDER, MAT and CRADLE inputs set LADDER_DOWN, MAT_OCCUPIED and CRADLE_HOME at once, in every channel state, and move
nothing else by themselves. With the built-in entries alone, the deployed ladder ends a raising platform run INTERLOCK and the
cradle gone from home a closing hatch run; the mat moves no run. When the handling ends, PLAT.BLOCKED says whether the ladder is
down and HATCH.BLOCKED whether the cradle is away, each with the part the machine controller adds, and PLAT.CAPPED whether a
platform run is under way with the mat occupied. An input in its level already, and one outside service, keeps its level alone. -/
def Obligations.LadderMatAndCradleAct : Prop :=
  ∀ (s : State) (i : PlainInput) (a : Bool),
    (s.phase ≠ .running → exec (.ladderMatCradleChange i a) s = .next { s with pins := s.pins.withPlain i a }) ∧
    (s.phase = .running → ∃ t, exec (.ladderMatCradleChange i a) s = .next t ∧
      t.pins = s.pins.withPlain i a ∧
      t.item (match i with | .ladder => Item.ladderDown | .mat => Item.matOccupied | .cradle => Item.cradleHome) = a ∧
      t.settings = s.settings ∧ t.slp = s.slp ∧ t.sfe.rode = s.sfe.rode ∧
      (∀ m, (t.chan m).position = (s.chan m).position) ∧
      (s.item (plainItem i) = a → StoreAtRest s → t = { s with pins := s.pins.withPlain i a }) ∧
      (NoHostEntries s → s.item (plainItem i) = !a →
        (i = .mat → StoreAtRest s → t = { s with pins := s.pins.withPlain i a, seu := t.seu }) ∧
        (i = .ladder → a = true →
          (∀ r, (s.chan .p).live = some r → r.dir = .inward) → RampedEnd .p .interlock s t) ∧
        (i = .cradle → a = false →
          (∀ r, (s.chan .h).live = some r → r.dir = .inward) → RampedEnd .h .interlock s t) ∧
        (i = .ladder → (s.chan .p).live = none → s.anyValid .p = false → t.mc = s.mc ∧ t.hsc = s.hsc) ∧
        (i = .cradle → (s.chan .h).live = none → s.anyValid .h = false → t.mc = s.mc ∧ t.hsc = s.hsc) ∧
        t.item (Item.blocked .p) =
          (t.item Item.ladderDown || ((t.chan .p).state == .idle && t.anyValid .p && t.hsc.isolate)) ∧
        t.item (Item.blocked .h) =
          (!t.item Item.cradleHome || ((t.chan .h).state == .idle && t.anyValid .h && t.hsc.isolate)) ∧
        t.item (Item.capped .p) = ((t.chan .p).live.isSome && t.item Item.matOccupied)))

/-- CONFIGURE CAUSE is judged in the order of R112, and writes class and trip enable of one inactive cause. CONFIGURE STATION is
accepted with every hold-to-run input RELEASED and no machine running, and writes the three timings clamped and the eight bindings
as a whole. Neither changes anything else. Where an undefined code and a state both refuse, which of them answers is the model's
choice (log entry 25). -/
def Obligations.ConfigureCauseAndStation : Prop :=
  ∀ (s : State), Serving s →
    (∀ c k v : Byte,
      (15 < c.toNat → exec (.configureCause c k v) s = refusal 0xB2 0x82 s) ∧
      (c.toNat ≤ 15 → ((heard s).cause c.toNat).active = true → exec (.configureCause c k v) s = refusal 0xB2 0x83 s) ∧
      (c.toNat ≤ 15 → ((heard s).cause c.toNat).active = false →
        (classNamed k = none ∨ yesNoNamed v = none ∨ (∃ x, classNamed k = some x ∧ classAllowed c.toNat x = false) ∨
            (v = 1 ∧ (k ≠ 2 ∨ tripAllowed c.toNat = false)) →
          exec (.configureCause c k v) s = refusal 0xB2 0x82 s) ∧
        (∀ x, classNamed k = some x → classAllowed c.toNat x = true →
          (v = 0 ∨ (v = 1 ∧ x = .latched ∧ tripAllowed c.toNat = true)) →
          exec (.configureCause c k v) s = .next (answered 0xB2 [0x00]
            { heard s with
              settings := { s.settings with causes := poke s.settings.causes c.toNat { cls := x, trip := v == 1 } } })))) ∧
    (∀ f : StationFields,
      ((∃ i, ((heard s).input i).state ≠ .released) ∨ (∃ m, ((heard s).chan m).state.isRunning = true) →
        exec (.configureStation f) s = refusal 0xC0 0x83 s) ∧
      ((∀ i, ((heard s).input i).state = .released) → (∀ m, ((heard s).chan m).state.isRunning = false) →
        ((∃ k, k < 8 ∧ 7 < (peek f.bindings k).toNat ∧ peek f.bindings k ≠ 0xFF) → exec (.configureStation f) s = refusal 0xC0 0x82 s) ∧
        ((∀ k, k < 8 → (peek f.bindings k).toNat ≤ 7 ∨ peek f.bindings k = 0xFF) → ∃ x : StationSettings,
          x.qualifyTime = max 10 (min f.qualifyTime.toNat 200) ∧ x.releaseTime = max 10 (min f.releaseTime.toNat 100) ∧
          x.disagreeTime = max 50 (min f.disagreeTime.toNat 1000) ∧
          (∀ k, k < 8 → peek x.bindings k =
            if peek f.bindings k = 0xFF then none else some (peek f.bindings k).toNat) ∧
          exec (.configureStation f) s = .next (answered 0xC0
            [if x.qualifyTime = f.qualifyTime.toNat ∧ x.releaseTime = f.releaseTime.toNat ∧ x.disagreeTime = f.disagreeTime.toNat
              then 0x00 else 0x01]
            { heard s with settings := { s.settings with stations := x } }))))

/-- CLEAR FAULT and SERVICE CLEAR clear the causes they may and report them; the one is for CREW causes, the other for LATCHED
ones and asks for the SERVICE# input; a cause named that is active and may not be cleared refuses the request. A cleared cause is
inactive without a time of raise, every other CREW or LATCHED cause stays: with a VALID input this says too that a W_CREEP whose
condition goes absent through a start that an earlier clear of the same ALL has made is not cleared (the model's choice, log entry
41). SERVICE CLEAR then removes the trip record if no active cause has its trip enable set. With the built-in interlock entries
alone and no input VALID, the causes are exactly those left, a channel in HELD that none of them affects is IDLE, and ISOLATE is
released with the trip record unless ESTOP is active. -/
def Obligations.ClearsRemoveCausesAndTrip : Prop :=
  ∀ (s : State) (b : Byte), Serving s →
    let v := heard s
    let may := fun (k : CauseClass) (c : Nat) =>
      (v.cause c).active && decide ((s.causeSetting c).cls = k) && !(v.cause c).present
    let named := fun c : Nat => b = 0xFF ∨ c = b.toNat
    let codes := 0xFF :: (List.range 16).map fun c => BitVec.ofNat 8 c
    let after := fun (k : CauseClass) (u : State) =>
      u.settings = s.settings ∧ u.pins = s.pins ∧ u.slp = v.slp ∧ u.sfe.rode = s.sfe.rode ∧
      (∀ m, (u.chan m).position = (s.chan m).position) ∧
      (∀ c, c < 16 → named c → may k c = true → c ≠ causePins → (u.cause c).active = false ∧ (u.cause c).raisedAt = none) ∧
      (∀ c, c < 16 → ¬ (named c ∧ may k c = true) → (v.cause c).active = true → (s.causeSetting c).cls ≠ .self →
        (u.cause c).active = true ∧ (u.cause c).raisedAt = (v.cause c).raisedAt) ∧
      (NoHostEntries s → EstopIsolates s → (∀ m, v.anyValid m = false) →
        (∀ c, c < 16 → (u.cause c).active = ((v.cause c).active && !(decide (named c) && may k c))) ∧
        u.hsc.grants = v.hsc.grants ∧ u.hsc.queue = v.hsc.queue ∧
        (∀ m, (v.chan m).state = .held → u.affected m = false → (∃ c, c < 16 ∧ named c ∧ may k c = true) → (u.chan m).state = .idle) ∧
        (∀ m, (v.chan m).state ≠ .held ∨ u.affected m = true → (u.chan m).state = (v.chan m).state))
    (b ∉ codes → exec (.clearFault b) s = refusal 0xB4 0x82 s ∧ exec (.serviceClear b) s = refusal 0xB5 0x82 s) ∧
    (b ∈ codes →
      (b ≠ 0xFF → (v.cause b.toNat).active = true → may .crew b.toNat = false → exec (.clearFault b) s = refusal 0xB4 0x83 s) ∧
      (b = 0xFF ∨ (v.cause b.toNat).active = false ∨ may .crew b.toNat = true → ∃ u,
        exec (.clearFault b) s = .next (answered 0xB4 (0x00 :: set16 fun c => decide (named c) && may .crew c) u) ∧
        after .crew u ∧ (NoHostEntries s → (∀ m, v.anyValid m = false) → u.fis.trip = v.fis.trip ∧ u.hsc = v.hsc)) ∧
      (s.pins.service = false → exec (.serviceClear b) s = refusal 0xB5 0x86 s) ∧
      (s.pins.service = true →
        (b ≠ 0xFF → (v.cause b.toNat).active = true → may .latched b.toNat = false → exec (.serviceClear b) s = refusal 0xB5 0x83 s) ∧
        (b = 0xFF ∨ (v.cause b.toNat).active = false ∨ may .latched b.toNat = true → ∃ u removed,
          exec (.serviceClear b) s = .next (answered 0xB5
            (0x00 :: ((set16 fun c => decide (named c) && may .latched c) ++ flag removed)) u) ∧
          after .latched u ∧
          ((removed = true ∨ ∃ c, c < 16 ∧ named c ∧ may .latched c = true) → isPending .records u.sto.queue = true) ∧
          (NoHostEntries s → EstopIsolates s → (∀ m, v.anyValid m = false) →
            removed = (v.fis.trip.isSome && (List.range 16).all fun c => !((u.cause c).active && (s.causeSetting c).trip)) ∧
            u.fis.trip = (if removed then none else v.fis.trip) ∧
            (removed = false → u.hsc = v.hsc) ∧
            (removed = true → s.pins.estop = false → u.hsc.isolate = false) ∧
            (removed = true → s.pins.estop = true → u.hsc = v.hsc)))))

/-! ## Audio requests -/

/-- CONFIGURE SOURCE is judged in the order of R134 and taken as a whole; that an undefined Enabled or Mono is refused together
with the source code and the word, ahead of the source's state, is the model's choice (log entry 25). The marks are clamped to the
new capacity, the blocks exchanged, the FIFO emptied, the source is left DISABLED or DETECTING with class NONE, and its XRUN flag
is kept. -/
def Obligations.ConfigureSourceIsJudgedInOrder : Prop :=
  ∀ (s : State) (b : Byte) (f : SourceFields), Serving s →
    (2 < b.toNat ∨ (f.word ≠ 16 ∧ f.word ≠ 24 ∧ f.word ≠ 32) ∨ 1 < f.enabled.toNat ∨ 1 < f.mono.toNat →
      exec (.configureSource b f) s = refusal 0xD0 0x82 s) ∧
    (b.toNat ≤ 2 → (f.word = 16 ∨ f.word = 24 ∨ f.word = 32) → f.enabled.toNat ≤ 1 → f.mono.toNat ≤ 1 →
      let first := f.start.toNat
      let count := f.count.toNat
      let others := ∃ k, first ≤ k ∧ k < first + count ∧ peek s.zae.owners k ≠ .free ∧ peek s.zae.owners k ≠ .source b.toNat
      let beyond := 64 < count ∨ 63 < first ∨ 64 < first + count ∨ (f.enabled = 1 ∧ count = 0)
      ((s.source b.toNat).state ≠ .disabled → f.enabled = 1 → exec (.configureSource b f) s = refusal 0xD0 0x83 s) ∧
      ((s.source b.toNat).state = .disabled ∨ f.enabled = 0 →
        (beyond ∨ others → exec (.configureSource b f) s = refusal 0xD0 0x82 s) ∧
        (¬ beyond → ¬ others → ∃ u,
          let low := min f.lowMark.toNat (count * 128)
          let high := max low (min f.highMark.toNat (count * 128))
          exec (.configureSource b f) s = .next (answered 0xD0
            [if low = f.lowMark.toNat ∧ high = f.highMark.toNat then 0x00 else 0x01] u) ∧
          u.sourceConfig b.toNat =
            { enabled := decide (f.enabled = 1), word := f.word.toNat, mono := decide (f.mono = 1), start := first, count := count,
              lowMark := low, highMark := high } ∧
          (∀ n, n ≠ b.toNat → u.sourceConfig n = s.sourceConfig n) ∧
          u.settings = { s.settings with audio := { s.settings.audio with sources := u.settings.audio.sources } } ∧
          (∀ k, k < 64 → peek u.zae.owners k =
            if first ≤ k ∧ k < first + count then .source b.toNat
            else if peek s.zae.owners k = .source b.toNat then .free else peek s.zae.owners k) ∧
          u.source b.toNat =
            { s.source b.toNat with
              state := if f.enabled = 1 then .detecting else .disabled
              cls := .none, candidate := none, measuring := false, frames := 0, edges := 0, decim := 0, fifo := []
              frameTimer := if f.enabled = 1 then some 2 else none } ∧
          (∀ n, n ≠ b.toNat → u.source n = s.source n) ∧ u.zae.memory = s.zae.memory ∧ u.zae.clips = s.zae.clips ∧
          u.pins = s.pins ∧ u.slp = (heard s).slp ∧ ∀ m, (u.chan m).position = (s.chan m).position)))

/-- SET VOLUME takes the volume shift of one zone, clamped to 0..31, and changes nothing else. CONFIGURE ZONE takes all five
fields, V and A clamped; SET QUIET takes QUIET, and the value held changes nothing. A change of QUIET or of the safety attribute
reconsiders lists and page. CLEAR AUDIO FLAGS clears the flags of the sources named. -/
def Obligations.ZoneRequestsTakeTheirValues : Prop :=
  ∀ s : State, Serving s →
    (∀ b v : Byte,
      (7 < b.toNat → exec (.setVolume b v) s = refusal 0xD2 0x82 s) ∧
      (b.toNat ≤ 7 → exec (.setVolume b v) s = .next (answered 0xD2 [if v.toNat ≤ 31 then 0x00 else 0x01]
        { heard s with settings := { s.settings with audio := { s.settings.audio with
            zones := poke s.settings.audio.zones b.toNat { s.zoneConfig b.toNat with volume := min v.toNat 31 } } } }))) ∧
    (∀ (b : Byte) (f : ZoneFields),
      (7 < b.toNat ∨ 3 < f.source.toNat ∨ 1 < f.fold.toNat ∨ 1 < f.safety.toNat →
        exec (.configureZone b f) s = refusal 0xD1 0x82 s) ∧
      (b.toNat ≤ 7 → f.source.toNat ≤ 3 → f.fold.toNat ≤ 1 → f.safety.toNat ≤ 1 →
        let new : ZoneConfig :=
          { source := if f.source = 3 then none else some f.source.toNat, volume := min f.volume.toNat 31, fold := decide (f.fold = 1),
            safety := decide (f.safety = 1), level := min f.level.toNat 23 }
        let base : State := { heard s with settings := { s.settings with audio := { s.settings.audio with
          zones := poke s.settings.audio.zones b.toNat new } } }
        ∃ u, exec (.configureZone b f) s =
            .next (answered 0xD1 [if f.volume.toNat ≤ 31 ∧ f.level.toNat ≤ 23 then 0x00 else 0x01] u) ∧
          u.settings = base.settings ∧ (∀ z, (u.zone z).quiet = (s.zone z).quiet) ∧
          (new.safety = (s.zoneConfig b.toNat).safety → u = base) ∧
          (new.safety ≠ (s.zoneConfig b.toNat).safety → NoHostEntries s → Relisted base u))) ∧
    (∀ b q : Byte,
      (7 < b.toNat ∨ 1 < q.toNat → exec (.setQuiet b q) s = refusal 0xD3 0x82 s) ∧
      (b.toNat ≤ 7 → q.toNat ≤ 1 → (s.zone b.toNat).quiet = decide (q = 1) →
        exec (.setQuiet b q) s = .next (answered 0xD3 [0x00] (heard s))) ∧
      (b.toNat ≤ 7 → q.toNat ≤ 1 → (s.zone b.toNat).quiet ≠ decide (q = 1) → ∃ u,
        exec (.setQuiet b q) s = .next (answered 0xD3 [0x00] u) ∧ u.settings = s.settings ∧
        (∀ z, (u.zone z).quiet = if z = b.toNat then decide (q = 1) else (s.zone z).quiet) ∧
        (NoHostEntries s → u.item (Item.quiet b.toNat) = decide (q = 1) ∧
          Relisted (setZone b.toNat { (heard s).zone b.toNat with quiet := decide (q = 1) } (heard s)) u))) ∧
    ∀ b : Byte,
      (7 < b.toNat → exec (.clearAudioFlags b) s = refusal 0xDC 0x82 s) ∧
      (b.toNat ≤ 7 → ∃ u, exec (.clearAudioFlags b) s = .next (answered 0xDC [0x00] u) ∧
        (∀ n, n < 3 → u.source n = if b.getLsbD n then { s.source n with xrun := false } else s.source n) ∧
        u.settings = s.settings ∧ u.pins = s.pins ∧ u.slp = (heard s).slp ∧ u.zae.owners = s.zae.owners ∧
        u.zae.memory = s.zae.memory ∧ u.zae.clips = s.zae.clips ∧
        (NoHostEntries s → u = { heard s with zae := { (heard s).zae with sources := u.zae.sources }, seu := u.seu } ∧
          ∀ n, n < 3 → b.getLsbD n = true → u.item (Item.sourceXrun n) = false))

/-- ALLOCATE CLIP, CLIP DATA, CLIP END and FREE CLIP are judged in the order of R141 and R142. A clip allocated is LOADING, owns
its blocks and reads 0; data writes exactly its samples; the end records the length and makes it READY; a freed slot is EMPTY and
owns no block. Every other sample, slot and block stays. -/
def Obligations.ClipRequestsWriteTheirSamples : Prop :=
  ∀ s : State, Serving s →
    let inPlay := fun k => (heard s).clipInPlay k
    let fixed := fun (k : Nat) (u : State) =>
      u = { heard s with zae := { (heard s).zae with owners := u.zae.owners, memory := u.zae.memory, clips := u.zae.clips } } ∧
        ∀ j, j ≠ k → u.clip j = s.clip j
    let old := fun (k a : Nat) =>
      (s.clip k).start * 256 ≤ a ∧ a < (s.clip k).start * 256 + (s.clip k).count * 256
    (∀ b f c : Byte,
      let taken := ∃ k, f.toNat ≤ k ∧ k < f.toNat + c.toNat ∧ peek s.zae.owners k ≠ .free ∧ peek s.zae.owners k ≠ .clip b.toNat
      let beyond := c.toNat = 0 ∨ 64 < f.toNat + c.toNat
      (15 < b.toNat → exec (.allocateClip b f c) s = refusal 0xD4 0x82 s) ∧
      (b.toNat ≤ 15 → inPlay b.toNat = true → exec (.allocateClip b f c) s = refusal 0xD4 0x83 s) ∧
      (b.toNat ≤ 15 → inPlay b.toNat = false → beyond ∨ taken → exec (.allocateClip b f c) s = refusal 0xD4 0x82 s) ∧
      (b.toNat ≤ 15 → inPlay b.toNat = false → ¬ beyond → ¬ taken → ∃ u,
        exec (.allocateClip b f c) s = .next (answered 0xD4 [0x00] u) ∧ fixed b.toNat u ∧
        u.clip b.toNat = { state := .loading, start := f.toNat, count := c.toNat, length := 0 } ∧
        (∀ k, k < 64 → peek u.zae.owners k =
          if f.toNat ≤ k ∧ k < f.toNat + c.toNat then .clip b.toNat
          else if peek s.zae.owners k = .clip b.toNat then .free else peek s.zae.owners k) ∧
        (∀ a, f.toNat * 256 ≤ a → a < f.toNat * 256 + c.toNat * 256 → readSample u.zae.memory a = 0) ∧
        (∀ a, ¬ old b.toNat a → ¬ (f.toNat * 256 ≤ a ∧ a < f.toNat * 256 + c.toNat * 256) →
          readSample u.zae.memory a = readSample s.zae.memory a))) ∧
    (∀ (b : Byte) (o : Half) (xs : List Half),
      let room := (s.clip b.toNat).count * 256
      (xs.length < 1 ∨ 96 < xs.length → exec (.clipData b o xs) s = refusal 0xD5 0x81 s) ∧
      (1 ≤ xs.length → xs.length ≤ 96 →
        (15 < b.toNat → exec (.clipData b o xs) s = refusal 0xD5 0x82 s) ∧
        (b.toNat ≤ 15 → (s.clip b.toNat).state ≠ .loading → exec (.clipData b o xs) s = refusal 0xD5 0x83 s) ∧
        (b.toNat ≤ 15 → (s.clip b.toNat).state = .loading → room < o.toNat + xs.length →
          exec (.clipData b o xs) s = refusal 0xD5 0x82 s) ∧
        (b.toNat ≤ 15 → (s.clip b.toNat).state = .loading → o.toNat + xs.length ≤ room → MemoryCanonical s → ∃ u,
          let first := (s.clip b.toNat).start * 256 + o.toNat
          exec (.clipData b o xs) s = .next (answered 0xD5 [0x00] u) ∧ fixed b.toNat u ∧ u.clip b.toNat = s.clip b.toNat ∧
          u.zae.owners = s.zae.owners ∧
          (∀ k, k < xs.length → readSample u.zae.memory (first + k) = xs.getD k 0) ∧
          (∀ a, a < first ∨ first + xs.length ≤ a → readSample u.zae.memory a = readSample s.zae.memory a)))) ∧
    (∀ (b : Byte) (n : Half),
      (15 < b.toNat → exec (.clipEnd b n) s = refusal 0xD6 0x82 s) ∧
      (b.toNat ≤ 15 → (s.clip b.toNat).state ≠ .loading → exec (.clipEnd b n) s = refusal 0xD6 0x83 s) ∧
      (b.toNat ≤ 15 → (s.clip b.toNat).state = .loading →
        (n.toNat = 0 ∨ (s.clip b.toNat).count * 256 < n.toNat → exec (.clipEnd b n) s = refusal 0xD6 0x82 s) ∧
        (n.toNat ≠ 0 → n.toNat ≤ (s.clip b.toNat).count * 256 → ∃ u,
          exec (.clipEnd b n) s = .next (answered 0xD6 [0x00] u) ∧ fixed b.toNat u ∧
          u.clip b.toNat = { s.clip b.toNat with state := .ready, length := n.toNat } ∧ u.zae.owners = s.zae.owners ∧
          u.zae.memory = s.zae.memory))) ∧
    ∀ b : Byte,
      (15 < b.toNat → exec (.freeClip b) s = refusal 0xD7 0x82 s) ∧
      (b.toNat ≤ 15 → inPlay b.toNat = true → exec (.freeClip b) s = refusal 0xD7 0x83 s) ∧
      (b.toNat ≤ 15 → inPlay b.toNat = false → ∃ u,
        exec (.freeClip b) s = .next (answered 0xD7 [0x00] u) ∧ fixed b.toNat u ∧ (u.clip b.toNat).state = .empty ∧
        (∀ k, k < 64 → peek u.zae.owners k = if peek s.zae.owners k = .clip b.toNat then .free else peek s.zae.owners k) ∧
        (∀ a, ¬ old b.toNat a → readSample u.zae.memory a = readSample s.zae.memory a))

/-- CONFIGURE ANNOUNCE takes a machine's record as a whole, clamped; the lists are reconsidered, and a voice that waits to repeat
for the machine, or has played once for it, follows the new RepeatInterval; that a wait ends at the write of 0 is the model's choice
(log entry 17). -/
def Obligations.ConfigureAnnounceReconsidersTheLists : Prop :=
  ∀ (s : State) (b : Byte) (f : AnnounceFields), Serving s →
    (machineNamed b = none ∨ (15 < f.clip.toNat ∧ f.clip ≠ 0xFF) → exec (.configureAnnounce b f) s = refusal 0xD8 0x82 s) ∧
    (∀ m, machineNamed b = some m → (f.clip.toNat ≤ 15 ∨ f.clip = 0xFF) →
      let interval := if f.repeatInterval.toNat = 0 then 0 else max 1000 (min f.repeatInterval.toNat 30000)
      let new : AnnounceRecord :=
        { clip := if f.clip = 0xFF then none else some f.clip.toNat, zones := Vector.ofFn fun z : Fin 8 => f.zones.getLsbD z.val,
          duck := min f.duck.toNat 23, repeatInterval := interval }
      let base : State := { heard s with settings := { s.settings with audio := { s.settings.audio with
        announce := s.settings.audio.announce.set m new } } }
      ∃ u, exec (.configureAnnounce b f) s =
          .next (answered 0xD8 [if f.duck.toNat ≤ 23 ∧ interval = f.repeatInterval.toNat then 0x00 else 0x01] u) ∧
        u.settings = base.settings ∧ u.announce m = new ∧ (∀ k, k ≠ m → u.announce k = s.announce k) ∧
        (∀ z, (u.zone z).quiet = (s.zone z).quiet) ∧ u.pins = s.pins ∧ u.slp = (heard s).slp ∧
        (NoHostEntries s → ∃ v, Relisted base v ∧ v.seu.events.map Event.kind <+: u.seu.events.map Event.kind ∧ u.zae.page = v.zae.page ∧ u.mc = v.mc ∧ u.hsc = v.hsc ∧
          ∀ z, z < 8 →
            let x := v.zone z
            (x.list.head? = some m → x.voice = .repeatWait → interval = 0 → u.zone z = { x with voice := .played }) ∧
            (x.list.head? = some m → x.voice = .played → interval ≠ 0 → (u.zone z).voice = .play ∧ (u.zone z).place = 0 ∧
              (u.zone z).list = x.list) ∧
            (x.list.head? ≠ some m ∨ (x.voice ≠ .repeatWait ∧ x.voice ≠ .played) ∨ (x.voice = .repeatWait ∧ interval ≠ 0) ∨
              (x.voice = .played ∧ interval = 0) → u.zone z = x)))

/-- PAGE starts its clip in the zones of its set that hold no announcement and are safety zones or not QUIET, and names them;
with no such zone it changes nothing. CANCEL PAGE cuts every zone still playing, names those (log entry 26), and ends the page. -/
def Obligations.PageStartsAndIsCancelled : Prop :=
  ∀ s : State, Serving s →
    let v := heard s
    (∀ k z d : Byte,
      let paged := fun n : Nat => z.getLsbD n && (v.zone n).list.isEmpty && ((v.zoneConfig n).safety || !(v.zone n).quiet)
      let st : Byte := if d.toNat ≤ 23 then 0x00 else 0x01
      (15 < k.toNat → exec (.page k z d) s = refusal 0xD9 0x82 s) ∧
      (k.toNat ≤ 15 → (s.clip k.toNat).state ≠ .ready ∨ v.zae.page.isSome = true → exec (.page k z d) s = refusal 0xD9 0x83 s) ∧
      (k.toNat ≤ 15 → (s.clip k.toNat).state = .ready → v.zae.page = none →
        ((∀ n, n < 8 → paged n = false) → exec (.page k z d) s = .next (answered 0xD9 (st :: set8 fun _ => false) v)) ∧
        ((∃ n, n < 8 ∧ paged n = true) → ∃ u, exec (.page k z d) s = .next (answered 0xD9 (st :: set8 paged) u) ∧
          u.settings = s.settings ∧ u.pins = s.pins ∧ u.slp = v.slp ∧ u.zae.memory = s.zae.memory ∧ u.zae.clips = s.zae.clips ∧
          (NoHostEntries s →
            u = { v with zae := { v.zae with zones := u.zae.zones, page := u.zae.page }, seu := u.seu } ∧
            u.zae.page = some
              { clip := k.toNat, duck := min d.toNat 23, playing := Vector.ofFn fun n : Fin 8 => paged n.val,
                completed := Vector.replicate 8 false, cut := Vector.replicate 8 false, place := 0 } ∧
            (∀ n, n < 8 → u.zone n = if paged n then { v.zone n with voice := .page, place := 0, since := 0 } else v.zone n) ∧
            u.item Item.paging = true)))) ∧
    (v.zae.page = none → exec .cancelPage s = .next (answered 0xDA (0x00 :: set8 fun _ => false) v)) ∧
    (∀ p, v.zae.page = some p → ∃ u, exec .cancelPage s = .next (answered 0xDA (0x00 :: set8 (peek p.playing)) u) ∧
      u.settings = s.settings ∧ u.pins = s.pins ∧ u.slp = v.slp ∧
      (NoHostEntries s →
        u = { v with zae := { v.zae with zones := u.zae.zones, page := none }, seu := u.seu } ∧
        (∀ n, n < 8 → u.zone n = if peek p.playing n = true ∧ (v.zone n).voice = .page then
          { v.zone n with voice := .silent, place := 0, since := 0 } else v.zone n) ∧
        u.item Item.paging = false ∧
        let ended := EventKind.pageEnded p.clip p.completed (Vector.ofFn fun n : Fin 8 => peek p.cut n.val || peek p.playing n.val)
        (pushEvent { kind := ended, time := s.now, lost := false } v.seu.events).map Event.kind <+: u.seu.events.map Event.kind))

/-! ## Displays and lamps -/

/-- CONFIGURE DISPLAY clamps every field, refuses thresholds that then fall, and recomputes the target; DISPLAY REQUEST activates
the displays named or turns them OFF and reports each; CONFIGURE LAMP replaces a lamp's binding and mode, and the lamp follows.
The count byte of the DISPLAY REQUEST reply is the model's choice (log entry 8). -/
def Obligations.IndicatorRequestsAct : Prop :=
  ∀ s : State, Serving s →
    let v := heard s
    (∀ (b : Byte) (f : DisplayFields),
      (2 < b.toNat → exec (.configureDisplay b f) s = refusal 0xE0 0x82 s) ∧
      (∀ m, machineNamed b = some m →
        let top := if m = .w then 1600 else 1000
        let out := f.outThresholds.map fun x => min x.toNat top
        let inn := f.inThresholds.map fun x => min x.toNat top
        let rises := ∀ j k, j < k → k < 8 → peek out j ≤ peek out k ∧ peek inn j ≤ peek inn k
        let new : DisplayParams :=
          { outThresholds := out, inThresholds := inn, rampDelay := min f.rampDelay.toNat 500, holdTime := max 1 (min f.holdTime.toNat 60),
            blinkPeriod := if f.blinkPeriod.toNat = 0 then 0 else max 100 (min f.blinkPeriod.toNat 2000),
            flashPeriod := max 100 (min f.flashPeriod.toNat 2000), flashHigh := min f.flashHigh.toNat top }
        let carried : DisplayParams :=
          { outThresholds := f.outThresholds.map BitVec.toNat, inThresholds := f.inThresholds.map BitVec.toNat,
            rampDelay := f.rampDelay.toNat, holdTime := f.holdTime.toNat, blinkPeriod := f.blinkPeriod.toNat,
            flashPeriod := f.flashPeriod.toNat, flashHigh := f.flashHigh.toNat }
        (¬ rises → exec (.configureDisplay b f) s = refusal 0xE0 0x82 s) ∧
        (rises → ∃ u, exec (.configureDisplay b f) s = .next (answered 0xE0 [if new = carried then 0x00 else 0x01] u) ∧
          u = { v with settings := u.settings, ind := u.ind } ∧
          u.settings = { s.settings with indicators := { s.settings.indicators with
            displays := s.settings.indicators.displays.set m new } } ∧
          (∀ k, k ≠ m → u.display k = v.display k) ∧ u.ind.flashOn = v.ind.flashOn ∧ u.ind.flashTimer = v.ind.flashTimer ∧
          ((v.display m).state = .showing → (u.display m).state = .showing ∧
            (u.display m).lit = ((if (v.chan m).dirOut then out else inn).toList.filter fun t => decide (t ≤ v.quantity m)).length) ∧
          ((v.display m).state = .off → (v.display m).overlay = .none → u.display m = v.display m)))) ∧
    (∀ b a : Byte,
      (machinesNamed b = none ∨ 1 < a.toNat → exec (.displayRequest b a) s = refusal 0xE1 0x82 s) ∧
      (∀ ms, machinesNamed b = some ms → a.toNat ≤ 1 → ∃ u,
        exec (.displayRequest b a) s = .next (answered 0xE1 (0x00 :: (byte ms.length ++ ms.flatMap fun m =>
          byte (u.display m).state.code ++ byte (u.display m).lit ++ byte (v.target m) ++ byte (u.display m).overlay.code)) u) ∧
        u = { v with ind := u.ind } ∧ (∀ m, m ∉ ms → u.display m = v.display m) ∧
        u.ind.flashOn = v.ind.flashOn ∧ u.ind.flashTimer = v.ind.flashTimer ∧
        (a = 1 → ∀ m, m ∈ ms → u.display m =
          { state := .off, lit := 0, ramp := none, hold := none, overlay := .none, overlayOn := false, overlayTimer := none }) ∧
        (a = 0 → ∀ m, m ∈ ms →
          ((v.display m).state = .off → v.target m = 0 ∨ (v.displayParams m).rampDelay = 0 →
            (u.display m).state = .showing ∧ (u.display m).lit = v.target m) ∧
          ((v.display m).state = .off → 0 < v.target m → 0 < (v.displayParams m).rampDelay →
            (u.display m).state = .ramping ∧ (u.display m).lit = 0 ∧ (u.display m).ramp = some (v.displayParams m).rampDelay) ∧
          ((v.display m).state = .ramping → u.display m = v.display m) ∧
          ((v.display m).state = .showing → u.display m =
            if (v.chan m).state = .idle ∨ (v.chan m).state = .disabled then
              { v.display m with hold := some ((v.displayParams m).holdTime * 1000) } else v.display m)))) ∧
    ∀ (b c : Byte) (x : Option LampItemFields) (mode : Byte),
      let named : Option LampBinding → Prop := fun r => match x with
        | none => (c = 0 ∧ r = some .off) ∨ (c = 1 ∧ r = some .on)
        | some y => c = 2 ∧ ∃ i sense, itemNamed y.group y.place = some i ∧ yesNoNamed y.sense = some sense ∧ r = some (.item i sense)
      (5 < b.toNat ∨ 1 < mode.toNat ∨ (∀ r, ¬ named (some r)) → exec (.configureLamp b c x mode) s = refusal 0xE2 0x82 s) ∧
      (∀ r, b.toNat ≤ 5 → mode.toNat ≤ 1 → named (some r) → ∃ u,
        exec (.configureLamp b c x mode) s = .next (answered 0xE2 [0x00] u) ∧
        u = { v with settings := { s.settings with indicators := { s.settings.indicators with
          lamps := poke s.settings.indicators.lamps b.toNat { binding := r, flash := decide (mode = 1) } } } } ∧
        u.lamp b.toNat = ((match r with
          | .off => false
          | .on => true
          | .item i sense => v.item i == sense) && (decide (mode = 0) || v.ind.flashOn)))

/-- The pins of the indicators: a segment is driven on exactly while it is lit and no off half of an overlay darkens it, FLASH
every segment and BLINK the top one alone; a lamp follows its binding in service, and is off before. The timers: a ramp step
lights one more segment and ends at the target, the hold time turns the display OFF, an overlay and the lamp flash clock change
half; a timer that does not run changes nothing. -/
def Obligations.IndicatorTimersExpire : Prop :=
  (∀ (s : State) (m : MachineId) (n : Nat),
    let d := s.display m
    (n = 0 ∨ d.lit < n → s.segment m n = false) ∧
    (1 ≤ n → n ≤ d.lit → (d.overlay = .none ∨ d.overlayOn = true → s.segment m n = true) ∧
      (d.overlay = .flash → d.overlayOn = false → s.segment m n = false) ∧
      (d.overlay = .blink → d.overlayOn = false → s.segment m n = decide (n ≠ d.lit)))) ∧
  (∀ (s : State) (l : Nat),
    let x := peek s.settings.indicators.lamps l
    (s.phase ≠ .running → s.lamp l = false) ∧
    (s.phase = .running → s.lamp l = ((match x.binding with
      | .off => false
      | .on => true
      | .item i sense => s.item i == sense) && (!x.flash || s.ind.flashOn)))) ∧
  ∀ (s : State) (m : MachineId), StoreAtRest s →
    let d := s.display m
    let only := fun t : State =>
      t = { s with ind := t.ind } ∧ (∀ k, k ≠ m → t.display k = s.display k) ∧ t.ind.flashOn = s.ind.flashOn ∧
        t.ind.flashTimer = s.ind.flashTimer
    ((d.state ≠ .ramping ∨ d.ramp = none) → exec (.rampTimerExpiry m) s = .next s) ∧
    (d.state = .ramping → d.ramp.isSome = true → ∃ t, exec (.rampTimerExpiry m) s = .next t ∧ only t ∧
      (s.target m ≤ d.lit + 1 → (t.display m).state = .showing ∧ (t.display m).lit = s.target m ∧ (t.display m).ramp = none ∧
        (t.display m).hold = if (s.chan m).state = .idle ∨ (s.chan m).state = .disabled then
          some ((s.displayParams m).holdTime * 1000) else none) ∧
      (d.lit + 1 < s.target m → 0 < (s.displayParams m).rampDelay →
        (t.display m).state = .ramping ∧ (t.display m).lit = d.lit + 1 ∧ (t.display m).ramp = some (s.displayParams m).rampDelay)) ∧
    ((d.state ≠ .showing ∨ d.hold = none) → exec (.holdTimerExpiry m) s = .next s) ∧
    (d.state = .showing → d.hold.isSome = true → ∃ t, exec (.holdTimerExpiry m) s = .next t ∧ only t ∧
      t.display m =
        { state := .off, lit := 0, ramp := none, hold := none, overlay := .none, overlayOn := false, overlayTimer := none } ∧
      ∀ n, t.segment m n = false) ∧
    ((d.overlay = .none ∨ d.overlayTimer = none) → exec (.overlayHalfExpiry m) s = .next s) ∧
    (d.overlay ≠ .none → d.overlayTimer.isSome = true → ∃ t, exec (.overlayHalfExpiry m) s = .next t ∧ only t ∧
      let period := if d.overlay = .flash then (s.displayParams m).flashPeriod else (s.displayParams m).blinkPeriod
      t.display m = { d with
        overlayOn := !d.overlayOn, overlayTimer := some (if d.overlayOn then period - period / 2 else period / 2) }) ∧
    (s.ind.flashTimer = none → exec .lampFlashHalfExpiry s = .next s) ∧
    (s.ind.flashTimer.isSome = true →
      exec .lampFlashHalfExpiry s = .next { s with ind := { s.ind with flashOn := !s.ind.flashOn, flashTimer := some 250 } })

/-! ## Audio frames -/

/-- A frame edge of a source: the first after DETECTING begins a measurement; later ones convert, keep or skip their frame by the
decimation count and push it, or set XRUN on a full FIFO; the eighth closes the measurement, and four of another class in a row
adopt it. Two milliseconds without an edge adopt NONE. Words stand left-justified in 32 bits (the model's choice, log entry 18). -/
def Obligations.SourceFramesAreMeasuredAndKept : Prop :=
  ∀ (s : State) (n : Fin 3), StoreAtRest s →
    let x := s.source n.val
    let c := s.sourceConfig n.val
    let adopted := fun (y : SourceRec) (k : RateClass) (t : State) =>
      (t.source n.val).cls = k ∧ (t.source n.val).candidate = none ∧ (t.source n.val).fifo = [] ∧ (t.source n.val).decim = 0 ∧
      (t.source n.val).xrun = y.xrun ∧
      ((t.source n.val).state = match k with
        | .none => .detecting
        | .unsupported => .unsupported
        | .r48 | .r96 | .r192 => .filling) ∧
      ∃ q, s.seu.events.map Event.kind <+: q.map Event.kind ∧
        t.seu.events = pushEvent { kind := .rateChanged n.val k, time := s.now, lost := false } q
    let frame := fun t : State =>
      t.settings = s.settings ∧ t.pins = s.pins ∧ t.slp = s.slp ∧ t.zae.memory = s.zae.memory ∧ t.zae.clips = s.zae.clips ∧
        t.zae.owners = s.zae.owners ∧ ∀ k, k ≠ n.val → t.source k = s.source k
    (∀ (l r : BitVec 32) (e : Nat),
      (x.state = .disabled → exec (.sourceFrameArrival n l r e) s = .next s) ∧
      (x.state ≠ .disabled → x.measuring = false → exec (.sourceFrameArrival n l r e) s =
        .next (setSource n.val { x with measuring := true, frames := 0, edges := 0, frameTimer := some 2 } s)) ∧
      (x.state ≠ .disabled → x.measuring = true → ∃ t, exec (.sourceFrameArrival n l r e) s = .next t ∧ frame t ∧
        let stored := fun w : BitVec 32 => if c.word = 16 then w.toInt / 65536 * 256 else w.toInt / 256
        let f := (stored l, if c.mono then stored l else stored r)
        let kept := x.cls = .r48 ∨ (x.cls = .r96 ∧ x.decim % 2 = 0) ∨ (x.cls = .r192 ∧ x.decim % 4 = 0)
        let arrived : SourceRec :=
          if x.state ≠ .filling ∧ x.state ≠ .playing then x
          else if ¬ kept then { x with decim := (x.decim + 1) % 4 }
          else if x.fifo.length < c.count * 128 then
            { x with
              decim := (x.decim + 1) % 4, fifo := x.fifo ++ [f]
              state := if x.state = .filling ∧ c.count * 128 / 2 ≤ x.fifo.length + 1 then .playing else x.state }
          else { x with decim := (x.decim + 1) % 4, xrun := true }
        let y : SourceRec := { arrived with frames := x.frames + 1, edges := x.edges + e, frameTimer := some 2 }
        (x.frames + 1 < 8 → t.source n.val = y) ∧
        (8 ≤ x.frames + 1 →
          let k : RateClass :=
            if 508 ≤ y.edges ∧ y.edges ≤ 516 then .r48 else if 252 ≤ y.edges ∧ y.edges ≤ 260 then .r96
            else if 124 ≤ y.edges ∧ y.edges ≤ 132 then .r192 else .unsupported
          let closed : SourceRec := { y with lastCount := y.edges, frames := 0, edges := 0 }
          (k = x.cls → t.source n.val = { closed with candidate := none }) ∧
          (k ≠ x.cls → (∀ i, x.candidate ≠ some (k, i)) → t.source n.val = { closed with candidate := some (k, 1) }) ∧
          (∀ i, k ≠ x.cls → x.candidate = some (k, i) →
            (i + 1 < 4 → t.source n.val = { closed with candidate := some (k, i + 1) }) ∧ (4 ≤ i + 1 → adopted y k t))))) ∧
    (x.frameTimer = none → exec (.frameTimerExpiry n) s = .next s) ∧
    (x.frameTimer.isSome = true → x.cls = .none → exec (.frameTimerExpiry n) s =
      .next (setSource n.val { x with measuring := false, frames := 0, edges := 0, candidate := none, frameTimer := none } s)) ∧
    (x.frameTimer.isSome = true → x.cls ≠ .none → ∃ t, exec (.frameTimerExpiry n) s = .next t ∧ frame t ∧ adopted x .none t ∧
      (t.source n.val).frameTimer = some 2 ∧ (t.source n.val).measuring = false)

/-- An output frame pops every PLAYING source once, moves every voice and the page on by one sample, and gives every zone its mix:
music shifted by V and the duck, or 0 from 24 on, plus the clip or tone term, saturated. A wait that is over hands its first
sample in this frame (log entry 16). A page whose last sample is handed completes in every zone that plays it, and PAGE_ENDED
tells so. The lines of a zone carry what its last frame mixed, within 24 bits. Outside service it does nothing. -/
def Obligations.OutputFrameMixesEveryZone : Prop :=
  (∀ s : State, Consistent s → ∀ z, z < 8 →
    (-8388608 ≤ (s.zoneOutput z).1 ∧ (s.zoneOutput z).1 ≤ 8388607) ∧ -8388608 ≤ (s.zoneOutput z).2 ∧ (s.zoneOutput z).2 ≤ 8388607) ∧
  ∀ s : State,
    (s.phase ≠ .running → exec .outputFrame s = .next s) ∧
    (s.phase = .running → ∃ t, exec .outputFrame s = .next t ∧ t.settings = s.settings ∧ t.pins = s.pins ∧ t.slp = s.slp ∧
      t.zae.memory = s.zae.memory ∧ t.zae.clips = s.zae.clips ∧ t.zae.owners = s.zae.owners ∧
      (∀ n, n < 3 → t.source n = match (s.source n).state, (s.source n).fifo with
        | .playing, _ :: rest => { s.source n with fifo := rest }
        | .playing, [] => { s.source n with xrun := true, state := .filling }
        | _, _ => s.source n) ∧
      ∀ z, z < 8 →
        let c := s.zoneConfig z
        let x := s.voiceBegins (s.zone z)
        let head := fun k : Nat => match (s.source k).state, (s.source k).fifo with
          | .playing, f :: _ => f
          | _, _ => ((0, 0) : Int × Int)
        let given : Int × Int := match c.source with
          | some k => head k
          | none => (0, 0)
        let folded : Int × Int := if c.fold then ((given.1 + given.2) / 2, (given.1 + given.2) / 2) else given
        let sample := fun k place => (readSample s.zae.memory ((s.clip k).start * 256 + place)).toInt * 256 / 2 ^ c.level
        let largest := x.list.foldl (fun d m => max d (s.announce m).duck) 0
        let out := fun (term : Int) (duck : Nat) (v : Int) =>
          max (-8388608) (min 8388607 ((if c.volume + duck ≤ 23 then v / 2 ^ (c.volume + duck) else 0) + term))
        let mixes := fun (term : Int) (duck : Nat) =>
          t.zoneOutput z = (out term duck folded.1, out term duck folded.2) ∧ (t.zone z).duck = duck
        (∀ m rest, (s.zone z).voice = .repeatWait → (s.zone z).list = m :: rest →
          ((s.announce m).repeatInterval * 48 ≤ (s.zone z).since + 1 → x.voice = .play ∧ x.place = 0 ∧ x.list = (s.zone z).list) ∧
          ((s.zone z).since + 1 < (s.announce m).repeatInterval * 48 → x = { s.zone z with since := (s.zone z).since + 1 })) ∧
        ((s.zone z).voice ≠ .repeatWait → x = s.zone z) ∧
        (t.zone z).quiet = (s.zone z).quiet ∧
        (x.voice = .silent → mixes 0 0) ∧
        (x.voice = .repeatWait ∨ x.voice = .played → mixes 0 largest) ∧
        (∀ k, x.voice = .play → x.sound = .clip k → mixes (sample k x.place) largest) ∧
        (x.voice = .play → x.sound = .tone →
          mixes ((if x.place % 120 < 60 then 1048576 else -1048576) / 2 ^ c.level) largest) ∧
        (∀ p, x.voice = .page → s.zae.page = some p → mixes (sample p.clip p.place) p.duck) ∧
        (NoHostEntries s →
          let length := match x.sound with
            | .tone => 24000
            | .clip k => (s.clip k).length
          (x.voice = .play → x.place + 1 < length → (t.zone z).voice = .play ∧ (t.zone z).place = x.place + 1) ∧
          (∀ m rest, x.voice = .play → length ≤ x.place + 1 → x.list = m :: rest →
            (t.zone z).voice = if (s.announce m).repeatInterval = 0 then .played else .repeatWait) ∧
          (∀ p, s.zae.page = some p →
            (p.place + 1 < (s.clip p.clip).length → ((t.zone z).voice = .page ↔ x.voice = .page)) ∧
            ((s.clip p.clip).length ≤ p.place + 1 → x.voice = .page → (t.zone z).voice = .silent) ∧
            ((s.clip p.clip).length ≤ p.place + 1 → t.zae.page = none ∧ (t.seu.events.length < 32 → .pageEnded p.clip
              (Vector.ofFn fun k : Fin 8 => peek p.completed k.val || peek p.playing k.val) p.cut ∈ t.seu.events.map Event.kind)) ∧
            (p.place + 1 < (s.clip p.clip).length → p.playing.any id = true →
              t.zae.page = some { p with place := p.place + 1 }))))

/-! ## Position samples -/

/-- A platform or hatch sample forms the raw positions, the machine position and the two conditions, whatever the channel's state;
a condition that appears raises its cause, one that goes is reported absent. A windlass sample takes the rode count. Outside
service the counts at the converters are all that a sample changes: no position is formed before the end of initialization
(deduced, log entry 20: R24 and R73 can also be read as a sample in initialization giving the position). -/
def Obligations.PositionSampleFormsThePosition : Prop :=
  ∀ (s : State) (x : Sample),
    (s.phase ≠ .running → exec (.positionSample x) s = .next { s with pins := s.pins.withSample x }) ∧
    (s.phase = .running → StoreAtRest s → ∃ t, exec (.positionSample x) s = .next t ∧
      t.pins = s.pins.withSample x ∧ t.settings = s.settings ∧ t.slp = s.slp ∧ t.sfe.rode = s.sfe.rode ∧
      t.sfe.rodeUnknown = s.sfe.rodeUnknown ∧ (∀ k, k ≠ sampleMachine x → (t.chan k).position = (s.chan k).position) ∧
      (x = .windlass → (t.chan .w).position = s.sfe.rode ∧ t.sfe.platform = s.sfe.platform ∧ t.sfe.hatch = s.sfe.hatch) ∧
      (∀ m a b, (m = .p ∧ x = .platform a b) ∨ (m = .h ∧ x = .hatch a b) →
        let q := s.sensorParams m
        let raw := fun (c : Calibration) (n : Nat) =>
          if c.c0 = c.c1 then none else some ((((n : Int) - c.c0) * 1000).tdiv ((c.c1 : Int) - c.c0))
        let clamped := fun r : Option Int => (r.elim 0 fun v => max 0 (min v 1000)).toNat
        let ra := raw q.calA a.toNat
        let rb := raw q.calB b.toNat
        let apart := max (clamped ra) (clamped rb) - min (clamped ra) (clamped rb)
        let y := t.sensors m
        let z := s.sensors m
        y.countA = a.toNat ∧ y.countB = b.toNat ∧ y.rawA = ra ∧ y.rawB = rb ∧
        (t.chan m).position = (clamped ra + clamped rb) / 2 ∧
        (m = .p → t.sfe.hatch = s.sfe.hatch) ∧ (m = .h → t.sfe.platform = s.sfe.platform) ∧
        (ra = none ∨ rb = none ∨ apart ≤ q.tol → y.disagree = 0 ∧ y.sensorBad = false) ∧
        (ra ≠ none → rb ≠ none → q.tol < apart → y.disagree = min (z.disagree + 1) q.disagreeCount ∧
          y.sensorBad = (z.sensorBad || decide (y.disagree = q.disagreeCount))) ∧
        (y.overtravel = true ↔ ∃ v w, ra = some v ∧ rb = some w ∧ (v < -50 ∨ 1050 < v ∨ w < -50 ∨ 1050 < w)) ∧
        (t.cause (sensorCause m)).present =
          (if y.sensorBad = z.sensorBad then (s.cause (sensorCause m)).present else y.sensorBad) ∧
        (t.cause (overtravelCause m)).present =
          (if y.overtravel = z.overtravel then (s.cause (overtravelCause m)).present else y.overtravel) ∧
        (∀ c, (c = sensorCause m ∧ y.sensorBad = true ∧ z.sensorBad = false) ∨
            (c = overtravelCause m ∧ y.overtravel = true ∧ z.overtravel = false) →
          (s.causeSetting c).cls ≠ .self → (s.cause c).present = false → (t.cause c).active = true ∧
            (t.cause c).raisedAt = if (s.cause c).active = true then (s.cause c).raisedAt else some s.now) ∧
        (NoHostEntries s → s.agrees m a.toNat b.toNat → (s.chan m).state ≠ .moving → (s.chan m).state ≠ .stopping →
          t = { s with
                pins := t.pins, mc := s.mc.set m { s.chan m with position := (clamped ra + clamped rb) / 2 }
                sfe := { s.sfe with platform := t.sfe.platform, hatch := t.sfe.hatch }, seu := t.seu, ind := t.ind } ∧
          t.item (Item.atIn m) =
            (!s.uncalibrated m && decide ((clamped ra + clamped rb) / 2 ≤ (s.params m).endBand)) ∧
          t.item (Item.atOut m) =
            (!s.uncalibrated m && decide (1000 ≤ (clamped ra + clamped rb) / 2 + (s.params m).endBand)) ∧
          (m = .h → t.item Item.unsecured =
            (t.item (Item.atIn .h) && !s.pins.pinsLk && decide ((s.chan .h).state = .idle))))))

/-- The pins that move a machine: in MOVING and STOPPING the valve of the run's direction carries the applied demand and the other
is closed, in every other state both are; a valve open has its grant, a flow share no larger than its request, and neither ISOLATE
nor trip record nor ESTOP; BRAKE is released with W in MOVING or STOPPING alone, PIN_UNLOCK and PIN_LOCK active in UNLOCKING and
LOCKING. The demand of a channel at its machine's sample, with the built-in entries alone and with no check that reports. In
MOVING a run at its limit or its target takes that reason and this sample is its first in STOPPING; any other goes up by RampUp to
the capped profile value, or down to it at once. In STOPPING the demand falls by RampDown; at 0 the stop completes, in LOCKING for
a closed hatch with its pins not home, else in IDLE with its grant released and the pump following the release; a channel that
waits then takes the slot and goes on under the running pump, and a press of the machine still VALID starts its station run at
once, its checks passing and LADDER_DOWN, MAT_OCCUPIED and CRADLE_HOME standing at their inputs. Flow request, shares and applied
demands follow. -/
def Obligations.SamplesSetTheDemand : Prop :=
  (∀ s : State, Consistent s →
    (∀ m, let c := s.chan m
      (∀ r, c.live = some r → c.state = .moving ∨ c.state = .stopping → s.valve m r.dir = c.applied ∧ s.valve m r.dir.other = 0) ∧
      (c.state ≠ .moving → c.state ≠ .stopping → ∀ d, s.valve m d = 0) ∧
      (∀ d, s.valve m d ≠ 0 → m ∈ s.hsc.grants ∧ c.flow ≠ 0 ∧ c.share ≤ c.flow ∧ s.hsc.isolate = false ∧ s.fis.trip = none ∧
        (s.phase = .running → s.pins.estop = false) ∧ ∃ r, c.live = some r ∧ r.dir = d)) ∧
    (s.brakeReleased = true ↔ (s.chan .w).state = .moving ∨ (s.chan .w).state = .stopping) ∧
    (s.pinUnlock = true ↔ (s.chan .h).state = .unlocking) ∧ (s.pinLock = true ↔ (s.chan .h).state = .locking) ∧
    (s.brakeReleased = true → .w ∈ s.hsc.grants ∧ s.hsc.isolate = false) ∧
    (s.pinUnlock = true ∨ s.pinLock = true → .h ∈ s.hsc.grants ∧ s.hsc.isolate = false)) ∧
  ∀ (s : State) (x : Sample) (r : RunRec), s.phase = .running → StoreAtRest s → NoHostEntries s → SampleFindsNothing s x →
    let m := sampleMachine x
    let c := s.chan m
    let q := s.params m
    let p := s.positionOf x
    c.live = some r →
    let stop := match r.target, r.dir with
      | some n, _ => n
      | none, .outward => s.positionTop m
      | none, .inward => 0
    let d := match r.dir with
      | .outward => stop - p
      | .inward => p - stop
    let slow := match r.dir with
      | .outward => q.slowOut
      | .inward => q.slowIn
    let limit := match m, r.dir with
      | .w, .outward => decide (p = s.settings.machines.windlass.rodeMax)
      | .w, .inward => s.pins.home
      | _, .outward => decide (1000 ≤ p + q.endBand)
      | _, .inward => decide (p ≤ q.endBand)
    let target := r.target.isSome && decide (d ≤ q.endBand)
    let profile := if slow = 0 ∨ slow ≤ d then
        (if m = .w ∧ r.dir = .inward ∧ r.target = none ∧ d = 0 then q.vcreep else q.vmax)
      else q.vcreep + (q.vmax - q.vcreep) * d / slow
    let mat := if m = .p ∧ s.item Item.matOccupied = true then min 300 profile else profile
    let capped := if m = .w ∧ s.sfe.rodeUnknown = true then min mat q.vcreep else mat
    let ending := c.state = .stopping ∨ limit = true ∨ target = true
    let record : RunRec := if c.state = .stopping then r else
      { r with endReason := some (r.endReason.getD (if limit = true then .limitReached else .targetReached)) }
    let after := fun (st : ChanState) (run : RunRec) (v : Nat) => ∃ t, exec (.positionSample x) s = .next t ∧
      (t.chan m).state = st ∧ (t.chan m).live = some run ∧ (t.chan m).demand = v ∧ (t.chan m).flow = v * q.qmax / 1000 ∧
      (t.chan m).position = p ∧ t.hsc.grants = s.hsc.grants ∧ t.hsc.queue = s.hsc.queue ∧ SharesFlow t ∧
      (∀ k, k ≠ m → t.chan k = { s.chan k with share := (t.chan k).share, applied := (t.chan k).applied })
    (c.state = .moving → ¬ ending →
      after .moving r (if c.demand < capped then min (c.demand + q.rampUp) capped else capped)) ∧
    (c.state = .moving ∨ c.state = .stopping → ending →
      (q.rampDown < c.demand → after .stopping record (c.demand - q.rampDown)) ∧
      (c.demand ≤ q.rampDown →
        (m = .h → r.dir = .inward → p ≤ q.endBand → s.pins.pinsLk = false →
          after .locking record 0 ∧ ∀ t, exec (.positionSample x) s = .next t →
            t.sfe.pinTimer = some s.settings.machines.lockTime) ∧
        (m ≠ .h ∨ r.dir = .outward ∨ q.endBand < p ∨ s.pins.pinsLk = true → s.anyValid m = false → s.hsc.queue = [] →
          ∃ t, exec (.positionSample x) s = .next t ∧ (t.chan m).state = .idle ∧ (t.chan m).live = none ∧
            (t.chan m).last = some { record with endPos := some p } ∧ (t.chan m).refresh = none ∧
            t.hsc.grants = s.hsc.grants.erase m ∧ t.hsc.queue = [] ∧ PumpReleased s.settings.hsu.runOn s.hsc t.hsc ∧
            (∀ k, k ≠ m → t.chan k = { s.chan k with share := (t.chan k).share, applied := (t.chan k).applied })) ∧
        (∀ k rest, m ≠ .h ∨ r.dir = .outward ∨ q.endBand < p ∨ s.pins.pinsLk = true → s.anyValid m = false →
          s.hsc.queue.erase m = k :: rest → k ≠ m → (s.hsc.grants.erase m).length < 2 → s.hsc.pump = .running →
          (k = .h → s.pins.pinsUl = true ∨ (s.chan .h).runsIn .outward = true ∨ s.atInEnd .h = true) →
          ∃ t, exec (.positionSample x) s = .next t ∧ (t.chan m).state = .idle ∧ (t.chan m).live = none ∧
            (t.chan m).last = some { record with endPos := some p } ∧ (t.chan m).refresh = none ∧
            t.hsc.grants = s.hsc.grants.erase m ++ [k] ∧ t.hsc.queue = rest ∧ t.hsc.pump = .running ∧
            t.chan k = { s.chan k with
              state := if k = .h ∧ (s.chan .h).runsIn .outward = true ∧ s.pins.pinsUl = false then .unlocking else .moving
              demand := 0, flow := 0, share := (t.chan k).share, applied := (t.chan k).applied } ∧
            (∀ j, j ≠ m → j ≠ k → t.chan j = { s.chan j with share := (t.chan j).share, applied := (t.chan j).applied })) ∧
        (∀ d, m ≠ .h ∨ r.dir = .outward ∨ q.endBand < p ∨ s.pins.pinsLk = true → s.hsc.queue = [] →
          s.inputState m d = .valid → s.inputState m d.other ≠ .valid → s.affected m = false → s.uncalibrated m = false →
          s.hsc.isolate = false → s.blockMatches m d = false → (∀ i, s.item (plainItem i) = s.itemNow (plainItem i)) →
          (s.hsc.grants.erase m).length < 2 → s.hsc.pump = .running → s.hsc.grants.erase m ≠ [] ∨ s.settings.hsu.runOn ≠ 0 → (m = .w → (s.cause causeCreep).active = false) →
          (m = .h → s.pins.pinsUl = true ∨ d = .outward ∨ p ≤ q.endBand) →
          ∃ t, exec (.positionSample x) s = .next t ∧
            (t.chan m).state = (if m = .h ∧ d = .outward ∧ s.pins.pinsUl = false then .unlocking else .moving) ∧
            (t.chan m).live = some { id := c.counter, origin := .station, dir := d, target := none, startPos := p, endReason := none,
                                     cause := none, endPos := none } ∧
            (t.chan m).last = none ∧ (t.chan m).counter = (c.counter + 1) % 65536 ∧ (t.chan m).dirOut = decide (d = .outward) ∧
            (t.chan m).refresh = none ∧ (t.chan m).demand = 0 ∧ (t.chan m).position = p ∧
            t.hsc.grants = s.hsc.grants.erase m ++ [m] ∧ t.hsc.queue = [] ∧ t.hsc.pump = .running)))

/-! ## The pump -/

/-- PUMP_RUN is on exactly in STARTING, RUNNING and RUN_ON, and off while ISOLATE is asserted, a trip record exists or ESTOP is
active in service. The pump with the built-in entries alone: PRESSURE_OK confirms an attempt in progress and otherwise only stops
or starts the pressure-loss timer; a prime timer that is not of the last attempt leads to the retry gap, the gap to the next
attempt, confirmed at once under pressure, and the run-on timer to OFF. A timer that does not run has no expiry. -/
def Obligations.PumpFollowsItsTimersAndPressure : Prop :=
  (∀ s : State, Consistent s →
    (s.pumpRun = true ↔ s.hsc.pump = .starting ∨ s.hsc.pump = .running ∨ s.hsc.pump = .runOn) ∧
    (s.hsc.isolate = true ∨ s.fis.trip.isSome = true ∨ (s.phase = .running ∧ s.pins.estop = true) → s.pumpRun = false)) ∧
  ∀ (s : State), StoreAtRest s → NoHostEntries s →
    let h := s.hsc
    let hatchClear := MachineId.h ∈ h.grants → (s.chan .h).state = .priming →
      s.pins.pinsUl = true ∨ (s.chan .h).runsIn .outward = true ∨ (s.chan .h).position ≤ (s.params .h).endBand
    (∀ v, s.phase ≠ .running ∨ s.pins.pressureOk = v →
      exec (.pressureOkChange v) s = .next { s with pins := { s.pins with pressureOk := v } }) ∧
    (∀ v, s.phase = .running → s.pins.pressureOk = !v → ∃ t, exec (.pressureOkChange v) s = .next t ∧
      (v = true → h.pump = .starting → hatchClear → PumpConfirmed { s with pins := { s.pins with pressureOk := true } } t) ∧
      (v = false ∨ h.pump ≠ .starting → t.item Item.pressureOk = v ∧
        t = { s with
              pins := { s.pins with pressureOk := v }
              hsc := { h with pressLoss :=
                if h.pump = .running ∨ h.pump = .runOn then (if v then none else some 200) else h.pressLoss }
              seu := t.seu })) ∧
    (h.pump ≠ .starting ∨ h.timer = none → exec .primeTimerExpiry s = .next s) ∧
    (h.pump = .starting → h.timer ≠ none → h.attempt < s.settings.hsu.primeTries → ∃ t, exec .primeTimerExpiry s = .next t ∧
      t = { s with hsc := { h with pump := .retryGap, timer := some 500, pressLoss := none }, seu := t.seu } ∧
      t.item Item.pumpOn = false ∧ t.item Item.starting = true) ∧
    (h.pump ≠ .retryGap ∨ h.timer = none → exec .gapTimerExpiryPump s = .next s) ∧
    (h.pump = .retryGap → h.timer ≠ none → ∃ t, exec .gapTimerExpiryPump s = .next t ∧
      (s.pins.pressureOk = true → hatchClear → PumpConfirmed s t) ∧
      (s.pins.pressureOk = false → t.item Item.pumpOn = true ∧ t.item Item.starting = true ∧
        t = { s with
              hsc := { h with
                pump := .starting, attempt := h.attempt + 1, timer := some s.settings.hsu.primeTime, pressLoss := none }
              seu := t.seu })) ∧
    (h.pump ≠ .runOn ∨ h.timer = none → exec .runOnTimerExpiry s = .next s) ∧
    (h.pump = .runOn → h.timer ≠ none → ∃ t, exec .runOnTimerExpiry s = .next t ∧
      t = { s with hsc := { h with pump := .off, attempt := 0, timer := none, pressLoss := none }, seu := t.seu } ∧
      t.item Item.pumpOn = false ∧ t.item Item.runOn = false)

/-! ## The events that raise a cause -/

/-- Each event that raises a cause, in a part without host entries: the supply failures, hot oil, the windlass overload and stall
and the pin timer. The cause is at rest. Either it takes no new trip and nobody waits for the slots it frees, and it is raised; or
its trip is enabled, no trip record exists and ISOLATE is released, and it trips the part: the record is written, ISOLATE is
asserted, and the runs of the machines it does not affect end ISOLATED. Oil that is hot no longer clears its cause of class SELF
once every input is let go, and the channels that no other cause holds leave HELD. An input in its level already, or a timer that
does not run, changes nothing; outside service an input's level alone is kept. -/
def Obligations.CauseEventsHoldTheirMachines : Prop :=
  ∀ (s : State), Undisturbed s → StoreAtRest s →
    let rest := fun c => (s.cause c).active = false ∧ (s.cause c).present = false ∧
      ((s.causeSetting c).trip = false ∨ s.fis.trip.isSome = true) ∧ s.emptiesQueue c
    let trips := fun c => TripReady c s
    let raised := fun c (u t : State) => (rest c → Raised c u t) ∧ (trips c → Tripped c u t)
    let pumpOff := { s with hsc := { s.hsc with pump := .off, attempt := 0, timer := none, pressLoss := none } }
    let absent := fun c (u : State) => { u with fis := { u.fis with causes := poke u.fis.causes c { u.cause c with present := false } } }
    -- the pump
    (s.hsc.pressLoss = none → exec .pressureLossTimerExpiry s = .next s) ∧
    (s.hsc.pressLoss ≠ none → rest 2 ∨ trips 2 → (s.causeSetting 2).cls ≠ .self →
      ∃ t, exec .pressureLossTimerExpiry s = .next t ∧ raised 2 pumpOff t ∧ (t.cause 2).present = false) ∧
    (s.hsc.pump = .starting → s.hsc.timer ≠ none → s.settings.hsu.primeTries ≤ s.hsc.attempt → rest 1 ∨ trips 1 → (s.causeSetting 1).cls ≠ .self →
      ∃ t, exec .primeTimerExpiry s = .next t ∧ raised 1 pumpOff t ∧ (t.cause 1).present = false) ∧
    -- hot oil
    (∀ v, s.phase ≠ .running ∨ s.pins.oilHot = v → exec (.oilHotChange v) s = .next { s with pins := { s.pins with oilHot := v } }) ∧
    (s.phase = .running → s.pins.oilHot = false → rest 3 ∨ trips 3 → ∃ t, exec (.oilHotChange true) s = .next t ∧
      raised 3 { s with pins := { s.pins with oilHot := true } } t ∧ (t.cause 3).present = true) ∧
    (s.phase = .running → s.pins.oilHot = true → (s.cause 3).active = true → (s.causeSetting 3).cls = .self →
      (∀ i, (s.input i).state = .released ∨ (s.input i).state = .inhibited) → ∃ t, exec (.oilHotChange false) s = .next t ∧
        t.cause 3 = { active := false, present := false, raisedAt := none } ∧ (∀ c, c ≠ 3 → t.cause c = s.cause c) ∧
        (∀ m, (s.chan m).state = .held → (∀ c, c < 16 → c ≠ 3 → (s.cause c).active = true → s.affects c m = false) →
          (t.chan m).state = .idle) ∧
        (∀ m, (s.chan m).state ≠ .held ∨ t.affected m = true → (t.chan m).state = (s.chan m).state) ∧
        (t.seu.events.length < 32 → .faultCleared 3 .self ∈ t.seu.events.map Event.kind) ∧
        t.pins = { s.pins with oilHot := false } ∧ t.hsc = s.hsc ∧ t.siq = s.siq ∧ t.settings = s.settings ∧ t.fis.trip = s.fis.trip) ∧
    (s.phase = .running → s.pins.oilHot = true → (s.cause 3).active = false ∨ (s.causeSetting 3).cls ≠ .self ∨
        (∃ i, (s.input i).state ≠ .released ∧ (s.input i).state ≠ .inhibited) →
      ∃ t, exec (.oilHotChange false) s = .next t ∧ t.item Item.oilHotIn = false ∧
        t = absent 3 { s with pins := { s.pins with oilHot := false }, seu := t.seu }) ∧
    -- windlass overload
    (∀ v, s.phase ≠ .running ∨ s.pins.wOvld = v → exec (.wOvldChange v) s = .next { s with pins := { s.pins with wOvld := v } }) ∧
    (s.phase = .running → s.pins.wOvld = false → ∃ t, exec (.wOvldChange true) s = .next t ∧ t.item Item.overloadIn = true ∧
      t = { s with pins := { s.pins with wOvld := true }, sfe := { s.sfe with overload := some 200 }, seu := t.seu }) ∧
    (s.phase = .running → s.pins.wOvld = true → (s.cause 4).active = false ∨ (s.causeSetting 4).cls ≠ .self →
      ∃ t, exec (.wOvldChange false) s = .next t ∧ t.item Item.overloadIn = false ∧
        t = absent 4 { s with pins := { s.pins with wOvld := false }, sfe := { s.sfe with overload := none }, seu := t.seu }) ∧
    (s.sfe.overload = none → exec .overloadQualifyTimerExpiry s = .next s) ∧
    (s.sfe.overload ≠ none → rest 4 ∨ trips 4 → ∃ t, exec .overloadQualifyTimerExpiry s = .next t ∧
      raised 4 { s with sfe := { s.sfe with overload := none } } t ∧ (t.cause 4).present = true) ∧
    -- windlass stall and hatch pins
    (s.sfe.stall = none → exec .stallTimerExpiry s = .next s) ∧
    (s.sfe.stall ≠ none → rest 5 ∨ trips 5 → (s.causeSetting 5).cls ≠ .self → ∃ t, exec .stallTimerExpiry s = .next t ∧
      raised 5 { s with sfe := { s.sfe with stall := none } } t ∧ (t.cause 5).present = false) ∧
    (s.sfe.pinTimer = none → exec .pinTimerExpiry s = .next s) ∧
    (s.sfe.pinTimer ≠ none → rest 11 ∨ trips 11 → (s.causeSetting 11).cls ≠ .self → ∃ t, exec .pinTimerExpiry s = .next t ∧
      raised 11 s t ∧ (t.cause 11).present = false)

/-! ## The protection inputs -/

/-- ESTOP going active in service raises cause 0 and asserts ISOLATE with the pump OFF; going inactive it leaves the cause active,
and ISOLATE is released unless a trip record exists. An ESTOP in its level already changes nothing, and outside service the level
alone is kept. SERVICE# decides its item alone. -/
def Obligations.EstopRaisesItsCauseAndIsolates : Prop :=
  ∀ (s : State), Undisturbed s → StoreAtRest s →
    (∀ v, s.phase ≠ .running ∨ s.pins.estop = v → exec (.estopChange v) s = .next { s with pins := { s.pins with estop := v } }) ∧
    (s.phase = .running → s.pins.estop = false → (s.cause 0).active = false → (s.cause 0).present = false →
      (s.causeSetting 0).trip = false ∨ s.fis.trip.isSome = true → s.emptiesQueue 0 →
      (s.stopsRunning 0).foldl List.erase s.hsc.grants = [] → ∃ t, exec (.estopChange true) s = .next t ∧
        t.hsc.isolate = true ∧ (t.cause 0).present = true ∧
        (s.hsc.isolate = true → Raised 0 { s with pins := { s.pins with estop := true } } t) ∧
        (s.hsc.isolate = false → t.item Item.isolated = true ∧ t.item Item.isolateOut = true ∧
          Raised 0 { s with
            pins := { s.pins with estop := true }
            hsc := { s.hsc with pump := .off, attempt := 0, timer := none, pressLoss := none } } t)) ∧
    (s.phase = .running → s.pins.estop = true → s.hsc.isolate = true → (s.cause 0).active = false ∨ (s.causeSetting 0).cls ≠ .self →
      (∀ m, s.anyValid m = false) → ∃ t, exec (.estopChange false) s = .next t ∧
        (s.fis.trip = none → t.item Item.isolated = false ∧ t.item Item.isolateOut = false) ∧
        t = { s with
              pins := { s.pins with estop := false }
              fis := { s.fis with causes := poke s.fis.causes 0 { s.cause 0 with present := false } }
              hsc := { s.hsc with isolate := s.fis.trip.isSome }
              seu := t.seu }) ∧
    (∀ v, s.phase ≠ .running ∨ s.pins.service = v →
      exec (.serviceInputChange v) s = .next { s with pins := { s.pins with service := v } }) ∧
    (∀ v, s.phase = .running → s.pins.service = !v → ∃ t, exec (.serviceInputChange v) s = .next t ∧ t.item Item.serviceIn = v ∧
      t = { s with pins := { s.pins with service := v }, seu := t.seu })

/-! ## The rode count -/

/-- A rising edge of GYP_A counts one pocket by GYP_B within 0..RodeMax, none while HOME is closed, and restarts a running stall
timer; HOME closing forces the count to 0 and makes it known, with a RECORDS write if it was unknown, and HOME opening changes its
item alone. A count that has come CreepPockets or more away from the creep reference of an IDLE windlass raises cause 6. During
initialization the count alone follows, and while the part is held in reset nothing does (the model's choice, log entry 13). -/
def Obligations.PocketsAndHomeDecideTheRode : Prop :=
  ∀ (s : State), Undisturbed s → StoreAtRest s →
    let max := s.settings.machines.windlass.rodeMax
    let creeps := fun n : Nat => (s.chan .w).state = .idle ∧ (s.cause 6).present = false ∧ ∃ r, s.sfe.creepRef = some r ∧
      (r + s.settings.machines.windlass.creepPockets ≤ n ∨ n + s.settings.machines.windlass.creepPockets ≤ r)
    let rest := (s.cause 6).active = false ∧ ((s.causeSetting 6).trip = false ∨ s.fis.trip.isSome = true) ∧ s.hsc.queue = []
    let after := { s with pins := { s.pins with home := true }, sfe := { s.sfe with rode := 0, rodeUnknown := false } }
    (∀ b,
      let n := if s.pins.home then 0 else if b then s.sfe.rode - 1 else if s.sfe.rode < max then s.sfe.rode + 1 else s.sfe.rode
      let stall := if s.sfe.stall = none then none else some s.settings.machines.windlass.stallTime
      (s.phase = .heldInReset → exec (.gypARisingEdge b) s = .next s) ∧
      (s.phase = .initializing → exec (.gypARisingEdge b) s = .next { s with sfe := { s.sfe with rode := n } }) ∧
      (s.phase = .running → n = s.sfe.rode ∨ ¬ creeps n → ∃ t, exec (.gypARisingEdge b) s = .next t ∧
        t.item Item.atRodeMax = decide (n = max) ∧ t = { s with sfe := { s.sfe with rode := n, stall := stall }, seu := t.seu }) ∧
      (s.phase = .running → n ≠ s.sfe.rode → creeps n → rest → ∃ t, exec (.gypARisingEdge b) s = .next t ∧
        Raised 6 { s with sfe := { s.sfe with rode := n, stall := stall } } t ∧ (t.cause 6).present = true)) ∧
    (∀ v, s.phase = .heldInReset ∨ s.pins.home = v → exec (.homeChange v) s = .next { s with pins := { s.pins with home := v } }) ∧
    (s.phase = .initializing → s.pins.home = false → exec (.homeChange true) s = .next { s with
      pins := { s.pins with home := true }
      sfe := { s.sfe with rode := 0, rodeUnknown := false, rodeWriteDue := s.sfe.rodeWriteDue || s.sfe.rodeUnknown } }) ∧
    (s.phase = .initializing → s.pins.home = true →
      exec (.homeChange false) s = .next { s with pins := { s.pins with home := false } }) ∧
    (s.phase = .running → s.pins.home = true → ∃ t, exec (.homeChange false) s = .next t ∧ t.item Item.atHome = false ∧
      t = { s with pins := { s.pins with home := false }, seu := t.seu }) ∧
    (s.phase = .running → s.pins.home = false →
      (¬ creeps 0 → ∃ t, exec (.homeChange true) s = .next t ∧
        t.item Item.atHome = true ∧ t.item Item.rodeUnknown = false ∧ t.item Item.atRodeMax = decide (0 = max) ∧
        t = { after with seu := t.seu, sto := t.sto } ∧
        (s.sfe.rodeUnknown = false → t.sto = s.sto) ∧
        (s.sfe.rodeUnknown = true → s.sto.writing = none →
          t.sto.writing = some { data := .records (recordsNow after), mark := false }) ∧
        (s.sfe.rodeUnknown = true → s.sto.writing.isSome = true → isPending .records t.sto.queue = true)) ∧
      (creeps 0 → rest → ∃ t, exec (.homeChange true) s = .next t ∧ Raised 6 after t ∧ (t.cause 6).present = true))

/-! ## The hatch pins -/

/-- PINS_UL and PINS_LK set their items. PINS_UL drawn ends UNLOCKING into MOVING at demand 0, with the pin timer stopped and the
flow shared anew; PINS_UL lost in MOVING raises cause 11. PINS_LK home ends LOCKING: the run is completed with the reason it
carried and the hatch is IDLE without a grant; with nobody waiting the pump follows the release, and otherwise the free slot goes
to the channel that has waited longest, which enters MOVING under the running pump. Nothing else moves. -/
def Obligations.PinInputsEndTheirSequences : Prop :=
  ∀ (s : State), Undisturbed s → StoreAtRest s →
    let ul := fun v => { s with pins := { s.pins with pinsUl := v } }
    let lk := fun v => { s with pins := { s.pins with pinsLk := v } }
    let rest := (s.cause 11).active = false ∧ (s.cause 11).present = false ∧
      ((s.causeSetting 11).trip = false ∨ s.fis.trip.isSome = true) ∧ s.emptiesQueue 11 ∧ (s.causeSetting 11).cls ≠ .self
    let kept := fun t : State => t.phase = s.phase ∧ t.now = s.now ∧ t.settings = s.settings ∧ t.slp = s.slp ∧ t.siq = s.siq ∧
      t.fis = s.fis ∧ t.sfe.rode = s.sfe.rode ∧ t.hsc.isolate = s.hsc.isolate ∧
      ∀ m, m ≠ .h → t.chan m = { s.chan m with share := (t.chan m).share, applied := (t.chan m).applied }
    -- PINS_UL
    (∀ v, s.phase ≠ .running ∨ s.pins.pinsUl = v → exec (.pinsUlChange v) s = .next (ul v)) ∧
    (∀ v, s.phase = .running → s.pins.pinsUl = !v →
      (v = true → (s.chan .h).state ≠ .unlocking) → (v = false → (s.chan .h).state ≠ .moving) →
      ∃ t, exec (.pinsUlChange v) s = .next t ∧ t.item Item.pinsUnlocked = v ∧ t = { ul v with seu := t.seu }) ∧
    (s.phase = .running → s.pins.pinsUl = false → (s.chan .h).state = .unlocking → ∃ t, exec (.pinsUlChange true) s = .next t ∧
      t.chan .h = { s.chan .h with
        state := .moving, demand := 0, flow := 0, share := (t.chan .h).share, applied := (t.chan .h).applied } ∧
      t.sfe.pinTimer = none ∧ t.pinUnlock = false ∧ SharesFlow t ∧ t.hsc.grants = s.hsc.grants ∧ t.hsc.queue = s.hsc.queue ∧
      t.pins = (ul true).pins ∧ kept t) ∧
    (s.phase = .running → s.pins.pinsUl = true → (s.chan .h).state = .moving → rest → ∃ t, exec (.pinsUlChange false) s = .next t ∧
      Raised 11 (ul false) t ∧ (t.cause 11).present = false) ∧
    -- PINS_LK
    (∀ v, s.phase ≠ .running ∨ s.pins.pinsLk = v → exec (.pinsLkChange v) s = .next (lk v)) ∧
    (∀ v, s.phase = .running → s.pins.pinsLk = !v → (v = true → (s.chan .h).state ≠ .locking) →
      ∃ t, exec (.pinsLkChange v) s = .next t ∧ t.item Item.pinsLocked = v ∧
        t.item Item.unsecured = (s.item (Item.atIn .h) && !v && (s.chan .h).state == .idle) ∧ t = { lk v with seu := t.seu }) ∧
    (∀ r, s.phase = .running → s.pins.pinsLk = false → (s.chan .h).state = .locking → (s.chan .h).live = some r →
      s.anyValid .h = false → s.hsc.queue.erase .h = [] → ∃ t, exec (.pinsLkChange true) s = .next t ∧
      (t.chan .h).state = .idle ∧ (t.chan .h).live = none ∧ (t.chan .h).last = some { r with endPos := some (s.chan .h).position } ∧
      t.pinLock = false ∧ t.hsc.grants = s.hsc.grants.erase .h ∧ t.hsc.queue = [] ∧ t.pins = (lk true).pins ∧ kept t ∧
      PumpReleased s.settings.hsu.runOn s.hsc t.hsc) ∧
    (∀ r k rest, s.phase = .running → s.pins.pinsLk = false → (s.chan .h).state = .locking → (s.chan .h).live = some r →
      s.anyValid .h = false → s.hsc.queue.erase .h = k :: rest → k ≠ .h → (s.hsc.grants.erase .h).length < 2 →
      s.hsc.pump = .running → ∃ t, exec (.pinsLkChange true) s = .next t ∧
      (t.chan .h).state = .idle ∧ (t.chan .h).live = none ∧ (t.chan .h).last = some { r with endPos := some (s.chan .h).position } ∧
      t.pinLock = false ∧ t.hsc.grants = s.hsc.grants.erase .h ++ [k] ∧ t.hsc.queue = rest ∧ t.hsc.pump = .running ∧
      t.chan k = { s.chan k with
        state := .moving, demand := 0, flow := 0, share := (t.chan k).share, applied := (t.chan k).applied } ∧
      (∀ m, m ≠ .h → m ≠ k → t.chan m = { s.chan m with share := (t.chan m).share, applied := (t.chan m).applied }) ∧
      t.settings = s.settings ∧ t.siq = s.siq ∧ t.fis = s.fis ∧ t.sfe.rode = s.sfe.rode)

/-! ## Hold-to-run inputs -/

/-- The patterns of a hold-to-run input, what a change of its contacts does in each of its states, and what an inhibit order does.
A contact change that takes the input neither to VALID nor to RELEASED moves the input and its items alone; the entry into
RELEASED ends the conflict once both inputs are RELEASED; a press that returns from RELEASING to VALID goes on without disturbing
its run. -/
def Obligations.ContactsMoveAHoldToRunInput : Prop :=
  (patternOf false true = .released ∧ patternOf true false = .pressed ∧ patternOf false false = .partly ∧ patternOf true true = .partly) ∧
  (∀ (x : HoldRec) (r : Nat),
    (x.state = .released ∨ x.state = .faulted ∨ x.state = .inhibited → x.inhibited r = x) ∧
    (x.state = .early ∨ x.state = .agreed ∨ x.state = .valid ∨ x.state = .releasing →
      (x.a = false → x.b = true → x.inhibited r = { x with state := .inhibited, timer := some (.release, r) }) ∧
      (x.a = true ∨ x.b = false → x.inhibited r = { x with state := .inhibited, timer := none }))) ∧
  ∀ (s : State) (i : HoldInput) (a b : Bool), Undisturbed s → StoreAtRest s →
    let x := s.input i
    let y := { x with a := a, b := b }
    let p := s.settings.stations
    let becomes := fun z : HoldRec => ∃ t, exec (.holdToRunLevelChange i a b) s = .next t ∧ t = { setInput i z s with seu := t.seu }
    let goes := fun (st : InputState) timer => becomes { y with state := st, timer := timer }
    (x.a = a → x.b = b → exec (.holdToRunLevelChange i a b) s = .next s) ∧
    (s.phase ≠ .running → exec (.holdToRunLevelChange i a b) s = .next (setInput i y s)) ∧
    (s.phase = .running → x.a ≠ a ∨ x.b ≠ b →
      (patternOf a b = patternOf x.a x.b → becomes y) ∧
      (patternOf a b ≠ patternOf x.a x.b →
        (a = b →
          (x.state = .released ∨ x.state = .agreed → goes .early (some (.disagree, p.disagreeTime))) ∧
          (x.state = .valid ∨ x.state = .releasing → goes .releasing (some (.disagree, p.disagreeTime))) ∧
          (x.state = .faulted ∨ x.state = .inhibited → goes x.state none)) ∧
        (a = true → b = false →
          (x.state = .released ∨ x.state = .early → goes .agreed (some (.qualify, p.qualifyTime))) ∧
          (x.state = .faulted ∨ x.state = .inhibited → goes x.state none) ∧
          (x.state = .releasing → s.inputState i.machine i.dir.other ≠ .valid → (s.chan i.machine).hasLinkRun = false →
            (s.chan i.machine).state ≠ .idle → goes .valid none)) ∧
        (a = false → b = true →
          (x.state = .valid ∨ x.state = .releasing → goes .releasing (some (.release, p.releaseTime))) ∧
          (x.state = .faulted ∨ x.state = .inhibited → goes x.state (some (.release, p.releaseTime))) ∧
          (x.state = .early ∨ x.state = .agreed → ∃ t, exec (.holdToRunLevelChange i a b) s = .next t ∧
            t = { setInput i { y with state := .released, timer := none } s with mc := t.mc, seu := t.seu } ∧
            ∀ m, t.chan m = { s.chan m with conflict := (s.chan m).conflict &&
              !(decide (m = i.machine) && decide (s.inputState m i.dir.other = .released)) }))))

/-- The timers of a hold-to-run input. Qualification makes it VALID: the second VALID input of a machine is a conflict, the first
ends a LINK run OVERRIDDEN, starts a station run on an IDLE channel whose checks pass, and otherwise moves the input alone. That
it starts the run with the other input still INHIBITED, after a conflict, is the model's choice (log entry 35). A disagreement
faults it and raises cause 12 for its machine. The release time takes it to RELEASED, ends the station run of its press RELEASED,
and takes it out of the faulted-station set, which may end cause 12 and the hold. A timer that does not run, or runs in a state it
has no place in, has no expiry. -/
def Obligations.TimersQualifyFaultAndRelease : Prop :=
  ∀ (s : State) (i : HoldInput), Undisturbed s → StoreAtRest s →
    let x := s.input i
    let m := i.machine
    let c := s.chan m
    let other := s.inputState m i.dir.other
    let set := fun st : InputState => setInput i { x with state := st, timer := none } s
    let running := fun (k : StationTimer) => ∃ n, x.timer = some (k, n)
    let unconflicted := c.conflict && !decide (other = .released)
    -- qualify
    (x.state ≠ .agreed ∨ ¬ running .qualify → exec (.qualifyTimerExpiry i) s = .next s) ∧
    (x.state = .agreed → running .qualify →
      (other = .valid → s.hsc.queue.erase m = [] → ∃ t, exec (.qualifyTimerExpiry i) s = .next t ∧ (t.chan m).conflict = true ∧
        (∀ d, t.input ⟨m, d⟩ = ((set .valid).input ⟨m, d⟩).inhibited s.settings.stations.releaseTime) ∧ RampedEnd m .conflict s t) ∧
      (other ≠ .valid →
        (c.hasLinkRun = true → ∃ t, exec (.qualifyTimerExpiry i) s = .next t ∧ RampedEnd m .overridden (set .valid) t) ∧
        (c.hasLinkRun = false →
          (s.startCheck m i.dir ≠ .passes → ∃ t, exec (.qualifyTimerExpiry i) s = .next t ∧
            t = { set .valid with seu := t.seu }) ∧
          (s.startCheck m i.dir = .passes → (m = .w → (s.cause causeCreep).active = false) → (s.hsc.pump = .off → s.hsc.grants = []) →
            (m = .h → s.pins.pinsUl = true ∨ i.dir = .outward ∨ s.atInEnd .h = true) → ∃ t, exec (.qualifyTimerExpiry i) s = .next t ∧
            (t.chan m).live = some { id := c.counter, origin := .station, dir := i.dir, target := none, startPos := c.position,
                                     endReason := none, cause := none, endPos := none } ∧
            (t.chan m).last = none ∧ (t.chan m).counter = (c.counter + 1) % 65536 ∧ (t.chan m).dirOut = decide (i.dir = .outward) ∧
            (t.chan m).refresh = none ∧ (t.chan m).demand = 0 ∧
            (s.hsc.grants.length < 2 → t.hsc.grants = s.hsc.grants ++ [m] ∧ t.hsc.queue = s.hsc.queue) ∧
            (2 ≤ s.hsc.grants.length → (t.chan m).state = .waiting ∧ t.hsc.queue = s.hsc.queue ++ [m]) ∧
            (∀ k, k ≠ m → (t.chan k).state = (s.chan k).state ∧ (t.chan k).live = (s.chan k).live) ∧
            t.siq = (set .valid).siq ∧ t.settings = s.settings)))) ∧
    -- disagree
    ((x.state ≠ .early ∧ x.state ≠ .releasing) ∨ ¬ running .disagree → exec (.disagreeTimerExpiry i) s = .next s) ∧
    (x.state = .early ∨ x.state = .releasing → running .disagree → (s.cause 12).active = false →
      (s.cause 12).present = false → (s.causeSetting 12).trip = false ∨ s.fis.trip.isSome = true →
      (setFaulted i true s).emptiesQueue 12 → ∃ t, exec (.disagreeTimerExpiry i) s = .next t ∧
        Raised 12 (setFaulted i true (set .faulted)) t ∧ (t.cause 12).present = true) ∧
    -- release
    (¬ running .release → exec (.releaseTimerExpiry i) s = .next s) ∧
    (running .release → x.state = .inhibited ∨
        (x.state = .releasing ∧ ∀ r, c.live = some r → r.origin = .link ∨ r.dir = i.dir.other) → ∃ t, exec (.releaseTimerExpiry i) s = .next t ∧
      t = { set .released with mc := t.mc, seu := t.seu } ∧
      ∀ k, t.chan k = { s.chan k with conflict := if k = m then unconflicted else (s.chan k).conflict }) ∧
    (∀ r, running .release → x.state = .releasing → c.live = some r → r.origin = .station → r.dir = i.dir →
      s.anyValid m = false → s.hsc.queue.erase m = [] → ∃ t, exec (.releaseTimerExpiry i) s = .next t ∧ RampedEnd m .released (set .released) t) ∧
    (running .release → x.state = .faulted → s.fis.faulted = (setFaulted i true { s with fis := Fis.fresh }).fis.faulted →
      (s.cause 12).active = true → (s.causeSetting 12).cls = .self → (∀ k, s.anyValid k = false) →
      ∃ t, exec (.releaseTimerExpiry i) s = .next t ∧ (t.cause 12).active = false ∧ (t.cause 12).present = false ∧
        t.anyStationFaulted = false ∧ (c.state = .held → (∀ k, k < 16 → k ≠ 12 → (s.cause k).active = true → s.affects k m = false) →
          (t.chan m).state = .idle))

/-! ## Buttons and guest keys -/

/-- A contact's level starts or stops its debounce timer; at expiry the debounced state takes the level, a contact found open is
armed and stays so through its presses (deduced, log entry 30), and a press of an armed contact activates its display, starts its
long-press timer, or toggles QUIET of the zone its guest key is bound to and queues GUEST_KEY. A press of an unarmed contact and a
release have no effect but on the item and the long-press timer. -/
def Obligations.ContactsAreDebouncedAndPressed : Prop :=
  ∀ (s : State) (c : ContactId), StoreAtRest s →
    let x := contactOf s.siq c
    let with' := fun y : ContactRec => { s with siq := setContact c y s.siq }
    (∀ v, x.closed = v → exec (.buttonLevelChange c v) s = .next s) ∧
    (∀ v, s.phase ≠ .running → exec (.buttonLevelChange c v) s = .next (with' { x with closed := v })) ∧
    (∀ v, s.phase = .running → x.closed ≠ v → exec (.buttonLevelChange c v) s = .next (with' { x with
      closed := v, debounce := if v = x.pressed then none else some (x.debounce.getD s.settings.stations.qualifyTime) })) ∧
    (x.debounce = none → exec (.debounceTimerExpiry c) s = .next s) ∧
    (x.debounce ≠ none → NoHostEntries s → ∃ t, exec (.debounceTimerExpiry c) s = .next t ∧
      let base := with' { x with pressed := x.closed, debounce := none, armed := x.armed || !x.closed }
      let long := fun (m : MachineId) (n : Timer) => { base with siq := { base.siq with longPress := base.siq.longPress.set m n } }
      let press := x.closed = true ∧ x.armed = true
      (∀ m, c = .display m → t.item (Item.displayButton m) = x.closed ∧
        (¬ press → t = { base with seu := t.seu }) ∧
        (press → t = { base with seu := t.seu, ind := t.ind } ∧ (∀ k, k ≠ m → t.display k = s.display k) ∧
          ((s.display m).state = .off → s.target m = 0 ∨ (s.displayParams m).rampDelay = 0 →
            (t.display m).state = .showing ∧ (t.display m).lit = s.target m) ∧
          ((s.display m).state = .off → 0 < s.target m → 0 < (s.displayParams m).rampDelay →
            (t.display m).state = .ramping ∧ (t.display m).lit = 0 ∧ (t.display m).ramp = some (s.displayParams m).rampDelay) ∧
          ((s.display m).state = .ramping → t.display m = s.display m) ∧
          ((s.display m).state = .showing → t.display m =
            if (s.chan m).state = .idle ∨ (s.chan m).state = .disabled then
              { s.display m with hold := some ((s.displayParams m).holdTime * 1000) } else s.display m))) ∧
      (∀ m, c = .reset m → t.item (Item.resetButton m) = x.closed ∧
        (press → t = { long m (some 3000) with seu := t.seu }) ∧
        (x.closed = true → x.armed = false → t = { base with seu := t.seu }) ∧
        (x.closed = false → t = { long m none with seu := t.seu })) ∧
      (∀ k, c = .key k →
        (¬ press → t = base) ∧
        (press → peek s.settings.stations.bindings k.val = none → t = { base with seu := { s.seu with
          events := pushEvent { kind := .guestKey k.val none, time := s.now, lost := false } s.seu.events } }) ∧
        (press → ∀ z, z < 8 → peek s.settings.stations.bindings k.val = some z →
          (t.zone z).quiet = !(s.zone z).quiet ∧ t.item (Item.quiet z) = !(s.zone z).quiet ∧ t.siq = base.siq ∧
          Relisted (setZone z { s.zone z with quiet := !(s.zone z).quiet } base) t ∧
          (t.seu.events.length < 32 → .guestKey k.val (some (z, !(s.zone z).quiet)) ∈ t.seu.events.map Event.kind))))

/-- A long press at a station clears the active CREW causes of its machine whose condition is absent, with W_CREEP at the windlass
and STATION_CHANNEL while its set is empty, and lets the channels go that no active cause then affects. Every other cause stays. -/
def Obligations.LongPressClearsTheCrewCauses : Prop :=
  ∀ (s : State) (m : MachineId), StoreAtRest s →
    (s.siq.longPress.get m = none → exec (.longPressTimerExpiry m) s = .next s) ∧
    (s.siq.longPress.get m ≠ none → NoHostEntries s → (∀ k, s.anyValid k = false) → ∃ t, exec (.longPressTimerExpiry m) s = .next t ∧
      let clears := fun c => (s.cause c).active && decide ((s.causeSetting c).cls = .crew) && !(s.cause c).present &&
        (s.affects c m || decide (m = .w ∧ c = 6) || decide (c = 12 ∧ s.anyStationFaulted = false))
      (∀ c, c < 16 → t.cause c = if clears c then { s.cause c with active := false, raisedAt := none } else s.cause c) ∧
      (∀ k, (∃ c, c < 16 ∧ clears c = true) → (s.chan k).state = .held → t.affected k = false → (t.chan k).state = .idle) ∧
      (∀ k, (s.chan k).state ≠ .held ∨ t.affected k = true → (t.chan k).state = (s.chan k).state) ∧
      t.siq = { s.siq with longPress := s.siq.longPress.set m none } ∧ t.hsc = s.hsc ∧ t.settings = s.settings ∧ t.pins = s.pins ∧
      t.fis.trip = s.fis.trip ∧ t.fis.faulted = s.fis.faulted)

/-! ## Store writes -/

/-- A write that completes leaves the section's copy with the contents written when it verifies, and failing its check when it
does not; every other copy stays. STORE_DONE is queued when it failed or carried the host mark. The next section in the queue
begins its write with its contents as they then stand, and STORE_BUSY stays true while there is one. Without a write in progress
nothing completes. -/
def Obligations.WriteCompletesAndTheNextBegins : Prop :=
  ∀ (s : State) (ok : Bool),
    (s.sto.writing = none → StoreAtRest s → exec (.storeWriteCompletion ok) s = .next s) ∧
    ∀ w, s.sto.writing = some w → s.phase = .running → NoHostEntries s → ∃ t, exec (.storeWriteCompletion ok) s = .next t ∧
      (∀ x, t.sto.passes x = if x = w.data.name then ok else s.sto.passes x) ∧
      (ok = true → t.sto.holds w.data) ∧
      (∀ d : SectionData, d.name ≠ w.data.name → (t.sto.holds d ↔ s.sto.holds d)) ∧
      (s.sto.queue = [] → t.sto.queue = [] ∧ t.sto.writing = none ∧ t.item Item.storeBusy = false) ∧
      (∀ x mark rest, s.sto.queue = (x, mark) :: rest →
        t.sto.queue = rest ∧ t.sto.writing = some { data := contentsNow s x, mark := mark } ∧ t.item Item.storeBusy = true) ∧
      ((w.mark = true ∨ ok = false) → t.seu.events.length < 32 → .storeDone w.data.name ok ∈ t.seu.events.map Event.kind) ∧
      ((∀ i, i < 8 → (peek s.seu.watches i).last = none) → t.seu.events =
        if w.mark = true ∨ ok = false then pushEvent { kind := .storeDone w.data.name ok, time := s.now, lost := false } s.seu.events
        else s.seu.events) ∧
      t = { s with sto := t.sto, seu := t.seu }

/-! ## What every step keeps -/

/-- Between the steps: no channel outside MOVING and STOPPING has a demand; the event queue, the grant list, the source FIFOs, the
clips and the rode count keep within their bounds, the count being 0 while HOME is closed; the sample memory keeps its canonical
form; every zone output lies in the 24-bit domain; the pending writes are each there once with RECORDS at their head, and none
waits while none is in progress. A grant is held by exactly the channels in the states that R1 names, a place in the wait queue by
exactly those in WAITING, and none has either twice; ISOLATE is asserted while a trip record exists, and in service while ESTOP is
active, and it leaves no grant, nobody waiting and the pump OFF; every armed watch holds the combined value of its items as they
stand, and outside service none is armed and no request is in service; every interlock entry of the host, stored or in force, is
one that WRITE INTERLOCK may leave. Whatever the state, the next step keeps all of it. -/
def Obligations.EveryStepKeepsTheInvariants : Prop :=
  ∀ s t : State, Consistent s → step s = .next t → Consistent t

/-- The part as it is when its supply is applied for the first time meets the invariants. -/
def Obligations.ResetMeetsTheInvariants : Prop := Consistent State.reset
end

