-- ==== Sys2Proof/Laws/State.lean ====
section
/-! SUPPORT. One lemma for each field of the state under each block's update, all by definition. -/

namespace Sys2Proof.Machine

section
variable (f : Pins → Pins) (s : State)

@[simp] theorem State.onPins_phase : (s.onPins f).phase = s.phase := rfl
@[simp] theorem State.onPins_resetCause : (s.onPins f).resetCause = s.resetCause := rfl
@[simp] theorem State.onPins_now : (s.onPins f).now = s.now := rfl
@[simp] theorem State.onPins_pins : (s.onPins f).pins = f s.pins := rfl
@[simp] theorem State.onPins_settings : (s.onPins f).settings = s.settings := rfl
@[simp] theorem State.onPins_slp : (s.onPins f).slp = s.slp := rfl
@[simp] theorem State.onPins_mc : (s.onPins f).mc = s.mc := rfl
@[simp] theorem State.onPins_sfe : (s.onPins f).sfe = s.sfe := rfl
@[simp] theorem State.onPins_hsc : (s.onPins f).hsc = s.hsc := rfl
@[simp] theorem State.onPins_siq : (s.onPins f).siq = s.siq := rfl
@[simp] theorem State.onPins_fis : (s.onPins f).fis = s.fis := rfl
@[simp] theorem State.onPins_zae : (s.onPins f).zae = s.zae := rfl
@[simp] theorem State.onPins_ind : (s.onPins f).ind = s.ind := rfl
@[simp] theorem State.onPins_seu : (s.onPins f).seu = s.seu := rfl
@[simp] theorem State.onPins_sto : (s.onPins f).sto = s.sto := rfl
@[simp] theorem State.onPins_pending : (s.onPins f).pending = s.pending := rfl

end

section
variable (f : Settings → Settings) (s : State)

@[simp] theorem State.onSettings_phase : (s.onSettings f).phase = s.phase := rfl
@[simp] theorem State.onSettings_resetCause : (s.onSettings f).resetCause = s.resetCause := rfl
@[simp] theorem State.onSettings_now : (s.onSettings f).now = s.now := rfl
@[simp] theorem State.onSettings_pins : (s.onSettings f).pins = s.pins := rfl
@[simp] theorem State.onSettings_settings : (s.onSettings f).settings = f s.settings := rfl
@[simp] theorem State.onSettings_slp : (s.onSettings f).slp = s.slp := rfl
@[simp] theorem State.onSettings_mc : (s.onSettings f).mc = s.mc := rfl
@[simp] theorem State.onSettings_sfe : (s.onSettings f).sfe = s.sfe := rfl
@[simp] theorem State.onSettings_hsc : (s.onSettings f).hsc = s.hsc := rfl
@[simp] theorem State.onSettings_siq : (s.onSettings f).siq = s.siq := rfl
@[simp] theorem State.onSettings_fis : (s.onSettings f).fis = s.fis := rfl
@[simp] theorem State.onSettings_zae : (s.onSettings f).zae = s.zae := rfl
@[simp] theorem State.onSettings_ind : (s.onSettings f).ind = s.ind := rfl
@[simp] theorem State.onSettings_seu : (s.onSettings f).seu = s.seu := rfl
@[simp] theorem State.onSettings_sto : (s.onSettings f).sto = s.sto := rfl
@[simp] theorem State.onSettings_pending : (s.onSettings f).pending = s.pending := rfl

end

section
variable (f : Slp → Slp) (s : State)

@[simp] theorem State.onSlp_phase : (s.onSlp f).phase = s.phase := rfl
@[simp] theorem State.onSlp_resetCause : (s.onSlp f).resetCause = s.resetCause := rfl
@[simp] theorem State.onSlp_now : (s.onSlp f).now = s.now := rfl
@[simp] theorem State.onSlp_pins : (s.onSlp f).pins = s.pins := rfl
@[simp] theorem State.onSlp_settings : (s.onSlp f).settings = s.settings := rfl
@[simp] theorem State.onSlp_slp : (s.onSlp f).slp = f s.slp := rfl
@[simp] theorem State.onSlp_mc : (s.onSlp f).mc = s.mc := rfl
@[simp] theorem State.onSlp_sfe : (s.onSlp f).sfe = s.sfe := rfl
@[simp] theorem State.onSlp_hsc : (s.onSlp f).hsc = s.hsc := rfl
@[simp] theorem State.onSlp_siq : (s.onSlp f).siq = s.siq := rfl
@[simp] theorem State.onSlp_fis : (s.onSlp f).fis = s.fis := rfl
@[simp] theorem State.onSlp_zae : (s.onSlp f).zae = s.zae := rfl
@[simp] theorem State.onSlp_ind : (s.onSlp f).ind = s.ind := rfl
@[simp] theorem State.onSlp_seu : (s.onSlp f).seu = s.seu := rfl
@[simp] theorem State.onSlp_sto : (s.onSlp f).sto = s.sto := rfl
@[simp] theorem State.onSlp_pending : (s.onSlp f).pending = s.pending := rfl

end

section
variable (f : Three Channel → Three Channel) (s : State)

@[simp] theorem State.onMc_phase : (s.onMc f).phase = s.phase := rfl
@[simp] theorem State.onMc_resetCause : (s.onMc f).resetCause = s.resetCause := rfl
@[simp] theorem State.onMc_now : (s.onMc f).now = s.now := rfl
@[simp] theorem State.onMc_pins : (s.onMc f).pins = s.pins := rfl
@[simp] theorem State.onMc_settings : (s.onMc f).settings = s.settings := rfl
@[simp] theorem State.onMc_slp : (s.onMc f).slp = s.slp := rfl
@[simp] theorem State.onMc_mc : (s.onMc f).mc = f s.mc := rfl
@[simp] theorem State.onMc_sfe : (s.onMc f).sfe = s.sfe := rfl
@[simp] theorem State.onMc_hsc : (s.onMc f).hsc = s.hsc := rfl
@[simp] theorem State.onMc_siq : (s.onMc f).siq = s.siq := rfl
@[simp] theorem State.onMc_fis : (s.onMc f).fis = s.fis := rfl
@[simp] theorem State.onMc_zae : (s.onMc f).zae = s.zae := rfl
@[simp] theorem State.onMc_ind : (s.onMc f).ind = s.ind := rfl
@[simp] theorem State.onMc_seu : (s.onMc f).seu = s.seu := rfl
@[simp] theorem State.onMc_sto : (s.onMc f).sto = s.sto := rfl
@[simp] theorem State.onMc_pending : (s.onMc f).pending = s.pending := rfl

end

section
variable (f : Sfe → Sfe) (s : State)

@[simp] theorem State.onSfe_phase : (s.onSfe f).phase = s.phase := rfl
@[simp] theorem State.onSfe_resetCause : (s.onSfe f).resetCause = s.resetCause := rfl
@[simp] theorem State.onSfe_now : (s.onSfe f).now = s.now := rfl
@[simp] theorem State.onSfe_pins : (s.onSfe f).pins = s.pins := rfl
@[simp] theorem State.onSfe_settings : (s.onSfe f).settings = s.settings := rfl
@[simp] theorem State.onSfe_slp : (s.onSfe f).slp = s.slp := rfl
@[simp] theorem State.onSfe_mc : (s.onSfe f).mc = s.mc := rfl
@[simp] theorem State.onSfe_sfe : (s.onSfe f).sfe = f s.sfe := rfl
@[simp] theorem State.onSfe_hsc : (s.onSfe f).hsc = s.hsc := rfl
@[simp] theorem State.onSfe_siq : (s.onSfe f).siq = s.siq := rfl
@[simp] theorem State.onSfe_fis : (s.onSfe f).fis = s.fis := rfl
@[simp] theorem State.onSfe_zae : (s.onSfe f).zae = s.zae := rfl
@[simp] theorem State.onSfe_ind : (s.onSfe f).ind = s.ind := rfl
@[simp] theorem State.onSfe_seu : (s.onSfe f).seu = s.seu := rfl
@[simp] theorem State.onSfe_sto : (s.onSfe f).sto = s.sto := rfl
@[simp] theorem State.onSfe_pending : (s.onSfe f).pending = s.pending := rfl

end

section
variable (f : Hsc → Hsc) (s : State)

@[simp] theorem State.onHsc_phase : (s.onHsc f).phase = s.phase := rfl
@[simp] theorem State.onHsc_resetCause : (s.onHsc f).resetCause = s.resetCause := rfl
@[simp] theorem State.onHsc_now : (s.onHsc f).now = s.now := rfl
@[simp] theorem State.onHsc_pins : (s.onHsc f).pins = s.pins := rfl
@[simp] theorem State.onHsc_settings : (s.onHsc f).settings = s.settings := rfl
@[simp] theorem State.onHsc_slp : (s.onHsc f).slp = s.slp := rfl
@[simp] theorem State.onHsc_mc : (s.onHsc f).mc = s.mc := rfl
@[simp] theorem State.onHsc_sfe : (s.onHsc f).sfe = s.sfe := rfl
@[simp] theorem State.onHsc_hsc : (s.onHsc f).hsc = f s.hsc := rfl
@[simp] theorem State.onHsc_siq : (s.onHsc f).siq = s.siq := rfl
@[simp] theorem State.onHsc_fis : (s.onHsc f).fis = s.fis := rfl
@[simp] theorem State.onHsc_zae : (s.onHsc f).zae = s.zae := rfl
@[simp] theorem State.onHsc_ind : (s.onHsc f).ind = s.ind := rfl
@[simp] theorem State.onHsc_seu : (s.onHsc f).seu = s.seu := rfl
@[simp] theorem State.onHsc_sto : (s.onHsc f).sto = s.sto := rfl
@[simp] theorem State.onHsc_pending : (s.onHsc f).pending = s.pending := rfl

end

section
variable (f : Siq → Siq) (s : State)

@[simp] theorem State.onSiq_phase : (s.onSiq f).phase = s.phase := rfl
@[simp] theorem State.onSiq_resetCause : (s.onSiq f).resetCause = s.resetCause := rfl
@[simp] theorem State.onSiq_now : (s.onSiq f).now = s.now := rfl
@[simp] theorem State.onSiq_pins : (s.onSiq f).pins = s.pins := rfl
@[simp] theorem State.onSiq_settings : (s.onSiq f).settings = s.settings := rfl
@[simp] theorem State.onSiq_slp : (s.onSiq f).slp = s.slp := rfl
@[simp] theorem State.onSiq_mc : (s.onSiq f).mc = s.mc := rfl
@[simp] theorem State.onSiq_sfe : (s.onSiq f).sfe = s.sfe := rfl
@[simp] theorem State.onSiq_hsc : (s.onSiq f).hsc = s.hsc := rfl
@[simp] theorem State.onSiq_siq : (s.onSiq f).siq = f s.siq := rfl
@[simp] theorem State.onSiq_fis : (s.onSiq f).fis = s.fis := rfl
@[simp] theorem State.onSiq_zae : (s.onSiq f).zae = s.zae := rfl
@[simp] theorem State.onSiq_ind : (s.onSiq f).ind = s.ind := rfl
@[simp] theorem State.onSiq_seu : (s.onSiq f).seu = s.seu := rfl
@[simp] theorem State.onSiq_sto : (s.onSiq f).sto = s.sto := rfl
@[simp] theorem State.onSiq_pending : (s.onSiq f).pending = s.pending := rfl

end

section
variable (f : Fis → Fis) (s : State)

@[simp] theorem State.onFis_phase : (s.onFis f).phase = s.phase := rfl
@[simp] theorem State.onFis_resetCause : (s.onFis f).resetCause = s.resetCause := rfl
@[simp] theorem State.onFis_now : (s.onFis f).now = s.now := rfl
@[simp] theorem State.onFis_pins : (s.onFis f).pins = s.pins := rfl
@[simp] theorem State.onFis_settings : (s.onFis f).settings = s.settings := rfl
@[simp] theorem State.onFis_slp : (s.onFis f).slp = s.slp := rfl
@[simp] theorem State.onFis_mc : (s.onFis f).mc = s.mc := rfl
@[simp] theorem State.onFis_sfe : (s.onFis f).sfe = s.sfe := rfl
@[simp] theorem State.onFis_hsc : (s.onFis f).hsc = s.hsc := rfl
@[simp] theorem State.onFis_siq : (s.onFis f).siq = s.siq := rfl
@[simp] theorem State.onFis_fis : (s.onFis f).fis = f s.fis := rfl
@[simp] theorem State.onFis_zae : (s.onFis f).zae = s.zae := rfl
@[simp] theorem State.onFis_ind : (s.onFis f).ind = s.ind := rfl
@[simp] theorem State.onFis_seu : (s.onFis f).seu = s.seu := rfl
@[simp] theorem State.onFis_sto : (s.onFis f).sto = s.sto := rfl
@[simp] theorem State.onFis_pending : (s.onFis f).pending = s.pending := rfl

end

section
variable (f : Zae → Zae) (s : State)

@[simp] theorem State.onZae_phase : (s.onZae f).phase = s.phase := rfl
@[simp] theorem State.onZae_resetCause : (s.onZae f).resetCause = s.resetCause := rfl
@[simp] theorem State.onZae_now : (s.onZae f).now = s.now := rfl
@[simp] theorem State.onZae_pins : (s.onZae f).pins = s.pins := rfl
@[simp] theorem State.onZae_settings : (s.onZae f).settings = s.settings := rfl
@[simp] theorem State.onZae_slp : (s.onZae f).slp = s.slp := rfl
@[simp] theorem State.onZae_mc : (s.onZae f).mc = s.mc := rfl
@[simp] theorem State.onZae_sfe : (s.onZae f).sfe = s.sfe := rfl
@[simp] theorem State.onZae_hsc : (s.onZae f).hsc = s.hsc := rfl
@[simp] theorem State.onZae_siq : (s.onZae f).siq = s.siq := rfl
@[simp] theorem State.onZae_fis : (s.onZae f).fis = s.fis := rfl
@[simp] theorem State.onZae_zae : (s.onZae f).zae = f s.zae := rfl
@[simp] theorem State.onZae_ind : (s.onZae f).ind = s.ind := rfl
@[simp] theorem State.onZae_seu : (s.onZae f).seu = s.seu := rfl
@[simp] theorem State.onZae_sto : (s.onZae f).sto = s.sto := rfl
@[simp] theorem State.onZae_pending : (s.onZae f).pending = s.pending := rfl

end

section
variable (f : Ind → Ind) (s : State)

@[simp] theorem State.onInd_phase : (s.onInd f).phase = s.phase := rfl
@[simp] theorem State.onInd_resetCause : (s.onInd f).resetCause = s.resetCause := rfl
@[simp] theorem State.onInd_now : (s.onInd f).now = s.now := rfl
@[simp] theorem State.onInd_pins : (s.onInd f).pins = s.pins := rfl
@[simp] theorem State.onInd_settings : (s.onInd f).settings = s.settings := rfl
@[simp] theorem State.onInd_slp : (s.onInd f).slp = s.slp := rfl
@[simp] theorem State.onInd_mc : (s.onInd f).mc = s.mc := rfl
@[simp] theorem State.onInd_sfe : (s.onInd f).sfe = s.sfe := rfl
@[simp] theorem State.onInd_hsc : (s.onInd f).hsc = s.hsc := rfl
@[simp] theorem State.onInd_siq : (s.onInd f).siq = s.siq := rfl
@[simp] theorem State.onInd_fis : (s.onInd f).fis = s.fis := rfl
@[simp] theorem State.onInd_zae : (s.onInd f).zae = s.zae := rfl
@[simp] theorem State.onInd_ind : (s.onInd f).ind = f s.ind := rfl
@[simp] theorem State.onInd_seu : (s.onInd f).seu = s.seu := rfl
@[simp] theorem State.onInd_sto : (s.onInd f).sto = s.sto := rfl
@[simp] theorem State.onInd_pending : (s.onInd f).pending = s.pending := rfl

end

section
variable (f : Seu → Seu) (s : State)

@[simp] theorem State.onSeu_phase : (s.onSeu f).phase = s.phase := rfl
@[simp] theorem State.onSeu_resetCause : (s.onSeu f).resetCause = s.resetCause := rfl
@[simp] theorem State.onSeu_now : (s.onSeu f).now = s.now := rfl
@[simp] theorem State.onSeu_pins : (s.onSeu f).pins = s.pins := rfl
@[simp] theorem State.onSeu_settings : (s.onSeu f).settings = s.settings := rfl
@[simp] theorem State.onSeu_slp : (s.onSeu f).slp = s.slp := rfl
@[simp] theorem State.onSeu_mc : (s.onSeu f).mc = s.mc := rfl
@[simp] theorem State.onSeu_sfe : (s.onSeu f).sfe = s.sfe := rfl
@[simp] theorem State.onSeu_hsc : (s.onSeu f).hsc = s.hsc := rfl
@[simp] theorem State.onSeu_siq : (s.onSeu f).siq = s.siq := rfl
@[simp] theorem State.onSeu_fis : (s.onSeu f).fis = s.fis := rfl
@[simp] theorem State.onSeu_zae : (s.onSeu f).zae = s.zae := rfl
@[simp] theorem State.onSeu_ind : (s.onSeu f).ind = s.ind := rfl
@[simp] theorem State.onSeu_seu : (s.onSeu f).seu = f s.seu := rfl
@[simp] theorem State.onSeu_sto : (s.onSeu f).sto = s.sto := rfl
@[simp] theorem State.onSeu_pending : (s.onSeu f).pending = s.pending := rfl

end

section
variable (f : Sto → Sto) (s : State)

@[simp] theorem State.onSto_phase : (s.onSto f).phase = s.phase := rfl
@[simp] theorem State.onSto_resetCause : (s.onSto f).resetCause = s.resetCause := rfl
@[simp] theorem State.onSto_now : (s.onSto f).now = s.now := rfl
@[simp] theorem State.onSto_pins : (s.onSto f).pins = s.pins := rfl
@[simp] theorem State.onSto_settings : (s.onSto f).settings = s.settings := rfl
@[simp] theorem State.onSto_slp : (s.onSto f).slp = s.slp := rfl
@[simp] theorem State.onSto_mc : (s.onSto f).mc = s.mc := rfl
@[simp] theorem State.onSto_sfe : (s.onSto f).sfe = s.sfe := rfl
@[simp] theorem State.onSto_hsc : (s.onSto f).hsc = s.hsc := rfl
@[simp] theorem State.onSto_siq : (s.onSto f).siq = s.siq := rfl
@[simp] theorem State.onSto_fis : (s.onSto f).fis = s.fis := rfl
@[simp] theorem State.onSto_zae : (s.onSto f).zae = s.zae := rfl
@[simp] theorem State.onSto_ind : (s.onSto f).ind = s.ind := rfl
@[simp] theorem State.onSto_seu : (s.onSto f).seu = s.seu := rfl
@[simp] theorem State.onSto_sto : (s.onSto f).sto = f s.sto := rfl
@[simp] theorem State.onSto_pending : (s.onSto f).pending = s.pending := rfl

end

end Sys2Proof.Machine
end

