-- ==== Sys2Proof/Laws/Tables.lean ====
section
/-! SUPPORT. Reading a numbered table, a pair or a triple after one entry has been written. -/

namespace Sys2Proof

theorem peek_poke_same {α : Type} [Inhabited α] {n : Nat} (v : Vector α n) {i : Nat} (h : i < n) (x : α) :
    peek (poke v i x) i = x := by
  simp [peek, poke, h]

theorem peek_poke_other {α : Type} [Inhabited α] {n : Nat} (v : Vector α n) {i j : Nat} (h : i ≠ j) (x : α) :
    peek (poke v i x) j = peek v j := by
  simp only [peek, poke]
  by_cases hj : j < n
  · simp [hj, h]
  · simp [hj]

/-- The written entry reads as written inside the table, and as before outside it. -/
theorem peek_poke {α : Type} [Inhabited α] {n : Nat} (v : Vector α n) (i j : Nat) (x : α) :
    peek (poke v i x) j = if i = j ∧ i < n then x else peek v j := by
  by_cases h : i = j
  · subst h
    by_cases hi : i < n
    · simp [hi, peek_poke_same]
    · simp [peek, poke, hi]
  · simp [h, peek_poke_other]

theorem Three.get_set {α : Type} (t : Three α) (m k : MachineId) (x : α) :
    (t.set m x).get k = if m = k then x else t.get k := by
  cases m <;> cases k <;> rfl

@[simp] theorem Three.get_set_same {α : Type} (t : Three α) (m : MachineId) (x : α) : (t.set m x).get m = x := by
  cases m <;> rfl

theorem Pair.get_set {α : Type} (t : Pair α) (d e : Direction) (x : α) :
    (t.set d x).get e = if d = e then x else t.get e := by
  cases d <;> cases e <;> rfl

@[simp] theorem Pair.get_set_same {α : Type} (t : Pair α) (d : Direction) (x : α) : (t.set d x).get d = x := by
  cases d <;> rfl

namespace Machine

theorem setChan_chan (m k : MachineId) (c : Channel) (s : State) :
    (setChan m c s).chan k = if m = k then c else s.chan k :=
  Three.get_set _ _ _ _

@[simp] theorem setChan_chan_same (m : MachineId) (c : Channel) (s : State) : (setChan m c s).chan m = c :=
  Three.get_set_same _ _ _

theorem setCause_cause (c d : Nat) (x : CauseRec) (s : State) :
    (setCause c x s).cause d = if c = d ∧ c < 16 then x else s.cause d :=
  peek_poke _ _ _ _

theorem setInput_input (i j : HoldInput) (x : HoldRec) (s : State) :
    (setInput i x s).input j = if i = j then x else s.input j := by
  obtain ⟨m, d⟩ := i
  obtain ⟨k, e⟩ := j
  simp only [State.input, setInput, State.onSiq_siq, Three.get_set]
  by_cases hm : m = k
  · subst hm
    simp [Pair.get_set]
  · simp [hm]

theorem setZone_zone (z k : Nat) (x : ZoneRec) (s : State) :
    (setZone z x s).zone k = if z = k ∧ z < 8 then x else s.zone k :=
  peek_poke _ _ _ _

theorem setSource_source (n k : Nat) (x : SourceRec) (s : State) :
    (setSource n x s).source k = if n = k ∧ n < 3 then x else s.source k :=
  peek_poke _ _ _ _

theorem setClip_clip (k j : Nat) (c : ClipRec) (s : State) :
    (setClip k c s).clip j = if k = j ∧ k < 16 then c else s.clip j :=
  peek_poke _ _ _ _

theorem setDisplay_display (m k : MachineId) (d : DisplayRec) (s : State) :
    (setDisplay m d s).display k = if m = k then d else s.display k :=
  Three.get_set _ _ _ _

/-! ## Sets as masks (R185) -/

theorem maskOf_succ (n : Nat) (f : Nat → Bool) : maskOf (n + 1) f = if f n then maskOf n f + 2 ^ n else maskOf n f := by
  unfold maskOf
  rw [List.range_succ, List.foldl_append]
  rfl

theorem maskOf_lt (n : Nat) (f : Nat → Bool) : maskOf n f < 2 ^ n := by
  induction n with
  | zero => exact Nat.one_pos
  | succ n ih =>
    rw [maskOf_succ, Nat.pow_succ]
    split <;> omega

theorem maskOf_testBit (n : Nat) (f : Nat → Bool) (k : Nat) : (maskOf n f).testBit k = (decide (k < n) && f k) := by
  induction n with
  | zero => simp [maskOf]
  | succ n ih =>
    rw [maskOf_succ]
    have hl := maskOf_lt n f
    have e : maskOf n f + 2 ^ n = 2 ^ n ||| maskOf n f := by
      have := Nat.two_pow_add_eq_or_of_lt hl 1
      rw [Nat.mul_one] at this
      omega
    by_cases hk : k = n
    · subst hk
      have : (maskOf k f).testBit k = false := Nat.testBit_lt_two_pow hl
      split
      · rw [e, Nat.testBit_or, this]; simp [*]
      · rw [this]; simp [*]
    · have e2 : decide (k < n + 1) = decide (k < n) := by apply decide_eq_decide.mpr; omega
      rw [e2]
      split
      · rw [e, Nat.testBit_or, ih, Nat.testBit_two_pow]; simp [Ne.symm hk]
      · exact ih

end Machine

end Sys2Proof
end

