-- ==== Sys2Proof/Laws/Cascade.lean ====
section
/-! SUPPORT. What the messages of one handling can do, said once: `Cascade s t` holds when `t` comes from `s` by the small moves of
`Move`, and every shared operation of the cascade is such a chain as soon as what carries its messages out is. -/

namespace Sys2Proof.Machine

/-- No two items share a place. -/
theorem index_inj {r q : ItemRef} (hr : r.exists = true) (hq : q.exists = true) (h : r.index = q.index) : r = q := by
  obtain ⟨g, k⟩ := r; obtain ⟨g', k'⟩ := q
  simp only [ItemRef.exists, ItemRef.index, decide_eq_true_eq] at hr hq h
  cases g <;> cases g' <;> simp only [Group.size, Group.code] at hr hq h <;> first | omega | (have : k = k' := by omega); subst this; rfl

theorem index_lt {r : ItemRef} (hr : r.exists = true) : r.index < 144 := by
  obtain ⟨g, k⟩ := r
  simp only [ItemRef.exists, ItemRef.index, decide_eq_true_eq] at hr ⊢
  cases g <;> simp only [Group.size, Group.code] at hr ⊢ <;> omega

/-- The items that the built-in entries name (R118). -/
def builtInItems : List ItemRef := [Item.ladderDown, Item.cradleHome, Item.matOccupied]

/-- The items that their owners report at the value of their rule and at no other: all but BRAKE_RELEASED, which a channel reports
false before it has left its running state (R16). -/
def Reported (q : ItemRef) : Prop := q.exists = true ∧ q ≠ Item.brakeReleased

theorem reported_builtIn : ∀ q ∈ builtInItems, Reported q := by unfold Reported; decide

/-! ## The moves -/

/-- A channel's new record: the position stays, a channel shut stays shut, and one that draws no more than it asked for goes on so. -/
structure ChannelMove (c d : Channel) : Prop where
  position : d.position = c.position
  shut : (c.state.isFlowing = false → c.demand = 0 ∧ c.flow = 0 ∧ c.share = 0 ∧ c.applied = 0) →
    d.state.isFlowing = false → d.demand = 0 ∧ d.flow = 0 ∧ d.share = 0 ∧ d.applied = 0
  dry : c.share ≤ c.flow ∧ (c.flow = 0 → c.applied = 0) → d.share ≤ d.flow ∧ (d.flow = 0 → d.applied = 0)

/-- A cause's new record: only W_CREEP and H_PINS change their condition, only H_PINS is raised, and only a SELF cause whose
condition is absent is cleared; a cause at rest keeps its time of raise. -/
structure CauseMove (s : State) (c : Nat) (x : CauseRec) : Prop where
  present : c ≠ causeCreep → c ≠ causePins → x.present = (s.cause c).present
  raised : c ≠ causePins → x.active = true → (s.cause c).active = true
  kept : (s.cause c).active = true → (s.causeSetting c).cls ≠ .self → x.active = true ∧ x.raisedAt = (s.cause c).raisedAt
  standing : c ≠ causeCreep → c ≠ causePins → (s.cause c).active = true → (s.cause c).present = true →
    x.active = true ∧ x.raisedAt = (s.cause c).raisedAt
  resting : c ≠ causePins → (s.cause c).active = false → x.raisedAt = (s.cause c).raisedAt

/-- What asserts ISOLATE: a trip record or the ESTOP input (R114). -/
def IsolateWanted (s : State) : Prop := s.fis.trip.isSome = true ∨ s.pins.estop = true

/-- The small moves of a cascade. -/
inductive Move : State → State → Prop
  | seu (s : State) (u : Seu) (h : u.events = s.seu.events ∨ ∃ e, u.events = pushEvent e s.seu.events)
      (w : ∀ i, peek u.watches i = { peek s.seu.watches i with last := (peek u.watches i).last })
      (b : ∀ q, Reported q → peek u.items q.index = peek s.seu.items q.index ∨ peek u.items q.index = s.itemNow q) :
      Move s { s with seu := u }
  | chan (s : State) (m : MachineId) (c : Channel) (h : ChannelMove (s.chan m) c) : Move s (setChan m c s)
  | sfe (s : State) (x : Sfe)
      (h : x = { s.sfe with stall := x.stall, creepRef := x.creepRef, pinTimer := x.pinTimer }) : Move s { s with sfe := x }
  | hsc (s : State) (x : Hsc) (w : x.isolate = true → s.hsc.isolate = true ∨ IsolateWanted s) (h : s.hsc.grants.length ≤ grantSlots → x.grants.length ≤ grantSlots)
      (i : s.hsc.isolate = true → x.isolate = true) : Move s { s with hsc := x }
  | input (s : State) (i : HoldInput) : Move s (setInput i ((s.input i).inhibited s.settings.stations.releaseTime) s)
  | cause (s : State) (c : Nat) (x : CauseRec) (h : CauseMove s c x) : Move s (setCause c x s)
  | trip (s : State) (r : TripRec) (h : s.fis.trip = none) : Move s (s.onFis fun f => { f with trip := some r })
  | zone (s : State) (z : Nat) (x : ZoneRec)
      (h : x.quiet = (s.zone z).quiet ∧ x.left = (s.zone z).left ∧ x.right = (s.zone z).right ∧ x.duck = (s.zone z).duck) :
      Move s (setZone z x s)
  | page (s : State) (p : Option PageRec)
      (h : ∀ y, p = some y → ∃ x, s.zae.page = some x ∧ y.clip = x.clip ∧ y.duck = x.duck ∧ y.place = x.place) :
      Move s (s.onZae fun a => { a with page := p })
  | display (s : State) (m : MachineId) (d : DisplayRec) : Move s (setDisplay m d s)
  | store (s : State) (x : SectionName) (mark : Bool) :
      Move s (s.onSto fun t => { t with queue := enqueueWrite x mark t.queue })

/-- A chain of moves. -/
def Cascade (s t : State) : Prop := Relation.ReflTransGen Move s t

theorem Cascade.refl (s : State) : Cascade s s := Relation.ReflTransGen.refl

theorem Cascade.trans {a s t : State} (h : Cascade a s) (k : Cascade s t) : Cascade a t := Relation.ReflTransGen.trans h k

theorem Cascade.move {a s t : State} (h : Cascade a s) (k : Move s t) : Cascade a t := Relation.ReflTransGen.tail h k

/-- The messages that a cascade sends: of reports, H_PINS, and the end of W_CREEP at a start (R67, R86). -/
def Msg.Inner : Msg → Prop
  | .report c p => c = causePins ∨ c = causeCreep ∧ p = false
  | .itemChanged _ | .tryStart _ | .letGo _ => True

/-- What carries messages out does it by cascades. -/
def Cascades (go : Go) : Prop := ∀ m s, m.Inner → Cascade s (go m s)

theorem Cascades.step {go : Go} (hgo : Cascades go) {a s : State} (h : Cascade a s) (m : Msg)
    (hm : m.Inner := by first | exact trivial | exact .inl rfl) : Cascade a (go m s) :=
  h.trans (hgo m s hm)

theorem cascade_foldl {α : Type} {f : State → α → State} {a : State} (xs : List α)
    (hf : ∀ {s} x, x ∈ xs → Cascade a s → Cascade a (f s x)) {s : State} (h : Cascade a s) : Cascade a (xs.foldl f s) := by
  induction xs generalizing s with
  | nil => exact h
  | cons x xs ih =>
    exact ih (fun y hy hs => hf y (List.mem_cons_of_mem _ hy) hs) (hf x List.mem_cons_self h)

theorem cascade_ite {a s t : State} {p : Prop} [Decidable p] (hs : p → Cascade a s) (ht : ¬p → Cascade a t) :
    Cascade a (if p then s else t) := by
  split
  · exact hs ‹_›
  · exact ht ‹_›

theorem cascade_when {a s t : State} {p : Prop} [Decidable p] (hs : Cascade a s) (ht : Cascade a s → Cascade a t) :
    Cascade a (if p then t else s) :=
  cascade_ite (fun _ => ht hs) (fun _ => hs)

/-! ## Events, watches, items, store requests -/

variable {go : Go} {a s : State}

theorem cascade_queueEvent (k : EventKind) (h : Cascade a s) : Cascade a (queueEvent k s) :=
  h.move (.seu s _ (.inr ⟨_, rfl⟩) (fun _ => rfl) fun _ _ => .inl rfl)

theorem cascade_setWatch (i : Nat) (v : Option Bool) (h : Cascade a s) :
    Cascade a (s.onSeu fun u => { u with watches := poke u.watches i { peek s.seu.watches i with last := v } }) := by
  refine h.move (.seu s _ (.inl rfl) (fun j => ?_) fun _ _ => .inl rfl)
  dsimp only
  rw [peek_poke]
  split
  · rename_i hij
    rw [← hij.1]
  · rfl

/-- New items, where each that is reported at its rule's value keeps its value or takes its owner's. -/
theorem cascade_setItems (x : Vector Bool 144) (h : Cascade a s)
    (hx : ∀ q, Reported q → peek x q.index = peek s.seu.items q.index ∨ peek x q.index = s.itemNow q) :
    Cascade a (s.onSeu fun u => { u with items := x }) :=
  h.move (.seu s { s.seu with items := x } (.inl rfl) (fun _ => rfl) hx)

theorem cascade_evalWatches (g : Group) (h : Cascade a s) : Cascade a (evalWatches g s) := by
  refine cascade_foldl _ (fun {s} i _ hs => ?_) h
  unfold evalWatch
  dsimp only
  split
  · exact hs
  · split
    · split
      · exact hs
      · split
        · exact cascade_setWatch (s := queueEvent _ s) i _ (cascade_queueEvent _ hs)
        · exact cascade_setWatch i _ hs
    · exact hs

theorem cascade_setItem (hgo : Cascades go) (r : ItemRef) (v : Bool) (hv : Reported r → v = s.itemNow r) (h : Cascade a s) :
    Cascade a (setItem go r v s) := by
  unfold setItem
  split
  · exact h
  · rename_i hr
    refine hgo.step (cascade_evalWatches _ (cascade_setItems _ h fun q hq => ?_)) _
    rw [peek_poke]
    split
    · rename_i e
      have he : r = q := index_inj (by simpa using fun k => hr (.inr k)) hq.1 e.1
      exact .inr (by rw [hv (he ▸ hq), he])
    · exact .inl rfl

theorem cascade_publish (hgo : Cascades go) (r : ItemRef) (h : Cascade a s) : Cascade a (publish go s r) :=
  cascade_setItem hgo r _ (fun _ => rfl) h

theorem cascade_publishAll (hgo : Cascades go) (rs : List ItemRef) (h : Cascade a s) : Cascade a (publishAll go rs s) :=
  cascade_foldl rs (fun r _ hs => cascade_publish hgo r hs) h

theorem cascade_requestWrite (hgo : Cascades go) (x : SectionName) (mark : Bool) (h : Cascade a s) :
    Cascade a (requestWrite go x mark s) :=
  cascade_publish hgo _ (h.move (.store s x mark))

/-! ## Displays -/

theorem cascade_setDisplay (m : MachineId) (d : DisplayRec) (h : Cascade a s) : Cascade a (setDisplay m d s) :=
  h.move (.display s m d)

theorem cascade_judgeOverlay (m : MachineId) (h : Cascade a s) : Cascade a (judgeOverlay m s) := by
  unfold judgeOverlay
  dsimp only
  split
  · exact h
  · exact cascade_setDisplay _ _ h

theorem cascade_continueRamp (m : MachineId) (h : Cascade a s) : Cascade a (continueRamp m s) := by
  unfold continueRamp enterShowing
  dsimp only
  repeat' split
  all_goals first | exact h | exact cascade_setDisplay _ _ h

theorem cascade_refreshDisplay (m : MachineId) (h : Cascade a s) : Cascade a (refreshDisplay m s) := by
  unfold refreshDisplay
  refine cascade_judgeOverlay m ?_
  split
  · exact h
  · exact cascade_continueRamp m h
  · exact cascade_setDisplay _ _ h

theorem cascade_activate (m : MachineId) (h : Cascade a s) : Cascade a (activate m s) := by
  unfold activate
  split
  · exact cascade_judgeOverlay m (cascade_continueRamp m (cascade_setDisplay _ _ h))
  · exact h
  · split
    · exact cascade_setDisplay _ _ h
    · exact h

theorem cascade_displayFollows (old : ChanState) (m : MachineId) (h : Cascade a s) : Cascade a (displayFollows old m s) := by
  unfold displayFollows
  dsimp only
  refine cascade_judgeOverlay m ?_
  repeat' split
  all_goals first | exact h | exact cascade_setDisplay _ _ h

/-! ## Announce lists and pages -/

/-- The fields of a zone that a cascade leaves alone. -/
def SameZone (x y : ZoneRec) : Prop := y.quiet = x.quiet ∧ y.left = x.left ∧ y.right = x.right ∧ y.duck = x.duck

theorem sameZone_withList (t : State) (new : List MachineId) (z : ZoneRec) : SameZone z (t.withList new z) := by
  unfold State.withList
  dsimp only
  split
  · exact ⟨rfl, rfl, rfl, rfl⟩
  · exact ⟨rfl, rfl, rfl, rfl⟩
  · exact ⟨rfl, rfl, rfl, rfl⟩
  · split <;> exact ⟨rfl, rfl, rfl, rfl⟩

theorem cascade_setZone (z : Nat) (x : ZoneRec) (hx : SameZone (s.zone z) x) (h : Cascade a s) : Cascade a (setZone z x s) :=
  h.move (.zone s z x hx)

theorem setZones_page {α : Type} (f : State → α → State) (xs : List α) (hf : ∀ s x, (f s x).zae.page = s.zae.page) (s : State) :
    (xs.foldl f s).zae.page = s.zae.page := by
  induction xs generalizing s with
  | nil => rfl
  | cons x xs ih => simp [ih, hf]

theorem cascade_cutPage (f : Nat → Bool) (h : Cascade a s) : Cascade a (cutPage f s) := by
  unfold cutPage
  split
  · exact h
  · rename_i p hp
    dsimp only
    refine Cascade.move (cascade_foldl _ (fun {t} z _ ht => ?_) h) (.page _ _ fun y hy => ?_)
    · split
      · exact cascade_setZone z _ ⟨rfl, rfl, rfl, rfl⟩ ht
      · exact ht
    · refine ⟨p, ?_, ?_⟩
      · rw [setZones_page _ _ (fun t z => ?_)]
        · exact hp
        · split <;> rfl
      · injection hy with hy
        subst hy
        exact ⟨rfl, rfl, rfl⟩

theorem cascade_endPageIfDone (hgo : Cascades go) (h : Cascade a s) : Cascade a (endPageIfDone go s) := by
  unfold endPageIfDone
  split
  · exact h
  · split
    · exact h
    · exact cascade_publish hgo _
        ((cascade_queueEvent _ h).move (.page _ none fun _ hy => nomatch hy))

theorem cascade_reconsiderLists (hgo : Cascades go) (h : Cascade a s) : Cascade a (reconsiderLists go s) := by
  unfold reconsiderLists
  exact cascade_endPageIfDone hgo (cascade_publishAll hgo _ (cascade_cutPage _
    (cascade_foldl _ (fun {t} z _ ht => cascade_setZone z _ (sameZone_withList _ _ _) ht) h)))

theorem cascade_cancelPageNow (hgo : Cascades go) (h : Cascade a s) : Cascade a (cancelPageNow go s) :=
  cascade_endPageIfDone hgo (cascade_cutPage _ h)

end Sys2Proof.Machine
end

