-- ==== Sys2Proof/Laws/CascadeSupply.lean ====
section
/-! SUPPORT. The channels and the hydraulic supply controller move by cascades. -/

namespace Sys2Proof.Machine

variable {go : Go} {a s : State}

/-! ## Channels -/

/-- A record with the same state, position and demand values is a channel's move. -/
theorem channelMove_same {c d : Channel} (hs : d.state = c.state) (hp : d.position = c.position) (hd : d.demand = c.demand)
    (hf : d.flow = c.flow) (hg : d.share = c.share) (ha : d.applied = c.applied) : ChannelMove c d :=
  ⟨hp, fun h k => by rw [hd, hf, hg, ha]; exact h (hs ▸ k), fun h => by rw [hf, hg, ha]; exact h⟩

theorem channelMove_inState (c : Channel) (st : ChanState) : ChannelMove c (c.inState st) := by
  cases st <;> first
    | exact ⟨rfl, fun _ _ => ⟨rfl, rfl, rfl, rfl⟩, fun _ => ⟨Nat.le_refl _, fun _ => rfl⟩⟩
    | exact ⟨rfl, fun _ k => Bool.noConfusion k, fun h => h⟩

/-- A share never exceeds the request, and a request of 0 has none (R52). -/
theorem shareOf_le (avail total r v qmax : Nat) :
    (shareOf avail total r v qmax).1 ≤ r ∧ (r = 0 → (shareOf avail total r v qmax).2 = 0) := by
  unfold shareOf
  split
  · exact ⟨Nat.zero_le _, fun _ => rfl⟩
  · rename_i hr
    refine ⟨?_, fun h => absurd h hr⟩
    split
    · exact Nat.le_refl _
    · rename_i ht
      dsimp only
      refine Nat.div_le_of_le_mul ?_
      rw [Nat.mul_comm total]
      exact Nat.mul_le_mul_left _ (by omega)

/-- Flow sharing leaves every channel shut that was, whatever flow it asked for (R1, R52). -/
theorem shared_dry (s : State) (m : MachineId) : (s.shared m).share ≤ (s.shared m).flow ∧ ((s.shared m).flow = 0 → (s.shared m).applied = 0) := by
  unfold State.shared
  dsimp only
  split
  · exact shareOf_le _ _ _ _ _
  · exact ⟨Nat.zero_le _, fun _ => rfl⟩

theorem channelMove_shared (s : State) (m : MachineId) : ChannelMove (s.chan m) (s.shared m) := by
  refine ⟨?_, fun h k => ?_, fun _ => shared_dry s m⟩
  · unfold State.shared; dsimp only; split <;> rfl
  · unfold State.shared at k ⊢
    dsimp only at k ⊢
    split
    · rename_i hd
      rw [if_pos hd] at k
      have : (s.chan m).state.isFlowing = false := k
      simp [State.draws, this] at hd
    · rename_i hd
      rw [if_neg hd] at k
      exact ⟨(h k).1, (h k).2.1, rfl, rfl⟩

theorem cascade_setChan (m : MachineId) (c : Channel) (hc : ChannelMove (s.chan m) c) (h : Cascade a s) :
    Cascade a (setChan m c s) :=
  h.move (.chan s m c hc)

theorem cascade_sfe (f : Sfe → Sfe)
    (hf : f s.sfe = { s.sfe with stall := (f s.sfe).stall, creepRef := (f s.sfe).creepRef, pinTimer := (f s.sfe).pinTimer })
    (h : Cascade a s) : Cascade a (s.onSfe f) :=
  h.move (.sfe s _ hf)

theorem cascade_hsc (f : Hsc → Hsc) (hg : s.hsc.grants.length ≤ grantSlots → (f s.hsc).grants.length ≤ grantSlots)
    (hi : s.hsc.isolate = true → (f s.hsc).isolate = true) (h : Cascade a s)
    (hw : (f s.hsc).isolate = true → s.hsc.isolate = true ∨ IsolateWanted s := by exact .inl) : Cascade a (s.onHsc f) :=
  h.move (.hsc s _ hw hg hi)

theorem cascade_stallCheck (h : Cascade a s) : Cascade a (stallCheck s) := by
  unfold stallCheck
  dsimp only
  split
  · split
    · exact h
    · exact cascade_sfe _ (by rfl) h
  · exact cascade_sfe _ (by rfl) h

theorem cascade_followState (m : MachineId) (st : ChanState) (h : Cascade a s) : Cascade a (followState m st s) := by
  cases m
  · exact h.move (.sfe s _ rfl)
  · exact h
  · exact h.move (.sfe s _ rfl)

theorem cascade_changeFrom (hgo : Cascades go) (old : ChanState) (m : MachineId) (st : ChanState) (h : Cascade a s) :
    Cascade a (changeFrom go old m st s) :=
  cascade_publishAll hgo _ (cascade_displayFollows _ _ (cascade_stallCheck (cascade_followState _ _
    (cascade_setChan m _ (channelMove_inState _ _) h))))

theorem cascade_changeState (hgo : Cascades go) (m : MachineId) (st : ChanState) (h : Cascade a s) :
    Cascade a (changeState go m st s) := cascade_changeFrom hgo _ m st h

theorem cascade_enter (hgo : Cascades go) (m : MachineId) (st : ChanState) (h : Cascade a s) :
    Cascade a (enter go m st s) := by
  unfold enter
  dsimp only
  split
  · exact cascade_changeState hgo m st h
  · exact cascade_reconsiderLists hgo (cascade_changeState hgo m st h)

theorem cascade_recompute (hgo : Cascades go) (h : Cascade a s) : Cascade a (recompute go s) := by
  unfold recompute
  refine cascade_publish hgo _ (cascade_stallCheck ?_)
  have k : Cascade a (s.onHsc fun h =>
      { h with pn := s.pinFlow, avail := s.availFlow, total := s.totalFlow, scaled := decide (s.availFlow < s.totalFlow) }) :=
    cascade_hsc _ (fun x => x) (fun x => x) h
  have k1 := k.move (.chan _ .w (s.shared .w) (channelMove_shared s .w))
  have k2 := k1.move (.chan _ .p (s.shared .p) (channelMove_shared s .p))
  exact k2.move (.chan _ .h (s.shared .h) (channelMove_shared s .h))

/-- A flowing channel's new demand, with the flow sharing that follows it (R39, R51). -/
theorem cascade_recompute_demand (hgo : Cascades go) (m : MachineId) (c : Channel) (hp : c.position = (s.chan m).position)
    (hf : c.state.isFlowing = false → False) (h : Cascade a s) : Cascade a (recompute go (setChan m c s)) := by
  unfold recompute
  refine cascade_publish hgo _ (cascade_stallCheck ?_)
  have mv : ∀ j, ChannelMove (s.chan j) ((setChan m c s).shared j) := fun j => by
    have k := channelMove_shared (setChan m c s) j
    by_cases hj : m = j
    · subst hj
      rw [setChan_chan_same] at k
      exact ⟨k.position.trans hp, fun _ => k.shut fun hc => (hf hc).elim, fun _ => shared_dry _ _⟩
    · rw [setChan_chan, if_neg hj] at k
      exact k
  have k : Cascade a (s.onHsc fun h =>
      { h with pn := (setChan m c s).pinFlow, avail := (setChan m c s).availFlow, total := (setChan m c s).totalFlow,
               scaled := decide ((setChan m c s).availFlow < (setChan m c s).totalFlow) }) :=
    cascade_hsc _ (fun x => x) (fun x => x) h
  have k1 := k.move (.chan _ .w _ (mv .w))
  have k2 := k1.move (.chan _ .p _ (mv .p))
  exact k2.move (.chan _ .h _ (mv .h))

/-! ## The pump -/

theorem cascade_setPump (hgo : Cascades go) (p : PumpState) (k : Nat) (t : Timer) (h : Cascade a s) :
    Cascade a (setPump go p k t s) :=
  cascade_publishAll hgo _ (cascade_hsc _ (fun x => x) (fun x => x) h)

theorem cascade_pumpAfterRelease (hgo : Cascades go) (h : Cascade a s) : Cascade a (pumpAfterRelease go s) := by
  unfold pumpAfterRelease
  repeat' split
  all_goals first | exact h | exact cascade_setPump hgo _ _ _ h

/-- The reports that the cascade makes itself: W_CREEP absent, and H_PINS (R67, R86). -/
theorem cascade_enterMoving (hgo : Cascades go) (m : MachineId) (h : Cascade a s) : Cascade a (enterMoving go m s) := by
  unfold enterMoving
  dsimp only
  have k := cascade_recompute hgo (cascade_enter hgo m .moving h)
  split
  · exact hgo.step (hgo.step k _) _
  · exact k

theorem cascade_routeGranted (hgo : Cascades go) (m : MachineId) (h : Cascade a s) : Cascade a (routeGranted go m s) := by
  unfold routeGranted
  split
  · split
    · exact cascade_recompute hgo (cascade_enter hgo m _ h)
    · exact cascade_enterMoving hgo m h
  · exact cascade_enter hgo m _ h

theorem cascade_confirmPump (hgo : Cascades go) (h : Cascade a s) : Cascade a (confirmPump go s) := by
  refine cascade_recompute hgo (cascade_foldl _ (fun m _ hs => ?_) (cascade_setPump hgo _ _ _ h))
  split
  · exact cascade_routeGranted hgo m hs
  · exact hs

theorem cascade_judgeAttempt (hgo : Cascades go) (h : Cascade a s) : Cascade a (judgeAttempt go s) :=
  cascade_when h fun k => cascade_confirmPump hgo k

theorem cascade_beginAttempt (hgo : Cascades go) (k : Nat) (h : Cascade a s) : Cascade a (beginAttempt go k s) :=
  cascade_judgeAttempt hgo (cascade_setPump hgo _ _ _ h)

theorem cascade_giveGrant (hgo : Cascades go) (m : MachineId) (hroom : s.hsc.grants.length < grantSlots) (h : Cascade a s) :
    Cascade a (giveGrant go m s) := by
  unfold giveGrant
  dsimp only
  have k : Cascade a (publish go (s.onHsc fun h => { h with grants := h.grants ++ [m] }) Item.grantsFull) :=
    cascade_publish hgo _ (cascade_hsc _ (fun _ => by simp; omega) (fun x => x) h)
  refine cascade_recompute hgo ?_
  split
  · exact cascade_judgeAttempt hgo (cascade_enter hgo m _ (cascade_setPump hgo _ _ _ k))
  · exact cascade_routeGranted hgo m (cascade_setPump hgo _ _ _ k)
  · exact cascade_routeGranted hgo m k
  · exact cascade_routeGranted hgo m k
  · exact cascade_routeGranted hgo m k

theorem cascade_requestGrant (hgo : Cascades go) (m : MachineId) (h : Cascade a s) : Cascade a (requestGrant go m s) := by
  unfold requestGrant
  split
  · rename_i hroom
    exact cascade_giveGrant hgo m hroom h
  · exact cascade_publish hgo _ (cascade_enter hgo m _ (cascade_hsc _ (fun x => x) (fun x => x) h))

theorem cascade_handOver (hgo : Cascades go) (h : Cascade a s) : Cascade a (handOver go s) := by
  unfold handOver
  split
  · exact h
  · split
    · rename_i hroom
      exact cascade_publish hgo _ (cascade_giveGrant hgo _ hroom (cascade_hsc _ (fun x => x) (fun x => x) h))
    · exact h

/-! ## The end of a run -/

theorem cascade_afterRelease (hgo : Cascades go) (hand : Handing) (h : Cascade a s) :
    Cascade a (afterRelease go hand s) := by
  cases hand
  · exact cascade_recompute hgo (cascade_publishAll hgo _ (cascade_pumpAfterRelease hgo (cascade_handOver hgo h)))
  · exact cascade_recompute hgo (cascade_publishAll hgo _ (cascade_pumpAfterRelease hgo h))
  · exact h

theorem cascade_dropRun (m : MachineId) (h : Cascade a s) : Cascade a (dropRun m s) := by
  unfold dropRun
  have k : Cascade a (s.onHsc fun h => { h with grants := h.grants.erase m, queue := h.queue.erase m }) :=
    cascade_hsc _ (fun x => Nat.le_trans List.length_erase_le x) (fun x => x) h
  dsimp only
  split
  · exact cascade_setChan m _ (channelMove_same rfl rfl rfl rfl rfl rfl) k
  · exact cascade_setChan m _ (channelMove_same rfl rfl rfl rfl rfl rfl) k

theorem cascade_handBack (m : MachineId) (h : Cascade a s) : Cascade a (handBack m s) :=
  cascade_setChan m _ ⟨rfl, fun _ k => Bool.noConfusion k, fun _ => ⟨Nat.le_refl _, fun _ => rfl⟩⟩ (cascade_dropRun m h)

theorem cascade_engageBrake (hgo : Cascades go) (m : MachineId) (h : Cascade a s) : Cascade a (engageBrake go m s) := by
  cases m
  · exact cascade_setItem hgo _ _ (fun k => absurd rfl k.2) h
  · exact h
  · exact h

theorem cascade_leave (hgo : Cascades go) (m : MachineId) (st : ChanState) (hand : Handing) (h : Cascade a s) :
    Cascade a (leave go m st hand s) := by
  have event : ∀ (o : Option RunRec) (pos : Nat) {t : State}, Cascade a t →
      Cascade a (match o with
        | some r => queueEvent (runEnded m r pos) t
        | none => t) := by
    intro o pos t ht
    cases o
    · exact ht
    · exact cascade_queueEvent _ ht
  refine cascade_when ?_ fun k => hgo.step k _
  refine cascade_when ?_ fun k => cascade_requestWrite hgo _ _ k
  refine cascade_when ?_ fun k => cascade_reconsiderLists hgo k
  exact event _ _ (cascade_changeFrom hgo _ m st (cascade_afterRelease hgo hand (cascade_engageBrake hgo m (cascade_handBack m h))))

theorem cascade_noteReason (m : MachineId) (x : EndReason) (h : Cascade a s) : Cascade a (noteReason m x s) := by
  unfold noteReason
  dsimp only
  split
  · exact cascade_setChan m _ (channelMove_same rfl rfl rfl rfl rfl rfl) h
  · exact h

theorem cascade_forceReason (m : MachineId) (x : EndReason) (c : Option Nat) (h : Cascade a s) :
    Cascade a (forceReason m x c s) := by
  unfold forceReason
  dsimp only
  split
  · exact cascade_setChan m _ (channelMove_same rfl rfl rfl rfl rfl rfl) h
  · exact h

theorem cascade_stopComplete (hgo : Cascades go) (m : MachineId) (h : Cascade a s) : Cascade a (stopComplete go m s) := by
  unfold stopComplete
  split
  · exact cascade_recompute hgo (cascade_enter hgo m _ h)
  · exact cascade_leave hgo m _ _ h

theorem cascade_endRun (hgo : Cascades go) (m : MachineId) (x : EndReason) (h : Cascade a s) :
    Cascade a (endRun go m x s) := by
  unfold endRun
  split
  · exact cascade_leave hgo m _ _ (cascade_noteReason m x h)
  · exact cascade_leave hgo m _ _ (cascade_noteReason m x h)
  · exact cascade_leave hgo m _ _ (cascade_noteReason m x h)
  · dsimp only
    have k := cascade_enter hgo m .stopping (cascade_noteReason m x h)
    split
    · exact cascade_stopComplete hgo m k
    · exact cascade_recompute hgo k
  all_goals exact h

end Sys2Proof.Machine
end

