-- ==== Sys2Proof/Laws/CascadeFaults.lean ====
section
/-! SUPPORT. Holding channels, causes, the trip, ISOLATE, starts and interlocks move by cascades, and so does a delivered
message. -/

namespace Sys2Proof.Machine

variable {go : Go} {a s : State}

/-! ## Inhibiting and holding -/

theorem cascade_inhibit (hgo : Cascades go) (m : MachineId) (h : Cascade a s) : Cascade a (inhibit go m s) := by
  have k1 := h.move (.input s ⟨m, .outward⟩)
  have k2 := k1.move (.input _ ⟨m, .inward⟩)
  exact hgo.step (cascade_publishAll hgo _ k2) _

theorem cascade_hold (hgo : Cascades go) (m : MachineId) (c : Nat) (hand : Handing) (h : Cascade a s) :
    Cascade a (hold go m c hand s) := by
  unfold hold
  split
  · exact h
  · exact h
  · exact cascade_inhibit hgo m (cascade_enter hgo m _ h)
  all_goals exact cascade_inhibit hgo m (cascade_leave hgo m _ _ (cascade_forceReason _ _ _ h))

theorem cascade_releaseHeld (hgo : Cascades go) (h : Cascade a s) : Cascade a (releaseHeld go s) :=
  cascade_foldl _ (fun m _ hs => cascade_when hs fun k => hgo.step (cascade_enter hgo m _ k) _) h

/-! ## ISOLATE and the trip -/

theorem cascade_isolateChannel (hgo : Cascades go) (m : MachineId) (h : Cascade a s) :
    Cascade a (isolateChannel go s m) :=
  cascade_ite (fun _ => cascade_leave hgo m _ _ (cascade_forceReason _ _ _ h)) fun _ => cascade_dropRun m h

theorem cascade_flowIsolated (hgo : Cascades go) (dropped : List MachineId) (h : Cascade a s) :
    Cascade a (flowIsolated go dropped s) :=
  cascade_ite (fun _ => cascade_publish hgo _ (cascade_hsc _ (fun x => x) (fun x => x) h)) fun _ => cascade_recompute hgo h

theorem cascade_assertIsolate (hgo : Cascades go) (hw : IsolateWanted s) (h : Cascade a s) : Cascade a (assertIsolate go s) := by
  have k1 : Cascade a (s.onHsc fun h => { h with isolate := true }) := cascade_hsc _ (fun x => x) (fun _ => rfl) h fun _ => .inr hw
  have k2 := cascade_publishAll hgo [Item.isolated, Item.isolateOut] k1
  refine cascade_publishAll hgo _ (cascade_flowIsolated hgo _ (cascade_setPump hgo _ _ _
    (cascade_foldl _ (fun m _ hs => cascade_isolateChannel hgo m hs) ?_)))
  exact cascade_hsc _ (fun x => x) (fun x => x) k2

/-- A trip record outlasts every cascade. -/
theorem Cascade.trip {s t : State} (h : Cascade s t) (k : s.fis.trip.isSome = true) : t.fis.trip.isSome = true := by
  induction h with
  | refl => exact k
  | tail _ hm ih => cases hm <;> first | exact ih | rfl

theorem reconsider_wanted (h : (s.pins.estop || s.fis.trip.isSome) && !s.hsc.isolate) : IsolateWanted s := by
  rw [Bool.and_eq_true, Bool.or_eq_true] at h
  exact h.1.symm

theorem reconsiderIsolate_of_trip (h : s.fis.trip.isSome = true) :
    reconsiderIsolate go s = if s.hsc.isolate = true then s else assertIsolate go s := by
  cases hi : s.hsc.isolate <;> simp [reconsiderIsolate, h, hi]

theorem cascade_takeTrip (hgo : Cascades go) (c : Nat) (h : Cascade a s) : Cascade a (takeTrip go c s) := by
  unfold takeTrip
  split
  · exact h
  · rename_i hn
    dsimp only
    let r : TripRec := { cause := c, time := s.now, rode := s.sfe.rode, restored := false }
    have k1 := h.move (.trip s r hn)
    have k2 := cascade_publish hgo Item.tripRecorded (Cascade.refl (s.onFis fun f => { f with trip := some r }))
    have k3 := k2.trip rfl
    rw [reconsiderIsolate_of_trip k3]
    exact cascade_ite (fun _ => k1.trans k2) fun _ => cascade_assertIsolate hgo (.inl k3) (k1.trans k2)

/-! ## Causes -/

/-- After its cause has become active a raise is a cascade. -/
theorem cascade_raise (hgo : Cascades go) (c : Nat)
    (h : Cascade a (setCause c { s.cause c with active := true, raisedAt := some s.now } s)) : Cascade a (raise go c s) := by
  have k1 := cascade_foldl (machines.filter (s.affectedSet c).get) (f := fun s m => hold go m c .later s)
    (fun m _ hs => cascade_hold hgo m c .later hs) h
  have k2 := cascade_queueEvent (.faultRaised c (s.affectedSet c) (s.causeSetting c).trip) (cascade_publish hgo (Item.cause c) k1)
  have k3 := cascade_when (p := c = causeLinkLost) k2 fun k => cascade_cancelPageNow hgo k
  have k4 := cascade_foldl (machines.filter (s.affectedSet c).get) (f := fun s m => activate m s)
    (fun m _ hs => cascade_activate m hs) k3
  have k5 := cascade_when (p := (s.causeSetting c).cls = .latched) k4 fun k => cascade_requestWrite hgo .records false k
  have k6 := cascade_when (p := (s.causeSetting c).trip = true) k5 fun k => cascade_takeTrip hgo c k
  exact cascade_ite (fun _ => k6) fun _ => cascade_afterRelease hgo _ (cascade_handOver hgo k6)

/-- After its cause has become inactive a clear is a cascade. -/
theorem cascade_clearCause (hgo : Cascades go) (c : Nat) (means : ClearMeans)
    (h : Cascade a (setCause c { s.cause c with active := false, raisedAt := none } s)) :
    Cascade a (clearCause go c means s) := by
  have k1 := cascade_queueEvent (.faultCleared c means) (cascade_publish hgo (Item.cause c) h)
  exact cascade_releaseHeld hgo
    (cascade_when (p := (s.causeSetting c).cls = .latched) k1 fun k => cascade_requestWrite hgo .records false k)

theorem cascade_trySelfClear (hgo : Cascades go) (c : Nat) (h : Cascade a s) : Cascade a (trySelfClear go c s) := by
  refine cascade_ite (fun hc => cascade_clearCause hgo c _ (h.move (.cause s c _ ?_))) fun _ => h
  obtain ⟨ha, hcls, hp, _⟩ := hc
  exact ⟨fun _ _ => rfl, fun _ k => Bool.noConfusion k, fun _ k => absurd hcls k, fun _ _ _ k => by simp [hp] at k,
    fun _ k => by simp [ha] at k⟩

/-- The two reports that a cascade makes itself: W_CREEP absent at a start, and H_PINS. -/
theorem cascade_report (hgo : Cascades go) {c : Nat} {p : Bool} (hc : c = causePins ∨ c = causeCreep ∧ p = false)
    (h : Cascade a s) : Cascade a (report go c p s) := by
  have move : ∀ q : Bool, CauseMove s c { s.cause c with present := q } := fun q => by
    refine ⟨fun k1 k2 => ?_, fun _ k => k, fun k _ => ⟨k, rfl⟩, fun k1 k2 => ?_, fun _ _ => rfl⟩ <;>
      rcases hc with hc | ⟨hc, _⟩ <;> contradiction
  unfold report
  dsimp only
  split
  · split
    · exact h
    · have k := h.move (.cause s c _ (move true))
      split
      · exact k
      · rename_i hp _ ha
        have hpins : c = causePins := by
          rcases hc with hc | ⟨_, hq⟩
          · exact hc
          · simp [hq] at hp
        refine cascade_raise hgo c (k.move (.cause _ c _ ?_))
        refine ⟨fun _ k2 => absurd hpins k2, fun k2 => absurd hpins k2, fun k2 => ?_, fun _ k2 => absurd hpins k2,
          fun k2 => absurd hpins k2⟩
        rw [setCause_cause] at k2
        subst hpins
        simp [causePins] at k2
        exact absurd k2 ha
  · exact cascade_trySelfClear hgo c (h.move (.cause s c _ (move false)))

theorem cascade_letGo (hgo : Cascades go) (m : MachineId) (h : Cascade a s) : Cascade a (letGo go m s) :=
  cascade_foldl _ (fun c _ hs => cascade_when hs fun k => cascade_trySelfClear hgo c k) h

/-! ## Runs -/

theorem cascade_createRun (hgo : Cascades go) (m : MachineId) (o : Origin) (d : Direction) (t : Option Nat)
    (h : Cascade a s) : Cascade a (createRun go m o d t s) := by
  have k1 := cascade_setChan m ((s.chan m).withRun o d t s.settings.machines.refreshTime)
    (channelMove_same rfl rfl rfl rfl rfl rfl) h
  have k2 := cascade_requestGrant hgo m (cascade_publish hgo (Item.dirOut m) k1)
  refine cascade_activate m (cascade_refreshDisplay m ?_)
  cases m
  · exact cascade_requestWrite hgo _ _ (cascade_report hgo (.inr ⟨rfl, rfl⟩) k2)
  · exact k2
  · exact k2

theorem cascade_takeConflict (hgo : Cascades go) (m : MachineId) (h : Cascade a s) : Cascade a (takeConflict go m s) := by
  have k1 := cascade_inhibit hgo m h
  have k2 := cascade_setChan m { (inhibit go m s).chan m with conflict := true } (channelMove_same rfl rfl rfl rfl rfl rfl) k1
  exact cascade_endRun hgo m _ (cascade_publish hgo _ k2)

theorem cascade_tryStart (hgo : Cascades go) (m : MachineId) (h : Cascade a s) : Cascade a (tryStart go m s) := by
  unfold tryStart
  split
  · split
    · exact cascade_takeConflict hgo m h
    · exact cascade_ite (fun _ => cascade_createRun hgo m _ _ _ h) fun _ => h
    · exact cascade_ite (fun _ => cascade_createRun hgo m _ _ _ h) fun _ => h
    · exact h
  · exact h

theorem cascade_becameValid (hgo : Cascades go) (i : HoldInput) (h : Cascade a s) : Cascade a (becameValid go i s) :=
  cascade_ite (fun _ => h) fun _ => cascade_ite (fun _ => cascade_takeConflict hgo _ h) fun _ =>
    cascade_ite (fun _ => cascade_endRun hgo _ _ h) fun _ => cascade_tryStart hgo _ h

theorem cascade_pressEnded (hgo : Cascades go) (i : HoldInput) (h : Cascade a s) : Cascade a (pressEnded go i s) := by
  unfold pressEnded
  split
  · exact cascade_ite (fun _ => cascade_endRun hgo _ _ h) fun _ => h
  · exact h

theorem cascade_enteredReleased (hgo : Cascades go) (i : HoldInput) (h : Cascade a s) :
    Cascade a (enteredReleased go i s) := by
  refine cascade_letGo hgo _ (cascade_when h fun k => cascade_publish hgo _ (cascade_setChan _ _ ?_ k))
  exact channelMove_same rfl rfl rfl rfl rfl rfl

/-! ## Interlocks and messages -/

theorem cascade_reevaluate (hgo : Cascades go) (es : List InterlockEntry) (h : Cascade a s) :
    Cascade a (reevaluate go es s) :=
  cascade_publishAll hgo _
    (cascade_foldl _ (fun _ _ hs => cascade_when hs fun k => cascade_tryStart hgo _ k)
      (cascade_foldl _ (fun _ _ hs => cascade_when hs fun k => cascade_endRun hgo _ _ k) h))

theorem cascade_react (hgo : Cascades go) (r : ItemRef) (h : Cascade a s) : Cascade a (react go r s) := by
  unfold react
  split
  · exact h
  · exact cascade_reevaluate hgo _ h

theorem cascades_handle (hgo : Cascades go) : Cascades (handle go) := by
  intro m s hm
  cases m with
  | itemChanged r => exact cascade_react hgo r (.refl s)
  | tryStart m => exact cascade_tryStart hgo m (.refl s)
  | report c p => exact cascade_report hgo hm (.refl s)
  | letGo m => exact cascade_letGo hgo m (.refl s)

theorem cascades_deliver (n : Nat) : Cascades (deliver n) := by
  induction n with
  | zero => exact fun _ s _ => .refl s
  | succ n ih => exact cascades_handle ih

/-- The messages of a handling are carried out by cascades. -/
theorem cascades_send : Cascades send := cascades_deliver cascadeDepth

end Sys2Proof.Machine
end

