-- ==== Sys2Proof/Laws/Kept.lean ====
section
/-! SUPPORT. What a cascade keeps, field by field. -/

namespace Sys2Proof.Machine

variable {s t : State}

/-- A property that every move keeps is kept by every cascade. -/
theorem Cascade.keeps {P : State → State → Prop} (h : Cascade s t) (hr : ∀ s, P s s)
    (hm : ∀ s t u, P s t → Move t u → P s u) : P s t := by
  induction h with
  | refl => exact hr s
  | tail _ k ih => exact hm _ _ _ ih k

/-! ## Whole fields -/

theorem Cascade.phase (h : Cascade s t) : t.phase = s.phase :=
  h.keeps (P := fun s t => t.phase = s.phase) (fun _ => rfl) fun _ _ _ k m => by cases m <;> exact k

theorem Cascade.resetCause (h : Cascade s t) : t.resetCause = s.resetCause :=
  h.keeps (P := fun s t => t.resetCause = s.resetCause) (fun _ => rfl) fun _ _ _ k m => by cases m <;> exact k

theorem Cascade.now (h : Cascade s t) : t.now = s.now :=
  h.keeps (P := fun s t => t.now = s.now) (fun _ => rfl) fun _ _ _ k m => by cases m <;> exact k

theorem Cascade.pins (h : Cascade s t) : t.pins = s.pins :=
  h.keeps (P := fun s t => t.pins = s.pins) (fun _ => rfl) fun _ _ _ k m => by cases m <;> exact k

theorem Cascade.settings (h : Cascade s t) : t.settings = s.settings :=
  h.keeps (P := fun s t => t.settings = s.settings) (fun _ => rfl) fun _ _ _ k m => by cases m <;> exact k

theorem Cascade.slp (h : Cascade s t) : t.slp = s.slp :=
  h.keeps (P := fun s t => t.slp = s.slp) (fun _ => rfl) fun _ _ _ k m => by cases m <;> exact k

theorem Cascade.pending (h : Cascade s t) : t.pending = s.pending :=
  h.keeps (P := fun s t => t.pending = s.pending) (fun _ => rfl) fun _ _ _ k m => by cases m <;> exact k

/-! ## Sensor front end -/

theorem Cascade.sfe (h : Cascade s t) :
    t.sfe = { s.sfe with stall := t.sfe.stall, creepRef := t.sfe.creepRef, pinTimer := t.sfe.pinTimer } :=
  h.keeps (P := fun s t => t.sfe = { s.sfe with stall := t.sfe.stall, creepRef := t.sfe.creepRef, pinTimer := t.sfe.pinTimer })
    (fun _ => rfl) fun s t u k m => by
      cases m <;> first | exact k | (rename_i x hx; dsimp only at k hx ⊢; rw [hx, k])

theorem Cascade.rode (h : Cascade s t) : t.sfe.rode = s.sfe.rode := by rw [h.sfe]
theorem Cascade.rodeUnknown (h : Cascade s t) : t.sfe.rodeUnknown = s.sfe.rodeUnknown := by rw [h.sfe]
theorem Cascade.overload (h : Cascade s t) : t.sfe.overload = s.sfe.overload := by rw [h.sfe]
theorem Cascade.platform (h : Cascade s t) : t.sfe.platform = s.sfe.platform := by rw [h.sfe]
theorem Cascade.hatch (h : Cascade s t) : t.sfe.hatch = s.sfe.hatch := by rw [h.sfe]

theorem Cascade.sensors (h : Cascade s t) (m : MachineId) : t.sensors m = s.sensors m := by
  cases m <;> simp [State.sensors, h.platform, h.hatch]

/-! ## Channels and supply -/

theorem Cascade.position (h : Cascade s t) (m : MachineId) : (t.chan m).position = (s.chan m).position :=
  h.keeps (P := fun s t => ∀ m, (t.chan m).position = (s.chan m).position) (fun _ _ => rfl) (fun s t u k mv m => by
    cases mv <;> first
      | exact k m
      | (rename_i j c hc
         rw [setChan_chan]
         split
         · rename_i hj
           subst hj
           rw [hc.position]
           exact k _
         · exact k m)) m

theorem Cascade.valvesShut (h : Cascade s t) (k : ValvesShut s) : ValvesShut t := by
  refine h.keeps (P := fun s t => ValvesShut s → ValvesShut t) (fun _ h => h) (fun s t u k mv hs => ?_) k
  have k := k hs
  cases mv <;> first
    | exact k
    | (rename_i j c hc
       intro m
       rw [setChan_chan]
       split
       · rename_i hj
         subst hj
         exact ⟨hc.shut (k _).1, hc.dry (k _).2⟩
       · exact k m)

theorem Cascade.grantsFit (h : Cascade s t) (k : GrantsFit s) : GrantsFit t :=
  h.keeps (P := fun s t => GrantsFit s → GrantsFit t) (fun _ h => h)
    (fun s t u k m hs => by cases m <;> first | exact k hs | (rename_i hg _; exact hg (k hs))) k

/-- Only the release of ISOLATE, which no cascade contains, turns it off. -/
theorem Cascade.isolate (h : Cascade s t) (k : s.hsc.isolate = true) : t.hsc.isolate = true :=
  h.keeps (P := fun s t => s.hsc.isolate = true → t.hsc.isolate = true) (fun _ h => h)
    (fun s t u k m hs => by cases m <;> first | exact k hs | (rename_i _ hi; exact hi (k hs))) k

/-- ISOLATE is asserted for a trip record or ESTOP alone (R114). -/
theorem Cascade.isolateWanted (h : Cascade s t) (k : s.hsc.isolate = true → IsolateWanted s) :
    t.hsc.isolate = true → IsolateWanted t :=
  h.keeps (P := fun s t => (s.hsc.isolate = true → IsolateWanted s) → t.hsc.isolate = true → IsolateWanted t) (fun _ h => h)
    (fun s t u k m hs hi => by
      cases m <;> first
        | exact k hs hi
        | (rename_i w _ _; exact (w hi).elim (k hs) id)
        | exact .inl rfl) k

/-! ## Stations -/

theorem Cascade.siq (h : Cascade s t) : t.siq = { s.siq with inputs := t.siq.inputs } :=
  h.keeps (P := fun s t => t.siq = { s.siq with inputs := t.siq.inputs }) (fun _ => rfl) fun _ _ _ k m => by
    cases m <;> first
      | exact k
      | (simp only [setInput, State.onSiq_siq]
         rw [k])

theorem inhibited_idem (x : HoldRec) (r : Nat) : (x.inhibited r).inhibited r = x.inhibited r := by
  obtain ⟨st, a, b, tm⟩ := x
  cases st <;> rfl

/-- A cascade leaves a hold-to-run input as it is, or inhibits it (R95). -/
theorem Cascade.input (h : Cascade s t) (i : HoldInput) :
    t.input i = s.input i ∨ t.input i = (s.input i).inhibited s.settings.stations.releaseTime := by
  have := h.keeps (P := fun s t => t.settings = s.settings ∧ ∀ i, t.input i = s.input i ∨
      t.input i = (s.input i).inhibited s.settings.stations.releaseTime)
    (fun _ => ⟨rfl, fun _ => .inl rfl⟩) (fun s t u k mv => ⟨by cases mv <;> exact k.1, fun i => by
      cases mv <;> first
        | exact k.2 i
        | (rename_i j
           rw [setInput_input, k.1]
           split
           · rename_i hj
             subst hj
             rcases k.2 j with e | e <;> rw [e]
             · exact .inr rfl
             · exact .inr (inhibited_idem _ _)
           · exact k.2 i)⟩)
  exact this.2 i

/-! ## Causes -/

theorem Cascade.faulted (h : Cascade s t) : t.fis.faulted = s.fis.faulted :=
  h.keeps (P := fun s t => t.fis.faulted = s.fis.faulted) (fun _ => rfl) fun _ _ _ k m => by cases m <;> exact k

/-- A property of causes that every cause's move keeps. -/
theorem Cascade.causes (h : Cascade s t) {P : Settings → Nat → CauseRec → CauseRec → Prop} (hr : ∀ x c y, P x c y y)
    (hm : ∀ (s : State) c (y : CauseRec) x, P s.settings c y (s.cause c) → CauseMove s c x → P s.settings c y x) (c : Nat) :
    P s.settings c (s.cause c) (t.cause c) := by
  have := h.keeps (P := fun s t => t.settings = s.settings ∧ ∀ c, P s.settings c (s.cause c) (t.cause c))
    (fun s => ⟨rfl, fun c => hr _ c _⟩) (fun s t u k mv => ⟨by cases mv <;> exact k.1, fun c => by
      cases mv <;> first
        | exact k.2 c
        | (rename_i d x hx
           rw [setCause_cause]
           split
           · rename_i hd
             rw [← hd.1]
             have k2 := k.2 d
             rw [← k.1] at k2 ⊢
             exact hm _ _ _ _ k2 hx
           · exact k.2 c)⟩)
  exact this.2 c

theorem Cascade.causePresent (h : Cascade s t) {c : Nat} (h1 : c ≠ causeCreep) (h2 : c ≠ causePins) :
    (t.cause c).present = (s.cause c).present :=
  h.causes (P := fun _ c y x => c ≠ causeCreep → c ≠ causePins → x.present = y.present) (fun _ _ _ _ _ => rfl)
    (fun _ _ _ _ k hx h1 h2 => (hx.present h1 h2).trans (k h1 h2)) c h1 h2

/-- Nothing but H_PINS is raised inside a cascade. -/
theorem Cascade.causeInactive (h : Cascade s t) {c : Nat} (h2 : c ≠ causePins) (k : (s.cause c).active = false) :
    (t.cause c).active = false :=
  h.causes (P := fun _ c y x => c ≠ causePins → y.active = false → x.active = false) (fun _ _ _ _ k => k)
    (fun _ _ _ _ k hx h2 ha => by
      have := k h2 ha
      have r := hx.raised h2
      revert r
      rw [this]
      intro r
      exact Bool.eq_false_iff.mpr fun e => Bool.noConfusion (r e)) c h2 k

/-- A cause at rest stays so through a cascade, H_PINS apart. -/
theorem Cascade.causeResting (h : Cascade s t) {c : Nat} (h2 : c ≠ causePins) (k : (s.cause c).active = false) :
    (t.cause c).active = false ∧ (t.cause c).raisedAt = (s.cause c).raisedAt :=
  h.causes (P := fun _ c y x => c ≠ causePins → y.active = false → x.active = false ∧ x.raisedAt = y.raisedAt)
    (fun _ _ _ _ k => ⟨k, rfl⟩)
    (fun _ _ _ _ k hx h2 ha => by
      have := k h2 ha
      have r := hx.raised h2
      rw [this.1] at r
      exact ⟨Bool.eq_false_iff.mpr fun e => Bool.noConfusion (r e), (hx.resting h2 this.1).trans this.2⟩) c h2 k

/-- A CREW or LATCHED cause stays active through a cascade, with its time of raise. -/
theorem Cascade.causeActive (h : Cascade s t) {c : Nat} (k : (s.cause c).active = true)
    (hc : (s.causeSetting c).cls ≠ .self) : (t.cause c).active = true ∧ (t.cause c).raisedAt = (s.cause c).raisedAt :=
  h.causes (P := fun z c y x => (peek z.causes c).cls ≠ .self → y.active = true → x.active = true ∧ x.raisedAt = y.raisedAt)
    (fun _ _ _ _ k => ⟨k, rfl⟩)
    (fun _ _ _ _ k hx hc ha => by
      have k1 := k hc ha
      have k2 := hx.kept k1.1 hc
      exact ⟨k2.1, k2.2.trans k1.2⟩) c hc k

/-- A cause whose condition stands stays active through a cascade, whatever its class. -/
theorem Cascade.causeStands (h : Cascade s t) {c : Nat} (h1 : c ≠ causeCreep) (h2 : c ≠ causePins)
    (k : (s.cause c).active = true) (p : (s.cause c).present = true) :
    (t.cause c).active = true ∧ (t.cause c).present = true ∧ (t.cause c).raisedAt = (s.cause c).raisedAt :=
  h.causes (P := fun _ c y x => c ≠ causeCreep → c ≠ causePins → y.active = true → y.present = true →
      x.active = true ∧ x.present = true ∧ x.raisedAt = y.raisedAt)
    (fun _ _ _ _ _ k p => ⟨k, p, rfl⟩)
    (fun _ _ _ _ k hx h1 h2 ha hp => by
      obtain ⟨k1, k2, k3⟩ := k h1 h2 ha hp
      obtain ⟨k4, k5⟩ := hx.standing h1 h2 k1 k2
      exact ⟨k4, (hx.present h1 h2).trans k2, k5.trans k3⟩) c h1 h2 k p

/-! ## Audio engine -/

theorem Cascade.zae (h : Cascade s t) : t.zae = { s.zae with zones := t.zae.zones, page := t.zae.page } :=
  h.keeps (P := fun s t => t.zae = { s.zae with zones := t.zae.zones, page := t.zae.page }) (fun _ => rfl) fun _ _ _ k m => by
    cases m <;> first
      | exact k
      | (simp only [setZone, State.onZae_zae]
         rw [k])

theorem Cascade.sources (h : Cascade s t) : t.zae.sources = s.zae.sources := by rw [h.zae]
theorem Cascade.owners (h : Cascade s t) : t.zae.owners = s.zae.owners := by rw [h.zae]
theorem Cascade.memory (h : Cascade s t) : t.zae.memory = s.zae.memory := by rw [h.zae]
theorem Cascade.clips (h : Cascade s t) : t.zae.clips = s.zae.clips := by rw [h.zae]

theorem Cascade.zone (h : Cascade s t) (z : Nat) : SameZone (s.zone z) (t.zone z) :=
  h.keeps (P := fun s t => ∀ z, SameZone (s.zone z) (t.zone z)) (fun _ _ => ⟨rfl, rfl, rfl, rfl⟩) (fun s t u k mv z => by
    cases mv <;> first
      | exact k z
      | (rename_i j x hx
         rw [setZone_zone]
         split
         · rename_i hj
           rw [← hj.1]
           obtain ⟨a, b, c, d⟩ := k j
           obtain ⟨a', b', c', d'⟩ := hx
           exact ⟨a'.trans a, b'.trans b, c'.trans c, d'.trans d⟩
         · exact k z)) z

/-- A page that plays after a cascade played before it, with the same clip, duck and place. -/
theorem Cascade.page (h : Cascade s t) (y : PageRec) (k : t.zae.page = some y) :
    ∃ x, s.zae.page = some x ∧ y.clip = x.clip ∧ y.duck = x.duck ∧ y.place = x.place :=
  h.keeps (P := fun s t => ∀ y, t.zae.page = some y →
      ∃ x, s.zae.page = some x ∧ y.clip = x.clip ∧ y.duck = x.duck ∧ y.place = x.place)
    (fun _ y k => ⟨y, k, rfl, rfl, rfl⟩) (fun s t u k mv y hy => by
      cases mv <;> first
        | exact k y hy
        | (rename_i p hp
           obtain ⟨x, hx, a, b, c⟩ := hp y hy
           obtain ⟨w, hw, a', b', c'⟩ := k x hx
           exact ⟨w, hw, a.trans a', b.trans b', c.trans c'⟩)) y k

/-! ## Indicators -/

theorem Cascade.ind (h : Cascade s t) : t.ind = { s.ind with displays := t.ind.displays } :=
  h.keeps (P := fun s t => t.ind = { s.ind with displays := t.ind.displays }) (fun _ => rfl) fun _ _ _ k m => by
    cases m <;> first
      | exact k
      | (simp only [setDisplay, State.onInd_ind]
         rw [k])

/-! ## Events, watches, store -/

theorem markLost_length (q : List Event) : (markLost q).length = q.length := by
  induction q with
  | nil => rfl
  | cons e q ih =>
    cases q with
    | nil => rfl
    | cons f q => simpa [markLost] using ih

theorem markLost_kinds (q : List Event) : (markLost q).map Event.kind = q.map Event.kind := by
  induction q with
  | nil => rfl
  | cons e q ih =>
    cases q with
    | nil => rfl
    | cons f q => simpa [markLost] using ih

theorem pushEvent_length (e : Event) (q : List Event) (h : q.length ≤ eventCapacity) :
    (pushEvent e q).length ≤ eventCapacity := by
  unfold pushEvent
  split
  · simp only [List.length_append, List.length_singleton]
    omega
  · rwa [markLost_length]

theorem pushEvent_kinds (e : Event) (q : List Event) : q.map Event.kind <+: (pushEvent e q).map Event.kind := by
  unfold pushEvent
  split
  · simp
  · rw [markLost_kinds]

theorem Cascade.eventsFit (h : Cascade s t) (k : EventsFit s) : EventsFit t :=
  h.keeps (P := fun s t => EventsFit s → EventsFit t) (fun _ h => h)
    (fun s t u k m hs => by
      cases m <;> first
        | exact k hs
        | (rename_i x hx _ _
           rcases hx with hx | ⟨e, hx⟩
           · exact (congrArg List.length hx).trans_le (k hs)
           · exact (congrArg List.length hx).trans_le (pushEvent_length e _ (k hs)))) k

/-- The records that waited stay in front, in their order (R169). -/
theorem Cascade.events (h : Cascade s t) : s.seu.events.map Event.kind <+: t.seu.events.map Event.kind :=
  h.keeps (P := fun s t => s.seu.events.map Event.kind <+: t.seu.events.map Event.kind) (fun _ => List.prefix_refl _)
    fun s t u k m => by
      cases m <;> first
        | exact k
        | (rename_i x hx _ _
           rcases hx with hx | ⟨e, hx⟩
           · simpa [hx] using k
           · exact k.trans (by simpa [hx] using pushEvent_kinds e _))

/-- A record just queued is in the queue, unless the queue is full. -/
theorem kind_queued (k : EventKind) (s t : State) (h : (queueEvent k s).seu.events.map Event.kind <+: t.seu.events.map Event.kind)
    (ht : t.seu.events.length < 32) : k ∈ t.seu.events.map Event.kind := by
  have hl := h.length_le
  rw [List.length_map, List.length_map] at hl
  apply h.subset
  show k ∈ (pushEvent { kind := k, time := s.now, lost := false } s.seu.events).map Event.kind
  have hl' : (pushEvent { kind := k, time := s.now, lost := false } s.seu.events).length < 32 := Nat.lt_of_le_of_lt hl ht
  unfold pushEvent at hl' ⊢
  split
  · simp
  · rename_i hf
    rw [if_neg hf, markLost_length] at hl'
    unfold eventCapacity at hf
    omega

theorem Cascade.watch (h : Cascade s t) (i : Nat) :
    peek t.seu.watches i = { peek s.seu.watches i with last := (peek t.seu.watches i).last } :=
  h.keeps (P := fun s t => ∀ i, peek t.seu.watches i = { peek s.seu.watches i with last := (peek t.seu.watches i).last })
    (fun _ _ => rfl) (fun s t u k m i => by
      cases m <;> first
        | exact k i
        | (rename_i x _ hw _
           dsimp only
           rw [hw i, k i])) i

/-- The owner's value of an item that a built-in entry names is its input's level. -/
theorem itemNow_builtIn {s t : State} (h : t.pins = s.pins) : ∀ q ∈ builtInItems, t.itemNow q = s.itemNow q := fun q hq => by
  simp only [builtInItems, List.mem_cons, List.not_mem_nil, or_false] at hq
  rcases hq with k | k | k <;> subst k
  · exact congrArg Pins.ladder h
  · exact congrArg Pins.cradle h
  · exact congrArg Pins.mat h

/-- An item of an input that stands at its input's level stays there, whatever follows (R80). -/
theorem Cascade.builtIn (h : Cascade s t) (q : ItemRef) (hq : q ∈ builtInItems) (hs : s.item q = s.itemNow q) :
    t.item q = s.itemNow q :=
  (h.keeps (P := fun s t => t.pins = s.pins ∧ ∀ q ∈ builtInItems, s.item q = s.itemNow q → t.item q = s.itemNow q)
    (fun _ => ⟨rfl, fun _ _ k => k⟩) (fun s t u k m => by
      refine ⟨?_, fun q hq hs => ?_⟩
      · obtain ⟨k, -⟩ := k
        cases m <;> exact k
      · have e := k.2 q hq hs
        cases m <;> first
          | exact e
          | (rename_i x _ _ hb
             have hx := (reported_builtIn q hq).1
             unfold State.item at e ⊢
             rw [hx] at e ⊢
             rcases hb q (reported_builtIn q hq) with hb | hb
             · exact (congrArg (true && ·) hb).trans e
             · exact (congrArg (true && ·) hb).trans ((Bool.true_and _).trans (itemNow_builtIn k.1 q hq))))).2 q hq hs

/-- A trip record and an asserted ISOLATE stand through a cascade, with their items once these are true (R53, R113). -/
theorem Cascade.asserted (h : Cascade s t) :
    (s.fis.trip.isSome = true → t.fis.trip.isSome = true ∧ (s.item Item.tripRecorded = true → t.item Item.tripRecorded = true)) ∧
    (s.hsc.isolate = true → t.hsc.isolate = true ∧ (s.item Item.isolated = true → t.item Item.isolated = true) ∧
      (s.item Item.isolateOut = true → t.item Item.isolateOut = true)) := by
  have move : ∀ {s t : State}, Move s t →
      (s.fis.trip.isSome = true → t.fis.trip.isSome = true ∧ (s.item Item.tripRecorded = true → t.item Item.tripRecorded = true)) ∧
      (s.hsc.isolate = true → t.hsc.isolate = true ∧ (s.item Item.isolated = true → t.item Item.isolated = true) ∧
        (s.item Item.isolateOut = true → t.item Item.isolateOut = true)) := by
    intro s t m
    have item : ∀ (u : Seu) (q : ItemRef), Reported q → (∀ q, Reported q → peek u.items q.index = peek s.seu.items q.index ∨
        peek u.items q.index = s.itemNow q) → s.itemNow q = true → s.item q = true → (State.item { s with seu := u } q) = true := by
      intro u q hq hb hn hs
      unfold State.item at hs ⊢
      rw [hq.1, Bool.true_and] at hs ⊢
      rcases hb q hq with e | e
      · exact e.trans hs
      · exact e.trans hn
    cases m <;> first
      | exact ⟨fun k => ⟨k, id⟩, fun k => ⟨k, id, id⟩⟩
      | (rename_i hb
         exact ⟨fun k => ⟨k, item _ _ (by unfold Reported; decide) hb k⟩,
           fun k => ⟨k, item _ _ (by unfold Reported; decide) hb k, item _ _ (by unfold Reported; decide) hb k⟩⟩)
      | (rename_i hi
         exact ⟨fun k => ⟨k, id⟩, fun k => ⟨hi k, id, id⟩⟩)
      | exact ⟨fun _ => ⟨rfl, id⟩, fun k => ⟨k, id, id⟩⟩
  exact h.keeps (P := fun s t =>
      (s.fis.trip.isSome = true → t.fis.trip.isSome = true ∧ (s.item Item.tripRecorded = true → t.item Item.tripRecorded = true)) ∧
      (s.hsc.isolate = true → t.hsc.isolate = true ∧ (s.item Item.isolated = true → t.item Item.isolated = true) ∧
        (s.item Item.isolateOut = true → t.item Item.isolateOut = true)))
    (fun _ => ⟨fun k => ⟨k, id⟩, fun k => ⟨k, id, id⟩⟩) fun s t u k m =>
      have n := move m
      ⟨fun a => ⟨(n.1 (k.1 a).1).1, fun b => (n.1 (k.1 a).1).2 ((k.1 a).2 b)⟩,
       fun a => ⟨(n.2 (k.2 a).1).1, fun b => (n.2 (k.2 a).1).2.1 ((k.2 a).2.1 b), fun b => (n.2 (k.2 a).1).2.2 ((k.2 a).2.2 b)⟩⟩

/-- An active cause that is not SELF, and one whose condition stands, keeps its item (R108). -/
theorem Cascade.causeItem (h : Cascade s t) {c : Nat} (hc : c < 16)
    (hk : (s.causeSetting c).cls ≠ .self ∨ c ≠ causeCreep ∧ c ≠ causePins ∧ (s.cause c).present = true)
    (ha : (s.cause c).active = true) (hi : s.item (Item.cause c) = true) : t.item (Item.cause c) = true := by
  have hq : Reported (Item.cause c) := by
    unfold Reported ItemRef.exists Item.cause
    exact ⟨decide_eq_true hc, fun k => by simp [Item.brakeReleased] at k⟩
  let P : State → State → Prop := fun s t => t.settings = s.settings ∧
    (((s.causeSetting c).cls ≠ .self ∨ c ≠ causeCreep ∧ c ≠ causePins ∧ (s.cause c).present = true) → (s.cause c).active = true →
      (t.cause c).active = true ∧ (c ≠ causeCreep → c ≠ causePins → (t.cause c).present = (s.cause c).present) ∧
      (s.item (Item.cause c) = true → t.item (Item.cause c) = true))
  have hp : P s t := h.keeps (P := P) (fun _ => ⟨rfl, fun _ k => ⟨k, fun _ _ => rfl, id⟩⟩) fun s t u k m => by
    refine ⟨?_, fun hk ha => ?_⟩
    · have e := k.1
      cases m <;> exact e
    · obtain ⟨e1, e2, e3⟩ := k.2 hk ha
      cases m <;> first
        | exact ⟨e1, e2, e3⟩
        | (rename_i x _ _ hb
           refine ⟨e1, e2, fun hi => ?_⟩
           have hi := e3 hi
           unfold State.item at hi ⊢
           rw [hq.1, Bool.true_and] at hi ⊢
           rcases hb _ hq with e | e
           · exact e.trans hi
           · exact e.trans e1)
        | (rename_i d x hx
           have es : t.settings = s.settings := k.1
           have hself : (t.causeSetting c).cls = (s.causeSetting c).cls := by unfold State.causeSetting; rw [es]
           by_cases hd : d = c
           · subst hd
             have ex : (setCause d x t).cause d = x := by rw [setCause_cause, if_pos ⟨rfl, hc⟩]
             rw [ex]
             refine ⟨?_, fun n1 n2 => (hx.present n1 n2).trans (e2 n1 n2), e3⟩
             rcases hk with hk | ⟨n1, n2, hk⟩
             · exact (hx.kept e1 (by rw [hself]; exact hk)).1
             · exact (hx.standing n1 n2 e1 ((e2 n1 n2).trans hk)).1
           · have ex : (setCause d x t).cause c = t.cause c := by rw [setCause_cause, if_neg (fun k => hd k.1)]
             rw [ex]
             exact ⟨e1, e2, e3⟩)
  exact (hp.2 hk ha).2.2 hi

theorem Cascade.sto (h : Cascade s t) : t.sto = { s.sto with queue := t.sto.queue } :=
  h.keeps (P := fun s t => t.sto = { s.sto with queue := t.sto.queue }) (fun _ => rfl) fun _ _ _ k m => by
    cases m <;> first
      | exact k
      | (simp only [State.onSto_sto]
         rw [k])

theorem enqueueWrite_names (x : SectionName) (mark : Bool) (q : List (SectionName × Bool)) :
    (enqueueWrite x mark q).map Prod.fst =
      if isPending x q then q.map Prod.fst
      else if x = .records then x :: q.map Prod.fst else q.map Prod.fst ++ [x] := by
  unfold enqueueWrite
  split
  · rw [List.map_map]
    refine List.map_congr_left fun e _ => ?_
    simp only [Function.comp]
    split <;> rfl
  · split <;> simp

theorem isPending_iff (x : SectionName) (q : List (SectionName × Bool)) :
    isPending x q = true ↔ x ∈ q.map Prod.fst := by
  simp [isPending]

/-- The order of the pending-write queue (R179), of its section names alone. -/
def OrderedNames (q : List SectionName) : Prop :=
  q.Nodup ∧ (SectionName.records ∈ q → q.head? = some .records)

theorem storeOrdered_iff (s : State) : StoreOrdered s ↔ OrderedNames (s.sto.queue.map Prod.fst) := by
  unfold StoreOrdered OrderedNames
  rw [isPending_iff]

theorem orderedNames_enqueueWrite (x : SectionName) (mark : Bool) (q : List (SectionName × Bool))
    (h : OrderedNames (q.map Prod.fst)) : OrderedNames ((enqueueWrite x mark q).map Prod.fst) := by
  rw [enqueueWrite_names]
  split
  · exact h
  · rename_i hx
    rw [isPending_iff] at hx
    split
    · rename_i hr
      exact ⟨List.nodup_cons.mpr ⟨hx, h.1⟩, fun _ => by rw [hr]; rfl⟩
    · rename_i hr
      refine ⟨List.nodup_append.mpr ⟨h.1, List.nodup_singleton x, fun a ha b hb => ?_⟩, fun hm => ?_⟩
      · rw [List.mem_singleton.mp hb]
        exact fun e => hx (e ▸ ha)
      · rcases List.mem_append.mp hm with hm | hm
        · rw [List.head?_append, h.2 hm]
          rfl
        · exact absurd (List.mem_singleton.mp hm).symm hr

theorem Cascade.storeOrdered (h : Cascade s t) (k : StoreOrdered s) : StoreOrdered t := by
  rw [storeOrdered_iff] at k ⊢
  exact h.keeps (P := fun s t => OrderedNames (s.sto.queue.map Prod.fst) → OrderedNames (t.sto.queue.map Prod.fst))
    (fun _ h => h) (fun s t u k m hs => by
      cases m <;> first
        | exact k hs
        | exact orderedNames_enqueueWrite _ _ _ (k hs)) k

/-! ## Pending sections -/

theorem isPending_enqueueWrite (x : SectionName) (m : Bool) (q : List (SectionName × Bool)) :
    isPending x (enqueueWrite x m q) = true := by
  rw [isPending_iff, enqueueWrite_names]
  split
  · rename_i h
    exact (isPending_iff x q).mp h
  · split
    · exact List.mem_cons_self
    · simp

theorem isPending_enqueueWrite_of (x y : SectionName) (m : Bool) (q : List (SectionName × Bool)) (h : isPending x q = true) :
    isPending x (enqueueWrite y m q) = true := by
  rw [isPending_iff] at *
  rw [enqueueWrite_names]
  split
  · exact h
  · split
    · exact List.mem_cons_of_mem _ h
    · exact List.mem_append_left _ h

/-- A section pending stays pending through a cascade. -/
theorem Cascade.stillPending (h : Cascade s t) {x : SectionName} (k : isPending x s.sto.queue = true) :
    isPending x t.sto.queue = true :=
  h.keeps (P := fun s t => isPending x s.sto.queue = true → isPending x t.sto.queue = true) (fun _ h => h)
    (fun s t u k m hs => by cases m <;> first | exact k hs | exact isPending_enqueueWrite_of _ _ _ _ (k hs)) k

theorem requestWrite_pending {go : Go} (hgo : Cascades go) (x : SectionName) (m : Bool) (s : State) :
    isPending x (requestWrite go x m s).sto.queue = true :=
  Cascade.stillPending (cascade_publish hgo Item.storeBusy (Cascade.refl _)) (isPending_enqueueWrite x m _)

end Sys2Proof.Machine
end

