-- ==== Sys2Proof/Laws/Requests.lean ====
section
/-! SUPPORT. The end of a handling, and how a request comes to its owner. -/

namespace Sys2Proof.Machine

/-! ## Beginning a store write -/

theorem beginWrite_eq (s : State) : beginWrite s = { s with sto := (beginWrite s).sto } := by
  unfold beginWrite
  split <;> rfl

theorem beginWrite_atRest {s : State} (h : StoreAtRest s) : beginWrite s = s := by
  unfold beginWrite
  split
  · rename_i hp hw hq
    rcases h hp with k | k
    · rw [k] at hq
      cases hq
    · rw [hw] at k
      cases k
  · rfl

theorem storeAtRest_beginWrite (s : State) : StoreAtRest (beginWrite s) := by
  intro hp
  unfold beginWrite at hp ⊢
  split
  · exact .inr rfl
  · rename_i hn
    have hp : s.phase = .running := by
      revert hp
      split
      · exact fun h => h
      · exact fun h => h
    cases hw : s.sto.writing with
    | some w => exact .inr rfl
    | none =>
      cases hq : s.sto.queue with
      | nil => exact .inl rfl
      | cons e rest =>
        obtain ⟨x, mark⟩ := e
        exact (hn x mark rest hp hw hq).elim

theorem storeOrdered_beginWrite {s : State} (h : StoreOrdered s) : StoreOrdered (beginWrite s) := by
  unfold beginWrite
  split
  · rename_i x mark rest _ _ hq
    rw [storeOrdered_iff] at h ⊢
    rw [hq] at h
    obtain ⟨hn, hr⟩ := h
    refine ⟨(List.nodup_cons.mp hn).2, fun hm => ?_⟩
    have hx : x = .records := by simpa using hr (List.mem_cons_of_mem _ hm)
    exact absurd (hx ▸ hm) (List.nodup_cons.mp hn).1
  · exact h

@[simp] theorem beginWrite_phase (s : State) : (beginWrite s).phase = s.phase := by rw [beginWrite_eq]
@[simp] theorem beginWrite_resetCause (s : State) : (beginWrite s).resetCause = s.resetCause := by rw [beginWrite_eq]
@[simp] theorem beginWrite_now (s : State) : (beginWrite s).now = s.now := by rw [beginWrite_eq]
@[simp] theorem beginWrite_pins (s : State) : (beginWrite s).pins = s.pins := by rw [beginWrite_eq]
@[simp] theorem beginWrite_settings (s : State) : (beginWrite s).settings = s.settings := by rw [beginWrite_eq]
@[simp] theorem beginWrite_slp (s : State) : (beginWrite s).slp = s.slp := by rw [beginWrite_eq]
@[simp] theorem beginWrite_mc (s : State) : (beginWrite s).mc = s.mc := by rw [beginWrite_eq]
@[simp] theorem beginWrite_sfe (s : State) : (beginWrite s).sfe = s.sfe := by rw [beginWrite_eq]
@[simp] theorem beginWrite_hsc (s : State) : (beginWrite s).hsc = s.hsc := by rw [beginWrite_eq]
@[simp] theorem beginWrite_siq (s : State) : (beginWrite s).siq = s.siq := by rw [beginWrite_eq]
@[simp] theorem beginWrite_fis (s : State) : (beginWrite s).fis = s.fis := by rw [beginWrite_eq]
@[simp] theorem beginWrite_zae (s : State) : (beginWrite s).zae = s.zae := by rw [beginWrite_eq]
@[simp] theorem beginWrite_ind (s : State) : (beginWrite s).ind = s.ind := by rw [beginWrite_eq]
@[simp] theorem beginWrite_seu (s : State) : (beginWrite s).seu = s.seu := by rw [beginWrite_eq]
@[simp] theorem beginWrite_pending (s : State) : (beginWrite s).pending = s.pending := by rw [beginWrite_eq]

/-! ## A valid frame -/

/-- The state with the link supervision told of a valid frame, before anything follows (R173, R177). -/
def toldOfFrame (s : State) : State :=
  s.onSlp fun l => { l with rx := Receiver.hunting, linkOk := true, quiet := timerUnlessZero s.settings.machines.linkQuiet }

/-- The condition of LINK_LOST absent. -/
def linkBack (s : State) : State := setCause causeLinkLost { s.cause causeLinkLost with present := false } s

/-- What follows a valid frame is a cascade from the told state, but for the condition of LINK_LOST. -/
theorem heard_cascade (s : State) :
    Cascade (toldOfFrame s) (heard s) ∨ ∃ v, Cascade (toldOfFrame s) v ∧ Cascade (linkBack v) (heard s) := by
  have k := cascade_publish cascades_send Item.linkOk (Cascade.refl (toldOfFrame s))
  unfold heard noteValidFrame
  dsimp only
  split
  · refine .inr ⟨_, k, ?_⟩
    exact cascade_trySelfClear cascades_send _ (Cascade.refl _)
  · exact .inl k

/-- What every cascade keeps and the condition of LINK_LOST does not touch. -/
theorem heard_keeps {α : Type} (f : State → α) (hf : ∀ s t, Cascade s t → f t = f s) (hl : ∀ s, f (linkBack s) = f s)
    (s : State) : f (heard s) = f (toldOfFrame s) := by
  rcases heard_cascade s with h | ⟨v, h, k⟩
  · exact hf _ _ h
  · rw [hf _ _ k, hl, hf _ _ h]

@[simp] theorem heard_phase (s : State) : (heard s).phase = s.phase := heard_keeps _ (fun _ _ h => h.phase) (fun _ => rfl) s
@[simp] theorem heard_resetCause (s : State) : (heard s).resetCause = s.resetCause :=
  heard_keeps _ (fun _ _ h => h.resetCause) (fun _ => rfl) s
@[simp] theorem heard_now (s : State) : (heard s).now = s.now := heard_keeps _ (fun _ _ h => h.now) (fun _ => rfl) s
@[simp] theorem heard_pins (s : State) : (heard s).pins = s.pins := heard_keeps _ (fun _ _ h => h.pins) (fun _ => rfl) s
@[simp] theorem heard_settings (s : State) : (heard s).settings = s.settings :=
  heard_keeps _ (fun _ _ h => h.settings) (fun _ => rfl) s
@[simp] theorem heard_pending (s : State) : (heard s).pending = s.pending := heard_keeps _ (fun _ _ h => h.pending) (fun _ => rfl) s

theorem heard_slp (s : State) : (heard s).slp =
    { s.slp with rx := Receiver.hunting, linkOk := true, quiet := timerUnlessZero s.settings.machines.linkQuiet } :=
  heard_keeps _ (fun _ _ h => h.slp) (fun _ => rfl) s

@[simp] theorem heard_inService (s : State) : (heard s).slp.inService = s.slp.inService := by rw [heard_slp]
@[simp] theorem heard_held (s : State) : (heard s).slp.held = s.slp.held := by rw [heard_slp]
@[simp] theorem heard_rate (s : State) : (heard s).slp.rate = s.slp.rate := by rw [heard_slp]

@[simp] theorem heard_rode (s : State) : (heard s).sfe.rode = s.sfe.rode := heard_keeps _ (fun _ _ h => h.rode) (fun _ => rfl) s
@[simp] theorem heard_rodeUnknown (s : State) : (heard s).sfe.rodeUnknown = s.sfe.rodeUnknown :=
  heard_keeps _ (fun _ _ h => h.rodeUnknown) (fun _ => rfl) s
@[simp] theorem heard_sensors (s : State) (m : MachineId) : (heard s).sensors m = s.sensors m :=
  heard_keeps (fun s => s.sensors m) (fun _ _ h => h.sensors m) (fun _ => by cases m <;> rfl) s
@[simp] theorem heard_position (s : State) (m : MachineId) : ((heard s).chan m).position = (s.chan m).position :=
  heard_keeps (fun s => (s.chan m).position) (fun _ _ h => h.position m) (fun _ => rfl) s
@[simp] theorem heard_faulted (s : State) : (heard s).fis.faulted = s.fis.faulted :=
  heard_keeps (fun s => s.fis.faulted) (fun _ _ h => h.faulted) (fun _ => rfl) s
@[simp] theorem heard_sources (s : State) : (heard s).zae.sources = s.zae.sources :=
  heard_keeps (fun s => s.zae.sources) (fun _ _ h => h.sources) (fun _ => rfl) s
@[simp] theorem heard_owners (s : State) : (heard s).zae.owners = s.zae.owners :=
  heard_keeps (fun s => s.zae.owners) (fun _ _ h => h.owners) (fun _ => rfl) s
@[simp] theorem heard_memory (s : State) : (heard s).zae.memory = s.zae.memory :=
  heard_keeps (fun s => s.zae.memory) (fun _ _ h => h.memory) (fun _ => rfl) s
@[simp] theorem heard_clips (s : State) : (heard s).zae.clips = s.zae.clips :=
  heard_keeps (fun s => s.zae.clips) (fun _ _ h => h.clips) (fun _ => rfl) s

/-! ## A request in an idle link port -/

theorem offer_idle (go : Go) (t : Ticket) {s : State} (h : s.slp.inService = none) : offer go t s = take go t s := by
  unfold offer
  rw [h]

/-- A request that arrives while the part serves nothing is taken at once (R173, R174). -/
theorem requestArrives_serving {s : State} (h : Serving s) (i : Instr) :
    requestArrives i s = take send (.ask i) (heard s) := by
  unfold requestArrives validFrame
  rw [h.1]
  exact offer_idle _ _ (by rw [← h.2]; exact heard_inService s)

/-- A request taken is answered with what its owner gives. -/
theorem finish_request {s : State} (h : Serving s) (i : Instr) (hr : ticketResets (.ask i) = false) :
    finish (requestArrives i s) =
      .next (answered (ticketCode (.ask i) + 0x80) (serveRequest send i (heard s)).2 (serveRequest send i (heard s)).1) := by
  rw [requestArrives_serving h]
  unfold finish take answered serve
  rw [hr]

/-- The command of a request is its whole valid frame. -/
theorem exec_request (i : Instr) (h : (encodeRequest i).isSome = true) (s : State) : exec i s = finish (requestArrives i s) := by
  cases i <;> first | rfl | cases h

/-- A request that arrives while the part serves nothing is answered with what its owner gives (R174). -/
theorem request_answered {s : State} (h : Serving s) (i : Instr) (he : (encodeRequest i).isSome = true)
    (hr : ticketResets (.ask i) = false) :
    exec i s =
      .next (answered (ticketCode (.ask i) + 0x80) (serveRequest send i (heard s)).2 (serveRequest send i (heard s)).1) := by
  rw [exec_request i he, finish_request h i hr]

end Sys2Proof.Machine
end

