-- ==== Sys2Proof/Laws/Silent.lean ====
section
/-! SUPPORT. Without host interlock entries, only the items of the three built-in entries have consequences in other blocks:
every other item changes the status and event unit alone. -/

namespace Sys2Proof.Machine

/-- The two states differ in the status and event unit alone. -/
def Silent (s t : State) : Prop := t = { s with seu := t.seu }

theorem Silent.refl (s : State) : Silent s s := rfl

theorem Silent.trans {s t u : State} (h : Silent s t) (k : Silent t u) : Silent s u := by
  unfold Silent at *
  rw [k, h]


theorem NoHostEntries.of_settings {s t : State} (h : NoHostEntries s) (k : t.settings = s.settings) : NoHostEntries t := by
  unfold NoHostEntries at *
  rwa [k]

theorem entry_builtIn {s : State} (h : NoHostEntries s) {i : Nat} {e : InterlockEntry} (he : s.entry i = some e) :
    e.item ∈ builtInItems := by
  unfold State.entry at he
  split at he
  · unfold builtInEntry at he
    split at he
    · injection he with he
      rw [← he]
      decide
    · injection he with he
      rw [← he]
      decide
    · injection he with he
      rw [← he]
      decide
    · cases he
  · rename_i hi
    by_cases hl : i - builtInEntries < 21
    · rw [h _ hl] at he
      cases he
    · have : peek s.settings.interlocks (i - builtInEntries) = none := by
        unfold peek
        simp [hl]
        rfl
      rw [this] at he
      cases he

theorem no_entry_names {s : State} (h : NoHostEntries s) {r : ItemRef} (hr : r ∉ builtInItems) :
    (s.entries.filter fun e => e.item == r) = [] := by
  rw [List.filter_eq_nil_iff]
  intro e he
  obtain ⟨i, _, hi⟩ := List.mem_filterMap.mp he
  have := entry_builtIn h hi
  simp only [beq_iff_eq]
  exact fun k => hr (k ▸ this)

/-- Letting go clears nothing when no SELF cause is active with its condition absent (R108). -/
theorem letGo_quiet {s : State} (h : ∀ c, c < 16 → (s.cause c).active = true → (s.causeSetting c).cls = .self → (s.cause c).present = true) (go : Go)
    (m : MachineId) : letGo go m s = s := by
  unfold letGo
  have : ∀ xs : List Nat, (∀ c ∈ xs, c < 16) → xs.foldl (fun s c => if s.affects c m then trySelfClear go c s else s) s = s := by
    intro xs hx
    induction xs with
    | nil => rfl
    | cons c xs ih =>
      rw [List.foldl_cons]
      have : trySelfClear go c s = s := by
        unfold trySelfClear
        rw [if_neg]
        rintro ⟨k1, k2, k3, -⟩
        have := h c (hx c List.mem_cons_self) k1 k2
        rw [k3] at this
        cases this
      rw [this, ite_self]
      exact ih fun y hy => hx y (List.mem_cons_of_mem _ hy)
  exact this _ (by decide)

/-- What carries messages out does nothing for an item that no entry names, for a machine without a VALID input, for a machine whose
inputs are not both VALID while ISOLATE is asserted, and for the letting go of inputs with no SELF cause active. -/
structure Quiet (go : Go) : Prop where
  item : ∀ s r, NoHostEntries s → r ∉ builtInItems → go (.itemChanged r) s = s
  start : ∀ s m, s.anyValid m = false → go (.tryStart m) s = s
  isolated : ∀ s m, s.hsc.isolate = true → (s.inputState m .outward = .valid → s.inputState m .inward ≠ .valid) → go (.tryStart m) s = s
  letGo : ∀ s m, (∀ c, c < 16 → (s.cause c).active = true → (s.causeSetting c).cls = .self → (s.cause c).present = true) → go (.letGo m) s = s

theorem deliver_succ (n : Nat) (m : Msg) (s : State) : deliver (n + 1) m s = handle (deliver n) m s := rfl

theorem quiet_deliver (n : Nat) : Quiet (deliver (n + 1)) where
  item s r h hr := by
    rw [deliver_succ]
    unfold handle react
    simp only [no_entry_names h hr]
  start s m h := by
    rw [deliver_succ]
    unfold State.anyValid at h
    rw [Bool.or_eq_false_iff] at h
    unfold handle tryStart
    simp only [h.1, h.2, ite_self]
  isolated s m h hv := by
    rw [deliver_succ]
    have hs : ∀ d, s.startCheck m d ≠ .passes := fun d => by
      unfold State.startCheck
      dsimp only
      rw [h, if_pos (c := true = true) rfl]
      repeat' split
      all_goals decide
    show tryStart _ m s = s
    unfold tryStart
    rw [if_neg (hs _), if_neg (hs _)]
    split
    · split
      · rename_i h1 h2
        exact absurd (by simpa using h2) (hv (by simpa using h1))
      all_goals rfl
    · rfl
  letGo s m h := by
    rw [deliver_succ]
    exact letGo_quiet h _ m

theorem quiet_send : Quiet send := quiet_deliver 63

variable {go : Go}

theorem silent_queueEvent (k : EventKind) (s : State) : Silent s (queueEvent k s) := rfl

theorem silent_evalWatches (g : Group) (s : State) : Silent s (evalWatches g s) := by
  unfold evalWatches
  generalize List.range 8 = xs
  induction xs generalizing s with
  | nil => rfl
  | cons i xs ih =>
    refine Silent.trans ?_ (ih _)
    unfold evalWatch
    dsimp only
    repeat' split
    all_goals rfl

theorem silent_setItem (hgo : Quiet go) {s : State} (h : NoHostEntries s) {r : ItemRef} (hr : r ∉ builtInItems) (v : Bool) :
    Silent s (setItem go r v s) := by
  unfold setItem
  split
  · exact .refl s
  · have k : Silent s (evalWatches r.group (s.onSeu fun u => { u with items := poke u.items r.index v })) :=
      Silent.trans (t := s.onSeu fun u => { u with items := poke u.items r.index v }) rfl (silent_evalWatches _ _)
    rw [hgo.item _ _ (h.of_settings (by rw [k])) hr]
    exact k

theorem silent_publish (hgo : Quiet go) {s : State} (h : NoHostEntries s) {r : ItemRef} (hr : r ∉ builtInItems) :
    Silent s (publish go s r) := silent_setItem hgo h hr _

theorem silent_publishAll (hgo : Quiet go) {s : State} (h : NoHostEntries s) (rs : List ItemRef) (hr : ∀ r ∈ rs, r ∉ builtInItems) :
    Silent s (publishAll go rs s) := by
  induction rs generalizing s with
  | nil => exact .refl s
  | cons r rs ih =>
    have k := silent_publish hgo h (hr r List.mem_cons_self)
    exact k.trans (ih (h.of_settings (by rw [k])) fun x hx => hr x (List.mem_cons_of_mem _ hx))

end Sys2Proof.Machine
end

