-- ==== Sys2Proof/Laws/Reports.lean ====
section
/-! SUPPORT. What the report of a condition does: one lemma for an appearance, one for an absence, one for an event condition. -/

namespace Sys2Proof

theorem poke_peek {α : Type} [Inhabited α] {n : Nat} (v : Vector α n) (i : Nat) : poke v i (peek v i) = v := by
  ext j hj
  simp only [poke, peek, Vector.getElem_setIfInBounds]
  split
  · rename_i h
    subst h
    simp [hj]
  · rfl

theorem poke_poke {α : Type} {n : Nat} (v : Vector α n) (i : Nat) (x y : α) : poke (poke v i x) i y = poke v i y := by
  simp [poke]

namespace Machine

theorem setCause_self (c : Nat) (s : State) : setCause c (s.cause c) s = s := by
  show { s with fis := { s.fis with causes := poke s.fis.causes c (peek s.fis.causes c) } } = s
  rw [poke_peek]

theorem setCause_setCause (c : Nat) (x y : CauseRec) (s : State) : setCause c y (setCause c x s) = setCause c y s := by
  show { s with fis := { s.fis with causes := poke (poke s.fis.causes c x) c y } } =
    { s with fis := { s.fis with causes := poke s.fis.causes c y } }
  rw [poke_poke]

/-- A condition reported present: its record shows it, and after an appearance the cause is active, raised now if it was not
(R105, R106, R107). All else is a cascade. -/
theorem report_present (c : Nat) (hc : c < 16) (s : State) :
    ∃ x, Cascade (setCause c x s) (report send c true s) ∧ x.present = true ∧
      ((s.cause c).present = true → x = s.cause c) ∧
      ((s.cause c).present = false → x.active = true ∧
        x.raisedAt = if (s.cause c).active then (s.cause c).raisedAt else some s.now) := by
  unfold report
  dsimp only
  cases hp : (s.cause c).present
  · cases ha : (s.cause c).active
    · refine ⟨{ active := true, present := true, raisedAt := some s.now }, ?_, rfl, nofun, fun _ => ⟨rfl, rfl⟩⟩
      simp only [if_true, Bool.false_eq_true, if_false]
      refine cascade_raise cascades_send c ?_
      have hx : (setCause c { active := false, present := true, raisedAt := (s.cause c).raisedAt } s).cause c =
          { active := false, present := true, raisedAt := (s.cause c).raisedAt } := by
        rw [setCause_cause]
        simp [hc]
      rw [hx, setCause_setCause]
      exact .refl _
    · refine ⟨{ s.cause c with present := true }, ?_, rfl, nofun, fun _ => ⟨ha, rfl⟩⟩
      simp only [if_true, Bool.false_eq_true, if_false]
      rw [ha]
      exact .refl _
  · refine ⟨s.cause c, ?_, hp, fun _ => rfl, nofun⟩
    simp only [if_true]
    rw [setCause_self]
    exact .refl _

/-- A condition reported absent: its record shows it, and all else is a cascade (R105, R108). -/
theorem report_absent (c : Nat) (s : State) :
    Cascade (setCause c { s.cause c with present := false } s) (report send c false s) :=
  cascade_trySelfClear cascades_send c (.refl _)

/-- An event condition: after it the condition is absent, and a CREW or LATCHED cause is active, raised now if it was not (R105). -/
theorem reportEvent_spec (c : Nat) (hc : c < 16) (s : State) :
    ∃ x v, Cascade (setCause c x s) v ∧ Cascade (setCause c { v.cause c with present := false } v) (reportEvent send c s) ∧
      ((s.cause c).present = true → x = s.cause c) ∧
      ((s.cause c).present = false → x.active = true ∧
        x.raisedAt = if (s.cause c).active then (s.cause c).raisedAt else some s.now) := by
  obtain ⟨x, h, _, k1, k2⟩ := report_present c hc s
  exact ⟨x, _, h, report_absent c _, k1, k2⟩

end Machine

end Sys2Proof
end

