-- ==== Sys2Proof/Laws/Boot.lean ====
section
/-! SUPPORT. A reset and the end of initialization: what is read from the store, what is set up, and what stays (R69, R116, R178, R182, R183). -/

namespace Sys2Proof.Machine

theorem exec_next (c : Instr) (s : State) : ∃ t, exec c s = .next t := by
  cases c <;> exact ⟨_, rfl⟩

theorem ranOut_iff (t : Timer) : ranOut t = true ↔ t = some 0 := by
  unfold ranOut; exact beq_iff_eq

theorem due_of_mem {s : State} {e : Instr × Timer} (h : e ∈ s.timers) (k : e.2 = some 0) : s.due e.1 = true := by
  unfold State.due
  rw [List.any_eq_true]
  exact ⟨e, h, by simp [ranOut, k]⟩

/-! resets -/

theorem finish_of_phase {s : State} (h : s.phase ≠ .running) : finish s = .next s := by
  unfold finish; rw [beginWrite_atRest]; exact fun k => absurd k h

theorem passes_afterReset (t : Sto) (x : SectionName) : t.afterReset.passes x = t.intact x := by
  unfold Sto.afterReset Sto.intact
  cases hw : t.writing with
  | none => cases x <;> simp [Sto.passes]
  | some w =>
    cases hn : w.data.name <;> cases x <;> simp [Sto.passes, Sto.spoil, Copy.spoiled, hn]

theorem loads_afterReset (t : Sto) : t.afterReset.settings =
   { machines := t.loads .machines t.machines factoryMachines
     hsu := t.loads .hsu t.hsu factoryHsu
     interlocks := t.loads .interlocks t.interlocks factoryInterlocks
     causes := t.loads .causes t.causes factoryCauses
     stations := t.loads .stations t.stations factoryStations
     audio := t.loads .audio t.audio factoryAudio
     indicators := t.loads .indicators t.indicators factoryIndicators } := by
  unfold Sto.settings Sto.loads Copy.loaded Sto.afterReset Sto.intact
  cases hw : t.writing with
  | none => simp [Sto.passes]
  | some w =>
    cases hn : w.data.name <;> simp [Sto.passes, Sto.spoil, Copy.spoiled, hn]

theorem peek_replicate {α : Type} [Inhabited α] {n i : Nat} (x : α) (h : i < n) : peek (Vector.replicate n x) i = x := by
  simp [peek, h]

theorem boot_startsOver (c : ResetCause) (ph : Phase) (hp : ph ≠ .running) (st : Straps) (s : State) :
    StartsOver c ph st s (boot c ph st s) where
  phase := rfl
  cause := rfl
  outputs := by
    have hz : ∀ z, z < 8 → (boot c ph st s).zoneOutput z = (0, 0) := by
      intro z hz
      have : (boot c ph st s).zone z = ZoneRec.fresh := peek_replicate _ hz
      unfold State.zoneOutput; rw [this]; rfl
    refine ⟨fun m d => by cases m <;> rfl, rfl, rfl, rfl, rfl, rfl, ?_, fun m n => ?_, fun l => ?_, hz, rfl⟩
    · show (ph == .running && _) = false
      simp [hp]
    · have : ((boot c ph st s).display m).lit = 0 := by cases m <;> rfl
      unfold State.segment
      simp only [this]
      have : decide (1 ≤ n ∧ n ≤ 0) = false := by simp; omega
      rw [this]; rfl
    · show (ph == .running && _ && _) = false
      simp [hp]
  link := ⟨rfl, rfl, rfl, rfl⟩
  channels := fun m => by cases m <;> exact ⟨rfl, rfl, rfl, rfl⟩
  events := ⟨rfl, fun i hi => by
    show (peek (Vector.replicate 8 WatchRec.disarmed) i).last = none
    rw [peek_replicate _ hi]; rfl⟩
  store := ⟨rfl, rfl, passes_afterReset _⟩
  machines := congrArg Settings.machines (loads_afterReset s.sto)
  hsu := congrArg Settings.hsu (loads_afterReset s.sto)
  interlocks := congrArg Settings.interlocks (loads_afterReset s.sto)
  causes := congrArg Settings.causes (loads_afterReset s.sto)
  stations := congrArg Settings.stations (loads_afterReset s.sto)
  audio := congrArg Settings.audio (loads_afterReset s.sto)
  indicators := congrArg Settings.indicators (loads_afterReset s.sto)
  clips := ⟨rfl, rfl, fun k hk => by
    have : (boot c ph st s).clip k = { state := .empty, start := 0, count := 0, length := 0 } := peek_replicate _ hk
    rw [this]⟩
  world := ⟨fun i => by obtain ⟨m, d⟩ := i; cases m <;> cases d <;> exact ⟨rfl, rfl⟩, rfl, rfl⟩

theorem afterReset_records (t : Sto) : t.afterReset.records = { t.records with ok := t.intact .records } := by
  have := passes_afterReset t .records
  unfold Sto.afterReset at this ⊢
  cases hw : t.writing with
  | none => simp [Sto.passes, hw] at this ⊢; rw [← this]
  | some w => 
    simp only [hw] at this ⊢
    rw [← this]
    cases w.data.name <;> rfl

/-! end of initialization -/

theorem cascade_activateHeld {a s : State} (h : Cascade a s) : Cascade a (activateHeld s) :=
  cascade_foldl _ (fun m _ hs => cascade_when hs fun k => cascade_activate m k) h

theorem setUpChannel_keeps (s : State) (m : MachineId) :
   (setUpChannel s m).fis = s.fis ∧ (setUpChannel s m).hsc = s.hsc ∧ (setUpChannel s m).seu = s.seu ∧ (setUpChannel s m).siq = s.siq
   ∧ (setUpChannel s m).sfe.rode = s.sfe.rode ∧ (setUpChannel s m).settings = s.settings ∧ (setUpChannel s m).pins = s.pins 
   ∧ (∀ k, ((setUpChannel s m).chan k).position = (s.chan k).position) ∧ (setUpChannel s m).slp = s.slp ∧ (setUpChannel s m).phase = s.phase ∧ (setUpChannel s m).now = s.now := by
  refine ⟨by cases m <;> rfl, by cases m <;> rfl, by cases m <;> rfl, by cases m <;> rfl, by cases m <;> rfl, by cases m <;> rfl, by cases m <;> rfl, fun k => ?_, by cases m <;> rfl, by cases m <;> rfl, by cases m <;> rfl⟩
  have : (setUpChannel s m).chan k = (setChan m ((s.chan m).inState (s.firstState m)) s).chan k := by cases m <;> rfl
  rw [this, setChan_chan]
  split
  · rename_i h; subst h; exact (channelMove_inState _ _).position
  · rfl

theorem setUpSource_keeps (s : State) (n : Nat) : ∃ x, setUpSource s n = s.onZae x := by
  unfold setUpSource
  split
  · exact ⟨_, rfl⟩
  · exact ⟨id, rfl⟩

/-- The first samples of the three machines (R24, R73). -/
def samples (s : State) : State := machines.foldl (fun s m => firstSample m s) s

/-- The position that the first sample of a machine forms. -/
def firstPosition (s : State) : MachineId → Nat
  | .w => s.sfe.rode
  | .p => meanPosition (s.sampled .p s.pins.platformA s.pins.platformB).rawA (s.sampled .p s.pins.platformA s.pins.platformB).rawB
  | .h => meanPosition (s.sampled .h s.pins.hatchA s.pins.hatchB).rawA (s.sampled .h s.pins.hatchA s.pins.hatchB).rawB

theorem samples_position (s : State) (m : MachineId) : ((samples s).chan m).position = firstPosition s m := by cases m <;> rfl

/-- The first samples change the sensors and the positions alone. -/
theorem samples_eq (s : State) : samples s = { s with mc := (samples s).mc, sfe := (samples s).sfe } ∧ (samples s).sfe.rode = s.sfe.rode :=
  ⟨rfl, rfl⟩

theorem firstPosition_of {s t : State} (h1 : t.sfe = s.sfe) (h2 : t.settings = s.settings) (h3 : t.pins = s.pins) (m : MachineId) :
    firstPosition t m = firstPosition s m := by
  cases m <;> simp only [firstPosition, State.sampled, State.sensors, State.sensorParams, h1, h2, h3]

structure SetUpKeeps (s t : State) : Prop where
  fis : t.fis = (storeCauses s).fis
  iso : t.hsc.isolate = (s.pins.estop || s.fis.trip.isSome)
  events : t.seu.events = pushEvent { kind := .resetDone s.resetCause s.sto.failed, time := 0, lost := false } s.seu.events
  siq : t.siq = s.siq.setUp
  rode : t.sfe.rode = s.sfe.rode
  settings : t.settings = s.settings
  pins : t.pins = s.pins
  pos : ∀ m, (t.chan m).position = firstPosition s m
  hsc : t.hsc = { Hsc.fresh with isolate := s.pins.estop || s.fis.trip.isSome }
  slp : t.slp = { s.slp with quiet := timerUnlessZero s.settings.machines.linkQuiet }
  phase : t.phase = .running
  now : t.now = 0

theorem storeCauses_other (s : State) : storeCauses s = { s with fis := (storeCauses s).fis } := by
  unfold storeCauses
  dsimp only
  repeat' split
  all_goals rfl

theorem storeCauses_trip (s : State) : (storeCauses s).fis.trip = s.fis.trip := by
  unfold storeCauses
  dsimp only
  repeat' split
  all_goals rfl

theorem firstWrite_keeps (s : State) : firstWrite s = { s with sto := (firstWrite s).sto, sfe := { s.sfe with rodeWriteDue := (firstWrite s).sfe.rodeWriteDue } } := by
  unfold firstWrite
  split <;> rfl

structure SetUpFrame (s t : State) : Prop where
  fis : t.fis = s.fis
  iso : t.hsc = s.hsc
  ev : t.seu.events = s.seu.events
  siq : t.siq = s.siq
  rode : t.sfe.rode = s.sfe.rode
  settings : t.settings = s.settings
  pins : t.pins = s.pins
  pos : ∀ m, (t.chan m).position = (s.chan m).position
  slp : t.slp = s.slp
  phase : t.phase = s.phase
  now : t.now = s.now

theorem SetUpFrame.trans {s t u : State} (h : SetUpFrame s t) (k : SetUpFrame t u) : SetUpFrame s u :=
  ⟨k.1.trans h.1, k.2.trans h.2, k.3.trans h.3, k.4.trans h.4, k.5.trans h.5, k.6.trans h.6, k.7.trans h.7, fun m => (k.8 m).trans (h.8 m), k.9.trans h.9, k.10.trans h.10, k.11.trans h.11⟩

theorem SetUpFrame.refl (s : State) : SetUpFrame s s := ⟨rfl, rfl, rfl, rfl, rfl, rfl, rfl, fun _ => rfl, rfl, rfl, rfl⟩

theorem SetUpFrame.foldl {α : Type} (f : State → α → State) (hf : ∀ s x, SetUpFrame s (f s x)) (xs : List α) (s : State) : SetUpFrame s (xs.foldl f s) := by
  induction xs generalizing s with
  | nil => exact .refl s
  | cons x xs ih => exact (hf s x).trans (ih _)

theorem k_setUpChannel (s : State) (m : MachineId) : SetUpFrame s (setUpChannel s m) := by
  have a := setUpChannel_keeps s m
  exact ⟨a.1, a.2.1, congrArg _ a.2.2.1, a.2.2.2.1, a.2.2.2.2.1, a.2.2.2.2.2.1, a.2.2.2.2.2.2.1, a.2.2.2.2.2.2.2.1, a.2.2.2.2.2.2.2.2.1, a.2.2.2.2.2.2.2.2.2.1, a.2.2.2.2.2.2.2.2.2.2⟩

theorem k_setUpSource (s : State) (n : Nat) : SetUpFrame s (setUpSource s n) := by
  obtain ⟨x, e⟩ := setUpSource_keeps s n
  rw [e]; exact ⟨rfl, rfl, rfl, rfl, rfl, rfl, rfl, fun _ => rfl, rfl, rfl, rfl⟩

theorem k_onItems (s : State) (x : Vector Bool 144) : SetUpFrame s (s.onSeu fun u => { u with items := x }) := ⟨rfl, rfl, rfl, rfl, rfl, rfl, rfl, fun _ => rfl, rfl, rfl, rfl⟩

theorem k_setItems (s : State) : SetUpFrame s (setItems s) := k_onItems s _

theorem k_firstWrite (s : State) : SetUpFrame s (firstWrite s) := by
  rw [firstWrite_keeps]; exact ⟨rfl, rfl, rfl, rfl, rfl, rfl, rfl, fun _ => rfl, rfl, rfl, rfl⟩

def stage1 (s : State) : State := storeCauses (queueEvent (.resetDone s.resetCause s.sto.failed) { s with phase := .running, now := 0 })

def stage2 (s : State) : State := s.onHsc fun _ => { Hsc.fresh with isolate := s.pins.estop || s.fis.trip.isSome }

def stage3 (s : State) : State := machines.foldl setUpChannel (samples s)

def stage4 (s : State) : State := (List.range 3).foldl setUpSource (s.onSiq Siq.setUp)

def stage5 (s : State) : State := setItems (setItems (firstWrite (startTimers s)))

theorem setUp_stages (s : State) : setUp s = stage5 (stage4 (stage3 (stage2 (stage1 s)))) := rfl

theorem k3 (s : State) : SetUpFrame (samples s) (stage3 s) := SetUpFrame.foldl _ k_setUpChannel _ _

theorem k4 (s : State) : SetUpFrame (s.onSiq Siq.setUp) (stage4 s) := SetUpFrame.foldl _ k_setUpSource _ _

theorem k5 (s : State) : SetUpFrame (startTimers s) (stage5 s) := (k_firstWrite _).trans ((k_setItems _).trans (k_setItems _))

theorem stage1_fis (s : State) : (stage1 s).fis = (storeCauses s).fis := by
  unfold stage1
  have h1 : (queueEvent (.resetDone s.resetCause s.sto.failed) { s with phase := .running, now := 0 }).sto = s.sto := rfl
  have h2 : (queueEvent (.resetDone s.resetCause s.sto.failed) { s with phase := .running, now := 0 }).fis = s.fis := rfl
  generalize queueEvent (.resetDone s.resetCause s.sto.failed) { s with phase := .running, now := 0 } = v at h1 h2
  unfold storeCauses
  simp only [h1]
  split <;> split <;> simp [storeCause, setCause, State.cause, h2]

theorem stage1_eq (s : State) : stage1 s = { queueEvent (.resetDone s.resetCause s.sto.failed) { s with phase := .running, now := 0 } with fis := (stage1 s).fis } := storeCauses_other _

theorem setUp_keeps (s : State) : SetUpKeeps s (setUp s) := by
  rw [setUp_stages]
  have e1 := stage1_eq s
  have f1 := stage1_fis s
  generalize stage1 s = s1 at e1 f1
  rw [f1] at e1
  have a5 := k5 (stage4 (stage3 (stage2 s1)))
  have a4 := k4 (stage3 (stage2 s1))
  have a3 := k3 (stage2 s1)
  have p0 := samples_position (stage2 s1)
  obtain ⟨q0, q1⟩ := samples_eq (stage2 s1)
  generalize stage3 (stage2 s1) = s3 at *
  generalize stage4 s3 = s4 at *
  generalize stage5 s4 = s5 at *
  generalize samples (stage2 s1) = s0 at *
  refine ⟨?_, ?_, ?_, ?_, ?_, ?_, ?_, fun m => ?_, ?_, ?_, ?_, ?_⟩
  · rw [a5.fis]; show s4.fis = _; rw [a4.fis]; show s3.fis = _; rw [a3.fis, q0]; exact f1
  · rw [a5.iso]; show s4.hsc.isolate = _; rw [a4.iso]; show s3.hsc.isolate = _; rw [a3.iso, q0]
    show (s1.pins.estop || s1.fis.trip.isSome) = _
    rw [f1, storeCauses_trip, e1]; rfl
  · rw [a5.ev]; show s4.seu.events = _; rw [a4.ev]; show s3.seu.events = _; rw [a3.ev, q0]
    show s1.seu.events = _; rw [e1]; rfl
  · rw [a5.siq]; show s4.siq = _; rw [a4.siq]; show s3.siq.setUp = _; rw [a3.siq, q0]; show s1.siq.setUp = _; rw [e1]; rfl
  · rw [a5.rode]; show s4.sfe.rode = _; rw [a4.rode]; show s3.sfe.rode = _; rw [a3.rode, q1]; show s1.sfe.rode = _; rw [e1]; rfl
  · rw [a5.settings]; show s4.settings = _; rw [a4.settings]; show s3.settings = _; rw [a3.settings, q0]; show s1.settings = _; rw [e1]; rfl
  · rw [a5.pins]; show s4.pins = _; rw [a4.pins]; show s3.pins = _; rw [a3.pins, q0]; show s1.pins = _; rw [e1]; rfl
  · rw [a5.pos]; show (s4.chan m).position = _; rw [a4.pos]; show (s3.chan m).position = _; rw [a3.pos, p0]
    refine firstPosition_of ?_ ?_ ?_ m
    · show s1.sfe = _; rw [e1]; rfl
    · show s1.settings = _; rw [e1]; rfl
    · show s1.pins = _; rw [e1]; rfl
  · rw [a5.iso]; show s4.hsc = _; rw [a4.iso]; show s3.hsc = _; rw [a3.iso, q0]
    show ({ Hsc.fresh with isolate := s1.pins.estop || s1.fis.trip.isSome } : Hsc) = _
    rw [f1, storeCauses_trip, e1]; rfl
  · rw [a5.slp]; show { s4.slp with quiet := timerUnlessZero s4.settings.machines.linkQuiet } = _
    rw [a4.slp, a4.settings]; show { s3.slp with quiet := timerUnlessZero s3.settings.machines.linkQuiet } = _
    rw [a3.slp, a3.settings, q0]; show { s1.slp with quiet := timerUnlessZero s1.settings.machines.linkQuiet } = _
    rw [e1]; rfl
  · rw [a5.phase]; show s4.phase = _; rw [a4.phase]; show s3.phase = _; rw [a3.phase, q0]; show s1.phase = _; rw [e1]; rfl
  · rw [a5.now]; show s4.now = _; rw [a4.now]; show s3.now = _; rw [a3.now, q0]; show s1.now = _; rw [e1]; rfl

theorem cause_setCause_ne {c d : Nat} (h : c ≠ d) (x : CauseRec) (s : State) : (setCause c x s).cause d = s.cause d := by
  rw [setCause_cause]; simp [h]

theorem inhibited_setUp (x : HoldRec) (r : Nat) : (x.setUp).inhibited r = x.setUp := by
  unfold HoldRec.setUp HoldRec.inhibited
  dsimp only
  split <;> simp_all <;> split at * <;> simp_all

theorem setUp_input (q : Siq) (i : HoldInput) : (q.setUp.inputs.get i.machine).get i.dir = ((q.inputs.get i.machine).get i.dir).setUp := by
  obtain ⟨m, d⟩ := i; cases m <;> cases d <;> rfl

/-- facts kept by a report of a cause other than c -/
structure InitKeeps (s t : State) : Prop where
  cas : t.settings = s.settings ∧ t.slp = s.slp ∧ t.phase = s.phase ∧ t.now = s.now ∧ t.pins = s.pins
  pos : ∀ m, (t.chan m).position = (s.chan m).position
  iso : s.hsc.isolate = true → t.hsc.isolate = true
  ev : s.seu.events.map Event.kind <+: t.seu.events.map Event.kind
  inp : ∀ i, t.input i = s.input i ∨ t.input i = (s.input i).inhibited s.settings.stations.releaseTime
  siq : t.siq = { s.siq with inputs := t.siq.inputs }
  rode : t.sfe.rode = s.sfe.rode

theorem Cascade.init {s t : State} (h : Cascade s t) : InitKeeps s t :=
  ⟨⟨h.settings, h.slp, h.phase, h.now, h.pins⟩, h.position, h.isolate, h.events, h.input, h.siq, h.rode⟩

theorem InitKeeps.trans {s t u : State} (h : InitKeeps s t) (k : InitKeeps t u) : InitKeeps s u :=
  ⟨⟨k.1.1.trans h.1.1, k.1.2.1.trans h.1.2.1, k.1.2.2.1.trans h.1.2.2.1, k.1.2.2.2.1.trans h.1.2.2.2.1, k.1.2.2.2.2.trans h.1.2.2.2.2⟩,
   fun m => (k.2 m).trans (h.2 m), fun x => k.3 (h.3 x), h.4.trans k.4, fun i => by
     rcases h.5 i with a | a <;> rcases k.5 i with b | b <;> rw [b, a]
     · exact .inl rfl
     · rw [h.1.1]; exact .inr rfl
     · exact .inr rfl
     · rw [h.1.1, inhibited_idem]; exact .inr rfl, by have e := k.siq; rw [h.siq] at e; exact e, k.rode.trans h.rode⟩

theorem initKeeps_setCause (c : Nat) (x : CauseRec) (s : State) : InitKeeps s (setCause c x s) :=
  ⟨⟨rfl, rfl, rfl, rfl, rfl⟩, fun _ => rfl, id, List.prefix_refl _, fun _ => .inl rfl, rfl, rfl⟩

/-- a report of c leaves d as a cascade does -/
theorem report_other {c : Nat} (hc : c < 16) (s : State) {d : Nat} (hd : c ≠ d) :
   ∃ v, v.cause d = s.cause d ∧ Cascade v (report send c true s) ∧ v.settings = s.settings := by
  obtain ⟨x, h, _⟩ := report_present c hc s
  exact ⟨_, cause_setCause_ne hd x s, h, rfl⟩

theorem init_report {c : Nat} (hc : c < 16) (s : State) : InitKeeps s (report send c true s) := by
  obtain ⟨x, h, _⟩ := report_present c hc s
  exact (initKeeps_setCause c x s).trans h.init

theorem storeCause_cfg (s : State) (h : ∃ x ∈ s.sto.failed, x ≠ .records) : (peek (storeCauses s).fis.causes causeStoreConfig).active = true ∧ (peek (storeCauses s).fis.causes causeStoreConfig).raisedAt = some 0 := by
  have : (s.sto.failed.any fun x => x != .records) = true := by
    rw [List.any_eq_true]; obtain ⟨x, hx, hn⟩ := h; exact ⟨x, hx, by simp [hn]⟩
  unfold storeCauses
  simp only [this, if_true]
  have e : (storeCause causeStoreConfig s).cause causeStoreConfig = { s.cause causeStoreConfig with active := true, raisedAt := some 0 } := by
    unfold storeCause; rw [setCause_cause]; simp [causeStoreConfig]
  split
  · have : (storeCause causeStoreRecords (storeCause causeStoreConfig s)).cause causeStoreConfig = (storeCause causeStoreConfig s).cause causeStoreConfig := by
      exact cause_setCause_ne (by decide) _ _
    show ((storeCause causeStoreRecords (storeCause causeStoreConfig s)).cause causeStoreConfig).active = _ ∧ ((storeCause causeStoreRecords (storeCause causeStoreConfig s)).cause causeStoreConfig).raisedAt = _
    rw [this, e]; exact ⟨rfl, rfl⟩
  · show ((storeCause causeStoreConfig s).cause causeStoreConfig).active = _ ∧ ((storeCause causeStoreConfig s).cause causeStoreConfig).raisedAt = _
    rw [e]; exact ⟨rfl, rfl⟩

theorem storeCause_rec (s : State) (h : .records ∈ s.sto.failed) : (peek (storeCauses s).fis.causes causeStoreRecords).active = true ∧ (peek (storeCauses s).fis.causes causeStoreRecords).raisedAt = some 0 := by
  unfold storeCauses
  dsimp only
  have key : ∀ u : State, u.sto = s.sto → ((storeCause causeStoreRecords u).cause causeStoreRecords) = { u.cause causeStoreRecords with active := true, raisedAt := some 0 } := by
    intro u _; unfold storeCause; rw [setCause_cause]; simp [causeStoreRecords]
  have h' : s.sto.failed.contains .records = true := by simpa using h
  rw [if_pos h']
  have := key (if (s.sto.failed.any fun x => x != .records) = true then storeCause causeStoreConfig s else s) (by split <;> rfl)
  constructor
  · exact (congrArg CauseRec.active this)
  · exact (congrArg CauseRec.raisedAt this)

theorem storeCauses_cause0 (s : State) (c : Nat) (h : c < 14) : peek (storeCauses s).fis.causes c = s.cause c := by
  unfold storeCauses
  dsimp only
  have k1 : 14 ≠ c := by omega
  have k2 : 15 ≠ c := by omega
  split <;> split
  · exact (cause_setCause_ne (c := 15) k2 _ _).trans (cause_setCause_ne (c := 14) k1 _ _)
  · exact (cause_setCause_ne (c := 15) k2 _ _)
  · exact (cause_setCause_ne (c := 14) k1 _ _)
  · rfl

end Sys2Proof.Machine
end

