-- ==== Sys2Proof/Laws/Calm.lean ====
section
/-! SUPPORT. Without host interlock entries the shared operations change, besides the records they are about, only items, voices,
displays and the queue of the store: each of them is said once by its core. -/

namespace Sys2Proof.Machine

variable {go : Go}

/-- The two states differ at most in the status and event unit, the audio engine, the indicators and the store. -/
def Calm (s t : State) : Prop := t = { s with seu := t.seu, zae := t.zae, ind := t.ind, sto := t.sto }

theorem Calm.refl (s : State) : Calm s s := rfl

theorem Calm.trans {s t u : State} (h : Calm s t) (k : Calm t u) : Calm s u := by
  unfold Calm at *
  rw [k, h]

theorem Silent.calm {s t : State} (h : Silent s t) : Calm s t := by
  unfold Silent at h
  unfold Calm
  rw [h]

theorem Calm.onSeu (f : Seu → Seu) (s : State) : Calm s (s.onSeu f) := rfl
theorem Calm.onZae (f : Zae → Zae) (s : State) : Calm s (s.onZae f) := rfl
theorem Calm.onInd (f : Ind → Ind) (s : State) : Calm s (s.onInd f) := rfl
theorem Calm.onSto (f : Sto → Sto) (s : State) : Calm s (s.onSto f) := rfl

section fields

variable {s t : State} (h : Calm s t)
include h

theorem Calm.phase : t.phase = s.phase := by rw [h]
theorem Calm.now : t.now = s.now := by rw [h]
theorem Calm.pins : t.pins = s.pins := by rw [h]
theorem Calm.settings : t.settings = s.settings := by rw [h]
theorem Calm.slp : t.slp = s.slp := by rw [h]
theorem Calm.mc : t.mc = s.mc := by rw [h]
theorem Calm.sfe : t.sfe = s.sfe := by rw [h]
theorem Calm.hsc : t.hsc = s.hsc := by rw [h]
theorem Calm.siq : t.siq = s.siq := by rw [h]
theorem Calm.fis : t.fis = s.fis := by rw [h]
theorem Calm.chan (m : MachineId) : t.chan m = s.chan m := by rw [h]; rfl
theorem Calm.cause (c : Nat) : t.cause c = s.cause c := by rw [h]; rfl

theorem Calm.noHostEntries (k : NoHostEntries s) : NoHostEntries t := k.of_settings h.settings

end fields

theorem calm_foldl {α : Type} (f : State → α → State) (xs : List α) (hf : ∀ s x, Calm s (f s x)) (s : State) :
    Calm s (xs.foldl f s) := by
  induction xs generalizing s with
  | nil => exact .refl s
  | cons x xs ih => exact (hf s x).trans (ih _)

/-! ## Publishing -/

/-- An item that no built-in entry names. -/
def Plain (r : ItemRef) : Prop := r ∉ builtInItems

theorem plain_channelItems (m : MachineId) : ∀ r ∈ channelItems m, Plain r := by
  cases m <;> (unfold Plain; decide)

theorem plain_pumpItems : ∀ r ∈ pumpItems, Plain r := by
  unfold Plain; decide

theorem plain_announcing : ∀ r ∈ zoneIndexes.map Item.announcing ++ [Item.toneAny], Plain r := by
  unfold Plain; decide

theorem calm_publish (hgo : Quiet go) {s : State} (h : NoHostEntries s) {r : ItemRef} (hr : Plain r) : Calm s (publish go s r) :=
  (silent_publish hgo h hr).calm

theorem calm_publishAll (hgo : Quiet go) {s : State} (h : NoHostEntries s) (rs : List ItemRef) (hr : ∀ r ∈ rs, Plain r) :
    Calm s (publishAll go rs s) :=
  (silent_publishAll hgo h rs hr).calm

theorem calm_requestWrite (hgo : Quiet go) {s : State} (h : NoHostEntries s) (x : SectionName) (mark : Bool) :
    Calm s (requestWrite go x mark s) :=
  (Calm.onSto _ s).trans (calm_publish hgo (Calm.noHostEntries (Calm.onSto _ s) h) (by unfold Plain; decide))

/-! ## Displays -/

theorem calm_setDisplay (m : MachineId) (d : DisplayRec) (s : State) : Calm s (setDisplay m d s) := rfl

theorem calm_judgeOverlay (m : MachineId) (s : State) : Calm s (judgeOverlay m s) := by
  unfold judgeOverlay
  dsimp only
  split
  · exact .refl s
  · exact calm_setDisplay _ _ _

theorem calm_continueRamp (m : MachineId) (s : State) : Calm s (continueRamp m s) := by
  unfold continueRamp enterShowing
  dsimp only
  repeat' split
  all_goals first | exact .refl s | exact calm_setDisplay _ _ _

theorem calm_refreshDisplay (m : MachineId) (s : State) : Calm s (refreshDisplay m s) := by
  unfold refreshDisplay
  refine Calm.trans ?_ (calm_judgeOverlay m _)
  split
  · exact .refl s
  · exact calm_continueRamp m s
  · exact calm_setDisplay _ _ _

theorem calm_activate (m : MachineId) (s : State) : Calm s (activate m s) := by
  unfold activate
  split
  · exact (calm_setDisplay _ _ _).trans ((calm_continueRamp m _).trans (calm_judgeOverlay m _))
  · exact .refl s
  · split
    · exact calm_setDisplay _ _ _
    · exact .refl s

theorem calm_displayFollows (old : ChanState) (m : MachineId) (s : State) : Calm s (displayFollows old m s) := by
  unfold displayFollows
  refine Calm.trans ?_ (calm_judgeOverlay m _)
  repeat' split
  all_goals first | exact .refl s | exact calm_setDisplay _ _ _

/-! ## Announce lists and pages -/

theorem calm_setZone (z : Nat) (x : ZoneRec) (s : State) : Calm s (setZone z x s) := rfl

theorem calm_cutPage (f : Nat → Bool) (s : State) : Calm s (cutPage f s) := by
  unfold cutPage
  split
  · exact .refl s
  · refine (calm_foldl _ _ (fun s z => ?_) s).trans (.onZae _ _)
    split
    · exact calm_setZone _ _ _
    · exact .refl s

theorem calm_endPageIfDone (hgo : Quiet go) {s : State} (h : NoHostEntries s) : Calm s (endPageIfDone go s) := by
  unfold endPageIfDone
  split
  · exact .refl s
  · split
    · exact .refl s
    · rename_i p _ _
      have k : Calm s (queueEvent (.pageEnded p.clip p.completed p.cut) s |>.onZae fun a => { a with page := none }) :=
        (Calm.onSeu _ s).trans (.onZae _ _)
      exact k.trans (calm_publish hgo (k.noHostEntries h) (by unfold Plain; decide))

theorem calm_reconsiderLists (hgo : Quiet go) {s : State} (h : NoHostEntries s) : Calm s (reconsiderLists go s) := by
  unfold reconsiderLists
  have k1 : Calm s (zoneIndexes.foldl (fun s z => setZone z (s.withList (s.reconsidered z) (s.zone z)) s) s) :=
    calm_foldl _ _ (fun _ _ => calm_setZone _ _ _) s
  have k2 := k1.trans (calm_cutPage
    (State.cutsPage (zoneIndexes.foldl (fun s z => setZone z (s.withList (s.reconsidered z) (s.zone z)) s) s)) _)
  have k3 := k2.trans (calm_publishAll hgo (k2.noHostEntries h) _ plain_announcing)
  exact k3.trans (calm_endPageIfDone hgo (k3.noHostEntries h))

/-! ## Channels, flow sharing and the pump -/

/-- What `changeState` does but for items and display. -/
def stateCore (m : MachineId) (st : ChanState) (s : State) : State :=
  stallCheck (followState m st (setChan m ((s.chan m).inState st) s))

theorem stallCheck_settings (s : State) : (stallCheck s).settings = s.settings := by
  unfold stallCheck
  dsimp only
  repeat' split
  all_goals rfl

theorem followState_settings (m : MachineId) (st : ChanState) (s : State) : (followState m st s).settings = s.settings := by
  cases m <;> rfl

theorem stateCore_settings (m : MachineId) (st : ChanState) (s : State) : (stateCore m st s).settings = s.settings := by
  unfold stateCore
  rw [stallCheck_settings, followState_settings]
  rfl

theorem stallCheck_eq (s : State) : stallCheck s = { s with sfe := (stallCheck s).sfe } := by
  unfold stallCheck
  dsimp only
  repeat' split
  all_goals rfl

theorem stateCore_eq (m : MachineId) (st : ChanState) (s : State) :
    stateCore m st s = { s with mc := s.mc.set m ((s.chan m).inState st), sfe := (stateCore m st s).sfe } := by
  unfold stateCore
  rw [stallCheck_eq]
  cases m <;> rfl

theorem stateCore_chan (m k : MachineId) (st : ChanState) (s : State) :
    (stateCore m st s).chan k = if m = k then (s.chan m).inState st else s.chan k := by
  rw [stateCore_eq]
  exact Three.get_set _ _ _ _

theorem stateCore_sfe (m : MachineId) (st : ChanState) (s : State) :
    (stateCore m st s).sfe.rode = s.sfe.rode ∧ (stateCore m st s).sfe.rodeUnknown = s.sfe.rodeUnknown := by
  unfold stateCore stallCheck
  cases m <;> (dsimp only; repeat' split) <;> exact ⟨rfl, rfl⟩

theorem calm_changeFrom (hgo : Quiet go) {s : State} (h : NoHostEntries s) (old : ChanState) (m : MachineId) (st : ChanState) :
    Calm (stateCore m st s) (changeFrom go old m st s) := by
  have k := calm_displayFollows old m (stateCore m st s)
  exact k.trans (calm_publishAll hgo (k.noHostEntries (h.of_settings (stateCore_settings m st s))) _ (plain_channelItems m))

theorem calm_changeState (hgo : Quiet go) {s : State} (h : NoHostEntries s) (m : MachineId) (st : ChanState) :
    Calm (stateCore m st s) (changeState go m st s) := calm_changeFrom hgo h _ m st

theorem calm_enter (hgo : Quiet go) {s : State} (h : NoHostEntries s) (m : MachineId) (st : ChanState) :
    Calm (stateCore m st s) (enter go m st s) := by
  have k := calm_changeState hgo h m st
  unfold enter
  dsimp only
  split
  · exact k
  · exact k.trans (calm_reconsiderLists hgo (k.noHostEntries (h.of_settings (stateCore_settings m st s))))

/-- What `recompute` does but for SCALED. -/
def shareCore (s : State) : State :=
  stallCheck ((s.onHsc fun h =>
    { h with pn := s.pinFlow, avail := s.availFlow, total := s.totalFlow, scaled := decide (s.availFlow < s.totalFlow) }).onMc
      fun _ => { w := s.shared .w, p := s.shared .p, h := s.shared .h })

theorem shareCore_settings (s : State) : (shareCore s).settings = s.settings := stallCheck_settings _

theorem shareCore_eq (s : State) :
    shareCore s =
      { s with
        mc := { w := s.shared .w, p := s.shared .p, h := s.shared .h }, sfe := (shareCore s).sfe
        hsc := { s.hsc with
          pn := s.pinFlow, avail := s.availFlow, total := s.totalFlow, scaled := decide (s.availFlow < s.totalFlow) } } := by
  unfold shareCore
  rw [stallCheck_eq]
  rfl

theorem shareCore_chan (s : State) (k : MachineId) : (shareCore s).chan k = s.shared k := by
  rw [shareCore_eq]
  cases k <;> rfl

theorem shareCore_rode (s : State) : (shareCore s).sfe.rode = s.sfe.rode := by
  unfold shareCore stallCheck
  dsimp only
  repeat' split
  all_goals rfl

/-- Flow sharing changes share and applied demand alone. -/
theorem shared_eq (s : State) (m : MachineId) :
    s.shared m = { s.chan m with share := (s.shared m).share, applied := (s.shared m).applied } := by
  unfold State.shared
  dsimp only
  split <;> rfl

theorem calm_recompute (hgo : Quiet go) {s : State} (h : NoHostEntries s) : Calm (shareCore s) (recompute go s) :=
  calm_publish hgo (h.of_settings (shareCore_settings s)) (by unfold Plain; decide)

theorem calm_setPump (hgo : Quiet go) {s : State} (h : NoHostEntries s) (p : PumpState) (attempt : Nat) (timer : Timer) :
    Calm (s.onHsc fun h => { h with pump := p, attempt := attempt, timer := timer, pressLoss := if p.confirmed then h.pressLoss else none })
      (setPump go p attempt timer s) :=
  calm_publishAll hgo (s := s.onHsc _) h _ plain_pumpItems

/-! ## Runs and grants -/

/-- The same runs, grants, inputs, causes, pins and settings: the two states may differ in flow shares, pump, timers of the windlass
and the pins, items, voices, displays and the store. -/
structure Still (s t : State) : Prop where
  phase : t.phase = s.phase
  now : t.now = s.now
  pins : t.pins = s.pins
  settings : t.settings = s.settings
  slp : t.slp = s.slp
  siq : t.siq = s.siq
  fis : t.fis = s.fis
  rode : t.sfe.rode = s.sfe.rode
  grants : t.hsc.grants = s.hsc.grants
  queue : t.hsc.queue = s.hsc.queue
  isolate : t.hsc.isolate = s.hsc.isolate
  chan : ∀ m, t.chan m = { s.chan m with share := (t.chan m).share, applied := (t.chan m).applied }

theorem Still.refl (s : State) : Still s s := ⟨rfl, rfl, rfl, rfl, rfl, rfl, rfl, rfl, rfl, rfl, rfl, fun _ => rfl⟩

theorem Still.trans {s t u : State} (h : Still s t) (k : Still t u) : Still s u :=
  ⟨k.phase.trans h.phase, k.now.trans h.now, k.pins.trans h.pins, k.settings.trans h.settings, k.slp.trans h.slp,
    k.siq.trans h.siq, k.fis.trans h.fis, k.rode.trans h.rode, k.grants.trans h.grants, k.queue.trans h.queue,
    k.isolate.trans h.isolate, fun m => by
      have := k.chan m
      rw [h.chan m] at this
      exact this⟩

theorem Calm.still {s t : State} (h : Calm s t) : Still s t := by
  rw [h]
  exact ⟨rfl, rfl, rfl, rfl, rfl, rfl, rfl, rfl, rfl, rfl, rfl, fun _ => rfl⟩

theorem Still.noHostEntries {s t : State} (h : Still s t) (k : NoHostEntries s) : NoHostEntries t := k.of_settings h.settings

theorem still_shareCore (s : State) : Still s (shareCore s) := by
  have e := shareCore_eq s
  refine ⟨by rw [e], by rw [e], by rw [e], by rw [e], by rw [e], by rw [e], by rw [e], shareCore_rode s, by rw [e], by rw [e],
    by rw [e], fun m => ?_⟩
  rw [shareCore_chan]
  exact shared_eq s m

theorem still_recompute (hgo : Quiet go) {s : State} (h : NoHostEntries s) : Still s (recompute go s) :=
  (still_shareCore s).trans (calm_recompute hgo h).still

theorem still_setPump (hgo : Quiet go) {s : State} (h : NoHostEntries s) (p : PumpState) (attempt : Nat) (timer : Timer) :
    Still s (setPump go p attempt timer s) :=
  Still.trans (t := s.onHsc fun h => { h with pump := p, attempt := attempt, timer := timer,
                                              pressLoss := if p.confirmed then h.pressLoss else none })
    ⟨rfl, rfl, rfl, rfl, rfl, rfl, rfl, rfl, rfl, rfl, rfl, fun _ => rfl⟩ (calm_setPump hgo h p attempt timer).still

theorem still_pumpAfterRelease (hgo : Quiet go) {s : State} (h : NoHostEntries s) : Still s (pumpAfterRelease go s) := by
  unfold pumpAfterRelease
  split
  · split
    · exact still_setPump hgo h _ _ _
    · exact still_setPump hgo h _ _ _
    · split
      · exact still_setPump hgo h _ _ _
      · exact still_setPump hgo h _ _ _
    · exact .refl s
    · exact .refl s
  · exact .refl s

/-- With nobody waiting a release is still but for the channel released (R50). -/
theorem still_afterRelease (hgo : Quiet go) {s : State} (h : NoHostEntries s) (hq : s.hsc.queue = []) (hand : Handing) :
    Still s (afterRelease go hand s) := by
  have k1 : Still s (pumpAfterRelease go s) := still_pumpAfterRelease hgo h
  have k2 := k1.trans (calm_publishAll hgo (k1.noHostEntries h) [Item.grantsFull, Item.waitingAny] (by unfold Plain; decide)).still
  have k3 := k2.trans (still_recompute hgo (k2.noHostEntries h))
  unfold afterRelease
  cases hand
  · have : handOver go s = s := by
      unfold handOver
      rw [hq]
    dsimp only
    rw [this]
    exact k3
  · exact k3
  · exact .refl s

end Sys2Proof.Machine
end

