-- ==== Sys2Proof/Laws/Ends.lean ====
section
/-! SUPPORT. The end of a run and the inhibiting of inputs, said once each: `leave`, `endRun`, `inhibit`, `stopMachine`. -/

namespace Sys2Proof.Machine

variable {go : Go}

theorem inState_eq (c : Channel) (st : ChanState) : (c.inState st).state = st := by cases st <;> rfl
/-- A new channel state leaves the runs, position, counter and marks of the channel alone. -/
theorem inState_runs (c : Channel) (st : ChanState) : (c.inState st).live = c.live ∧ (c.inState st).last = c.last ∧ (c.inState st).refresh = c.refresh ∧ (c.inState st).position = c.position ∧ (c.inState st).counter = c.counter ∧ (c.inState st).conflict = c.conflict ∧ (c.inState st).dirOut = c.dirOut := by cases st <;> exact ⟨rfl, rfl, rfl, rfl, rfl, rfl, rfl⟩

theorem anyValid_siq {s t : State} (h : t.siq = s.siq) (m : MachineId) : t.anyValid m = s.anyValid m := by
  unfold State.anyValid State.inputState State.input; rw [h]

/-- The two inputs of the machine inhibited, before anything follows (R95). -/
def inhibitCore (m : MachineId) (s : State) : State :=
  let t := s.settings.stations.releaseTime
  let s := setInput ⟨m, .outward⟩ ((s.input ⟨m, .outward⟩).inhibited t) s
  setInput ⟨m, .inward⟩ ((s.input ⟨m, .inward⟩).inhibited t) s

theorem inhibit_eq (m : MachineId) (s : State) : inhibit go m s =
    go (.letGo m) (publishAll go (inputItems ⟨m, .outward⟩ ++ inputItems ⟨m, .inward⟩) (inhibitCore m s)) := rfl

theorem dropRun_eq (m : MachineId) (s : State) : dropRun m s =
   { s with mc := (dropRun m s).mc, hsc := { s.hsc with grants := s.hsc.grants.erase m, queue := s.hsc.queue.erase m } } := by
  unfold dropRun
  dsimp only
  split <;> rfl

theorem dropRun_chan (m : MachineId) (s : State) (r : RunRec) (hr : (s.chan m).live = some r) :
   (dropRun m s).chan m = { s.chan m with live := none, last := some { r with endPos := some (s.chan m).position }, refresh := none } := by
  unfold dropRun
  dsimp only
  rw [hr]
  exact setChan_chan_same _ _ _

/-- The same as far as `Still` goes, once the channel has taken the state. -/
theorem still_stateCore {s t : State} (h : Still s t) (m : MachineId) {st : ChanState} (hst : st ≠ .stopping) :
    Still (stateCore m st s) (stateCore m st t) := by
  have e := stateCore_eq m st s
  have f := stateCore_eq m st t
  refine ⟨?_, ?_, ?_, ?_, ?_, ?_, ?_, ?_, ?_, ?_, ?_, fun k => ?_⟩
  · rw [e, f]; exact h.phase
  · rw [e, f]; exact h.now
  · rw [e, f]; exact h.pins
  · rw [e, f]; exact h.settings
  · rw [e, f]; exact h.slp
  · rw [e, f]; exact h.siq
  · rw [e, f]; exact h.fis
  · rw [(stateCore_sfe m st s).1, (stateCore_sfe m st t).1]; exact h.rode
  · rw [e, f]; exact h.grants
  · rw [e, f]; exact h.queue
  · rw [e, f]; exact h.isolate
  · rw [stateCore_chan, stateCore_chan]
    have := h.chan k
    split
    · rename_i hk; subst hk
      have e2 : (t.chan m).inState st = (s.chan m).inState st := by
        rw [this]; cases st <;> first | rfl | exact absurd rfl hst
      rw [e2]
    · exact this

/-- Handing the grant back is forgotten once the channel has taken its state. -/
theorem stateCore_handBack (m : MachineId) {st : ChanState} (hst : st ≠ .stopping) (s : State) :
    stateCore m st (handBack m s) = stateCore m st (dropRun m s) := by
  have e : ∀ c : Channel, c.released.inState st = c.inState st := fun c => by
    cases st <;> first | rfl | exact absurd rfl hst
  unfold stateCore handBack
  dsimp only
  rw [setChan_chan_same, e]
  cases m <;> rfl

theorem handBack_eq (m : MachineId) (s : State) : handBack m s =
    { s with mc := (handBack m s).mc, hsc := { s.hsc with grants := s.hsc.grants.erase m, queue := s.hsc.queue.erase m } } := by
  unfold handBack
  rw [dropRun_eq]
  cases m <;> rfl

theorem silent_engageBrake (hgo : Quiet go) {s : State} (h : NoHostEntries s) (m : MachineId) : Silent s (engageBrake go m s) := by
  cases m
  · exact silent_setItem hgo h (by decide) false
  · exact .refl s
  · exact .refl s

/-- The state in which the HSC has taken the grant of a leaving channel back, with all that follows there (R16, step 1). -/
def releasedAt (go : Go) (m : MachineId) (hand : Handing) (s : State) : State :=
  afterRelease go hand (engageBrake go m (handBack m s))

/-- What a leaving channel does once its grant is back: it takes its state, and at IDLE its station start is tried (R16, R17). -/
theorem leave_then (hgo : Quiet go) {s : State} (m : MachineId) (st : ChanState) (hand : Handing)
    (h : NoHostEntries (releasedAt go m hand s)) :
    ∃ p, Calm (stateCore m st (releasedAt go m hand s)) p ∧ (Cascades go → Cascade s p) ∧
      leave go m st hand s = if st = .idle then go (.tryStart m) p else p := by
  let c := s.chan m
  let p1 := changeFrom go c.state m st (releasedAt go m hand s)
  let p2 := match c.live with
    | some r => queueEvent (runEnded m r c.position) p1
    | none => p1
  let p3 := if c.state.isGranted then reconsiderLists go p2 else p2
  let p4 := if m = .w ∧ c.live.isSome then requestWrite go .records false p3 else p3
  have hb : NoHostEntries (stateCore m st (releasedAt go m hand s)) := h.of_settings (stateCore_settings _ _ _)
  have k1 : Calm (stateCore m st (releasedAt go m hand s)) p1 := calm_changeFrom hgo h c.state m st
  have k2 : Calm (stateCore m st (releasedAt go m hand s)) p2 := by
    show Calm _ (match c.live with | some r => queueEvent (runEnded m r c.position) p1 | none => p1)
    split
    · exact k1.trans (.onSeu _ _)
    · exact k1
  have k3 : Calm (stateCore m st (releasedAt go m hand s)) p3 := by
    show Calm _ (if _ then _ else _)
    split
    · exact k2.trans (calm_reconsiderLists hgo (k2.noHostEntries hb))
    · exact k2
  have k4 : Calm (stateCore m st (releasedAt go m hand s)) p4 := by
    show Calm _ (if _ then _ else _)
    split
    · exact k3.trans (calm_requestWrite hgo (k3.noHostEntries hb) _ _)
    · exact k3
  refine ⟨p4, k4, fun hcas => ?_, rfl⟩
  have c1 : Cascade s p1 :=
    cascade_changeFrom hcas _ m st (cascade_afterRelease hcas hand (cascade_engageBrake hcas m (cascade_handBack m (.refl s))))
  have c2 : Cascade s p2 := by
    show Cascade s (match c.live with | some r => queueEvent (runEnded m r c.position) p1 | none => p1)
    split
    · exact cascade_queueEvent _ c1
    · exact c1
  exact cascade_when (cascade_when c2 fun k => cascade_reconsiderLists hcas k) fun k => cascade_requestWrite hcas _ _ k

/-- What a leaving channel does once its grant is back: it takes its state, and nothing more where no start follows (R16, R17). -/
theorem calm_leave_of (hgo : Quiet go) {s : State} (m : MachineId) (st : ChanState) (hand : Handing)
    (h : NoHostEntries (releasedAt go m hand s))
    (hv : st = .idle → ∀ p, Calm (stateCore m st (releasedAt go m hand s)) p → go (.tryStart m) p = p) :
    Calm (stateCore m st (releasedAt go m hand s)) (leave go m st hand s) := by
  obtain ⟨p, k, -, e⟩ := leave_then hgo m st hand h
  rw [e]
  split
  · rename_i hst
    rw [hv hst p k]
    exact k
  · exact k

/-- What a leaving channel does once its grant is back, with no press VALID (R16, R17). -/
theorem calm_leave (hgo : Quiet go) {s : State} (m : MachineId) (st : ChanState) (hand : Handing)
    (h : NoHostEntries (releasedAt go m hand s)) (hv : st = .idle → (releasedAt go m hand s).anyValid m = false) :
    Calm (stateCore m st (releasedAt go m hand s)) (leave go m st hand s) :=
  calm_leave_of hgo m st hand h fun hst p hp => hgo.start _ _ (by
    rw [← hv hst]
    apply anyValid_siq
    rw [hp.siq, stateCore_eq])

/-- With nobody waiting, or the slot handed on later, the release itself is still but for the channel released (R50). -/
theorem still_releasedAt (hgo : Quiet go) {s : State} (h : NoHostEntries s) (m : MachineId) (hand : Handing)
    (ha : ∀ t : State, t.hsc.queue = s.hsc.queue.erase m → NoHostEntries t → Still t (afterRelease go hand t)) :
    Still (handBack m s) (releasedAt go m hand s) := by
  have h0 : NoHostEntries (handBack m s) := h.of_settings (by rw [handBack_eq])
  have k := silent_engageBrake hgo h0 m
  have q : (engageBrake go m (handBack m s)).hsc.queue = s.hsc.queue.erase m := by rw [k, handBack_eq]
  exact k.calm.still.trans (ha _ q (k.calm.noHostEntries h0))

/-- A channel that leaves its running state with nobody waiting and no press that starts it again: the run is completed and all else
is still (R17, R50). -/
theorem leave_still (hgo : Quiet go) {s : State} (h : NoHostEntries s) (m : MachineId) {st : ChanState} (hst : st ≠ .stopping)
    (hq : s.hsc.queue.erase m = []) (hv : st = .idle → s.anyValid m = false) :
    Still (stateCore m st (dropRun m s)) (leave go m st .now s) := by
  have k := still_releasedAt hgo h m .now fun t ht hn => still_afterRelease hgo hn (ht.trans hq) .now
  have h0 : NoHostEntries (handBack m s) := h.of_settings (by rw [handBack_eq])
  rw [← stateCore_handBack m hst]
  refine (still_stateCore k m hst).trans (calm_leave hgo m st .now (k.noHostEntries h0) fun e => ?_).still
  rw [anyValid_siq (s := s) (by rw [k.siq, handBack_eq])]
  exact hv e

/-- The pump, its attempt, its timers and the grants. -/
def samePump (h k : Hsc) : Prop :=
  k.grants = h.grants ∧ k.pump = h.pump ∧ k.attempt = h.attempt ∧ k.timer = h.timer ∧ k.pressLoss = h.pressLoss

theorem samePump_of {h k : Hsc} (e : k = h) : samePump h k := by subst e; exact ⟨rfl, rfl, rfl, rfl, rfl⟩

theorem samePump_recompute (hgo : Quiet go) {s : State} (h : NoHostEntries s) : samePump s.hsc (recompute go s).hsc := by
  rw [(calm_recompute hgo h).hsc, shareCore_eq]
  exact ⟨rfl, rfl, rfl, rfl, rfl⟩

theorem PumpReleased.same {n : Nat} {h k k' : Hsc} (r : PumpReleased n h k) (e : samePump k k') : PumpReleased n h k' := by
  obtain ⟨e1, e2, e3, e4, e5⟩ := e
  obtain ⟨a, b, c, d⟩ := r
  constructor <;> rw [e1, e2, e3, e4, e5] <;> assumption

/-- The pump after a release that nobody waited for (R45, R46). -/
theorem pumpReleased_pumpAfterRelease (hgo : Quiet go) {s : State} (h : NoHostEntries s) :
    PumpReleased s.settings.hsu.runOn s.hsc (pumpAfterRelease go s).hsc := by
  have set : ∀ p n t, (setPump go p n t s).hsc =
      { s.hsc with pump := p, attempt := n, timer := t, pressLoss := if p.confirmed then s.hsc.pressLoss else none } := fun p n t =>
    (calm_setPump hgo h p n t).hsc
  unfold pumpAfterRelease
  cases hg : s.hsc.grants with
  | cons x xs =>
    rw [if_neg (by simp)]
    have ne : s.hsc.grants ≠ [] := by rw [hg]; nofun
    exact ⟨fun k => absurd k ne, fun k => absurd k ne, fun k => absurd k ne, fun _ => ⟨rfl, rfl, rfl, rfl⟩⟩
  | nil =>
    rw [if_pos (by rfl)]
    cases hp : s.hsc.pump <;> dsimp only
    all_goals try split
    all_goals (try rw [set]); constructor <;> simp_all [PumpState.confirmed]

theorem pumpReleased_releasedAt (hgo : Quiet go) {s : State} (h : NoHostEntries s) (m : MachineId) (hq : s.hsc.queue.erase m = []) :
    PumpReleased s.settings.hsu.runOn s.hsc (releasedAt go m .now s).hsc := by
  have h0 : NoHostEntries (handBack m s) := h.of_settings (by rw [handBack_eq])
  have k := silent_engageBrake hgo h0 m
  have e : handOver go (engageBrake go m (handBack m s)) = engageBrake go m (handBack m s) := by
    have q : (engageBrake go m (handBack m s)).hsc.queue = [] := by rw [k, handBack_eq]; exact hq
    unfold handOver
    rw [q]
  have h1 : NoHostEntries (engageBrake go m (handBack m s)) := k.calm.noHostEntries h0
  have hh : (engageBrake go m (handBack m s)).hsc = { s.hsc with grants := s.hsc.grants.erase m, queue := s.hsc.queue.erase m } := by
    rw [k, handBack_eq]
  have hs : (engageBrake go m (handBack m s)).settings = s.settings := by rw [k, handBack_eq]
  have p := pumpReleased_pumpAfterRelease hgo h1
  have n := (still_pumpAfterRelease hgo h1).noHostEntries h1
  have c := calm_publishAll hgo n [Item.grantsFull, Item.waitingAny] (by unfold Plain; decide)
  have r := p.same (samePump_of c.hsc) |>.same (samePump_recompute hgo (c.noHostEntries n))
  rw [hs, hh] at r
  show PumpReleased _ _ (recompute go (publishAll go [Item.grantsFull, Item.waitingAny] (pumpAfterRelease go
    (handOver go (engageBrake go m (handBack m s)))))).hsc
  rw [e]
  exact ⟨r.abandoned, r.runsOn, r.stops, r.stays⟩

/-- The pump after a channel has left its running state with nobody waiting (R45, R46). -/
theorem pumpReleased_leave (hgo : Quiet go) {s : State} (h : NoHostEntries s) (m : MachineId) (st : ChanState)
    (hq : s.hsc.queue.erase m = []) (hv : st = .idle → s.anyValid m = false) :
    PumpReleased s.settings.hsu.runOn s.hsc (leave go m st .now s).hsc := by
  have k := still_releasedAt hgo h m .now fun t ht hn => still_afterRelease hgo hn (ht.trans hq) .now
  have h0 : NoHostEntries (handBack m s) := h.of_settings (by rw [handBack_eq])
  have c := calm_leave hgo m st .now (k.noHostEntries h0) fun e => by
    rw [anyValid_siq (s := s) (by rw [k.siq, handBack_eq])]
    exact hv e
  exact (pumpReleased_releasedAt hgo h m hq).same (samePump_of (by rw [c.hsc, stateCore_eq]))

theorem noteReason_eq (m : MachineId) (x : EndReason) (s : State) (r : RunRec) (hr : (s.chan m).live = some r) :
    noteReason m x s = setChan m { s.chan m with live := some { r with endReason := some (r.endReason.getD x) }, refresh := none } s := by
  unfold noteReason
  dsimp only
  rw [hr]

/-- What a ramped end reason does (R15). -/
theorem endRun_ramped (hgo : Quiet go) {s : State} (h : NoHostEntries s) (m : MachineId) (x : EndReason) (hv : x = .linkStop ∨ x = .conflict → s.anyValid m = false) :
    RampedEnd m x s (endRun go m x s) := by
  constructor
  · intro r hs hl hd
    unfold endRun
    rw [hs]
    dsimp only
    rw [if_neg hd, noteReason_eq _ _ _ _ hl]
    let c : Channel := { s.chan m with live := some { r with endReason := some (r.endReason.getD x) }, refresh := none }
    have h1 : NoHostEntries (setChan m c s) := h
    have k1 := (calm_enter hgo h1 m .stopping).still
    have hb : NoHostEntries (stateCore m .stopping (setChan m c s)) := h1.of_settings (stateCore_settings _ _ _)
    have k := k1.trans (still_recompute hgo (k1.noHostEntries hb))
    have hc : (stateCore m .stopping (setChan m c s)).chan m = c.inState .stopping := by
      rw [stateCore_chan, if_pos rfl, setChan_chan_same]
    refine ⟨?_, ?_, ?_, ?_, ?_⟩
    · rw [k.chan, hc]; rfl
    · rw [k.chan, hc]; rfl
    · rw [k.chan, hc]; rfl
    · rw [k.chan, hc]; rfl
    · rw [k.grants, stateCore_eq]; rfl
  · intro r hs hl hx hq
    have hv' : s.anyValid m = false := by
      rcases hx with k | k | k
      · exact hv (.inl k)
      · exact hv (.inr k)
      · exact k
    have e : endRun go m x s = leave go m .idle .now (noteReason m x s) := by
      unfold endRun
      rcases hs with k | k | k <;> rw [k]
    rw [e, noteReason_eq _ _ _ _ hl]
    let c : Channel := { s.chan m with live := some { r with endReason := some (r.endReason.getD x) }, refresh := none }
    have h1 : NoHostEntries (setChan m c s) := h
    have k := leave_still hgo h1 m (st := .idle) (by decide) hq (fun _ => hv')
    have hc : (stateCore m .idle (dropRun m (setChan m c s))).chan m = ({ c with live := none, last := some { r with endReason := some (r.endReason.getD x), endPos := some (s.chan m).position }, refresh := none } : Channel).inState .idle := by
      rw [stateCore_chan, if_pos rfl, dropRun_chan m _ { r with endReason := some (r.endReason.getD x) } (by rw [setChan_chan_same]), setChan_chan_same]
    refine ⟨?_, ?_, ?_, ?_, ?_, ?_, pumpReleased_leave hgo h1 m .idle hq (fun _ => hv')⟩
    · rw [k.chan, hc]; rfl
    · rw [k.chan, hc]; rfl
    · rw [k.chan, hc]; rfl
    · rw [k.chan, hc]; rfl
    · rw [k.grants, stateCore_eq, dropRun_eq]; rfl
    · rw [k.queue, stateCore_eq, dropRun_eq]; exact hq
  · intro hs
    unfold endRun
    rcases hs with k | k <;> rw [k] <;> exact ⟨k, rfl⟩

theorem inhibitCore_input (m : MachineId) (s : State) (i : HoldInput) :
    (inhibitCore m s).input i = if i.machine = m then (s.input i).inhibited s.settings.stations.releaseTime else s.input i := by
  unfold inhibitCore
  dsimp only
  rw [setInput_input, setInput_input, setInput_input]
  obtain ⟨k, d⟩ := i
  by_cases hk : k = m
  · subst hk
    cases d <;> simp
  · simp [hk, Ne.symm hk]

/-- The inhibit order, in an undisturbed part (R95). -/
theorem calm_inhibit (hgo : Quiet go) {s : State} (h : Undisturbed s) (m : MachineId) : Calm (inhibitCore m s) (inhibit go m s) := by
  have h1 : NoHostEntries (inhibitCore m s) := h.1
  have k1 : Calm (inhibitCore m s) (publishAll go (inputItems ⟨m, .outward⟩ ++ inputItems ⟨m, .inward⟩) (inhibitCore m s)) :=
    calm_publishAll hgo h1 _ (by cases m <;> (unfold Plain; decide))
  have : inhibit go m s = publishAll go (inputItems ⟨m, .outward⟩ ++ inputItems ⟨m, .inward⟩) (inhibitCore m s) := by
    rw [inhibit_eq]
    refine hgo.letGo _ _ fun c hc ha hcl => ?_
    · have e1 := k1.cause c
      have e2 : (publishAll go (inputItems ⟨m, .outward⟩ ++ inputItems ⟨m, .inward⟩) (inhibitCore m s)).causeSetting c = s.causeSetting c := by
        unfold State.causeSetting; rw [k1.settings]; rfl
      rw [e2] at hcl
      rw [e1] at ha ⊢
      exact h.2 c hc ha hcl
  rw [this]; exact k1

theorem cascade_stopMachine (hc : Cascades go) (m : MachineId) {a s : State} (h : Cascade a s) : Cascade a (stopMachine go s m) := by
  unfold stopMachine
  exact cascade_endRun hc _ _ (cascade_inhibit hc _ h)

theorem inhibited_notValid (x : HoldRec) (r : Nat) : (x.inhibited r).state ≠ .valid := by
  obtain ⟨st, a, b, t⟩ := x
  cases st <;> nofun

/-- What ending the run of `m` leaves with nobody waiting: the settings, inputs and causes, and every other channel but for its flow
share. -/
structure Aside (m : MachineId) (s t : State) : Prop where
  settings : t.settings = s.settings
  siq : t.siq = s.siq
  fis : t.fis = s.fis
  queue : t.hsc.queue = []
  chan : ∀ k, k ≠ m → t.chan k = { s.chan k with share := (t.chan k).share, applied := (t.chan k).applied }

theorem Aside.refl {m : MachineId} {s : State} (h : s.hsc.queue = []) : Aside m s s := ⟨rfl, rfl, rfl, h, fun _ _ => rfl⟩

theorem Aside.still {m : MachineId} {s t u : State} (h : Aside m s t) (k : Still t u) : Aside m s u :=
  ⟨k.settings.trans h.settings, k.siq.trans h.siq, k.fis.trans h.fis, k.queue.trans h.queue, fun j hj => by
    have := k.chan j
    rw [h.chan j hj] at this
    exact this⟩

theorem Aside.trans {m : MachineId} {s t u : State} (h : Aside m s t) (k : Aside m t u) : Aside m s u :=
  ⟨k.settings.trans h.settings, k.siq.trans h.siq, k.fis.trans h.fis, k.queue, fun j hj => by
    have := k.chan j hj
    rw [h.chan j hj] at this
    exact this⟩

theorem aside_stateCore (m : MachineId) (st : ChanState) {s : State} (h : s.hsc.queue = []) : Aside m s (stateCore m st s) :=
  ⟨stateCore_settings m st s, by rw [stateCore_eq], by rw [stateCore_eq], by rw [stateCore_eq]; exact h,
    fun k hk => by rw [stateCore_chan, if_neg (Ne.symm hk)]⟩

theorem aside_dropRun (m : MachineId) {s : State} (h : s.hsc.queue = []) : Aside m s (dropRun m s) :=
  ⟨by rw [dropRun_eq], by rw [dropRun_eq], by rw [dropRun_eq], by rw [dropRun_eq]; show s.hsc.queue.erase m = []; rw [h]; rfl,
    fun k hk => by
      unfold dropRun
      dsimp only
      split <;> (rw [setChan_chan, if_neg (Ne.symm hk)]; rfl)⟩

theorem aside_noteReason (m : MachineId) (x : EndReason) {s : State} (h : s.hsc.queue = []) : Aside m s (noteReason m x s) := by
  unfold noteReason
  dsimp only
  split
  · exact ⟨rfl, rfl, rfl, h, fun k hk => by rw [setChan_chan, if_neg (Ne.symm hk)]⟩
  · exact .refl h

/-- A channel that leaves its running state moves no other (R17). -/
theorem aside_leave (hgo : Quiet go) {s : State} (h : NoHostEntries s) (m : MachineId) {st : ChanState} (hst : st ≠ .stopping)
    (hq : s.hsc.queue = []) (hv : st = .idle → s.anyValid m = false) : Aside m s (leave go m st .now s) :=
  (aside_dropRun m hq).trans (aside_stateCore m st (aside_dropRun m hq).queue) |>.still
    (leave_still hgo h m hst (by rw [hq]; rfl) hv)

theorem noteReason_hsc (m : MachineId) (x : EndReason) (s : State) : (noteReason m x s).hsc = s.hsc := by
  unfold noteReason; dsimp only; split <;> rfl

/-- A ramped end reason moves no other machine's channel while nobody waits, and the grant goes with the run unless the channel has
to stop first (R15, R16). -/
theorem endRun_aside (hgo : Quiet go) {s : State} (h : NoHostEntries s) (m : MachineId) (x : EndReason) (hq : s.hsc.queue = [])
    (hv : s.anyValid m = false) :
    Aside m s (endRun go m x s) ∧
    ((s.chan m).state = .moving → (s.chan m).demand ≠ 0 → (endRun go m x s).hsc.grants = s.hsc.grants) ∧
    ((s.chan m).state ≠ .moving → (endRun go m x s).hsc.grants =
      if (s.chan m).state = .waiting ∨ (s.chan m).state = .priming ∨ (s.chan m).state = .unlocking then s.hsc.grants.erase m
      else s.hsc.grants) := by
  have n := aside_noteReason m x hq
  have hn : NoHostEntries (noteReason m x s) := h.of_settings n.settings
  have hvn : (noteReason m x s).anyValid m = false := by rw [anyValid_siq n.siq]; exact hv
  have gone : Aside m s (leave go m .idle .now (noteReason m x s)) ∧
      (leave go m .idle .now (noteReason m x s)).hsc.grants = s.hsc.grants.erase m := by
    refine ⟨n.trans (aside_leave hgo hn m (by decide) n.queue fun _ => hvn), ?_⟩
    rw [(leave_still hgo hn m (st := .idle) (by decide) (by rw [n.queue]; rfl) fun _ => hvn).grants, stateCore_eq, dropRun_eq]
    show (noteReason m x s).hsc.grants.erase m = _
    rw [noteReason_hsc]
  cases hs : (s.chan m).state
  case moving =>
    have a := aside_stateCore m .stopping n.queue
    have k := calm_enter hgo hn m .stopping
    have hb : NoHostEntries (enter go m .stopping (noteReason m x s)) := hn.of_settings (by rw [k.settings]; exact a.settings)
    have q := (n.trans a).still k.still
    refine ⟨?_, fun _ hd => ?_, fun k => absurd rfl k⟩
    · unfold endRun
      rw [hs]
      dsimp only
      split
      · unfold stopComplete
        split
        · have k2 := calm_enter hgo hb m .locking
          have a2 := aside_stateCore m .locking q.queue
          have e : ∀ h : m = .h, enter go m .locking = enter go .h .locking := fun h => by rw [h]
          exact ((q.trans a2).still k2.still).still (still_recompute hgo (hb.of_settings (by rw [k2.settings]; exact a2.settings)))
        · exact q.trans (aside_leave hgo hb m (by decide) q.queue fun _ => by rw [anyValid_siq q.siq]; exact hv)
      · exact q.still (still_recompute hgo hb)
    · unfold endRun
      rw [hs]
      dsimp only
      rw [if_neg hd, (still_recompute hgo hb).grants, k.still.grants, stateCore_eq]
      show (noteReason m x s).hsc.grants = _
      rw [noteReason_hsc]
  all_goals
    unfold endRun
    rw [hs]
    dsimp only
    first
      | exact ⟨.refl hq, nofun, fun _ => (if_neg (by decide)).symm⟩
      | exact ⟨gone.1, nofun, fun _ => gone.2.trans (if_pos (by decide)).symm⟩

/-- STOP of one machine (R14, R15, R95): its run takes LINK_STOP as a ramped reason, and the other channels stand. -/
theorem stopMachine_spec (hgo : Quiet go) {s : State} (h : Undisturbed s) (m : MachineId) :
    RampedEnd m .linkStop s (stopMachine go s m) ∧
    (s.hsc.queue = [] →
      (stopMachine go s m).settings = s.settings ∧ (stopMachine go s m).fis = s.fis ∧ (stopMachine go s m).hsc.queue = [] ∧
      (∀ k, k ≠ m → (stopMachine go s m).chan k =
        { s.chan k with share := ((stopMachine go s m).chan k).share, applied := ((stopMachine go s m).chan k).applied }) ∧
      ((s.chan m).state = .moving → (s.chan m).demand ≠ 0 → (stopMachine go s m).hsc.grants = s.hsc.grants) ∧
      ((s.chan m).state ≠ .moving → (stopMachine go s m).hsc.grants =
        if (s.chan m).state = .waiting ∨ (s.chan m).state = .priming ∨ (s.chan m).state = .unlocking then s.hsc.grants.erase m
        else s.hsc.grants)) := by
  unfold stopMachine
  have k := calm_inhibit hgo h m
  have hch : ∀ j, (inhibit go m s).chan j = s.chan j := fun j => by rw [k.chan]; rfl
  have hno : NoHostEntries (inhibit go m s) := k.noHostEntries (show NoHostEntries (inhibitCore m s) from h.1)
  have hnv : (inhibit go m s).anyValid m = false := by
    rw [anyValid_siq k.siq]
    unfold State.anyValid State.inputState
    rw [inhibitCore_input, inhibitCore_input, if_pos rfl, if_pos rfl]
    simp [inhibited_notValid]
  have hg : (inhibit go m s).hsc = s.hsc := by rw [k.hsc]; rfl
  have hs : (inhibit go m s).settings = s.settings := by rw [k.settings]; rfl
  have r := endRun_ramped hgo hno m .linkStop (fun _ => hnv)
  refine ⟨⟨fun r' => ?_, fun r' => ?_, ?_⟩, fun hq => ?_⟩
  · have := r.moving r'; rw [hch, hg] at this; exact this
  · have := r.notMoving r'; rw [hch, hg, hs] at this
    intro h1 h2 _ h4; exact this h1 h2 (.inl rfl) h4
  · have := r.stopping; rw [hch] at this; exact this
  · obtain ⟨a, b, c⟩ := endRun_aside hgo hno m .linkStop (by rw [hg]; exact hq) hnv
    rw [hch, hg] at b c
    refine ⟨a.settings.trans hs, a.fis.trans (by rw [k.fis]; rfl), a.queue, fun j hj => ?_, b, c⟩
    have := a.chan j hj
    rw [hch] at this
    exact this

/-- STOP inhibits the inputs of its machine, whatever follows (R14, R95). -/
theorem stop_inputs (hc : Cascades go) (m : MachineId) (s : State) (i : HoldInput) (hi : i.machine = m) :
    (stopMachine go s m).input i = (s.input i).inhibited s.settings.stations.releaseTime := by
  have k : Cascade (inhibitCore m s) (stopMachine go s m) := by
    unfold stopMachine
    refine cascade_endRun hc _ _ ?_
    rw [inhibit_eq]
    exact hc.step (cascade_publishAll hc _ (.refl _)) _
  have e := inhibitCore_input m s i
  rw [if_pos hi] at e
  rcases k.input i with k1 | k1
  · rw [k1, e]
  · rw [k1, e]
    have : (inhibitCore m s).settings = s.settings := rfl
    rw [this, inhibited_idem]

end Sys2Proof.Machine
end

