-- ==== Sys2Proof/Laws/Clears.lean ====
section
/-! SUPPORT. Clearing causes with no input VALID and no host interlock entry: the causes go, the channels that nothing holds any
longer are IDLE, and the supply, the inputs and the trip record stay (R20, R110). -/

namespace Sys2Proof.Machine

variable {go : Go} {s t u : State}

/-- Without a VALID input no station start is made (R7). -/
theorem tryStart_quiet {m : MachineId} (go : Go) (h : s.anyValid m = false) : tryStart go m s = s := by
  unfold State.anyValid at h
  rw [Bool.or_eq_false_iff] at h
  unfold tryStart
  simp only [h.1, h.2, ite_self]

/-- A cascade makes no input VALID. -/
theorem Cascade.anyValid (h : Cascade s t) (m : MachineId) (k : s.anyValid m = false) : t.anyValid m = false := by
  have : ∀ d, s.inputState m d ≠ .valid → t.inputState m d ≠ .valid := fun d hd => by
    unfold State.inputState at *
    rcases h.input ⟨m, d⟩ with e | e <;> rw [e]
    · exact hd
    · exact inhibited_notValid _ _
  unfold State.anyValid at *
  rw [Bool.or_eq_false_iff] at *
  simp only [beq_eq_false_iff_ne] at *
  exact ⟨this _ k.1, this _ k.2⟩

/-- The two states have the same supply, inputs, causes, pins, settings and link. -/
structure Apart (s t : State) : Prop where
  phase : t.phase = s.phase
  pins : t.pins = s.pins
  settings : t.settings = s.settings
  slp : t.slp = s.slp
  siq : t.siq = s.siq
  hsc : t.hsc = s.hsc
  trip : t.fis.trip = s.fis.trip
  faulted : t.fis.faulted = s.fis.faulted

theorem Apart.refl (s : State) : Apart s s := ⟨rfl, rfl, rfl, rfl, rfl, rfl, rfl, rfl⟩

theorem Apart.trans (h : Apart s t) (k : Apart t u) : Apart s u :=
  ⟨k.phase.trans h.phase, k.pins.trans h.pins, k.settings.trans h.settings, k.slp.trans h.slp, k.siq.trans h.siq,
    k.hsc.trans h.hsc, k.trip.trans h.trip, k.faulted.trans h.faulted⟩

theorem Calm.apart (h : Calm s t) : Apart s t := by
  rw [h]
  exact ⟨rfl, rfl, rfl, rfl, rfl, rfl, rfl, rfl⟩

theorem apart_stateCore (m : MachineId) (st : ChanState) (s : State) : Apart s (stateCore m st s) := by
  rw [stateCore_eq]
  exact ⟨rfl, rfl, rfl, rfl, rfl, rfl, rfl, rfl⟩

theorem Apart.anyValid (h : Apart s t) (m : MachineId) : t.anyValid m = s.anyValid m := anyValid_siq h.siq m

theorem affected_fis (h1 : t.fis.causes = s.fis.causes) (h2 : t.fis.faulted = s.fis.faulted) (m : MachineId) :
    t.affected m = s.affected m := by
  unfold State.affected State.cause State.affects State.stationFaulted
  rw [h1, h2]

/-- One channel released from HELD if nothing affects it. -/
theorem releaseOne (hgo : Quiet go) (hn : NoHostEntries s) (hv : ∀ m, s.anyValid m = false) (m : MachineId) :
    let v := if (s.chan m).state = .held ∧ s.affected m = false then go (.tryStart m) (enter go m .idle s) else s
    Apart s v ∧ v.fis.causes = s.fis.causes ∧
      ∀ k, (v.chan k).state = if k = m ∧ (s.chan k).state = .held ∧ s.affected k = false then .idle else (s.chan k).state := by
  dsimp only
  split
  · rename_i h
    have k := calm_enter hgo hn m .idle
    have ka := (apart_stateCore m .idle s).trans k.apart
    rw [hgo.start _ m (by rw [ka.anyValid]; exact hv m)]
    refine ⟨ka, ?_, fun j => ?_⟩
    · rw [k.fis, stateCore_eq]
    · rw [k.chan, stateCore_chan]
      by_cases hj : m = j
      · subst hj
        rw [if_pos rfl, if_pos ⟨rfl, h⟩]
        exact inState_eq _ _
      · rw [if_neg hj, if_neg]
        exact fun e => hj e.1.symm
  · rename_i h
    refine ⟨.refl s, rfl, fun j => ?_⟩
    rw [if_neg]
    rintro ⟨rfl, e⟩
    exact h e

theorem releaseHeld_calm (hgo : Quiet go) (hn : NoHostEntries s) (hv : ∀ m, s.anyValid m = false) :
    Apart s (releaseHeld go s) ∧ (releaseHeld go s).fis.causes = s.fis.causes ∧
      ∀ k, ((releaseHeld go s).chan k).state =
        if (s.chan k).state = .held ∧ s.affected k = false then .idle else (s.chan k).state := by
  obtain ⟨a1, c1, h1⟩ := releaseOne hgo hn hv .w
  obtain ⟨a2, c2, h2⟩ := releaseOne hgo (hn.of_settings a1.settings) (fun m => (a1.anyValid m).trans (hv m)) .p
  obtain ⟨a3, c3, h3⟩ := releaseOne hgo ((hn.of_settings a1.settings).of_settings a2.settings)
    (fun m => (a2.anyValid m).trans ((a1.anyValid m).trans (hv m))) .h
  refine ⟨(a1.trans a2).trans a3, c3.trans (c2.trans c1), fun k => (h3 k).trans ?_⟩
  rw [h2, h1, affected_fis c2 a2.faulted, affected_fis c1 a1.faulted]
  cases k <;> simp

/-- The state with the causes of the list cleared. -/
structure Cleared (cs : List Nat) (s t : State) : Prop where
  apart : Apart s t
  causes : ∀ d, t.cause d = if d ∈ cs ∧ d < 16 then { s.cause d with active := false, raisedAt := none } else s.cause d
  released : ∀ m, cs ≠ [] → (s.chan m).state = .held → t.affected m = false → (t.chan m).state = .idle
  others : ∀ m, (s.chan m).state ≠ .held ∨ t.affected m = true → (t.chan m).state = (s.chan m).state

theorem clearCause_calm (hgo : Quiet go) (hn : NoHostEntries s) (hv : ∀ m, s.anyValid m = false) (c : Nat) (means : ClearMeans) :
    Cleared [c] s (clearCause go c means s) := by
  let s1 := setCause c { s.cause c with active := false, raisedAt := none } s
  have a1 : Apart s s1 := ⟨rfl, rfl, rfl, rfl, rfl, rfl, rfl, rfl⟩
  have k1 : Calm s1 (publish go s1 (Item.cause c)) := calm_publish hgo (s := s1) hn (by
    unfold Plain builtInItems
    simp [Item.cause, Item.ladderDown, Item.cradleHome, Item.matOccupied])
  have k2 : Calm s1 (queueEvent (.faultCleared c means) (publish go s1 (Item.cause c))) := k1.trans (silent_queueEvent _ _).calm
  have k3 : Calm s1 (if (s.causeSetting c).cls = .latched then
      requestWrite go .records false (queueEvent (.faultCleared c means) (publish go s1 (Item.cause c)))
      else queueEvent (.faultCleared c means) (publish go s1 (Item.cause c))) := by
    split
    · exact k2.trans (calm_requestWrite hgo (k2.noHostEntries hn) _ _)
    · exact k2
  have e : clearCause go c means s = releaseHeld go (if (s.causeSetting c).cls = .latched then
      requestWrite go .records false (queueEvent (.faultCleared c means) (publish go s1 (Item.cause c)))
      else queueEvent (.faultCleared c means) (publish go s1 (Item.cause c))) := rfl
  rw [e]
  revert k3
  generalize (if (s.causeSetting c).cls = .latched then
      requestWrite go .records false (queueEvent (.faultCleared c means) (publish go s1 (Item.cause c)))
      else queueEvent (.faultCleared c means) (publish go s1 (Item.cause c))) = v
  intro k3
  have av := a1.trans k3.apart
  obtain ⟨b1, b2, b3⟩ := releaseHeld_calm hgo (k3.noHostEntries hn) fun m => (av.anyValid m).trans (hv m)
  have hc : ∀ d, (releaseHeld go v).cause d = s1.cause d := fun d => by
    unfold State.cause
    rw [b2, k3.fis]
  have hs : ∀ m, v.chan m = s.chan m := fun m => k3.chan m
  have ha : ∀ m, (releaseHeld go v).affected m = v.affected m := fun m => affected_fis b2 b1.faulted m
  refine ⟨av.trans b1, fun d => ?_, fun m _ h1 h2 => ?_, fun m h => ?_⟩
  · rw [hc, setCause_cause]
    by_cases hd : c = d
    · subst hd
      simp
    · rw [if_neg (fun e => hd e.1), if_neg]
      intro e
      exact hd (List.mem_singleton.mp e.1).symm
  · rw [b3, hs, if_pos ⟨h1, by rw [← ha]; exact h2⟩]
  · rw [b3, hs, if_neg]
    rintro ⟨e1, e2⟩
    rcases h with h | h
    · exact h e1
    · rw [ha, e2] at h
      cases h

theorem affected_mono (hc : ∀ d, (t.cause d).active = true → (s.cause d).active = true) (hf : t.fis.faulted = s.fis.faulted)
    (m : MachineId) (h : t.affected m = true) : s.affected m = true := by
  unfold State.affected at *
  rw [List.any_eq_true] at *
  obtain ⟨c, hm, hx⟩ := h
  rw [Bool.and_eq_true] at hx
  refine ⟨c, hm, ?_⟩
  rw [Bool.and_eq_true]
  refine ⟨hc c hx.1, ?_⟩
  have : t.affects c m = s.affects c m := by
    unfold State.affects State.stationFaulted
    rw [hf]
  rw [← this]
  exact hx.2

theorem Cleared.cons {c : Nat} {cs : List Nat} (h : Cleared [c] s t) (k : Cleared cs t u) : Cleared (c :: cs) s u := by
  have mono : ∀ d, (u.cause d).active = true → (t.cause d).active = true := fun d => by
    rw [k.causes]
    split
    · exact nofun
    · exact fun e => e
  have am := affected_mono mono k.apart.faulted
  refine ⟨h.apart.trans k.apart, fun d => ?_, fun m _ h1 h2 => ?_, fun m h1 => ?_⟩
  · rw [k.causes, h.causes]
    by_cases h1 : d = c <;> by_cases h2 : d ∈ cs <;> by_cases h3 : d < 16 <;> simp [h1, h2, h3] <;> simp_all
  · by_cases ht : t.affected m = true
    · have e := h.others m (.inr ht)
      by_cases hcs : cs = []
      · subst hcs
        have : u.affected m = t.affected m := by
          unfold State.affected State.affects State.stationFaulted
          rw [k.apart.faulted]
          congr 1
          funext d
          rw [k.causes]
          simp
        rw [this, ht] at h2
        cases h2
      · exact k.released m hcs (e.trans h1) h2
    · have e := h.released m nofun h1 (Bool.eq_false_iff.mpr ht)
      exact (k.others m (.inl (by rw [e]; nofun))).trans e
  · rcases h1 with h1 | h1
    · have e := h.others m (.inl h1)
      exact (k.others m (.inl (by rw [e]; exact h1))).trans e
    · exact (k.others m (.inr h1)).trans (h.others m (.inr (am m h1)))

theorem clearCauses_calm (hgo : Quiet go) (means : ClearMeans) (cs : List Nat) (hn : NoHostEntries s)
    (hv : ∀ m, s.anyValid m = false) : Cleared cs s (clearCauses go means cs s) := by
  induction cs generalizing s with
  | nil => exact ⟨.refl s, fun d => by simp; rfl, fun _ h => absurd rfl h, fun _ _ => rfl⟩
  | cons c cs ih =>
    have k := clearCause_calm hgo hn hv c means
    exact k.cons (ih (hn.of_settings k.apart.settings) fun m => (k.apart.anyValid m).trans (hv m))

/-! ## Clearing in general -/

/-- What clearing the causes of the list does whatever follows: they are at rest, H_PINS apart, every other CREW or LATCHED cause
stays, and RECORDS is pending when a LATCHED one was among them (R110). -/
structure Clearing (cs : List Nat) (s t : State) : Prop where
  phase : t.phase = s.phase
  pins : t.pins = s.pins
  settings : t.settings = s.settings
  slp : t.slp = s.slp
  rode : t.sfe.rode = s.sfe.rode
  position : ∀ m, (t.chan m).position = (s.chan m).position
  gone : ∀ c, c ∈ cs → c < 16 → c ≠ causePins → (t.cause c).active = false ∧ (t.cause c).raisedAt = none
  stay : ∀ c, c ∉ cs → (s.cause c).active = true → (s.causeSetting c).cls ≠ .self →
    (t.cause c).active = true ∧ (t.cause c).raisedAt = (s.cause c).raisedAt
  rest : ∀ c, c ≠ causePins → (s.cause c).active = false →
    (t.cause c).active = false ∧ ((s.cause c).raisedAt = none → (t.cause c).raisedAt = none)
  pending : ∀ x, isPending x s.sto.queue = true → isPending x t.sto.queue = true
  records : (∃ c ∈ cs, (s.causeSetting c).cls = .latched) → isPending .records t.sto.queue = true

/-- A clear is told, unless the queue is full (R110). -/
theorem cleared_event (hc : Cascades go) (c : Nat) (means : ClearMeans) (s : State)
    (hl : (clearCause go c means s).seu.events.length < 32) :
    .faultCleared c means ∈ (clearCause go c means s).seu.events.map Event.kind := by
  let s1 := publish go (setCause c { s.cause c with active := false, raisedAt := none } s) (Item.cause c)
  have k : Cascade (queueEvent (.faultCleared c means) s1) (clearCause go c means s) :=
    cascade_releaseHeld hc (cascade_when (p := (s.causeSetting c).cls = .latched) (.refl _) fun h => cascade_requestWrite hc _ _ h)
  exact kind_queued _ s1 _ k.events hl

theorem clearing_clearCause (hc : Cascades go) (c : Nat) (means : ClearMeans) (s : State) :
    Clearing [c] s (clearCause go c means s) := by
  have k := cascade_clearCause hc c means (a := setCause c { s.cause c with active := false, raisedAt := none } s) (.refl _)
  have e : ∀ d, c ≠ d → (setCause c { s.cause c with active := false, raisedAt := none } s).cause d = s.cause d := fun d hd => by
    rw [setCause_cause, if_neg fun e => hd e.1]
  refine ⟨k.phase, k.pins, k.settings, k.slp, k.rode, k.position, fun d hd hl hp => ?_, fun d hd ha hs => ?_, fun d hp ha => ?_,
    fun x hx => k.stillPending hx, fun ⟨d, hd, hl⟩ => ?_⟩
  · rw [List.mem_singleton.mp hd] at hl hp ⊢
    have e0 : (setCause c { s.cause c with active := false, raisedAt := none } s).cause c =
        { s.cause c with active := false, raisedAt := none } := by
      rw [setCause_cause, if_pos ⟨rfl, hl⟩]
    have := k.causeResting hp (by rw [e0])
    rw [e0] at this
    exact this
  · have hd : c ≠ d := fun e => hd (List.mem_singleton.mpr e.symm)
    have := k.causeActive (c := d) (by rw [e d hd]; exact ha) hs
    rw [e d hd] at this
    exact this
  · by_cases hd : c = d
    · subst hd
      have := k.causeResting (c := c) hp (by rw [setCause_cause]; split; rfl; exact ha)
      refine ⟨this.1, fun h => this.2.trans ?_⟩
      rw [setCause_cause]
      split
      · rfl
      · exact h
    · have := k.causeResting (c := d) hp (by rw [e d hd]; exact ha)
      rw [e d hd] at this
      exact ⟨this.1, fun h => this.2.trans h⟩
  · rw [List.mem_singleton.mp hd] at hl
    unfold clearCause
    dsimp only
    rw [if_pos hl]
    exact (cascade_releaseHeld hc (.refl _)).stillPending (requestWrite_pending hc _ _ _)

theorem clearing_clearCauses (hc : Cascades go) (means : ClearMeans) (cs : List Nat) (s : State) :
    Clearing cs s (clearCauses go means cs s) := by
  induction cs generalizing s with
  | nil =>
    exact ⟨rfl, rfl, rfl, rfl, rfl, fun _ => rfl, nofun, fun c _ h _ => ⟨h, rfl⟩, fun c _ h => ⟨h, fun k => k⟩, fun _ h => h, nofun⟩
  | cons c cs ih =>
    have k1 := clearing_clearCause hc c means s
    have k2 : Clearing cs (clearCause go c means s) (clearCauses go means (c :: cs) s) := ih _
    have hcls : ∀ d, (clearCause go c means s).causeSetting d = s.causeSetting d := fun d => by
      unfold State.causeSetting
      rw [k1.settings]
    refine ⟨k2.phase.trans k1.phase, k2.pins.trans k1.pins, k2.settings.trans k1.settings, k2.slp.trans k1.slp,
      k2.rode.trans k1.rode, fun m => (k2.position m).trans (k1.position m), fun d hd hl hp => ?_, fun d hd ha hs => ?_,
      fun d hp ha => ?_, fun x hx => k2.pending x (k1.pending x hx), fun ⟨d, hd, hl⟩ => ?_⟩
    · by_cases h : d ∈ cs
      · exact k2.gone d h hl hp
      · rcases List.mem_cons.mp hd with h1 | h1
        · have g := k1.gone d (List.mem_singleton.mpr h1) hl hp
          have r := k2.rest d hp g.1
          exact ⟨r.1, r.2 g.2⟩
        · exact absurd h1 h
    · have h1 : d ∉ [c] := fun e => hd (List.mem_cons.mpr (.inl (List.mem_singleton.mp e)))
      have g := k1.stay d h1 ha hs
      have r := k2.stay d (fun e => hd (List.mem_cons_of_mem _ e)) g.1 (by rw [hcls]; exact hs)
      exact ⟨r.1, r.2.trans g.2⟩
    · have g := k1.rest d hp ha
      have r := k2.rest d hp g.1
      exact ⟨r.1, fun h => r.2 (g.2 h)⟩
    · rcases List.mem_cons.mp hd with h1 | h1
      · exact k2.pending _ (k1.records ⟨d, List.mem_singleton.mpr h1, hl⟩)
      · exact k2.records ⟨d, h1, by rw [hcls]; exact hl⟩

end Sys2Proof.Machine
end

