-- ==== Sys2Proof/Laws/Items.lean ====
section
/-! SUPPORT. The value of an item after another has been published: only the one published changes. -/

namespace Sys2Proof.Machine

/-- The watches change no item. -/
theorem item_evalWatches (g : Group) (s : State) (q : ItemRef) : (evalWatches g s).item q = s.item q := by
  have : ∀ (xs : List Nat) (s : State), (xs.foldl (evalWatch g) s).seu.items = s.seu.items := by
    intro xs
    induction xs with
    | nil => exact fun _ => rfl
    | cons i xs ih =>
      intro s
      rw [List.foldl_cons, ih]
      unfold evalWatch
      dsimp only
      repeat' split
      all_goals rfl
  unfold State.item; unfold evalWatches; rw [this]

/-- A published item takes its owner's value, and no other item changes. -/
theorem item_set (r q : ItemRef) (v : Bool) (s : State) (hr : r.exists = true) :
    (s.onSeu fun u => { u with items := poke u.items r.index v }).item q = if q = r then v else s.item q := by
  unfold State.item
  show (q.exists && peek (poke s.seu.items r.index v) q.index) = _
  cases hq : q.exists
  · rw [if_neg]; rfl
    intro e; rw [e, hr] at hq; cases hq
  · rw [peek_poke]
    by_cases e : q = r
    · subst e; rw [if_pos ⟨rfl, index_lt hr⟩, if_pos rfl]; rfl
    · rw [if_neg e, if_neg]; rintro ⟨k, -⟩; exact e (index_inj hr hq k).symm

/-- An item published without consequences takes its owner's value, and no other item changes (R164). -/
theorem item_publish {go : Go} (hgo : Quiet go) {s : State} (h : NoHostEntries s) {r : ItemRef} (hr : Plain r)
    (he : r.exists = true) (q : ItemRef) :
    (publish go s r).item q = if q = r then s.itemNow r else s.item q := by
  unfold publish setItem
  split
  · rename_i k
    split
    · rename_i e; rw [e]; exact k.resolve_right (by simp [he])
    · rfl
  · have k : Silent s (evalWatches r.group (s.onSeu fun u => { u with items := poke u.items r.index (s.itemNow r) })) :=
      Silent.trans (t := s.onSeu fun u => { u with items := poke u.items r.index (s.itemNow r) }) rfl (silent_evalWatches _ _)
    rw [hgo.item _ _ (h.of_settings (by rw [k])) hr, item_evalWatches, item_set _ _ _ _ he]

theorem item_publishAll_other {go : Go} (hgo : Quiet go) {s : State} (h : NoHostEntries s) (rs : List ItemRef)
    (hr : ∀ r ∈ rs, r ∉ builtInItems ∧ r.exists = true) (q : ItemRef) (hq : q ∉ rs) : (publishAll go rs s).item q = s.item q := by
  induction rs generalizing s with
  | nil => rfl
  | cons r rs ih =>
    have k := silent_publish hgo h (hr r List.mem_cons_self).1
    show (publishAll go rs (publish go s r)).item q = _
    rw [ih (h.of_settings (by rw [k])) (fun x hx => hr x (List.mem_cons_of_mem _ hx)) (fun hx => hq (List.mem_cons_of_mem _ hx)),
      item_publish hgo h (hr r List.mem_cons_self).1 (hr r List.mem_cons_self).2, if_neg]
    exact fun e => hq (e ▸ List.mem_cons_self)

/-- An item that is published takes the value of its owner's rule, when that rule reads no published item but those of the plain
inputs. -/
theorem item_publishAll_reads {go : Go} (hgo : Quiet go) (q : ItemRef) (rs : List ItemRef)
    (hr : ∀ r ∈ rs, r ∉ builtInItems ∧ r.exists = true) (hq : q ∈ rs) : ∀ {s : State}, NoHostEntries s →
    (∀ t, Silent s t → (∀ b ∈ builtInItems, t.item b = s.item b) → t.itemNow q = s.itemNow q) →
    (publishAll go rs s).item q = s.itemNow q := by
  induction rs with
  | nil => cases hq
  | cons r rs ih =>
    intro s h hnow
    obtain ⟨hr1, hr2⟩ := hr r List.mem_cons_self
    have rest := fun x hx => hr x (List.mem_cons_of_mem _ hx)
    have k := silent_publish hgo h hr1
    have hn : NoHostEntries (publish go s r) := h.of_settings (by rw [k])
    have hb : ∀ b ∈ builtInItems, (publish go s r).item b = s.item b := fun b hb => by
      rw [item_publish hgo h hr1 hr2, if_neg]
      intro e; subst e; exact hr1 hb
    show (publishAll go rs (publish go s r)).item q = _
    by_cases hm : q ∈ rs
    · rw [ih rest hm hn (fun t ht hi => by rw [hnow t (k.trans ht) (fun b h => (hi b h).trans (hb b h)), hnow _ k hb])]
      exact hnow _ k hb
    · have e : q = r := by rcases List.mem_cons.mp hq with e | e; exact e; exact absurd e hm
      subst e
      rw [item_publishAll_other hgo hn rs rest q hm, item_publish hgo h hr1 hr2, if_pos rfl]

/-- An item that is published takes the value of its owner's rule, when that rule reads no published item. -/
theorem item_publishAll_mem {go : Go} (hgo : Quiet go) (q : ItemRef) (rs : List ItemRef) (hr : ∀ r ∈ rs, r ∉ builtInItems ∧ r.exists = true)
    (hq : q ∈ rs) {s : State} (h : NoHostEntries s) (hnow : ∀ t, Silent s t → t.itemNow q = s.itemNow q) :
    (publishAll go rs s).item q = s.itemNow q :=
  item_publishAll_reads hgo q rs hr hq h fun t ht _ => hnow t ht

end Sys2Proof.Machine
end

