-- ==== Sys2Proof/Laws/BuiltIn.lean ====
section
/-! SUPPORT. With the built-in interlock entries alone: which entries there are, and what re-evaluating one of them does (R118, R120). -/

namespace Sys2Proof.Machine

theorem entries_builtin {s : State} (h : NoHostEntries s) : s.entries = [
   { machine := .p, dir := some .inward, item := Item.ladderDown, sense := true, action := .block },
   { machine := .h, dir := some .inward, item := Item.cradleHome, sense := false, action := .block },
   { machine := .p, dir := none, item := Item.matOccupied, sense := true, action := .cap 300 }] := by
  unfold State.entries interlockEntries
  have : List.range 24 = [0,1,2,3,4,5,6,7,8,9,10,11,12,13,14,15,16,17,18,19,20,21,22,23] := rfl
  rw [this]
  have hz : ∀ i, 3 ≤ i → i < 24 → s.entry i = none := fun i h1 h2 => by
    unfold State.entry builtInEntries
    rw [if_neg (by omega)]
    exact h _ (by omega)
  have h0 : s.entry 0 = some { machine := .p, dir := some .inward, item := Item.ladderDown, sense := true, action := .block } := rfl
  have h1 : s.entry 1 = some { machine := .h, dir := some .inward, item := Item.cradleHome, sense := false, action := .block } := rfl
  have h2 : s.entry 2 = some { machine := .p, dir := none, item := Item.matOccupied, sense := true, action := .cap 300 } := rfl
  simp only [List.filterMap_cons, List.filterMap_nil, h0, h1, h2, hz 3 (by omega) (by omega), hz 4 (by omega) (by omega), hz 5 (by omega) (by omega), hz 6 (by omega) (by omega), hz 7 (by omega) (by omega), hz 8 (by omega) (by omega), hz 9 (by omega) (by omega), hz 10 (by omega) (by omega), hz 11 (by omega) (by omega), hz 12 (by omega) (by omega), hz 13 (by omega) (by omega), hz 14 (by omega) (by omega), hz 15 (by omega) (by omega), hz 16 (by omega) (by omega), hz 17 (by omega) (by omega), hz 18 (by omega) (by omega), hz 19 (by omega) (by omega), hz 20 (by omega) (by omega), hz 21 (by omega) (by omega), hz 22 (by omega) (by omega), hz 23 (by omega) (by omega)]

/-- The one built-in entry of an item that has one. -/
def ownEntry : PlainInput → InterlockEntry
  | .ladder => { machine := .p, dir := some .inward, item := Item.ladderDown, sense := true, action := .block }
  | .cradle => { machine := .h, dir := some .inward, item := Item.cradleHome, sense := false, action := .block }
  | .mat => { machine := .p, dir := none, item := Item.matOccupied, sense := true, action := .cap 300 }

theorem react_plain {s : State} (h : NoHostEntries s) (i : PlainInput) (go : Go) : react go (plainItem i) s = reevaluate go [ownEntry i] s := by
  unfold react
  rw [entries_builtin h]
  cases i <;> rfl

theorem plain_bc : ∀ r ∈ machines.map Item.blocked ++ machines.map Item.capped, r ∉ builtInItems ∧ r.exists = true := by decide

theorem item_silent {s t : State} (h : s.seu = t.seu) (q : ItemRef) : s.item q = t.item q := by unfold State.item; rw [h]

theorem ramped_of {m x} {s s' t t' : State} (h : RampedEnd m x s t) (h1 : s'.mc = s.mc) (h2 : s'.hsc = s.hsc) (h3 : s'.siq = s.siq)
    (h5 : s'.settings = s.settings) (kt : Still t t') (kp : t'.hsc = t.hsc) : RampedEnd m x s' t' := by
  have hch : s'.chan m = s.chan m := by unfold State.chan; rw [h1]
  have hv : s.anyValid m = s'.anyValid m := anyValid_siq h3.symm m
  constructor
  · intro r h1 h2' h3
    rw [hch] at h1 h2' h3 ⊢
    rw [h2, kt.chan, kt.grants]
    exact h.moving r h1 h2' h3
  · intro r h1 h2' h3 h4
    rw [hch] at h1 h2' ⊢
    rw [← hv] at h3
    rw [h2] at h4 ⊢
    rw [h5, kt.chan, kp]
    exact h.notMoving r h1 h2' h3 h4
  · intro h1
    rw [hch] at h1 ⊢
    rw [kt.chan]
    exact h.stopping h1

theorem tryStart_notIdle {s : State} {m : MachineId} (go : Go) (h : (s.chan m).state ≠ .idle) : tryStart go m s = s := by
  unfold tryStart; rw [if_neg h]

/-- A BLOCK entry that comes to hold for the direction of the live run. -/
theorem ramped_reevaluate {n : Nat} {s : State} (h : NoHostEntries s) (m : MachineId) (e : InterlockEntry) (hm : e.machine = m) (hb : e.blocks = true) (hh : s.holds e = true)
    (hd : ∀ r, (s.chan m).live = some r → e.covers m r.dir = true) :
    RampedEnd m .interlock s (reevaluate (deliver (n + 1)) [e] s) := by
  have hg := quiet_deliver n
  unfold reevaluate
  simp only [List.foldl_cons, List.foldl_nil]
  rw [hm]
  cases hl : (s.chan m).live with
  | none =>
    have : blockedRun s e = false := by unfold blockedRun; rw [hm, hl]
    rw [this]
    simp only [Bool.false_eq_true, if_false]
    have hno : (if (e.blocks && !s.holds e) = true then tryStart (deliver (n + 1)) m s else s) = s := by
      rw [if_neg]; rw [hh]; simp
    rw [hno]
    have k0 := calm_publishAll hg h (machines.map Item.blocked ++ machines.map Item.capped) (fun r hr => (plain_bc r hr).1)
    exact ramped_of ⟨fun r _ k => (by rw [hl] at k; cases k), fun r _ k => (by rw [hl] at k; cases k), fun _ => ⟨rfl, rfl⟩⟩ rfl rfl rfl rfl k0.still k0.hsc
  | some r =>
    have : blockedRun s e = true := by unfold blockedRun; rw [hm, hl]; dsimp only; rw [hb, hd r hl, hh]; rfl
    rw [this, if_pos rfl]
    have R := endRun_ramped hg h m .interlock (fun k => by rcases k with k | k <;> cases k)
    have kv : Cascade s (endRun (deliver (n + 1)) m .interlock s) := cascade_endRun (cascades_deliver (n + 1)) m .interlock (.refl s)
    generalize endRun (deliver (n + 1)) m .interlock s = v at R kv
    have hv : NoHostEntries v := h.of_settings kv.settings
    have key : ((v.chan m).state ≠ .idle ∨ v.anyValid m = false) → Calm v (publishAll (deliver (n + 1)) (machines.map Item.blocked ++ machines.map Item.capped) (if (e.blocks && !v.holds e) = true then tryStart (deliver (n + 1)) m v else v)) := by
      intro k
      have : (if (e.blocks && !v.holds e) = true then tryStart (deliver (n + 1)) m v else v) = v := by
        split
        · rcases k with k | k
          · exact tryStart_notIdle _ k
          · exact tryStart_quiet _ k
        · rfl
      rw [this]
      exact calm_publishAll hg hv _ (fun r hr => (plain_bc r hr).1)
    constructor
    · intro r h1 h2 h3
      have q := R.moving r h1 h2 h3
      have k := key (.inl (by rw [q.1]; nofun))
      rw [k.chan, k.hsc]
      exact q
    · intro r h1 h2 h3 h4
      have q := R.notMoving r h1 h2 h3 h4
      have k := key (.inr (kv.anyValid m (by rcases h3 with h3 | h3 | h3; cases h3; cases h3; exact h3)))
      rw [k.chan, k.hsc]
      exact q
    · intro h1
      have q := R.stopping h1
      have k := key (.inl (by rw [q.1]; rcases h1 with h1 | h1 <;> rw [h1] <;> nofun))
      rw [k.chan]
      exact q

/-- The lowest cap with the built-in entries alone (R118, R119). -/
theorem lowestCap_builtin {s : State} (h : NoHostEntries s) (m : MachineId) (d : Direction) :
    s.lowestCap m d = if m = .p ∧ s.item Item.matOccupied = true then some 300 else none := by
  unfold State.lowestCap
  rw [entries_builtin h]
  simp only [List.foldl_cons, List.foldl_nil]
  unfold InterlockEntry.covers State.holds
  cases m <;> cases hi : s.item Item.matOccupied <;> simp

theorem isBlocked_builtin {s : State} (h : NoHostEntries s) (m : MachineId) :
    s.isBlocked m = ((m == .p && s.item Item.ladderDown || m == .h && !s.item Item.cradleHome) ||
      ((s.chan m).state == .idle && s.anyValid m && s.hsc.isolate)) := by
  unfold State.isBlocked State.anyBlock
  rw [entries_builtin h]
  simp only [List.any_cons, List.any_nil, InterlockEntry.blocks, State.holds]
  generalize ((s.chan m).state == .idle && s.anyValid m && s.hsc.isolate) = x
  generalize s.item Item.ladderDown = y
  generalize s.item Item.cradleHome = z
  generalize s.item Item.matOccupied = w
  revert x y z w
  cases m <;> decide

theorem isCapped_builtin {s : State} (h : NoHostEntries s) (m : MachineId) :
    s.isCapped m = ((s.chan m).live.isSome && (m == .p && s.item Item.matOccupied)) := by
  unfold State.isCapped
  cases (s.chan m).live with
  | none => rfl
  | some r =>
    dsimp only
    rw [lowestCap_builtin h]
    cases m <;> cases s.item Item.matOccupied <;> rfl

/-- BLOCKED and CAPPED, published with the built-in entries alone, say how the plain inputs and the machine controller restrict each
machine (R4, R119). -/
theorem restrictions_published {go : Go} (hgo : Quiet go) {s : State} (h : NoHostEntries s) (m : MachineId) :
    let t := publishAll go (machines.map Item.blocked ++ machines.map Item.capped) s
    Silent s t ∧ (∀ q ∈ builtInItems, t.item q = s.item q) ∧ t.item (Item.blocked m) = t.isBlocked m ∧
      t.item (Item.capped m) = t.isCapped m := by
  intro t
  have k : Silent s t := silent_publishAll hgo h _ fun r hr => (plain_bc r hr).1
  have ht : NoHostEntries t := h.of_settings (by rw [k])
  have hb : ∀ q ∈ builtInItems, t.item q = s.item q := fun q hq =>
    item_publishAll_other hgo h _ plain_bc q fun hm => (plain_bc q hm).1 hq
  have same : ∀ u, Silent s u → (∀ b ∈ builtInItems, u.item b = s.item b) → u.isBlocked m = s.isBlocked m ∧ u.isCapped m = s.isCapped m :=
    fun u hu hi => by
      have hn : NoHostEntries u := h.of_settings (by rw [hu])
      rw [isBlocked_builtin hn, isBlocked_builtin h, isCapped_builtin hn, isCapped_builtin h, hi _ (by decide), hi _ (by decide),
        hi _ (by decide), anyValid_siq (s := s) (by rw [hu]), show u.chan m = s.chan m by unfold State.chan; rw [hu],
        show u.hsc = s.hsc by rw [hu]]
      exact ⟨rfl, rfl⟩
  refine ⟨k, hb, ?_, ?_⟩
  · rw [(same t k hb).1]
    have e : ∀ v : State, v.itemNow (Item.blocked m) = v.isBlocked m := fun v => by cases m <;> rfl
    rw [← e s]
    exact item_publishAll_reads hgo _ _ plain_bc (by cases m <;> decide) h fun u hu hi => by rw [e, e]; exact (same u hu hi).1
  · rw [(same t k hb).2]
    have e : ∀ v : State, v.itemNow (Item.capped m) = v.isCapped m := fun v => by cases m <;> rfl
    rw [← e s]
    exact item_publishAll_reads hgo _ _ plain_bc (by cases m <;> decide) h fun u hu hi => by rw [e, e]; exact (same u hu hi).2

/-- A plain input's item takes the level of its input when it is published, whatever follows (R80). -/
theorem item_publish_builtIn {go : Go} (hgo : Cascades go) (s : State) (q : ItemRef) (hq : q ∈ builtInItems) :
    (publish go s q).item q = s.itemNow q := by
  have ex : q.exists = true := (reported_builtIn q hq).1
  unfold publish setItem
  by_cases e : s.item q = s.itemNow q
  · rw [if_pos (.inl e)]; exact e
  · rw [if_neg (by rintro (k | k); exact e k; rw [ex] at k; cases k)]
    generalize hu : s.onSeu (fun u => { u with items := poke u.items q.index (s.itemNow q) }) = u
    have k : Silent s (evalWatches q.group u) := Silent.trans (t := u) (by rw [← hu]; rfl) (silent_evalWatches _ _)
    have hp : (evalWatches q.group u).itemNow q = s.itemNow q := itemNow_builtIn (by rw [k]) q hq
    have kk := hgo.step (.refl (evalWatches q.group u)) (.itemChanged q)
    rw [← hp]
    refine kk.builtIn q hq ?_
    rw [hp, item_evalWatches, ← hu, item_set _ _ _ _ ex, if_pos rfl]

theorem still_beginWrite (s : State) : Still s (beginWrite s) := by
  rw [beginWrite_eq]; exact (Calm.onSto (fun _ => (beginWrite s).sto) s).still

theorem blockedRun_cap {s : State} {e : InterlockEntry} (h : e.blocks = false) : blockedRun s e = false := by
  unfold blockedRun; split
  · rw [h]; rfl
  · rfl

theorem blockedRun_none {s : State} {e : InterlockEntry} (h : (s.chan e.machine).live = none) : blockedRun s e = false := by
  unfold blockedRun; rw [h]

theorem publishAll_cons (go : Go) (r : ItemRef) (rs : List ItemRef) (s : State) : publishAll go (r :: rs) s = publishAll go rs (publish go s r) := rfl

end Sys2Proof.Machine
end

