-- ==== Sys2Proof/Laws/Codes.lean ====
section
/-! SUPPORT. The codes of requests and the values they name, and what the link supervision leaves alone before a request is judged (R185). -/

namespace Sys2Proof.Machine

theorem status_of {b : Bool} {p : Prop} [Decidable p] (h : b = true ↔ ¬ p) : [(accepted b).code] = [if p then (0x00 : Byte) else 0x01] := by
  by_cases q : p
  · rw [if_pos q]
    have : b = false := by cases b; rfl; exact absurd q (h.1 rfl)
    rw [this]; rfl
  · rw [if_neg q, h.2 q]; rfl

theorem yesNo_of {b : Byte} (h : b.toNat ≤ 1) : yesNoNamed b = some (decide (b = 1)) := by
  have : b.toNat = 0 ∨ b.toNat = 1 := by omega
  rcases this with h | h
  · have : b = 0 := BitVec.eq_of_toNat_eq h
    subst this; rfl
  · have : b = 1 := BitVec.eq_of_toNat_eq h
    subst this; rfl

theorem yesNo_none {b : Byte} (h : 1 < b.toNat) : yesNoNamed b = none := by
  unfold yesNoNamed; split <;> first | omega | rfl

theorem word_none {b : Byte} (h : b ≠ 16 ∧ b ≠ 24 ∧ b ≠ 32) : wordNamed b = none := by
  unfold wordNamed; rw [if_neg]
  rintro (k | k | k)
  · exact h.1 (BitVec.eq_of_toNat_eq k)
  · exact h.2.1 (BitVec.eq_of_toNat_eq k)
  · exact h.2.2 (BitVec.eq_of_toNat_eq k)

theorem word_some {b : Byte} (h : b = 16 ∨ b = 24 ∨ b = 32) : wordNamed b = some b.toNat := by
  rcases h with h | h | h <;> subst h <;> rfl

theorem index_some {n : Nat} {b : Byte} (h : b.toNat < n) : indexNamed n b = some b.toNat := if_pos h

theorem index_none {n : Nat} {b : Byte} (h : n ≤ b.toNat) : indexNamed n b = none := if_neg (Nat.not_lt.mpr h)

theorem claimed_iff (s : State) (a n : Nat) (o : BlockOwner) :
    s.claimed a n o = true ↔ ∃ k, a ≤ k ∧ k < a + n ∧ peek s.zae.owners k ≠ .free ∧ peek s.zae.owners k ≠ o := by
  unfold State.claimed
  rw [List.any_eq_true]
  constructor
  · rintro ⟨k, hk, h⟩
    rw [List.mem_range] at hk
    refine ⟨a + k, by omega, by omega, ?_⟩
    simpa using h
  · rintro ⟨k, h1, h2, h⟩
    refine ⟨k - a, by rw [List.mem_range]; omega, ?_⟩
    rw [show a + (k - a) = k by omega]
    simpa using h

theorem peek_ofFn {α : Type} [Inhabited α] {n : Nat} (f : Fin n → α) (k : Nat) (h : k < n) : peek (Vector.ofFn f) k = f ⟨k, h⟩ := by
  unfold peek; simp [h]

theorem maskOf_congr (n : Nat) (f g : Nat → Bool) (h : ∀ k, k < n → f k = g k) : maskOf n f = maskOf n g := by
  induction n with
  | zero => rfl
  | succ n ih => rw [maskOf_succ, maskOf_succ, ih fun k hk => h k (by omega), h n (by omega)]

/-- The heard state is the told one but for items, LINK_LOST and the channels it let go; without host entries the zones stand. -/
theorem heard_zones (s : State) (z : Nat) : SameZone (s.zone z) ((heard s).zone z) := by
  rcases heard_cascade s with k | ⟨v, k1, k2⟩
  · exact k.zone z
  · have a := k1.zone z
    have b := k2.zone z
    exact ⟨b.1.trans a.1, b.2.1.trans a.2.1, b.2.2.1.trans a.2.2.1, b.2.2.2.trans a.2.2.2⟩

theorem zoneConfig_heard (s : State) (z : Nat) : (heard s).zoneConfig z = s.zoneConfig z := by
  unfold State.zoneConfig; rw [heard_settings]

theorem setZoneConfig_heard (z : Nat) (c : ZoneConfig) (s : State) : setZoneConfig z c (heard s) = { heard s with settings := { s.settings with audio := { s.settings.audio with zones := poke s.settings.audio.zones z c } } } := by
  show ({ heard s with settings := { (heard s).settings with audio := { (heard s).settings.audio with zones := poke (heard s).settings.audio.zones z c } } } : State) = _
  rw [heard_settings]

theorem indexOrNone3 {b : Byte} (h : b.toNat ≤ 3) : indexOrNoneNamed 3 3 b = some (if b = 3 then none else some b.toNat) := by
  unfold indexOrNoneNamed
  by_cases e : b = 3
  · subst e; rfl
  · rw [if_neg (fun k : b.toNat = 3 => e (BitVec.eq_of_toNat_eq k)), if_neg e, index_some (by have : b.toNat ≠ 3 := fun k => e (BitVec.eq_of_toNat_eq k); omega)]; rfl

theorem indexOrNone3_none {b : Byte} (h : 3 < b.toNat) : indexOrNoneNamed 3 3 b = none := by
  unfold indexOrNoneNamed
  rw [if_neg (by omega), index_none (by omega)]; rfl

theorem accepted_ne {α : Type} [DecidableEq α] (x y : α) : (accepted (x != y)).code = if x = y then 0x00 else 0x01 := by
  by_cases h : x = y <;> simp [h, accepted, Status.code]

theorem run_refused {s : State} (h : Serving s) {b db : Byte} {t : Option Half} {x : Status}
    {m d} (hm : machineNamed b = some m) (hd : directionNamed db = some d)
    (hx : (heard s).runRefusal m d (recordedTarget m d ((heard s).clampedTarget m t)) = some x) :
    exec (.run b db t) s = refusal 0x92 x.code s := by
  rw [request_answered h _ (by cases t <;> rfl) rfl]
  have : ticketCode (.ask (.run b db t)) = 0x12 := by cases t <;> rfl
  rw [this]
  show Host.Outcome.next (answered 0x92 (serveRun send b db t (heard s)).2 (serveRun send b db t (heard s)).1) = _
  unfold serveRun
  rw [hm, hd]
  simp only [hx]
  rfl

theorem noHost_heard {s : State} (h : NoHostEntries s) : NoHostEntries (heard s) := h.of_settings (heard_settings s)

theorem pend_enq (x : SectionName) (m : Bool) (q : List (SectionName × Bool)) : isPending x (enqueueWrite x m q) = true := by
  unfold enqueueWrite
  split
  · rename_i h
    unfold isPending at *
    rw [List.any_eq_true] at *
    obtain ⟨e, he, hx⟩ := h
    refine ⟨_, List.mem_map.mpr ⟨e, he, rfl⟩, ?_⟩
    split <;> simpa using hx
  · split
    · simp [isPending]
    · simp [isPending]

theorem pend_mono (x y : SectionName) (m : Bool) (q : List (SectionName × Bool)) (h : isPending x q = true) : isPending x (enqueueWrite y m q) = true := by
  rw [isPending_iff] at *
  rw [enqueueWrite_names]
  split
  · exact h
  · split
    · exact List.mem_cons_of_mem _ h
    · exact List.mem_append_left _ h

/-- the raw settings -/
theorem withTail_layout (b : Byte) (m : MachineId) (t : MachineTail) (x : MachineSettings) (hm : machineNamed b = some m) (hl : machineLayout b t = true) :
    ∃ raw, x.withTail m t = some raw ∧ raw.common = x.common ∧ raw.refreshTime = x.refreshTime ∧ raw.linkQuiet = x.linkQuiet := by
  have hb : b.toNat = machineCode m := by
    unfold machineNamed at hm; split at hm <;> simp_all <;> subst hm <;> rfl
  have hb' : b = BitVec.ofNat 8 (machineCode m) := by apply BitVec.eq_of_toNat_eq; rw [hb]; cases m <;> rfl
  subst hb'
  cases m <;> cases t <;> first | exact ⟨_, rfl, rfl, rfl, rfl⟩ | (simp [machineLayout, machineCode] at hl)

theorem enabled_settings (go : Go) (hgo : Cascades go) (m : MachineId) (s : State) : Cascade s (applyEnabled go m s) := by
  unfold applyEnabled
  split
  · exact cascade_enter hgo _ _ (.refl _)
  · exact cascade_enter hgo _ _ (.refl _)
  · split
    · exact cascade_enter hgo _ _ (.refl _)
    · exact hgo.step (cascade_enter hgo _ _ (.refl _)) _
  · exact .refl _

/-- What applyParams does at once. -/
def paramCore (m : MachineId) (s : State) : State :=
  match m with
  | .w =>
    let top := s.settings.machines.windlass.rodeMax
    if top < s.sfe.rode then
      s.onSfe fun f => { f with rode := top, creepRef := if (s.chan .w).state = .idle then some top else s.sfe.creepRef }
    else s
  | .p => applySensors .p s
  | .h => applySensors .h s

theorem params_cascade (m : MachineId) (s : State) : Cascade (paramCore m s) (applyParams send m s) := by
  cases m
  · unfold paramCore applyParams applyWindlass
    dsimp only
    refine cascade_refreshDisplay _ ?_
    split
    · exact cascade_requestWrite cascades_send _ _ (cascade_publish cascades_send _ (.refl _))
    · exact cascade_publish cascades_send _ (.refl _)
  · exact .refl _
  · exact .refl _

theorem paramCore_other (m : MachineId) (s : State) : paramCore m s = { s with sfe := (paramCore m s).sfe } := by
  cases m
  · unfold paramCore; dsimp only; split <;> rfl
  · rfl
  · rfl

theorem calm_params (m : MachineId) {s : State} (h : NoHostEntries s) : Calm (paramCore m s) (applyParams send m s) := by
  have hp : NoHostEntries (paramCore m s) := h.of_settings (by rw [paramCore_other])
  cases m
  · unfold applyParams applyWindlass
    unfold paramCore at hp ⊢
    dsimp only at hp ⊢
    refine Calm.trans ?_ (calm_refreshDisplay _ _)
    split
    · rename_i hc
      rw [if_pos hc] at hp
      have k := calm_publish quiet_send hp (r := Item.atRodeMax) (by unfold Plain; decide)
      exact k.trans (calm_requestWrite quiet_send (k.noHostEntries hp) _ _)
    · exact calm_publish quiet_send h (by unfold Plain; decide)
  · exact .refl _
  · exact .refl _

theorem inState_state (c : Channel) (st : ChanState) : (c.inState st).state = st := by cases st <;> rfl

theorem enabled_state (m : MachineId) {v : State} (h : NoHostEntries v) :
    ((v.params m).enabled = false → (v.chan m).state.isRunning = false → ((applyEnabled send m v).chan m).state = .disabled) ∧
    ((v.params m).enabled = true → (v.chan m).state ≠ .disabled → ((applyEnabled send m v).chan m).state = (v.chan m).state) ∧
    ((v.params m).enabled = true → (v.chan m).state = .disabled → v.allReleased m = true →
      ((applyEnabled send m v).chan m).state = if v.affected m then .held else .idle) := by
  have en : ∀ st, ((enter send m st v).chan m).state = st := by
    intro st
    rw [(calm_enter quiet_send h m st).chan, stateCore_chan, if_pos rfl, inState_state]
  refine ⟨fun h1 h2 => ?_, fun h1 h2 => ?_, fun h1 h2 h3 => ?_⟩
  · unfold applyEnabled
    rw [h1]
    cases hs : (v.chan m).state <;> rw [hs] at h2 <;> first | exact absurd h2 (by decide) | exact en _ | exact hs
  · unfold applyEnabled
    rw [h1]
    cases hs : (v.chan m).state <;> first | exact absurd hs h2 | exact hs
  · unfold applyEnabled
    rw [h1, h2]
    dsimp only
    split
    · exact en _
    · have k := calm_enter quiet_send h m .idle
      have hi : (enter send m .idle v).siq = v.siq := by rw [k.siq, stateCore_eq]
      have : send (.tryStart m) (enter send m .idle v) = enter send m .idle v := by
        show tryStart (deliver 63) m _ = _
        unfold tryStart
        rw [en]
        have e : ∀ d, (enter send m .idle v).inputState m d = v.inputState m d := by
          intro d; unfold State.inputState State.input; rw [hi]
        rw [e, e]
        unfold State.allReleased at h3
        rw [Bool.and_eq_true, beq_iff_eq, beq_iff_eq] at h3
        rw [h3.1, h3.2]
        rfl
      rw [this]; exact en _

theorem configured (s : State) (b : Byte) (f : MachineFields) (m : MachineId) (en : Bool) (raw : MachineSettings)
   (hm : machineNamed b = some m) (he : yesNoNamed f.enabled = some en)
   (hraw : ({ s.settings.machines with common := s.settings.machines.common.set m (commonOf f en) }).withTail m f.tail = some raw) :
   serveConfigureMachine send b f s =
     if (s.chan m).state.isRunning ∨ (en = true ∧ (s.params m).enabled = false ∧ s.allReleased m = false) then refuse .refusedState s
     else reply (accepted (raw.clamped m != raw)) [] (applyEnabled send m (applyParams send m (setMachines (raw.clamped m) s))) := by
  unfold serveConfigureMachine
  rw [hm, he]
  simp only [hraw]

theorem heard_overload (s : State) : (heard s).sfe.overload = s.sfe.overload := heard_keeps (fun s => s.sfe.overload) (fun _ _ h => h.overload) (fun _ => rfl) s

theorem machineNamed_none {b : Byte} (h : 2 < b.toNat) : machineNamed b = none := by
  unfold machineNamed; split <;> first | rfl | omega

theorem heard_display (s : State) : (heard s).siq.display = s.siq.display := heard_keeps (fun s => s.siq.display) (fun _ _ h => by rw [h.siq]) (fun _ => rfl) s

theorem heard_reset (s : State) : (heard s).siq.reset = s.siq.reset := heard_keeps (fun s => s.siq.reset) (fun _ _ h => by rw [h.siq]) (fun _ => rfl) s

theorem heard_keys (s : State) : (heard s).siq.keys = s.siq.keys := heard_keeps (fun s => s.siq.keys) (fun _ _ h => by rw [h.siq]) (fun _ => rfl) s

theorem heard_longPress (s : State) : (heard s).siq.longPress = s.siq.longPress := heard_keeps (fun s => s.siq.longPress) (fun _ _ h => by rw [h.siq]) (fun _ => rfl) s

theorem inhibited_levels (x : HoldRec) (r : Nat) : (x.inhibited r).a = x.a ∧ (x.inhibited r).b = x.b := by
  unfold HoldRec.inhibited; split <;> exact ⟨rfl, rfl⟩

theorem cascade_levels {s t : State} (h : Cascade s t) (i : HoldInput) : (t.input i).a = (s.input i).a ∧ (t.input i).b = (s.input i).b := by
  rcases h.input i with e | e <;> rw [e]
  · exact ⟨rfl, rfl⟩
  · exact inhibited_levels _ _

theorem heard_levelA (s : State) (i : HoldInput) : ((heard s).input i).a = (s.input i).a := heard_keeps (fun s => (s.input i).a) (fun _ _ h => (cascade_levels h i).1) (fun _ => rfl) s

theorem heard_levelB (s : State) (i : HoldInput) : ((heard s).input i).b = (s.input i).b := heard_keeps (fun s => (s.input i).b) (fun _ _ h => (cascade_levels h i).2) (fun _ => rfl) s

theorem heard_quiet (s : State) (z : Nat) : ((heard s).zone z).quiet = (s.zone z).quiet := heard_keeps (fun s => (s.zone z).quiet) (fun _ _ h => (h.zone z).1) (fun _ => rfl) s

theorem heard_duck (s : State) (z : Nat) : ((heard s).zone z).duck = (s.zone z).duck := heard_keeps (fun s => (s.zone z).duck) (fun _ _ h => (h.zone z).2.2.2) (fun _ => rfl) s

set_option maxHeartbeats 1000000 in

theorem cascade_replace (i : Nat) (e : Option InterlockEntry) (s : State) :
    Cascade (s.onSettings fun t => { t with interlocks := poke t.interlocks (i - builtInEntries) e }) (replaceEntry send i e s) := by
  unfold replaceEntry
  dsimp only
  let b := s.onSettings fun t => { t with interlocks := poke t.interlocks (i - builtInEntries) e }
  have k : Cascade b (reevaluate send b.entries b) := cascade_reevaluate cascades_send _ (.refl _)
  split
  · exact cascades_send.step k _
  · exact k

theorem entry_replaced (i : Nat) (hi : 3 ≤ i ∧ i ≤ 23) (e : Option InterlockEntry) (s : State) (j : Nat) (hj : j < 24) :
    (s.onSettings fun t => { t with interlocks := poke t.interlocks (i - builtInEntries) e }).entry j = if j = i then e else s.entry j := by
  unfold State.entry
  show (if j < 3 then builtInEntry j else peek (poke s.settings.interlocks (i - 3) e) (j - 3)) = if j = i then e else if j < 3 then builtInEntry j else peek s.settings.interlocks (j - 3)
  rw [peek_poke]
  by_cases h1 : j < 3
  · rw [if_pos h1, if_neg (by omega), if_pos h1]
  · rw [if_neg h1, if_neg h1]
    by_cases h2 : j = i
    · subst h2; rw [if_pos rfl, if_pos ⟨rfl, by omega⟩]
    · rw [if_neg h2, if_neg (by omega)]

theorem heard_entry (s : State) (i : Nat) : (heard s).entry i = s.entry i := by
  unfold State.entry; rw [heard_settings]

end Sys2Proof.Machine
end

