-- ==== Sys2Proof/Laws/Memory.lean ====
section
/-! SUPPORT. The laws of the sample memory: reading what was written, leaving every other address alone, and the canonical form. -/

namespace Sys2Proof.Machine

theorem Memory.wf_cons (a : Nat) (v : Half) (m : SampleMemory) :
    Memory.wf ((a, v) :: m) = true ↔ v ≠ unlistedSample ∧ (∀ c ∈ m, a < c.1) ∧ Memory.wf m = true := by
  simp [Memory.wf, and_assoc]

/-- An address below every listed one reads as unlisted. -/
theorem readSample_below (m : SampleMemory) (a : Nat) (h : ∀ c ∈ m, a < c.1) : readSample m a = unlistedSample := by
  induction m with
  | nil => rfl
  | cons c m ih =>
    obtain ⟨b, v⟩ := c
    have hb : a < b := h (b, v) (by simp)
    rw [readSample, if_neg (by omega)]
    exact ih fun c hc => h c (List.mem_cons_of_mem _ hc)

/-- Reading an address after a sample has been written (R142). -/
theorem readSample_writeSample (m : SampleMemory) (h : Memory.wf m = true) (a b : Nat) (v : Half) :
    readSample (writeSample a v m) b = if b = a then v else readSample m b := by
  induction m with
  | nil =>
    unfold writeSample
    by_cases hv : v = unlistedSample
    · rw [if_pos hv]
      split
      · rw [hv]; rfl
      · rfl
    · rw [if_neg hv]
      by_cases hab : a = b
      · simp [readSample, hab]
      · rw [readSample, readSample, readSample, if_neg hab, if_neg (fun e => hab e.symm)]
  | cons c m ih =>
    obtain ⟨c, w⟩ := c
    obtain ⟨hw, hlt, hm⟩ := (Memory.wf_cons c w m).mp h
    unfold writeSample
    by_cases h1 : a < c
    · rw [if_pos h1]
      have below : readSample ((c, w) :: m) a = unlistedSample :=
        readSample_below _ _ fun x hx => by
          rcases List.mem_cons.mp hx with rfl | hx
          · exact h1
          · exact Nat.lt_trans h1 (hlt x hx)
      by_cases hv : v = unlistedSample
      · rw [if_pos hv]
        split
        · rename_i e
          rw [e, below, hv]
        · rfl
      · rw [if_neg hv]
        by_cases hab : a = b
        · simp [readSample, hab]
        · rw [readSample, if_neg hab, if_neg (fun e => hab e.symm)]
    · rw [if_neg h1]
      by_cases h2 : a = c
      · subst h2
        rw [if_pos rfl]
        have below : readSample m a = unlistedSample := readSample_below _ _ hlt
        by_cases hv : v = unlistedSample
        · rw [if_pos hv]
          by_cases hab : b = a
          · rw [if_pos hab, hab, below, hv]
          · rw [if_neg hab, readSample, if_neg (fun e => hab e.symm)]
        · rw [if_neg hv]
          by_cases hab : b = a
          · simp [readSample, hab]
          · rw [if_neg hab, readSample, if_neg (fun e => hab e.symm), readSample, if_neg (fun e => hab e.symm)]
      · rw [if_neg h2, readSample]
        by_cases hcb : c = b
        · rw [if_pos hcb, readSample, if_pos hcb, if_neg (by omega)]
        · rw [if_neg hcb, readSample, if_neg hcb]
          exact ih hm

theorem writeSample_mem (m : SampleMemory) (a : Nat) (v : Half) (c : Nat × Half) (h : c ∈ writeSample a v m) :
    c = (a, v) ∨ c ∈ m := by
  induction m with
  | nil =>
    unfold writeSample at h
    split at h
    · exact .inr h
    · exact .inl (List.mem_singleton.mp h)
  | cons d m ih =>
    obtain ⟨d, w⟩ := d
    unfold writeSample at h
    split at h
    · split at h
      · exact .inr h
      · exact List.mem_cons.mp h
    · split at h
      · split at h
        · exact .inr (List.mem_cons_of_mem _ h)
        · exact (List.mem_cons.mp h).imp_right (List.mem_cons_of_mem _)
      · rcases List.mem_cons.mp h with h | h
        · exact .inr (h ▸ List.mem_cons_self)
        · exact (ih h).imp_right (List.mem_cons_of_mem _)

/-- A write keeps the canonical form. -/
theorem writeSample_wf (m : SampleMemory) (h : Memory.wf m = true) (a : Nat) (v : Half) :
    Memory.wf (writeSample a v m) = true := by
  induction m with
  | nil =>
    unfold writeSample
    split
    · rfl
    · rename_i hv
      exact (Memory.wf_cons _ _ _).mpr ⟨hv, by simp, rfl⟩
  | cons c m ih =>
    obtain ⟨c, w⟩ := c
    obtain ⟨hw, hlt, hm⟩ := (Memory.wf_cons c w m).mp h
    unfold writeSample
    split
    · rename_i h1
      split
      · exact h
      · rename_i hv
        refine (Memory.wf_cons _ _ _).mpr ⟨hv, fun x hx => ?_, h⟩
        rcases List.mem_cons.mp hx with rfl | hx
        · exact h1
        · exact Nat.lt_trans h1 (hlt x hx)
    · rename_i h1
      split
      · rename_i h2
        split
        · exact hm
        · rename_i hv
          exact (Memory.wf_cons _ _ _).mpr ⟨hv, h2 ▸ hlt, hm⟩
      · rename_i h2
        refine (Memory.wf_cons _ _ _).mpr ⟨hw, fun x hx => ?_, ih hm⟩
        rcases writeSample_mem m a v x hx with rfl | hx
        · simp only
          omega
        · exact hlt x hx

theorem writeSamples_wf (a : Nat) (vs : List Half) (m : SampleMemory) (h : Memory.wf m = true) :
    Memory.wf (writeSamples a vs m) = true := by
  induction vs generalizing a m with
  | nil => exact h
  | cons v vs ih => exact ih _ _ (writeSample_wf m h a v)

/-- Reading an address after samples have been written from `a` onward: the sample written there, or what stood there (R142). -/
theorem readSample_writeSamples (a : Nat) (vs : List Half) (m : SampleMemory) (h : Memory.wf m = true) (b : Nat) :
    readSample (writeSamples a vs m) b =
      if a ≤ b ∧ b < a + vs.length then vs.getD (b - a) unlistedSample else readSample m b := by
  induction vs generalizing a m with
  | nil => simp [writeSamples]
  | cons v vs ih =>
    rw [writeSamples, ih _ _ (writeSample_wf m h a v), readSample_writeSample m h]
    simp only [List.length_cons]
    by_cases h1 : a + 1 ≤ b ∧ b < a + 1 + vs.length
    · rw [if_pos h1, if_pos (by omega)]
      have : b - a = (b - (a + 1)) + 1 := by omega
      rw [this]
      rfl
    · rw [if_neg h1]
      by_cases h2 : b = a
      · subst h2
        simp
      · rw [if_neg h2, if_neg (by omega)]

theorem clearSamples_wf (a n : Nat) (m : SampleMemory) (h : Memory.wf m = true) : Memory.wf (clearSamples a n m) = true := by
  induction m with
  | nil => rfl
  | cons c m ih =>
    obtain ⟨c, w⟩ := c
    obtain ⟨hw, hlt, hm⟩ := (Memory.wf_cons c w m).mp h
    unfold clearSamples at ih ⊢
    rw [List.filter_cons]
    split
    · exact (Memory.wf_cons _ _ _).mpr ⟨hw, fun x hx => hlt x (List.mem_filter.mp hx).1, ih hm⟩
    · exact ih hm

/-- The cleared samples read 0, every other address as before (R141). -/
theorem readSample_clearSamples (a n : Nat) (m : SampleMemory) (b : Nat) :
    readSample (clearSamples a n m) b = if a ≤ b ∧ b < a + n then unlistedSample else readSample m b := by
  induction m with
  | nil => simp [clearSamples, readSample]
  | cons c m ih =>
    obtain ⟨c, w⟩ := c
    unfold clearSamples at ih ⊢
    rw [List.filter_cons]
    split
    · rename_i hc
      simp only [decide_eq_true_eq] at hc
      rw [readSample]
      by_cases hcb : c = b
      · rw [if_pos hcb, if_neg (by omega), readSample, if_pos hcb]
      · rw [if_neg hcb, ih, readSample, if_neg hcb]
    · rename_i hc
      simp only [decide_eq_true_eq] at hc
      rw [ih, readSample]
      by_cases hcb : c = b
      · rw [if_pos hcb, if_pos (by omega), if_pos (by omega)]
      · rw [if_neg hcb]

end Sys2Proof.Machine
end

