-- ==== Sys2Proof/Laws/Clips.lean ====
section
/-! SUPPORT. The clip requests (R140 to R142). -/

namespace Sys2Proof.Machine

theorem beyond_iff (a n : Nat) : beyondMemory a n = true ↔ 64 < n ∨ 63 < a ∨ 64 < a + n := by
  unfold beyondMemory; rw [decide_eq_true_eq]

theorem onZae_blocks_clip (f : Zae → Vector BlockOwner 64) (g : Zae → SampleMemory) (s : State) (j : Nat) :
    (s.onZae fun a => { a with owners := f a, memory := g a }).clip j = s.clip j := rfl

theorem onZae_owners_clip (f : Zae → Vector BlockOwner 64) (s : State) (j : Nat) :
    (s.onZae fun a => { a with owners := f a }).clip j = s.clip j := rfl

theorem dropSamples_clip (k j : Nat) (s : State) : (dropSamples k s).clip j = s.clip j := rfl

theorem dropSamples_memory (k : Nat) (s : State) : (dropSamples k s).zae.memory = clearSamples (s.clip k).base (s.clip k).room s.zae.memory := rfl

theorem setClip_memory (k : Nat) (c : ClipRec) (s : State) : (setClip k c s).zae.memory = s.zae.memory := rfl

theorem onZae_blocks_memory (f : Zae → Vector BlockOwner 64) (g : Zae → SampleMemory) (s : State) :
    (s.onZae fun a => { a with owners := f a, memory := g a }).zae.memory = g s.zae := rfl

theorem onZae_owners_memory (f : Zae → Vector BlockOwner 64) (s : State) :
    (s.onZae fun a => { a with owners := f a }).zae.memory = s.zae.memory := rfl

theorem onZae_blocks_owners (f : Zae → Vector BlockOwner 64) (g : Zae → SampleMemory) (s : State) :
    (s.onZae fun a => { a with owners := f a, memory := g a }).zae.owners = f s.zae := rfl

theorem onZae_owners_owners (f : Zae → Vector BlockOwner 64) (s : State) :
    (s.onZae fun a => { a with owners := f a }).zae.owners = f s.zae := rfl

theorem setClip_owners (k : Nat) (c : ClipRec) (s : State) : (setClip k c s).zae.owners = s.zae.owners := rfl

theorem dropSamples_owners (k : Nat) (s : State) : (dropSamples k s).zae.owners = s.zae.owners := rfl

end Sys2Proof.Machine
end

