-- ==== Sys2Proof/Laws/Voices.lean ====
section
/-! SUPPORT. Announce lists, voices and pages: what a reconsideration leaves in every zone, and the moves of the announce and page requests (R143 to R151). -/

namespace Sys2Proof.Machine

variable {go : Go}

/-- The two states differ at most in the zones' working values. -/
def ZonesOnly (s t : State) : Prop := t = { s with zae := { s.zae with zones := t.zae.zones } }

theorem ZonesOnly.set {s t : State} (h : ZonesOnly s t) (z : Nat) (x : ZoneRec) : ZonesOnly s (setZone z x t) := by
  unfold ZonesOnly at *
  show ({ t with zae := { t.zae with zones := poke t.zae.zones z x } } : State) = { s with zae := { s.zae with zones := poke t.zae.zones z x } }
  conv => lhs; rw [h]

theorem ZonesOnly.seu {s t : State} (h : ZonesOnly s t) : t.seu = s.seu := by rw [h]

theorem ZonesOnly.settings {s t : State} (h : ZonesOnly s t) : t.settings = s.settings := by rw [h]

/-- The lists and voices after a reconsideration, before pages, items and events follow. -/
def relistCore (s : State) : State :=
  zoneIndexes.foldl (fun s z => setZone z (s.withList (s.reconsidered z) (s.zone z)) s) s

theorem relist_foldl (s : State) (xs : List Nat) (hx : xs.Nodup) (w : State)
    (hw : ZonesOnly s w) (hz : ∀ z ∈ xs, w.zone z = s.zone z) :
    let t := xs.foldl (fun s z => setZone z (s.withList (s.reconsidered z) (s.zone z)) s) w
    ZonesOnly s t ∧
      ∀ z, t.zone z = if z ∈ xs ∧ z < 8 then s.withList (s.reconsidered z) (s.zone z) else w.zone z := by
  induction xs generalizing w with
  | nil => exact ⟨hw, fun z => by simp⟩
  | cons x xs ih =>
    obtain ⟨h1, h2⟩ := List.nodup_cons.mp hx
    have e : w.withList (w.reconsidered x) (w.zone x) = s.withList (s.reconsidered x) (s.zone x) := by
      have q := hz x List.mem_cons_self
      have q2 : w.reconsidered x = s.reconsidered x := by
        have k1 : ∀ m, w.announces x m = s.announces x m := fun m => by
          unfold State.announces; rw [q]; rw [hw]; rfl
        unfold State.reconsidered
        rw [q, show w.announces x = s.announces x from funext k1]
        rw [show w.hsc = s.hsc by rw [hw]]
      rw [q, q2]; rw [hw]; rfl
    have k := ih h2 (setZone x (w.withList (w.reconsidered x) (w.zone x)) w) (hw.set _ _) (fun z hzz => by
      rw [setZone_zone, if_neg]
      · exact hz z (List.mem_cons_of_mem _ hzz)
      · rintro ⟨rfl, -⟩; exact h1 hzz)
    refine ⟨k.1, fun z => ?_⟩
    refine (k.2 z).trans ?_
    rw [setZone_zone, e]
    by_cases a : z ∈ xs
    · by_cases b : z < 8
      · rw [if_pos ⟨a, b⟩, if_pos ⟨List.mem_cons_of_mem _ a, b⟩]
      · rw [if_neg (fun q : z ∈ xs ∧ z < 8 => b q.2), if_neg (fun q : x = z ∧ x < 8 => b (q.1 ▸ q.2)), if_neg (fun q : z ∈ x :: xs ∧ z < 8 => b q.2)]
    · rw [if_neg (fun q => a q.1)]
      by_cases c : x = z
      · subst c
        by_cases b : x < 8
        · rw [if_pos ⟨rfl, b⟩, if_pos ⟨List.mem_cons_self, b⟩]
        · rw [if_neg (fun q => b q.2), if_neg (fun q => b q.2)]
      · rw [if_neg (fun q => c q.1), if_neg]
        rintro ⟨q, -⟩
        rcases List.mem_cons.mp q with q | q
        · exact c q.symm
        · exact a q

theorem relistCore_eq (s : State) : ZonesOnly s (relistCore s) :=
  (relist_foldl s zoneIndexes (by decide) s rfl fun _ _ => rfl).1

theorem relistCore_zone (s : State) (z : Nat) (hz : z < 8) : (relistCore s).zone z = s.withList (s.reconsidered z) (s.zone z) := by
  have k := (relist_foldl s zoneIndexes (by decide) s rfl fun _ _ => rfl).2 z
  rw [if_pos ⟨by unfold zoneIndexes; exact List.mem_range.mpr hz, hz⟩] at k
  exact k

theorem withList_list (s : State) (new : List MachineId) (x : ZoneRec) : (s.withList new x).list = new := by
  unfold State.withList
  dsimp only
  split
  · rename_i h; rfl
  · rfl
  · rfl
  · split <;> rfl

/-- The zones of a page that is cut where `f` holds. -/
theorem cutPage_spec (f : Nat → Bool) (s : State) (p : PageRec) (hp : s.zae.page = some p) :
    let goes := fun z : Nat => peek p.playing z && f z
    (cutPage f s) = { s with zae := { s.zae with
      zones := (cutPage f s).zae.zones
      page := some { p with
        playing := Vector.ofFn fun z : Fin 8 => peek p.playing z.val && !goes z.val
        cut := Vector.ofFn fun z : Fin 8 => peek p.cut z.val || goes z.val } } } ∧
    ∀ z, (cutPage f s).zone z = if z < 8 ∧ goes z = true ∧ (s.zone z).voice = .page then (s.zone z).silenced else s.zone z := by
  dsimp only
  have key : ∀ (xs : List Nat) (w : State), xs.Nodup → ZonesOnly s w → (∀ z ∈ xs, w.zone z = s.zone z) →
      let t := xs.foldl (fun s z => if (peek p.playing z && f z) && (s.zone z).voice == .page then setZone z (s.zone z).silenced s else s) w
      ZonesOnly s t ∧ ∀ z, t.zone z = if z ∈ xs ∧ z < 8 ∧ (peek p.playing z && f z) = true ∧ (s.zone z).voice = .page then (s.zone z).silenced else w.zone z := by
    intro xs
    induction xs with
    | nil => exact fun w _ h _ => ⟨h, fun z => by simp⟩
    | cons x xs ih =>
      intro w hx hw hz
      obtain ⟨h1, h2⟩ := List.nodup_cons.mp hx
      have q := hz x List.mem_cons_self
      let w' := if (peek p.playing x && f x) && (w.zone x).voice == .page then setZone x (w.zone x).silenced w else w
      have e1 : ZonesOnly s w' := by
        simp only [w']
        split
        · exact hw.set _ _
        · exact hw
      have e2 : ∀ z, w'.zone z = if x = z ∧ z < 8 ∧ (peek p.playing z && f z) = true ∧ (s.zone z).voice = .page then (s.zone z).silenced else w.zone z := by
        intro z
        simp only [w']
        rw [q]
        by_cases g : ((peek p.playing x && f x) && (s.zone x).voice == .page) = true
        · rw [if_pos g, setZone_zone]
          simp only [Bool.and_eq_true, beq_iff_eq] at g
          by_cases c : x = z
          · subst c
            by_cases b : x < 8
            · rw [if_pos ⟨rfl, b⟩, if_pos ⟨rfl, b, by rw [Bool.and_eq_true]; exact g.1, g.2⟩]
            · rw [if_neg (fun u => b u.2), if_neg (fun u => b u.2.1)]
          · rw [if_neg (fun u => c u.1), if_neg (fun u => c u.1)]
        · rw [if_neg g, if_neg]
          rintro ⟨rfl, -, u, v⟩
          exact g (by rw [u, v]; rfl)
      have k := ih w' h2 e1 (fun z hzz => by
        rw [e2, if_neg]
        · exact hz z (List.mem_cons_of_mem _ hzz)
        · rintro ⟨rfl, -⟩; exact h1 hzz)
      refine ⟨k.1, fun z => (k.2 z).trans ?_⟩
      rw [e2]
      by_cases c : x = z
      · subst c
        rw [if_neg (fun u => h1 u.1)]
        by_cases g : x < 8 ∧ (peek p.playing x && f x) = true ∧ (s.zone x).voice = .page
        · rw [if_pos ⟨rfl, g⟩, if_pos ⟨List.mem_cons_self, g⟩]
        · rw [if_neg (fun u => g u.2), if_neg (fun u => g u.2)]
      · by_cases a : z ∈ xs
        · by_cases g : z < 8 ∧ (peek p.playing z && f z) = true ∧ (s.zone z).voice = .page
          · rw [if_pos ⟨a, g⟩, if_pos ⟨List.mem_cons_of_mem _ a, g⟩]
          · rw [if_neg (fun u => g u.2), if_neg (fun u => g u.2), if_neg (fun u => g u.2)]
        · rw [if_neg (fun u => a u.1), if_neg (fun u => c u.1), if_neg]
          rintro ⟨u, -⟩
          rcases List.mem_cons.mp u with u | u
          · exact c u.symm
          · exact a u
  have k := key zoneIndexes s (by decide) rfl (fun _ _ => rfl)
  have e : cutPage f s = (zoneIndexes.foldl (fun s z => if (peek p.playing z && f z) && (s.zone z).voice == .page then setZone z (s.zone z).silenced s else s) s).onZae fun a => { a with page := some { p with
        playing := Vector.ofFn fun z : Fin 8 => peek p.playing z.val && !(peek p.playing z && f z)
        cut := Vector.ofFn fun z : Fin 8 => peek p.cut z.val || (peek p.playing z && f z) } } := by
    unfold cutPage; rw [hp]
  rw [e]
  generalize (zoneIndexes.foldl (fun s z => if (peek p.playing z && f z) && (s.zone z).voice == .page then setZone z (s.zone z).silenced s else s) s) = t at k ⊢
  refine ⟨?_, fun z => ?_⟩
  · show ({ t with zae := _ } : State) = _
    have k1 := k.1
    unfold ZonesOnly at k1
    conv => lhs; rw [k1]
    rfl
  · refine (k.2 z).trans ?_
    by_cases b : z < 8
    · simp [zoneIndexes, b]
    · simp [b]

theorem cutPage_noPage (f : Nat → Bool) (s : State) (hp : s.zae.page = none) : cutPage f s = s := by
  unfold cutPage; rw [hp]

/-- The cut in a zone without a list (R145, R151). -/
theorem cutPage_empty {f : Nat → Bool} {r s : State} {z : Nat} (hz : z < 8) (rz : r.zone z = s.zone z) (rp : r.zae.page = s.zae.page)
    (hf : f z = ((s.zone z).quiet && !(s.zoneConfig z).safety)) :
    let cut := ((s.zone z).voice = .page ∧ ∃ p, s.zae.page = some p ∧ peek p.playing z = true) ∧
      (s.zone z).quiet = true ∧ (s.zoneConfig z).safety = false
    (cut → (cutPage f r).zone z = (s.zone z).silenced) ∧ (¬ cut → (cutPage f r).zone z = s.zone z) := by
  dsimp only
  cases hp : s.zae.page with
  | none =>
    rw [cutPage_noPage _ _ (rp.trans hp)]
    exact ⟨fun ⟨⟨_, _, q, _⟩, _⟩ => (by cases q), fun _ => rz⟩
  | some p =>
    have k := (cutPage_spec f r p (rp.trans hp)).2 z
    simp only [rz, hf] at k
    rw [k]
    refine ⟨fun ⟨⟨g1, p', g2, g3⟩, g4, g5⟩ => ?_, fun g => ?_⟩
    · injection g2 with g2
      rw [if_pos ⟨hz, by rw [g2, g3, g4, g5]; rfl, g1⟩]
    · rw [if_neg]
      rintro ⟨-, g2, g3⟩
      rw [Bool.and_eq_true, Bool.and_eq_true] at g2
      exact g ⟨⟨g3, p, rfl, g2.1⟩, g2.2.1, by simpa using g2.2.2⟩

variable {go : Go}

theorem silent_zae {s t : State} (h : Silent s t) : t.zae = s.zae := by rw [h]

theorem endPage_spec (hgo : Quiet go) {s : State} (h : NoHostEntries s) :
    (endPageIfDone go s).zae = { s.zae with page := if (s.zae.page.any fun p => !p.playing.any id) then none else s.zae.page } := by
  unfold endPageIfDone
  split
  · rename_i e; rw [e]; simp only [Option.any_none, Bool.false_eq_true, if_false]; rw [← e]
  · rename_i p e
    split
    · rename_i k; rw [e]; simp only [Option.any_some, k, Bool.not_true, Bool.false_eq_true, if_false]; rw [← e]
    · rename_i k
      rw [e]; simp only [Option.any_some, k, Bool.not_false, if_true]
      exact silent_zae (silent_publish hgo (s := (queueEvent (.pageEnded p.clip p.completed p.cut) s).onZae fun a => { a with page := none }) (h.of_settings rfl) (r := Item.paging) (by decide))

theorem relist_item (z : Nat) (hz : z < 8) : Plain (Item.announcing z) ∧ (Item.announcing z).exists = true ∧ (Item.announcing z).index < 144 := by
  have : ∀ k : Fin 8, Item.announcing k.val ∉ builtInItems ∧ (Item.announcing k.val).exists = true ∧ (Item.announcing k.val).index < 144 := by decide
  exact this ⟨z, hz⟩

theorem announcing_now {s : State} {z : Nat} (hz : z < 8) : s.itemNow (Item.announcing z) = !(s.zone z).list.isEmpty := by
  show (if z < 8 then !(s.zone z).list.isEmpty else (s.zone (z - 8)).quiet) = _
  rw [if_pos hz]

/-- Each of the items published, distinct from the later ones, has its owner's value as it stands. -/
theorem item_publishAll_zone (hgo : Quiet go) (rs : List ItemRef) (hr : ∀ r ∈ rs, r ∉ builtInItems ∧ r.exists = true) (hn : rs.Nodup) {s : State} (h : NoHostEntries s)
    (q : ItemRef) (hq : q ∈ rs) (hv : ∀ t, Silent s t → t.itemNow q = s.itemNow q) : (publishAll go rs s).item q = s.itemNow q := by
  induction rs generalizing s with
  | nil => cases hq
  | cons r rs ih =>
    obtain ⟨h1, h2⟩ := List.nodup_cons.mp hn
    have k := silent_publish hgo h (hr r List.mem_cons_self).1
    show (publishAll go rs (publish go s r)).item q = _
    rcases List.mem_cons.mp hq with e | e
    · subst e
      rw [item_publishAll_other hgo (h.of_settings (by rw [k])) rs (fun x hx => hr x (List.mem_cons_of_mem _ hx)) q h1,
        item_publish hgo h (hr q List.mem_cons_self).1 (hr q List.mem_cons_self).2, if_pos rfl]
    · rw [ih (fun x hx => hr x (List.mem_cons_of_mem _ hx)) h2 (h.of_settings (by rw [k])) e, hv _ k]
      intro t ht
      rw [hv _ (k.trans ht), hv _ k]

/-- A page that no zone plays any longer ends with its event (R151). -/
theorem endPage_event (hcas : Cascades go) {s : State} {p : PageRec} (hp : s.zae.page = some p) (hd : p.playing.any id = false)
    (hl : (endPageIfDone go s).seu.events.length < 32) :
    .pageEnded p.clip p.completed p.cut ∈ (endPageIfDone go s).seu.events.map Event.kind := by
  have e : endPageIfDone go s = publish go ((queueEvent (.pageEnded p.clip p.completed p.cut) s).onZae fun a => { a with page := none }) Item.paging := by
    unfold endPageIfDone
    rw [hp]
    exact if_neg (by rw [hd]; decide)
  rw [e] at hl ⊢
  have k : Cascade ((queueEvent (.pageEnded p.clip p.completed p.cut) s).onZae fun a => { a with page := none }) _ :=
    cascade_publish hcas Item.paging (.refl _)
  exact kind_queued _ s _ k.events hl

/-- What reconsidering the lists does, said once (R144, R145, R148, R151). -/
theorem relisted_reconsiderLists (hgo : Quiet go) (hcas : Cascades go) {s : State} (hn : NoHostEntries s) : Relisted s (reconsiderLists go s) := by
  have r1 := relistCore_eq s
  have r2 := relistCore_zone s
  have eR : reconsiderLists go s = endPageIfDone go (publishAll go (zoneIndexes.map Item.announcing ++ [Item.toneAny]) (cutPage (relistCore s).cutsPage (relistCore s))) := rfl
  generalize relistCore s = r at r1 r2 eR
  have c0 : Calm r (cutPage r.cutsPage r) := calm_cutPage _ _
  have rset : r.settings = s.settings := by rw [r1]
  have rcfg : ∀ z, (r.zoneConfig z) = s.zoneConfig z := fun z => by unfold State.zoneConfig; rw [rset]
  -- the cut
  have cz : ∀ z, z < 8 → ((cutPage r.cutsPage r).zone z).list = (r.zone z).list ∧ ((r.zone z).voice ≠ .page → (cutPage r.cutsPage r).zone z = r.zone z) ∧
      ((r.zone z).voice = .page → (cutPage r.cutsPage r).zone z = r.zone z ∨ (cutPage r.cutsPage r).zone z = (r.zone z).silenced) := by
    intro z hz
    cases hp : r.zae.page with
    | none => rw [cutPage_noPage _ _ hp]; exact ⟨rfl, fun _ => rfl, fun _ => .inl rfl⟩
    | some p =>
      have k := (cutPage_spec r.cutsPage r p hp).2 z
      refine ⟨?_, fun g => ?_, fun g => ?_⟩
      · rw [k]; split <;> rfl
      · rw [k, if_neg (fun u => g u.2.2)]
      · rw [k]; split
        · exact .inr rfl
        · exact .inl rfl
  have czae : ∀ p, r.zae.page = some p → (cutPage r.cutsPage r).zae.page = some { p with
        playing := Vector.ofFn fun z : Fin 8 => peek p.playing z.val && !(peek p.playing z.val && r.cutsPage z.val)
        cut := Vector.ofFn fun z : Fin 8 => peek p.cut z.val || (peek p.playing z.val && r.cutsPage z.val) } := fun p hp => by
    have k := (cutPage_spec r.cutsPage r p hp).1
    exact (congrArg (fun x : State => x.zae.page) k)
  have cnone : r.zae.page = none → (cutPage r.cutsPage r).zae.page = none := fun hp => by rw [cutPage_noPage _ _ hp, hp]
  have cem := fun z hz rz hf => cutPage_empty (f := r.cutsPage) (r := r) (s := s) (z := z) hz rz (by rw [r1]) hf
  have cothers : (cutPage r.cutsPage r).zae.sources = s.zae.sources ∧ (cutPage r.cutsPage r).zae.owners = s.zae.owners ∧ (cutPage r.cutsPage r).zae.memory = s.zae.memory ∧ (cutPage r.cutsPage r).zae.clips = s.zae.clips := by
    cases hp : r.zae.page with
    | none => rw [cutPage_noPage _ _ hp, r1]; exact ⟨rfl, rfl, rfl, rfl⟩
    | some p =>
      have k := (cutPage_spec r.cutsPage r p hp).1
      rw [k]; rw [r1]; exact ⟨rfl, rfl, rfl, rfl⟩
  have csame : ∀ z, z < 8 → SameZone (r.zone z) ((cutPage r.cutsPage r).zone z) := fun z hz => by
    by_cases g : (r.zone z).voice = .page
    · rcases (cz z hz).2.2 g with e | e <;> rw [e] <;> exact ⟨rfl, rfl, rfl, rfl⟩
    · rw [(cz z hz).2.1 g]; exact ⟨rfl, rfl, rfl, rfl⟩
  generalize cutPage r.cutsPage r = c at c0 cz czae cnone eR cothers csame cem
  have nc : NoHostEntries c := hn.of_settings (c0.settings.trans rset)
  have items : ∀ x ∈ zoneIndexes.map Item.announcing ++ [Item.toneAny], x ∉ builtInItems ∧ x.exists = true := by decide
  have pa := silent_publishAll hgo nc (zoneIndexes.map Item.announcing ++ [Item.toneAny]) (fun x hx => (items x hx).1)
  have pi : ∀ z, z < 8 → (publishAll go (zoneIndexes.map Item.announcing ++ [Item.toneAny]) c).item (Item.announcing z) = !(c.zone z).list.isEmpty := fun z hz => by
    rw [item_publishAll_zone hgo _ items (by decide) nc]
    · exact announcing_now hz
    · refine List.mem_append_left _ (List.mem_map_of_mem (List.mem_range.mpr hz))
    · intro t ht; rw [announcing_now hz, announcing_now hz]; unfold State.zone; rw [silent_zae ht]
  generalize publishAll go (zoneIndexes.map Item.announcing ++ [Item.toneAny]) c = q at pa pi eR
  have nq : NoHostEntries q := nc.of_settings (by rw [pa])
  have ez := endPage_spec hgo nq
  have ec := calm_endPageIfDone hgo nq
  have ei : ∀ z, z < 8 → (endPageIfDone go q).item (Item.announcing z) = q.item (Item.announcing z) := fun z hz => by
    unfold endPageIfDone
    split
    · rfl
    · split
      · rfl
      · rename_i p _ _
        have : NoHostEntries ((queueEvent (.pageEnded p.clip p.completed p.cut) q).onZae fun a => { a with page := none }) := nq.of_settings rfl
        rw [item_publish hgo this (by unfold Plain; decide) (by decide), if_neg]
        · rfl
        · intro e
          have := congrArg ItemRef.group e
          revert this; show Group.zone ≠ Group.aud; decide
  have ee := fun p hp hd hl => endPage_event hcas (s := q) (p := p) hp hd hl
  rw [eR]
  generalize endPageIfDone go q = t at ez ec ei ee
  have qz : q.zae = c.zae := silent_zae pa
  have tz : ∀ z, t.zone z = c.zone z := fun z => by unfold State.zone; rw [ez, qz]
  have tl : ∀ z, z < 8 → (t.zone z).list = s.reconsidered z := fun z hz => by rw [tz, (cz z hz).1, r2 z hz, withList_list]
  have tp : t.zae.page = if (c.zae.page.any fun p => !p.playing.any id) then none else c.zae.page := by rw [ez, qz]
  have voice : ∀ z, z < 8 → (s.withList (s.reconsidered z) (s.zone z)).voice ≠ .page → t.zone z = s.withList (s.reconsidered z) (s.zone z) := fun z hz g => by
    rw [tz, (cz z hz).2.1 (by rw [r2 z hz]; exact g), r2 z hz]
  have hcut : ∀ z, z < 8 → r.cutsPage z = (!(t.zone z).list.isEmpty || ((s.zone z).quiet && !(s.zoneConfig z).safety)) := fun z hz => by
    unfold State.cutsPage
    rw [tl z hz, r2 z hz, withList_list, rcfg, (sameZone_withList s _ _).1]
  refine ⟨fun z hz => by dsimp only; rw [tl z hz]; rfl, fun z m rest hz hl hh => ?_, fun z m rest hz hl hh hv => ?_, fun z hz hl hh => ?_, fun z hz hl hh => ?_, fun z hz => ?_, fun hp => ?_, fun p hp => ?_, fun p hp hd hlen => ?_, fun z hz => ?_, ?_⟩
  · rw [tl z hz] at hl
    have e : s.withList (m :: rest) (s.zone z) = s.beginPlay m { s.zone z with list := m :: rest } := by
      unfold State.withList
      cases ho : (s.zone z).list with
      | nil => rfl
      | cons o os =>
        rw [ho] at hh
        have : o ≠ m := fun e => hh (by rw [e]; rfl)
        show (if o = m then _ else _) = _
        rw [if_neg this]
    have v := voice z hz (by rw [hl, e]; exact nofun)
    rw [v, hl, e]
    refine ⟨rfl, rfl, fun k h1 h2 => ?_, fun h1 => ?_⟩
    · show s.soundOf m = _; unfold State.soundOf; rw [h1]; dsimp only; rw [if_pos h2]
    · show s.soundOf m = _; unfold State.soundOf; split
      · rename_i k h2; rw [if_neg (h1 k h2)]
      · rfl
  · rw [tl z hz] at hl
    have e : s.withList (m :: rest) (s.zone z) = { s.zone z with list := m :: rest } := by
      unfold State.withList
      cases ho : (s.zone z).list with
      | nil => rw [ho] at hh; cases hh
      | cons o os =>
        rw [ho] at hh
        have : o = m := by injection hh
        show (if o = m then _ else _) = _
        rw [if_pos this]
    have v := voice z hz (by rw [hl, e]; exact hv)
    rw [v, hl, e]; exact ⟨rfl, rfl, rfl, rfl⟩
  · rw [tl z hz] at hl
    have e : s.withList [] (s.zone z) = ({ s.zone z with list := [] } : ZoneRec).silenced := by
      unfold State.withList
      cases ho : (s.zone z).list with
      | nil => exact absurd ho hh
      | cons o os => rfl
    rw [voice z hz (by rw [hl, e]; exact nofun), hl, e]; rfl
  · have ew : s.withList (s.reconsidered z) (s.zone z) = s.zone z := by
      rw [← tl z hz, hl]
      unfold State.withList
      rw [hh]
      show ({ s.zone z with list := [] } : ZoneRec) = s.zone z
      rw [← hh]
    have hcz := hcut z hz
    rw [hl] at hcz
    dsimp only
    rw [tz]
    exact cem z hz ((r2 z hz).trans ew) hcz
  · have k1 := csame z hz
    have k2 := sameZone_withList s (s.reconsidered z) (s.zone z)
    rw [← r2 z hz] at k2
    rw [tz]
    exact ⟨k1.1.trans k2.1, k1.2.1.trans k2.2.1, k1.2.2.1.trans k2.2.2.1, k1.2.2.2.trans k2.2.2.2⟩
  · rw [tp, cnone (by rw [r1]; exact hp)]; rfl
  · have hr : r.zae.page = some p := by rw [r1]; exact hp
    rw [tp, czae p hr]
    have hc : ∀ z : Fin 8, r.cutsPage z.val = (!(t.zone z.val).list.isEmpty || ((s.zone z.val).quiet && !(s.zoneConfig z.val).safety)) :=
      fun z => hcut z.val z.isLt
    simp only [hc, Option.any_some]
    split
    · rename_i g; rw [if_neg]; rw [Bool.not_eq_true'] at g; rw [g]; decide
    · rename_i g; rw [if_pos]; simpa using g
  · have hr : r.zae.page = some p := by rw [r1]; exact hp
    have hq := czae p hr
    rw [← qz] at hq
    have hd' : q.zae.page.any (fun p => !p.playing.any id) = true := by
      rw [tp, ← qz] at hd
      rw [hq] at hd ⊢
      simp only [Option.any_some] at hd ⊢
      split at hd
      · assumption
      · cases hd
    rw [hq, Option.any_some, Bool.not_eq_true'] at hd'
    have := ee _ hq hd' hlen
    have hcc : ∀ z : Fin 8, r.cutsPage z.val = (!(t.zone z.val).list.isEmpty || ((s.zone z.val).quiet && !(s.zoneConfig z.val).safety)) :=
      fun z => hcut z.val z.isLt
    simp only [hcc] at this
    exact this
  · rw [ei z hz, pi z hz, tz]
  · have qc : Calm r q := c0.trans pa.calm
    have k := qc.trans ec
    refine ⟨k.settings.trans rset, ?_, ?_, ?_, ?_, k.mc.trans (by rw [r1]), k.hsc.trans (by rw [r1]), k.sfe.trans (by rw [r1]), k.siq.trans (by rw [r1]), k.fis.trans (by rw [r1]), k.pins.trans (by rw [r1]), k.slp.trans (by rw [r1]), k.now.trans (by rw [r1])⟩
    · rw [ez, qz]; exact cothers.1
    · rw [ez, qz]; exact cothers.2.1
    · rw [ez, qz]; exact cothers.2.2.1
    · rw [ez, qz]; exact cothers.2.2.2

variable {go : Go}

theorem Relisted.of_silent {s t u : State} (h : Silent s t) (k : Relisted t u) : Relisted s u := by
  rw [h] at k
  exact ⟨k.list, k.plays, k.stays, k.silent, k.empty, k.kept, k.noPage, k.page, k.ended, k.announcing, k.others⟩

theorem item_endPage_other (hgo : Quiet go) {s : State} (hn : NoHostEntries s) (q : ItemRef) (hq : q ≠ Item.paging) :
    (endPageIfDone go s).item q = s.item q := by
  unfold endPageIfDone
  split
  · rfl
  · split
    · rfl
    · rename_i p _ _
      have : NoHostEntries ((queueEvent (.pageEnded p.clip p.completed p.cut) s).onZae fun a => { a with page := none }) := hn.of_settings rfl
      rw [item_publish hgo this (by unfold Plain; decide) (by decide), if_neg hq]
      rfl

theorem item_cutPage (f : Nat → Bool) (s : State) (q : ItemRef) : (cutPage f s).item q = s.item q := by
  cases hp : s.zae.page with
  | none => rw [cutPage_noPage _ _ hp]
  | some p => rw [(cutPage_spec f s p hp).1]; rfl

theorem reconsiderLists_eq (s : State) : reconsiderLists go s =
    endPageIfDone go (publishAll go (zoneIndexes.map Item.announcing ++ [Item.toneAny]) (cutPage (relistCore s).cutsPage (relistCore s))) := rfl

theorem item_relistCore (s : State) (q : ItemRef) : (relistCore s).item q = s.item q := by
  unfold State.item
  rw [(relistCore_eq s).seu]

/-- A reconsideration of the lists sets no item but ANNOUNCING, TONE_ANY and PAGING. -/
theorem item_reconsiderLists_other (hgo : Quiet go) {s : State} (hn : NoHostEntries s) (q : ItemRef)
    (hq : q ∉ Item.paging :: (zoneIndexes.map Item.announcing ++ [Item.toneAny])) : (reconsiderLists go s).item q = s.item q := by
  have c0 : Calm (relistCore s) (cutPage (relistCore s).cutsPage (relistCore s)) := calm_cutPage _ _
  have rset : (relistCore s).settings = s.settings := (relistCore_eq s).settings
  have ic := item_cutPage (relistCore s).cutsPage (relistCore s) q
  rw [item_relistCore] at ic
  rw [reconsiderLists_eq]
  generalize cutPage (relistCore s).cutsPage (relistCore s) = c at c0 ic
  have nc : NoHostEntries c := hn.of_settings (c0.settings.trans rset)
  have items : ∀ x ∈ zoneIndexes.map Item.announcing ++ [Item.toneAny], x ∉ builtInItems ∧ x.exists = true := by decide
  have pa := silent_publishAll hgo nc (zoneIndexes.map Item.announcing ++ [Item.toneAny]) (fun x hx => (items x hx).1)
  rw [item_endPage_other hgo (nc.of_settings (by rw [pa])) q (fun e => hq (e ▸ List.mem_cons_self)),
    item_publishAll_other hgo nc _ items q (fun e => hq (List.mem_cons_of_mem _ e)), ic]

/-- The two states differ at most in the sources and the status and event unit. -/
def SourcesOnly (s t : State) : Prop := t = { s with zae := { s.zae with sources := t.zae.sources }, seu := t.seu }

theorem SourcesOnly.trans {s t u : State} (h : SourcesOnly s t) (k : SourcesOnly t u) : SourcesOnly s u := by
  unfold SourcesOnly at *
  rw [k, h]

theorem Silent.sourcesOnly {s t : State} (h : Silent s t) : SourcesOnly s t := by
  unfold Silent at h
  unfold SourcesOnly
  rw [h]

theorem sourcesOnly_set (n : Nat) (x : SourceRec) (s : State) : SourcesOnly s (setSource n x s) := rfl

variable {go : Go}

/-- The zones after a RepeatInterval of machine `m` has been written. -/
theorem repeat_foldl (m : MachineId) (s : State) (xs : List Nat) (hx : xs.Nodup) (w : State) (hw : ZonesOnly s w) (hz : ∀ z ∈ xs, w.zone z = s.zone z) :
    let t := xs.foldl (fun s z => setZone z (s.repeatRewritten m (s.zone z)) s) w
    ZonesOnly s t ∧ ∀ z, t.zone z = if z ∈ xs ∧ z < 8 then s.repeatRewritten m (s.zone z) else w.zone z := by
  induction xs generalizing w with
  | nil => exact ⟨hw, fun z => by simp⟩
  | cons x xs ih =>
    obtain ⟨h1, h2⟩ := List.nodup_cons.mp hx
    have e : w.repeatRewritten m (w.zone x) = s.repeatRewritten m (s.zone x) := by
      rw [hz x List.mem_cons_self]
      unfold ZonesOnly at hw
      rw [hw]; rfl
    have k := ih h2 (setZone x (w.repeatRewritten m (w.zone x)) w) (hw.set _ _) (fun z hzz => by
      rw [setZone_zone, if_neg]
      · exact hz z (List.mem_cons_of_mem _ hzz)
      · rintro ⟨rfl, -⟩; exact h1 hzz)
    refine ⟨k.1, fun z => ?_⟩
    refine (k.2 z).trans ?_
    rw [setZone_zone, e]
    by_cases a : z ∈ xs
    · by_cases b : z < 8
      · rw [if_pos ⟨a, b⟩, if_pos ⟨List.mem_cons_of_mem _ a, b⟩]
      · rw [if_neg (fun q : z ∈ xs ∧ z < 8 => b q.2), if_neg (fun q : x = z ∧ x < 8 => b (q.1 ▸ q.2)), if_neg (fun q : z ∈ x :: xs ∧ z < 8 => b q.2)]
    · rw [if_neg (fun q => a q.1)]
      by_cases c : x = z
      · subst c
        by_cases b : x < 8
        · rw [if_pos ⟨rfl, b⟩, if_pos ⟨List.mem_cons_self, b⟩]
        · rw [if_neg (fun q => b q.2), if_neg (fun q => b q.2)]
      · rw [if_neg (fun q => c q.1), if_neg]
        rintro ⟨q, -⟩
        rcases List.mem_cons.mp q with q | q
        · exact c q.symm
        · exact a q

theorem sameZone_repeatRewritten (s : State) (m : MachineId) (x : ZoneRec) : SameZone x (s.repeatRewritten m x) := by
  unfold State.repeatRewritten State.beginPlay
  repeat' split
  all_goals exact ⟨rfl, rfl, rfl, rfl⟩

theorem cascade_rewritten {a s : State} (m : MachineId) (h : Cascade a s) :
    Cascade a (zoneIndexes.foldl (fun s z => setZone z (s.repeatRewritten m (s.zone z)) s) s) :=
  cascade_foldl _ (fun {t} z _ ht => cascade_setZone z _ (sameZone_repeatRewritten _ _ _) ht) h

theorem ZonesOnly.parts {s t : State} (h : ZonesOnly s t) : t.mc = s.mc ∧ t.hsc = s.hsc ∧ t.zae.page = s.zae.page := by rw [h]; exact ⟨rfl, rfl, rfl⟩

variable {go : Go}

theorem paging_plain : Item.paging ∉ builtInItems ∧ Item.paging.exists = true := by decide

theorem setVoice_foldl (f : Nat → Bool) (s : State) (xs : List Nat) (hx : xs.Nodup) (w : State) (hw : ZonesOnly s w) (hz : ∀ z ∈ xs, w.zone z = s.zone z) :
    let t := xs.foldl (fun s z => if f z = true then setZone z { s.zone z with voice := .page, place := 0, since := 0 } s else s) w
    ZonesOnly s t ∧ ∀ z, t.zone z = if z ∈ xs ∧ z < 8 ∧ f z = true then { s.zone z with voice := .page, place := 0, since := 0 } else w.zone z := by
  induction xs generalizing w with
  | nil => exact ⟨hw, fun z => by simp⟩
  | cons x xs ih =>
    obtain ⟨h1, h2⟩ := List.nodup_cons.mp hx
    let y := if f x = true then setZone x { w.zone x with voice := .page, place := 0, since := 0 } w else w
    have e1 : ZonesOnly s y := by
      simp only [y]; split
      · exact hw.set _ _
      · exact hw
    have e2 : ∀ z, y.zone z = if x = z ∧ z < 8 ∧ f z = true then { s.zone z with voice := .page, place := 0, since := 0 } else w.zone z := fun z => by
      simp only [y]
      by_cases g : f x = true
      · rw [if_pos g, setZone_zone, hz x List.mem_cons_self]
        by_cases c : x = z
        · subst c
          by_cases b : x < 8
          · rw [if_pos ⟨rfl, b⟩, if_pos ⟨rfl, b, g⟩]
          · rw [if_neg (fun u => b u.2), if_neg (fun u => b u.2.1)]
        · rw [if_neg (fun u => c u.1), if_neg (fun u => c u.1)]
      · rw [if_neg g, if_neg]
        rintro ⟨rfl, -, u⟩; exact g u
    have k := ih h2 y e1 (fun z hzz => by
      rw [e2, if_neg]
      · exact hz z (List.mem_cons_of_mem _ hzz)
      · rintro ⟨rfl, -⟩; exact h1 hzz)
    refine ⟨k.1, fun z => (k.2 z).trans ?_⟩
    rw [e2]
    by_cases a : z ∈ xs
    · by_cases g : z < 8 ∧ f z = true
      · rw [if_pos ⟨a, g⟩, if_pos ⟨List.mem_cons_of_mem _ a, g⟩]
      · rw [if_neg (fun u : z ∈ xs ∧ _ => g u.2), if_neg (fun u : x = z ∧ _ => g u.2), if_neg (fun u : z ∈ x :: xs ∧ _ => g u.2)]
    · rw [if_neg (fun u => a u.1)]
      by_cases c : x = z
      · subst c
        by_cases g : x < 8 ∧ f x = true
        · rw [if_pos ⟨rfl, g⟩, if_pos ⟨List.mem_cons_self, g⟩]
        · rw [if_neg (fun u => g u.2), if_neg (fun u => g u.2)]
      · rw [if_neg (fun u => c u.1), if_neg]
        rintro ⟨u, -⟩
        rcases List.mem_cons.mp u with u | u
        · exact c u.symm
        · exact a u

/-- Zones, page and the status and event unit. -/
def VoicesOnly (s t : State) : Prop := t = { s with zae := { s.zae with zones := t.zae.zones, page := t.zae.page }, seu := t.seu }

theorem VoicesOnly.trans {s t u : State} (h : VoicesOnly s t) (k : VoicesOnly t u) : VoicesOnly s u := by
  unfold VoicesOnly at *; rw [k, h]

theorem Silent.voicesOnly {s t : State} (h : Silent s t) : VoicesOnly s t := by
  unfold Silent at h; unfold VoicesOnly; rw [h]

theorem ZonesOnly.voicesOnly {s t : State} (h : ZonesOnly s t) : VoicesOnly s t := by
  unfold ZonesOnly at h; unfold VoicesOnly; rw [h]

theorem voicesOnly_page (p : Option PageRec) (s : State) : VoicesOnly s (s.onZae fun a => { a with page := p }) := rfl

theorem voicesOnly_event (k : EventKind) (s : State) : VoicesOnly s (queueEvent k s) := rfl

theorem any_ofFn (f : Fin 8 → Bool) : (Vector.ofFn f).any id = true ↔ ∃ n, ∃ h : n < 8, f ⟨n, h⟩ = true := by
  rw [Vector.any_iff_exists]
  constructor
  · rintro ⟨n, h, k⟩; exact ⟨n, h, by simpa using k⟩
  · rintro ⟨n, h, k⟩; exact ⟨n, h, by simpa using k⟩

theorem set8_congr {f g : Nat → Bool} (h : ∀ k, k < 8 → f k = g k) : set8 f = set8 g := by
  unfold set8; rw [maskOf_congr 8 f g h]

theorem VoicesOnly.parts {s t : State} (h : VoicesOnly s t) : t.now = s.now ∧ t.settings = s.settings := by rw [h]; exact ⟨rfl, rfl⟩

end Sys2Proof.Machine
end

