-- ==== Sys2Proof/Laws/Displays.lean ====
section
/-! SUPPORT. The bar displays: what each operation of the indicator driver changes (R154 to R161). -/

namespace Sys2Proof.Machine

/-- One display has changed, and nothing else but the overlay's own state. -/
def DisplayOnly (m : MachineId) (s t : State) : Prop :=
  t = { s with ind := t.ind } ∧ (∀ k, k ≠ m → t.display k = s.display k) ∧ t.ind.flashOn = s.ind.flashOn ∧ t.ind.flashTimer = s.ind.flashTimer

theorem DisplayOnly.refl (m : MachineId) (s : State) : DisplayOnly m s s := ⟨rfl, fun _ _ => rfl, rfl, rfl⟩

theorem DisplayOnly.trans {m : MachineId} {s t u : State} (h : DisplayOnly m s t) (k : DisplayOnly m t u) : DisplayOnly m s u := by
  refine ⟨?_, fun j hj => (k.2.1 j hj).trans (h.2.1 j hj), k.2.2.1.trans h.2.2.1, k.2.2.2.trans h.2.2.2⟩
  have k1 := k.1
  rw [h.1] at k1
  exact k1

theorem displayOnly_set (m : MachineId) (d : DisplayRec) (s : State) : DisplayOnly m s (setDisplay m d s) :=
  ⟨rfl, fun k hk => by rw [setDisplay_display, if_neg (fun e => hk e.symm)], rfl, rfl⟩

theorem displayOnly_judge (m : MachineId) (s : State) : DisplayOnly m s (judgeOverlay m s) := by
  unfold judgeOverlay; dsimp only; split
  · exact .refl m s
  · exact displayOnly_set _ _ _

theorem displayOnly_ramp (m : MachineId) (s : State) : DisplayOnly m s (continueRamp m s) := by
  unfold continueRamp enterShowing; dsimp only
  repeat' split
  all_goals first | exact .refl m s | exact displayOnly_set _ _ _

theorem displayOnly_refresh (m : MachineId) (s : State) : DisplayOnly m s (refreshDisplay m s) := by
  unfold refreshDisplay
  refine DisplayOnly.trans ?_ (displayOnly_judge m _)
  split
  · exact .refl m s
  · exact displayOnly_ramp m s
  · exact displayOnly_set _ _ _

theorem displayOnly_activate (m : MachineId) (s : State) : DisplayOnly m s (activate m s) := by
  unfold activate
  split
  · exact (displayOnly_set _ _ _).trans ((displayOnly_ramp m _).trans (displayOnly_judge m _))
  · exact .refl m s
  · split
    · exact displayOnly_set _ _ _
    · exact .refl m s

section

variable {m : MachineId} {s t : State} (h : t = { s with ind := t.ind })

include h

theorem ind_chan (k : MachineId) : t.chan k = s.chan k := by rw [h]; rfl

theorem ind_params (k : MachineId) : t.displayParams k = s.displayParams k := by rw [h]; rfl

theorem ind_target (k : MachineId) : t.target k = s.target k := by rw [h]; rfl

end

/-- The overlay judged leaves state, lit count and timers alone. -/
theorem judge_fields (m : MachineId) (s : State) : ((judgeOverlay m s).display m).state = (s.display m).state ∧ ((judgeOverlay m s).display m).lit = (s.display m).lit ∧
    ((judgeOverlay m s).display m).ramp = (s.display m).ramp ∧ ((judgeOverlay m s).display m).hold = (s.display m).hold := by
  unfold judgeOverlay; dsimp only; split
  · exact ⟨rfl, rfl, rfl, rfl⟩
  · rw [setDisplay_display, if_pos rfl]; split <;> exact ⟨rfl, rfl, rfl, rfl⟩

theorem showing_fields (m : MachineId) (s : State) : (enterShowing m s).display m = { s.display m with state := .showing, lit := s.target m, ramp := none, hold := if (s.chan m).state.atRest then some (s.holdMs m) else none } := by
  unfold enterShowing; rw [setDisplay_display, if_pos rfl]

theorem atRest_iff (st : ChanState) : st.atRest = true ↔ st = .idle ∨ st = .disabled := by cases st <;> simp [ChanState.atRest]

theorem nonDecreasing_iff (xs : List Nat) : nonDecreasing xs = true ↔ xs.Pairwise (· ≤ ·) := by
  induction xs with
  | nil => simp [nonDecreasing]
  | cons x xs ih => simp [nonDecreasing, ih]

theorem rises_iff (v : Vector Nat 8) : nonDecreasing v.toList = true ↔ ∀ j k, j < k → k < 8 → peek v j ≤ peek v k := by
  rw [nonDecreasing_iff, List.pairwise_iff_getElem]
  have pk : ∀ j (h : j < 8), peek v j = v.toList[j]'(by simpa using h) := fun j h => by unfold peek; simp [h]
  constructor
  · intro h j k hjk hk
    rw [pk j (by omega), pk k hk]
    exact h j k (by simpa using (by omega : j < 8)) (by simpa using hk) hjk
  · intro h j k hj hk hjk
    have hj' : j < 8 := by simpa using hj
    have hk' : k < 8 := by simpa using hk
    have := h j k hjk hk'
    rw [pk j hj', pk k hk'] at this
    exact this

def ActSpec (v : State) (m : MachineId) (d : DisplayRec) : Prop :=
  ((v.display m).state = .off → v.target m = 0 ∨ (v.displayParams m).rampDelay = 0 → d.state = .showing ∧ d.lit = v.target m) ∧
  ((v.display m).state = .off → 0 < v.target m → 0 < (v.displayParams m).rampDelay → d.state = .ramping ∧ d.lit = 0 ∧ d.ramp = some (v.displayParams m).rampDelay) ∧
  ((v.display m).state = .ramping → d = v.display m) ∧
  ((v.display m).state = .showing → d = if (v.chan m).state = .idle ∨ (v.chan m).state = .disabled then { v.display m with hold := some ((v.displayParams m).holdTime * 1000) } else v.display m)

theorem activate_spec (m : MachineId) (v : State) : ActSpec v m ((activate m v).display m) := by
  refine ⟨fun h1 h2 => ?_, fun h1 h2 h3 => ?_, fun h1 => ?_, fun h1 => ?_⟩
  · let w := setDisplay m { v.display m with state := .ramping, lit := 0, ramp := none, hold := none } v
    have e : activate m v = judgeOverlay m (continueRamp m w) := by unfold activate; rw [h1]
    have wd : w.display m = { v.display m with state := .ramping, lit := 0, ramp := none, hold := none } := by rw [setDisplay_display, if_pos rfl]
    have ec : continueRamp m w = enterShowing m w := by
      unfold continueRamp; dsimp only
      rw [wd]; dsimp only
      by_cases c : v.target m ≤ 0
      · rw [if_pos (show w.target m ≤ 0 from c)]
      · rw [if_neg (show ¬ w.target m ≤ 0 from c), if_pos]
        rcases h2 with k | k
        · omega
        · exact k
    obtain ⟨j1, j2, -, -⟩ := judge_fields m (continueRamp m w)
    rw [e, j1, j2, ec, showing_fields]; exact ⟨rfl, rfl⟩
  · let w := setDisplay m { v.display m with state := .ramping, lit := 0, ramp := none, hold := none } v
    have e : activate m v = judgeOverlay m (continueRamp m w) := by unfold activate; rw [h1]
    have wd : w.display m = { v.display m with state := .ramping, lit := 0, ramp := none, hold := none } := by rw [setDisplay_display, if_pos rfl]
    have ec : continueRamp m w = setDisplay m { w.display m with ramp := some (v.displayParams m).rampDelay } w := by
      unfold continueRamp; dsimp only
      rw [wd]; dsimp only
      rw [if_neg (show ¬ w.target m ≤ 0 from fun k => by have : v.target m ≤ 0 := k; omega), if_neg (show ¬ (w.displayParams m).rampDelay = 0 from fun k => by have : (v.displayParams m).rampDelay = 0 := k; omega)]; rfl
    obtain ⟨j1, j2, j3, -⟩ := judge_fields m (continueRamp m w)
    rw [e, j1, j2, j3, ec, setDisplay_display, if_pos rfl, wd]; exact ⟨rfl, rfl, rfl⟩
  · unfold activate; rw [h1]
  · unfold activate; rw [h1]; dsimp only
    by_cases c : (v.chan m).state.atRest = true
    · rw [if_pos c, if_pos ((atRest_iff _).1 c), setDisplay_display, if_pos rfl]; rfl
    · rw [if_neg c, if_neg (fun e => c ((atRest_iff _).2 e))]

/-- A display action on several machines: each display takes its own, from a state that differs in other displays alone. -/
theorem display_foldl (f : MachineId → State → State) (hf : ∀ m s, DisplayOnly m s (f m s)) (ms : List MachineId) (hn : ms.Nodup) (v : State) :
    let u := ms.foldl (fun s m => f m s) v
    (u = { v with ind := u.ind } ∧ (∀ m, m ∉ ms → u.display m = v.display m) ∧ u.ind.flashOn = v.ind.flashOn ∧ u.ind.flashTimer = v.ind.flashTimer) ∧
    ∀ m, m ∈ ms → ∃ t, t = { v with ind := t.ind } ∧ t.display m = v.display m ∧ u.display m = (f m t).display m := by
  induction ms generalizing v with
  | nil => exact ⟨⟨rfl, fun _ _ => rfl, rfl, rfl⟩, nofun⟩
  | cons x xs ih =>
    obtain ⟨h1, h2⟩ := List.nodup_cons.mp hn
    obtain ⟨⟨k1, k2, k3, k4⟩, k5⟩ := ih h2 (f x v)
    have d := hf x v
    refine ⟨⟨?_, fun m hm => ?_, k3.trans d.2.2.1, k4.trans d.2.2.2⟩, fun m hm => ?_⟩
    · have tr : ∀ a b c : State, b = { a with ind := b.ind } → c = { b with ind := c.ind } → c = { a with ind := c.ind } := fun a b c p q => by
        rw [p] at q; exact q
      exact tr _ _ _ d.1 k1
    · exact (k2 m (fun e => hm (List.mem_cons_of_mem _ e))).trans (d.2.1 m (fun e => hm (e ▸ List.mem_cons_self)))
    · by_cases e : m = x
      · subst e; exact ⟨v, rfl, rfl, k2 m h1⟩
      · obtain ⟨t, t1, t2, t3⟩ := k5 m (by rcases List.mem_cons.mp hm with q | q; exact absurd q e; exact q)
        refine ⟨t, ?_, t2.trans (d.2.1 m e), t3⟩
        rw [d.1] at t1; exact t1

theorem ActSpec.transfer {v t : State} {m : MachineId} {d : DisplayRec} (h : t = { v with ind := t.ind }) (hd : t.display m = v.display m) (k : ActSpec t m d) : ActSpec v m d := by
  unfold ActSpec at *
  rw [hd, ind_chan h, ind_params h, ind_target h] at k
  exact k

theorem machinesNamed_nodup {b : Byte} {ms : List MachineId} (h : machinesNamed b = some ms) : ms.Nodup := by
  unfold machinesNamed at h
  split at h
  · injection h with h; subst h; decide
  · cases hm : machineNamed b with
    | none => rw [hm] at h; cases h
    | some m => rw [hm] at h; injection h with h; subst h; simp

end Sys2Proof.Machine
end

