-- ==== Sys2Proof/Laws/Frames.lean ====
section
/-! SUPPORT. Source frames and output frames (R123 to R133, R147). -/

namespace Sys2Proof.Machine

theorem popped_eq (x : SourceRec) : x.popped = ((match x.state, x.fifo with
    | .playing, f :: _ => f
    | _, _ => ((0, 0) : Int × Int)), (match x.state, x.fifo with
    | .playing, _ :: rest => { x with fifo := rest }
    | .playing, [] => { x with xrun := true, state := .filling }
    | _, _ => x)) := by
  unfold SourceRec.popped
  cases x.state <;> first | rfl | (cases x.fifo <;> rfl)

theorem frames_peek (s : State) (k : Nat) : peek ((s.zae.sources.map SourceRec.popped).map Prod.fst) k = (s.source k).popped.1 := by
  unfold State.source peek
  by_cases h : k < 3
  · simp [h]
  · simp [h]; rfl

theorem sources_peek (s : State) (k : Nat) (h : k < 3) : peek ((s.zae.sources.map SourceRec.popped).map Prod.snd) k = (s.source k).popped.2 := by
  unfold State.source peek
  simp [h]

theorem clampInt_eq (x : Int) : clampInt sampleMin sampleMax x = max (-8388608) (min 8388607 x) := by
  unfold clampInt sampleMin sampleMax; omega

theorem zaeFrame_zone (s : State) (z : Nat) (hz : z < 8) :
    let y := s.zoneFrame ((s.zae.sources.map SourceRec.popped).map Prod.fst) (s.zoneConfig z) (s.zone z)
    peek s.zaeFrame.zones z = match s.zae.page with
      | none => y
      | some p => if (s.clip p.clip).length ≤ p.place + 1 then y.pageCompleted else y := by
  dsimp only
  unfold State.zaeFrame
  dsimp only
  cases hp : s.zae.page with
  | none => dsimp only; rw [peek_ofFn _ _ hz]
  | some p =>
    dsimp only
    unfold State.pageMoves
    by_cases c : (s.clip p.clip).length ≤ p.place + 1
    · rw [if_pos c, if_pos c]; dsimp only; rw [if_pos rfl]; unfold peek; simp [hz]
    · rw [if_neg c, if_neg c]; dsimp only; rw [if_neg (by simp), peek_ofFn _ _ hz]

theorem pageCompleted_same (x : ZoneRec) : SameZone x x.pageCompleted ∧ (x.voice ≠ .page → x.pageCompleted = x) ∧ (x.voice = .page → x.pageCompleted.voice = .silent) := by
  unfold ZoneRec.pageCompleted
  refine ⟨?_, fun h => if_neg h, fun h => by rw [if_pos h]; rfl⟩
  split <;> exact ⟨rfl, rfl, rfl, rfl⟩

theorem fin_next (t : State) : finish t = .next (beginWrite t) := rfl

def arrivedSpec (x : SourceRec) (c : SourceConfig) (f : Int × Int) : SourceRec :=
  if x.state ≠ .filling ∧ x.state ≠ .playing then x
  else if ¬ (x.cls = .r48 ∨ (x.cls = .r96 ∧ x.decim % 2 = 0) ∨ (x.cls = .r192 ∧ x.decim % 4 = 0)) then { x with decim := (x.decim + 1) % 4 }
  else if x.fifo.length < c.count * 128 then
    { x with
      decim := (x.decim + 1) % 4, fifo := x.fifo ++ [f]
      state := if x.state = .filling ∧ c.count * 128 / 2 ≤ x.fifo.length + 1 then .playing else x.state }
  else { x with decim := (x.decim + 1) % 4, xrun := true }

theorem arrived_eq (x : SourceRec) (c : SourceConfig) (f : Int × Int) : x.arrived c f = arrivedSpec x c f := by
  have hk : (x.cls.keeps x.decim = true) ↔ (x.cls = .r48 ∨ (x.cls = .r96 ∧ x.decim % 2 = 0) ∨ (x.cls = .r192 ∧ x.decim % 4 = 0)) := by
    unfold RateClass.keeps; cases x.cls <;> simp
  have go : x.state = .filling ∨ x.state = .playing → x.arrived c f = { (if x.cls.keeps x.decim = true then x.pushed c f else x) with decim := (x.decim + 1) % 4 } := by
    intro g; unfold SourceRec.arrived; rcases g with g | g <;> rw [g]
  unfold arrivedSpec
  by_cases g : x.state = .filling ∨ x.state = .playing
  · rw [go g, if_neg (c := x.state ≠ .filling ∧ x.state ≠ .playing) (fun h => g.elim h.1 h.2)]
    by_cases q : x.cls.keeps x.decim = true
    · rw [if_pos q, if_neg (not_not.mpr (hk.1 q))]
      unfold SourceRec.pushed
      by_cases p : x.fifo.length < c.count * 128
      · rw [if_pos p, if_pos (show x.fifo.length < c.capacity from p)]
        simp only [List.length_append, List.length_singleton]; rfl
      · rw [if_neg p, if_neg (show ¬ x.fifo.length < c.capacity from p)]
    · rw [if_neg q, if_pos (fun r => q (hk.2 r))]
  · have g1 : x.state ≠ .filling := fun a => g (.inl a)
    have g2 : x.state ≠ .playing := fun a => g (.inr a)
    rw [if_pos ⟨g1, g2⟩]
    unfold SourceRec.arrived
    cases h : x.state <;> first | rfl | exact absurd h g1 | exact absurd h g2

end Sys2Proof.Machine
end

