-- ==== Sys2Proof/Laws/Port.lean ====
section
/-! SUPPORT. The link port: the end of a handling, the frame receiver, the layouts of the frames (R172 to R175, R185). -/

namespace Sys2Proof.Machine

theorem finish_atRest {s : State} (h : StoreAtRest s) : finish s = .next s := by
  unfold finish; rw [beginWrite_atRest h]

theorem finish_slp {s : State} (h : StoreAtRest s) (f : Slp → Slp) : finish (s.onSlp f) = .next (s.onSlp f) :=
  finish_atRest (s := s.onSlp f) h

theorem finish_setReceiver {s : State} (h : StoreAtRest s) (r : Receiver) : finish (setReceiver r s) = .next (setReceiver r s) :=
  finish_slp h _

theorem report_link (s : State) (hp : (s.cause causeLinkLost).present = false) (ha : (s.cause causeLinkLost).active = false) :
   (report send causeLinkLost true s).zae.page = none := by
  unfold report
  dsimp only
  rw [if_pos rfl, hp, if_neg (by decide), ha]
  rw [if_neg (by decide)]
  generalize setCause causeLinkLost { active := false, present := true, raisedAt := (s.cause causeLinkLost).raisedAt } s = u
  unfold raise
  dsimp only
  rw [if_pos rfl]
  have endp : ∀ v : State, (cancelPageNow send v).zae.page = none := by
    intro v
    unfold cancelPageNow endPageIfDone
    cases hpg : v.zae.page with
    | none =>
      have : cutPage (fun _ => true) v = v := by unfold cutPage; rw [hpg]
      rw [this, hpg]; exact hpg
    | some p =>
      have e : (cutPage (fun _ => true) v).zae.page = some { p with playing := Vector.ofFn fun z : Fin 8 => peek p.playing z.val && !(peek p.playing z.val && true), cut := Vector.ofFn fun z : Fin 8 => peek p.cut z.val || (peek p.playing z.val && true) } := by
        unfold cutPage; rw [hpg]; rfl
      rw [e]
      dsimp only
      have : (Vector.ofFn fun z : Fin 8 => peek p.playing z.val && !(peek p.playing z.val && true)).any id = false := by
        simp [Vector.any_eq_false]
      rw [if_neg (by rw [this]; decide)]
      refine Option.eq_none_iff_forall_not_mem.mpr fun y hy => ?_
      obtain ⟨x, hx, _⟩ := (cascade_publish cascades_send Item.paging (Cascade.refl _)).page y hy
      cases hx
  generalize queueEvent _ _ = v
  have key : ∀ w, Cascade (cancelPageNow send v) w → w.zae.page = none := by
    intro w c
    refine Option.eq_none_iff_forall_not_mem.mpr fun y hy => ?_
    obtain ⟨x, hx, _⟩ := c.page y hy
    rw [endp] at hx
    cases hx
  refine key _ ?_
  have k4 := cascade_foldl (machines.filter (u.affectedSet causeLinkLost).get) (f := fun s m => activate m s)
    (fun m _ hs => cascade_activate m hs) (Cascade.refl (cancelPageNow send v))
  have k5 := cascade_when (p := (u.causeSetting causeLinkLost).cls = .latched) k4 fun k => cascade_requestWrite cascades_send .records false k
  have k6 := cascade_when (p := (u.causeSetting causeLinkLost).trip = true) k5 fun k => cascade_takeTrip cascades_send causeLinkLost k
  exact cascade_ite (fun _ => k6) fun _ => cascade_afterRelease cascades_send _ (cascade_handOver cascades_send k6)

theorem halfOf_bytes (h : Half) : halfOf (h.extractLsb' 8 8) (h.extractLsb' 0 8) = h := by
  unfold halfOf
  ext i hi
  simp only [BitVec.getElem_append, BitVec.getElem_extractLsb']
  split
  · simp [BitVec.getLsbD_eq_getElem hi]
  · rw [show 8 + (i - 8) = i by omega]; simp [BitVec.getLsbD_eq_getElem hi]

theorem halvesOf_cons (h : Half) (rest : List Byte) :
    halvesOf (h.extractLsb' 8 8 :: h.extractLsb' 0 8 :: rest) = (halvesOf rest).map (h :: ·) := by
  rw [halvesOf, halfOf_bytes]
  cases halvesOf rest <;> rfl

theorem halvesOf_flatMap (xs : List Half) : halvesOf (xs.flatMap halfBytes) = some xs := by
  induction xs with
  | nil => rfl
  | cons x xs ih => simp [halfBytes, halvesOf_cons, ih]

theorem vector8 {α : Type} (v : Vector α 8) : v = #v[v[0], v[1], v[2], v[3], v[4], v[5], v[6], v[7]] := by
  ext i hi
  match i, hi with
  | 0, _ | 1, _ | 2, _ | 3, _ | 4, _ | 5, _ | 6, _ | 7, _ => rfl

theorem vector8_list {α : Type} (v : Vector α 8) : v.toList = [v[0], v[1], v[2], v[3], v[4], v[5], v[6], v[7]] := by
  conv_lhs => rw [vector8 v]
  rfl

theorem parse10 (p : List Byte) : parseFrame 0x10 p = parseMachine p := rfl

theorem parse_layout (code : Byte) (p : List Byte) (layout : List Byte → Option Instr) (i : Instr) (hc : code ≠ 0x10)
    (h : parsePayload code.toNat = some layout) (hl : layout p = some i) : parseFrame code p = .ask i := by
  unfold parseFrame
  rw [if_neg hc, h]
  simp only [hl]

theorem feed_step {b : Byte} {bs : List Byte} {s t : State} (h : exec (.receivedByte b) s = .next t) :
    feedBytes (b :: bs) s = feedBytes bs t := by
  rw [feedBytes, h]

theorem setReceiver_twice (r q : Receiver) (s : State) : setReceiver q (setReceiver r s) = setReceiver q s := rfl

theorem note_setReceiver (go : Go) (r : Receiver) (s : State) : noteValidFrame go (setReceiver r s) = noteValidFrame go s := rfl

end Sys2Proof.Machine
end

