-- ==== Sys2Proof/Laws/Queues.lean ====
section
/-! SUPPORT. The event queue as FETCH EVENTS takes from it, and the pending-write queue (R169, R170, R179). -/

namespace Sys2Proof.Machine

theorem takeable_le (n room : Nat) (q : List Event) : takeable n room q ≤ n ∧ takeable n room q ≤ q.length := by
  induction q generalizing n room with
  | nil => cases n <;> simp [takeable]
  | cons e q ih =>
    cases n with
    | zero => simp [takeable]
    | succ n =>
      unfold takeable
      split
      · have := ih n (room - e.bytes.length)
        simp; omega
      · simp

theorem takeable_fits (n room : Nat) (q : List Event) :
    ((q.take (takeable n room q)).flatMap Event.bytes).length ≤ room := by
  induction q generalizing n room with
  | nil => cases n <;> simp [takeable]
  | cons e q ih =>
    cases n with
    | zero => simp [takeable]
    | succ n =>
      unfold takeable
      split
      · rename_i hr
        have := ih n (room - e.bytes.length)
        rw [Nat.add_comm, List.take_succ_cons, List.flatMap_cons, List.length_append]
        omega
      · simp

theorem takeable_stops (n room : Nat) (q : List Event) :
    takeable n room q = n ∨ takeable n room q = q.length ∨
      ∃ e, q[takeable n room q]? = some e ∧ room < ((q.take (takeable n room q)).flatMap Event.bytes).length + e.bytes.length := by
  induction q generalizing n room with
  | nil => right; left; cases n <;> simp [takeable]
  | cons e q ih =>
    cases n with
    | zero => left; simp [takeable]
    | succ n =>
      unfold takeable
      split
      · rename_i hr
        rcases ih n (room - e.bytes.length) with h | h | ⟨x, h1, h2⟩
        · left; omega
        · right; left; simp; omega
        · right; right
          refine ⟨x, ?_, ?_⟩
          · rw [Nat.add_comm, List.getElem?_cons_succ]; exact h1
          · rw [Nat.add_comm 1, List.take_succ_cons, List.flatMap_cons, List.length_append]
            omega
      · right; right
        exact ⟨e, rfl, by simp; omega⟩

theorem eventBytes_le (e : Event) : e.bytes.length ≤ 193 := by
  obtain ⟨k, t, l⟩ := e
  have hb : ∀ n, (byte n).length = 1 := fun _ => rfl
  have hw : ∀ n, (word n).length = 2 := fun _ => rfl
  have hl : ∀ n, (long n).length = 4 := fun _ => rfl
  have hf : ∀ n, (flag n).length = 1 := fun _ => rfl
  have ho : ∀ {α : Type} (f : α → List Byte) (n : Nat) (h : ∀ x, (f x).length = n) (o : Option α), (optional f o).length ≤ 1 + n := by
    intro α f n h o; cases o <;> simp [optional, hb, h]
  unfold Event.bytes
  simp only [List.length_append, hb, hl, hf]
  have : k.fields.length ≤ 180 := by
    cases k <;> simp only [EventKind.fields, List.length_append, hb, hw, hf, set8]
    all_goals try omega
    · rename_i c _ _
      have := ho byte 1 hb c
      omega
    · rename_i z
      have := ho byte 1 hb (z.map Prod.fst)
      have := ho flag 1 hf (z.map Prod.snd)
      omega
  omega

theorem pend_enqueue (x n : SectionName) (m : Bool) (q : List (SectionName × Bool)) :
    (∀ e ∈ q, ∃ k, (e.1, k) ∈ enqueueWrite x m q) ∧ (∀ n, (n, true) ∈ q → (n, true) ∈ enqueueWrite x m q) ∧ (x, true) ∈ enqueueWrite x true q := by
  unfold enqueueWrite
  refine ⟨fun e he => ?_, fun n hn => ?_, ?_⟩
  · split
    · refine ⟨(if e.1 = x then (e.1, e.2 || m) else e).2, ?_⟩
      refine List.mem_map.mpr ⟨e, he, ?_⟩
      split <;> rfl
    · split
      · exact ⟨e.2, List.mem_cons_of_mem _ he⟩
      · exact ⟨e.2, List.mem_append_left _ he⟩
  · split
    · refine List.mem_map.mpr ⟨_, hn, ?_⟩
      split <;> rfl
    · split
      · exact List.mem_cons_of_mem _ hn
      · exact List.mem_append_left _ hn
  · split
    · rename_i hp
      obtain ⟨e, he, hx⟩ := List.any_eq_true.mp hp
      refine List.mem_map.mpr ⟨e, he, ?_⟩
      have : e.1 = x := by simpa using hx
      rw [if_pos this, this]; simp
    · split <;> simp

/-- Entries stay pending, with their marks, through a cascade. -/
theorem Cascade.pendingStays {s t : State} (h : Cascade s t) :
    (∀ e ∈ s.sto.queue, ∃ k, (e.1, k) ∈ t.sto.queue) ∧ ∀ n, (n, true) ∈ s.sto.queue → (n, true) ∈ t.sto.queue :=
  h.keeps (P := fun s t => (∀ e ∈ s.sto.queue, ∃ k, (e.1, k) ∈ t.sto.queue) ∧ ∀ n, (n, true) ∈ s.sto.queue → (n, true) ∈ t.sto.queue)
    (fun _ => ⟨fun e he => ⟨e.2, he⟩, fun _ h => h⟩) fun s t u k m => by
      cases m <;> first
        | exact k
        | (rename_i x mark
           refine ⟨fun e he => ?_, fun n hn => (pend_enqueue x .hsu mark _).2.1 n (k.2 n hn)⟩
           obtain ⟨j, hj⟩ := k.1 e he
           exact (pend_enqueue x .hsu mark _).1 (e.1, j) hj)

end Sys2Proof.Machine
end

