-- ==== Sys2Proof/Laws/Raise.lean ====
section
/-! SUPPORT. The raise of a cause in a part without host interlock entries: every machine it affects is held, and no other channel
changes but in its flow share (R15, R19, R106). -/

namespace Sys2Proof.Machine

variable {go : Go}

theorem still_afterRelease_later (hgo : Quiet go) {s : State} (h : NoHostEntries s) : Still s (afterRelease go .later s) := by
  have k1 : Still s (pumpAfterRelease go s) := still_pumpAfterRelease hgo h
  have k2 := k1.trans (calm_publishAll hgo (k1.noHostEntries h) [Item.grantsFull, Item.waitingAny] (by unfold Plain; decide)).still
  exact k2.trans (still_recompute hgo (k2.noHostEntries h))

theorem setChan_self (m : MachineId) (s : State) : setChan m (s.chan m) s = s := by
  cases m <;> rfl

/-- A channel that leaves its running state for HELD, its slot handed on later: the run is completed and all else is still. -/
theorem leave_later (hgo : Quiet go) {s : State} (h : NoHostEntries s) (m : MachineId) {st : ChanState} (hst : st ≠ .idle)
    (hst2 : st ≠ .stopping) : Still (stateCore m st (dropRun m s)) (leave go m st .later s) := by
  have k := still_releasedAt hgo h m .later fun t _ hn => still_afterRelease_later hgo hn
  have h0 : NoHostEntries (handBack m s) := h.of_settings (by rw [handBack_eq])
  rw [← stateCore_handBack m hst2]
  exact (still_stateCore k m hst2).trans (calm_leave hgo m st .later (k.noHostEntries h0) fun e => absurd e hst).still

/-- A pump that is OFF stays as it is. -/
def OffStays (s t : State) : Prop :=
  s.hsc.pump = .off → t.hsc.pump = .off ∧ t.hsc.attempt = s.hsc.attempt ∧ t.hsc.timer = s.hsc.timer ∧
    t.hsc.pressLoss = s.hsc.pressLoss

theorem OffStays.refl (s : State) : OffStays s s := fun h => ⟨h, rfl, rfl, rfl⟩

theorem OffStays.trans {s t u : State} (h : OffStays s t) (k : OffStays t u) : OffStays s u := fun hp => by
  obtain ⟨a1, a2, a3, a4⟩ := h hp
  obtain ⟨b1, b2, b3, b4⟩ := k a1
  exact ⟨b1, b2.trans a2, b3.trans a3, b4.trans a4⟩

theorem OffStays.of_hsc {s t : State} (h : t.hsc = s.hsc) : OffStays s t := fun hp => by rw [h]; exact ⟨hp, rfl, rfl, rfl⟩

theorem offStays_recompute (hgo : Quiet go) {s : State} (h : NoHostEntries s) : OffStays s (recompute go s) := fun hp => by
  rw [(calm_recompute hgo h).hsc, shareCore_eq]
  exact ⟨hp, rfl, rfl, rfl⟩

theorem offStays_dropRun (m : MachineId) (s : State) : OffStays s (dropRun m s) := fun hp => by
  rw [dropRun_eq]
  exact ⟨hp, rfl, rfl, rfl⟩

theorem offStays_afterRelease_later (hgo : Quiet go) {s : State} (h : NoHostEntries s) : OffStays s (afterRelease go .later s) := fun hp => by
  have e : pumpAfterRelease go s = s := by
    unfold pumpAfterRelease
    rw [hp]
    split <;> rfl
  have k := calm_publishAll hgo h [Item.grantsFull, Item.waitingAny] (by unfold Plain; decide)
  have k2 := (OffStays.of_hsc k.hsc).trans (offStays_recompute hgo (k.noHostEntries h))
  unfold afterRelease
  dsimp only
  rw [e]
  exact k2 hp

theorem offStays_leave_later (hgo : Quiet go) {s : State} (h : NoHostEntries s) (m : MachineId) {st : ChanState} (hst : st ≠ .idle) :
    OffStays s (leave go m st .later s) := by
  have h0 : NoHostEntries (handBack m s) := h.of_settings (by rw [handBack_eq])
  have k0 := silent_engageBrake hgo h0 m
  have h1 : NoHostEntries (engageBrake go m (handBack m s)) := k0.calm.noHostEntries h0
  have k1 : OffStays s (handBack m s) := fun hp => by rw [handBack_eq]; exact ⟨hp, rfl, rfl, rfl⟩
  have k2 : OffStays s (releasedAt go m .later s) :=
    (k1.trans (OffStays.of_hsc k0.calm.hsc)).trans (offStays_afterRelease_later hgo h1)
  have h2 : NoHostEntries (releasedAt go m .later s) := (still_afterRelease_later hgo h1).noHostEntries h1
  exact k2.trans (OffStays.of_hsc (by rw [(calm_leave hgo m st .later h2 fun e => absurd e hst).hsc, stateCore_eq]))

/-- A reason written even over a ramped one (R15). -/
theorem forceReason_eq (m : MachineId) (x : EndReason) (c : Option Nat) (s : State) : forceReason m x c s = setChan m { s.chan m with
    live := (s.chan m).live.map fun r => { r with endReason := some x, cause := c }
    refresh := if (s.chan m).live.isSome then none else (s.chan m).refresh } s := by
  unfold forceReason
  dsimp only
  cases hl : (s.chan m).live with
  | none =>
    have : ({ s.chan m with live := none, refresh := (s.chan m).refresh } : Channel) = s.chan m := by rw [← hl]
    exact ((congrArg (fun x => setChan m x s) this).trans (setChan_self m s)).symm
  | some r => rfl

/-- What holding the machines `ms` one after another leaves. -/
structure Holding (c : Nat) (ms : List MachineId) (s t : State) : Prop where
  phase : t.phase = s.phase
  now : t.now = s.now
  pins : t.pins = s.pins
  settings : t.settings = s.settings
  slp : t.slp = s.slp
  fis : t.fis = s.fis
  rode : t.sfe.rode = s.sfe.rode
  isolate : t.hsc.isolate = s.hsc.isolate
  off : OffStays s t
  input : ∀ i, t.input i =
    if i.machine ∈ ms ∧ (s.chan i.machine).state ≠ .disabled ∧ (s.chan i.machine).state ≠ .held then
      (s.input i).inhibited s.settings.stations.releaseTime else s.input i
  grants : t.hsc.grants = (ms.filter fun m => (s.chan m).state.isRunning).foldl List.erase s.hsc.grants
  queue : t.hsc.queue = (ms.filter fun m => (s.chan m).state.isRunning).foldl List.erase s.hsc.queue
  chan : ∀ m, t.chan m = { (if m ∈ ms then (s.chan m).heldBy c else s.chan m) with
                           share := (t.chan m).share, applied := (t.chan m).applied }

theorem Holding.nil (c : Nat) (s : State) : Holding c [] s s :=
  ⟨rfl, rfl, rfl, rfl, rfl, rfl, rfl, rfl, .refl s, fun i => by rw [if_neg (by simp)], rfl, rfl, fun m => by rw [if_neg (by simp)]⟩

theorem Holding.undisturbed {c : Nat} {ms : List MachineId} {s t : State} (h : Holding c ms s t) (k : Undisturbed s) : Undisturbed t := by
  refine ⟨k.1.of_settings h.settings, fun d hd ha hc => ?_⟩
  unfold State.cause State.causeSetting at *
  rw [h.fis] at ha ⊢
  rw [h.settings] at hc
  exact k.2 d hd ha hc

/-- One more step that changes only what the channel and inputs of `m` hold. -/
theorem Holding.snoc {c : Nat} {ms : List MachineId} {s t u : State} (h : Holding c ms s t) (m : MachineId) (hm : m ∉ ms)
    (hrest : u.phase = t.phase ∧ u.now = t.now ∧ u.pins = t.pins ∧ u.settings = t.settings ∧ u.slp = t.slp ∧ u.fis = t.fis ∧
      u.sfe.rode = t.sfe.rode ∧ u.hsc.isolate = t.hsc.isolate)
    (hoff : OffStays t u)
    (hin : ∀ i, u.input i = if i.machine = m ∧ (s.chan m).state ≠ .disabled ∧ (s.chan m).state ≠ .held then
      (t.input i).inhibited t.settings.stations.releaseTime else t.input i)
    (hg : u.hsc.grants = if (s.chan m).state.isRunning then t.hsc.grants.erase m else t.hsc.grants)
    (hq : u.hsc.queue = if (s.chan m).state.isRunning then t.hsc.queue.erase m else t.hsc.queue)
    (hc : ∀ k, u.chan k = { (if k = m then (t.chan k).heldBy c else t.chan k) with
                            share := (u.chan k).share, applied := (u.chan k).applied }) :
    Holding c (ms ++ [m]) s u := by
  obtain ⟨r1, r2, r3, r4, r5, r6, r7, r8⟩ := hrest
  refine ⟨r1.trans h.phase, r2.trans h.now, r3.trans h.pins, r4.trans h.settings, r5.trans h.slp, r6.trans h.fis, r7.trans h.rode,
    r8.trans h.isolate, h.off.trans hoff, fun i => ?_, ?_, ?_, fun k => ?_⟩
  · rw [hin, h.settings, h.input]
    by_cases hi : i.machine = m
    · have h1 : i.machine ∉ ms := hi ▸ hm
      rw [if_neg (c := i.machine ∈ ms ∧ _) (fun k => h1 k.1)]
      simp [hi]
    · rw [if_neg (c := i.machine = m ∧ _) (fun k => hi k.1)]
      simp [hi]
  · rw [hg, h.grants, List.filter_append, List.foldl_append]
    cases hr : (s.chan m).state.isRunning <;> simp [hr]
  · rw [hq, h.queue, List.filter_append, List.foldl_append]
    cases hr : (s.chan m).state.isRunning <;> simp [hr]
  · have e := hc k
    by_cases hk : k = m
    · subst hk
      rw [if_pos rfl] at e
      rw [if_pos (by simp)]
      have e2 := h.chan k
      rw [if_neg hm] at e2
      rw [e, e2]
      unfold Channel.heldBy
      dsimp only
      split <;> rfl
    · rw [if_neg hk] at e
      have e2 := h.chan k
      rw [e, e2]
      have : (k ∈ ms ++ [m]) = (k ∈ ms) := by simp [hk]
      simp only [this]

/-- The channel with its live run, if any, completed FAULT. -/
def Channel.faulted (x : Channel) (c : Nat) : Channel :=
  { x with
    live := none
    refresh := none
    last := match x.live with
      | some r => some { r with endReason := some .fault, cause := some c, endPos := some x.position }
      | none => x.last }

theorem inhibitCore_rest (m : MachineId) (s : State) : inhibitCore m s = { s with siq := (inhibitCore m s).siq } := rfl

/-- Holding one machine more (R15, R19, R95). -/
theorem holding_hold (hgo : Quiet go) {c : Nat} {ms : List MachineId} {s t : State} (h : Holding c ms s t) (hu : Undisturbed s)
    (m : MachineId) (hm : m ∉ ms) : Holding c (ms ++ [m]) s (hold go m c .later t) := by
  have ht : Undisturbed t := h.undisturbed hu
  have hst : (t.chan m).state = (s.chan m).state := by
    have := h.chan m
    rw [if_neg hm] at this
    rw [this]
  have same : ∀ k, t.chan k = { t.chan k with share := (t.chan k).share, applied := (t.chan k).applied } := fun _ => rfl
  have inh : ∀ {u : State}, Undisturbed u → Calm (inhibitCore m u) (inhibit go m u) := fun hu' => calm_inhibit hgo hu' m
  unfold hold
  have hrun : ∀ st, (s.chan m).state = st → (t.chan m).state = st := fun st k => hst.trans k
  have running : (s.chan m).state.isRunning = true → (s.chan m).state ≠ .disabled → (s.chan m).state ≠ .held →
      ((t.chan m).faulted c).inState .held = (t.chan m).heldBy c →
      Holding c (ms ++ [m]) s (inhibit go m (leave go m .held .later (forceReason m .fault (some c) t))) := by
    intro hr h1 h2 hheld
    rw [forceReason_eq]
    generalize hd : ({ t.chan m with
        live := (t.chan m).live.map fun r => { r with endReason := some .fault, cause := some c }
        refresh := if (t.chan m).live.isSome then none else (t.chan m).refresh } : Channel) = d
    have hn : NoHostEntries (setChan m d t) := ht.1
    have k := leave_later hgo hn m (st := .held) (by decide) (by decide)
    have hoffs0 : OffStays t (leave go m .held .later (setChan m d t)) := (OffStays.of_hsc (t := setChan m d t) rfl).trans (offStays_leave_later hgo hn m (st := .held) (by decide))
    generalize leave go m .held .later (setChan m d t) = w at *
    have hwu : Undisturbed w := by
      refine ⟨k.noHostEntries (hn.of_settings ?_), fun x hx ha hc => ?_⟩
      · rw [stateCore_settings, dropRun_eq]
      · have e1 : w.settings = t.settings := by rw [k.settings, stateCore_settings, dropRun_eq]; rfl
        have e2 : w.fis = t.fis := by rw [k.fis, stateCore_eq, dropRun_eq]; rfl
        unfold State.cause State.causeSetting at *
        rw [e2] at ha ⊢
        rw [e1] at hc
        exact ht.2 x hx ha hc
    have kk := inh hwu
    have hoffs : OffStays t (inhibit go m w) := hoffs0.trans (OffStays.of_hsc (by rw [kk.hsc]; rfl))
    have hdrop : (dropRun m (setChan m d t)).chan m = (t.chan m).faulted c := by
      unfold Channel.faulted
      cases hl : (t.chan m).live with
      | none =>
        rw [hl] at hd
        have hdl : ((setChan m d t).chan m).live = none := by rw [setChan_chan_same, ← hd]; rfl
        unfold dropRun
        dsimp only
        rw [hdl]
        dsimp only
        rw [setChan_chan_same, setChan_chan_same, ← hd]
      | some r =>
        rw [hl] at hd
        rw [dropRun_chan m _ { r with endReason := some .fault, cause := some c } (by rw [setChan_chan_same, ← hd]; rfl), setChan_chan_same, ← hd]
    refine h.snoc m hm ⟨?_, ?_, ?_, ?_, ?_, ?_, ?_, ?_⟩ hoffs (fun i => ?_) ?_ ?_ fun j => ?_
    · rw [kk.phase]; show w.phase = _; rw [k.phase, stateCore_eq, dropRun_eq]; rfl
    · rw [kk.now]; show w.now = _; rw [k.now, stateCore_eq, dropRun_eq]; rfl
    · rw [kk.pins]; show w.pins = _; rw [k.pins, stateCore_eq, dropRun_eq]; rfl
    · rw [kk.settings]; show w.settings = _; rw [k.settings, stateCore_eq, dropRun_eq]; rfl
    · rw [kk.slp]; show w.slp = _; rw [k.slp, stateCore_eq, dropRun_eq]; rfl
    · rw [kk.fis]; show w.fis = _; rw [k.fis, stateCore_eq, dropRun_eq]; rfl
    · rw [kk.sfe]; show w.sfe.rode = _; rw [k.rode, (stateCore_sfe _ _ _).1, dropRun_eq]; rfl
    · rw [kk.hsc]; show w.hsc.isolate = _; rw [k.isolate, stateCore_eq, dropRun_eq]; rfl
    · have e1 : w.siq = t.siq := by rw [k.siq, stateCore_eq, dropRun_eq]; rfl
      have e2 : w.settings = t.settings := by rw [k.settings, stateCore_eq, dropRun_eq]; rfl
      have e3 : (inhibit go m w).input i = (inhibitCore m w).input i := by unfold State.input; rw [kk.siq]
      rw [e3, inhibitCore_input, e2]
      have e4 : w.input i = t.input i := by unfold State.input; rw [e1]
      rw [e4]
      by_cases hi : i.machine = m
      · rw [if_pos hi, if_pos ⟨hi, h1, h2⟩]
      · rw [if_neg hi, if_neg (fun k => hi k.1)]
    · rw [hr, if_pos rfl, kk.hsc]; show w.hsc.grants = _; rw [k.grants, stateCore_eq, dropRun_eq]; rfl
    · rw [hr, if_pos rfl, kk.hsc]; show w.hsc.queue = _; rw [k.queue, stateCore_eq, dropRun_eq]; rfl
    · have e5 : (inhibit go m w).chan j = w.chan j := kk.chan j
      rw [e5]
      have e6 := k.chan j
      rw [stateCore_chan] at e6
      by_cases hj : j = m
      · subst hj
        rw [if_pos rfl, hdrop, hheld] at e6
        rw [if_pos rfl]
        exact e6
      · rw [if_neg (Ne.symm hj)] at e6
        rw [if_neg hj]
        have : (dropRun m (setChan m d t)).chan j = t.chan j := by
          unfold dropRun
          dsimp only
          split <;> (rw [setChan_chan, if_neg (Ne.symm hj)]; show (setChan m d t).chan j = _; rw [setChan_chan, if_neg (Ne.symm hj)])
        rw [this] at e6
        exact e6
  have stays : (s.chan m).state = .disabled ∨ (s.chan m).state = .held → Holding c (ms ++ [m]) s t := by
    intro hs
    refine h.snoc m hm ⟨rfl, rfl, rfl, rfl, rfl, rfl, rfl, rfl⟩ (.refl t) (fun i => ?_) ?_ ?_ fun j => ?_
    · rw [if_neg]
      rintro ⟨-, k1, k2⟩
      rcases hs with k | k
      · exact k1 k
      · exact k2 k
    · rcases hs with k | k <;> (rw [k]; rfl)
    · rcases hs with k | k <;> (rw [k]; rfl)
    · by_cases hj : j = m
      · subst hj
        rw [if_pos rfl]
        have : (t.chan j).heldBy c = t.chan j := by
          unfold Channel.heldBy
          rcases hs with k | k <;> rw [hst, k]
        rw [this]
      · rw [if_neg hj]
  split
  · rename_i k; exact stays (.inl (hst ▸ k))
  · rename_i k; exact stays (.inr (hst ▸ k))
  · rename_i hi
    have hs : (s.chan m).state = .idle := hst ▸ hi
    have k := calm_enter hgo ht.1 m .held
    have hwu : Undisturbed (enter go m .held t) := by
      refine ⟨k.noHostEntries (ht.1.of_settings (stateCore_settings _ _ _)), fun x hx ha hc => ?_⟩
      have e1 : (enter go m .held t).settings = t.settings := by rw [k.settings, stateCore_settings]
      have e2 : (enter go m .held t).fis = t.fis := by rw [k.fis, stateCore_eq]
      unfold State.cause State.causeSetting at *
      rw [e2] at ha ⊢
      rw [e1] at hc
      exact ht.2 x hx ha hc
    have kk := inh hwu
    have hoffs : OffStays t (inhibit go m (enter go m .held t)) := OffStays.of_hsc (by rw [kk.hsc]; show (enter go m .held t).hsc = _; rw [k.hsc, stateCore_eq])
    generalize enter go m .held t = w at *
    refine h.snoc m hm ⟨?_, ?_, ?_, ?_, ?_, ?_, ?_, ?_⟩ hoffs (fun i => ?_) ?_ ?_ fun j => ?_
    · rw [kk.phase]; show w.phase = _; rw [k.phase, stateCore_eq]
    · rw [kk.now]; show w.now = _; rw [k.now, stateCore_eq]
    · rw [kk.pins]; show w.pins = _; rw [k.pins, stateCore_eq]
    · rw [kk.settings]; show w.settings = _; rw [k.settings, stateCore_eq]
    · rw [kk.slp]; show w.slp = _; rw [k.slp, stateCore_eq]
    · rw [kk.fis]; show w.fis = _; rw [k.fis, stateCore_eq]
    · rw [kk.sfe]; show w.sfe.rode = _; rw [k.sfe, (stateCore_sfe _ _ _).1]
    · rw [kk.hsc]; show w.hsc.isolate = _; rw [k.hsc, stateCore_eq]
    · have e1 : w.siq = t.siq := by rw [k.siq, stateCore_eq]
      have e2 : w.settings = t.settings := by rw [k.settings, stateCore_eq]
      have e3 : (inhibit go m w).input i = (inhibitCore m w).input i := by unfold State.input; rw [kk.siq]
      rw [e3, inhibitCore_input, e2]
      have e4 : w.input i = t.input i := by unfold State.input; rw [e1]
      rw [e4, hs]
      by_cases hi : i.machine = m
      · rw [if_pos hi, if_pos ⟨hi, by decide, by decide⟩]
      · rw [if_neg hi, if_neg (fun k => hi k.1)]
    · rw [hs, kk.hsc]; show w.hsc.grants = _; rw [k.hsc, stateCore_eq]; rfl
    · rw [hs, kk.hsc]; show w.hsc.queue = _; rw [k.hsc, stateCore_eq]; rfl
    · have e5 : (inhibit go m w).chan j = w.chan j := kk.chan j
      rw [e5, k.chan, stateCore_chan]
      by_cases hj : j = m
      · subst hj
        rw [if_pos rfl, if_pos rfl]
        unfold Channel.heldBy
        rw [hi]
        rfl
      · rw [if_neg (Ne.symm hj), if_neg hj]
  all_goals
    rename_i hs
    refine running ?_ ?_ ?_ ?_
    · rw [← hst, hs]; rfl
    · rw [← hst, hs]; decide
    · rw [← hst, hs]; decide
    · unfold Channel.heldBy
      rw [hs]
      rfl

/-! ## The raise -/

theorem holding_foldl (hgo : Quiet go) {c : Nat} {s : State} (hu : Undisturbed s) (xs : List MachineId) :
    ∀ (ms : List MachineId) (t : State), Holding c ms s t → (ms ++ xs).Nodup →
      Holding c (ms ++ xs) s (xs.foldl (fun s m => hold go m c .later s) t) := by
  induction xs with
  | nil => intro ms t h _; rw [List.append_nil]; exact h
  | cons x xs ih =>
    intro ms t h hn
    rw [List.foldl_cons]
    have hx : x ∉ ms := fun k => by
      have := (List.nodup_append.mp hn).2.2 x k x List.mem_cons_self
      exact this rfl
    have := ih (ms ++ [x]) _ (holding_hold hgo h hu x hx) (by rw [List.append_assoc]; exact hn)
    rw [List.append_assoc] at this
    exact this

theorem mem_affected (s : State) (c : Nat) (m : MachineId) : m ∈ machines.filter (s.affectedSet c).get ↔ s.affects c m = true := by
  unfold machines State.affectedSet
  rw [List.mem_filter]
  cases m <;> simp [Three.get]

theorem calm_cancelPageNow (hgo : Quiet go) {s : State} (h : NoHostEntries s) : Calm s (cancelPageNow go s) := by
  unfold cancelPageNow
  have k := calm_cutPage (fun _ => true) s
  exact k.trans (calm_endPageIfDone hgo (k.noHostEntries h))

theorem calm_activates (ms : List MachineId) (s : State) : Calm s (ms.foldl (fun s m => activate m s) s) :=
  calm_foldl _ _ (fun s m => calm_activate m s) s

/-- A raise up to its trip (R106, steps 1 to 6). -/
def raiseCore (go : Go) (c : Nat) (s : State) : State :=
  let setting := s.causeSetting c
  let affected := s.affectedSet c
  let named := machines.filter affected.get
  let s := setCause c { s.cause c with active := true, raisedAt := some s.now } s
  let s := named.foldl (fun s m => hold go m c .later s) s
  let s := publish go s (Item.cause c)
  let s := queueEvent (.faultRaised c affected setting.trip) s
  let s := if c = causeLinkLost then cancelPageNow go s else s
  let s := named.foldl (fun s m => activate m s) s
  if setting.cls = .latched then requestWrite go .records false s else s

theorem raise_eq (c : Nat) (s : State) : raise go c s =
    (let u := if (s.causeSetting c).trip = true then takeTrip go c (raiseCore go c s) else raiseCore go c s
     if u.hsc.queue.isEmpty then u else afterRelease go .now (handOver go u)) := rfl

/-- What a raise in an undisturbed part does up to its trip (R106). -/
theorem raised_core {s : State} (hu : Undisturbed s) {c : Nat} (hc : c < 16) (hp : (s.causeSetting c).cls = .self → (s.cause c).present = true) :
    Raised c s (raiseCore send c s) ∧ ∃ x, (raiseCore send c s).fis = { s.fis with causes := poke s.fis.causes c x } ∧ x.present = (s.cause c).present ∧
      (raiseCore send c s).hsc.isolate = s.hsc.isolate ∧ (raiseCore send c s).siq = { s.siq with inputs := (raiseCore send c s).siq.inputs } := by
  let x : CauseRec := { s.cause c with active := true, raisedAt := some s.now }
  let s1 := setCause c x s
  have hx : s1.cause c = x := by
    show (setCause c x s).cause c = x
    rw [setCause_cause]; simp [hc]
  have hu1 : Undisturbed s1 := by
    refine ⟨hu.1, fun d hd ha hcl => ?_⟩
    by_cases hdc : c = d
    · subst hdc; rw [hx]; exact hp hcl
    · have e : s1.cause d = s.cause d := by show (setCause c x s).cause d = _; rw [setCause_cause, if_neg (fun k => hdc k.1)]
      rw [e] at ha ⊢
      exact hu.2 d hd ha hcl
  have hnd : (machines.filter (s.affectedSet c).get).Nodup := (by decide : machines.Nodup).filter _
  have h0 := holding_foldl quiet_send (c := c) hu1 (machines.filter (s.affectedSet c).get) [] s1 (Holding.nil c s1) hnd
  rw [List.nil_append] at h0
  have hchan1 : ∀ m, s1.chan m = s.chan m := fun _ => rfl
  let t0 := (machines.filter (s.affectedSet c).get).foldl (fun s m => hold send m c .later s) s1
  have hcas : Cascade s1 t0 := cascade_foldl _ (fun m _ hs => cascade_hold cascades_send m c .later hs) (.refl _)
  have hn0 : NoHostEntries t0 := hu.1.of_settings (h0.settings)
  let t1 := publish send t0 (Item.cause c)
  have hplain : Plain (Item.cause c) := by
    unfold Plain builtInItems; simp [Item.cause, Item.ladderDown, Item.cradleHome, Item.matOccupied]
  have hex : (Item.cause c).exists = true := by unfold ItemRef.exists Item.cause; exact decide_eq_true hc
  have hs1 : Silent t0 t1 := silent_publish quiet_send hn0 hplain
  have hi1 : t1.item (Item.cause c) = true := by
    show (publish send t0 (Item.cause c)).item _ = _
    rw [item_publish quiet_send hn0 hplain hex, if_pos rfl]
    show (t0.cause c).active = true
    have e : t0.cause c = s1.cause c := by unfold State.cause; exact congrArg (fun f => peek f.causes c) h0.fis
    rw [e, hx]
  let t2 := queueEvent (.faultRaised c (s.affectedSet c) (s.causeSetting c).trip) t1
  have hn2 : NoHostEntries t2 := hn0.of_settings (by show t1.settings = _; rw [hs1])
  let t3 := if c = causeLinkLost then cancelPageNow send t2 else t2
  have hc3 : Calm t2 t3 := by
    show Calm t2 (if c = causeLinkLost then cancelPageNow send t2 else t2)
    split
    · exact calm_cancelPageNow quiet_send hn2
    · exact .refl _
  have hk3 : Cascade t2 t3 := cascade_when (.refl _) fun k => cascade_cancelPageNow cascades_send k
  have hi3 : t3.item (Item.cause c) = true := by
    show (if c = causeLinkLost then cancelPageNow send t2 else t2).item _ = _
    split
    · unfold cancelPageNow
      rw [item_endPage_other quiet_send ((calm_cutPage _ _).noHostEntries hn2) _ (by simp [Item.cause, Item.paging]), item_cutPage]
      exact hi1
    · exact hi1
  let t4 := (machines.filter (s.affectedSet c).get).foldl (fun s m => activate m s) t3
  have hc4 : Calm t3 t4 := calm_activates _ _
  have hk4 : Cascade t3 t4 := cascade_foldl _ (fun m _ hs => cascade_activate m hs) (.refl _)
  have hse4 : t4.seu = t3.seu := by
    have : ∀ (xs : List MachineId) (u : State), (xs.foldl (fun s m => activate m s) u).seu = u.seu := by
      intro xs
      induction xs with
      | nil => exact fun _ => rfl
      | cons y ys ih => intro u; rw [List.foldl_cons, ih, (displayOnly_activate y u).1]
    exact this _ _
  have hn4 : NoHostEntries t4 := (hc3.trans hc4).noHostEntries hn2
  let t5 := if (s.causeSetting c).cls = .latched then requestWrite send .records false t4 else t4
  have hc5 : Calm t4 t5 := by
    show Calm t4 (if (s.causeSetting c).cls = .latched then requestWrite send .records false t4 else t4)
    split
    · exact calm_requestWrite quiet_send hn4 _ _
    · exact .refl _
  have hk5 : Cascade t4 t5 := cascade_when (.refl _) fun k => cascade_requestWrite cascades_send _ _ k
  have hi5 : t5.item (Item.cause c) = true := by
    have : t4.item (Item.cause c) = true := by unfold State.item; rw [hse4]; exact hi3
    show (if (s.causeSetting c).cls = .latched then requestWrite send .records false t4 else t4).item _ = _
    split
    · unfold requestWrite
      rw [item_publish quiet_send (s := t4.onSto _) hn4 (by unfold Plain; decide) rfl, if_neg (by simp [Item.cause, Item.storeBusy])]
      exact this
    · exact this
  have hcalm : Calm t2 t5 := hc3.trans (hc4.trans hc5)
  have hlist : ((machines.filter (s.affectedSet c).get).filter fun m => (s1.chan m).state.isRunning) = s.stopsRunning c := by
    rw [List.filter_filter]
    unfold State.stopsRunning
    congr 1
    funext m
    cases m <;> simp [Three.get, State.affectedSet, hchan1, Bool.and_comm]
  have h2 : Calm t0 t5 := (hs1.calm.trans (silent_queueEvent _ t1).calm).trans hcalm
  have hfis : t5.fis = s1.fis := h2.fis.trans h0.fis
  have hres : raiseCore send c s = t5 := rfl
  rw [hres]
  clear_value t5
  have hcause : t5.cause c = x := by
    have e : t5.cause c = s1.cause c := by unfold State.cause; exact congrArg (fun f => peek f.causes c) hfis
    rw [e, hx]
  refine ⟨⟨?_, fun d hd => ?_, fun m => ?_, fun i => ?_, ?_, ?_, ?_, hi5, fun hl => ?_, ?_, ?_, ?_, ?_, ?_, ?_, ?_, ?_⟩, x, hfis, rfl, ?_, ?_⟩
  · rw [hcause]; exact ⟨rfl, rfl⟩
  · have e : t5.cause d = s1.cause d := by unfold State.cause; exact congrArg (fun f => peek f.causes d) hfis
    rw [e]
    show (setCause c x s).cause d = _
    rw [setCause_cause, if_neg (fun k => hd k.1.symm)]
  · have e : t5.chan m = t0.chan m := h2.chan m
    rw [e, h0.chan m]
    simp only [mem_affected, hchan1]
  · have e : t5.input i = t0.input i := by unfold State.input; rw [h2.siq]
    rw [e, h0.input]
    simp only [mem_affected, hchan1, Bool.and_eq_true, bne_iff_ne, and_assoc]
    rfl
  · rw [h2.hsc]
    exact h0.grants.trans (by rw [hlist]; rfl)
  · rw [h2.hsc]
    exact h0.queue.trans (by rw [hlist]; rfl)
  · exact h0.off.trans (OffStays.of_hsc h2.hsc)
  · refine kind_queued _ t1 t5 ?_ hl
    exact (hk3.trans (hk4.trans hk5)).events
  · rw [h2.phase, h0.phase]; rfl
  · rw [h2.now, h0.now]; rfl
  · rw [h2.pins, h0.pins]; rfl
  · rw [h2.settings, h0.settings]; rfl
  · rw [h2.slp, h0.slp]; rfl
  · rw [h2.sfe, h0.rode]; rfl
  · rw [hfis]; rfl
  · rw [hfis]; rfl
  · rw [h2.hsc, h0.isolate]; rfl
  · rw [h2.siq]
    have : Cascade s1 t0 := hcas
    exact this.siq

/-- A raise in an undisturbed part, of a cause that does not trip (R106). -/
theorem raised_raise {s : State} (hu : Undisturbed s) {c : Nat} (hc : c < 16) (hp : (s.causeSetting c).cls = .self → (s.cause c).present = true)
    (htrip : (s.causeSetting c).trip = false ∨ s.fis.trip.isSome = true) (hq : s.emptiesQueue c) :
    Raised c s (raise send c s) ∧ ∃ x, (raise send c s).fis = { s.fis with causes := poke s.fis.causes c x } ∧ x.present = (s.cause c).present ∧
      (raise send c s).hsc.isolate = s.hsc.isolate ∧ (raise send c s).siq = { s.siq with inputs := (raise send c s).siq.inputs } := by
  have k := raised_core hu hc hp
  have e : raise send c s = raiseCore send c s := by
    have e2 : (if (s.causeSetting c).trip = true then takeTrip send c (raiseCore send c s) else raiseCore send c s) = raiseCore send c s := by
      rcases htrip with h | h
      · rw [if_neg (by rw [h]; decide)]
      · split
        · unfold takeTrip
          rw [k.1.kept.2.2.2.2.2.2.1]
          cases hh : s.fis.trip with
          | none => rw [hh] at h; cases h
          | some _ => rfl
        · rfl
    rw [raise_eq, e2]
    dsimp only
    rw [k.1.queue, hq]
    rfl
  rw [e]
  exact k

/-- A raise seen from a state with the same channels, inputs, supply, causes and settings. -/
theorem Raised.of_same {c : Nat} {s s' t : State} (h : Raised c s' t) (h1 : s'.mc = s.mc) (h2 : s'.siq = s.siq)
    (h3 : s'.hsc.grants = s.hsc.grants) (h4 : s'.hsc.queue = s.hsc.queue)
    (h5 : ∀ d, d ≠ c → s'.cause d = s.cause d) (h6 : s'.fis.faulted = s.fis.faulted) (h7 : s'.fis.trip = s.fis.trip)
    (h8 : s'.settings = s.settings) (h9 : s'.phase = s.phase) (h10 : s'.now = s.now) (h11 : s'.pins = s.pins) (h12 : s'.slp = s.slp)
    (h13 : s'.sfe.rode = s.sfe.rode) (h14 : OffStays s s') : Raised c s t := by
  have ha : ∀ m, s'.affects c m = s.affects c m := fun m => by unfold State.affects State.stationFaulted; rw [h6]
  have hc : ∀ m, s'.chan m = s.chan m := fun m => by unfold State.chan; rw [h1]
  have hi : ∀ i, s'.input i = s.input i := fun i => by unfold State.input; rw [h2]
  have hl : s'.stopsRunning c = s.stopsRunning c := by unfold State.stopsRunning; simp only [ha, hc]
  have hs : s'.affectedSet c = s.affectedSet c := by unfold State.affectedSet; simp only [ha]
  have hcs : s'.causeSetting c = s.causeSetting c := by unfold State.causeSetting; rw [h8]
  obtain ⟨a1, a2, a3, a4, a5, a6, a7, a8, a9, b1, b2, b3, b4, b5, b6, b7, b8⟩ := h
  refine ⟨h10 ▸ a1, fun d hd => (a2 d hd).trans (h5 d hd), fun m => ?_, fun i => ?_, ?_, ?_, fun hp => ?_, a8, fun hl' => ?_, b1.trans h9, b2.trans h10,
    b3.trans h11, b4.trans h8, b5.trans h12, b6.trans h13, b7.trans h7, b8.trans h6⟩
  · have := a3 m; rw [ha, hc] at this; exact this
  · have := a4 i; rw [ha, hc, hi, h8] at this; exact this
  · rw [a5, hl, h3]
  · rw [a6, hl, h4]
  · exact (h14.trans a7) hp
  · rw [← hs, ← hcs]; exact a9 hl'

theorem Raised.emptiesQueue_of {s s' : State} {c : Nat} (h : s.emptiesQueue c) (h1 : s'.mc = s.mc) (h4 : s'.hsc.queue = s.hsc.queue)
    (h6 : s'.fis.faulted = s.fis.faulted) : s'.emptiesQueue c := by
  have ha : ∀ m, s'.affects c m = s.affects c m := fun m => by unfold State.affects State.stationFaulted; rw [h6]
  have hc : ∀ m, s'.chan m = s.chan m := fun m => by unfold State.chan; rw [h1]
  unfold State.emptiesQueue State.stopsRunning at *
  simp only [ha, hc, h4]
  exact h

/-- A cause at rest whose condition is reported present is raised (R105, R106). -/
theorem raised_report {s : State} (hu : Undisturbed s) {c : Nat} (hc : c < 16) (hp : (s.cause c).present = false) (ha : (s.cause c).active = false)
    (htrip : (s.causeSetting c).trip = false ∨ s.fis.trip.isSome = true) (hq : s.emptiesQueue c) :
    Raised c s (report send c true s) ∧ ((report send c true s).cause c).present = true ∧
      (report send c true s).hsc.isolate = s.hsc.isolate ∧ (report send c true s).siq = { s.siq with inputs := (report send c true s).siq.inputs } := by
  have e : report send c true s = raise send c (setCause c { s.cause c with present := true } s) := by
    unfold report
    dsimp only
    rw [hp, ha]
    rfl
  have hx : (setCause c { s.cause c with present := true } s).cause c = { s.cause c with present := true } := by
    rw [setCause_cause]; simp [hc]
  have hu1 : Undisturbed (setCause c { s.cause c with present := true } s) := by
    refine ⟨hu.1, fun d hd hda hcl => ?_⟩
    by_cases hdc : c = d
    · subst hdc; rw [hx]
    · rw [setCause_cause, if_neg (fun k => hdc k.1)] at hda ⊢
      exact hu.2 d hd hda hcl
  obtain ⟨k1, x, k2, k3, k4, k5⟩ := raised_raise hu1 hc (fun _ => by rw [hx]) htrip (Raised.emptiesQueue_of (s := s) hq rfl rfl rfl)
  rw [e]
  refine ⟨k1.of_same rfl rfl rfl rfl (fun d hd => ?_) rfl rfl rfl rfl rfl rfl rfl rfl (OffStays.of_hsc rfl), ?_, k4, k5⟩
  · rw [setCause_cause, if_neg (fun k => hd k.1.symm)]
  · have e3 : ∀ u : State, u.cause c = peek u.fis.causes c := fun _ => rfl
    rw [e3, k2]
    show (peek (poke _ c x) c).present = true
    rw [peek_poke, if_pos ⟨rfl, hc⟩, k3, hx]

theorem setCause_raised {c : Nat} (hc : c < 16) {s t : State} (h : Raised c s t) :
    Raised c s (setCause c { t.cause c with present := false } t) := by
  obtain ⟨a1, a2, a3, a4, a5, a6, a7, a8, a9, b⟩ := h
  refine ⟨?_, fun d hd => ?_, a3, a4, a5, a6, a7, a8, a9, b⟩
  · rw [setCause_cause, if_pos ⟨rfl, hc⟩]; exact a1
  · rw [setCause_cause, if_neg (fun k => hd k.1.symm)]; exact a2 d hd

/-- A condition that is an event: reported absent again, of a cause that is not SELF, it moves its record alone (R105). -/
theorem reportEvent_eq {s : State} {c : Nat} (hcl : (s.causeSetting c).cls ≠ .self) (hs : (report send c true s).settings = s.settings) :
    reportEvent send c s = setCause c { (report send c true s).cause c with present := false } (report send c true s) := by
  show report send c false (report send c true s) = _
  generalize report send c true s = u at *
  show trySelfClear send c (setCause c { u.cause c with present := false } u) = _
  unfold trySelfClear
  rw [if_neg]
  rintro ⟨-, h2, -⟩
  apply hcl
  have : (setCause c { u.cause c with present := false } u).causeSetting c = s.causeSetting c := by
    unfold State.causeSetting; show peek u.settings.causes c = _; rw [hs]
  rw [← this]; exact h2

/-- A cause at rest, not SELF, whose condition is an event is raised by it (R105, R106). -/
theorem raised_event {s : State} (hu : Undisturbed s) {c : Nat} (hc : c < 16) (hp : (s.cause c).present = false) (ha : (s.cause c).active = false)
    (hcl : (s.causeSetting c).cls ≠ .self) (htrip : (s.causeSetting c).trip = false ∨ s.fis.trip.isSome = true) (hq : s.emptiesQueue c) :
    Raised c s (reportEvent send c s) ∧ ((reportEvent send c s).cause c).present = false ∧ (reportEvent send c s).hsc.isolate = s.hsc.isolate := by
  obtain ⟨k1, k2, k3, -⟩ := raised_report hu hc hp ha htrip hq
  rw [reportEvent_eq hcl k1.kept.2.2.2.1]
  refine ⟨setCause_raised hc k1, ?_, k3⟩
  rw [setCause_cause, if_pos ⟨rfl, hc⟩]

end Sys2Proof.Machine
end

