-- ==== Sys2Proof/Laws/Removal.lean ====
section
/-! SUPPORT. The clears of causes and of the trip record (R110, R113, R114). -/

namespace Sys2Proof.Machine

variable {go : Go} {s t u : State}

theorem Cascade.clearing (h : Cascade s t) : Clearing [] s t :=
  ⟨h.phase, h.pins, h.settings, h.slp, h.rode, h.position, nofun, fun _ _ k c => h.causeActive k c,
   fun _ hp k => ⟨(h.causeResting hp k).1, fun e => (h.causeResting hp k).2.trans e⟩, fun _ k => h.stillPending k, nofun⟩

theorem Clearing.trans {cs : List Nat} (h : Clearing cs s t) (k : Clearing [] t u) : Clearing cs s u := by
  have hcls : ∀ d, t.causeSetting d = s.causeSetting d := fun d => by unfold State.causeSetting; rw [h.settings]
  refine ⟨k.phase.trans h.phase, k.pins.trans h.pins, k.settings.trans h.settings, k.slp.trans h.slp, k.rode.trans h.rode, fun m => (k.position m).trans (h.position m), fun c h1 h2 h3 => ?_, fun c h1 h2 h3 => ?_, fun c h1 h2 => ?_, fun x hx => k.pending x (h.pending x hx), fun h1 => k.pending _ (h.records h1)⟩
  · have g := h.gone c h1 h2 h3
    have r := k.rest c h3 g.1
    exact ⟨r.1, r.2 g.2⟩
  · have g := h.stay c h1 h2 h3
    have r := k.stay c (by simp) g.1 (by rw [hcls]; exact h3)
    exact ⟨r.1, r.2.trans g.2⟩
  · have g := h.rest c h1 h2
    have r := k.rest c h1 g.1
    exact ⟨r.1, fun e => r.2 (g.2 e)⟩

theorem clearing_of_causes (h1 : t.phase = s.phase) (h2 : t.pins = s.pins) (h3 : t.settings = s.settings) (h4 : t.slp = s.slp) (h5 : t.sfe = s.sfe) (h6 : t.mc = s.mc) (h7 : t.fis.causes = s.fis.causes) (h8 : t.sto = s.sto) : Clearing [] s t := by
  have hc : ∀ c, t.cause c = s.cause c := fun c => by unfold State.cause; rw [h7]
  refine ⟨h1, h2, h3, h4, by rw [h5], fun m => by unfold State.chan; rw [h6], nofun, fun c _ k _ => by rw [hc]; exact ⟨k, rfl⟩, fun c _ k => by rw [hc]; exact ⟨k, fun e => e⟩, fun _ k => by rw [h8]; exact k, nofun⟩

theorem clearing_reconsiderIsolate (hc : Cascades go) (s : State) : Clearing [] s (reconsiderIsolate go s) := by
  unfold reconsiderIsolate
  dsimp only
  split
  · rename_i h
    exact (cascade_assertIsolate hc (reconsider_wanted h) (.refl s)).clearing
  · split
    · have k0 : Clearing [] s (s.onHsc fun h => { h with isolate := false }) := clearing_of_causes rfl rfl rfl rfl rfl rfl rfl rfl
      refine k0.trans (Cascade.clearing ?_)
      unfold releaseIsolate
      exact cascade_foldl _ (fun m _ hs => cascade_publish hc _ (hc.step hs _)) (cascade_publishAll hc _ (.refl _))
    · exact (Cascade.refl s).clearing

theorem clearing_removeTrip (hc : Cascades go) (s : State) : Clearing [] s (removeTrip go s) := by
  have k0 : Clearing [] s (s.onFis fun f => { f with trip := none }) := clearing_of_causes rfl rfl rfl rfl rfl rfl rfl rfl
  have k1 := k0.trans (cascade_publish hc Item.tripRecorded (.refl _)).clearing
  have k2 := k1.trans (cascade_requestWrite hc .records false (.refl _)).clearing
  exact k2.trans (clearing_reconsiderIsolate hc _)

theorem removeTrip_pending (hc : Cascades go) (s : State) : isPending .records (removeTrip go s).sto.queue = true :=
  (clearing_reconsiderIsolate hc _).pending _ (requestWrite_pending hc _ _ _)

/-- What removing the trip record does, with no input VALID and no host entry. -/
theorem removeTrip_calm (hgo : Quiet go) (hn : NoHostEntries s) (hv : ∀ m, s.anyValid m = false) (hi : s.pins.estop = true → s.hsc.isolate = true) :
    Calm { s with fis := { s.fis with trip := none }, hsc := { s.hsc with isolate := s.pins.estop } } (removeTrip go s) := by
  have k1 : Calm (s.onFis fun f => { f with trip := none }) (publish go (s.onFis fun f => { f with trip := none }) Item.tripRecorded) :=
    calm_publish hgo (s := s.onFis _) hn (by unfold Plain; decide)
  have k2 := k1.trans (calm_requestWrite hgo (k1.noHostEntries hn) .records false)
  unfold removeTrip
  revert k2
  generalize requestWrite go .records false (publish go (s.onFis fun f => { f with trip := none }) Item.tripRecorded) = w
  intro k2
  have e1 : w.pins = s.pins := k2.pins
  have e2 : w.fis.trip = none := by rw [k2.fis]; rfl
  have e3 : w.hsc = s.hsc := k2.hsc
  unfold reconsiderIsolate
  dsimp only
  rw [e1, e2, e3]
  cases he : s.pins.estop
  · simp only [Option.isSome_none, Bool.or_self, Bool.false_and, Bool.false_eq_true, if_false, Bool.not_false, Bool.true_and]
    have base : ∀ v, v = w.onHsc (fun h => { h with isolate := false }) → Calm { s with fis := { s.fis with trip := none }, hsc := { s.hsc with isolate := false } } v := fun v hv => by
      subst hv
      unfold Calm at k2 ⊢
      rw [k2]; rfl
    split
    · unfold releaseIsolate
      have b := base _ rfl
      have hnw : NoHostEntries (w.onHsc (fun h => { h with isolate := false })) := k2.noHostEntries hn
      have kp := calm_publishAll hgo hnw [Item.isolated, Item.isolateOut] (by unfold Plain; decide)
      have hvw : ∀ m, (w.onHsc (fun h => { h with isolate := false })).anyValid m = false := fun m => (anyValid_siq (k2.siq) m).trans (hv m)
      refine b.trans (kp.trans ?_)
      have : ∀ (xs : List MachineId) (x : State), NoHostEntries x → (∀ m, x.anyValid m = false) → Calm x (xs.foldl (fun s m => publish go (go (.tryStart m) s) (Item.blocked m)) x) := by
        intro xs
        induction xs with
        | nil => exact fun x _ _ => .refl x
        | cons m xs ih =>
          intro x h1 h2
          rw [List.foldl_cons, hgo.start x m (h2 m)]
          have q := calm_publish hgo h1 (r := Item.blocked m) (by cases m <;> (unfold Plain; decide))
          exact q.trans (ih _ (q.noHostEntries h1) fun k => (anyValid_siq q.siq k).trans (h2 k))
      exact this _ _ (kp.noHostEntries hnw) fun m => (anyValid_siq kp.siq m).trans (hvw m)
    · rename_i hf
      refine base w ?_
      have : w.hsc.isolate = false := by rw [e3]; simpa using hf
      unfold State.onHsc
      rw [← this]
  · have hh := hi he
    simp only [Option.isSome_none, Bool.or_false, Bool.true_and, hh, Bool.not_true, Bool.false_eq_true, if_false, Bool.false_and]
    unfold Calm at k2 ⊢
    rw [k2]
    show _ = { s with fis := _, hsc := _, seu := _, zae := _, ind := _, sto := _ }
    have : ({ s.hsc with isolate := true } : Hsc) = s.hsc := by rw [← hh]
    rw [this]; rfl

theorem toClear_spec (v : State) (k : CauseClass) (b : Byte) (x : CauseChoice) (hx : causesNamed b = some x) :
    (b ≠ 0xFF → (v.cause b.toNat).active = true → v.clearable k b.toNat = false → v.toClear k x = none) ∧
    (b = 0xFF ∨ (v.cause b.toNat).active = false ∨ v.clearable k b.toNat = true → ∃ cs, v.toClear k x = some cs ∧ ∀ c, c ∈ cs ↔ c < 16 ∧ (b = 0xFF ∨ c = b.toNat) ∧ v.clearable k c = true) := by
  unfold causesNamed at hx
  by_cases hb : b = 0xFF
  · rw [if_pos hb] at hx
    injection hx with hx; subst hx
    refine ⟨fun h => absurd hb h, fun _ => ⟨_, rfl, fun c => ?_⟩⟩
    unfold causeIndexes
    rw [List.mem_filter, List.mem_range]
    simp [hb]
  · rw [if_neg hb] at hx
    unfold indexNamed at hx
    by_cases h16 : b.toNat < 16
    · rw [if_pos h16] at hx
      injection hx with hx; subst hx
      unfold State.toClear
      refine ⟨fun _ h1 h2 => by dsimp only; rw [if_pos h1, h2]; rfl, fun h => ?_⟩
      dsimp only
      rcases h with h | h | h
      · exact absurd h hb
      · refine ⟨[], by rw [if_neg (by rw [h]; simp)], fun c => ⟨nofun, ?_⟩⟩
        rintro ⟨-, h1 | h1, h2⟩
        · exact absurd h1 hb
        · subst h1; unfold State.clearable at h2; rw [h] at h2; simp at h2
      · have ha : (v.cause b.toNat).active = true := by unfold State.clearable at h; simp at h; exact h.1.1
        refine ⟨[b.toNat], by rw [if_pos ha, if_pos h], fun c => ?_⟩
        rw [List.mem_singleton]
        constructor
        · rintro rfl; exact ⟨h16, .inr rfl, h⟩
        · rintro ⟨-, h1 | h1, -⟩
          · exact absurd h1 hb
          · exact h1
    · rw [if_neg h16] at hx; cases hx

theorem heard_isolate (s : State) (h : s.hsc.isolate = true) : (heard s).hsc.isolate = true := by
  rcases heard_cascade s with k | ⟨v, k1, k2⟩
  · exact k.isolate h
  · exact k2.isolate (k1.isolate h)

theorem codes_named : ∀ b : Byte, (b ∈ (0xFF :: (List.range 16).map fun c => BitVec.ofNat 8 c)) ↔ (causesNamed b).isSome = true := by decide

end Sys2Proof.Machine
end

