-- ==== Sys2Proof/Laws/Samples.lean ====
section
/-! SUPPORT. Position samples: the two sensor checks, and the demand that a channel hands to the supply (R10, R16, R37 to R39, R51,
R52, R73 to R75). -/

namespace Sys2Proof.Machine

variable {go : Go} {a s : State}

/-! ## The channel's part of a sample -/

theorem cascade_handDemand (hgo : Cascades go) (m : MachineId) (v : Nat) (h : Cascade a s) : Cascade a (handDemand go m v s) :=
  cascade_ite (fun hf => cascade_recompute_demand hgo m _ rfl (fun k => by rw [show ChanState.isFlowing _ = _ from hf] at k; cases k) h)
    fun _ => h

theorem cascade_stoppingSample (hgo : Cascades go) (m : MachineId) (h : Cascade a s) : Cascade a (stoppingSample go m s) :=
  cascade_ite (fun _ => cascade_stopComplete hgo m h) fun _ => cascade_handDemand hgo m _ h

theorem cascade_movingSample (hgo : Cascades go) (m : MachineId) (h : Cascade a s) : Cascade a (movingSample go m s) := by
  unfold movingSample
  split
  · exact h
  · split
    · exact cascade_stoppingSample hgo m (cascade_enter hgo m _ (cascade_noteReason m _ h))
    · exact cascade_handDemand hgo m _ h

theorem cascade_mcSample (hgo : Cascades go) (m : MachineId) (h : Cascade a s) : Cascade a (mcSample go m s) := by
  unfold mcSample
  split
  · exact cascade_movingSample hgo m h
  · exact cascade_stoppingSample hgo m h
  all_goals exact h

/-! ## The sensor checks -/

theorem setSensors_self (m : MachineId) (s : State) : setSensors m (s.sensors m) s = s := by cases m <;> rfl

/-- The machine has sensors of its own. -/
theorem setSensors_sensors {m : MachineId} (hm : m ≠ .w) (x : SensorRec) (s : State) (k : MachineId) :
    (setSensors m x s).sensors k = if k = m ∨ (m = .p ∧ k = .w) then x else s.sensors k := by
  cases m <;> cases k <;> first | contradiction | rfl

/-- A condition that changes is reported, one that does not is not: the sensors and the cause's record are what a check changes
directly (R74, R75). -/
theorem check_spec (m : MachineId) (c : Nat) (hc : c < 16) (y : SensorRec) (old new : Bool) (s : State) :
    ∃ x, Cascade (setCause c x (setSensors m y s))
        (if new = old then setSensors m y s else report send c new (setSensors m y s)) ∧
      x.present = (if new = old then (s.cause c).present else new) ∧
      (new = old → x = s.cause c) ∧
      (new = true → old = false → (s.cause c).present = false → x.active = true ∧
        x.raisedAt = if (s.cause c).active = true then (s.cause c).raisedAt else some s.now) := by
  have hx : (setSensors m y s).cause c = s.cause c := by cases m <;> rfl
  have hn : (setSensors m y s).now = s.now := by cases m <;> rfl
  by_cases h : new = old
  · refine ⟨s.cause c, ?_, ?_, fun _ => rfl, fun h1 h2 => ?_⟩
    · rw [if_pos h, ← hx, setCause_self]; exact .refl _
    · rw [if_pos h]
    · rw [h1, h2] at h; cases h
  · rw [if_neg h, if_neg h]
    cases new
    · refine ⟨{ s.cause c with present := false }, ?_, rfl, fun k => absurd k h, nofun⟩
      rw [← hx]
      exact report_absent c _
    · obtain ⟨x, k1, k2, k3, k4⟩ := report_present c hc (setSensors m y s)
      refine ⟨x, k1, k2, fun k => absurd k h, fun _ _ hp => ?_⟩
      rw [hx, hn] at k4
      exact k4 hp

theorem checkOvertravel_eq (go : Go) (m : MachineId) (s : State) :
    checkOvertravel go m s =
      let y := { s.sensors m with overtravel := (s.sensors m).overtravels }
      if (s.sensors m).overtravels = (s.sensors m).overtravel then setSensors m y s
      else report go (overtravelCause m) (s.sensors m).overtravels (setSensors m y s) := by
  unfold checkOvertravel
  dsimp only
  split
  · rename_i h
    rw [h]
    exact (setSensors_self m s).symm
  · rfl

/-- The sensors after the disagreement check (R74). -/
def SensorRec.afterCheck (x : SensorRec) (tol count : Nat) : SensorRec :=
  if x.disagrees tol = true then
    { x with disagree := min (x.disagree + 1) count, sensorBad := x.sensorBad || decide (min (x.disagree + 1) count = count) }
  else { x with disagree := 0, sensorBad := false }

theorem checkDisagreement_eq (go : Go) (m : MachineId) (s : State) :
    checkDisagreement go m s =
      let y := (s.sensors m).afterCheck (s.sensorParams m).tol (s.sensorParams m).disagreeCount
      if y.sensorBad = (s.sensors m).sensorBad then setSensors m y s
      else report go (sensorCause m) y.sensorBad (setSensors m y s) := by
  unfold checkDisagreement SensorRec.afterCheck
  generalize s.sensors m = x
  obtain ⟨ca, cb, ra, rb, d, bad, ov⟩ := x
  dsimp only
  generalize SensorRec.disagrees _ _ = g
  generalize hn : min (d + 1) (s.sensorParams m).disagreeCount = n
  cases g <;> cases bad <;> by_cases hq : n = (s.sensorParams m).disagreeCount <;> simp [hq]

/-! ## Flow sharing -/

theorem sharesFlow_recompute (hgo : Quiet go) (h : NoHostEntries s) : SharesFlow (recompute go s) := by
  have k := calm_recompute hgo h
  have hch : ∀ m, (recompute go s).chan m = s.shared m := fun m => (k.chan m).trans (shareCore_chan s m)
  have hst : ∀ m, (s.shared m).state = (s.chan m).state := fun m => by rw [shared_eq]
  have hfl : ∀ m, (s.shared m).flow = (s.chan m).flow := fun m => by rw [shared_eq]
  have hde : ∀ m, (s.shared m).demand = (s.chan m).demand := fun m => by rw [shared_eq]
  have hhsc : (recompute go s).hsc = { s.hsc with
      pn := s.pinFlow, avail := s.availFlow, total := s.totalFlow, scaled := decide (s.availFlow < s.totalFlow) } := by
    rw [k.hsc, shareCore_eq]
  have hset : (recompute go s).settings = s.settings := k.settings.trans (shareCore_settings s)
  have hdr : ∀ m, (recompute go s).draws m = s.draws m := fun m => by
    unfold State.draws State.granted
    rw [hch, hst, hhsc]
  refine ⟨?_, ?_, ?_, ?_, fun m hm => ?_, fun m hm => ?_, ?_⟩
  · rw [hhsc, hch, hst, hset]; rfl
  · rw [hhsc, hset]; rfl
  · rw [hhsc]
    simp only [hdr, hch, hfl]
    show s.totalFlow = _
    unfold State.totalFlow machines
    simp only [List.foldl_cons, List.foldl_nil, List.map_cons, List.map_nil, List.sum_cons, List.sum_nil]
    cases s.draws .w <;> cases s.draws .p <;> cases s.draws .h <;> (simp; try omega)
  · refine ⟨by rw [hhsc], ?_⟩
    show (publish go (shareCore s) Item.scaled).item Item.scaled = _
    rw [item_publish hgo (h.of_settings (shareCore_settings s)) (by unfold Plain; decide) rfl, if_pos rfl, hhsc, shareCore_eq]
    rfl
  · have hq : (recompute go s).params m = s.params m := by unfold State.params; rw [hset]
    rw [hdr] at hm
    rw [hch, hhsc, hq]
    unfold State.shared
    dsimp only
    rw [if_pos hm]
    unfold shareOf
    dsimp only
    refine ⟨fun h0 => by rw [if_pos h0]; exact ⟨rfl, rfl⟩, fun h0 h1 => ?_, fun h0 h1 => ?_⟩
    · rw [if_neg h0, if_pos h1]; exact ⟨rfl, rfl⟩
    · rw [if_neg h0, if_neg (Nat.not_le.mpr h1)]; exact ⟨rfl, rfl⟩
  · rw [hdr] at hm
    rw [hch]
    unfold State.shared
    dsimp only
    rw [if_neg (by rw [hm]; decide)]
    exact ⟨rfl, rfl⟩
  · have e1 : (recompute go s).sfe = (shareCore s).sfe := k.sfe
    have e2 : ∀ u : State, (stallCheck u).sfe.stall.isSome =
        ((u.chan .w).state == .moving && decide (u.settings.machines.windlass.stallDemand ≤ (u.chan .w).applied)) := fun u => by
      unfold stallCheck
      dsimp only
      split
      · rename_i hc
        rw [hc.1, decide_eq_true hc.2]
        split
        · rename_i w hw; rw [hw]; rfl
        · rfl
      · rename_i hc
        symm
        show _ = false
        rw [Bool.and_eq_false_iff, beq_eq_false_iff_ne, decide_eq_false_iff_not]
        by_cases hm : (u.chan .w).state = .moving
        · exact .inr fun h => hc ⟨hm, h⟩
        · exact .inl hm
    rw [e1, hset, hch]
    exact e2 _

/-- The flow shares stay where channels, supply, settings and the item do. -/
theorem SharesFlow.of_same {s t : State} (h : SharesFlow s) (h1 : t.mc = s.mc) (h2 : t.hsc = s.hsc) (h3 : t.settings = s.settings)
    (h4 : t.item Item.scaled = s.item Item.scaled) (h5 : t.sfe.stall = s.sfe.stall) : SharesFlow t := by
  have hc : ∀ m, t.chan m = s.chan m := fun m => by unfold State.chan; rw [h1]
  have hd : ∀ m, t.draws m = s.draws m := fun m => by unfold State.draws State.granted; rw [hc, h2]
  have hp : ∀ m, t.params m = s.params m := fun m => by unfold State.params; rw [h3]
  obtain ⟨a1, a2, a3, a4, a5, a6, a7⟩ := h
  refine ⟨?_, ?_, ?_, ?_, fun k => ?_, fun k => ?_, ?_⟩
  · rw [h2, hc, h3]; exact a1
  · rw [h2, h3]; exact a2
  · rw [h2]; simp only [hd, hc]; exact a3
  · rw [h2, h4]; exact a4
  · rw [hd, hc, h2, hp]; exact a5 k
  · rw [hd, hc]; exact a6 k
  · rw [h5, hc, h3]; exact a7

end Sys2Proof.Machine
end

