-- ==== Sys2Proof/Laws/SampleSteps.lean ====
section
/-! SUPPORT. What a whole position sample leaves: the sensors and conditions, the position items, and the channel in MOVING or STOPPING (R24 to R39, R73 to R76). -/

namespace Sys2Proof.Machine

/-- The state after a platform or hatch sample has formed position and items, before the checks. -/
def formed (m : MachineId) (a b : Nat) (s : State) : State :=
  refreshDisplay m (publishAll send (positionItems m) (takeCounts m a b s))

theorem takeCounts_sensors {m : MachineId} (hm : m ≠ .w) (a b : Nat) (s : State) : (takeCounts m a b s).sensors m = s.sampled m a b := by
  cases m <;> first | contradiction | rfl

theorem takeCounts_eq (m : MachineId) (a b : Nat) (s : State) : takeCounts m a b s =
    { s with mc := s.mc.set m { s.chan m with position := meanPosition (s.sampled m a b).rawA (s.sampled m a b).rawB }, sfe := (takeCounts m a b s).sfe } := by
  cases m <;> rfl

theorem sampled_pins (s : State) (p : Pins) (m : MachineId) (a b : Nat) : (s.onPins fun _ => p).sampled m a b = s.sampled m a b := rfl

/-- The sensors after both checks. -/
def checkedSensors (m : MachineId) (a b : Nat) (s : State) : SensorRec :=
  let y := s.sampled m a b
  { y.afterCheck (s.sensorParams m).tol (s.sensorParams m).disagreeCount with overtravel := y.overtravels }

theorem afterCheck_overtravel (x : SensorRec) (v : Bool) (t n : Nat) : ({ x with overtravel := v } : SensorRec).afterCheck t n = { x.afterCheck t n with overtravel := v } := by
  unfold SensorRec.afterCheck
  have : ({ x with overtravel := v } : SensorRec).disagrees t = x.disagrees t := rfl
  rw [this]
  split <;> rfl

theorem setSensors_settings (m : MachineId) (x : SensorRec) (s : State) : (setSensors m x s).settings = s.settings := by cases m <;> rfl

theorem sensor_sample_spec {m : MachineId} (hm : m ≠ .w) (a b : Nat) (s : State) :
    let y := s.sampled m a b
    let z := checkedSensors m a b s
    let t := sensorSample send m a b s
    ∃ x₁ x₂ v, Cascade (takeCounts m a b s) (formed m a b s) ∧
      Cascade (setCause (overtravelCause m) x₁ (setSensors m { y with overtravel := y.overtravels } (formed m a b s))) v ∧
      Cascade (setCause (sensorCause m) x₂ (setSensors m z v)) t ∧
      x₁.present = (if y.overtravels = y.overtravel then ((formed m a b s).cause (overtravelCause m)).present else y.overtravels) ∧
      x₂.present = (if z.sensorBad = y.sensorBad then (v.cause (sensorCause m)).present else z.sensorBad) ∧
      (y.overtravels = true → y.overtravel = false → ((formed m a b s).cause (overtravelCause m)).present = false → x₁.active = true ∧
        x₁.raisedAt = if ((formed m a b s).cause (overtravelCause m)).active = true then ((formed m a b s).cause (overtravelCause m)).raisedAt else some (formed m a b s).now) ∧
      (z.sensorBad = true → y.sensorBad = false → (v.cause (sensorCause m)).present = false → x₂.active = true ∧
        x₂.raisedAt = if (v.cause (sensorCause m)).active = true then (v.cause (sensorCause m)).raisedAt else some v.now) ∧
      (y.overtravels = y.overtravel → x₁ = (formed m a b s).cause (overtravelCause m)) ∧
      (z.sensorBad = y.sensorBad → x₂ = v.cause (sensorCause m)) := by
  intro y z t
  have k0 : Cascade (takeCounts m a b s) (formed m a b s) := cascade_refreshDisplay m (cascade_publishAll cascades_send _ (.refl _))
  have e0 : (formed m a b s).sensors m = y := by rw [k0.sensors, takeCounts_sensors hm]
  have hsame : t = mcSample send m (checkDisagreement send m (checkOvertravel send m (formed m a b s))) := rfl
  clear_value t
  generalize formed m a b s = f at *
  have ho : overtravelCause m < 16 := by cases m <;> decide
  have hs : sensorCause m < 16 := by cases m <;> decide
  obtain ⟨x₁, c1, c2, c2', c3⟩ := check_spec m (overtravelCause m) ho { y with overtravel := y.overtravels } y.overtravel y.overtravels f
  have e1 : checkOvertravel send m f = _ := checkOvertravel_eq send m _
  rw [e0] at e1
  dsimp only at e1
  rw [← e1] at c1
  generalize hv : checkOvertravel send m f = v at *
  have e2 : v.sensors m = { y with overtravel := y.overtravels } := by
    rw [c1.sensors]
    show (setSensors m _ _).sensors m = _
    rw [setSensors_sensors hm, if_pos (.inl rfl)]
  have e3 : v.sensorParams m = s.sensorParams m := by
    have h1 : v.settings = s.settings := by
      rw [c1.settings]
      show (setSensors m _ _).settings = _
      rw [setSensors_settings, k0.settings, takeCounts_eq]
    unfold State.sensorParams; rw [h1]
  obtain ⟨x₂, d1, d2, d2', d3⟩ := check_spec m (sensorCause m) hs z y.sensorBad z.sensorBad v
  have e4 : checkDisagreement send m v = _ := checkDisagreement_eq send m v
  rw [e2, e3, afterCheck_overtravel] at e4
  dsimp only at e4
  have e4' : checkDisagreement send m v = if z.sensorBad = y.sensorBad then setSensors m z v else report send (sensorCause m) z.sensorBad (setSensors m z v) := e4
  rw [← e4'] at d1
  refine ⟨x₁, x₂, v, k0, c1, ?_, c2, d2, c3, d3, c2', d2'⟩
  rw [hsame]
  exact cascade_mcSample cascades_send m d1

theorem raw_eq (c : Calibration) (n : Nat) : c.raw n = if c.c0 = c.c1 then none else some ((((n : Int) - c.c0) * 1000).tdiv ((c.c1 : Int) - c.c0)) := by
  unfold Calibration.raw Calibration.missing
  by_cases h : c.c0 = c.c1 <;> simp [h]

theorem clamped_eq (r : Option Int) : clampedPosition r = (r.elim 0 fun v => max 0 (min v 1000)).toNat := by
  cases r <;> rfl

theorem overtravels_iff (x : SensorRec) : x.overtravels = true ↔ ∃ v w, x.rawA = some v ∧ x.rawB = some w ∧ (v < -50 ∨ 1050 < v ∨ w < -50 ∨ 1050 < w) := by
  unfold SensorRec.overtravels outsideTravel
  cases x.rawA <;> cases x.rawB <;> simp [or_assoc]

theorem disagrees_iff (x : SensorRec) (tol : Nat) : x.disagrees tol = true ↔ x.rawA ≠ none ∧ x.rawB ≠ none ∧
    tol < max (clampedPosition x.rawA) (clampedPosition x.rawB) - min (clampedPosition x.rawA) (clampedPosition x.rawB) := by
  unfold SensorRec.disagrees
  cases x.rawA <;> cases x.rawB <;> simp

theorem setSensors_frame (m : MachineId) (x : SensorRec) (s : State) : setSensors m x s = { s with sfe := { s.sfe with platform := (setSensors m x s).sfe.platform, hatch := (setSensors m x s).sfe.hatch } } := by
  cases m <;> rfl

theorem takeCounts_sfe (m : MachineId) (a b : Nat) (s : State) : (takeCounts m a b s).sfe = { s.sfe with platform := (takeCounts m a b s).sfe.platform, hatch := (takeCounts m a b s).sfe.hatch } := by
  cases m <;> rfl

/-- Setting a sensor record keeps all but it. -/
theorem setSensors_chan (m k : MachineId) (x : SensorRec) (s : State) : (setSensors m x s).chan k = s.chan k := by cases m <;> rfl

theorem setSensors_rode (m : MachineId) (x : SensorRec) (s : State) : (setSensors m x s).sfe.rode = s.sfe.rode ∧ (setSensors m x s).sfe.rodeUnknown = s.sfe.rodeUnknown := by cases m <;> exact ⟨rfl, rfl⟩

theorem setSensors_rest (m : MachineId) (x : SensorRec) (s : State) : (setSensors m x s).pins = s.pins ∧ (setSensors m x s).slp = s.slp ∧ (setSensors m x s).phase = s.phase ∧ (setSensors m x s).now = s.now := by cases m <;> exact ⟨rfl, rfl, rfl, rfl⟩

theorem setSensors_cause (m : MachineId) (x : SensorRec) (s : State) (c : Nat) : (setSensors m x s).cause c = s.cause c := by cases m <;> rfl

theorem setCause_sensors (m : MachineId) (c : Nat) (x : CauseRec) (s : State) : (setCause c x s).sensors m = s.sensors m := rfl

/-- What a sensor sample leaves, whatever follows from it. -/
structure SensorSampled (m : MachineId) (a b : Nat) (s t : State) : Prop where
  phase : t.phase = s.phase
  pins : t.pins = s.pins
  settings : t.settings = s.settings
  slp : t.slp = s.slp
  rode : t.sfe.rode = s.sfe.rode
  rodeUnknown : t.sfe.rodeUnknown = s.sfe.rodeUnknown
  position : ∀ k, (t.chan k).position = if k = m then meanPosition (s.sampled m a b).rawA (s.sampled m a b).rawB else (s.chan k).position
  sensors : t.sensors m = checkedSensors m a b s
  platform : m = .h → t.sfe.platform = s.sfe.platform
  hatch : m = .p → t.sfe.hatch = s.sfe.hatch
  travel : (t.cause (overtravelCause m)).present = if (checkedSensors m a b s).overtravel = (s.sensors m).overtravel then (s.cause (overtravelCause m)).present else (checkedSensors m a b s).overtravel
  sensor : (t.cause (sensorCause m)).present = if (checkedSensors m a b s).sensorBad = (s.sensors m).sensorBad then (s.cause (sensorCause m)).present else (checkedSensors m a b s).sensorBad
  raised : ∀ c, (c = sensorCause m ∧ (checkedSensors m a b s).sensorBad = true ∧ (s.sensors m).sensorBad = false) ∨
      (c = overtravelCause m ∧ (checkedSensors m a b s).overtravel = true ∧ (s.sensors m).overtravel = false) →
      (s.causeSetting c).cls ≠ .self → (s.cause c).present = false → (t.cause c).active = true ∧
            (t.cause c).raisedAt = if (s.cause c).active = true then (s.cause c).raisedAt else some s.now

theorem sensors_platform (s : State) : s.sensors .p = s.sfe.platform := rfl

theorem sensors_hatch (s : State) : s.sensors .h = s.sfe.hatch := rfl

theorem sampled_sensor {m : MachineId} (hm : m ≠ .w) (a b : Nat) (s : State) : SensorSampled m a b s (sensorSample send m a b s) := by
  obtain ⟨x₁, x₂, v, k0, k1, k2, p1, p2, q1, q2, r1, r2⟩ := sensor_sample_spec hm a b s
  generalize sensorSample send m a b s = t at *
  generalize hz : checkedSensors m a b s = z at *
  generalize hy : s.sampled m a b = y at *
  have hy' : y.overtravel = (s.sensors m).overtravel ∧ y.sensorBad = (s.sensors m).sensorBad := by rw [← hy]; exact ⟨rfl, rfl⟩
  have hz' : z.overtravel = y.overtravels := by rw [← hz, ← hy]; rfl
  generalize formed m a b s = f at *
  have h0 : (takeCounts m a b s).settings = s.settings ∧ (takeCounts m a b s).pins = s.pins ∧ (takeCounts m a b s).slp = s.slp ∧ (takeCounts m a b s).phase = s.phase ∧ (takeCounts m a b s).now = s.now ∧ (takeCounts m a b s).fis = s.fis := by
    rw [takeCounts_eq]; exact ⟨rfl, rfl, rfl, rfl, rfl, rfl⟩
  have hoc : overtravelCause m ≠ causeCreep ∧ overtravelCause m ≠ causePins ∧ sensorCause m ≠ causeCreep ∧ sensorCause m ≠ causePins ∧ overtravelCause m ≠ sensorCause m ∧ overtravelCause m < 16 ∧ sensorCause m < 16 := by cases m <;> decide
  have fst : f.settings = s.settings := k0.settings.trans h0.1
  have fpi : f.pins = s.pins := k0.pins.trans h0.2.1
  have fsl : f.slp = s.slp := k0.slp.trans h0.2.2.1
  have fph : f.phase = s.phase := k0.phase.trans h0.2.2.2.1
  have fno : f.now = s.now := k0.now.trans h0.2.2.2.2.1
  have vst : v.settings = s.settings := k1.settings.trans ((setSensors_settings m _ f).trans fst)
  have fcp : ∀ c, c ≠ causeCreep → c ≠ causePins → (f.cause c).present = (s.cause c).present := fun c h1 h2 => by
    rw [k0.causePresent h1 h2]; unfold State.cause; rw [h0.2.2.2.2.2]
  have tkc : ∀ c, (takeCounts m a b s).cause c = s.cause c := fun c => by unfold State.cause; rw [h0.2.2.2.2.2]
  have vno : v.now = s.now := by
    rw [k1.now]
    show (setSensors m _ f).now = _
    rw [(setSensors_rest m _ f).2.2.2, fno]
  have vcp : (v.cause (sensorCause m)).present = (s.cause (sensorCause m)).present := by
    rw [k1.causePresent hoc.2.2.1 hoc.2.2.2.1, setCause_cause, if_neg (by rintro ⟨h, -⟩; exact hoc.2.2.2.2.1 h), setSensors_cause]
    exact fcp _ hoc.2.2.1 hoc.2.2.2.1
  have actf : ∀ c, c ≠ causePins → (s.causeSetting c).cls ≠ .self → (f.cause c).active = (s.cause c).active ∧ (f.cause c).raisedAt = (s.cause c).raisedAt := fun c hp hc => by
    have hcs : ((takeCounts m a b s).causeSetting c) = s.causeSetting c := by unfold State.causeSetting; rw [h0.1]
    cases ha : (s.cause c).active
    · have := k0.causeResting hp ((congrArg CauseRec.active (tkc c)).trans ha)
      rw [tkc] at this; exact this
    · have := k0.causeActive ((congrArg CauseRec.active (tkc c)).trans ha) (by rw [hcs]; exact hc)
      rw [tkc] at this; exact this
  have actv : ∀ c, c = sensorCause m → (s.causeSetting c).cls ≠ .self → (v.cause c).active = (s.cause c).active ∧ (v.cause c).raisedAt = (s.cause c).raisedAt := fun c hs hc => by
    subst hs
    obtain ⟨g1, g2⟩ := actf _ hoc.2.2.2.1 hc
    have e : (setCause (overtravelCause m) x₁ (setSensors m { y with overtravel := y.overtravels } f)).cause (sensorCause m) = f.cause (sensorCause m) := by
      rw [setCause_cause, if_neg (by rintro ⟨h, -⟩; exact hoc.2.2.2.2.1 h), setSensors_cause]
    have hcs : (setCause (overtravelCause m) x₁ (setSensors m { y with overtravel := y.overtravels } f)).causeSetting (sensorCause m) = s.causeSetting (sensorCause m) := by
      unfold State.causeSetting; show peek (setSensors m _ f).settings.causes _ = _; rw [setSensors_settings, fst]
    cases ha : (s.cause (sensorCause m)).active
    · have := k1.causeResting hoc.2.2.2.1 (by rw [e, g1]; exact ha)
      rw [e, g2] at this; exact this
    · have := k1.causeActive (by rw [e, g1]; exact ha) (by rw [hcs]; exact hc)
      rw [e, g2] at this; exact this
  refine ⟨?_, ?_, ?_, ?_, ?_, ?_, fun k => ?_, ?_, fun h => ?_, fun h => ?_, ?_, ?_, ?_⟩
  · rw [k2.phase]; show (setSensors m z v).phase = _; rw [(setSensors_rest m z v).2.2.1, k1.phase]
    show (setSensors m _ f).phase = _; rw [(setSensors_rest m _ f).2.2.1, fph]
  · rw [k2.pins]; show (setSensors m z v).pins = _; rw [(setSensors_rest m z v).1, k1.pins]
    show (setSensors m _ f).pins = _; rw [(setSensors_rest m _ f).1, fpi]
  · rw [k2.settings]; show (setSensors m z v).settings = _; rw [setSensors_settings, vst]
  · rw [k2.slp]; show (setSensors m z v).slp = _; rw [(setSensors_rest m z v).2.1, k1.slp]
    show (setSensors m _ f).slp = _; rw [(setSensors_rest m _ f).2.1, fsl]
  · rw [k2.rode]; show (setSensors m z v).sfe.rode = _; rw [(setSensors_rode m z v).1, k1.rode]
    show (setSensors m _ f).sfe.rode = _; rw [(setSensors_rode m _ f).1, k0.rode]
    cases m <;> rfl
  · rw [k2.rodeUnknown]; show (setSensors m z v).sfe.rodeUnknown = _; rw [(setSensors_rode m z v).2, k1.rodeUnknown]
    show (setSensors m _ f).sfe.rodeUnknown = _; rw [(setSensors_rode m _ f).2, k0.rodeUnknown]
    cases m <;> rfl
  · rw [k2.position]
    show ((setSensors m z v).chan k).position = _
    rw [setSensors_chan, k1.position]
    show ((setSensors m _ f).chan k).position = _
    rw [setSensors_chan, k0.position]
    by_cases hk : k = m
    · subst hk; rw [if_pos rfl, takeCounts_eq]; show ((s.mc.set k _).get k).position = _; rw [Three.get_set, if_pos rfl]
    · rw [if_neg hk, takeCounts_eq]; show ((s.mc.set m _).get k).position = _; rw [Three.get_set, if_neg (Ne.symm hk)]; rfl
  · rw [hz, k2.sensors]; show (setSensors m z v).sensors m = _; rw [setSensors_sensors hm, if_pos (.inl rfl)]
  · subst h
    rw [k2.platform]; show v.sfe.platform = _; rw [k1.platform]; show f.sfe.platform = _; rw [k0.platform]; rfl
  · subst h
    rw [k2.hatch]; show v.sfe.hatch = _; rw [k1.hatch]; show f.sfe.hatch = _; rw [k0.hatch]; rfl
  · rw [hz, k2.causePresent hoc.1 hoc.2.1, setCause_cause, if_neg (by rintro ⟨h, -⟩; exact hoc.2.2.2.2.1 h.symm), setSensors_cause, k1.causePresent hoc.1 hoc.2.1, setCause_cause, if_pos ⟨rfl, hoc.2.2.2.2.2.1⟩, p1, hz', hy'.1, fcp _ hoc.1 hoc.2.1]
  · rw [hz, k2.causePresent hoc.2.2.1 hoc.2.2.2.1, setCause_cause, if_pos ⟨rfl, hoc.2.2.2.2.2.2⟩, p2, hy'.2, vcp]
  · intro c hc hcl hp
    rw [hz] at hc
    rcases hc with ⟨rfl, c1, c2⟩ | ⟨rfl, c1, c2⟩
    · obtain ⟨g1, g2⟩ := q2 c1 (hy'.2.trans c2) (vcp.trans hp)
      have hp2 : x₂.present = true := by rw [p2, if_neg (by rw [c1, hy'.2, c2]; decide)]; exact c1
      have e : (setCause (sensorCause m) x₂ (setSensors m z v)).cause (sensorCause m) = x₂ := by rw [setCause_cause, if_pos ⟨rfl, hoc.2.2.2.2.2.2⟩]
      obtain ⟨w1, w2, w3⟩ := k2.causeStands hoc.2.2.1 hoc.2.2.2.1 (by rw [e]; exact g1) (by rw [e]; exact hp2)
      rw [e, g2, (actv _ rfl hcl).1, (actv _ rfl hcl).2, vno] at w3
      exact ⟨w1, w3⟩
    · obtain ⟨g1, g2⟩ := q1 (hz' ▸ c1) (hy'.1.trans c2) ((fcp _ hoc.1 hoc.2.1).trans hp)
      have hp2 : x₁.present = true := by rw [p1, if_neg (by rw [← hz', c1, hy'.1, c2]; decide), ← hz']; exact c1
      have e : (setCause (overtravelCause m) x₁ (setSensors m { y with overtravel := y.overtravels } f)).cause (overtravelCause m) = x₁ := by rw [setCause_cause, if_pos ⟨rfl, hoc.2.2.2.2.2.1⟩]
      obtain ⟨w1, w2, w3⟩ := k1.causeStands hoc.1 hoc.2.1 (by rw [e]; exact g1) (by rw [e]; exact hp2)
      have e' : (setCause (sensorCause m) x₂ (setSensors m z v)).cause (overtravelCause m) = v.cause (overtravelCause m) := by
        rw [setCause_cause, if_neg (by rintro ⟨h, -⟩; exact hoc.2.2.2.2.1 h.symm), setSensors_cause]
      obtain ⟨u1, u2, u3⟩ := k2.causeStands hoc.1 hoc.2.1 (by rw [e']; exact w1) (by rw [e']; exact w2)
      rw [e', w3, e, g2, (actf _ hoc.2.1 hcl).1, (actf _ hoc.2.1 hcl).2, fno] at u3
      exact ⟨u1, u3⟩

theorem setSensors_twice (m : MachineId) (x y : SensorRec) (s : State) : setSensors m y (setSensors m x s) = setSensors m y s := by cases m <;> rfl

theorem quiet_sample {m : MachineId} (hm : m ≠ .w) {a b : Nat} {s : State} (h : s.agrees m a b) (go : Go) :
    let f := refreshDisplay m (publishAll go (positionItems m) (takeCounts m a b s))
    f.sensors m = s.sampled m a b → f.settings = s.settings →
    sensorSample go m a b s = mcSample go m (setSensors m (checkedSensors m a b s) f) ∧
      (checkedSensors m a b s).overtravel = (s.sensors m).overtravel ∧ (checkedSensors m a b s).sensorBad = (s.sensors m).sensorBad := by
  intro f e0 es
  obtain ⟨h1, h2, h3⟩ := h
  have hb : (s.sampled m a b).overtravel = (s.sensors m).overtravel ∧ (s.sampled m a b).sensorBad = (s.sensors m).sensorBad := ⟨rfl, rfl⟩
  have ez : ((s.sampled m a b).afterCheck (s.sensorParams m).tol (s.sensorParams m).disagreeCount).sensorBad = (s.sampled m a b).sensorBad := by
    unfold SensorRec.afterCheck
    split
    · rename_i hd
      rcases h3 hd with k | k
      · dsimp only; rw [k]; rfl
      · dsimp only
        rw [decide_eq_false (by omega), Bool.or_false]
    · rename_i hd
      dsimp only
      exact (h2 (by simpa using hd)).symm
  have hp : f.sensorParams m = s.sensorParams m := by unfold State.sensorParams; rw [es]
  refine ⟨?_, h1, ez⟩
  have e1 : checkOvertravel go m f = setSensors m { s.sampled m a b with overtravel := (s.sampled m a b).overtravels } f := by
    rw [checkOvertravel_eq, e0]; dsimp only; rw [if_pos h1]
  have e2 : checkDisagreement go m (checkOvertravel go m f) = setSensors m (checkedSensors m a b s) f := by
    have e3 : (checkOvertravel go m f).sensors m = { s.sampled m a b with overtravel := (s.sampled m a b).overtravels } := by
      rw [e1, setSensors_sensors hm, if_pos (.inl rfl)]
    have e4 : (checkOvertravel go m f).sensorParams m = s.sensorParams m := by
      rw [e1]; unfold State.sensorParams; rw [setSensors_settings, es]
    rw [checkDisagreement_eq, e3, e4, afterCheck_overtravel]
    dsimp only
    rw [if_pos ez, e1, setSensors_twice]
    rfl
  show mcSample go m (checkDisagreement go m (checkOvertravel go m f)) = _
  rw [e2]

theorem position_items (m : MachineId) : ∀ r ∈ positionItems m, r ∉ builtInItems ∧ r.exists = true := by cases m <;> decide

theorem seu_ind {a v t : State} (h : v = { a with seu := v.seu }) (k : t = { v with ind := t.ind }) :
    t = { a with seu := t.seu, ind := t.ind } := by
  cases a; cases v; cases t
  simp_all

/-- What forming a position changes without host entries. -/
theorem formed_eq {m : MachineId} {a b : Nat} {s : State} (h : NoHostEntries s) :
    formed m a b s = { takeCounts m a b s with seu := (formed m a b s).seu, ind := (formed m a b s).ind } := by
  have hn : NoHostEntries (takeCounts m a b s) := h.of_settings (by rw [takeCounts_eq])
  have k1 := silent_publishAll quiet_send hn (positionItems m) fun r hr => (position_items m r hr).1
  obtain ⟨k2, -⟩ := displayOnly_refresh m (publishAll send (positionItems m) (takeCounts m a b s))
  exact seu_ind k1 k2

theorem atInItem_of {s t : State} (h1 : t.mc = s.mc) (h2 : t.settings = s.settings) (m : MachineId) : t.atInItem m = s.atInItem m ∧ t.atOutItem m = s.atOutItem m := by
  unfold State.atInItem State.atOutItem State.uncalibrated State.atInEnd State.atOutEnd State.sensorParams State.params State.chan
  rw [h1, h2]; exact ⟨rfl, rfl⟩

theorem itemNow_position (s : State) : s.itemNow (Item.atIn .p) = s.atInItem .p ∧ s.itemNow (Item.atOut .p) = s.atOutItem .p ∧
    s.itemNow (Item.atIn .h) = s.atInItem .h ∧ s.itemNow (Item.atOut .h) = s.atOutItem .h ∧ s.itemNow Item.unsecured = s.isUnsecured := ⟨rfl, rfl, rfl, rfl, rfl⟩

/-- The position items after their publication (R76, R87). -/
theorem items_position {m : MachineId} (hm : m ≠ .w) {v : State} (hn : NoHostEntries v) :
    let t := publishAll send (positionItems m) v
    t.item (Item.atIn m) = v.atInItem m ∧ t.item (Item.atOut m) = v.atOutItem m ∧
      (m = .h → t.item Item.unsecured = (v.atInItem .h && !v.pins.pinsLk && (v.chan .h).state == .idle)) := by
  have k : ∀ r, r ∉ builtInItems → ∀ v : State, NoHostEntries v → Silent v (publish send v r) := fun r hr v hv => silent_publish quiet_send hv hr
  cases m
  · exact absurd rfl hm
  · have k1 := k (Item.atIn .p) (by decide) v hn
    have hn1 : NoHostEntries (publish send v (Item.atIn .p)) := hn.of_settings (by rw [k1])
    have i1 := item_publish quiet_send hn (r := Item.atIn .p) (by unfold Plain; decide) rfl
    have i2 := item_publish quiet_send hn1 (r := Item.atOut .p) (by unfold Plain; decide) rfl
    rw [(itemNow_position _).2.1, (atInItem_of (by rw [k1]) (by rw [k1]) .p).2] at i2
    refine ⟨?_, ?_, nofun⟩
    · show (publish send (publish send v (Item.atIn .p)) (Item.atOut .p)).item _ = _
      rw [i2, if_neg (by decide), i1, if_pos rfl]; rfl
    · show (publish send (publish send v (Item.atIn .p)) (Item.atOut .p)).item _ = _
      rw [i2, if_pos rfl]; rfl
  · have k1 := k (Item.atIn .h) (by decide) v hn
    have hn1 : NoHostEntries (publish send v (Item.atIn .h)) := hn.of_settings (by rw [k1])
    have k2 := k (Item.atOut .h) (by decide) _ hn1
    have hn2 : NoHostEntries (publish send (publish send v (Item.atIn .h)) (Item.atOut .h)) := hn1.of_settings (by rw [k2])
    have i1 := item_publish quiet_send hn (r := Item.atIn .h) (by unfold Plain; decide) rfl
    have i2 := item_publish quiet_send hn1 (r := Item.atOut .h) (by unfold Plain; decide) rfl
    have i3 := item_publish quiet_send hn2 (r := Item.unsecured) (by unfold Plain; decide) rfl
    rw [(itemNow_position _).2.2.2.1, (atInItem_of (by rw [k1]) (by rw [k1]) .h).2] at i2
    have e : publishAll send (positionItems .h) v = publish send (publish send (publish send v (Item.atIn .h)) (Item.atOut .h)) Item.unsecured := rfl
    have hIn : (publish send (publish send v (Item.atIn .h)) (Item.atOut .h)).item (Item.atIn .h) = v.atInItem .h := by
      rw [i2, if_neg (by decide), i1, if_pos rfl]; rfl
    have hkk : (publish send (publish send v (Item.atIn .h)) (Item.atOut .h)).pins = v.pins ∧ (publish send (publish send v (Item.atIn .h)) (Item.atOut .h)).mc = v.mc := by rw [k2, k1]; exact ⟨rfl, rfl⟩
    intro t
    have ht : t = _ := e
    rw [ht]
    generalize publish send (publish send v (Item.atIn .h)) (Item.atOut .h) = w at *
    refine ⟨?_, ?_, fun _ => ?_⟩
    · rw [i3, if_neg (by decide), hIn]
    · rw [i3, if_neg (by decide), i2, if_pos rfl]; rfl
    · rw [i3, if_pos rfl]
      show w.isUnsecured = _
      unfold State.isUnsecured State.chan
      rw [hIn, hkk.1, hkk.2]

theorem item_of_seu {s t : State} (h : t.seu = s.seu) (r : ItemRef) : t.item r = s.item r := by unfold State.item; rw [h]

/-- What the channel of a machine finds at its sample, when no check reports. -/
structure SampleCore (s : State) (x : Sample) (u : State) : Prop where
  result : positionSample send x s = mcSample send (sampleMachine x) u
  chan : ∀ k, u.chan k = if k = sampleMachine x then { s.chan k with position := s.positionOf x } else s.chan k
  hsc : u.hsc = s.hsc
  settings : u.settings = s.settings
  siq : u.siq = s.siq
  home : u.pins.home = s.pins.home
  pinsLk : u.pins.pinsLk = s.pins.pinsLk
  rode : u.sfe.rode = s.sfe.rode
  unknown : u.sfe.rodeUnknown = s.sfe.rodeUnknown
  pins : u.pins = s.pins.withSample x
  fis : u.fis = s.fis
  plain : ∀ q ∈ builtInItems, u.item q = s.item q

theorem SampleCore.mat {s u : State} {x : Sample} (h : SampleCore s x u) : u.item Item.matOccupied = s.item Item.matOccupied :=
  h.plain _ (by decide)

theorem takeRode_eq (s : State) : takeRode s = { s with mc := s.mc.set .w { s.chan .w with position := s.sfe.rode } } := rfl

theorem sample_core {s : State} {x : Sample} (hp : s.phase = .running) (hn : NoHostEntries s) (hx : SampleFindsNothing s x) : ∃ u, SampleCore s x u := by
  have sensor : ∀ m, m ≠ .w → ∀ a b : BitVec 12, sampleMachine x = m → s.agrees m a.toNat b.toNat → s.positionOf x = meanPosition (s.sampled m a.toNat b.toNat).rawA (s.sampled m a.toNat b.toNat).rawB →
      positionSample send x s = sensorSample send m a.toNat b.toNat (s.onPins fun p => p.withSample x) → ∃ u, SampleCore s x u := by
    intro m hm a b hx ha hpos he
    have hf := formed_eq (m := m) (a := a.toNat) (b := b.toNat) (s := s.onPins fun p => p.withSample x) hn
    obtain ⟨q, -⟩ := quiet_sample hm (s := s.onPins fun p => p.withSample x) ha send
      (by show (formed m a.toNat b.toNat _).sensors m = _; rw [hf]; exact takeCounts_sensors hm _ _ _)
      (by show (formed m a.toNat b.toNat _).settings = _; rw [hf, takeCounts_eq])
    refine ⟨setSensors m (checkedSensors m a.toNat b.toNat s) (formed m a.toNat b.toNat (s.onPins fun p => p.withSample x)), ?_, fun k => ?_, ?_, ?_, ?_, ?_, ?_, ?_, ?_, ?_, ?_, fun i hi => ?_⟩
    · rw [he, q, hx]; rfl
    · rw [setSensors_chan, hf, takeCounts_eq, hx]
      show (s.mc.set m _).get k = _
      rw [Three.get_set]
      by_cases hk : m = k
      · subst hk; rw [if_pos rfl, if_pos rfl, hpos]; rfl
      · rw [if_neg hk, if_neg (Ne.symm hk)]; rfl
    · rw [setSensors_frame, hf, takeCounts_eq]; rfl
    · rw [setSensors_frame, hf, takeCounts_eq]; rfl
    · rw [setSensors_frame, hf, takeCounts_eq]; rfl
    · rw [setSensors_frame, hf, takeCounts_eq]; cases x <;> rfl
    · rw [setSensors_frame, hf, takeCounts_eq]; cases x <;> rfl
    · rw [(setSensors_rode m _ _).1, hf, takeCounts_sfe]; rfl
    · rw [(setSensors_rode m _ _).2, hf, takeCounts_sfe]; rfl
    · rw [setSensors_frame, hf, takeCounts_eq]; rfl
    · rw [setSensors_frame, hf, takeCounts_eq]; rfl
    · have h1 : (setSensors m (checkedSensors m a.toNat b.toNat s) (formed m a.toNat b.toNat (s.onPins fun p => p.withSample x))).seu =
          (publishAll send (positionItems m) (takeCounts m a.toNat b.toNat (s.onPins fun p => p.withSample x))).seu := by
        rw [setSensors_frame]
        show (refreshDisplay m _).seu = _
        rw [(displayOnly_refresh m _).1]
      rw [item_of_seu h1, item_publishAll_other quiet_send (hn.of_settings (by rw [takeCounts_eq]; rfl)) _ (position_items m) _
        fun k => (position_items m i k).1 hi]
      exact item_of_seu (by rw [takeCounts_eq]; rfl) _
  cases x with
  | windlass =>
    obtain ⟨k2, -⟩ := displayOnly_refresh .w (takeRode (s.onPins fun p => p.withSample .windlass))
    refine ⟨refreshDisplay .w (takeRode (s.onPins fun p => p.withSample .windlass)), ?_, fun k => ?_, ?_, ?_, ?_, ?_, ?_, ?_, ?_, ?_, ?_, fun _ _ => ?_⟩
    · unfold positionSample; exact if_pos hp
    · rw [k2, takeRode_eq]
      show (s.mc.set .w _).get k = _
      rw [Three.get_set]
      by_cases hk : .w = k
      · subst hk; rfl
      · have hk' : k ≠ sampleMachine .windlass := Ne.symm hk
        rw [if_neg hk, if_neg hk']; rfl
    all_goals (rw [k2]; rfl)
  | platform a b => exact sensor .p (by decide) a b rfl hx rfl (by unfold positionSample; exact if_pos hp)
  | hatch a b => exact sensor .h (by decide) a b rfl hx rfl (by unfold positionSample; exact if_pos hp)

/-- A demand handed to the supply (R39). -/
structure Handed (m : MachineId) (u t : State) : Prop where
  state : (t.chan m).state = (u.chan m).state
  live : (t.chan m).live = (u.chan m).live
  position : (t.chan m).position = (u.chan m).position
  grants : t.hsc.grants = u.hsc.grants
  queue : t.hsc.queue = u.hsc.queue
  shares : SharesFlow t
  others : ∀ k, k ≠ m → t.chan k = { u.chan k with share := (t.chan k).share, applied := (t.chan k).applied }

theorem recompute_handed {u : State} (hn : NoHostEntries u) (m : MachineId) : Handed m u (recompute send u) ∧ ((recompute send u).chan m).demand = (u.chan m).demand ∧
    ((recompute send u).chan m).flow = (u.chan m).flow ∧ (recompute send u).sfe.pinTimer = u.sfe.pinTimer := by
  have k := still_recompute quiet_send hn
  refine ⟨⟨by rw [k.chan], by rw [k.chan], by rw [k.chan], k.grants, k.queue, sharesFlow_recompute quiet_send hn, fun j _ => k.chan j⟩, by rw [k.chan], by rw [k.chan], ?_⟩
  rw [(calm_recompute quiet_send hn).sfe]
  unfold shareCore stallCheck
  dsimp only
  repeat' split
  all_goals rfl

theorem handDemand_spec {u : State} (hn : NoHostEntries u) (m : MachineId) (v : Nat) (hf : (u.chan m).state.isFlowing = true) :
    Handed m u (handDemand send m v u) ∧ ((handDemand send m v u).chan m).demand = v ∧ ((handDemand send m v u).chan m).flow = v * (u.params m).qmax / 1000 := by
  unfold handDemand
  rw [if_pos hf]
  have h1 : NoHostEntries (setChan m { u.chan m with demand := v, flow := flowRequest v (u.params m).qmax } u) := hn
  obtain ⟨⟨a1, a2, a3, a4, a5, a6, a7⟩, b1, b2, -⟩ := recompute_handed h1 m
  have hc : (setChan m { u.chan m with demand := v, flow := flowRequest v (u.params m).qmax } u).chan m = { u.chan m with demand := v, flow := flowRequest v (u.params m).qmax } := setChan_chan_same _ _ _
  rw [hc] at a1 a2 a3 b1 b2
  refine ⟨⟨a1, a2, a3, a4, a5, a6, fun k hk => ?_⟩, b1, b2⟩
  have := a7 k hk
  rw [setChan_chan, if_neg (Ne.symm hk)] at this
  exact this

/-- A sample in STOPPING (R16, R38, R84). -/
theorem stopping_spec {w : State} (hn : NoHostEntries w) (m : MachineId) (r : RunRec) (hs : (w.chan m).state = .stopping) (hl : (w.chan m).live = some r) :
    let t := stoppingSample send m w
    ((w.params m).rampDown < (w.chan m).demand → Handed m w t ∧ (t.chan m).demand = (w.chan m).demand - (w.params m).rampDown ∧
      (t.chan m).flow = ((w.chan m).demand - (w.params m).rampDown) * (w.params m).qmax / 1000) ∧
    ((w.chan m).demand ≤ (w.params m).rampDown →
      (m = .h → r.dir = .inward → (w.chan .h).position ≤ (w.params .h).endBand → w.pins.pinsLk = false →
        (t.chan m).state = .locking ∧ (t.chan m).live = some r ∧ (t.chan m).demand = 0 ∧ (t.chan m).flow = 0 ∧ (t.chan m).position = (w.chan m).position ∧
        t.hsc.grants = w.hsc.grants ∧ t.hsc.queue = w.hsc.queue ∧ SharesFlow t ∧ t.sfe.pinTimer = some w.settings.machines.lockTime ∧
        (∀ k, k ≠ m → t.chan k = { w.chan k with share := (t.chan k).share, applied := (t.chan k).applied })) ∧
      (m ≠ .h ∨ r.dir = .outward ∨ (w.params .h).endBand < (w.chan .h).position ∨ w.pins.pinsLk = true → w.anyValid m = false → w.hsc.queue = [] →
        (t.chan m).state = .idle ∧ (t.chan m).live = none ∧ (t.chan m).last = some { r with endPos := some (w.chan m).position } ∧
        (t.chan m).refresh = none ∧ t.hsc.grants = w.hsc.grants.erase m ∧ t.hsc.queue = [] ∧ PumpReleased w.settings.hsu.runOn w.hsc t.hsc ∧
        (∀ k, k ≠ m → t.chan k = { w.chan k with share := (t.chan k).share, applied := (t.chan k).applied }))) := by
  intro t
  have ht : t = if (w.chan m).demand - (w.params m).rampDown = 0 then stopComplete send m w else handDemand send m ((w.chan m).demand - (w.params m).rampDown) w := rfl
  clear_value t
  refine ⟨fun h => ?_, fun h => ?_⟩
  · rw [if_neg (by omega)] at ht
    rw [ht]
    exact handDemand_spec hn m _ (by rw [hs]; rfl)
  · rw [if_pos (by omega)] at ht
    have hri : (w.chan m).runsIn .inward = (r.dir == .inward) := by unfold Channel.runsIn; rw [hl]
    refine ⟨fun h1 h2 h3 h4 => ?_, fun h1 hv hq => ?_⟩
    · subst h1
      have e : stopComplete send .h w = recompute send (enter send .h .locking w) := by
        unfold stopComplete
        rw [if_pos ⟨rfl, by rw [hri, h2]; rfl, by unfold State.atInEnd; exact decide_eq_true h3, h4⟩]
      rw [e] at ht
      have k := calm_enter quiet_send hn .h .locking
      have hn' : NoHostEntries (enter send .h .locking w) := k.noHostEntries (hn.of_settings (stateCore_settings _ _ _))
      obtain ⟨⟨a1, a2, a3, a4, a5, a6, a7⟩, b1, b2, b3⟩ := recompute_handed hn' .h
      rw [← ht] at a1 a2 a3 a4 a5 a6 a7 b1 b2 b3
      have hc : (enter send .h .locking w).chan .h = (w.chan .h).inState .locking := by rw [k.chan, stateCore_chan, if_pos rfl]
      rw [hc] at a1 a2 a3 b1 b2
      have hh : (enter send .h .locking w).hsc = w.hsc := by rw [k.hsc, stateCore_eq]
      rw [hh] at a4 a5
      refine ⟨a1, a2.trans hl, b1, b2, a3, a4, a5, a6, ?_, fun j hj => ?_⟩
      · rw [b3, k.sfe]
        unfold stateCore stallCheck
        dsimp only
        repeat' split
        all_goals rfl
      · have := a7 j hj
        rw [k.chan, stateCore_chan, if_neg (Ne.symm hj)] at this
        exact this
    · have e : stopComplete send m w = leave send m .idle .now w := by
        unfold stopComplete
        rw [if_neg]
        rintro ⟨e1, e2, e3, e4⟩
        subst e1
        rw [hri, beq_iff_eq] at e2
        unfold State.atInEnd at e3
        rw [decide_eq_true_eq] at e3
        rcases h1 with h1 | h1 | h1 | h1
        · exact h1 rfl
        · rw [e2] at h1; cases h1
        · omega
        · rw [e4] at h1; cases h1
      rw [e] at ht
      have k := leave_still quiet_send hn m (st := .idle) (by decide) (by rw [hq]; rfl) (fun _ => hv)
      have pr := pumpReleased_leave quiet_send hn m .idle (by rw [hq]; rfl) (fun _ => hv)
      rw [← ht] at k pr
      have hc : (stateCore m .idle (dropRun m w)).chan m = ({ w.chan m with live := none, last := some { r with endPos := some (w.chan m).position }, refresh := none } : Channel).inState .idle := by
        rw [stateCore_chan, if_pos rfl, dropRun_chan m _ r hl]
      have hck : ∀ j, j ≠ m → (stateCore m .idle (dropRun m w)).chan j = w.chan j := fun j hj => by
        rw [stateCore_chan, if_neg (Ne.symm hj)]
        unfold dropRun
        dsimp only
        rw [hl]
        dsimp only
        rw [setChan_chan, if_neg (Ne.symm hj)]
        rfl
      refine ⟨?_, ?_, ?_, ?_, ?_, ?_, pr, fun j hj => ?_⟩
      · rw [k.chan, hc]; rfl
      · rw [k.chan, hc]; rfl
      · rw [k.chan, hc]; rfl
      · rw [k.chan, hc]; rfl
      · rw [k.grants, stateCore_eq, dropRun_eq]
      · rw [k.queue, stateCore_eq, dropRun_eq]; show w.hsc.queue.erase m = []; rw [hq]; rfl
      · rw [← hck j hj]; exact k.chan j

end Sys2Proof.Machine
end

