-- ==== Sys2Proof/Laws/Starts.lean ====
section
/-! SUPPORT. What a grant and the start of a run do in a part without host interlock entries (R6, R42, R49). -/

namespace Sys2Proof.Machine

theorem enter_hsc {go : Go} (hgo : Quiet go) {s : State} (h : NoHostEntries s) (m : MachineId) (st : ChanState) : (enter go m st s).hsc = s.hsc := by
  rw [(calm_enter hgo h m st).hsc, stateCore_eq]

theorem recompute_pump {go : Go} (hgo : Quiet go) {s : State} (h : NoHostEntries s) : (recompute go s).hsc.pump = s.hsc.pump ∧ (recompute go s).hsc.attempt = s.hsc.attempt ∧ (recompute go s).hsc.timer = s.hsc.timer := by
  rw [(calm_recompute hgo h).hsc, shareCore_eq]; exact ⟨rfl, rfl, rfl⟩

theorem setPump_pump {go : Go} (hgo : Quiet go) {s : State} (h : NoHostEntries s) (p : PumpState) (k : Nat) (t : Timer) :
    (setPump go p k t s).hsc.pump = p ∧ (setPump go p k t s).hsc.attempt = k ∧ (setPump go p k t s).hsc.timer = t := by
  rw [(calm_setPump hgo h p k t).hsc]; exact ⟨rfl, rfl, rfl⟩

theorem still_enter {go : Go} (hgo : Quiet go) {s : State} (h : NoHostEntries s) (m : MachineId) (st : ChanState) : Still (stateCore m st s) (enter go m st s) :=
  (calm_enter hgo h m st).still

theorem noHost_stateCore {s : State} (h : NoHostEntries s) (m : MachineId) (st : ChanState) : NoHostEntries (stateCore m st s) :=
  h.of_settings (stateCore_settings _ _ _)

/-- a granted channel's state when the pump is confirmed -/
def grantedState (s : State) (m : MachineId) : ChanState := if s.needsUnlocking m then .unlocking else .moving

theorem runsIn_of {c d : Channel} (h : d.live = c.live) (x : Direction) : d.runsIn x = c.runsIn x := by unfold Channel.runsIn; rw [h]

theorem routeGranted_confirmed {go : Go} (hgo : Quiet go) {s : State} (h : NoHostEntries s) (m : MachineId) (hp : s.hsc.pump.confirmed = true)
    (hpin : m = .h → s.pins.pinsUl = true ∨ (s.chan .h).runsIn .outward = true ∨ s.atInEnd .h = true) :
    Still (stateCore m (grantedState s m) s) (routeGranted go m s) ∧ (routeGranted go m s).hsc.pump = s.hsc.pump := by
  unfold routeGranted grantedState
  rw [if_pos hp]
  have key : ∀ st, Still (stateCore m st s) (recompute go (enter go m st s)) ∧ (recompute go (enter go m st s)).hsc.pump = s.hsc.pump := by
    intro st
    have k := still_enter hgo h m st
    have hn := k.noHostEntries (noHost_stateCore h m st)
    refine ⟨k.trans (still_recompute hgo hn), ?_⟩
    rw [(recompute_pump hgo hn).1, enter_hsc hgo h]
  split
  · exact key .unlocking
  · rename_i hu
    unfold enterMoving
    dsimp only
    have ⟨k1, k2⟩ := key .moving
    rw [if_neg]
    · exact ⟨k1, k2⟩
    · rintro ⟨hm, h1, h2⟩
      subst hm
      rw [k1.pins, stateCore_eq] at h1
      have h1 : s.pins.pinsUl = false := h1
      rcases hpin rfl with k | k | k
      · rw [k] at h1; cases h1
      · apply hu
        unfold State.needsUnlocking
        rw [k, h1]; rfl
      · have : (recompute go (enter go .h .moving s)).atInEnd .h = s.atInEnd .h := by
          unfold State.atInEnd State.params
          rw [k1.settings, stateCore_settings, k1.chan, stateCore_chan, if_pos rfl]
          rfl
        rw [this, k] at h2; cases h2

theorem routeGranted_unconfirmed {go : Go} (hgo : Quiet go) {s : State} (h : NoHostEntries s) (m : MachineId) (hp : s.hsc.pump.confirmed = false) :
    Still (stateCore m .priming s) (routeGranted go m s) ∧ (routeGranted go m s).hsc = s.hsc := by
  unfold routeGranted
  rw [if_neg (by rw [hp]; decide)]
  exact ⟨still_enter hgo h m _, enter_hsc hgo h m _⟩

theorem stateCore_twice {s : State} (m : MachineId) {a b : ChanState} (hb : b ≠ .stopping) : Still (stateCore m b s) (stateCore m b (stateCore m a s)) := by
  have e := stateCore_eq m b s
  have f := stateCore_eq m b (stateCore m a s)
  have g := stateCore_eq m a s
  refine ⟨?_, ?_, ?_, ?_, ?_, ?_, ?_, ?_, ?_, ?_, ?_, fun k => ?_⟩
  · rw [e, f, g]
  · rw [e, f, g]
  · rw [e, f, g]
  · rw [e, f, g]
  · rw [e, f, g]
  · rw [e, f, g]
  · rw [e, f, g]
  · rw [(stateCore_sfe m b _).1, (stateCore_sfe m b _).1, (stateCore_sfe m a _).1]
  · rw [e, f, g]
  · rw [e, f, g]
  · rw [e, f, g]
  · rw [stateCore_chan, stateCore_chan, stateCore_chan, stateCore_chan]
    by_cases hk : m = k
    · simp only [hk, if_true]
      cases a <;> cases b <;> first | rfl | exact absurd rfl hb
    · simp only [hk, if_false]

/-- What asking for a grant does (R6, R42, R46, R49). -/
structure Granted (m : MachineId) (s t : State) (st : ChanState) (p : PumpState) : Prop where
  still : Still (stateCore m st (s.onHsc fun h => { h with grants := h.grants ++ [m] })) t
  pump : t.hsc.pump = p

theorem giveGrant_spec {go : Go} (hgo : Quiet go) {s : State} (h : NoHostEntries s) (m : MachineId)
    (hpin : m = .h → s.pins.pinsUl = true ∨ (s.chan .h).runsIn .outward = true ∨ s.atInEnd .h = true) (hoff : s.hsc.pump = .off → s.hsc.grants = []) :
    (s.hsc.pump = .off → s.pins.pressureOk = false → Granted m s (giveGrant go m s) .priming .starting ∧ (giveGrant go m s).hsc.attempt = 1 ∧ (giveGrant go m s).hsc.timer = some s.settings.hsu.primeTime) ∧
    (s.hsc.pump = .off → s.pins.pressureOk = true → Granted m s (giveGrant go m s) (grantedState s m) .running) ∧
    (s.hsc.pump = .starting ∨ s.hsc.pump = .retryGap → Granted m s (giveGrant go m s) .priming s.hsc.pump ∧ (giveGrant go m s).hsc.timer = s.hsc.timer) ∧
    (s.hsc.pump = .running ∨ s.hsc.pump = .runOn → Granted m s (giveGrant go m s) (grantedState s m) .running) := by
  let s0 : State := s.onHsc fun h => { h with grants := h.grants ++ [m] }
  let s1 := publish go s0 Item.grantsFull
  have h0 : NoHostEntries s0 := h
  have c1 : Calm s0 s1 := calm_publish hgo h0 (by unfold Plain; decide)
  have h1 : NoHostEntries s1 := c1.noHostEntries h0
  have e1 : s1.hsc = s0.hsc := c1.hsc
  -- properties that survive Still
  have pinsOf : ∀ t, Still s0 t → (m = .h → t.pins.pinsUl = true ∨ (t.chan .h).runsIn .outward = true ∨ t.atInEnd .h = true) := by
    intro t k hm
    have q1 : (t.chan .h).runsIn .outward = (s.chan .h).runsIn .outward := runsIn_of (by rw [k.chan]; rfl) _
    have q2 : t.atInEnd .h = s.atInEnd .h := by
      unfold State.atInEnd State.params
      rw [k.settings, k.chan]; rfl
    rw [q1, q2, k.pins]; exact hpin hm
  have gs : ∀ t, Still s0 t → grantedState t m = grantedState s m := by
    intro t k
    unfold grantedState State.needsUnlocking
    rw [k.pins, runsIn_of (show (t.chan m).live = (s.chan m).live by rw [k.chan]; rfl)]
    rfl
  have gne : grantedState s m ≠ .stopping := by unfold grantedState; split <;> nofun
  have fin : ∀ (t : State) (st : ChanState), NoHostEntries t → Still (stateCore m st s0) t → Still (stateCore m st s0) (recompute go t) :=
    fun t st ht k => k.trans (still_recompute hgo ht)
  refine ⟨fun hp hk => ?_, fun hp hk => ?_, fun hp => ?_, fun hp => ?_⟩
  · let s2 := setPump go .starting 1 (some s.settings.hsu.primeTime) s1
    have k2 : Still s0 s2 := c1.still.trans (still_setPump hgo h1 _ _ _)
    have h2 : NoHostEntries s2 := k2.noHostEntries h0
    let s3 := enter go m .priming s2
    have k3 : Still (stateCore m .priming s0) s3 := (still_stateCore k2 m (by nofun)).trans (still_enter hgo h2 m .priming)
    have h3 : NoHostEntries s3 := k3.noHostEntries (noHost_stateCore h0 _ _)
    have e : giveGrant go m s = recompute go s3 := by
      have ep : s1.hsc.pump = .off := by rw [e1]; exact hp
      have es : s1.settings = s.settings := c1.settings
      have epk : s3.pins.pressureOk = false := by rw [k3.pins, stateCore_eq]; exact hk
      have : giveGrant go m s = recompute go (match s1.hsc.pump with
        | .off => judgeAttempt go (enter go m .priming (setPump go .starting 1 (some s1.settings.hsu.primeTime) s1))
        | .runOn => routeGranted go m (setPump go .running 0 none s1)
        | .starting | .retryGap | .running => routeGranted go m s1) := rfl
      rw [this, ep]
      dsimp only
      rw [es]
      show recompute go (if s3.hsc.pump = .starting ∧ s3.pins.pressureOk = true then confirmPump go s3 else s3) = _
      rw [if_neg (by rw [epk]; exact fun k => nomatch k.2)]
    rw [e]
    have r := recompute_pump hgo h3
    have es3 : s3.hsc = s2.hsc := enter_hsc hgo h2 m _
    have p2 := setPump_pump hgo h1 .starting 1 (some s.settings.hsu.primeTime)
    rw [es3] at r
    exact ⟨⟨fin _ _ h3 k3, r.1.trans p2.1⟩, r.2.1.trans p2.2.1, r.2.2.trans p2.2.2⟩
  · let s2 := setPump go .starting 1 (some s.settings.hsu.primeTime) s1
    have k2 : Still s0 s2 := c1.still.trans (still_setPump hgo h1 _ _ _)
    have h2 : NoHostEntries s2 := k2.noHostEntries h0
    let s3 := enter go m .priming s2
    have k3 : Still (stateCore m .priming s0) s3 := (still_stateCore k2 m (by nofun)).trans (still_enter hgo h2 m .priming)
    have h3 : NoHostEntries s3 := k3.noHostEntries (noHost_stateCore h0 _ _)
    let s4 := setPump go .running 0 none s3
    have k4 : Still (stateCore m .priming s0) s4 := k3.trans (still_setPump hgo h3 _ _ _)
    have h4 : NoHostEntries s4 := k4.noHostEntries (noHost_stateCore h0 _ _)
    have p4 : s4.hsc.pump = .running := (setPump_pump hgo h3 _ _ _).1
    have g4 : s4.hsc.grants = [m] := by
      rw [k4.grants, stateCore_eq]
      show s.hsc.grants ++ [m] = [m]
      rw [hoff hp]; rfl
    have st4 : (s4.chan m).state = .priming := by
      rw [k4.chan, stateCore_chan, if_pos rfl]; exact inState_eq _ _
    have pin4 : m = .h → s4.pins.pinsUl = true ∨ (s4.chan .h).runsIn .outward = true ∨ s4.atInEnd .h = true := by
      intro hm
      subst hm
      have q1 : (s4.chan .h).runsIn .outward = (s.chan .h).runsIn .outward := runsIn_of (by rw [k4.chan, stateCore_chan]; split <;> rfl) _
      have q2 : s4.atInEnd .h = s.atInEnd .h := by
        unfold State.atInEnd State.params
        rw [k4.settings, k4.chan, stateCore_chan, stateCore_settings]; split <;> rfl
      have q3 : s4.pins = s.pins := by rw [k4.pins, stateCore_eq]; rfl
      rw [q1, q2, q3]; exact hpin rfl
    have gs4 : grantedState s4 m = grantedState s m := by
      have q3 : s4.pins = s.pins := by rw [k4.pins, stateCore_eq]; rfl
      unfold grantedState State.needsUnlocking
      rw [q3, runsIn_of (show (s4.chan m).live = (s.chan m).live by rw [k4.chan, stateCore_chan, if_pos rfl]; rfl)]
    have r4 := routeGranted_confirmed hgo h4 m (by rw [p4]; rfl) pin4
    rw [gs4] at r4
    let s5 := routeGranted go m s4
    have k5 : Still (stateCore m (grantedState s m) s0) s5 :=
      (stateCore_twice m gne).trans ((still_stateCore k4 m gne).trans r4.1)
    have h5 : NoHostEntries s5 := k5.noHostEntries (noHost_stateCore h0 _ _)
    have e : giveGrant go m s = recompute go (recompute go s5) := by
      have ep : s1.hsc.pump = .off := by rw [e1]; exact hp
      have es : s1.settings = s.settings := c1.settings
      have epk : s3.pins.pressureOk = true := by rw [k3.pins, stateCore_eq]; exact hk
      have : giveGrant go m s = recompute go (match s1.hsc.pump with
        | .off => judgeAttempt go (enter go m .priming (setPump go .starting 1 (some s1.settings.hsu.primeTime) s1))
        | .runOn => routeGranted go m (setPump go .running 0 none s1)
        | .starting | .retryGap | .running => routeGranted go m s1) := rfl
      rw [this, ep]
      dsimp only
      rw [es]
      have est : s3.hsc.pump = .starting := by rw [enter_hsc hgo h2]; exact (setPump_pump hgo h1 _ _ _).1
      show recompute go (if s3.hsc.pump = .starting ∧ s3.pins.pressureOk = true then confirmPump go s3 else s3) = _
      rw [if_pos ⟨est, epk⟩]
      unfold confirmPump
      dsimp only
      show recompute go (recompute go (List.foldl (fun s m => if (s.chan m).state = .priming then routeGranted go m s else s) s4 s4.hsc.grants)) = _
      rw [g4, List.foldl_cons, List.foldl_nil, if_pos st4]
    rw [e]
    have k6 := fin _ _ h5 k5
    have h6 := k6.noHostEntries (noHost_stateCore h0 _ _)
    refine ⟨fin _ _ h6 k6, ?_⟩
    rw [(recompute_pump hgo h6).1, (recompute_pump hgo h5).1, r4.2, p4]
  · have hc : s1.hsc.pump.confirmed = false := by
      rw [e1]; show s.hsc.pump.confirmed = false
      rcases hp with k | k <;> rw [k] <;> rfl
    have r := routeGranted_unconfirmed hgo h1 m hc
    let s2 := routeGranted go m s1
    have k2 : Still (stateCore m .priming s0) s2 := (still_stateCore c1.still m (by nofun)).trans r.1
    have h2 : NoHostEntries s2 := k2.noHostEntries (noHost_stateCore h0 _ _)
    have e : giveGrant go m s = recompute go s2 := by
      have : giveGrant go m s = recompute go (match s1.hsc.pump with
        | .off => judgeAttempt go (enter go m .priming (setPump go .starting 1 (some s1.settings.hsu.primeTime) s1))
        | .runOn => routeGranted go m (setPump go .running 0 none s1)
        | .starting | .retryGap | .running => routeGranted go m s1) := rfl
      rw [this]
      have ep : s1.hsc.pump = s.hsc.pump := by rw [e1]; rfl
      rw [ep]
      rcases hp with k | k <;> rw [k]
    rw [e]
    have rp := recompute_pump hgo h2
    have es2 : s2.hsc = s1.hsc := r.2
    rw [es2, e1] at rp
    exact ⟨⟨fin _ _ h2 k2, rp.1⟩, rp.2.2⟩
  · rcases hp with hp | hp
    · have hc : s1.hsc.pump.confirmed = true := by
        rw [e1]; show s.hsc.pump.confirmed = true; rw [hp]; rfl
      have r := routeGranted_confirmed hgo h1 m hc (pinsOf _ c1.still)
      rw [gs _ c1.still] at r
      let s2 := routeGranted go m s1
      have k2 : Still (stateCore m (grantedState s m) s0) s2 := (still_stateCore c1.still m gne).trans r.1
      have h2 : NoHostEntries s2 := k2.noHostEntries (noHost_stateCore h0 _ _)
      have e : giveGrant go m s = recompute go s2 := by
        have : giveGrant go m s = recompute go (match s1.hsc.pump with
          | .off => judgeAttempt go (enter go m .priming (setPump go .starting 1 (some s1.settings.hsu.primeTime) s1))
          | .runOn => routeGranted go m (setPump go .running 0 none s1)
          | .starting | .retryGap | .running => routeGranted go m s1) := rfl
        rw [this]
        have ep : s1.hsc.pump = .running := by rw [e1]; exact hp
        rw [ep]
      rw [e]
      have rp := recompute_pump hgo h2
      refine ⟨fin _ _ h2 k2, rp.1.trans (r.2.trans ?_)⟩
      rw [e1]; exact hp
    · let s1' := setPump go .running 0 none s1
      have k1' : Still s0 s1' := c1.still.trans (still_setPump hgo h1 _ _ _)
      have h1' : NoHostEntries s1' := k1'.noHostEntries h0
      have p1' : s1'.hsc.pump = .running := (setPump_pump hgo h1 _ _ _).1
      have r := routeGranted_confirmed hgo h1' m (by rw [p1']; rfl) (pinsOf _ k1')
      rw [gs _ k1'] at r
      let s2 := routeGranted go m s1'
      have k2 : Still (stateCore m (grantedState s m) s0) s2 := (still_stateCore k1' m gne).trans r.1
      have h2 : NoHostEntries s2 := k2.noHostEntries (noHost_stateCore h0 _ _)
      have e : giveGrant go m s = recompute go s2 := by
        have : giveGrant go m s = recompute go (match s1.hsc.pump with
          | .off => judgeAttempt go (enter go m .priming (setPump go .starting 1 (some s1.settings.hsu.primeTime) s1))
          | .runOn => routeGranted go m (setPump go .running 0 none s1)
          | .starting | .retryGap | .running => routeGranted go m s1) := rfl
        rw [this]
        have ep : s1.hsc.pump = .runOn := by rw [e1]; exact hp
        rw [ep]
      rw [e]
      have rp := recompute_pump hgo h2
      exact ⟨fin _ _ h2 k2, rp.1.trans (r.2.trans p1')⟩

/-- A free slot goes to the head of the wait queue, which goes on at once under a running pump (R50). -/
theorem handOver_spec {go : Go} (hgo : Quiet go) {s : State} (h : NoHostEntries s) {m : MachineId} {rest : List MachineId} (hq : s.hsc.queue = m :: rest)
    (hl : s.hsc.grants.length < grantSlots) (hp : s.hsc.pump = .running)
    (hpin : m = .h → s.pins.pinsUl = true ∨ (s.chan .h).runsIn .outward = true ∨ s.atInEnd .h = true) :
    Still (stateCore m (grantedState s m) (s.onHsc fun h => { h with grants := h.grants ++ [m], queue := rest })) (handOver go s) ∧
    (handOver go s).hsc.pump = .running := by
  let s0 : State := s.onHsc fun h => { h with queue := rest }
  have h0 : NoHostEntries s0 := h
  obtain ⟨-, -, -, k⟩ := giveGrant_spec hgo h0 m hpin (fun e => absurd e (by show s.hsc.pump ≠ _; rw [hp]; nofun))
  obtain ⟨k1, k2⟩ := k (.inl hp)
  have e : handOver go s = publish go (giveGrant go m s0) Item.waitingAny := by
    unfold handOver
    rw [hq]
    exact if_pos hl
  have hn : NoHostEntries (giveGrant go m s0) := k1.noHostEntries (noHost_stateCore (s := s0.onHsc _) h0 _ _)
  have c := calm_publish hgo hn (r := Item.waitingAny) (by unfold Plain; decide)
  rw [e]
  exact ⟨k1.trans c.still, by rw [c.hsc]; exact k2⟩

/-- A channel that leaves its running state while another one waits, under a running pump: its run is completed, and the one that
has waited longest takes the slot and goes on (R17, R50). -/
theorem leave_handsOver {go : Go} (hgo : Quiet go) {s : State} (h : NoHostEntries s) (m k : MachineId) {rest : List MachineId} (hk : k ≠ m)
    (hq : s.hsc.queue.erase m = k :: rest) (hl : (s.hsc.grants.erase m).length < grantSlots) (hp : s.hsc.pump = .running)
    (hpin : k = .h → s.pins.pinsUl = true ∨ (s.chan .h).runsIn .outward = true ∨ s.atInEnd .h = true)
    (hv : s.anyValid m = false) :
    Still (stateCore m .idle (stateCore k (grantedState s k)
      ((handBack m s).onHsc fun x => { x with grants := x.grants ++ [k], queue := rest }))) (leave go m .idle .now s) ∧
    (leave go m .idle .now s).hsc.pump = .running := by
  have h0 : NoHostEntries (handBack m s) := h.of_settings (by rw [handBack_eq])
  have b0 := silent_engageBrake hgo h0 m
  have he : releasedAt go m .now s = recompute go (publishAll go [Item.grantsFull, Item.waitingAny]
      (pumpAfterRelease go (handOver go (engageBrake go m (handBack m s))))) := rfl
  have hck : (handBack m s).chan k = s.chan k := by
    unfold handBack
    rw [setChan_chan, if_neg (Ne.symm hk)]
    unfold dropRun
    dsimp only
    split <;> (rw [setChan_chan, if_neg (Ne.symm hk)]; rfl)
  have hx : (handBack m s).hsc = { s.hsc with grants := s.hsc.grants.erase m, queue := s.hsc.queue.erase m } := by rw [handBack_eq]
  have hpn : (handBack m s).pins = s.pins := by rw [handBack_eq]
  have hst : (handBack m s).settings = s.settings := by rw [handBack_eq]
  have hsq : (handBack m s).siq = s.siq := by rw [handBack_eq]
  generalize handBack m s = a at *
  generalize engageBrake go m a = b at *
  have hb : NoHostEntries b := h0.of_settings (by rw [b0])
  have bh : b.hsc = a.hsc := by rw [b0]
  have bc : b.chan k = s.chan k := by rw [← hck]; unfold State.chan; rw [b0]
  have bp : b.pins = s.pins := by rw [b0]; exact hpn
  have bs : b.settings = s.settings := by rw [b0]; exact hst
  have bg : grantedState b k = grantedState s k := by
    unfold grantedState State.needsUnlocking; rw [bc, bp]
  have bq : b.hsc.queue = k :: rest := by rw [bh, hx]; exact hq
  obtain ⟨k1, k2⟩ := handOver_spec hgo hb bq (by rw [bh, hx]; exact hl) (by rw [bh, hx]; exact hp) (fun e => by
    subst e
    have : b.atInEnd .h = s.atInEnd .h := by unfold State.atInEnd State.params; rw [bc, bs]
    rw [bp, bc, this]; exact hpin rfl)
  rw [bg] at k1
  generalize handOver go b = c at *
  have hc : NoHostEntries c := k1.noHostEntries (noHost_stateCore (s := b.onHsc _) hb _ _)
  have hg : c.hsc.grants.isEmpty = false := by rw [k1.grants, stateCore_eq]; simp [State.onHsc]
  have pe : pumpAfterRelease go c = c := by
    unfold pumpAfterRelease
    rw [if_neg (by rw [hg]; decide)]
  rw [pe] at he
  have c2 := calm_publishAll hgo hc [Item.grantsFull, Item.waitingAny] (by unfold Plain; decide)
  have hn2 := c2.noHostEntries hc
  have k3 : Still c (releasedAt go m .now s) := by rw [he]; exact c2.still.trans (still_recompute hgo hn2)
  have p3 : (releasedAt go m .now s).hsc.pump = .running := by rw [he, (recompute_pump hgo hn2).1, c2.hsc]; exact k2
  have kb : Still (stateCore k (grantedState s k) (a.onHsc fun x => { x with grants := x.grants ++ [k], queue := rest }))
      (releasedAt go m .now s) := by
    refine Still.trans ?_ (k1.trans k3)
    have gne : grantedState s k ≠ .stopping := by unfold grantedState; split <;> nofun
    refine still_stateCore ?_ k gne
    have e1 : (b.onHsc fun x => { x with grants := x.grants ++ [k], queue := rest }) =
        { (a.onHsc fun x => { x with grants := x.grants ++ [k], queue := rest }) with seu := b.seu } := by rw [b0]; rfl
    rw [e1]
    exact ⟨rfl, rfl, rfl, rfl, rfl, rfl, rfl, rfl, rfl, rfl, rfl, fun _ => rfl⟩
  generalize hr : releasedAt go m .now s = r at *
  have hnr : NoHostEntries (releasedAt go m .now s) := by rw [hr]; exact k3.noHostEntries hc
  have c4 := calm_leave hgo m .idle .now hnr (fun _ => by
    rw [hr]
    rw [← hv]
    apply anyValid_siq
    rw [kb.siq, stateCore_eq]; exact hsq)
  rw [hr] at c4
  refine ⟨(still_stateCore kb m (by nofun)).trans c4.still, ?_⟩
  rw [c4.hsc, stateCore_eq]; exact p3

theorem still_createEnd {go : Go} (hgo : Quiet go) {v : State} (h : NoHostEntries v) (m : MachineId) (hc : m = .w → (v.cause causeCreep).active = false) :
    ∃ w, (w = activate m (refreshDisplay m (match m with
      | .w => requestWrite go .records false (report go causeCreep false v)
      | .p => v
      | .h => v))) ∧ w.hsc = v.hsc ∧ w.mc = v.mc ∧ w.settings = v.settings ∧ w.pins = v.pins ∧ w.siq = v.siq ∧ w.slp = v.slp ∧ w.sfe = v.sfe := by
  refine ⟨_, rfl, ?_⟩
  have key : ∀ a : State, Calm a (activate m (refreshDisplay m a)) := fun a => (calm_refreshDisplay m a).trans (calm_activate m _)
  have fin : ∀ a : State, a.hsc = v.hsc → a.mc = v.mc → a.settings = v.settings → a.pins = v.pins → a.siq = v.siq → a.slp = v.slp → a.sfe = v.sfe →
     (activate m (refreshDisplay m a)).hsc = v.hsc ∧ (activate m (refreshDisplay m a)).mc = v.mc ∧ (activate m (refreshDisplay m a)).settings = v.settings ∧ (activate m (refreshDisplay m a)).pins = v.pins ∧ (activate m (refreshDisplay m a)).siq = v.siq ∧ (activate m (refreshDisplay m a)).slp = v.slp ∧ (activate m (refreshDisplay m a)).sfe = v.sfe := by
    intro a h1 h2 h3 h4 h5 h6 h7
    have k := key a
    rw [k.hsc, k.mc, k.settings, k.pins, k.siq, k.slp, k.sfe]
    exact ⟨h1, h2, h3, h4, h5, h6, h7⟩
  cases m
  · dsimp only
    have e : report go causeCreep false v = setCause causeCreep { v.cause causeCreep with present := false } v := by
      unfold report trySelfClear
      dsimp only
      rw [if_neg (by decide), if_neg]
      rintro ⟨k, -⟩
      rw [setCause_cause] at k
      have := hc rfl
      rw [if_pos ⟨rfl, by decide⟩, this] at k
      cases k
    rw [e]
    have h2 : NoHostEntries (setCause causeCreep { v.cause causeCreep with present := false } v) := h
    have k := calm_requestWrite hgo h2 .records false
    exact fin _ (by rw [k.hsc]; rfl) (by rw [k.mc]; rfl) (by rw [k.settings]; rfl) (by rw [k.pins]; rfl) (by rw [k.siq]; rfl) (by rw [k.slp]; rfl) (by rw [k.sfe]; rfl)
  · exact fin v rfl rfl rfl rfl rfl rfl rfl
  · exact fin v rfl rfl rfl rfl rfl rfl rfl

end Sys2Proof.Machine
end

