-- ==== Sys2Proof/Laws/Pump.lean ====
section
/-! SUPPORT. The pump after its timers and its pressure input, and what its confirmation gives the granted channels (R42 to R47). -/

namespace Sys2Proof.Machine

/-- A granted channel's way on touches neither attempt number nor timer. -/
theorem routeGranted_timers {s : State} (h : NoHostEntries s) (m : MachineId) (hp : s.hsc.pump.confirmed = true)
    (hpin : m = .h → s.pins.pinsUl = true ∨ (s.chan .h).runsIn .outward = true ∨ s.atInEnd .h = true) :
    (routeGranted send m s).hsc.attempt = s.hsc.attempt ∧ (routeGranted send m s).hsc.timer = s.hsc.timer := by
  have key : ∀ st, (recompute send (enter send m st s)).hsc.attempt = s.hsc.attempt ∧ (recompute send (enter send m st s)).hsc.timer = s.hsc.timer := by
    intro st
    have k := still_enter quiet_send h m st
    have hn := k.noHostEntries (noHost_stateCore h m st)
    rw [(recompute_pump quiet_send hn).2.1, (recompute_pump quiet_send hn).2.2, enter_hsc quiet_send h]
    exact ⟨rfl, rfl⟩
  have k1 := (routeGranted_confirmed quiet_send h m hp hpin).1
  unfold routeGranted at k1 ⊢
  rw [if_pos hp] at k1 ⊢
  split
  · exact key .unlocking
  · rename_i hu
    have e : enterMoving send m s = recompute send (enter send m .moving s) := by
      unfold enterMoving
      dsimp only
      rw [if_neg]
      rintro ⟨hm, h1, h2⟩
      subst hm
      have k := still_enter quiet_send h .h .moving
      have hn := k.noHostEntries (noHost_stateCore h .h .moving)
      have k3 := k.trans (still_recompute quiet_send hn)
      rw [k3.pins, stateCore_eq] at h1
      have h1 : s.pins.pinsUl = false := h1
      rcases hpin rfl with k | k | k
      · rw [k] at h1; cases h1
      · apply hu
        unfold State.needsUnlocking
        rw [k, h1]; rfl
      · have : (recompute send (enter send .h .moving s)).atInEnd .h = s.atInEnd .h := by
          unfold State.atInEnd State.params
          rw [k3.settings, stateCore_settings, k3.chan, stateCore_chan, if_pos rfl]
          rfl
        rw [this, k] at h2; cases h2
    rw [e]
    exact key .moving

/-- The granted channels in PRIMING, taken in grant-list order, move on (R42). -/
structure Moved (xs : List MachineId) (s t : State) : Prop where
  phase : t.phase = s.phase
  now : t.now = s.now
  pins : t.pins = s.pins
  settings : t.settings = s.settings
  slp : t.slp = s.slp
  siq : t.siq = s.siq
  fis : t.fis = s.fis
  rode : t.sfe.rode = s.sfe.rode
  grants : t.hsc.grants = s.hsc.grants
  queue : t.hsc.queue = s.hsc.queue
  isolate : t.hsc.isolate = s.hsc.isolate
  pump : t.hsc.pump = s.hsc.pump
  timers : t.hsc.attempt = s.hsc.attempt ∧ t.hsc.timer = s.hsc.timer
  chan : ∀ m, t.chan m = { (if (s.chan m).state = .priming ∧ m ∈ xs then (s.chan m).inState (grantedState s m) else s.chan m) with
                           share := (t.chan m).share, applied := (t.chan m).applied }

theorem grantedState_of {s t : State} (h : (t.chan .h).live = (s.chan .h).live) (h2 : t.pins = s.pins) (m : MachineId) : grantedState t m = grantedState s m := by
  unfold grantedState State.needsUnlocking
  rw [h2]
  cases m
  · rfl
  · rfl
  · rw [runsIn_of h]

theorem inState_live (c : Channel) (st : ChanState) : (c.inState st).live = c.live := by cases st <;> rfl

theorem grantedState_ne (s : State) (m : MachineId) : grantedState s m ≠ .priming := by
  unfold grantedState; split <;> decide

theorem moved_foldl {s : State} (hn : NoHostEntries s) (hp : s.hsc.pump.confirmed = true)
    (xs : List MachineId) :
    (.h ∈ xs → (s.chan .h).state = .priming → s.pins.pinsUl = true ∨ (s.chan .h).runsIn .outward = true ∨ s.atInEnd .h = true) →
    ∀ (ys : List MachineId) (t : State), Moved ys s t →
      Moved (ys ++ xs) s (xs.foldl (fun s m => if (s.chan m).state = .priming then routeGranted send m s else s) t) := by
  induction xs with
  | nil => intro _ ys t h; rw [List.append_nil]; exact h
  | cons x xs ih =>
    intro hpin ys t h
    rw [List.foldl_cons]
    have hstate : (t.chan x).state = if (s.chan x).state = .priming ∧ x ∈ ys then grantedState s x else (s.chan x).state := by
      rw [h.chan x]; dsimp only; split
      · exact inState_eq _ _
      · rfl
    have key : Moved (ys ++ [x]) s (if (t.chan x).state = .priming then routeGranted send x t else t) := by
      by_cases hx : (t.chan x).state = .priming
      · rw [if_pos hx]
        have hny : ¬ ((s.chan x).state = .priming ∧ x ∈ ys) := fun k => by
          rw [hx, if_pos k] at hstate; exact grantedState_ne s x hstate.symm
        have hsx : (s.chan x).state = .priming := by rw [hx, if_neg hny] at hstate; exact hstate.symm
        have hnx : x ∉ ys := fun k => hny ⟨hsx, k⟩
        have hlive : ∀ m, (t.chan m).live = (s.chan m).live := fun m => by
          rw [h.chan m]; dsimp only; split
          · exact inState_live _ _
          · rfl
        have hpos : ∀ m, (t.chan m).position = (s.chan m).position := fun m => by
          rw [h.chan m]; dsimp only; split
          · exact (inState_runs _ _).2.2.2.1
          · rfl
        have hg : ∀ m, grantedState t m = grantedState s m := grantedState_of (hlive .h) h.pins
        have hpx : x = .h → t.pins.pinsUl = true ∨ (t.chan .h).runsIn .outward = true ∨ t.atInEnd .h = true := (fun hxh => by
          subst hxh
          rw [h.pins, runsIn_of (hlive .h)]
          have : t.atInEnd .h = s.atInEnd .h := by unfold State.atInEnd State.params; rw [hpos, h.settings]
          rw [this]
          exact hpin List.mem_cons_self hsx)
        obtain ⟨k1, k2⟩ := routeGranted_confirmed quiet_send (hn.of_settings h.settings) x (by rw [h.pump]; exact hp) hpx
        have k3 := routeGranted_timers (hn.of_settings h.settings) x (by rw [h.pump]; exact hp) hpx
        have e := stateCore_eq x (grantedState t x) t
        refine ⟨?_, ?_, ?_, ?_, ?_, ?_, ?_, ?_, ?_, ?_, ?_, k2.trans h.pump, ⟨k3.1.trans h.timers.1, k3.2.trans h.timers.2⟩, fun m => ?_⟩
        · rw [k1.phase, e]; exact h.phase
        · rw [k1.now, e]; exact h.now
        · rw [k1.pins, e]; exact h.pins
        · rw [k1.settings, e]; exact h.settings
        · rw [k1.slp, e]; exact h.slp
        · rw [k1.siq, e]; exact h.siq
        · rw [k1.fis, e]; exact h.fis
        · rw [k1.rode, (stateCore_sfe _ _ _).1]; exact h.rode
        · rw [k1.grants, e]; exact h.grants
        · rw [k1.queue, e]; exact h.queue
        · rw [k1.isolate, e]; exact h.isolate
        · have c1 := k1.chan m
          rw [stateCore_chan] at c1
          by_cases hm : x = m
          · subst hm
            rw [if_pos rfl, hg] at c1
            rw [if_pos ⟨hsx, by simp⟩]
            have c2 := h.chan x
            rw [if_neg hny] at c2
            rw [c1, c2]
            have hne : grantedState s x = .unlocking ∨ grantedState s x = .moving := by unfold grantedState; split; exact .inl rfl; exact .inr rfl
            rcases hne with hne | hne <;> rw [hne] <;> rfl
          · rw [if_neg hm] at c1
            have c2 := h.chan m
            rw [c1, c2]
            have : (m ∈ ys ++ [x]) = (m ∈ ys) := by simp [Ne.symm hm]
            simp only [this]
      · rw [if_neg hx]
        refine ⟨h.phase, h.now, h.pins, h.settings, h.slp, h.siq, h.fis, h.rode, h.grants, h.queue, h.isolate, h.pump, h.timers, fun m => ?_⟩
        have c2 := h.chan m
        rw [c2]
        by_cases hm : m = x
        · subst hm
          by_cases hs : (s.chan m).state = .priming
          · by_cases hy : m ∈ ys
            · simp [hs, hy]
            · rw [if_neg (fun k => hy k.2)] at hstate
              exact absurd (hstate.trans hs) hx
          · simp [hs]
        · have : (m ∈ ys ++ [x]) = (m ∈ ys) := by simp [hm]
          simp only [this]
    have := ih (fun k => hpin (List.mem_cons_of_mem _ k)) (ys ++ [x]) _ key
    rw [List.append_assoc] at this
    exact this

/-- The pump confirmed (R42). -/
theorem confirmed_confirmPump {s : State} (hn : NoHostEntries s)
    (hpin : MachineId.h ∈ s.hsc.grants → (s.chan .h).state = .priming →
      s.pins.pinsUl = true ∨ (s.chan .h).runsIn .outward = true ∨ (s.chan .h).position ≤ (s.params .h).endBand) :
    PumpConfirmed s (confirmPump send s) := by
  have k0 := still_setPump quiet_send hn .running 0 none
  have p0 := setPump_pump quiet_send hn .running 0 none
  have e : confirmPump send s = recompute send ((setPump send .running 0 none s).hsc.grants.foldl
      (fun s m => if (s.chan m).state = .priming then routeGranted send m s else s) (setPump send .running 0 none s)) := rfl
  rw [e]
  generalize setPump send .running 0 none s = s1 at *
  have hst : ∀ m, (s1.chan m).state = (s.chan m).state := fun m => by rw [k0.chan]
  have hli : ∀ m, (s1.chan m).live = (s.chan m).live := fun m => by rw [k0.chan]
  have hn1 : NoHostEntries s1 := k0.noHostEntries hn
  have k1 := moved_foldl hn1 (by rw [p0.1]; rfl) s1.hsc.grants (fun h1 h2 => by
    rw [k0.grants] at h1
    rw [hst] at h2
    rw [k0.pins, runsIn_of (hli .h)]
    have : s1.atInEnd .h = s.atInEnd .h := by unfold State.atInEnd State.params; rw [k0.chan, k0.settings]
    rw [this]
    rcases hpin h1 h2 with k | k | k
    · exact .inl k
    · exact .inr (.inl k)
    · exact .inr (.inr (decide_eq_true k))) [] s1
    ⟨rfl, rfl, rfl, rfl, rfl, rfl, rfl, rfl, rfl, rfl, rfl, rfl, ⟨rfl, rfl⟩, fun m => by rw [if_neg (by simp)]⟩
  rw [List.nil_append] at k1
  generalize s1.hsc.grants.foldl _ s1 = s2 at *
  have hn2 : NoHostEntries s2 := hn1.of_settings k1.settings
  have k2 := still_recompute quiet_send hn2
  have p2 := recompute_pump quiet_send hn2
  have sh := sharesFlow_recompute quiet_send hn2
  refine ⟨⟨?_, ?_, ?_⟩, ⟨?_, ?_, ?_⟩, fun m => ?_, sh, ?_, ?_, ?_, ?_, ?_, ?_, ?_, ?_⟩
  · rw [p2.1, k1.pump, p0.1]
  · rw [p2.2.1, k1.timers.1, p0.2.1]
  · rw [p2.2.2, k1.timers.2, p0.2.2]
  · rw [k2.grants, k1.grants, k0.grants]
  · rw [k2.queue, k1.queue, k0.queue]
  · rw [k2.isolate, k1.isolate, k0.isolate]
  · have hg : ∀ m, grantedState s1 m = grantedState s m := grantedState_of (hli .h) k0.pins
    have c2 := k2.chan m
    have c1 := k1.chan m
    have c0 := k0.chan m
    rw [c2, c1]
    rw [hst, k0.grants, hg]
    by_cases hm : (s.chan m).state = .priming ∧ m ∈ s.hsc.grants
    · rw [if_pos hm, if_pos hm, c0]
      have hgs : grantedState s m = if m = .h ∧ (s.chan .h).runsIn .outward = true ∧ s.pins.pinsUl = false then .unlocking else .moving := by
        unfold grantedState State.needsUnlocking
        cases m
        · rfl
        · rfl
        · cases (s.chan .h).runsIn .outward <;> cases s.pins.pinsUl <;> rfl
      have hne : grantedState s m = .unlocking ∨ grantedState s m = .moving := by unfold grantedState; split; exact .inl rfl; exact .inr rfl
      rw [← hgs]
      rcases hne with hne | hne <;> rw [hne] <;> rfl
    · rw [if_neg hm, if_neg hm, c0]
  · rw [k2.phase, k1.phase, k0.phase]
  · rw [k2.now, k1.now, k0.now]
  · rw [k2.pins, k1.pins, k0.pins]
  · rw [k2.settings, k1.settings, k0.settings]
  · rw [k2.slp, k1.slp, k0.slp]
  · rw [k2.siq, k1.siq, k0.siq]
  · rw [k2.fis, k1.fis, k0.fis]
  · rw [k2.rode, k1.rode, k0.rode]

theorem plain_pump : ∀ r ∈ pumpItems, r ∉ builtInItems ∧ r.exists = true := by decide

/-- The pump takes its state, and its three items follow it. -/
theorem setPump_exact {s : State} (h : NoHostEntries s) (p : PumpState) (k : Nat) (t : Timer) :
    Silent (s.onHsc fun h => { h with pump := p, attempt := k, timer := t, pressLoss := if p.confirmed then h.pressLoss else none })
      (setPump send p k t s) ∧
    (setPump send p k t s).item Item.pumpOn = (p == .starting || p == .running || p == .runOn) ∧
    (setPump send p k t s).item Item.starting = (p == .starting || p == .retryGap) ∧
    (setPump send p k t s).item Item.runOn = (p == .runOn) := by
  let b := s.onHsc fun h => { h with pump := p, attempt := k, timer := t, pressLoss := if p.confirmed then h.pressLoss else none }
  have hb : NoHostEntries b := h
  refine ⟨silent_publishAll quiet_send hb _ (fun r hr => (plain_pump r hr).1), ?_, ?_, ?_⟩
  · exact item_publishAll_mem quiet_send Item.pumpOn _ plain_pump (by decide) hb (fun t ht => by rw [ht]; rfl)
  · exact item_publishAll_mem quiet_send Item.starting _ plain_pump (by decide) hb (fun t ht => by rw [ht]; rfl)
  · exact item_publishAll_mem quiet_send Item.runOn _ plain_pump (by decide) hb (fun t ht => by rw [ht]; rfl)

theorem PumpConfirmed.of_still {s s' t t' : State} (h : PumpConfirmed s t) (h1 : s'.mc = s.mc) (h2 : s'.hsc.grants = s.hsc.grants)
    (h3 : s'.hsc.queue = s.hsc.queue) (h4 : s'.hsc.isolate = s.hsc.isolate) (h5 : s'.pins = s.pins)
    (h6 : s'.phase = s.phase ∧ s'.now = s.now ∧ s'.settings = s.settings ∧ s'.slp = s.slp ∧ s'.siq = s.siq ∧ s'.fis = s.fis ∧ s'.sfe.rode = s.sfe.rode)
    (ht : t' = { t with sto := t'.sto }) : PumpConfirmed s' t' := by
  obtain ⟨a1, a2, a3, a4, a5⟩ := h
  have hc : ∀ m, s'.chan m = s.chan m := fun m => by unfold State.chan; rw [h1]
  rw [ht]
  refine ⟨a1, by rw [h2, h3, h4]; exact a2, fun m => ?_, ?_, ?_⟩
  · have := a3 m; rw [hc, hc, h2, h5]; exact this
  · obtain ⟨b1, b2, b3, b4, b5, b6, b7⟩ := a4
    exact ⟨b1, b2, b3, b4, b5, b6, b7⟩
  · obtain ⟨b1, b2, b3, b4, b5, b6, b7⟩ := h6
    rw [b1, b2, h5, b3, b4, b5, b6, b7]; exact a5

end Sys2Proof.Machine
end

