-- ==== Sys2Proof/Laws/Events.lean ====
section
/-! SUPPORT. A cause reported at the end of a handling, with the store write that then begins (R105 to R107). -/

namespace Sys2Proof.Machine

/-- A raise outlasts the beginning of a store write. -/
theorem Raised.of_sto {c : Nat} {s t t' : State} (h : Raised c s t) (ht : t' = { t with sto := t'.sto }) : Raised c s t' := by
  obtain ⟨a1, a2, a3, a4, a5, a6, a7, a8, a9, b⟩ := h
  rw [ht]
  exact ⟨a1, a2, a3, a4, a5, a6, a7, a8, a9, b⟩

theorem finish_sto (s : State) : ∃ t, finish s = .next t ∧ t = { s with sto := t.sto } := ⟨_, rfl, beginWrite_eq s⟩

theorem item_sto {s t : State} (h : t = { s with sto := t.sto }) (q : ItemRef) : t.item q = s.item q := by rw [h]; rfl

theorem cause_sto {s t : State} (h : t = { s with sto := t.sto }) (c : Nat) : t.cause c = s.cause c := by rw [h]; rfl

/-- A published item stays as a raise leaves it. -/
theorem undisturbed_of {s t : State} (h : Undisturbed s) (h1 : t.settings = s.settings) (h2 : t.fis = s.fis) : Undisturbed t := by
  refine ⟨h.1.of_settings h1, fun c hc ha hcl => ?_⟩
  have e : t.cause c = s.cause c := by unfold State.cause; rw [h2]
  have e2 : t.causeSetting c = s.causeSetting c := by unfold State.causeSetting; rw [h1]
  rw [e] at ha ⊢; rw [e2] at hcl
  exact h.2 c hc ha hcl

/-- A report of absent that clears nothing. -/
theorem report_absent_plain {s : State} {c : Nat} (h : (s.cause c).active = false ∨ (s.causeSetting c).cls ≠ .self) :
    report send c false s = setCause c { s.cause c with present := false } s := by
  show trySelfClear send c (setCause c { s.cause c with present := false } s) = _
  unfold trySelfClear
  rw [if_neg]
  rintro ⟨h1, h2, -⟩
  rcases h with k | k
  · have : ((setCause c { s.cause c with present := false } s).cause c).active = false := by
      rw [setCause_cause]; split
      · exact k
      · exact k
    rw [this] at h1; cases h1
  · exact k h2

theorem absent_eq (c : Nat) (s : State) : setCause c { s.cause c with present := false } s =
    { s with fis := { s.fis with causes := poke s.fis.causes c { s.cause c with present := false } } } := rfl

/-- An event condition in a part whose cause is at rest, followed by the end of the handling. -/
theorem event_finish {s u : State} {c : Nat} (hu : Undisturbed s) (hc : c < 16)
    (rest : (s.cause c).active = false ∧ (s.cause c).present = false ∧ ((s.causeSetting c).trip = false ∨ s.fis.trip.isSome = true) ∧ s.emptiesQueue c)
    (hcl : (s.causeSetting c).cls ≠ .self) (hs : Silent u s) :
    ∃ t, finish (reportEvent send c s) = .next t ∧ Raised c u t ∧ (t.cause c).present = false := by
  obtain ⟨r1, r2, r3, r4⟩ := rest
  obtain ⟨k1, k2, -⟩ := raised_event hu hc r2 r1 hcl r3 r4
  obtain ⟨t, h1, h2⟩ := finish_sto (reportEvent send c s)
  refine ⟨t, h1, ?_, by rw [cause_sto h2]; exact k2⟩
  refine (k1.of_sto h2).of_same ?_ ?_ ?_ ?_ (fun _ _ => ?_) ?_ ?_ ?_ ?_ ?_ ?_ ?_ ?_ (OffStays.of_hsc ?_) <;> (rw [hs]) <;> rfl

theorem report_finish {s u : State} {c : Nat} (hu : Undisturbed s) (hc : c < 16)
    (rest : (s.cause c).active = false ∧ (s.cause c).present = false ∧ ((s.causeSetting c).trip = false ∨ s.fis.trip.isSome = true) ∧ s.emptiesQueue c)
    (hs : Silent u s) :
    ∃ t, finish (report send c true s) = .next t ∧ Raised c u t ∧ (t.cause c).present = true ∧ t.seu = (report send c true s).seu := by
  obtain ⟨r1, r2, r3, r4⟩ := rest
  obtain ⟨k1, k2, -⟩ := raised_report hu hc r2 r1 r3 r4
  obtain ⟨t, h1, h2⟩ := finish_sto (report send c true s)
  refine ⟨t, h1, ?_, by rw [cause_sto h2]; exact k2, by rw [h2]⟩
  refine (k1.of_sto h2).of_same ?_ ?_ ?_ ?_ (fun _ _ => ?_) ?_ ?_ ?_ ?_ ?_ ?_ ?_ ?_ (OffStays.of_hsc ?_) <;> (rw [hs]) <;> rfl

end Sys2Proof.Machine
end

