-- ==== Sys2Proof/Laws/Contacts.lean ====
section
/-! SUPPORT. Buttons and guest keys (R98 to R101). -/

namespace Sys2Proof.Machine

/-- A queued record changes nothing that a reconsideration speaks of. -/
theorem Relisted.queueEvent {s t : State} (h : Relisted s t) (k : EventKind) : Relisted s (queueEvent k t) := by
  obtain ⟨a1, a2, a3, a4, a5, a6, a7, a8, a9, a10, a11⟩ := h
  refine ⟨a1, a2, a3, a4, a5, a6, a7, a8, fun p hp hd hl => ?_, a10, a11⟩
  have k1 := pushEvent_kinds { kind := k, time := t.now, lost := false } t.seu.events
  have k2 := k1.length_le
  rw [List.length_map, List.length_map] at k2
  exact k1.subset (a9 p hp hd (Nat.lt_of_le_of_lt k2 hl))

theorem Relisted.of_sto {s t t' : State} (h : Relisted s t) (ht : t' = { t with sto := t'.sto }) : Relisted s t' := by
  obtain ⟨a1, a2, a3, a4, a5, a6, a7, a8, a9, a10, a11⟩ := h
  rw [ht]
  exact ⟨a1, a2, a3, a4, a5, a6, a7, a8, a9, a10, a11⟩

theorem contact_plain (c : ContactId) : ∀ r ∈ contactItems c, r ∉ builtInItems ∧ r.exists = true := by
  cases c with
  | display m => cases m <;> decide
  | reset m => cases m <;> decide
  | key k => intro r hr; cases hr

end Sys2Proof.Machine
end

