-- ==== Sys2Proof/Laws/Inputs.lean ====
section
/-! SUPPORT. A hold-to-run input takes a new state (R90 to R95). -/

namespace Sys2Proof.Machine

theorem plain_inputItems (i : HoldInput) : ∀ r ∈ inputItems i, r ∉ builtInItems ∧ r.exists = true := by
  obtain ⟨m, d⟩ := i
  cases m <;> cases d <;> decide

theorem silent_inputItems {s : State} (hn : NoHostEntries s) (i : HoldInput) (y : HoldRec) :
    Silent (setInput i y s) (publishAll send (inputItems i) (setInput i y s)) :=
  silent_publishAll quiet_send (s := setInput i y s) hn _ (fun r hr => (plain_inputItems i r hr).1)

theorem input_set_self (i : HoldInput) (y : HoldRec) (s : State) : (setInput i y s).input i = y := by
  rw [setInput_input, if_pos rfl]

/-- An input that enters neither VALID nor RELEASED moves itself and its items alone. -/
theorem becomes_quiet {s : State} (hn : NoHostEntries s) (i : HoldInput) (y : HoldRec)
    (h : y.state = (s.input i).state ∨ (y.state ≠ .valid ∧ y.state ≠ .released)) : Silent (setInput i y s) (inputBecomes send i y s) := by
  have k := silent_inputItems hn i y
  unfold inputBecomes
  dsimp only
  split
  · exact k
  · rename_i hne
    rcases h with h | ⟨h1, h2⟩
    · exact absurd h hne
    · split <;> first | exact k | (rename_i h; first | exact absurd h h1 | exact absurd h h2)

theorem setInput_self (i : HoldInput) (s : State) : setInput i (s.input i) s = s := by
  obtain ⟨m, d⟩ := i
  cases m <;> cases d <;> rfl

theorem chan_conflict (c : Channel) (b : Bool) (h : b = c.conflict) : c = { c with conflict := b } := by
  subst h; rfl

/-- The part of `s` with the conflict of `m` ended once both its inputs are RELEASED (R13). -/
theorem enteredReleased_spec {s : State} (hu : Undisturbed s) (i : HoldInput) (hr : s.inputState i.machine i.dir = .released) :
    ∃ t, enteredReleased send i s = t ∧ t = { s with mc := t.mc, seu := t.seu } ∧
      ∀ m, t.chan m = { s.chan m with conflict := (s.chan m).conflict &&
              !(decide (m = i.machine) && decide (s.inputState m i.dir.other = .released)) } := by
  refine ⟨_, rfl, ?_⟩
  obtain ⟨m, d⟩ := i
  have hall : s.allReleased m = decide (s.inputState m d.other = .released) := by
    have hr : s.inputState m d = .released := hr
    unfold State.allReleased
    cases d
    · rw [hr]; show (true && (s.inputState m .inward == .released)) = decide (s.inputState m .inward = .released); cases s.inputState m .inward <;> rfl
    · rw [hr]; show ((s.inputState m .outward == .released) && true) = decide (s.inputState m .outward = .released); cases s.inputState m .outward <;> rfl
  have hgo : ∀ u : State, Undisturbed u → letGo send m u = u := fun u h => letGo_quiet h.2 send m
  unfold enteredReleased
  dsimp only
  by_cases hc : (s.chan m).conflict = true ∧ s.allReleased m = true
  · rw [if_pos hc]
    have hp : Item.conflict m ∉ builtInItems := by cases m <;> decide
    have k : Silent (setChan m { s.chan m with conflict := false } s) (publish send (setChan m { s.chan m with conflict := false } s) (Item.conflict m)) :=
      silent_publish quiet_send (s := setChan m _ s) hu.1 hp
    generalize publish send (setChan m { s.chan m with conflict := false } s) (Item.conflict m) = u at *
    rw [hgo u (undisturbed_of hu (by rw [k]; rfl) (by rw [k]; rfl))]
    refine ⟨by rw [k]; rfl, fun n => ?_⟩
    have e : u.chan n = (setChan m { s.chan m with conflict := false } s).chan n := by rw [k]; rfl
    rw [e, setChan_chan]
    by_cases hm : m = n
    · subst hm
      have h2 := hc.2
      rw [hall] at h2
      have h2 := of_decide_eq_true h2
      simp [h2]
    · rw [if_neg hm]; exact chan_conflict _ _ (by simp [Ne.symm hm])
  · rw [if_neg hc, hgo s hu]
    refine ⟨rfl, fun n => ?_⟩
    by_cases hm : n = m
    · subst hm
      rw [hall] at hc
      cases hcf : (s.chan n).conflict
      · exact chan_conflict _ _ (by rw [hcf]; rfl)
      · have : ¬ s.inputState n d.other = .released := fun k => hc ⟨hcf, decide_eq_true k⟩
        exact chan_conflict _ _ (by simp [this, hcf])
    · exact chan_conflict _ _ (by simp [hm])

end Sys2Proof.Machine
end

