-- ==== Sys2Proof/Laws/Creation.lean ====
section
/-! SUPPORT. A run created, whatever its origin (R5, R7, R8). -/

namespace Sys2Proof.Machine

/-- A run created on a channel in a part without host entries (R3, R5, R6, R49). -/
theorem createRun_spec {go : Go} (hgo : Quiet go) {u : State} (hnu : NoHostEntries u) (m : MachineId) (o : Origin) (d : Direction) (target : Option Nat)
    (hcreep : m = .w → (u.cause causeCreep).active = false) (hoff : u.hsc.pump = .off → u.hsc.grants = [])
    (hpin : m = .h → u.pins.pinsUl = true ∨ d = .outward ∨ u.atInEnd .h = true) :
    let c := u.chan m
    let granted := if m = .h ∧ d = .outward ∧ u.pins.pinsUl = false then ChanState.unlocking else ChanState.moving
    ∃ v, createRun go m o d target u = v ∧
      (v.chan m).live = some (newRun c o d target) ∧
      (v.chan m).last = none ∧ (v.chan m).counter = (c.counter + 1) % 65536 ∧ (v.chan m).dirOut = decide (d = .outward) ∧
      (v.chan m).refresh = (match o with | .link => some u.settings.machines.refreshTime | .station => none) ∧
      (v.chan m).position = c.position ∧ (v.chan m).demand = 0 ∧
      (u.hsc.grants.length < 2 → v.hsc.grants = u.hsc.grants ++ [m] ∧ v.hsc.queue = u.hsc.queue ∧
        (u.hsc.pump = .off → u.pins.pressureOk = false →
          (v.chan m).state = .priming ∧ v.hsc.pump = .starting ∧ v.hsc.attempt = 1 ∧
            v.hsc.timer = some u.settings.hsu.primeTime) ∧
        (u.hsc.pump = .off → u.pins.pressureOk = true → (v.chan m).state = granted ∧ v.hsc.pump = .running) ∧
        (u.hsc.pump = .starting ∨ u.hsc.pump = .retryGap →
          (v.chan m).state = .priming ∧ v.hsc.pump = u.hsc.pump ∧ v.hsc.timer = u.hsc.timer) ∧
        (u.hsc.pump = .running ∨ u.hsc.pump = .runOn → (v.chan m).state = granted ∧ v.hsc.pump = .running)) ∧
      (2 ≤ u.hsc.grants.length → (v.chan m).state = .waiting ∧ v.hsc.queue = u.hsc.queue ++ [m] ∧
        v.hsc.grants = u.hsc.grants ∧ v.hsc.pump = u.hsc.pump) ∧
      (∀ k, k ≠ m → (v.chan k).state = (u.chan k).state ∧ (v.chan k).live = (u.chan k).live ∧
        (v.chan k).last = (u.chan k).last ∧ (v.chan k).position = (u.chan k).position ∧ (v.chan k).demand = (u.chan k).demand) ∧
      v.settings = u.settings ∧ v.pins = u.pins ∧ v.siq = u.siq ∧ v.slp = u.slp ∧ v.sfe.rode = u.sfe.rode := by
  let c := u.chan m
  let a1 := setChan m (c.withRun o d target u.settings.machines.refreshTime) u
  have h1 : NoHostEntries a1 := hnu
  let a2 := publish go a1 (Item.dirOut m)
  have k2 : Calm a1 a2 := calm_publish hgo h1 (by cases m <;> (unfold Plain; decide))
  have h2 : NoHostEntries a2 := k2.noHostEntries h1
  let a3 := requestGrant go m a2
  have hc2 : a2.chan m = c.withRun o d target u.settings.machines.refreshTime := by rw [k2.chan]; exact setChan_chan_same _ _ _
  have hgu : a2.hsc = u.hsc := k2.hsc
  have hpu : a2.pins = u.pins := k2.pins
  have hsu : a2.settings = u.settings := k2.settings
  -- state of the grant
  let g : ChanState := if m = .h ∧ d = .outward ∧ u.pins.pinsUl = false then ChanState.unlocking else ChanState.moving
  have hg : grantedState a2 m = g := by
    unfold grantedState State.needsUnlocking
    have : (a2.chan m).runsIn .outward = decide (d = .outward) := by
      rw [hc2]
      show (d == .outward) = _
      cases d <;> rfl
    rw [this, hpu]
    cases m <;> cases d <;> cases hpl : u.pins.pinsUl <;> simp [g, hpl]
  have hpin2 : m = .h → a2.pins.pinsUl = true ∨ (a2.chan .h).runsIn .outward = true ∨ a2.atInEnd .h = true := by
    intro hmh
    subst hmh
    rw [hpu]
    rcases hpin rfl with k | k | k
    · exact .inl k
    · refine .inr (.inl ?_)
      rw [hc2, k]; rfl
    · refine .inr (.inr ?_)
      unfold State.atInEnd State.params at k ⊢
      rw [hsu, hc2]; exact k
  obtain ⟨sp1, sp2, sp3, sp4⟩ := giveGrant_spec hgo h2 m hpin2 (by rw [hgu]; exact hoff)
  -- summary of a3
  have summary : ∃ st, Still (stateCore m st (if u.hsc.grants.length < 2 then a2.onHsc (fun h => { h with grants := h.grants ++ [m] }) else a2.onHsc (fun h => { h with queue := h.queue ++ [m] }))) a3 ∧ st ≠ .stopping ∧
      (2 ≤ u.hsc.grants.length → st = .waiting ∧ a3.hsc.pump = u.hsc.pump) ∧
      (u.hsc.grants.length < 2 →
        (u.hsc.pump = .off → u.pins.pressureOk = false → st = .priming ∧ a3.hsc.pump = .starting ∧ a3.hsc.attempt = 1 ∧ a3.hsc.timer = some u.settings.hsu.primeTime) ∧
        (u.hsc.pump = .off → u.pins.pressureOk = true → st = g ∧ a3.hsc.pump = .running) ∧
        (u.hsc.pump = .starting ∨ u.hsc.pump = .retryGap → st = .priming ∧ a3.hsc.pump = u.hsc.pump ∧ a3.hsc.timer = u.hsc.timer) ∧
        (u.hsc.pump = .running ∨ u.hsc.pump = .runOn → st = g ∧ a3.hsc.pump = .running)) := by
    by_cases hl : u.hsc.grants.length < 2
    · have e : a3 = giveGrant go m a2 := by
        show requestGrant go m a2 = _
        unfold requestGrant
        rw [hgu]; exact if_pos hl
      rw [e, if_pos hl]
      rw [hgu] at sp1 sp2 sp3 sp4
      rw [hg] at sp2 sp4
      rw [hpu] at sp1 sp2
      rw [hsu] at sp1
      have gne : g ≠ .stopping := by show (if _ then _ else _) ≠ _; split <;> nofun
      cases hp : u.hsc.pump with
      | off =>
        cases hk : u.pins.pressureOk with
        | false =>
          obtain ⟨q1, q2, q3⟩ := sp1 hp hk
          exact ⟨.priming, q1.still, nofun, fun k => by omega, fun _ => ⟨fun _ _ => ⟨rfl, q1.pump, q2, q3⟩, nofun, by simp, by simp⟩⟩
        | true =>
          have q1 := sp2 hp hk
          exact ⟨g, q1.still, gne, fun k => by omega, fun _ => ⟨nofun, fun _ _ => ⟨rfl, q1.pump⟩, by simp, by simp⟩⟩
      | starting =>
        obtain ⟨q1, q2⟩ := sp3 (.inl hp)
        exact ⟨.priming, q1.still, nofun, fun k => by omega, fun _ => ⟨nofun, nofun, fun _ => ⟨rfl, q1.pump.trans hp, q2⟩, by simp⟩⟩
      | retryGap =>
        obtain ⟨q1, q2⟩ := sp3 (.inr hp)
        exact ⟨.priming, q1.still, nofun, fun k => by omega, fun _ => ⟨nofun, nofun, fun _ => ⟨rfl, q1.pump.trans hp, q2⟩, by simp⟩⟩
      | running =>
        have q1 := sp4 (.inl hp)
        exact ⟨g, q1.still, gne, fun k => by omega, fun _ => ⟨nofun, nofun, by simp, fun _ => ⟨rfl, q1.pump⟩⟩⟩
      | runOn =>
        have q1 := sp4 (.inr hp)
        exact ⟨g, q1.still, gne, fun k => by omega, fun _ => ⟨nofun, nofun, by simp, fun _ => ⟨rfl, q1.pump⟩⟩⟩
    · have e : a3 = publish go (enter go m .waiting (a2.onHsc fun h => { h with queue := h.queue ++ [m] })) Item.waitingAny := by
        show requestGrant go m a2 = _
        unfold requestGrant
        rw [hgu]; exact if_neg hl
      have hq : NoHostEntries (a2.onHsc fun h => { h with queue := h.queue ++ [m] }) := h2
      have kk := still_enter hgo hq m .waiting
      have hq2 := kk.noHostEntries (noHost_stateCore hq _ _)
      have kp := calm_publish hgo hq2 (r := Item.waitingAny) (by unfold Plain; decide)
      rw [e, if_neg hl]
      refine ⟨.waiting, kk.trans kp.still, nofun, fun _ => ⟨rfl, ?_⟩, fun k => absurd k hl⟩
      rw [kp.hsc, enter_hsc hgo hq]
      show a2.hsc.pump = _; rw [hgu]
  obtain ⟨st, ks, hst, hw, hgr⟩ := summary
  generalize hbase0 : (if u.hsc.grants.length < 2 then a2.onHsc (fun h => { h with grants := h.grants ++ [m] }) else a2.onHsc (fun h => { h with queue := h.queue ++ [m] })) = base at ks
  have hbase : base = { a2 with hsc := base.hsc } := by rw [← hbase0]; split <;> rfl
  have hnb : NoHostEntries base := h2.of_settings (by rw [hbase])
  have h3 : NoHostEntries a3 := ks.noHostEntries (noHost_stateCore hnb _ _)
  have hfis : a3.fis = u.fis := by
    rw [ks.fis, stateCore_eq]; show base.fis = _; rw [hbase]; exact k2.fis
  obtain ⟨v, hv, v1, v2, v3, v4, v5, v6, v7⟩ := still_createEnd hgo h3 m (fun hmw => by
    unfold State.cause; rw [hfis]; exact hcreep hmw)
  have hcr : createRun go m o d target u = v := hv.symm
  have hvc : ∀ k, v.chan k = a3.chan k := fun k => by unfold State.chan; rw [v2]
  have hbc : ∀ k, base.chan k = a2.chan k := fun k => by rw [hbase]; rfl
  have hmc : a3.chan m = { ((c.withRun o d target u.settings.machines.refreshTime).inState st) with share := (a3.chan m).share, applied := (a3.chan m).applied } := by
    have := ks.chan m
    rw [stateCore_chan, if_pos rfl] at this
    rw [hbc m, hc2] at this
    exact this
  have hd0 : ((c.withRun o d target u.settings.machines.refreshTime).inState st).demand = 0 := by
    cases st <;> first | rfl | exact absurd rfl hst
  have hstate : (v.chan m).state = st := by rw [hvc, hmc]; exact inState_eq _ _
  have ir := inState_runs (c.withRun o d target u.settings.machines.refreshTime) st
  refine ⟨v, hcr, ?_, ?_, ?_, ?_, ?_, ?_, ?_, fun hl => ?_, fun hl => ?_, fun k hk => ?_, ?_, ?_, ?_, ?_, ?_⟩
  · rw [hvc, hmc]; exact ir.1
  · rw [hvc, hmc]; exact ir.2.1
  · rw [hvc, hmc]; exact ir.2.2.2.2.1
  · rw [hvc, hmc]; refine ir.2.2.2.2.2.2.trans ?_; show (d == .outward) = _; cases d <;> rfl
  · rw [hvc, hmc]; refine ir.2.2.1.trans ?_; rfl
  · rw [hvc, hmc]; exact ir.2.2.2.1
  · rw [hvc, hmc]; exact hd0
  · obtain ⟨q1, q2, q3, q4⟩ := hgr hl
    have hb : base = a2.onHsc (fun h => { h with grants := h.grants ++ [m] }) := by rw [← hbase0, if_pos hl]
    have hgg : v.hsc.grants = u.hsc.grants ++ [m] := by
      rw [v1, ks.grants, stateCore_eq]
      show base.hsc.grants = _; rw [hb]; show a2.hsc.grants ++ [m] = _; rw [hgu]
    have hqq : v.hsc.queue = u.hsc.queue := by
      rw [v1, ks.queue, stateCore_eq]
      show base.hsc.queue = _; rw [hb]; show a2.hsc.queue = _; rw [hgu]
    rw [hstate, v1]
    refine ⟨v1 ▸ hgg, v1 ▸ hqq, fun a b => ?_, fun a b => ?_, fun a => ?_, fun a => ?_⟩
    · exact q1 a b
    · exact q2 a b
    · exact q3 a
    · exact q4 a
  · have hb : base = a2.onHsc (fun h => { h with queue := h.queue ++ [m] }) := by rw [← hbase0, if_neg (Nat.not_lt.mpr hl)]
    have hw := hw hl
    refine ⟨hstate.trans hw.1, ?_, ?_, v1 ▸ hw.2⟩
    · rw [v1, ks.queue, stateCore_eq]
      show base.hsc.queue = _; rw [hb]; show a2.hsc.queue ++ [m] = _; rw [hgu]
    · rw [v1, ks.grants, stateCore_eq]
      show base.hsc.grants = _; rw [hb]; show a2.hsc.grants = _; rw [hgu]
  · have e : a3.chan k = { u.chan k with share := (a3.chan k).share, applied := (a3.chan k).applied } := by
      have := ks.chan k
      rw [stateCore_chan, if_neg (Ne.symm hk)] at this
      rw [hbc k, k2.chan, setChan_chan, if_neg (Ne.symm hk)] at this
      exact this
    rw [hvc, e]
    exact ⟨rfl, rfl, rfl, rfl, rfl⟩
  · rw [v3, ks.settings, stateCore_settings]; show base.settings = _; rw [hbase]; exact k2.settings
  · rw [v4, ks.pins, stateCore_eq]; show base.pins = _; rw [hbase]; exact k2.pins
  · rw [v5, ks.siq, stateCore_eq]; show base.siq = _; rw [hbase]; exact k2.siq
  · rw [v6, ks.slp, stateCore_eq]; show base.slp = _; rw [hbase]; exact k2.slp
  · rw [v7, ks.rode, (stateCore_sfe m st _).1]; show base.sfe.rode = _; rw [hbase, show ({ a2 with hsc := base.hsc } : State).sfe = a2.sfe from rfl, k2.sfe]; rfl

end Sys2Proof.Machine
end

