-- ==== Sys2Proof/Laws/InputTimers.lean ====
section
/-! SUPPORT. Ends of runs at the timers of the hold-to-run inputs (R91 to R93). -/

namespace Sys2Proof.Machine

/-- What the end of a run with nobody waiting and no press that starts it again leaves as it was (R15 to R17). -/
structure EndKeeps (s t : State) : Prop where
  siq : t.siq = s.siq
  fis : t.fis = s.fis
  settings : t.settings = s.settings
  pins : t.pins = s.pins
  conflict : ∀ k, (t.chan k).conflict = (s.chan k).conflict

theorem EndKeeps.trans {s t u : State} (h : EndKeeps s t) (k : EndKeeps t u) : EndKeeps s u :=
  ⟨k.siq.trans h.siq, k.fis.trans h.fis, k.settings.trans h.settings, k.pins.trans h.pins, fun m => (k.conflict m).trans (h.conflict m)⟩

theorem Still.endKeeps {s t : State} (h : Still s t) : EndKeeps s t := ⟨h.siq, h.fis, h.settings, h.pins, fun k => by rw [h.chan k]⟩

theorem endKeeps_stateCore (m : MachineId) (st : ChanState) (s : State) : EndKeeps s (stateCore m st s) := by
  refine ⟨?_, ?_, ?_, ?_, fun k => ?_⟩
  · rw [stateCore_eq]
  · rw [stateCore_eq]
  · exact stateCore_settings _ _ _
  · rw [stateCore_eq]
  · rw [stateCore_chan]; split
    · rename_i h; subst h; exact (inState_runs _ _).2.2.2.2.2.1
    · rfl

theorem dropRun_conflict (m k : MachineId) (s : State) : ((dropRun m s).chan k).conflict = (s.chan k).conflict := by
  unfold dropRun
  dsimp only
  cases (s.chan m).live <;> cases m <;> cases k <;> rfl

theorem endKeeps_dropRun (m : MachineId) (s : State) : EndKeeps s (dropRun m s) :=
  ⟨by rw [dropRun_eq], by rw [dropRun_eq], by rw [dropRun_eq], by rw [dropRun_eq], fun k => dropRun_conflict m k s⟩

theorem noteReason_keeps (m : MachineId) (x : EndReason) (s : State) :
    EndKeeps s (noteReason m x s) ∧ (noteReason m x s).hsc = s.hsc ∧ (noteReason m x s).settings = s.settings := by
  unfold noteReason
  dsimp only
  cases (s.chan m).live with
  | none => exact ⟨⟨rfl, rfl, rfl, rfl, fun _ => rfl⟩, rfl, rfl⟩
  | some r =>
    refine ⟨⟨rfl, rfl, rfl, rfl, fun k => ?_⟩, rfl, rfl⟩
    rw [setChan_chan]; split
    · rename_i h; subst h; rfl
    · rfl

theorem endKeeps_leave {s : State} (hn : NoHostEntries s) (m : MachineId) (hv : s.anyValid m = false) (hq : s.hsc.queue.erase m = []) :
    EndKeeps s (leave send m .idle .now s) :=
  (endKeeps_dropRun m s).trans ((endKeeps_stateCore m .idle _).trans (leave_still quiet_send hn m (st := .idle) (by decide) hq (fun _ => hv)).endKeeps)

theorem endKeeps_endRun {s : State} (hn : NoHostEntries s) (m : MachineId) (x : EndReason) (hv : s.anyValid m = false)
    (hq : s.hsc.queue.erase m = []) : EndKeeps s (endRun send m x s) := by
  obtain ⟨k0, h0, s0⟩ := noteReason_keeps m x s
  have hn0 : NoHostEntries (noteReason m x s) := hn.of_settings s0
  have hv0 : (noteReason m x s).anyValid m = false := by rw [anyValid_siq k0.siq]; exact hv
  have hq0 : (noteReason m x s).hsc.queue.erase m = [] := by rw [h0]; exact hq
  have self : EndKeeps s s := ⟨rfl, rfl, rfl, rfl, fun _ => rfl⟩
  have hl := k0.trans (endKeeps_leave hn0 m hv0 hq0)
  unfold endRun
  split
  · exact hl
  · exact hl
  · exact hl
  · dsimp only
    have k1 := still_enter quiet_send hn0 m .stopping
    have e1 := k0.trans ((endKeeps_stateCore m .stopping _).trans k1.endKeeps)
    have hh : (enter send m .stopping (noteReason m x s)).hsc = s.hsc := by rw [enter_hsc quiet_send hn0, h0]
    generalize enter send m .stopping (noteReason m x s) = u at *
    have hn1 : NoHostEntries u := hn.of_settings e1.settings
    split
    · unfold stopComplete
      split
      · have k2 := still_enter quiet_send hn1 m .locking
        have e2 := e1.trans ((endKeeps_stateCore m .locking _).trans k2.endKeeps)
        have hn2 : NoHostEntries (enter send m .locking u) := hn.of_settings e2.settings
        exact e2.trans (still_recompute quiet_send hn2).endKeeps
      · exact e1.trans (endKeeps_leave hn1 m (by rw [anyValid_siq e1.siq]; exact hv) (by rw [hh]; exact hq))
    · exact e1.trans (still_recompute quiet_send hn1).endKeeps
  all_goals exact self

/-- A ramped end seen from a state whose channel of the machine, grants and queue are the same but for CONFLICT. -/
theorem RampedEnd.of_source {m : MachineId} {x : EndReason} {s s' t : State} (h : RampedEnd m x s' t) (b : Bool)
    (h1 : s'.chan m = { s.chan m with conflict := b }) (h2 : s'.hsc = s.hsc) (h4 : s'.settings = s.settings)
    (h3 : s.anyValid m = false → x = .linkStop ∨ x = .conflict ∨ s'.anyValid m = false) : RampedEnd m x s t := by
  obtain ⟨a1, a2, a3⟩ := h
  rw [h1] at a1 a2 a3
  rw [h2] at a1 a2
  rw [h4] at a2
  refine ⟨a1, fun r hs hl hv hq => a2 r hs hl ?_ hq, a3⟩
  rcases hv with k | k | k
  · exact .inl k
  · exact .inr (.inl k)
  · exact h3 k

theorem RampedEnd.of_target {m : MachineId} {x : EndReason} {s t t' : State} (h : RampedEnd m x s t) (b : Bool)
    (h1 : t'.chan m = { t.chan m with conflict := b }) (h2 : t'.hsc = t.hsc) : RampedEnd m x s t' := by
  obtain ⟨a1, a2, a3⟩ := h
  refine ⟨?_, ?_, ?_⟩
  · rw [h1, h2]; exact a1
  · rw [h1, h2]; exact a2
  · rw [h1]; exact a3

/-- The checks of a start read nothing that a silent handling of an input's items changes. -/
theorem startCheck_items {s u : State} (hn : NoHostEntries s) (h : u.settings = s.settings) (h1 : u.mc = s.mc) (h2 : u.hsc = s.hsc)
    (h3 : u.fis = s.fis) (hi : ∀ q ∈ builtInItems, u.item q = s.item q) (m : MachineId) (d : Direction) : u.startCheck m d = s.startCheck m d := by
  have hb : u.blockMatches m d = s.blockMatches m d := by
    have hnu : NoHostEntries u := hn.of_settings h
    unfold State.blockMatches
    rw [entries_builtin hnu, entries_builtin hn]
    have e1 := hi Item.ladderDown (by decide)
    have e2 := hi Item.cradleHome (by decide)
    have e3 := hi Item.matOccupied (by decide)
    simp only [List.any_cons, List.any_nil, State.holds, e1, e2, e3]
  have ha : u.affected m = s.affected m := affected_fis (by rw [h3]) (by rw [h3]) m
  have hu : u.uncalibrated m = s.uncalibrated m := by unfold State.uncalibrated State.sensorParams; rw [h]
  have hc : u.chan m = s.chan m := by unfold State.chan; rw [h1]
  unfold State.startCheck
  rw [hb, ha, hu, hc, h2]

theorem other_ne (d : Direction) : d.other ≠ d := by cases d <;> nofun

theorem input_other (i : HoldInput) (y : HoldRec) (s : State) (d : Direction) (h : d ≠ i.dir) :
    (setInput i y s).inputState i.machine d = s.inputState i.machine d := by
  show ((setInput i y s).input ⟨i.machine, d⟩).state = _
  rw [setInput_input, if_neg (by intro e; rw [e] at h; exact h rfl)]
  rfl

end Sys2Proof.Machine
end

