-- ==== Sys2Proof/Laws/Invariants.lean ====
section
/-! SUPPORT. Every handling keeps the invariants: one lemma for each operation that a command runs. -/

namespace Sys2Proof.Machine

variable {go : Go} {s t : State}

/-! ## One update at a time -/

theorem Cascade.fit (h : Cascade s t) (k : Fit s) : Fit t := by
  obtain ⟨k1, k2, k3, k4, k5, k6, k7, k8, k9, k10⟩ := k
  refine ⟨h.valvesShut k1, h.eventsFit k2, h.grantsFit k3, ?_, ?_, ?_, ?_, ?_, h.storeOrdered k9, ?_⟩
  · unfold RodeInRange
    rw [h.rode, h.settings, h.phase, h.pins]; exact k4
  · unfold FifosFit State.source State.sourceConfig
    rw [h.sources, h.settings]; exact k5
  · unfold ClipsFit State.clip
    rw [h.clips]; exact k6
  · unfold MemoryCanonical
    rw [h.memory]; exact k7
  · intro z hz
    obtain ⟨_, a, b, _⟩ := h.zone z
    rw [a, b]; exact k8 z hz
  · intro hp he
    rw [h.phase] at hp
    rw [h.pins] at he
    exact h.isolate (k10 hp he)

theorem Fit.setChan (k : Fit s) (m : MachineId) (c : Channel) (hc : ChannelMove (s.chan m) c) : Fit (setChan m c s) :=
  Cascade.fit (cascade_setChan m c hc (.refl s)) k

theorem Fit.setSource (k : Fit s) (n : Nat) (x : SourceRec) (hx : n < 3 → x.fifo.length ≤ (s.sourceConfig n).capacity) :
    Fit (setSource n x s) := by
  obtain ⟨k1, k2, k3, k4, k5, k6, k7, k8, k9, k10⟩ := k
  refine ⟨k1, k2, k3, k4, fun j hj => ?_, k6, k7, k8, k9, k10⟩
  show (peek (poke s.zae.sources n x) j).fifo.length ≤ (s.sourceConfig j).capacity
  rw [peek_poke]
  split
  · rename_i h
    rw [← h.1]; exact hx (h.1 ▸ hj)
  · exact k5 j hj

theorem Fit.setClip (k : Fit s) (n : Nat) (x : ClipRec) (hx : x.state = .ready → x.length ≤ x.room) : Fit (setClip n x s) := by
  obtain ⟨k1, k2, k3, k4, k5, k6, k7, k8, k9, k10⟩ := k
  refine ⟨k1, k2, k3, k4, k5, fun j hj => ?_, k7, k8, k9, k10⟩
  show (peek (poke s.zae.clips n x) j).state = .ready → (peek (poke s.zae.clips n x) j).length ≤ (peek (poke s.zae.clips n x) j).room
  rw [peek_poke]
  split
  · exact hx
  · exact k6 j hj

theorem Fit.memory (k : Fit s) (m : SampleMemory) (h : Memory.wf m = true) : Fit (s.onZae fun a => { a with memory := m }) := by
  obtain ⟨k1, k2, k3, k4, k5, k6, _, k8, k9, k10⟩ := k
  exact ⟨k1, k2, k3, k4, k5, k6, h, k8, k9, k10⟩

theorem Fit.setZone (k : Fit s) (z : Nat) (x : ZoneRec) (hx : x.left = (s.zone z).left ∧ x.right = (s.zone z).right) :
    Fit (setZone z x s) := by
  obtain ⟨k1, k2, k3, k4, k5, k6, k7, k8, k9, k10⟩ := k
  refine ⟨k1, k2, k3, k4, k5, k6, k7, fun j hj => ?_, k9, k10⟩
  rw [setZone_zone]
  split
  · rename_i h
    obtain ⟨rfl, _⟩ := h
    rw [hx.1, hx.2]; exact k8 _ hj
  · exact k8 j hj

/-- What is none of the invariants' business. -/
theorem Fit.onSlp (k : Fit s) (f : Slp → Slp) : Fit (s.onSlp f) := k

theorem Fit.onSiq (k : Fit s) (f : Siq → Siq) : Fit (s.onSiq f) := k

theorem Fit.onFis (k : Fit s) (f : Fis → Fis) : Fit (s.onFis f) := k

theorem Fit.onInd (k : Fit s) (f : Ind → Ind) : Fit (s.onInd f) := k

theorem Fit.setCause (k : Fit s) (c : Nat) (x : CauseRec) : Fit (setCause c x s) := k

theorem Fit.setInput (k : Fit s) (i : HoldInput) (x : HoldRec) : Fit (setInput i x s) := k

theorem Fit.setDisplay (k : Fit s) (m : MachineId) (x : DisplayRec) : Fit (setDisplay m x s) := k

theorem Fit.onSfe (k : Fit s) (f : Sfe → Sfe) (h : (f s.sfe).rode = s.sfe.rode) : Fit (s.onSfe f) := by
  obtain ⟨k1, k2, k3, k4, k5, k6, k7, k8, k9, k10⟩ := k
  refine ⟨k1, k2, k3, ?_, k5, k6, k7, k8, k9, k10⟩
  unfold RodeInRange
  rw [State.onSfe_sfe, h]
  exact k4

/-- The rode count at a new value. -/
theorem Fit.rode (k : Fit s) (f : Sfe → Sfe) (h : (f s.sfe).rode ≤ s.settings.machines.windlass.rodeMax)
    (h0 : s.phase ≠ .heldInReset → s.pins.home = true → (f s.sfe).rode = 0) : Fit (s.onSfe f) := by
  obtain ⟨k1, k2, k3, k4, k5, k6, k7, k8, k9, k10⟩ := k
  exact ⟨k1, k2, k3, ⟨h, h0⟩, k5, k6, k7, k8, k9, k10⟩

theorem Fit.onHsc (k : Fit s) (f : Hsc → Hsc) (hg : s.hsc.grants.length ≤ grantSlots → (f s.hsc).grants.length ≤ grantSlots)
    (hi : (f s.hsc).isolate = s.hsc.isolate) : Fit (s.onHsc f) :=
  Cascade.fit (cascade_hsc f hg (fun k => hi.trans k) (.refl s) fun k => .inl (hi.symm.trans k)) k

theorem Fit.onPins (k : Fit s) (f : Pins → Pins) (h : (f s.pins).home = s.pins.home ∧ (f s.pins).estop = s.pins.estop) :
    Fit (s.onPins f) := by
  obtain ⟨k1, k2, k3, k4, k5, k6, k7, k8, k9, k10⟩ := k
  refine ⟨k1, k2, k3, ⟨k4.1, fun hp hh => k4.2 hp (h.1 ▸ hh)⟩, k5, k6, k7, k8, k9, fun hp he => k10 hp (h.2 ▸ he)⟩

theorem Fit.settings (k : Fit s) (f : Settings → Settings)
    (h : (f s.settings).machines.windlass.rodeMax = s.settings.machines.windlass.rodeMax)
    (h2 : (f s.settings).audio.sources = s.settings.audio.sources) : Fit (s.onSettings f) := by
  obtain ⟨k1, k2, k3, k4, k5, k6, k7, k8, k9, k10⟩ := k
  refine ⟨k1, k2, k3, ?_, ?_, k6, k7, k8, k9, k10⟩
  · unfold RodeInRange
    rw [State.onSettings_settings, h]; exact k4
  · intro n hn
    show _ ≤ (peek (f s.settings).audio.sources n).capacity
    rw [h2]; exact k5 n hn

theorem fit_foldl {α : Type} {f : State → α → State} (xs : List α) (hf : ∀ s x, x ∈ xs → Fit s → Fit (f s x)) {s : State}
    (k : Fit s) : Fit (xs.foldl f s) := by
  induction xs generalizing s with
  | nil => exact k
  | cons x xs ih => exact ih (fun s y hy => hf s y (List.mem_cons_of_mem _ hy)) (hf s x List.mem_cons_self k)

theorem fit_ite {p : Prop} [Decidable p] (hs : p → Fit s) (ht : ¬ p → Fit t) : Fit (if p then s else t) := by
  split
  · exact hs ‹_›
  · exact ht ‹_›

theorem Fit.publish (k : Fit s) (hgo : Cascades go) (r : ItemRef) : Fit (publish go s r) := Cascade.fit (cascade_publish hgo r (.refl s)) k

theorem Fit.publishAll (k : Fit s) (hgo : Cascades go) (rs : List ItemRef) : Fit (publishAll go rs s) :=
  Cascade.fit (cascade_publishAll hgo rs (.refl s)) k

theorem Fit.queueEvent (k : Fit s) (e : EventKind) : Fit (queueEvent e s) := Cascade.fit (cascade_queueEvent e (.refl s)) k

theorem Fit.requestWrite (k : Fit s) (hgo : Cascades go) (x : SectionName) (b : Bool) : Fit (requestWrite go x b s) :=
  Cascade.fit (cascade_requestWrite hgo x b (.refl s)) k

theorem Fit.send (k : Fit s) (hgo : Cascades go) (m : Msg) (hm : m.Inner) : Fit (go m s) := Cascade.fit (hgo m s hm) k

/-! ## Causes -/

theorem Fit.clearCause (k : Fit s) (hgo : Cascades go) (c : Nat) (x : ClearMeans) : Fit (clearCause go c x s) :=
  Cascade.fit (cascade_clearCause hgo c x (.refl _)) (k.setCause c _)

theorem Fit.trySelfClear (k : Fit s) (hgo : Cascades go) (c : Nat) : Fit (trySelfClear go c s) :=
  Cascade.fit (cascade_trySelfClear hgo c (.refl s)) k

theorem Fit.raise (k : Fit s) (hgo : Cascades go) (c : Nat) : Fit (raise go c s) :=
  Cascade.fit (cascade_raise hgo c (.refl _)) (k.setCause c _)

theorem Fit.report (k : Fit s) (hgo : Cascades go) (c : Nat) (p : Bool) : Fit (report go c p s) := by
  unfold Machine.report
  dsimp only
  split
  · split
    · exact k
    · split
      · exact k.setCause c _
      · exact (k.setCause c _).raise hgo c
  · exact (k.setCause c _).trySelfClear hgo c

theorem Fit.reportEvent (k : Fit s) (hgo : Cascades go) (c : Nat) : Fit (reportEvent go c s) := (k.report hgo c true).report hgo c false

theorem Fit.reconsiderIsolate (k : Fit s) (hgo : Cascades go) : Fit (reconsiderIsolate go s) := by
  unfold Machine.reconsiderIsolate
  dsimp only
  split
  · rename_i h
    exact Cascade.fit (cascade_assertIsolate hgo (reconsider_wanted h) (.refl s)) k
  · split
    · rename_i h
      have he : s.pins.estop = false := by
        cases hh : s.pins.estop
        · rfl
        · simp [hh] at h
      obtain ⟨k1, k2, k3, k4, k5, k6, k7, k8, k9, _⟩ := k
      have k0 : Fit (s.onHsc fun h => { h with isolate := false }) :=
        ⟨k1, k2, k3, k4, k5, k6, k7, k8, k9, fun _ hh => absurd (he.symm.trans hh) (by decide)⟩
      unfold releaseIsolate
      exact fit_foldl _ (fun s m _ h => (h.send hgo (.tryStart m) trivial).publish hgo _) (k0.publishAll hgo _)
    · exact k

theorem Fit.foldClear (k : Fit s) (hgo : Cascades go) (x : ClearMeans) (cs : List Nat) : Fit (cs.foldl (fun s c => Machine.clearCause go c x s) s) :=
  fit_foldl _ (fun _ c _ h => h.clearCause hgo c x) k

theorem Fit.releaseHeld (k : Fit s) (hgo : Cascades go) : Fit (releaseHeld go s) := Cascade.fit (cascade_releaseHeld hgo (.refl s)) k

theorem Fit.afterRelease (k : Fit s) (hgo : Cascades go) (x : Handing) : Fit (afterRelease go x s) :=
  Cascade.fit (cascade_afterRelease hgo x (.refl s)) k

theorem Fit.addFaulted (k : Fit s) (hgo : Cascades go) (i : HoldInput) : Fit (addFaulted go i s) := by
  unfold Machine.addFaulted
  dsimp only
  have k1 : Fit (Machine.report go causeStationChannel true (setFaulted i true s)) := Fit.report (s := setFaulted i true s) k hgo _ _
  refine fit_ite (fun _ => ?_) fun _ => k1
  have k2 := Cascade.fit (cascade_activate i.machine (cascade_hold hgo i.machine causeStationChannel .later (.refl _))) k1
  exact fit_ite (fun _ => k2) fun _ => k2.afterRelease hgo _

theorem Fit.removeFaulted (k : Fit s) (hgo : Cascades go) (i : HoldInput) : Fit (removeFaulted go i s) := by
  unfold Machine.removeFaulted
  have k0 : Fit (setFaulted i false s) := k
  exact (fit_ite (fun _ => k0) fun _ => k0.report hgo _ _).releaseHeld hgo

/-! ## The end of a handling -/

theorem fit_beginWrite (k : Fit s) : Fit (beginWrite s) := by
  obtain ⟨k1, k2, k3, k4, k5, k6, k7, k8, k9, k10⟩ := k
  unfold beginWrite
  split
  · rename_i x mark rest _ _ hq
    refine ⟨k1, k2, k3, k4, k5, k6, k7, k8, ?_, k10⟩
    rw [storeOrdered_iff] at k9 ⊢
    show OrderedNames (rest.map Prod.fst)
    rw [hq] at k9
    obtain ⟨h1, h2⟩ := k9
    simp only [List.map_cons, List.nodup_cons] at h1
    refine ⟨h1.2, fun hm => ?_⟩
    have := h2 (List.mem_cons_of_mem _ hm)
    simp only [List.map_cons, List.head?_cons, Option.some.injEq] at this
    exact absurd (this ▸ hm) h1.1
  · exact ⟨k1, k2, k3, k4, k5, k6, k7, k8, k9, k10⟩

theorem atRest_beginWrite (s : State) : StoreAtRest (beginWrite s) := by
  unfold StoreAtRest beginWrite
  split
  · exact fun _ => .inr rfl
  · rename_i h
    intro hp
    cases hw : s.sto.writing with
    | some w => exact .inr rfl
    | none =>
      cases hq : s.sto.queue with
      | nil => exact .inl rfl
      | cons e r => exact absurd hq (h e.1 e.2 r hp hw)

variable {go : Go} {s t : State}

theorem Fit.chan (k : Fit s) (m : MachineId) (c : Channel) (hc : (s.chan m).shut → c.shut) : Fit (Machine.setChan m c s) := by
  obtain ⟨k1, k2, k3, k4, k5, k6, k7, k8, k9, k10⟩ := k
  refine ⟨fun j => ?_, k2, k3, k4, k5, k6, k7, k8, k9, k10⟩
  rw [setChan_chan]
  split
  · rename_i h
    subst h
    exact hc (k1 _)
  · exact k1 j

/-! ## Samples -/

theorem fit_setSensors (k : Fit s) (m : MachineId) (x : SensorRec) : Fit (setSensors m x s) := by
  cases m <;> exact k.onSfe _ rfl

theorem fit_takeCounts (k : Fit s) (m : MachineId) (a b : Nat) : Fit (takeCounts m a b s) := by
  unfold takeCounts
  refine Fit.chan (fit_setSensors k m _) m _ ?_
  have e : (setSensors m ((s.sensors m).sampled (s.sensorParams m) a b) s).chan m = s.chan m := by cases m <;> rfl
  rw [e]
  exact fun h => h

theorem fit_takeRode (k : Fit s) : Fit (takeRode s) := k.chan _ _ fun h => h

theorem fit_checkOvertravel (k : Fit s) (hgo : Cascades go) (m : MachineId) : Fit (checkOvertravel go m s) := by
  unfold checkOvertravel
  exact fit_ite (fun _ => k) fun _ => (fit_setSensors k m _).report hgo _ _

theorem fit_checkDisagreement (k : Fit s) (hgo : Cascades go) (m : MachineId) : Fit (checkDisagreement go m s) := by
  unfold checkDisagreement
  dsimp only
  repeat' split
  · exact (fit_setSensors k m _).report hgo _ _
  · exact fit_setSensors k m _
  · exact (fit_setSensors k m _).report hgo _ _
  · exact fit_setSensors k m _

theorem fit_handDemand (k : Fit s) (hgo : Cascades go) (m : MachineId) (v : Nat) : Fit (handDemand go m v s) := by
  unfold handDemand
  split
  · rename_i hf
    refine Cascade.fit (cascade_recompute_demand hgo m _ rfl (fun h => ?_) (.refl s)) k
    rw [show ({ s.chan m with demand := v, flow := flowRequest v (s.params m).qmax } : Channel).state = (s.chan m).state from rfl, hf] at h
    cases h
  · exact k

theorem fit_stoppingSample (k : Fit s) (hgo : Cascades go) (m : MachineId) : Fit (stoppingSample go m s) := by
  unfold stoppingSample
  exact fit_ite (fun _ => Cascade.fit (cascade_stopComplete hgo m (.refl _)) k) fun _ => fit_handDemand k hgo m _

theorem fit_mcSample (k : Fit s) (hgo : Cascades go) (m : MachineId) : Fit (mcSample go m s) := by
  unfold mcSample
  split
  · unfold movingSample
    split
    · exact k
    · split
      · exact fit_stoppingSample (Cascade.fit (cascade_enter hgo m _ (cascade_noteReason m _ (.refl _))) k) hgo m
      · exact fit_handDemand k hgo m _
  · exact fit_stoppingSample k hgo m
  all_goals exact k

theorem fit_positionSample (k : Fit s) (hgo : Cascades go) (x : Sample) : Fit (positionSample go x s) := by
  unfold positionSample
  have k0 : Fit (s.onPins fun p => p.withSample x) := k.onPins _ (by cases x <;> exact ⟨rfl, rfl⟩)
  have sensor : ∀ m a b, Fit (sensorSample go m a b (s.onPins fun p => p.withSample x)) := fun m a b =>
    fit_mcSample (fit_checkDisagreement (fit_checkOvertravel
      (Cascade.fit (cascade_refreshDisplay m (cascade_publishAll hgo _ (.refl _))) (fit_takeCounts k0 m a b)) hgo m) hgo m) hgo m
  dsimp only
  split
  · split
    · exact fit_mcSample (Cascade.fit (cascade_refreshDisplay .w (.refl _)) (fit_takeRode k0)) hgo .w
    · exact sensor _ _ _
    · exact sensor _ _ _
  · exact k0

theorem fit_refreshTimerExpiry (k : Fit s) (hgo : Cascades go) (m : MachineId) : Fit (refreshTimerExpiry go m s) := by
  unfold refreshTimerExpiry
  split
  · exact Cascade.fit (cascade_endRun hgo m _ (.refl _)) (k.chan m _ fun h => h)
  · exact k

/-! ## Windlass -/

theorem fit_creepCheck (k : Fit s) (hgo : Cascades go) : Fit (creepCheck go s) := by
  unfold creepCheck
  split
  · exact fit_ite (fun _ => k.report hgo _ _) fun _ => k
  · exact k

theorem nextRode_le {home : Bool} {top n : Nat} (b : Bool) (h : n ≤ top) : nextRode home top n b ≤ top := by
  unfold nextRode
  repeat' split
  all_goals omega

theorem fit_gypARisingEdge (k : Fit s) (hgo : Cascades go) (b : Bool) : Fit (gypARisingEdge go b s) := by
  have k0 : Fit (s.onSfe fun f => { f with rode := nextRode s.pins.home s.settings.machines.windlass.rodeMax s.sfe.rode b }) := by
    refine k.rode _ ?_ fun _ h => ?_
    · obtain ⟨_, _, _, k4, _⟩ := k
      exact nextRode_le b k4.1
    · show nextRode s.pins.home _ _ _ = 0
      unfold nextRode
      rw [h]; rfl
  unfold gypARisingEdge
  dsimp only
  generalize s.onSfe (fun f => { f with rode := nextRode s.pins.home s.settings.machines.windlass.rodeMax s.sfe.rode b }) = u at *
  split
  · exact k
  · exact k0
  · have k1 : Fit (restartStall u) := by
      unfold restartStall
      split
      · exact k0.onSfe _ rfl
      · exact k0
    exact fit_ite (fun _ => fit_creepCheck (k1.publish hgo _) hgo) fun _ => k1.publish hgo _

theorem fit_homeChange (k : Fit s) (hgo : Cascades go) (c : Bool) : Fit (homeChange go c s) := by
  unfold homeChange
  refine fit_ite (fun _ => k) fun _ => ?_
  dsimp only
  obtain ⟨k1, k2, k3, k4, k5, k6, k7, k8, k9, k10⟩ := k
  split
  · rename_i hp
    exact ⟨k1, k2, k3, ⟨k4.1, fun h => absurd hp h⟩, k5, k6, k7, k8, k9, k10⟩
  · cases c
    · exact ⟨k1, k2, k3, ⟨k4.1, fun _ h => by cases h⟩, k5, k6, k7, k8, k9, k10⟩
    · exact ⟨k1, k2, k3, ⟨Nat.zero_le _, fun _ _ => rfl⟩, k5, k6, k7, k8, k9, k10⟩
  · cases c
    · have k0 : Fit (s.onPins fun p => { p with home := false }) :=
        ⟨k1, k2, k3, ⟨k4.1, fun _ h => by cases h⟩, k5, k6, k7, k8, k9, k10⟩
      exact k0.publish hgo _
    · have k0 : Fit ((s.onPins fun p => { p with home := true }).onSfe fun f => { f with rode := 0, rodeUnknown := false }) :=
        ⟨k1, k2, k3, ⟨Nat.zero_le _, fun _ _ => rfl⟩, k5, k6, k7, k8, k9, k10⟩
      have k1 := k0.publishAll hgo [Item.atHome, Item.rodeUnknown, Item.atRodeMax]
      exact fit_creepCheck (fit_ite (fun _ => k1.requestWrite hgo _ _) fun _ => k1) hgo

theorem fit_wOvldChange (k : Fit s) (hgo : Cascades go) (a : Bool) : Fit (wOvldChange go a s) := by
  unfold wOvldChange
  refine fit_ite (fun _ => k) fun _ => ?_
  have k0 : Fit (s.onPins fun p => { p with wOvld := a }) := k.onPins _ ⟨rfl, rfl⟩
  refine fit_ite (fun _ => ?_) fun _ => k0
  have k1 := k0.publish hgo Item.overloadIn
  refine fit_ite (fun _ => k1.onSfe _ rfl) fun _ => ?_
  exact fit_ite (fun _ => (k1.onSfe _ rfl).report hgo _ _) fun _ => k1.onSfe _ rfl

theorem fit_overloadQualifyTimerExpiry (k : Fit s) (hgo : Cascades go) : Fit (overloadQualifyTimerExpiry go s) := by
  unfold overloadQualifyTimerExpiry
  split
  · exact (k.onSfe _ rfl).report hgo _ _
  · exact k

theorem fit_stallTimerExpiry (k : Fit s) (hgo : Cascades go) : Fit (stallTimerExpiry go s) := by
  unfold stallTimerExpiry
  split
  · exact (k.onSfe _ rfl).reportEvent hgo _
  · exact k

/-! ## Plant -/

theorem fit_reacts (k : Fit s) {f : State → State} (hf : Fit s → Fit (f s)) : Fit (reacts f s) := by
  unfold reacts
  exact fit_ite (fun _ => hf k) fun _ => k

theorem fit_pressureOkChange (k : Fit s) (hgo : Cascades go) (a : Bool) : Fit (pressureOkChange go a s) := by
  unfold pressureOkChange
  refine fit_ite (fun _ => k) fun _ => fit_reacts (k.onPins _ ⟨rfl, rfl⟩) fun k0 => ?_
  have k1 := k0.publish hgo Item.pressureOk
  refine fit_ite (fun _ => ?_) fun _ => ?_
  · unfold pressureAppears
    split
    · exact Cascade.fit (cascade_judgeAttempt hgo (.refl _)) k1
    all_goals exact k1
  · unfold pressureGoes
    split
    all_goals exact k1

theorem fit_setPump (k : Fit s) (hgo : Cascades go) (p : PumpState) (n : Nat) (t : Timer) : Fit (setPump go p n t s) :=
  Cascade.fit (cascade_setPump hgo p n t (.refl _)) k

theorem fit_primeTimerExpiry (k : Fit s) (hgo : Cascades go) : Fit (primeTimerExpiry go s) := by
  unfold primeTimerExpiry
  split
  · exact fit_ite (fun _ => fit_setPump k hgo _ _ _) fun _ => (fit_setPump k hgo _ _ _).reportEvent hgo _
  · exact k

theorem fit_pumpGapExpiry (k : Fit s) (hgo : Cascades go) : Fit (pumpGapExpiry go s) := by
  unfold pumpGapExpiry
  split
  · exact Cascade.fit (cascade_beginAttempt hgo _ (.refl _)) k
  · exact k

theorem fit_runOnTimerExpiry (k : Fit s) (hgo : Cascades go) : Fit (runOnTimerExpiry go s) := by
  unfold runOnTimerExpiry
  split
  · exact fit_setPump k hgo _ _ _
  · exact k

theorem fit_pressureLossTimerExpiry (k : Fit s) (hgo : Cascades go) : Fit (pressureLossTimerExpiry go s) := by
  unfold pressureLossTimerExpiry
  split
  · exact (fit_setPump k hgo _ _ _).reportEvent hgo _
  · exact k

theorem fit_oilHotChange (k : Fit s) (hgo : Cascades go) (a : Bool) : Fit (oilHotChange go a s) := by
  unfold oilHotChange
  exact fit_ite (fun _ => k) fun _ => fit_reacts (k.onPins _ ⟨rfl, rfl⟩) fun k0 => (k0.publish hgo _).report hgo _ _

theorem fit_serviceInputChange (k : Fit s) (hgo : Cascades go) (a : Bool) : Fit (serviceInputChange go a s) := by
  unfold serviceInputChange
  exact fit_ite (fun _ => k) fun _ => fit_reacts (k.onPins _ ⟨rfl, rfl⟩) fun k0 => k0.publish hgo _

theorem fit_pinsUlChange (k : Fit s) (hgo : Cascades go) (a : Bool) : Fit (pinsUlChange go a s) := by
  unfold pinsUlChange
  refine fit_ite (fun _ => k) fun _ => fit_reacts (k.onPins _ ⟨rfl, rfl⟩) fun k0 => ?_
  have k1 := k0.publish hgo Item.pinsUnlocked
  dsimp only
  split
  · exact Cascade.fit (cascade_enterMoving hgo .h (.refl _)) k1
  · exact k1.reportEvent hgo _
  · exact k1

theorem fit_pinsLkChange (k : Fit s) (hgo : Cascades go) (a : Bool) : Fit (pinsLkChange go a s) := by
  unfold pinsLkChange
  refine fit_ite (fun _ => k) fun _ => fit_reacts (k.onPins _ ⟨rfl, rfl⟩) fun k0 => ?_
  have k1 := k0.publishAll hgo [Item.pinsLocked, Item.unsecured]
  dsimp only
  split
  · exact Cascade.fit (cascade_leave hgo .h _ _ (.refl _)) k1
  · exact k1

theorem fit_pinTimerExpiry (k : Fit s) (hgo : Cascades go) : Fit (pinTimerExpiry go s) := by
  unfold pinTimerExpiry
  split
  · exact k.reportEvent hgo _
  · exact k

theorem fit_plainInputChange (k : Fit s) (hgo : Cascades go) (i : PlainInput) (a : Bool) : Fit (plainInputChange go i a s) := by
  unfold plainInputChange
  exact fit_reacts (k.onPins _ (by cases i <;> exact ⟨rfl, rfl⟩)) fun k0 => k0.publish hgo _

/-- Every invariant but that of ISOLATE, which an ESTOP input that has just gone active breaks for the moment. -/
def Loose (s : State) : Prop :=
  ValvesShut s ∧ EventsFit s ∧ GrantsFit s ∧ RodeInRange s ∧ FifosFit s ∧ ClipsFit s ∧ MemoryCanonical s ∧ OutputsInDomain s ∧
    StoreOrdered s

theorem Loose.fit (k : Loose s) (h : EstopIsolates s) : Fit s := by
  obtain ⟨k1, k2, k3, k4, k5, k6, k7, k8, k9⟩ := k
  exact ⟨k1, k2, k3, k4, k5, k6, k7, k8, k9, h⟩

theorem Fit.loose (k : Fit s) : Loose s := by
  obtain ⟨k1, k2, k3, k4, k5, k6, k7, k8, k9, _⟩ := k
  exact ⟨k1, k2, k3, k4, k5, k6, k7, k8, k9⟩

theorem Cascade.loose (h : Cascade s t) (k : Loose s) : Loose t := by
  obtain ⟨k1, k2, k3, k4, k5, k6, k7, k8, k9⟩ := k
  refine ⟨h.valvesShut k1, h.eventsFit k2, h.grantsFit k3, ?_, ?_, ?_, ?_, ?_, h.storeOrdered k9⟩
  · unfold RodeInRange
    rw [h.rode, h.settings, h.phase, h.pins]; exact k4
  · unfold FifosFit State.source State.sourceConfig
    rw [h.sources, h.settings]; exact k5
  · unfold ClipsFit State.clip
    rw [h.clips]; exact k6
  · unfold MemoryCanonical
    rw [h.memory]; exact k7
  · intro z hz
    obtain ⟨_, a, b, _⟩ := h.zone z
    rw [a, b]; exact k8 z hz

theorem Loose.report (k : Loose s) (hgo : Cascades go) (c : Nat) (p : Bool) : Loose (report go c p s) := by
  unfold Machine.report
  dsimp only
  split
  · split
    · exact k
    · split
      · exact k
      · exact Cascade.loose (cascade_raise hgo c (.refl _)) k
  · exact Cascade.loose (cascade_trySelfClear hgo c (.refl (Machine.setCause c _ s))) k

theorem assertIsolate_isolates (hgo : Cascades go) (s : State) : (assertIsolate go s).hsc.isolate = true := by
  have h : Cascade (s.onHsc fun h => { h with isolate := true }) (assertIsolate go s) := by
    have k2 := cascade_publishAll hgo [Item.isolated, Item.isolateOut] (Cascade.refl (s.onHsc fun h => { h with isolate := true }))
    refine cascade_publishAll hgo _ (cascade_flowIsolated hgo _ (cascade_setPump hgo _ _ _
      (cascade_foldl _ (fun m _ hs => cascade_isolateChannel hgo m hs) ?_)))
    exact cascade_hsc _ (fun x => x) (fun x => x) k2
  exact h.isolate rfl

/-- The ESTOP input: whatever the report does, ISOLATE is asserted at the end when the input is active. -/
theorem fit_estopChange (k : Fit s) (hgo : Cascades go) (a : Bool) : Fit (estopChange go a s) := by
  unfold estopChange
  refine fit_ite (fun _ => k) fun _ => ?_
  have k0 : Loose (s.onPins fun p => { p with estop := a }) := k.loose
  have ke : a = false → EstopIsolates (s.onPins fun p => { p with estop := a }) := fun h _ he => by rw [h] at he; cases he
  have kp : (s.onPins fun p => { p with estop := a }).pins.estop = a := rfl
  generalize (s.onPins fun p => { p with estop := a }) = u at *
  unfold reacts
  split
  · have kc : Cascade u (publish go u Item.estopIn) := cascade_publish hgo _ (.refl _)
    cases a with
    | false =>
      exact (((k0.fit (ke rfl)).publish hgo _).report hgo _ _).reconsiderIsolate hgo
    | true =>
      have k1 := (Cascade.loose kc k0).report hgo causeEstop true
      have hp : (report go causeEstop true (publish go u Item.estopIn)).pins.estop = true := by
        have : ∀ v : State, (report go causeEstop true v).pins = v.pins := fun v => by
          unfold Machine.report
          dsimp only
          rw [if_pos rfl]
          split
          · rfl
          · split
            · rfl
            · exact (cascade_raise hgo causeEstop (.refl _)).pins
        rw [this, kc.pins, kp]
      show Fit (Machine.reconsiderIsolate go (report go causeEstop true (publish go u Item.estopIn)))
      generalize report go causeEstop true (publish go u Item.estopIn) = w at *
      unfold Machine.reconsiderIsolate
      dsimp only
      rw [hp]
      cases hi : w.hsc.isolate with
      | true => exact k1.fit fun _ _ => hi
      | false => exact (Cascade.loose (cascade_assertIsolate hgo (.inr hp) (.refl _)) k1).fit fun _ _ => assertIsolate_isolates hgo w
  · rename_i hr
    exact k0.fit fun h => absurd h hr

/-! ## Stations -/

theorem fit_inputBecomes (k : Fit s) (hgo : Cascades go) (i : HoldInput) (y : HoldRec) : Fit (inputBecomes go i y s) := by
  unfold inputBecomes
  dsimp only
  have k1 := (k.setInput i y).publishAll hgo (inputItems i)
  refine fit_ite (fun _ => k1) fun _ => ?_
  split
  · exact Cascade.fit (cascade_becameValid hgo i (.refl _)) k1
  · exact Cascade.fit (cascade_enteredReleased hgo i (.refl _)) k1
  all_goals exact k1

theorem fit_holdToRunLevelChange (k : Fit s) (hgo : Cascades go) (i : HoldInput) (a b : Bool) :
    Fit (holdToRunLevelChange go i a b s) := by
  unfold holdToRunLevelChange
  dsimp only
  exact fit_ite (fun _ => k) fun _ => fit_ite (fun _ => fit_inputBecomes k hgo _ _) fun _ => k.setInput _ _

theorem fit_qualifyTimerExpiry (k : Fit s) (hgo : Cascades go) (i : HoldInput) : Fit (qualifyTimerExpiry go i s) := by
  unfold qualifyTimerExpiry
  exact fit_ite (fun _ => fit_inputBecomes k hgo _ _) fun _ => k

theorem fit_disagreeTimerExpiry (k : Fit s) (hgo : Cascades go) (i : HoldInput) : Fit (disagreeTimerExpiry go i s) := by
  unfold disagreeTimerExpiry
  exact fit_ite (fun _ => (fit_inputBecomes k hgo _ _).addFaulted hgo i) fun _ => k

theorem fit_releaseTimerExpiry (k : Fit s) (hgo : Cascades go) (i : HoldInput) : Fit (releaseTimerExpiry go i s) := by
  unfold releaseTimerExpiry
  dsimp only
  refine fit_ite (fun _ => ?_) fun _ => k
  have k1 := (k.setInput i ((s.input i).goes .released none)).publishAll hgo (inputItems i)
  split
  · exact Cascade.fit (cascade_enteredReleased hgo i (cascade_pressEnded hgo i (.refl _))) k1
  · exact Cascade.fit (cascade_enteredReleased hgo i (.refl _)) (k1.removeFaulted hgo i)
  · exact Cascade.fit (cascade_enteredReleased hgo i (.refl _)) k1
  all_goals exact k1

theorem fit_buttonLevelChange (k : Fit s) (c : ContactId) (v : Bool) : Fit (buttonLevelChange c v s) := by
  unfold buttonLevelChange
  dsimp only
  exact fit_ite (fun _ => k) fun _ => fit_ite (fun _ => k.onSiq _) fun _ => k.onSiq _

theorem fit_setZoneQuiet (k : Fit s) (hgo : Cascades go) (z : Nat) (q : Bool) : Fit (setZoneQuiet go z q s) := by
  unfold setZoneQuiet
  exact fit_ite (fun _ => k) fun _ => Cascade.fit (cascade_reconsiderLists hgo (cascade_publish hgo _ (.refl _))) (k.setZone z _ ⟨rfl, rfl⟩)

theorem fit_debounceTimerExpiry (k : Fit s) (hgo : Cascades go) (c : ContactId) : Fit (debounceTimerExpiry go c s) := by
  unfold debounceTimerExpiry
  dsimp only
  refine fit_ite (fun _ => ?_) fun _ => k
  have k1 : ∀ y, Fit (publishAll go (contactItems c) (s.onSiq (setContact c y))) := fun y => (k.onSiq (setContact c y)).publishAll hgo _
  refine fit_ite (fun _ => fit_ite (fun _ => ?_) fun _ => k1 _) fun _ => ?_
  · unfold contactPress
    split
    · exact Cascade.fit (cascade_activate _ (.refl _)) (k1 _)
    · exact (k1 _).onSiq _
    · unfold guestKeyPress
      split
      · exact (fit_setZoneQuiet (k1 _) hgo _ _).queueEvent _
      · exact (k1 _).queueEvent _
  · unfold contactRelease
    split
    · exact (k1 _).onSiq _
    all_goals exact k1 _

theorem fit_longPressTimerExpiry (k : Fit s) (hgo : Cascades go) (m : MachineId) : Fit (longPressTimerExpiry go m s) := by
  unfold longPressTimerExpiry
  split
  · exact k
  · exact Fit.foldClear (k.onSiq _) hgo _ _

/-! ## Indicators and store -/

theorem fit_rampExpiry (k : Fit s) (m : MachineId) : Fit (rampExpiry m s) := by
  unfold rampExpiry
  exact fit_ite (fun _ => Cascade.fit (cascade_judgeOverlay m (cascade_continueRamp m (.refl _))) (k.setDisplay m _)) fun _ => k

theorem fit_holdExpiry (k : Fit s) (m : MachineId) : Fit (holdExpiry m s) := by
  unfold holdExpiry
  exact fit_ite (fun _ => k.setDisplay m _) fun _ => k

theorem fit_overlayExpiry (k : Fit s) (m : MachineId) : Fit (overlayExpiry m s) := by
  unfold overlayExpiry
  exact fit_ite (fun _ => k.setDisplay m _) fun _ => k

theorem fit_flashClockExpiry (k : Fit s) : Fit (flashClockExpiry s) := by
  unfold flashClockExpiry
  exact fit_ite (fun _ => k.onInd _) fun _ => k

theorem fit_storeWriteCompletion (k : Fit s) (hgo : Cascades go) (ok : Bool) : Fit (storeWriteCompletion go ok s) := by
  unfold storeWriteCompletion
  split
  · exact k
  · rename_i w _
    have k0 : Fit (s.onSto fun t => { (t.store w.data ok) with writing := none }) := by
      obtain ⟨k1, k2, k3, k4, k5, k6, k7, k8, k9, k10⟩ := k
      refine ⟨k1, k2, k3, k4, k5, k6, k7, k8, ?_, k10⟩
      rw [storeOrdered_iff] at *
      have : (s.onSto fun t => { (t.store w.data ok) with writing := none }).sto.queue = s.sto.queue := by
        show (s.sto.store w.data ok).queue = _
        unfold Sto.store
        cases w.data <;> rfl
      rw [this]; exact k9
    exact (fit_beginWrite (fit_ite (fun _ => k0.queueEvent _) fun _ => k0)).publish hgo _

variable {go : Go} {s t : State}

/-! ## Sources and output frames -/

theorem fit_adopt (k : Fit s) (hgo : Cascades go) (n : Nat) (c : RateClass) : Fit (adopt go n c s) := by
  unfold adopt
  exact ((k.setSource n _ fun _ => Nat.zero_le _).publishAll hgo _).queueEvent _

theorem source_fits (k : Fit s) (n : Nat) (h : n < 3) : (s.source n).fifo.length ≤ (s.sourceConfig n).capacity := by
  obtain ⟨_, _, _, _, k5, _⟩ := k
  exact k5 n h

theorem fit_sameFifo (k : Fit s) (n : Nat) (x : SourceRec) (hx : x.fifo = (s.source n).fifo) : Fit (setSource n x s) :=
  k.setSource n x fun h => by rw [hx]; exact source_fits k n h

theorem arrived_fits (x : SourceRec) (c : SourceConfig) (f : Int × Int) (h : x.fifo.length ≤ c.capacity) :
    (x.arrived c f).fifo.length ≤ c.capacity := by
  have hp : (x.pushed c f).fifo.length ≤ c.capacity := by
    unfold SourceRec.pushed
    split
    · simp; omega
    · exact h
  have hq : (if x.cls.keeps x.decim then x.pushed c f else x).fifo.length ≤ c.capacity := by
    split
    · exact hp
    · exact h
  unfold SourceRec.arrived
  split <;> first | exact hq | exact h

theorem fit_sourceFrameArrival (k : Fit s) (hgo : Cascades go) (n : Nat) (l r : BitVec 32) (e : Nat) :
    Fit (sourceFrameArrival go n l r e s) := by
  unfold sourceFrameArrival
  dsimp only
  refine fit_ite (fun _ => k) fun _ => fit_ite (fun _ => fit_sameFifo k n _ (by rfl)) fun _ => ?_
  have k1 := k.setSource n { (s.source n).arrived (s.sourceConfig n) ((s.sourceConfig n).frame l r) with
      frames := (s.source n).frames + 1, edges := (s.source n).edges + e, frameTimer := some frameTime }
    fun h => arrived_fits _ _ _ (source_fits k n h)
  refine fit_ite (fun _ => ?_) fun _ => k1.publishAll hgo _
  have k2 := k1.publishAll hgo (sourceItems n)
  generalize publishAll go (sourceItems n) _ = u at *
  unfold closeMeasurement
  dsimp only
  have k3 : ∀ y : SourceRec, y.fifo = (u.source n).fifo → Fit (setSource n y u) := fun y hy => fit_sameFifo k2 n y hy
  split
  · exact fit_ite (fun _ => fit_adopt (k3 _ (by rfl)) hgo n _) fun _ => k3 _ (by rfl)
  · exact k3 _ (by rfl)

theorem fit_frameTimerExpiry (k : Fit s) (hgo : Cascades go) (n : Nat) : Fit (frameTimerExpiry go n s) := by
  unfold frameTimerExpiry
  dsimp only
  split
  · exact k
  · have k1 := fit_sameFifo k n
      { s.source n with measuring := false, frames := 0, edges := 0, candidate := none, frameTimer := none } (by rfl)
    exact fit_ite (fun _ => k1) fun _ => fit_adopt k1 hgo n _

theorem clampInt_inDomain (x : Int) : InDomain (clampInt sampleMin sampleMax x) := by
  unfold InDomain clampInt sampleMin sampleMax
  omega

theorem popped_fits (x : SourceRec) : x.popped.2.fifo.length ≤ x.fifo.length := by
  unfold SourceRec.popped
  repeat' split
  all_goals first | exact Nat.le_refl _ | (rename_i hq; rw [hq]; simp)

theorem peek_map {α β : Type} [Inhabited α] [Inhabited β] {n : Nat} (v : Vector α n) (f : α → β) (i : Nat) (h : i < n) :
    peek (v.map f) i = f (peek v i) := by
  unfold peek
  simp [h]

theorem fit_outputFrame (k : Fit s) (hgo : Cascades go) : Fit (outputFrame go s) := by
  unfold outputFrame
  refine fit_ite (fun _ => ?_) fun _ => k
  refine Cascade.fit (cascade_endPageIfDone hgo (cascade_publishAll hgo _ (.refl _))) ?_
  obtain ⟨k1, k2, k3, k4, k5, k6, k7, k8, k9, k10⟩ := k
  have hs : s.zaeFrame.sources = s.zae.sources.map fun x => x.popped.2 := by
    unfold State.zaeFrame
    dsimp only
    split <;> simp [Vector.map_map]
  have hc : s.zaeFrame.clips = s.zae.clips ∧ s.zaeFrame.memory = s.zae.memory := by
    unfold State.zaeFrame
    dsimp only
    split <;> exact ⟨rfl, rfl⟩
  have hz : ∀ z, z < 8 → InDomain (peek s.zaeFrame.zones z).left ∧ InDomain (peek s.zaeFrame.zones z).right := by
    intro z hz
    unfold State.zaeFrame
    dsimp only
    split
    · rw [peek_ofFn _ z hz]
      exact ⟨clampInt_inDomain _, clampInt_inDomain _⟩
    · dsimp only
      split
      · rw [peek_map _ _ _ hz, peek_ofFn _ z hz]
        unfold ZoneRec.pageCompleted ZoneRec.silenced
        split <;> exact ⟨clampInt_inDomain _, clampInt_inDomain _⟩
      · rw [peek_ofFn _ z hz]
        exact ⟨clampInt_inDomain _, clampInt_inDomain _⟩
  refine ⟨k1, k2, k3, k4, fun n hn => ?_, ?_, ?_, hz, k9, k10⟩
  · show (peek s.zaeFrame.sources n).fifo.length ≤ _
    rw [hs, peek_map _ _ _ hn]
    exact Nat.le_trans (popped_fits _) (k5 n hn)
  · intro j hj
    show (peek s.zaeFrame.clips j).state = .ready → (peek s.zaeFrame.clips j).length ≤ (peek s.zaeFrame.clips j).room
    rw [hc.1]; exact k6 j hj
  · show Memory.wf s.zaeFrame.memory = true
    rw [hc.2]; exact k7

/-! ## Requests -/

theorem fit_enter (k : Fit s) (hgo : Cascades go) (m : MachineId) (st : ChanState) : Fit (enter go m st s) :=
  Cascade.fit (cascade_enter hgo m st (.refl _)) k

theorem fit_applyEnabled (k : Fit s) (hgo : Cascades go) (m : MachineId) : Fit (applyEnabled go m s) := by
  unfold applyEnabled
  split
  · exact fit_enter k hgo _ _
  · exact fit_enter k hgo _ _
  · exact fit_ite (fun _ => fit_enter k hgo _ _) fun _ => (fit_enter k hgo _ _).send hgo _ trivial
  · exact k

/-- New parameters of a machine: the rode count is held to a smaller RodeMax before anything follows. -/
theorem fit_applyParams (k : Fit s) (hgo : Cascades go) (m : MachineId) (x : MachineSettings)
    (hx : m ≠ .w → x.windlass = s.settings.machines.windlass) : Fit (applyParams go m (setMachines x s)) := by
  have same : x.windlass = s.settings.machines.windlass → Fit (setMachines x s) := fun h =>
    k.settings _ (by show x.windlass.rodeMax = _; rw [h]) rfl
  cases m with
  | w =>
    show Fit (applyWindlass go (setMachines x s))
    unfold applyWindlass
    dsimp only
    refine Cascade.fit (cascade_refreshDisplay _ (.refl _)) ?_
    obtain ⟨k1, k2, k3, k4, k5, k6, k7, k8, k9, k10⟩ := k
    refine fit_ite (fun h => ?_) fun h => ?_
    · refine Fit.requestWrite (Fit.publish ?_ hgo _) hgo _ _
      refine ⟨k1, k2, k3, ⟨Nat.le_refl _, fun hp hh => ?_⟩, k5, k6, k7, k8, k9, k10⟩
      have h0 : s.sfe.rode = 0 := k4.2 hp hh
      have h' : x.windlass.rodeMax < s.sfe.rode := h
      omega
    · refine Fit.publish ?_ hgo _
      have h' : ¬ x.windlass.rodeMax < s.sfe.rode := h
      exact ⟨k1, k2, k3, ⟨Nat.not_lt.mp h', k4.2⟩, k5, k6, k7, k8, k9, k10⟩
  | p => exact fit_setSensors (same (hx (by decide))) _ _
  | h => exact fit_setSensors (same (hx (by decide))) _ _

theorem withTail_windlass {m : MachineId} (hm : m ≠ .w) {x y : MachineSettings} {t : MachineTail} (h : x.withTail m t = some y) :
    y.windlass = x.windlass := by
  unfold MachineSettings.withTail at h
  split at h
  · contradiction
  · injection h with h; rw [← h]
  · injection h with h; rw [← h]
  · cases h

theorem clamped_windlass {m : MachineId} (hm : m ≠ .w) (x : MachineSettings) : (x.clamped m).windlass = x.windlass := by
  cases m
  · contradiction
  · rfl
  · rfl

theorem fit_serveConfigureMachine (k : Fit s) (hgo : Cascades go) (b : Byte) (f : MachineFields) :
    Fit (serveConfigureMachine go b f s).1 := by
  unfold serveConfigureMachine
  split
  · split
    · exact k
    · rename_i m _ _ _ _ raw hraw
      split
      · exact k
      · refine fit_applyEnabled (fit_applyParams k hgo m _ fun hm => ?_) hgo m
        rw [clamped_windlass hm, withTail_windlass hm hraw]
  · exact k

theorem fit_serveRun (k : Fit s) (hgo : Cascades go) (b d : Byte) (t : Option Half) : Fit (serveRun go b d t s).1 := by
  unfold serveRun
  split
  · dsimp only
    split
    · exact k
    · exact Cascade.fit (cascade_createRun hgo _ _ _ _ (.refl _)) k
  · exact k

theorem fit_serveStop (k : Fit s) (hgo : Cascades go) (b : Byte) : Fit (serveStop go b s).1 := by
  unfold serveStop
  split
  · exact k
  · exact fit_foldl _ (fun u m _ h => Cascade.fit (cascade_endRun hgo m _ (cascade_inhibit hgo m (.refl _))) h) k

theorem fit_serveSetRode (k : Fit s) (hgo : Cascades go) (c : Half) : Fit (serveSetRode go c s).1 := by
  unfold serveSetRode
  dsimp only
  split
  · exact k
  · rename_i h
    have k0 : Fit (s.onSfe fun f =>
        { f with
          rode := min c.toNat s.settings.machines.windlass.rodeMax, rodeUnknown := false
          creepRef := some (min c.toNat s.settings.machines.windlass.rodeMax) }) :=
      k.rode _ (Nat.min_le_right _ _) fun _ hh => by
        by_cases h0 : min c.toNat s.settings.machines.windlass.rodeMax = 0
        · exact h0
        · exact absurd (.inr ⟨hh, h0⟩) h
    exact (k0.publishAll hgo _).requestWrite hgo _ _

theorem fit_serveCalibrate (k : Fit s) (hgo : Cascades go) (b : Byte) (e : Half) : Fit (serveCalibrate go b e s).1 := by
  have one : ∀ m x, Fit (calibrateMachine go m x s).1 := fun m x => by
    unfold calibrateMachine
    split
    · exact k
    · dsimp only
      split
      · exact k
      · show Fit (applyCalibration go m _ s)
        unfold applyCalibration
        dsimp only
        have k0 : ∀ p, Fit (setSensorParams m p s) := fun p => by cases m <;> exact k.settings _ rfl rfl
        exact fit_ite (fun _ => ((fit_setSensors (k0 _) m _).publish hgo _).send hgo _ trivial) fun _ => (fit_setSensors (k0 _) m _).publish hgo _
  unfold serveCalibrate
  split
  · exact one _ _
  · exact one _ _
  · exact k

theorem fit_replaceEntry (k : Fit s) (hgo : Cascades go) (i : Nat) (e : Option InterlockEntry) : Fit (replaceEntry go i e s) := by
  unfold replaceEntry
  dsimp only
  have k1 : Fit (s.onSettings fun t => { t with interlocks := poke t.interlocks (i - builtInEntries) e }) := k.settings _ rfl rfl
  have k2 := Cascade.fit (cascade_reevaluate hgo
    (s.onSettings fun t => { t with interlocks := poke t.interlocks (i - builtInEntries) e }).entries (.refl _)) k1
  split
  · exact k2.send hgo _ trivial
  · exact k2

theorem fit_serveWriteInterlock (k : Fit s) (hgo : Cascades go) (i : Byte) (e : Option EntryFields) :
    Fit (serveWriteInterlock go i e s).1 := by
  unfold serveWriteInterlock
  split
  · split
    · exact fit_replaceEntry k hgo _ _
    · split
      · exact k
      · exact fit_replaceEntry k hgo _ _
  · exact k

theorem fit_serveConfigureCause (k : Fit s) (c x t : Byte) : Fit (serveConfigureCause c x t s).1 := by
  unfold serveConfigureCause
  split
  · exact k
  · split
    · exact k
    · split
      · split
        · exact k.settings _ rfl rfl
        · exact k
      · exact k

theorem fit_serveClearFault (k : Fit s) (hgo : Cascades go) (c : Byte) : Fit (serveClearFault go c s).1 := by
  unfold serveClearFault
  split
  · exact k
  · split
    · exact k
    · exact Fit.foldClear k hgo _ _

theorem fit_serveServiceClear (k : Fit s) (hgo : Cascades go) (c : Byte) : Fit (serveServiceClear go c s).1 := by
  unfold serveServiceClear
  split
  · exact k
  · split
    · split
      · exact k
      · rename_i cs _
        have k1 : Fit (clearCauses go .service cs s) := Fit.foldClear k hgo .service cs
        dsimp only
        show Fit (if _ then _ else _)
        refine fit_ite (fun _ => ?_) fun _ => k1
        unfold removeTrip
        exact (Fit.requestWrite ((k1.onFis _).publish hgo _) hgo _ _).reconsiderIsolate hgo
    · exact k

theorem fit_serveConfigureStation (k : Fit s) (f : StationFields) : Fit (serveConfigureStation f s).1 := by
  unfold serveConfigureStation
  split
  · split
    · exact k
    · exact k.settings _ rfl rfl
  · exact k

theorem fit_serveConfigureHsu (k : Fit s) (a b : Half) (c : Byte) (d : Half) : Fit (serveConfigureHsu a b c d s).1 := by
  unfold serveConfigureHsu
  split
  · exact k.settings _ rfl rfl
  · exact k

theorem fit_applySource (k : Fit s) (hgo : Cascades go) (n : Nat) (c : SourceConfig) : Fit (applySource go n c s) := by
  unfold applySource
  refine Fit.publishAll ?_ hgo _
  obtain ⟨k1, k2, k3, k4, k5, k6, k7, k8, k9, k10⟩ := k
  refine ⟨k1, k2, k3, k4, fun j hj => ?_, k6, k7, k8, k9, k10⟩
  show (peek (poke s.zae.sources n _) j).fifo.length ≤ (peek (poke s.settings.audio.sources n c) j).capacity
  rw [peek_poke, peek_poke]
  split
  · exact Nat.zero_le _
  · exact k5 j hj

theorem fit_serveConfigureSource (k : Fit s) (hgo : Cascades go) (n : Byte) (f : SourceFields) :
    Fit (serveConfigureSource go n f s).1 := by
  unfold serveConfigureSource
  split
  · dsimp only
    repeat' split
    all_goals first | exact k | exact fit_applySource k hgo _ _
  · exact k

theorem fit_setZoneConfig (k : Fit s) (z : Nat) (c : ZoneConfig) : Fit (setZoneConfig z c s) := k.settings _ rfl rfl

theorem fit_serveConfigureZone (k : Fit s) (hgo : Cascades go) (z : Byte) (f : ZoneFields) : Fit (serveConfigureZone go z f s).1 := by
  unfold serveConfigureZone
  split
  · show Fit (if _ then _ else _)
    exact fit_ite (fun _ => fit_setZoneConfig k _ _) fun _ =>
      Cascade.fit (cascade_reconsiderLists hgo (.refl _)) (fit_setZoneConfig k _ _)
  · exact k

theorem fit_serveSetVolume (k : Fit s) (z v : Byte) : Fit (serveSetVolume z v s).1 := by
  unfold serveSetVolume
  split
  · exact k
  · exact fit_setZoneConfig k _ _

theorem fit_serveSetQuiet (k : Fit s) (hgo : Cascades go) (z q : Byte) : Fit (serveSetQuiet go z q s).1 := by
  unfold serveSetQuiet
  split
  · exact fit_setZoneQuiet k hgo _ _
  · exact k

theorem fit_serveClearAudioFlags (k : Fit s) (hgo : Cascades go) (x : Byte) : Fit (serveClearAudioFlags go x s).1 := by
  unfold serveClearAudioFlags
  split
  · exact fit_foldl (f := fun s n => publish go (setSource n { s.source n with xrun := false } s) (Item.sourceXrun n)) _
      (fun u n _ h => (fit_sameFifo h n { u.source n with xrun := false } (by rfl)).publish hgo _) k
  · exact k

theorem fit_dropSamples (k : Fit s) (n : Nat) : Fit (dropSamples n s) :=
  k.memory _ (clearSamples_wf _ _ _ (by obtain ⟨_, _, _, _, _, _, k7, _⟩ := k; exact k7))

theorem Fit.owners (k : Fit s) (x : Vector BlockOwner 64) : Fit (s.onZae fun a => { a with owners := x }) := k

theorem fit_serveAllocateClip (k : Fit s) (n a c : Byte) : Fit (serveAllocateClip n a c s).1 := by
  unfold serveAllocateClip
  split
  · exact k
  · repeat' split
    · exact k
    · exact k
    · exact k
    · rename_i i _ _ _ _
      have k1 := (fit_dropSamples k i).setClip i { state := .loading, start := a.toNat, count := c.toNat, length := 0 } (fun h => by cases h)
      have k2 := k1.memory _ (clearSamples_wf ({ state := .loading, start := a.toNat, count := c.toNat, length := 0 } : ClipRec).base
        ({ state := .loading, start := a.toNat, count := c.toNat, length := 0 } : ClipRec).room _
        (by obtain ⟨_, _, _, _, _, _, k7, _⟩ := k1; exact k7))
      exact k2.owners _

theorem fit_serveFreeClip (k : Fit s) (n : Byte) : Fit (serveFreeClip n s).1 := by
  unfold serveFreeClip
  split
  · exact k
  · split
    · exact k
    · exact ((fit_dropSamples k _).setClip _ ClipRec.free (fun h => by cases h)).owners _

theorem fit_serveClipData (k : Fit s) (n : Byte) (o : Half) (xs : List Half) : Fit (serveClipData n o xs s).1 := by
  unfold serveClipData
  repeat' split
  all_goals first
    | exact k
    | (dsimp only
       repeat' split
       all_goals first
        | exact k
        | exact k.memory _ (writeSamples_wf _ _ _ (by obtain ⟨_, _, _, _, _, _, k7, _⟩ := k; exact k7)))

theorem fit_serveClipEnd (k : Fit s) (n : Byte) (l : Half) : Fit (serveClipEnd n l s).1 := by
  unfold serveClipEnd
  split
  · exact k
  · dsimp only
    split
    · exact k
    · split
      · exact k
      · rename_i h
        refine k.setClip _ _ fun _ => ?_
        exact Nat.not_lt.mp fun hh => h (.inr hh)

theorem repeatRewritten_sides (s : State) (m : MachineId) (z : ZoneRec) :
    (s.repeatRewritten m z).left = z.left ∧ (s.repeatRewritten m z).right = z.right := by
  unfold State.repeatRewritten State.beginPlay
  repeat' split
  all_goals exact ⟨rfl, rfl⟩

theorem fit_applyAnnounce (k : Fit s) (hgo : Cascades go) (m : MachineId) (r : AnnounceRecord) : Fit (applyAnnounce go m r s) := by
  have k1 := Cascade.fit (cascade_reconsiderLists hgo (.refl _))
    (k.settings (fun t => { t with audio := { t.audio with announce := t.audio.announce.set m r } }) rfl rfl)
  unfold applyAnnounce
  dsimp only
  generalize reconsiderLists go _ = u at *
  exact (fit_foldl (f := fun s z => setZone z (s.repeatRewritten m (s.zone z)) s) zoneIndexes
    (fun v z _ h => h.setZone z _ (repeatRewritten_sides v m _)) k1).publish hgo _

theorem fit_serveConfigureAnnounce (k : Fit s) (hgo : Cascades go) (b : Byte) (f : AnnounceFields) :
    Fit (serveConfigureAnnounce go b f s).1 := by
  unfold serveConfigureAnnounce
  split
  · unfold reply
    dsimp only
    exact fit_applyAnnounce k hgo _ _
  · exact k

theorem fit_page (k : Fit s) (p : Option PageRec) : Fit (s.onZae fun a => { a with page := p }) := k

theorem fit_startPage (k : Fit s) (hgo : Cascades go) (n d : Nat) (x : Vector Bool 8) : Fit (startPage go n d x s) := by
  unfold startPage
  dsimp only
  exact (fit_page (fit_foldl
    (f := fun s z => if peek x z = true then setZone z { s.zone z with voice := .page, place := 0, since := 0 } s else s) zoneIndexes
    (fun u z _ h => fit_ite (fun _ => h.setZone z _ ⟨rfl, rfl⟩) fun _ => h) k) _).publish hgo _

theorem fit_servePage (k : Fit s) (hgo : Cascades go) (n z d : Byte) : Fit (servePage go n z d s).1 := by
  unfold servePage
  split
  · exact k
  · split
    · exact k
    · exact fit_ite (fun _ => fit_startPage k hgo _ _ _) fun _ => k

theorem fit_serveCancelPage (k : Fit s) (hgo : Cascades go) : Fit (serveCancelPage go s).1 := by
  unfold serveCancelPage
  split
  · exact Cascade.fit (cascade_cancelPageNow hgo (.refl _)) k
  · exact k

theorem fit_serveReadAudio (k : Fit s) (p : Byte) : Fit (serveReadAudio p s).1 := by
  unfold serveReadAudio
  split <;> exact k

theorem fit_serveConfigureDisplay (k : Fit s) (d : Byte) (f : DisplayFields) : Fit (serveConfigureDisplay d f s).1 := by
  unfold serveConfigureDisplay
  split
  · exact k
  · dsimp only
    split
    · exact Cascade.fit (cascade_refreshDisplay _ (.refl _)) (k.settings _ rfl rfl)
    · exact k

theorem fit_serveDisplayRequest (k : Fit s) (d a : Byte) : Fit (serveDisplayRequest d a s).1 := by
  unfold serveDisplayRequest
  split
  · rename_i ms f _ hf
    refine fit_foldl _ (fun u m _ h => ?_) k
    unfold displayAction at hf
    split at hf
    · injection hf with hf
      rw [← hf]; exact Cascade.fit (cascade_activate m (.refl _)) h
    · injection hf with hf
      rw [← hf]; exact h.setDisplay m _
    · cases hf
  · exact k

theorem fit_serveConfigureLamp (k : Fit s) (l b : Byte) (x : Option LampItemFields) (m : Byte) :
    Fit (serveConfigureLamp l b x m s).1 := by
  unfold serveConfigureLamp
  split
  · exact k.settings _ rfl rfl
  · exact k

theorem fit_serveSaveSettings (k : Fit s) (hgo : Cascades go) (x : Byte) : Fit (serveSaveSettings go x s).1 :=
  fit_beginWrite (fit_foldl _ (fun _ _ _ h => h.requestWrite hgo _ _) k)

theorem fit_serveFetchEvents (k : Fit s) (n : Byte) : Fit (serveFetchEvents n s).1 := by
  obtain ⟨k1, k2, k3, k4, k5, k6, k7, k8, k9, k10⟩ := k
  refine ⟨k1, ?_, k3, k4, k5, k6, k7, k8, k9, k10⟩
  unfold EventsFit at *
  show (s.seu.events.drop _).length ≤ _
  rw [List.length_drop]
  omega

theorem fit_serveSetWatch (k : Fit s) (i g : Byte) (x : Half) (c e : Byte) : Fit (serveSetWatch i g x c e s).1 := by
  unfold serveSetWatch
  split
  · split
    · exact k
    · exact k
  · exact k

theorem fit_serveRefresh (k : Fit s) (b : Byte) (id : Half) : Fit (serveRefresh b id s).1 := by
  unfold serveRefresh
  split
  · exact k
  · split
    · exact k.chan _ _ fun h => h
    · exact k

theorem fit_serveConfigureGlobal (k : Fit s) (a b : Half) : Fit (serveConfigureGlobal a b s).1 :=
  Fit.onSlp (k.settings (fun t => { t with machines := { s.settings.machines with refreshTime := clamp 100 1000 a.toNat, linkQuiet := clampQuiet b.toNat } }) rfl rfl) _

/-- Every request leaves the invariants as they were. -/
theorem fit_serveRequest (k : Fit s) (hgo : Cascades go) (i : Instr) : Fit (serveRequest go i s).1 := by
  cases i
  case setWatch => exact fit_serveSetWatch k _ _ _ _ _
  case fetchEvents => exact fit_serveFetchEvents k _
  case saveSettings => exact fit_serveSaveSettings k hgo _
  case configureMachine => exact fit_serveConfigureMachine k hgo _ _
  case configureMachineGlobal => exact fit_serveConfigureGlobal k _ _
  case run => exact fit_serveRun k hgo _ _ _
  case refresh => exact fit_serveRefresh k _ _
  case stop => exact fit_serveStop k hgo _
  case setRode => exact fit_serveSetRode k hgo _
  case calibrate => exact fit_serveCalibrate k hgo _ _
  case configureHsu => exact fit_serveConfigureHsu k _ _ _ _
  case writeInterlock => exact fit_serveWriteInterlock k hgo _ _
  case configureCause => exact fit_serveConfigureCause k _ _ _
  case clearFault => exact fit_serveClearFault k hgo _
  case serviceClear => exact fit_serveServiceClear k hgo _
  case configureStation => exact fit_serveConfigureStation k _
  case configureSource => exact fit_serveConfigureSource k hgo _ _
  case configureZone => exact fit_serveConfigureZone k hgo _ _
  case setVolume => exact fit_serveSetVolume k _ _
  case setQuiet => exact fit_serveSetQuiet k hgo _ _
  case allocateClip => exact fit_serveAllocateClip k _ _ _
  case clipData => exact fit_serveClipData k _ _ _
  case clipEnd => exact fit_serveClipEnd k _ _
  case freeClip => exact fit_serveFreeClip k _
  case configureAnnounce => exact fit_serveConfigureAnnounce k hgo _ _
  case page => exact fit_servePage k hgo _ _ _
  case cancelPage => exact fit_serveCancelPage k hgo
  case readAudio => exact fit_serveReadAudio k _
  case clearAudioFlags => exact fit_serveClearAudioFlags k hgo _
  case configureDisplay => exact fit_serveConfigureDisplay k _ _
  case displayRequest => exact fit_serveDisplayRequest k _ _
  case configureLamp => exact fit_serveConfigureLamp k _ _ _ _
  case readStatus => show Fit (serveReadStatus _ s).1; unfold serveReadStatus; split <;> exact k
  case readMachine => show Fit (serveReadMachine _ s).1; unfold serveReadMachine; split <;> exact k
  case readInterlock => show Fit (serveReadInterlock _ s).1; unfold serveReadInterlock; split <;> exact k
  all_goals exact k

/-! ## The link port -/

theorem fit_take (k : Fit s) (hgo : Cascades go) (x : Ticket) : Fit (take go x s) := by
  unfold take
  refine Fit.onSlp ?_ _
  unfold serve
  split
  · exact fit_serveRequest k hgo _
  · exact k
  · exact k

theorem fit_offer (k : Fit s) (hgo : Cascades go) (x : Ticket) : Fit (offer go x s) := by
  unfold offer
  split
  · exact fit_take k hgo x
  · exact k.onSlp _
  · exact k

theorem fit_validFrame (k : Fit s) (hgo : Cascades go) (x : Ticket) : Fit (validFrame go x s) := by
  unfold validFrame
  refine fit_offer ?_ hgo x
  unfold noteValidFrame
  dsimp only
  exact fit_ite (fun _ => ((k.onSlp _).publish hgo _).report hgo _ _) fun _ => (k.onSlp _).publish hgo _

theorem fit_requestArrives (k : Fit s) (i : Instr) : Fit (requestArrives i s) := by
  unfold requestArrives
  split
  · exact fit_validFrame k cascades_send _
  all_goals exact k

theorem fit_linkQuietTimerExpiry (k : Fit s) (hgo : Cascades go) : Fit (linkQuietTimerExpiry go s) := by
  unfold linkQuietTimerExpiry
  split
  · exact k
  · exact ((k.onSlp _).publish hgo _).report hgo _ _

theorem fit_setReceiver (k : Fit s) (r : Receiver) : Fit (setReceiver r s) := k

theorem fit_receivedByte (k : Fit s) (hgo : Cascades go) (b : Byte) : Fit (receivedByte go b s) := by
  unfold receivedByte
  dsimp only
  split
  · exact k
  · exact k
  · split
    · exact fit_ite (fun _ => fit_setReceiver k _) fun _ => k
    · exact fit_ite (fun _ => fit_setReceiver k _) fun _ => fit_ite (fun _ => fit_setReceiver k _) fun _ => fit_setReceiver k _
    · exact fit_ite (fun _ => fit_setReceiver k _) fun _ => fit_setReceiver k _
    · exact fit_setReceiver k _
    · exact fit_setReceiver k _
    · split
      · exact fit_setReceiver k _
      · unfold frameCompleted
        exact fit_ite (fun _ => fit_validFrame k hgo _) fun _ => fit_setReceiver k _

theorem fit_discardFrame (k : Fit s) : Fit (discardFrame s) := by
  unfold discardFrame
  split <;> exact k

/-! ## Resets -/

theorem restoredRode_le (c : Copy Records) (top : Nat) (h : Bool) : (restoredRode c top h).1 ≤ top := by
  unfold restoredRode
  repeat' split
  all_goals first | exact Nat.zero_le _ | exact Nat.min_le_right _ _

theorem restoredSfe_rode (c : Copy Records) (top : Nat) (h : Bool) : (restoredSfe c top h).rode = (restoredRode c top h).1 := rfl

theorem Zae.fresh_fits (o : Vector BlockOwner 64) : (∀ n, n < 3 → (peek (Zae.fresh o).sources n).fifo = []) ∧
    (∀ n, n < 16 → (peek (Zae.fresh o).clips n).state = .empty) ∧
    ∀ z, z < 8 → (peek (Zae.fresh o).zones z).left = 0 ∧ (peek (Zae.fresh o).zones z).right = 0 := by
  refine ⟨fun n h => ?_, fun n h => ?_, fun z h => ?_⟩
  · show (peek (Vector.replicate 3 SourceRec.fresh) n).fifo = []
    rw [peek_replicate _ h]; rfl
  · show (peek (Vector.replicate 16 ({ state := .empty, start := 0, count := 0, length := 0 } : ClipRec)) n).state = _
    rw [peek_replicate _ h]
  · show (peek (Vector.replicate 8 ZoneRec.fresh) z).left = 0 ∧ (peek (Vector.replicate 8 ZoneRec.fresh) z).right = 0
    rw [peek_replicate _ h]; exact ⟨rfl, rfl⟩

/-- A reset that leaves the part initializing or held, whatever it was before. -/
theorem fit_boot (c : ResetCause) (p : Phase) (hp : p ≠ .running) (x : Straps) (s : State) : Fit (boot c p x s) := by
  refine ⟨fun m => ?_, Nat.zero_le _, Nat.zero_le _, ⟨restoredRode_le _ _ _, fun _ hh => ?_⟩, fun n hn => ?_, fun n hn h => ?_, rfl, fun z hz => ?_,
    ⟨List.nodup_nil, fun h => by cases h⟩, fun h => absurd h hp⟩
  · cases m <;> exact ⟨fun _ => ⟨rfl, rfl, rfl, rfl⟩, Nat.le_refl _, fun _ => rfl⟩
  · show (restoredRode _ _ s.pins.home).1 = 0
    have : s.pins.home = true := hh
    unfold restoredRode; rw [this]; rfl
  · show (peek (Zae.fresh _).sources n).fifo.length ≤ _
    rw [(Zae.fresh_fits _).1 n hn]; exact Nat.zero_le _
  · have : (peek (Zae.fresh _).clips n).state = .ready := h
    rw [(Zae.fresh_fits _).2.1 n hn] at this; cases this
  · show InDomain (peek (Zae.fresh _).zones z).left ∧ InDomain (peek (Zae.fresh _).zones z).right
    rw [((Zae.fresh_fits _).2.2 z hz).1, ((Zae.fresh_fits _).2.2 z hz).2]
    exact ⟨by unfold InDomain sampleMin sampleMax; omega, by unfold InDomain sampleMin sampleMax; omega⟩

theorem fit_rstGoesHigh (k : Fit s) (x : Straps) : Fit (rstGoesHigh x s) := by
  unfold rstGoesHigh
  split
  · exact fit_boot _ _ (by decide) _ _
  all_goals exact k

theorem fit_replySent (k : Fit s) (hgo : Cascades go) : Fit (replySent go s) := by
  unfold replySent
  split
  · exact k
  · refine fit_ite (fun _ => fit_boot _ _ (by decide) _ _) fun _ => ?_
    split
    · exact k.onSlp _
    · exact fit_take (k.onSlp _) hgo _

theorem fit_followState (k : Fit s) (m : MachineId) (st : ChanState) : Fit (followState m st s) :=
  Cascade.fit (cascade_followState m st (.refl _)) k

theorem fit_setUpChannel (k : Fit s) (m : MachineId) : Fit (setUpChannel s m) := by
  unfold setUpChannel
  exact fit_followState (k.setChan m _ (channelMove_inState _ _)) m _

theorem fit_firstSample (k : Fit s) (m : MachineId) : Fit (firstSample m s) := by
  cases m
  · exact fit_takeRode k
  · exact fit_takeCounts k _ _ _
  · exact fit_takeCounts k _ _ _

theorem fit_setUpSource (k : Fit s) (n : Nat) : Fit (setUpSource s n) := by
  unfold setUpSource
  exact fit_ite (fun _ => fit_sameFifo k n { s.source n with state := .detecting, frameTimer := some frameTime } (by rfl)) fun _ => k

theorem fit_firstWrite (k : Fit s) : Fit (firstWrite s) := by
  unfold firstWrite
  refine fit_ite (fun _ => Fit.onSfe ?_ _ rfl) fun _ => k
  exact Cascade.fit (Cascade.move (.refl _) (.store s .records false)) k

theorem loose_storeCauses (k : Loose s) : Loose (storeCauses s) := by
  unfold storeCauses storeCause
  dsimp only
  split <;> split <;> exact k

theorem storeCauses_hsc (s : State) : (storeCauses s).hsc = s.hsc ∧ (storeCauses s).pins = s.pins ∧ (storeCauses s).phase = s.phase := by
  unfold storeCauses storeCause
  dsimp only
  split <;> split <;> exact ⟨rfl, rfl, rfl⟩

theorem itemAt_index {q : ItemRef} (hq : q.exists = true) : itemAt q.index = q := by
  obtain ⟨g, k⟩ := q
  simp only [ItemRef.exists, decide_eq_true_eq] at hq
  have e : ∀ k : Fin 16, itemAt (ItemRef.index ⟨g, k.val⟩) = ⟨g, k.val⟩ := by cases g <;> decide
  have hk : k < 16 := by cases g <;> simp only [Group.size] at hq <;> omega
  exact e ⟨k, hk⟩

theorem fit_setItems (k : Fit s) : Fit (setItems s) :=
  Cascade.fit (cascade_setItems _ (.refl s) fun q hq => .inr (by
    rw [peek_ofFn _ _ (index_lt hq.1)]
    dsimp only
    rw [itemAt_index hq.1, hq.1, Bool.true_and])) k

theorem fit_startTimers (k : Fit s) : Fit (startTimers s) := Fit.onInd (Fit.onSfe (k.onSlp _) _ rfl) _

/-- The blocks are set up for service: ISOLATE is judged anew before anything follows. -/
theorem fit_setUp (k : Fit s) (hp : s.phase = .initializing) : Fit (setUp s) := by
  have k0 : Loose { s with phase := .running, now := 0 } := by
    obtain ⟨k1, k2, k3, k4, k5, k6, k7, k8, k9, _⟩ := k
    exact ⟨k1, k2, k3, ⟨k4.1, fun _ h => k4.2 (by rw [hp]; decide) h⟩, k5, k6, k7, k8, k9⟩
  have isolated : ∀ v : State, Loose v → Fit (v.onHsc fun _ => { Hsc.fresh with isolate := v.pins.estop || v.fis.trip.isSome }) := by
    rintro v ⟨k1, k2, k3, k4, k5, k6, k7, k8, k9⟩
    refine ⟨k1, k2, Nat.zero_le _, k4, k5, k6, k7, k8, k9, fun _ he => ?_⟩
    have he : v.pins.estop = true := he
    show (v.pins.estop || _) = true
    rw [he]; rfl
  unfold setUp
  extract_lets u v h0 w x y
  have k1 : Loose v := loose_storeCauses (Cascade.loose (cascade_queueEvent _ (.refl u)) k0)
  have k2 : Fit w := isolated v k1
  have k3 : Fit (machines.foldl (fun s m => firstSample m s) w) := fit_foldl machines (fun _ m _ h => fit_firstSample h m) k2
  have k4 : Fit x := fit_foldl machines (fun _ m _ h => fit_setUpChannel h m) k3
  have k5 : Fit y := fit_foldl (List.range 3) (fun _ n _ h => fit_setUpSource h n) (k4.onSiq Siq.setUp)
  clear_value y
  exact fit_setItems (fit_setItems (fit_firstWrite (fit_startTimers k5)))

theorem fit_endOfInitialization (k : Fit s) (hgo : Cascades go) : Fit (endOfInitialization go s) := by
  unfold endOfInitialization
  split
  · rename_i hp
    dsimp only
    have k1 : Fit (activateHeld (setUp s)) := by
      unfold activateHeld
      exact fit_foldl _ (fun u m _ h => fit_ite (fun _ => Cascade.fit (cascade_activate m (.refl _)) h) fun _ => h) (fit_setUp k hp)
    have k2 := fit_foldl causeIndexes (f := fun s c => trySelfClear go c s) (fun u c _ h => h.trySelfClear hgo c) k1
    have k3 : Fit (if (causeIndexes.foldl (fun s c => trySelfClear go c s) (activateHeld (setUp s))).pins.estop = true then
      report go causeEstop true (causeIndexes.foldl (fun s c => trySelfClear go c s) (activateHeld (setUp s)))
      else causeIndexes.foldl (fun s c => trySelfClear go c s) (activateHeld (setUp s))) := fit_ite (fun _ => k2.report hgo _ _) fun _ => k2
    exact fit_ite (fun _ => k3.report hgo _ _) fun _ => k3
  all_goals exact k

/-! ## A millisecond -/

theorem fit_elapse (k : Fit s) : Fit (elapse s) := by
  obtain ⟨k1, k2, k3, k4, k5, k6, k7, k8, k9, k10⟩ := k
  refine ⟨fun m => ?_, k2, k3, k4, fun n hn => ?_, k6, k7, k8, k9, k10⟩
  · cases m
    · exact k1 .w
    · exact k1 .p
    · exact k1 .h
  · show (SourceRec.fifo (peek (s.zae.sources.map fun x => { x with frameTimer := lessOne x.frameTimer }) n)).length ≤ _
    rw [peek_map _ _ _ hn]
    exact k5 n hn

end Sys2Proof.Machine
end

