-- ==== Sys2Proof/Laws/Isolate.lean ====
section
/-! SUPPORT. ISOLATE asserted and released while no grant is held (R114). -/

namespace Sys2Proof.Machine

theorem item_recompute_other {s : State} (h : NoHostEntries s) {q : ItemRef} (hq : q ≠ Item.scaled) : (recompute send s).item q = s.item q := by
  show (publish send _ Item.scaled).item q = _
  have e : ∀ (mc : Three Channel) (f : Hsc → Hsc), NoHostEntries (stallCheck ((s.onHsc f).onMc fun _ => mc)) ∧ (stallCheck ((s.onHsc f).onMc fun _ => mc)).item q = s.item q := by
    intro mc f
    rw [stallCheck_eq]
    exact ⟨h, rfl⟩
  rw [item_publish quiet_send (e _ _).1 (by unfold Plain; decide) rfl, if_neg hq]
  exact (e _ _).2

theorem assertIsolate_idle_eq {s : State} (hn : NoHostEntries s) (hg : s.hsc.grants = []) (hq : s.hsc.queue = []) :
    assertIsolate send s = publishAll send ([Item.grantsFull, Item.waitingAny] ++ machines.map Item.blocked)
      (flowIsolated send [] (setPump send .off 0 none (publishAll send [Item.isolated, Item.isolateOut] (s.onHsc fun h => { h with isolate := true })))) := by
  let s1 := publishAll send [Item.isolated, Item.isolateOut] (s.onHsc fun h => { h with isolate := true })
  have k1 : Silent (s.onHsc fun h => { h with isolate := true }) s1 :=
    silent_publishAll quiet_send (s := s.onHsc _) hn _ (by decide)
  have hs1q : s1.hsc.queue = [] := by rw [k1]; exact hq
  have hs1g : s1.hsc.grants = [] := by rw [k1]; exact hg
  show publishAll send _ (flowIsolated send s1.hsc.grants (setPump send .off 0 none (List.foldl (isolateChannel send) (s1.onHsc fun h => { h with queue := [] })
    (machines.filter fun m => s1.hsc.grants.contains m || s1.hsc.queue.contains m)))) = _
  rw [hs1g, hs1q]
  have : (s1.onHsc fun h => { h with queue := [] }) = s1 := by
    have h2 : ∀ u : State, u.hsc.queue = [] → (u.onHsc fun h => { h with queue := [] }) = u := fun u hu => by
      cases u with | mk a b c d e f g h i => cases i with | mk p1 p2 p3 p4 p5 p6 => simp only at hu; subst hu; rfl
    exact h2 s1 hs1q
  rw [this]
  rfl

/-- ISOLATE asserted while nobody holds a grant or waits (R53). -/
theorem assertIsolate_idle {s : State} (hn : NoHostEntries s) (hg : s.hsc.grants = []) (hq : s.hsc.queue = []) :
    let t := assertIsolate send s
    Still (s.onHsc fun h => { h with isolate := true }) t ∧ t.hsc.pump = .off ∧ t.hsc.attempt = 0 ∧ t.hsc.timer = none ∧ t.hsc.pressLoss = none ∧
      t.item Item.isolated = true ∧ t.item Item.isolateOut = true ∧ t.fis = s.fis ∧
      ∀ q, q ∉ [Item.isolated, Item.isolateOut] ++ pumpItems ++ [Item.scaled] ++ ([Item.grantsFull, Item.waitingAny] ++ machines.map Item.blocked) →
        t.item q = s.item q := by
  let s0 := s.onHsc fun h => { h with isolate := true }
  have hn0 : NoHostEntries s0 := hn
  let s1 := publishAll send [Item.isolated, Item.isolateOut] s0
  have hpl : ∀ r ∈ [Item.isolated, Item.isolateOut], r ∉ builtInItems ∧ r.exists = true := by decide
  have k1 : Silent s0 s1 := silent_publishAll quiet_send hn0 _ (fun r hr => (hpl r hr).1)
  have i1 : s1.item Item.isolated = true :=
    (item_publishAll_mem quiet_send Item.isolated _ hpl (by decide) hn0 (fun t ht => by rw [ht]; rfl)).trans rfl
  have i2 : s1.item Item.isolateOut = true :=
    (item_publishAll_mem quiet_send Item.isolateOut _ hpl (by decide) hn0 (fun t ht => by rw [ht]; rfl)).trans rfl
  have e : assertIsolate send s = publishAll send ([Item.grantsFull, Item.waitingAny] ++ machines.map Item.blocked)
      (flowIsolated send [] (setPump send .off 0 none s1)) := assertIsolate_idle_eq hn hg hq
  have hn1 : NoHostEntries s1 := hn0.of_settings (by rw [k1])
  obtain ⟨p1, -, -, -⟩ := setPump_exact hn1 .off 0 none
  have j1 : (setPump send .off 0 none s1).item Item.isolated = true := by
    rw [show setPump send .off 0 none s1 = publishAll send pumpItems _ from rfl,
      item_publishAll_other quiet_send (s := s1.onHsc _) hn1 pumpItems plain_pump _ (by decide)]
    exact i1
  have j2 : (setPump send .off 0 none s1).item Item.isolateOut = true := by
    rw [show setPump send .off 0 none s1 = publishAll send pumpItems _ from rfl,
      item_publishAll_other quiet_send (s := s1.onHsc _) hn1 pumpItems plain_pump _ (by decide)]
    exact i2
  have j3 : ∀ q, q ∉ [Item.isolated, Item.isolateOut] ++ pumpItems → (setPump send .off 0 none s1).item q = s.item q := fun q hq => by
    rw [show setPump send .off 0 none s1 = publishAll send pumpItems _ from rfl,
      item_publishAll_other quiet_send (s := s1.onHsc _) hn1 pumpItems plain_pump _ (fun k => hq (List.mem_append_right _ k))]
    exact item_publishAll_other quiet_send hn0 _ hpl _ (fun k => hq (List.mem_append_left _ k))
  have q1 := still_setPump quiet_send hn1 .off 0 none
  generalize setPump send .off 0 none s1 = s2 at *
  have hn2 : NoHostEntries s2 := q1.noHostEntries hn1
  have k2 : Silent (s2.onHsc fun h => { h with scaled := false }) (flowIsolated send [] s2) :=
    silent_publish quiet_send (s := s2.onHsc _) hn2 (by decide)
  have q2 : Still s2 (flowIsolated send [] s2) :=
    Still.trans (t := s2.onHsc _) ⟨rfl, rfl, rfl, rfl, rfl, rfl, rfl, rfl, rfl, rfl, rfl, fun _ => rfl⟩ k2.calm.still
  have r2 : (flowIsolated send [] s2).hsc = { s2.hsc with scaled := false } := k2.calm.hsc
  have l3 : ∀ q, q ≠ Item.scaled → (flowIsolated send [] s2).item q = s2.item q := fun q hq => by
    show (publish send (s2.onHsc _) Item.scaled).item q = _
    rw [item_publish quiet_send (s := s2.onHsc _) hn2 (by unfold Plain; decide) rfl, if_neg hq]
    rfl
  have l1 := (l3 Item.isolated (by decide)).trans j1
  have l2 := (l3 Item.isolateOut (by decide)).trans j2
  have l3 : ∀ q, q ∉ [Item.isolated, Item.isolateOut] ++ pumpItems ++ [Item.scaled] → (flowIsolated send [] s2).item q = s.item q :=
    fun q hq => by
      rw [l3 q (fun k => hq (List.mem_append_right _ (by rw [k]; exact List.mem_cons_self)))]
      exact j3 q (fun k => hq (List.mem_append_left _ k))
  generalize flowIsolated send [] s2 = s3 at *
  have hn3 : NoHostEntries s3 := q2.noHostEntries hn2
  have hpl2 : ∀ r ∈ [Item.grantsFull, Item.waitingAny] ++ machines.map Item.blocked, r ∉ builtInItems ∧ r.exists = true := by decide
  have q3 := silent_publishAll quiet_send hn3 _ (fun r hr => (hpl2 r hr).1)
  intro t
  have et : t = _ := e
  rw [et]
  have hp : s2.hsc.pump = .off ∧ s2.hsc.attempt = 0 ∧ s2.hsc.timer = none ∧ s2.hsc.pressLoss = none := by rw [p1]; exact ⟨rfl, rfl, rfl, rfl⟩
  refine ⟨((Silent.calm k1).still.trans (q1.trans (q2.trans q3.calm.still))), ?_, ?_, ?_, ?_, ?_, ?_, ?_, fun q hq => ?_⟩
  · rw [q3]; show s3.hsc.pump = _; rw [r2]; exact hp.1
  · rw [q3]; show s3.hsc.attempt = _; rw [r2]; exact hp.2.1
  · rw [q3]; show s3.hsc.timer = _; rw [r2]; exact hp.2.2.1
  · rw [q3]; show s3.hsc.pressLoss = _; rw [r2]; exact hp.2.2.2
  · rw [item_publishAll_other quiet_send hn3 _ hpl2 _ (by decide)]; exact l1
  · rw [item_publishAll_other quiet_send hn3 _ hpl2 _ (by decide)]; exact l2
  · rw [q3]; show s3.fis = _; rw [q2.fis, q1.fis, k1]; rfl
  · rw [item_publishAll_other quiet_send hn3 _ hpl2 _ (fun k => hq (List.mem_append_right _ k))]
    exact l3 q (fun k => hq (List.mem_append_left _ k))

theorem valid_start {go : Go} (hgo : Quiet go) {s : State} (hn : NoHostEntries s) (hv : ∀ m, s.anyValid m = false) (ms : List MachineId) :
    Silent s (ms.foldl (fun s m => publish go (go (.tryStart m) s) (Item.blocked m)) s) := by
  have key : ∀ (ms : List MachineId) (t : State), Silent s t → Silent s (ms.foldl (fun s m => publish go (go (.tryStart m) s) (Item.blocked m)) t) := by
    intro ms
    induction ms with
    | nil => exact fun t h => h
    | cons m ms ih =>
      intro t ht
      rw [List.foldl_cons]
      apply ih
      have hv' : t.anyValid m = false := by rw [anyValid_siq (by rw [ht]) m]; exact hv m
      rw [hgo.start t m hv']
      exact ht.trans (silent_publish hgo (hn.of_settings (by rw [ht])) (by cases m <;> decide))
  exact key ms s (.refl s)

theorem item_valid_start {go : Go} (hgo : Quiet go) {q : ItemRef} (hq : ∀ m, q ≠ Item.blocked m) (ms : List MachineId) : ∀ {s : State}, NoHostEntries s →
    (∀ m, s.anyValid m = false) → (ms.foldl (fun s m => publish go (go (.tryStart m) s) (Item.blocked m)) s).item q = s.item q := by
  induction ms with
  | nil => intros; rfl
  | cons m ms ih =>
    intro s hn hv
    rw [List.foldl_cons, hgo.start s m (hv m)]
    have k := silent_publish hgo hn (r := Item.blocked m) (by cases m <;> decide)
    rw [ih (hn.of_settings (by rw [k])) (fun k' => by rw [anyValid_siq (by rw [k]) k']; exact hv k')]
    rw [item_publish hgo hn (by unfold Plain; cases m <;> decide) (by cases m <;> decide), if_neg (hq m)]

end Sys2Proof.Machine
end

