-- ==== Sys2Proof/Laws/Pins.lean ====
section
/-! SUPPORT. What the hatch pins leave alone (R83, R84). -/

namespace Sys2Proof.Machine

theorem stallCheck_pin (s : State) : (stallCheck s).sfe.pinTimer = s.sfe.pinTimer := by
  unfold stallCheck
  dsimp only
  split
  · split <;> rfl
  · rfl

theorem shareCore_pin (s : State) : (shareCore s).sfe.pinTimer = s.sfe.pinTimer := by
  unfold shareCore
  rw [stallCheck_pin]
  rfl

theorem dropRun_other {m k : MachineId} (h : k ≠ m) (s : State) : (dropRun m s).chan k = s.chan k := by
  unfold dropRun
  dsimp only
  cases (s.chan m).live <;> cases m <;> cases k <;> first | rfl | exact absurd rfl h

theorem stateCore_moving_h (s : State) : (stateCore .h .moving s).chan .h = { s.chan .h with state := .moving, demand := 0, flow := 0, share := 0, applied := 0 } ∧
    (stateCore .h .moving s).sfe.pinTimer = none := by
  refine ⟨by rw [stateCore_chan, if_pos rfl]; rfl, ?_⟩
  unfold stateCore
  rw [stallCheck_pin]
  rfl

end Sys2Proof.Machine
end

