-- ==== Sys2Proof/Laws/Rode.lean ====
section
/-! SUPPORT. Pockets, HOME and the creep check (R58, R59, R67). -/

namespace Sys2Proof.Machine

theorem emptiesQueue_creep {s : State} (h : s.hsc.queue = []) : s.emptiesQueue 6 := by
  have : s.stopsRunning 6 = [] := by unfold State.stopsRunning machines; simp [State.affects, causeAffectsByTable, causeStationChannel]
  unfold State.emptiesQueue
  rw [this]; exact h

theorem creepCheck_quiet {s : State} (h : ¬ ((s.chan .w).state = .idle ∧ (s.cause 6).present = false ∧ ∃ r, s.sfe.creepRef = some r ∧
      (r + s.settings.machines.windlass.creepPockets ≤ s.sfe.rode ∨ s.sfe.rode + s.settings.machines.windlass.creepPockets ≤ r))) : creepCheck send s = s := by
  unfold creepCheck
  split
  · rename_i r h1 h2
    rw [if_neg]
    rintro ⟨h3, h4⟩
    refine h ⟨h1, h4, r, h2, ?_⟩
    unfold apart at h3
    omega
  · rfl

theorem creepCheck_report {s : State} (hp : ((s.chan .w).state = .idle ∧ (s.cause 6).present = false ∧ ∃ r, s.sfe.creepRef = some r ∧
      (r + s.settings.machines.windlass.creepPockets ≤ s.sfe.rode ∨ s.sfe.rode + s.settings.machines.windlass.creepPockets ≤ r))) :
    creepCheck send s = report send 6 true s := by
  obtain ⟨h1, h2, r, h3, h4⟩ := hp
  unfold creepCheck
  rw [h1, h3]
  dsimp only
  rw [if_pos ⟨by unfold apart; omega, h2⟩]
  rfl

theorem restartStall_eq (s : State) : restartStall s =
    { s with sfe := { s.sfe with stall := if s.sfe.stall = none then none else some s.settings.machines.windlass.stallTime } } := by
  unfold restartStall
  split
  · rename_i h; rw [if_neg (by rw [h]; exact Option.some_ne_none _)]; rfl
  · rename_i h; rw [if_pos h, ← h]

/-- A pocket edge in service. -/
theorem gyp_running (go : Go) {s : State} (hp : s.phase = .running) (b : Bool) : gypARisingEdge go b s =
    (let n := if s.pins.home then 0 else if b then s.sfe.rode - 1
        else if s.sfe.rode < s.settings.machines.windlass.rodeMax then s.sfe.rode + 1 else s.sfe.rode
     let stall := if s.sfe.stall = none then none else some s.settings.machines.windlass.stallTime
     let u := publish go { s with sfe := { s.sfe with rode := n, stall := stall } } Item.atRodeMax
     if n ≠ s.sfe.rode then creepCheck go u else u) := by
  unfold gypARisingEdge
  dsimp only
  split
  · rename_i h; rw [hp] at h; cases h
  · rename_i h; rw [hp] at h; cases h
  · rw [restartStall_eq]
    unfold nextRode
    dsimp only [State.onSfe]
    first | done | rfl

theorem gyp_init (go : Go) {s : State} (hp : s.phase = .initializing) (b : Bool) : gypARisingEdge go b s =
    { s with sfe := { s.sfe with rode := if s.pins.home then 0 else if b then s.sfe.rode - 1
        else if s.sfe.rode < s.settings.machines.windlass.rodeMax then s.sfe.rode + 1 else s.sfe.rode } } := by
  unfold gypARisingEdge
  dsimp only
  split
  · rename_i h; rw [hp] at h; cases h
  · rfl
  · rename_i h; rw [hp] at h; cases h

/-- HOME closing in service, up to the creep check. -/
theorem home_closes {s : State} (hn : NoHostEntries s) (hp : s.phase = .running) (hv : s.pins.home = false) :
    let after : State := { s with pins := { s.pins with home := true }, sfe := { s.sfe with rode := 0, rodeUnknown := false } }
    ∃ w, exec (.homeChange true) s = finish (creepCheck send w) ∧ w = { after with seu := w.seu, sto := w.sto } ∧
      w.item Item.atHome = true ∧ w.item Item.rodeUnknown = false ∧ w.item Item.atRodeMax = decide (0 = s.settings.machines.windlass.rodeMax) ∧
      w.sto = if s.sfe.rodeUnknown then { s.sto with queue := enqueueWrite .records false s.sto.queue } else s.sto := by
  intro after
  have hpl : ∀ r ∈ [Item.atHome, Item.rodeUnknown, Item.atRodeMax], r ∉ builtInItems ∧ r.exists = true := by decide
  have hna : NoHostEntries after := hn
  let w0 := publishAll send [Item.atHome, Item.rodeUnknown, Item.atRodeMax] after
  have k1 : Silent after w0 := silent_publishAll quiet_send hna _ (fun r hr => (hpl r hr).1)
  have i1 : w0.item Item.atHome = true := (item_publishAll_mem quiet_send Item.atHome _ hpl (by decide) hna (fun t ht => by rw [ht]; rfl)).trans rfl
  have i2 : w0.item Item.rodeUnknown = false := (item_publishAll_mem quiet_send Item.rodeUnknown _ hpl (by decide) hna (fun t ht => by rw [ht]; rfl)).trans rfl
  have i3 : w0.item Item.atRodeMax = decide (0 = s.settings.machines.windlass.rodeMax) :=
    (item_publishAll_mem quiet_send Item.atRodeMax _ hpl (by decide) hna (fun t ht => by rw [ht]; rfl)).trans rfl
  have e : exec (.homeChange true) s = finish (creepCheck send (if s.sfe.rodeUnknown then requestWrite send .records false w0 else w0)) := by
    show finish (homeChange send true s) = _
    unfold homeChange
    rw [if_neg (by rw [hv]; decide)]
    dsimp only
    rw [show (s.onPins fun p => { p with home := true }).phase = .running from hp]
    rfl
  rw [e]
  clear_value w0
  have hn0 : NoHostEntries w0 := hna.of_settings (by rw [k1])
  refine ⟨_, rfl, ?_⟩
  split
  · let w1 := w0.onSto fun t => { t with queue := enqueueWrite .records false t.queue }
    have k2 : Silent w1 (publish send w1 Item.storeBusy) := silent_publish quiet_send (s := w1) hn0 (by decide)
    have j : ∀ q, q ≠ Item.storeBusy → (publish send w1 Item.storeBusy).item q = w0.item q := fun q hq => by
      rw [item_publish quiet_send (s := w1) hn0 (by unfold Plain; decide) rfl, if_neg hq]; rfl
    have er : requestWrite send .records false w0 = publish send w1 Item.storeBusy := rfl
    rw [er]
    refine ⟨?_, (j _ (by decide)).trans i1, (j _ (by decide)).trans i2, (j _ (by decide)).trans i3, ?_⟩
    · generalize publish send w1 Item.storeBusy = x at *
      rw [k2]
      show ({ w1 with seu := x.seu } : State) = { after with seu := x.seu, sto := w1.sto }
      show ({ w0 with sto := { w0.sto with queue := enqueueWrite .records false w0.sto.queue }, seu := x.seu } : State) = { after with seu := x.seu, sto := { w0.sto with queue := enqueueWrite .records false w0.sto.queue } }
      rw [k1]
    · rw [k2]; show ({ w0.sto with queue := enqueueWrite .records false w0.sto.queue } : Sto) = _; rw [k1]
  · refine ⟨?_, i1, i2, i3, by rw [k1]⟩
    rw [k1]

theorem report_finish_events {s u : State} {c : Nat} (hu : Undisturbed s) (hc : c < 16)
    (rest : (s.cause c).active = false ∧ (s.cause c).present = false ∧ ((s.causeSetting c).trip = false ∨ s.fis.trip.isSome = true) ∧ s.emptiesQueue c)
    (hs : Calm u s) :
    ∃ t, finish (report send c true s) = .next t ∧ Raised c u t ∧ (t.cause c).present = true ∧ t.seu = (report send c true s).seu := by
  obtain ⟨r1, r2, r3, r4⟩ := rest
  obtain ⟨k1, k2, -⟩ := raised_report hu hc r2 r1 r3 r4
  obtain ⟨t, h1, h2⟩ := finish_sto (report send c true s)
  refine ⟨t, h1, ?_, by rw [cause_sto h2]; exact k2, by rw [h2]⟩
  refine (k1.of_sto h2).of_same ?_ ?_ ?_ ?_ (fun _ _ => ?_) ?_ ?_ ?_ ?_ ?_ ?_ ?_ ?_ (OffStays.of_hsc ?_) <;> (rw [hs]) <;> rfl

end Sys2Proof.Machine
end

