-- ==== Sys2Proof/Laws/Seats.lean ====
section
/-! SUPPORT. Grants, places in the wait queue, ISOLATE, the trip record and the watches, followed through one handling: `Steady` says what
holds between any two of its operations, also while a channel is on its way out of its running state and while ISOLATE is being
asserted, and every shared operation of the supply keeps it. -/

namespace Sys2Proof.Machine

/-- How far the assertion of ISOLATE has come in a handling: not begun or done; the output asserted and nothing dropped yet; the wait
queue emptied and the channels of `left` still to be told (R53). -/
inductive Order where
  | settled | asserting | draining (left : List MachineId)

/-- The supply as it is at that point. -/
def Order.ok : Order → Hsc → Prop
  | .settled, h => h.isolate = true → h.grants = [] ∧ h.queue = [] ∧ h.pump = .off
  | .asserting, h => h.isolate = true
  | .draining l, h => h.isolate = true ∧ h.queue = [] ∧ ∀ m ∈ h.grants, m ∈ l

/-- The channels that may stand in WAITING though the queue has been emptied. -/
def Order.drops : Order → List MachineId
  | .draining l => l
  | .settled | .asserting => []

/-- Where a handling stands: whether the part serves, the channels that have handed their grant back and not yet entered their next
state, the assertion of ISOLATE, and whether a trip record has just been written. -/
structure Point where
  phase : Phase
  adrift : List MachineId
  order : Order
  tripping : Bool

/-- Between two handlings. -/
def Point.rest (x : Phase) : Point := { phase := x, adrift := [], order := .settled, tripping := false }

/-- One more channel is on its way. -/
def Point.leaving (p : Point) (m : MachineId) : Point := { p with adrift := m :: p.adrift }

/-- The channel holds the grant or the place that its state gives it, and no other. -/
def State.placed (s : State) (m : MachineId) : Prop :=
  (m ∈ s.hsc.grants ↔ (s.chan m).state.isGranted = true) ∧ (m ∈ s.hsc.queue ↔ (s.chan m).state = .waiting)

/-- The watches are current, and outside service none is armed. -/
def Watched (s : State) : Prop := WatchesCurrent s ∧ AsleepOutside s

structure Steady (p : Point) (s : State) : Prop where
  phase : s.phase = p.phase
  entries : EntriesAllowed s
  nodup : s.hsc.grants.Nodup ∧ s.hsc.queue.Nodup
  adrift : ∀ m ∈ p.adrift, (s.chan m).state = .stopping ∧ m ∉ s.hsc.grants ∧ m ∉ s.hsc.queue
  placed : ∀ m, m ∉ p.adrift →
    s.placed m ∨ (m ∈ p.order.drops ∧ (s.chan m).state = .waiting ∧ m ∉ s.hsc.grants ∧ m ∉ s.hsc.queue)
  order : p.order.ok s.hsc
  trip : s.fis.trip.isSome = true → s.hsc.isolate = true ∨ p.tripping = true
  watches : Watched s

/-- A message that may be sent at this point: no cause is reported present that affects a channel on its way. -/
def Msg.Fits (p : Point) (s : State) : Msg → Prop
  | .report c true => ∀ m, s.affects c m = true → m ∉ p.adrift
  | .report _ false | .itemChanged _ | .tryStart _ | .letGo _ => True

/-- What carries messages out keeps all this, and does nothing for an item that no allowed entry names. -/
structure Steadies (go : Go) : Prop where
  keeps : ∀ p m s, m.Fits p s → Steady p s → Steady p (go m s)
  silent : ∀ r s, EntriesAllowed s → r.followsRunning = true → go (.itemChanged r) s = s
  cascades : Cascades go

variable {go : Go} {p : Point} {s t : State}

/-! ## One update at a time -/

theorem Watched.of_same (k : Watched s) (h1 : t.seu.items = s.seu.items) (h2 : t.seu.watches = s.seu.watches) (h3 : t.phase = s.phase)
    (h4 : t.slp.inService = s.slp.inService) : Watched t := by
  unfold Watched WatchesCurrent AsleepOutside State.groupWord State.item at *
  rw [h1, h2, h3, h4]
  exact k

theorem EntriesAllowed.of_same (k : EntriesAllowed s) (h1 : t.settings.interlocks = s.settings.interlocks)
    (h2 : t.sto.interlocks = s.sto.interlocks) (h3 : t.sto.writing = s.sto.writing) : EntriesAllowed t := by
  unfold EntriesAllowed at *
  rw [h1, h2, h3]
  exact k

/-- A state with the same entries, channel states, supply and trip, and with current watches. -/
theorem Steady.of_core (k : Steady p s) (w : Watched t) (h1 : t.settings.interlocks = s.settings.interlocks := by rfl)
    (h2 : t.sto.interlocks = s.sto.interlocks := by rfl) (h3 : t.sto.writing = s.sto.writing := by rfl)
    (h4 : ∀ m, (t.chan m).state = (s.chan m).state := by intro _; rfl) (h5 : t.hsc.grants = s.hsc.grants := by rfl)
    (h6 : t.hsc.queue = s.hsc.queue := by rfl) (h7 : t.hsc.isolate = s.hsc.isolate := by rfl)
    (h8 : t.hsc.pump = s.hsc.pump := by rfl) (h9 : t.fis.trip.isSome = s.fis.trip.isSome := by rfl)
    (h10 : t.phase = s.phase := by rfl) : Steady p t := by
  refine ⟨h10.trans k.phase, k.entries.of_same h1 h2 h3, by rw [h5, h6]; exact k.nodup, fun m hm => ?_, fun m hm => ?_, ?_, ?_, w⟩
  · rw [h4, h5, h6]; exact k.adrift m hm
  · unfold State.placed; rw [h4, h5, h6]; exact k.placed m hm
  · have ho : ∀ o : Order, o.ok s.hsc → o.ok t.hsc := fun o ho => by
      cases o <;> simp only [Order.ok] at ho ⊢ <;> simp only [h5, h6, h7, h8] <;> exact ho
    exact ho _ k.order
  · rw [h9, h7]; exact k.trip

/-- A state with the same entries, channel states, supply, trip, items and watches. -/
theorem Steady.of_same (k : Steady p s) (h1 : t.settings.interlocks = s.settings.interlocks := by rfl)
    (h2 : t.sto.interlocks = s.sto.interlocks := by rfl) (h3 : t.sto.writing = s.sto.writing := by rfl)
    (h4 : ∀ m, (t.chan m).state = (s.chan m).state := by intro _; rfl) (h5 : t.hsc.grants = s.hsc.grants := by rfl)
    (h6 : t.hsc.queue = s.hsc.queue := by rfl) (h7 : t.hsc.isolate = s.hsc.isolate := by rfl)
    (h8 : t.hsc.pump = s.hsc.pump := by rfl) (h9 : t.fis.trip.isSome = s.fis.trip.isSome := by rfl)
    (h10 : t.phase = s.phase := by rfl) (h11 : t.seu.items = s.seu.items := by rfl)
    (h12 : t.seu.watches = s.seu.watches := by rfl) (h13 : t.slp.inService = s.slp.inService := by rfl) : Steady p t :=
  k.of_core (k.watches.of_same h11 h12 h10 h13) h1 h2 h3 h4 h5 h6 h7 h8 h9 h10

theorem steady_foldl {α : Type} {f : State → α → State} (xs : List α) (hf : ∀ s x, x ∈ xs → Steady p s → Steady p (f s x))
    (k : Steady p s) : Steady p (xs.foldl f s) := by
  induction xs generalizing s with
  | nil => exact k
  | cons x xs ih => exact ih (fun s y hy => hf s y (List.mem_cons_of_mem _ hy)) (hf s x List.mem_cons_self k)

theorem steady_ite {q : Prop} [Decidable q] (hs : q → Steady p s) (ht : ¬ q → Steady p t) : Steady p (if q then s else t) := by
  split
  · exact hs ‹_›
  · exact ht ‹_›

/-- A new record of a channel in the same state. -/
theorem Steady.setChan_same (k : Steady p s) (m : MachineId) (c : Channel) (h : c.state = (s.chan m).state) : Steady p (setChan m c s) :=
  k.of_same (h4 := fun j => by
    rw [setChan_chan]
    split
    · rename_i hj; rw [← hj]; exact h
    · rfl)

/-! ## Watches, items, store requests -/

/-- The watch holds the combined value of its items. -/
def WatchOk (s : State) (i : Nat) : Prop :=
  ∀ v, (peek s.seu.watches i).last = some v →
    v = combined (peek s.seu.watches i).combine (peek s.seu.watches i).items (s.groupWord (peek s.seu.watches i).group)

theorem evalWatch_eq (g : Group) (s : State) (i : Nat) : evalWatch g s i = { s with seu := (evalWatch g s i).seu } := by
  unfold evalWatch
  dsimp only
  repeat' split
  all_goals rfl

theorem evalWatch_items (g : Group) (s : State) (i : Nat) : (evalWatch g s i).seu.items = s.seu.items := by
  unfold evalWatch
  dsimp only
  repeat' split
  all_goals rfl

/-- Evaluating a watch makes it current when it is of the group, and leaves its group, items and rule, and every other watch. -/
theorem evalWatch_spec (g : Group) (s : State) (i j : Nat) (hj : j < 8) :
    peek (evalWatch g s i).seu.watches j = { peek s.seu.watches j with last := (peek (evalWatch g s i).seu.watches j).last } ∧
      (WatchOk s j ∨ (j = i ∧ (peek s.seu.watches j).group = g) → WatchOk (evalWatch g s i) j) ∧
      ((peek s.seu.watches j).last = none → (peek (evalWatch g s i).seu.watches j).last = none) := by
  have hw : ∀ u : State, u.seu.items = s.seu.items → ∀ g, u.groupWord g = s.groupWord g := fun u hu g => by
    unfold State.groupWord State.item; rw [hu]
  cases hl : (peek s.seu.watches i).last with
  | none =>
    have e : evalWatch g s i = s := by unfold evalWatch; dsimp only; rw [hl]
    rw [e]
    refine ⟨rfl, fun h => h.elim id fun ⟨h1, _⟩ => ?_, id⟩
    subst h1
    intro v hv; rw [hl] at hv; cases hv
  | some old =>
    by_cases hg : (peek s.seu.watches i).group = g
    · by_cases hn : combined (peek s.seu.watches i).combine (peek s.seu.watches i).items (s.groupWord g) = old
      · have e : evalWatch g s i = s := by unfold evalWatch; dsimp only; rw [hl]; dsimp only; rw [if_pos hg, if_pos hn]
        rw [e]
        refine ⟨rfl, fun h => h.elim id fun ⟨h1, _⟩ => ?_, id⟩
        subst h1
        intro v hv
        rw [hl] at hv
        injection hv with hv
        rw [hg, hn, hv]
      · have e : (evalWatch g s i).seu.watches = poke s.seu.watches i
            { peek s.seu.watches i with last := some (combined (peek s.seu.watches i).combine (peek s.seu.watches i).items (s.groupWord g)) } := by
          unfold evalWatch; dsimp only; rw [hl]; dsimp only; rw [if_pos hg, if_neg hn]
          split <;> rfl
        rw [e, peek_poke]
        split
        · rename_i hij
          obtain ⟨rfl, _⟩ := hij
          refine ⟨rfl, fun _ v hv => ?_, fun h => by rw [hl] at h; cases h⟩
          rw [e, peek_poke, if_pos ⟨rfl, hj⟩] at hv ⊢
          rw [hw _ (evalWatch_items g s i)]
          injection hv with hv
          rw [← hv]
          show _ = combined _ _ (s.groupWord (peek s.seu.watches i).group)
          rw [hg]
        · rename_i hij
          refine ⟨rfl, fun h => h.elim (fun h v hv => ?_) fun ⟨h1, _⟩ => absurd ⟨h1.symm, h1 ▸ hj⟩ hij, id⟩
          rw [e, peek_poke, if_neg hij] at hv ⊢
          rw [hw _ (evalWatch_items g s i)]
          exact h v hv
    · have e : evalWatch g s i = s := by unfold evalWatch; dsimp only; rw [hl]; dsimp only; rw [if_neg hg]
      rw [e]
      exact ⟨rfl, fun h => h.elim id fun ⟨h1, h2⟩ => absurd (h1 ▸ h2) hg, id⟩

theorem evalWatches_spec (g : Group) (s : State) : evalWatches g s = { s with seu := (evalWatches g s).seu } ∧
    (evalWatches g s).seu.items = s.seu.items ∧
    ((∀ j, j < 8 → WatchOk s j ∨ (peek s.seu.watches j).group = g) → WatchesCurrent (evalWatches g s)) ∧
    (AsleepOutside s → AsleepOutside (evalWatches g s)) := by
  have key : ∀ (xs : List Nat) (s : State), xs.foldl (evalWatch g) s = { s with seu := (xs.foldl (evalWatch g) s).seu } ∧
      (xs.foldl (evalWatch g) s).seu.items = s.seu.items ∧ ∀ j, j < 8 →
        (WatchOk s j ∨ (j ∈ xs ∧ (peek s.seu.watches j).group = g) → WatchOk (xs.foldl (evalWatch g) s) j) ∧
        ((peek s.seu.watches j).last = none → (peek (xs.foldl (evalWatch g) s).seu.watches j).last = none) := by
    intro xs
    induction xs with
    | nil => exact fun s => ⟨rfl, rfl, fun j _ => ⟨fun h => h.elim id (fun h => absurd h.1 List.not_mem_nil), id⟩⟩
    | cons i xs ih =>
      intro s
      rw [List.foldl_cons]
      obtain ⟨a, b, c⟩ := ih (evalWatch g s i)
      refine ⟨?_, b.trans (evalWatch_items g s i), fun j hj => ⟨fun h => (c j hj).1 ?_, fun h =>
        (c j hj).2 ((evalWatch_spec g s i j hj).2.2 h)⟩⟩
      · rw [a, evalWatch_eq g s i]
      · obtain ⟨d, e, _⟩ := evalWatch_spec g s i j hj
        rcases h with h | ⟨h, hg⟩
        · exact .inl (e (.inl h))
        · rcases List.mem_cons.mp h with h | h
          · exact .inl (e (.inr ⟨h, hg⟩))
          · exact .inr ⟨h, by rw [d]; exact hg⟩
  obtain ⟨a, b, c⟩ := key (List.range 8) s
  unfold evalWatches
  generalize (List.range 8).foldl (evalWatch g) s = u at a b c ⊢
  have a1 : u.phase = s.phase := by rw [a]
  have a2 : u.slp = s.slp := by rw [a]
  refine ⟨a, b, fun h j hj => (c j hj).1 ((h j hj).imp id fun k => ⟨List.mem_range.mpr hj, k⟩), fun h hp => ?_⟩
  rw [a1] at hp
  exact ⟨by rw [a2]; exact (h hp).1, fun j hj => (c j hj).2 ((h hp).2 j hj)⟩

/-- An item's new value with its watches evaluated: the watches stay current (R164, R168). -/
theorem watches_setItem (k : Watched s) (r : ItemRef) (hr : r.exists = true) (v : Bool) :
    Watched (evalWatches r.group (s.onSeu fun u => { u with items := poke u.items r.index v })) := by
  refine ⟨(evalWatches_spec _ _).2.2.1 fun j hj => ?_, (evalWatches_spec _ _).2.2.2 k.2⟩
  by_cases hg : (peek s.seu.watches j).group = r.group
  · exact .inr hg
  · refine .inl fun w hw => ?_
    have e : (s.onSeu fun u => { u with items := poke u.items r.index v }).groupWord (peek s.seu.watches j).group =
        s.groupWord (peek s.seu.watches j).group := by
      unfold State.groupWord
      congr 1
      funext n
      unfold State.item
      cases hx : (⟨(peek s.seu.watches j).group, n⟩ : ItemRef).exists with
      | false => rfl
      | true =>
        rw [Bool.true_and, Bool.true_and]
        show peek (poke s.seu.items r.index v) _ = _
        rw [peek_poke, if_neg]
        rintro ⟨h, _⟩
        have := index_inj hr hx h
        exact hg (by rw [this])
    show w = combined _ _ (State.groupWord _ (peek s.seu.watches j).group)
    rw [e]
    exact k.1 j hj w hw

theorem Steady.setItem (hgo : Steadies go) (k : Steady p s) (r : ItemRef) (v : Bool) : Steady p (setItem go r v s) := by
  unfold Machine.setItem
  split
  · exact k
  · rename_i h
    have hr : r.exists = true := by simpa using fun h' => h (.inr h')
    refine hgo.keeps _ _ _ trivial ?_
    have w := watches_setItem k.watches r hr v
    have e := (evalWatches_spec r.group (s.onSeu fun u => { u with items := poke u.items r.index v })).1
    generalize evalWatches r.group (s.onSeu fun u => { u with items := poke u.items r.index v }) = u at e w ⊢
    rw [e] at w ⊢
    exact k.of_core w

theorem Steady.publish (hgo : Steadies go) (k : Steady p s) (r : ItemRef) : Steady p (publish go s r) := k.setItem hgo r _

theorem Steady.publishAll (hgo : Steadies go) (k : Steady p s) (rs : List ItemRef) : Steady p (publishAll go rs s) :=
  steady_foldl _ (fun _ r _ h => h.publish hgo r) k

/-- Items that no allowed entry names change with their watches alone (R121). -/
theorem publishAll_silent (hgo : Steadies go) (rs : List ItemRef) (hr : ∀ r ∈ rs, r.followsRunning = true) (he : EntriesAllowed s) :
    publishAll go rs s = { s with seu := (publishAll go rs s).seu } ∧ (Watched s → Watched (publishAll go rs s)) := by
  induction rs generalizing s with
  | nil => exact ⟨rfl, id⟩
  | cons r rs ih =>
    have one : publish go s r = { s with seu := (publish go s r).seu } ∧ (Watched s → Watched (publish go s r)) := by
      unfold Machine.publish Machine.setItem
      split
      · exact ⟨rfl, id⟩
      · rename_i h
        have hx : r.exists = true := by simpa using fun h' => h (.inr h')
        have e := (evalWatches_spec r.group (s.onSeu fun u => { u with items := poke u.items r.index (s.itemNow r) })).1
        have w := fun w : Watched s => watches_setItem w r hx (s.itemNow r)
        generalize evalWatches r.group (s.onSeu fun u => { u with items := poke u.items r.index (s.itemNow r) }) = u at e w ⊢
        rw [hgo.silent _ u (by rw [e]; exact he) (hr r List.mem_cons_self)]
        exact ⟨e, w⟩
    have e : publishAll go (r :: rs) s = publishAll go rs (publish go s r) := rfl
    rw [e]
    obtain ⟨a, b⟩ := ih (s := publish go s r) (fun q hq => hr q (List.mem_cons_of_mem _ hq)) (by rw [one.1]; exact he)
    exact ⟨by rw [a, one.1], fun w => b (one.2 w)⟩

theorem Steady.queueEvent (k : Steady p s) (e : EventKind) : Steady p (queueEvent e s) := k.of_same

theorem Steady.requestWrite (hgo : Steadies go) (k : Steady p s) (x : SectionName) (mark : Bool) : Steady p (requestWrite go x mark s) :=
  Steady.publish hgo (s := s.onSto _) k.of_same _

/-! ## Displays, lists and pages -/

theorem Steady.setDisplay (k : Steady p s) (m : MachineId) (d : DisplayRec) : Steady p (setDisplay m d s) := k.of_same

theorem Steady.judgeOverlay (k : Steady p s) (m : MachineId) : Steady p (judgeOverlay m s) := by
  unfold Machine.judgeOverlay
  exact steady_ite (fun _ => k) fun _ => k.setDisplay _ _

theorem Steady.continueRamp (k : Steady p s) (m : MachineId) : Steady p (continueRamp m s) := by
  unfold Machine.continueRamp enterShowing
  dsimp only
  repeat' split
  all_goals first | exact k | exact k.setDisplay _ _

theorem Steady.refreshDisplay (k : Steady p s) (m : MachineId) : Steady p (refreshDisplay m s) := by
  unfold Machine.refreshDisplay
  refine Steady.judgeOverlay ?_ m
  split
  · exact k
  · exact k.continueRamp m
  · exact k.setDisplay _ _

theorem Steady.activate (k : Steady p s) (m : MachineId) : Steady p (activate m s) := by
  unfold Machine.activate
  split
  · exact ((k.setDisplay _ _).continueRamp m).judgeOverlay m
  · exact k
  · exact steady_ite (fun _ => k.setDisplay _ _) fun _ => k

theorem Steady.displayFollows (k : Steady p s) (old : ChanState) (m : MachineId) : Steady p (displayFollows old m s) := by
  unfold Machine.displayFollows
  dsimp only
  refine Steady.judgeOverlay ?_ m
  repeat' split
  all_goals first | exact k | exact k.setDisplay _ _

theorem Steady.cutPage (k : Steady p s) (f : Nat → Bool) : Steady p (cutPage f s) := by
  unfold Machine.cutPage
  split
  · exact k
  · rename_i q _
    dsimp only
    have k1 := steady_foldl (f := fun s z => if (peek q.playing z && f z && (s.zone z).voice == .page) = true then
      setZone z (s.zone z).silenced s else s) zoneIndexes (fun u z _ h => steady_ite (fun _ => h.of_same) fun _ => h) k
    generalize List.foldl _ _ zoneIndexes = u at k1 ⊢
    exact k1.of_same

theorem Steady.endPageIfDone (hgo : Steadies go) (k : Steady p s) : Steady p (endPageIfDone go s) := by
  unfold Machine.endPageIfDone
  split
  · exact k
  · exact steady_ite (fun _ => k) fun _ => Steady.publish hgo (s := State.onZae _ _) k.of_same _

theorem Steady.reconsiderLists (hgo : Steadies go) (k : Steady p s) : Steady p (reconsiderLists go s) := by
  unfold Machine.reconsiderLists
  exact (((steady_foldl zoneIndexes (f := fun s z => setZone z (s.withList (s.reconsidered z) (s.zone z)) s)
    (fun u z _ h => h.of_same) k).cutPage _).publishAll hgo _).endPageIfDone hgo

theorem Steady.cancelPageNow (hgo : Steadies go) (k : Steady p s) : Steady p (cancelPageNow go s) :=
  (k.cutPage _).endPageIfDone hgo

/-! ## Channels -/

theorem Steady.stallCheck (k : Steady p s) : Steady p (stallCheck s) := by
  rw [stallCheck_eq]
  exact k.of_same

/-- A channel that takes the state `st`, with all that follows it (R4, R144). -/
theorem Steady.changeFrom (hgo : Steadies go) (old : ChanState) (m : MachineId) (st : ChanState)
    (k : Steady p (setChan m ((s.chan m).inState st) s)) : Steady p (changeFrom go old m st s) := by
  unfold Machine.changeFrom
  dsimp only
  refine Steady.publishAll hgo (Steady.displayFollows (Steady.stallCheck ?_) _ _) _
  cases m
  · exact k.of_same
  · exact k
  · exact k.of_same

theorem Steady.enter (hgo : Steadies go) (m : MachineId) (st : ChanState) (k : Steady p (setChan m ((s.chan m).inState st) s)) :
    Steady p (enter go m st s) := by
  unfold Machine.enter
  dsimp only
  exact steady_ite (fun _ => k.changeFrom hgo _ m st) fun _ => (k.changeFrom hgo _ m st).reconsiderLists hgo

theorem follows_channelItems (m : MachineId) : ∀ r ∈ channelItems m, r.followsRunning = true := by
  cases m <;> decide

/-- A channel that stays granted, or ungranted, takes its state and nothing acts on it meanwhile (R121). -/
theorem enter_state (hgo : Steadies go) (m : MachineId) (st : ChanState) (he : EntriesAllowed s)
    (hg : (s.chan m).state.isGranted = st.isGranted) : ((enter go m st s).chan m).state = st := by
  unfold Machine.enter
  dsimp only
  rw [if_pos hg]
  unfold changeState Machine.changeFrom
  dsimp only
  have hc : (stallCheck (followState m st (setChan m ((s.chan m).inState st) s))).mc = (setChan m ((s.chan m).inState st) s).mc ∧
      EntriesAllowed (stallCheck (followState m st (setChan m ((s.chan m).inState st) s))) := by
    rw [stallCheck_eq]
    cases m <;> exact ⟨rfl, he⟩
  generalize stallCheck (followState m st (setChan m ((s.chan m).inState st) s)) = v at hc
  have hm := calm_displayFollows (s.chan m).state m v
  have hs : EntriesAllowed (displayFollows (s.chan m).state m v) := by
    unfold displayFollows judgeOverlay
    dsimp only
    repeat' split
    all_goals exact hc.2
  have hq := (publishAll_silent hgo (channelItems m) (follows_channelItems m) hs).1
  generalize displayFollows (s.chan m).state m v = w at hm hs hq ⊢
  generalize publishAll go (channelItems m) w = x at hq ⊢
  have e : x.chan m = (setChan m ((s.chan m).inState st) s).chan m := by
    unfold State.chan at hc ⊢
    rw [hq]
    show w.mc.get m = _
    rw [hm.mc, hc.1]
  rw [e, setChan_chan_same, inState_eq]

/-- A channel that takes another state with the same right to a grant and to a place in the queue. -/
theorem Steady.goes (k : Steady p s) {m : MachineId} (ha : m ∉ p.adrift) {st : ChanState} (hw : (s.chan m).state ≠ .waiting)
    (hst : st ≠ .waiting) (hg : st.isGranted = (s.chan m).state.isGranted) : Steady p (setChan m ((s.chan m).inState st) s) := by
  refine ⟨k.phase, k.entries, k.nodup, fun j hj => ?_, fun j hj => ?_, k.order, k.trip, k.watches⟩
  · rw [setChan_chan, if_neg fun e : m = j => ha (e ▸ hj)]; exact k.adrift j hj
  · unfold State.placed
    rw [setChan_chan]
    split
    · rename_i e
      subst e
      refine .inl ?_
      rcases k.placed m ha with h | ⟨_, h, _⟩
      · rw [inState_eq, hg]
        exact ⟨h.1, h.2.trans ⟨fun h => absurd h hw, fun h => absurd h hst⟩⟩
      · exact absurd h hw
    · exact k.placed j hj

theorem Steady.notAdrift (k : Steady p s) {m : MachineId} (h : (s.chan m).state ≠ .stopping) : m ∉ p.adrift :=
  fun hm => h (k.adrift m hm).1

/-- A channel that may take any granted state: it holds a grant, or has just been given one. -/
def Seat (p : Point) (m : MachineId) (s : State) : Prop :=
  ∀ st : ChanState, st.isGranted = true → Steady p (setChan m ((s.chan m).inState st) s)

theorem Steady.seat (k : Steady p s) {m : MachineId} (ha : m ∉ p.adrift) (hg : (s.chan m).state.isGranted = true) : Seat p m s :=
  fun st hst => k.goes ha (fun h => by rw [h] at hg; cases hg) (fun h => by rw [h] at hst; cases hst) (hst.trans hg.symm)

theorem Seat.entries {m : MachineId} (k : Seat p m s) : EntriesAllowed s := (k .moving rfl).entries

theorem Seat.publishAll (hgo : Steadies go) {m : MachineId} (k : Seat p m s) (rs : List ItemRef) (hr : ∀ r ∈ rs, r.followsRunning = true) :
    Seat p m (publishAll go rs s) := by
  intro st hst
  obtain ⟨a, b⟩ := publishAll_silent hgo rs hr k.entries
  have w := b (k .moving rfl).watches
  rw [a] at w ⊢
  exact (k st hst).of_core w

/-! ## Flow sharing and the pump -/

theorem shared_state (s : State) (m : MachineId) : (s.shared m).state = (s.chan m).state := by
  unfold State.shared; dsimp only; split <;> rfl

theorem Steady.recompute (hgo : Steadies go) (k : Steady p s) : Steady p (recompute go s) := by
  unfold Machine.recompute
  refine Steady.publish hgo (Steady.stallCheck ?_) _
  exact k.of_same (h4 := fun m => by cases m <;> exact shared_state s _)

/-- The pump may leave OFF: ISOLATE is released, or not yet past its first step. -/
def Free (p : Point) (s : State) : Prop := p.order = .settled → s.hsc.isolate = false

theorem Steady.free (k : Steady p s) (h : s.hsc.pump ≠ .off) : Free p s := fun ho => by
  have := k.order
  rw [ho] at this
  cases hi : s.hsc.isolate
  · rfl
  · exact absurd (this hi).2.2 h

theorem Order.ok_pump {o : Order} {h k : Hsc} (ho : o.ok h) (hk : k.pump = .off ∨ (o = .settled → h.isolate = false))
    (h1 : k.grants = h.grants) (h2 : k.queue = h.queue) (h3 : k.isolate = h.isolate) : o.ok k := by
  cases o <;> simp only [Order.ok, h1, h2, h3] at *
  · intro hi
    refine ⟨(ho hi).1, (ho hi).2.1, hk.resolve_right fun f => ?_⟩
    rw [f trivial] at hi
    cases hi
  · exact ho
  · exact ho

theorem follows_pumpItems : ∀ r ∈ pumpItems, r.followsRunning = true := by decide

theorem Steady.pumpTakes (k : Steady p s) (f : Hsc → Hsc) (hf : (f s.hsc).pump = .off ∨ Free p s)
    (h1 : (f s.hsc).grants = s.hsc.grants) (h2 : (f s.hsc).queue = s.hsc.queue) (h3 : (f s.hsc).isolate = s.hsc.isolate) :
    Steady p (s.onHsc f) :=
  ⟨k.phase, k.entries, by simp only [State.onHsc_hsc, h1, h2]; exact k.nodup, fun m hm => by simp only [State.onHsc_hsc, h1, h2]; exact k.adrift m hm,
    fun m hm => by unfold State.placed; simp only [State.onHsc_hsc, h1, h2]; exact k.placed m hm, Order.ok_pump k.order hf h1 h2 h3,
    by rw [State.onHsc_hsc, h3]; exact k.trip, k.watches⟩

theorem Steady.setPump (hgo : Steadies go) (k : Steady p s) (q : PumpState) (n : Nat) (t : Timer) (h : q = .off ∨ Free p s) :
    Steady p (setPump go q n t s) :=
  Steady.publishAll hgo (k.pumpTakes _ h rfl rfl rfl) _

theorem Seat.setPump (hgo : Steadies go) {m : MachineId} (k : Seat p m s) (q : PumpState) (n : Nat) (t : Timer) (h : Free p s) :
    Seat p m (setPump go q n t s) :=
  Seat.publishAll hgo (s := s.onHsc _)
    (fun st hst => Steady.pumpTakes (s := setChan m ((s.chan m).inState st) s) (k st hst)
      (fun h => { h with pump := q, attempt := n, timer := t, pressLoss := if q.confirmed then h.pressLoss else none })
      (.inr h) rfl rfl rfl) _ follows_pumpItems

theorem Steady.pumpAfterRelease (hgo : Steadies go) (k : Steady p s) : Steady p (pumpAfterRelease go s) := by
  unfold Machine.pumpAfterRelease
  split
  · split
    · exact k.setPump hgo _ _ _ (.inl rfl)
    · exact k.setPump hgo _ _ _ (.inl rfl)
    · rename_i h
      exact steady_ite (fun _ => k.setPump hgo _ _ _ (.inl rfl)) fun _ => k.setPump hgo _ _ _ (.inr (k.free (by rw [h]; decide)))
    · exact k
    · exact k
  · exact k

/-! ## Where a granted channel goes -/

theorem affects_pins {m : MachineId} (h : s.affects causePins m = true) : m = .h := by
  revert h
  cases m <;> (show causeAffectsByTable causePins _ = true → _) <;> decide

theorem Steady.enterMoving (hgo : Steadies go) {m : MachineId} (ha : m ∉ p.adrift) (k : Seat p m s) : Steady p (enterMoving go m s) := by
  unfold Machine.enterMoving
  dsimp only
  have k1 := ((k .moving rfl).enter hgo).recompute hgo
  refine steady_ite (fun h => ?_) fun _ => k1
  refine hgo.keeps _ _ _ trivial (hgo.keeps _ _ _ (fun j hj => ?_) k1)
  rw [affects_pins hj, ← h.1]; exact ha

theorem Steady.routeGranted (hgo : Steadies go) {m : MachineId} (ha : m ∉ p.adrift) (k : Seat p m s) : Steady p (routeGranted go m s) := by
  unfold Machine.routeGranted
  exact steady_ite (fun _ => steady_ite (fun _ => ((k .unlocking rfl).enter hgo).recompute hgo) fun _ => Steady.enterMoving hgo ha k)
    fun _ => (k .priming rfl).enter hgo

theorem Steady.confirmPump (hgo : Steadies go) (k : Steady p s) (hf : Free p s) : Steady p (confirmPump go s) := by
  unfold Machine.confirmPump
  dsimp only
  refine Steady.recompute hgo (steady_foldl _ (fun u m _ h => steady_ite (fun hp => ?_) fun _ => h) (k.setPump hgo _ _ _ (.inr hf)))
  have ha := h.notAdrift (m := m) (by rw [hp]; decide)
  exact Steady.routeGranted hgo ha (h.seat ha (by rw [hp]; rfl))

theorem Steady.judgeAttempt (hgo : Steadies go) (k : Steady p s) : Steady p (judgeAttempt go s) :=
  steady_ite (fun h => k.confirmPump hgo (k.free (by rw [h.1]; decide))) fun _ => k

theorem Steady.beginAttempt (hgo : Steadies go) (k : Steady p s) (n : Nat) (hf : Free p s) : Steady p (beginAttempt go n s) :=
  (k.setPump hgo _ _ _ (.inr hf)).judgeAttempt hgo

/-- The state with new places for the channel `m` alone. -/
theorem Steady.reseat (k : Steady p s) {m : MachineId} (ha : m ∉ p.adrift) (c : Channel) (f : Hsc → Hsc)
    (hn : (f s.hsc).grants.Nodup ∧ (f s.hsc).queue.Nodup)
    (hg : ∀ j, j ≠ m → (j ∈ (f s.hsc).grants ↔ j ∈ s.hsc.grants)) (hq : ∀ j, j ≠ m → (j ∈ (f s.hsc).queue ↔ j ∈ s.hsc.queue))
    (hm : (m ∈ (f s.hsc).grants ↔ c.state.isGranted = true) ∧ (m ∈ (f s.hsc).queue ↔ c.state = .waiting))
    (ho : p.order.ok (f s.hsc)) (hi : (f s.hsc).isolate = s.hsc.isolate) : Steady p (setChan m c (s.onHsc f)) := by
  refine ⟨k.phase, k.entries, hn, fun j hj => ?_, fun j hj => ?_, ho, ?_, k.watches⟩
  · have hjm : j ≠ m := fun e => ha (e ▸ hj)
    rw [setChan_chan, if_neg (Ne.symm hjm)]
    exact ⟨(k.adrift j hj).1, fun h => (k.adrift j hj).2.1 ((hg j hjm).mp h), fun h => (k.adrift j hj).2.2 ((hq j hjm).mp h)⟩
  · by_cases e : m = j
    · subst e
      refine .inl ?_
      unfold State.placed
      rw [setChan_chan_same]
      exact hm
    · unfold State.placed
      rw [setChan_chan, if_neg e]
      have hg' := hg j (Ne.symm e); have hq' := hq j (Ne.symm e)
      refine (k.placed j hj).imp (fun h => ⟨hg'.trans h.1, hq'.trans h.2⟩) fun h => ⟨h.1, h.2.1, fun x => h.2.2.1 (hg'.mp x), fun x => h.2.2.2 (hq'.mp x)⟩
  · show s.fis.trip.isSome = true → (f s.hsc).isolate = true ∨ _
    rw [hi]; exact k.trip

theorem setChan_setChan (m : MachineId) (c d : Channel) (s : State) : setChan m c (setChan m d s) = setChan m c s := by cases m <;> rfl

/-- A slot given to a channel that holds neither grant nor place (R42, R46, R49). -/
theorem Steady.giveGrant (hgo : Steadies go) {m : MachineId} (ha : m ∉ p.adrift) (k : Steady p (setChan m ((s.chan m).inState .idle) s))
    (ho : p.order = .settled ∧ s.hsc.isolate = false ∨ p.order = .asserting) : Steady p (giveGrant go m s) := by
  have hno : m ∉ s.hsc.grants ∧ m ∉ s.hsc.queue := by
    rcases k.placed m ha with h | ⟨_, h, _⟩
    · unfold State.placed at h
      rw [setChan_chan_same] at h
      exact ⟨fun x => Bool.noConfusion (h.1.mp x), fun x => ChanState.noConfusion (h.2.mp x)⟩
    · rw [setChan_chan_same] at h; cases h
  have hf : ∀ u : State, u.hsc.isolate = s.hsc.isolate → Free p u := fun u hu h => by
    rcases ho with ho | ho
    · rw [hu]; exact ho.2
    · rw [ho] at h; cases h
  have seat : Seat p m (s.onHsc fun h => { h with grants := h.grants ++ [m] }) := fun st hst => by
    have hnw : st ≠ .waiting := fun h => by rw [h] at hst; cases hst
    have := k.reseat ha ((s.chan m).inState st) (fun h => { h with grants := h.grants ++ [m] })
      ⟨List.nodup_append.mpr ⟨k.nodup.1, by simp, fun a h b h2 => by
        simp only [List.mem_singleton] at h2; subst h2; exact fun e => hno.1 (e ▸ h)⟩, k.nodup.2⟩
      (fun j hj => by simp [hj]) (fun j _ => Iff.rfl)
      ⟨by simp [inState_eq, hst], ⟨fun h => absurd h hno.2, fun h => by rw [inState_eq] at h; exact absurd h hnw⟩⟩ ?_ rfl
    · have e : (setChan m ((s.chan m).inState .idle) s).onHsc (fun h => { h with grants := h.grants ++ [m] }) =
          setChan m ((s.chan m).inState .idle) (s.onHsc fun h => { h with grants := h.grants ++ [m] }) := rfl
      rw [e, setChan_setChan] at this
      exact this
    · have ok := k.order
      rcases ho with ho | ho
      · rw [ho.1]; intro hi; exact absurd (hi.symm.trans ho.2) (by decide)
      · rw [ho] at ok ⊢; exact ok
  have k1 := Seat.publishAll hgo seat [Item.grantsFull] (by decide)
  have hi := (publishAll_silent hgo [Item.grantsFull] (by decide) seat.entries).1
  unfold Machine.giveGrant
  dsimp only
  rw [show Machine.publish go (s.onHsc fun h => { h with grants := h.grants ++ [m] }) Item.grantsFull =
    Machine.publishAll go [Item.grantsFull] (s.onHsc fun h => { h with grants := h.grants ++ [m] }) from rfl]
  generalize Machine.publishAll go [Item.grantsFull] (s.onHsc fun h => { h with grants := h.grants ++ [m] }) = u at k1 hi ⊢
  have hi : u.hsc.isolate = s.hsc.isolate := by rw [hi]; rfl
  refine Steady.recompute hgo ?_
  split
  · exact (((k1.setPump hgo _ _ _ (hf u hi)) .priming rfl).enter hgo).judgeAttempt hgo
  · exact Steady.routeGranted hgo ha (k1.setPump hgo _ _ _ (hf u hi))
  all_goals exact Steady.routeGranted hgo ha k1

/-- A channel that asks for a grant out of IDLE (R49). -/
theorem Steady.requestGrant (hgo : Steadies go) {m : MachineId} (k : Steady p s) (hs : (s.chan m).state = .idle) (hi : s.hsc.isolate = false) :
    Steady p (requestGrant go m s) := by
  have ha := k.notAdrift (m := m) (by rw [hs]; decide)
  have ho : p.order = .settled := by
    have := k.order
    cases h : p.order with
    | settled => rfl
    | asserting => rw [h] at this; exact absurd (this.symm.trans hi) (by decide)
    | draining l => rw [h] at this; exact absurd (this.1.symm.trans hi) (by decide)
  have hno : m ∉ s.hsc.grants ∧ m ∉ s.hsc.queue := by
    rcases k.placed m ha with h | ⟨_, h, _⟩
    · exact ⟨fun x => absurd (h.1.mp x) (by rw [hs]; decide), fun x => absurd (h.2.mp x) (by rw [hs]; decide)⟩
    · rw [hs] at h; cases h
  unfold Machine.requestGrant
  refine steady_ite (fun _ => Steady.giveGrant hgo ha (k.goes ha (by rw [hs]; decide) (by decide) (by rw [hs])) (.inl ⟨ho, hi⟩)) fun _ => ?_
  refine Steady.publish hgo (Steady.enter hgo m .waiting (s := s.onHsc _) ?_) _
  refine k.reseat ha _ _ ⟨k.nodup.1, List.nodup_append.mpr ⟨k.nodup.2, by simp, fun a h b h2 => by
    simp only [List.mem_singleton] at h2; subst h2; exact fun e => hno.2 (e ▸ h)⟩⟩ (fun _ _ => Iff.rfl) (fun j hj => by simp [hj])
    ⟨⟨fun h => absurd h hno.1, fun h => by rw [inState_eq] at h; cases h⟩, by simp [inState_eq]⟩ ?_ rfl
  rw [ho]
  exact fun h => absurd (h.symm.trans hi) (by decide)

/-- A free slot goes to the head of the wait queue (R50). -/
theorem Steady.handOver (hgo : Steadies go) (k : Steady p s) : Steady p (handOver go s) := by
  unfold Machine.handOver
  split
  · exact k
  · rename_i m rest hq
    refine steady_ite (fun _ => Steady.publish hgo ?_ _) fun _ => k
    have hmem : m ∈ s.hsc.queue := by rw [hq]; exact List.mem_cons_self
    have ha : m ∉ p.adrift := fun h => (k.adrift m h).2.2 hmem
    have hpl : s.placed m := (k.placed m ha).resolve_right fun h => h.2.2.2 hmem
    have hs : (s.chan m).state = .waiting := hpl.2.mp hmem
    have hng : m ∉ s.hsc.grants := fun h => absurd (hpl.1.mp h) (by rw [hs]; decide)
    have hnd := k.nodup.2
    rw [hq, List.nodup_cons] at hnd
    have hord := k.order
    have ho : p.order = .settled ∧ s.hsc.isolate = false ∨ p.order = .asserting := by
      cases h : p.order <;> simp only [h] at hord
      · refine .inl ⟨rfl, ?_⟩
        cases hi : s.hsc.isolate
        · rfl
        · have := (hord hi).2.1; rw [hq] at this; cases this
      · exact .inr rfl
      · have := hord.2.1; rw [hq] at this; cases this
    refine Steady.giveGrant hgo ha ?_ ho
    refine k.reseat ha _ _ ⟨k.nodup.1, hnd.2⟩ (fun _ _ => Iff.rfl) (fun j hj => by rw [hq]; simp [hj])
      ⟨⟨fun h => absurd h hng, fun h => by rw [inState_eq] at h; cases h⟩, ⟨fun h => absurd h hnd.1, fun h => by rw [inState_eq] at h; cases h⟩⟩ ?_ rfl
    rcases ho with ho | ho
    · rw [ho.1]; exact fun h => absurd (h.symm.trans ho.2) (by decide)
    · rw [ho] at hord ⊢; exact hord

theorem Steady.afterRelease (hgo : Steadies go) (k : Steady p s) (hand : Handing) : Steady p (afterRelease go hand s) := by
  cases hand
  · exact (((k.handOver hgo).pumpAfterRelease hgo).publishAll hgo _).recompute hgo
  · exact ((k.pumpAfterRelease hgo).publishAll hgo _).recompute hgo
  · exact k

/-! ## The end of a run -/

theorem handBack_chan (m j : MachineId) (s : State) : ((handBack m s).chan j).state = if m = j then .stopping else (s.chan j).state := by
  unfold handBack dropRun
  dsimp only
  rw [setChan_chan]
  split
  · rfl
  · rename_i h
    split <;> rw [setChan_chan, if_neg h] <;> rfl

/-- A channel that hands back its grant or its place is on its way (R16, R50). -/
theorem Steady.handBack (k : Steady p s) {m : MachineId} (o : Order)
    (ho : o.ok { s.hsc with grants := s.hsc.grants.erase m, queue := s.hsc.queue.erase m })
    (hd : ∀ j, j ≠ m → j ∈ p.order.drops → j ∈ o.drops) : Steady { p with adrift := m :: p.adrift, order := o } (handBack m s) := by
  have e := handBack_eq m s
  have hg : (Machine.handBack m s).hsc.grants = s.hsc.grants.erase m := by rw [e]
  have hq : (Machine.handBack m s).hsc.queue = s.hsc.queue.erase m := by rw [e]
  refine ⟨by rw [e]; exact k.phase, by rw [e]; exact k.entries, by rw [hg, hq]; exact ⟨k.nodup.1.erase m, k.nodup.2.erase m⟩, fun j hj => ?_, fun j hj => ?_,
    by rw [e]; exact ho, by rw [e]; exact k.trip, by rw [e]; exact k.watches⟩
  · rw [handBack_chan, hg, hq, k.nodup.1.mem_erase_iff, k.nodup.2.mem_erase_iff]
    by_cases h : m = j
    · rw [if_pos h]; exact ⟨rfl, fun x => x.1 h.symm, fun x => x.1 h.symm⟩
    · rw [if_neg h]
      have := k.adrift j ((List.mem_cons.mp hj).resolve_left (Ne.symm h))
      exact ⟨this.1, fun x => this.2.1 x.2, fun x => this.2.2 x.2⟩
  · have hjm : j ≠ m := fun x => hj (x ▸ List.mem_cons_self)
    have hja : j ∉ p.adrift := fun x => hj (List.mem_cons_of_mem _ x)
    unfold State.placed
    rw [handBack_chan, if_neg (Ne.symm hjm), hg, hq, k.nodup.1.mem_erase_iff, k.nodup.2.mem_erase_iff]
    simp only [ne_eq, hjm, not_false_eq_true, true_and]
    exact (k.placed j hja).imp id fun h => ⟨hd j hjm h.1, h.2⟩

theorem Steady.handsBack (k : Steady p s) (m : MachineId) : Steady (p.leaving m) (Machine.handBack m s) := by
  have key : ∀ o : Order, o.ok s.hsc → o.ok { s.hsc with grants := s.hsc.grants.erase m, queue := s.hsc.queue.erase m } := fun o ho => by
    cases o
    · intro hi
      obtain ⟨h1, h2, h3⟩ := ho hi
      simp only [h1, h2]
      exact ⟨rfl, rfl, h3⟩
    · exact ho
    · refine ⟨ho.1, ?_, fun j hj => ho.2.2 j (List.mem_of_mem_erase hj)⟩
      show s.hsc.queue.erase m = []
      rw [ho.2.1]; rfl
  exact k.handBack p.order (key _ k.order) fun _ _ h => h

/-- A channel on its way takes IDLE or HELD. -/
theorem Steady.lands {m : MachineId} (k : Steady (p.leaving m) s) (ha : m ∉ p.adrift) {st : ChanState} (hg : st.isGranted = false)
    (hw : st ≠ .waiting) : Steady p (setChan m ((s.chan m).inState st) s) := by
  obtain ⟨_, k2, k3⟩ := k.adrift m List.mem_cons_self
  refine ⟨k.phase, k.entries, k.nodup, fun j hj => ?_, fun j hj => ?_, k.order, k.trip, k.watches⟩
  · rw [setChan_chan, if_neg fun e : m = j => ha (e ▸ hj)]; exact k.adrift j (List.mem_cons_of_mem _ hj)
  · unfold State.placed
    rw [setChan_chan]
    split
    · rename_i e
      subst e
      rw [inState_eq, hg]
      exact .inl ⟨⟨fun h => absurd h k2, fun h => by cases h⟩, ⟨fun h => absurd h k3, fun h => absurd h hw⟩⟩
    · rename_i e
      exact k.placed j fun h => (List.mem_cons.mp h).elim (fun h => e h.symm) hj

theorem Steady.engageBrake (hgo : Steadies go) (k : Steady p s) (m : MachineId) : Steady p (engageBrake go m s) := by
  cases m
  · exact k.setItem hgo _ _
  · exact k
  · exact k

/-- A channel leaves its running state for IDLE or HELD (R15 to R17, R50). -/
theorem Steady.leave (hgo : Steadies go) {m : MachineId} (ha : m ∉ p.adrift) {st : ChanState} (hg : st.isGranted = false) (hw : st ≠ .waiting)
    (hand : Handing) (k : Steady (p.leaving m) (Machine.handBack m s)) : Steady p (leave go m st hand s) := by
  have event : ∀ (o : Option RunRec) (pos : Nat) {t : State}, Steady p t → Steady p (match o with
      | some r => Machine.queueEvent (runEnded m r pos) t
      | none => t) := fun o pos t ht => by
    cases o
    · exact ht
    · exact ht.queueEvent _
  have k1 := (((k.engageBrake hgo m).afterRelease hgo hand).lands ha hg hw).changeFrom hgo (s.chan m).state m st
  unfold Machine.leave
  dsimp only
  refine steady_ite (fun _ => hgo.keeps _ _ _ trivial ?_) fun _ => ?_
  all_goals
    refine steady_ite (fun _ => Steady.requestWrite hgo ?_ _ _) fun _ => ?_
    all_goals exact steady_ite (fun _ => (event _ _ k1).reconsiderLists hgo) fun _ => event _ _ k1

theorem Steady.noteReason (k : Steady p s) (m : MachineId) (x : EndReason) : Steady p (noteReason m x s) := by
  unfold Machine.noteReason
  dsimp only
  split
  · exact k.setChan_same m _ rfl
  · exact k

theorem Steady.forceReason (k : Steady p s) (m : MachineId) (x : EndReason) (c : Option Nat) : Steady p (forceReason m x c s) := by
  unfold Machine.forceReason
  dsimp only
  split
  · exact k.setChan_same m _ rfl
  · exact k

theorem noteReason_state (m : MachineId) (x : EndReason) (s : State) : ((noteReason m x s).chan m).state = (s.chan m).state := by
  unfold noteReason
  dsimp only
  split
  · rw [setChan_chan_same]
  · rfl

theorem forceReason_state (m : MachineId) (x : EndReason) (c : Option Nat) (s : State) :
    ((forceReason m x c s).chan m).state = (s.chan m).state := by
  unfold forceReason
  dsimp only
  split
  · rw [setChan_chan_same]
  · rfl

theorem Steady.stopComplete (hgo : Steadies go) (k : Steady p s) {m : MachineId} (ha : m ∉ p.adrift) (hs : (s.chan m).state = .stopping) :
    Steady p (stopComplete go m s) := by
  unfold Machine.stopComplete
  exact steady_ite (fun _ => ((k.seat ha (by rw [hs]; rfl) .locking rfl).enter hgo).recompute hgo)
    fun _ => Steady.leave hgo ha rfl (by decide) _ (k.handsBack m)

theorem Steady.endRun (hgo : Steadies go) (k : Steady p s) (m : MachineId) (x : EndReason) : Steady p (endRun go m x s) := by
  have out : (s.chan m).state ≠ .stopping → Steady p (Machine.leave go m .idle .now (Machine.noteReason m x s)) := fun h =>
    Steady.leave hgo (k.notAdrift h) rfl (by decide) _ ((k.noteReason m x).handsBack m)
  unfold Machine.endRun
  split
  · rename_i h; exact out (by rw [h]; decide)
  · rename_i h; exact out (by rw [h]; decide)
  · rename_i h; exact out (by rw [h]; decide)
  · rename_i h
    dsimp only
    have ha := k.notAdrift (m := m) (by rw [h]; decide)
    have hs : ((Machine.noteReason m x s).chan m).state = .moving := (noteReason_state m x s).trans h
    have k1 := ((k.noteReason m x).seat ha (by rw [hs]; rfl) .stopping rfl).enter hgo
    exact steady_ite (fun _ => k1.stopComplete hgo ha (enter_state hgo m .stopping (k.noteReason m x).entries (by rw [hs]; rfl)))
      fun _ => k1.recompute hgo
  all_goals exact k

end Sys2Proof.Machine
end

