-- ==== Sys2Proof/Laws/SeatFaults.lean ====
section
/-! SUPPORT. Holding channels, ISOLATE, the trip, causes, starts and interlocks keep grants, places, ISOLATE, trip and watches together, and
so does a delivered message. -/

namespace Sys2Proof.Machine

variable {go : Go} {p : Point} {s t : State}

/-! ## Inhibiting and holding -/

theorem Steady.setInput (k : Steady p s) (i : HoldInput) (x : HoldRec) : Steady p (setInput i x s) := k.of_same

theorem Steady.inhibit (hgo : Steadies go) (k : Steady p s) (m : MachineId) : Steady p (inhibit go m s) := by
  rw [inhibit_eq]
  exact hgo.keeps _ _ _ trivial (Steady.publishAll hgo ((k.setInput _ _).setInput _ _) _)

theorem Steady.hold (hgo : Steadies go) (k : Steady p s) {m : MachineId} (ha : m ∉ p.adrift) (c : Nat) (hand : Handing) :
    Steady p (hold go m c hand s) := by
  have out : Steady p (Machine.inhibit go m (Machine.leave go m .held hand (Machine.forceReason m .fault (some c) s))) :=
    (Steady.leave hgo ha rfl (by decide) hand ((k.forceReason m _ _).handsBack m)).inhibit hgo m
  unfold Machine.hold
  split
  · exact k
  · exact k
  · rename_i h
    exact ((k.goes ha (by rw [h]; decide) (by decide) (by rw [h]; rfl)).enter hgo).inhibit hgo m
  all_goals exact out

theorem Steady.releaseHeld (hgo : Steadies go) (k : Steady p s) : Steady p (releaseHeld go s) := by
  refine steady_foldl _ (fun u m _ h => steady_ite (fun hh => hgo.keeps _ _ _ trivial ?_) fun _ => h) k
  exact (h.goes (h.notAdrift (by rw [hh.1]; decide)) (by rw [hh.1]; decide) (by decide) (by rw [hh.1]; rfl)).enter hgo

/-! ## ISOLATE and the trip -/

/-- One channel is told that ISOLATE has taken its grant or its place (R18, R53). -/
theorem Steady.isolateChannel (hgo : Steadies go) {m : MachineId} {l : List MachineId} (ho : p.order = .draining (m :: l))
    (ha : m ∉ p.adrift) (k : Steady p s) : Steady { p with order := .draining l } (isolateChannel go s m) := by
  have hok := k.order
  rw [ho] at hok
  obtain ⟨h1, h2, h3⟩ := hok
  have ok : (Order.draining l).ok { s.hsc with grants := s.hsc.grants.erase m, queue := s.hsc.queue.erase m } := by
    refine ⟨h1, ?_, fun j hj => ?_⟩
    · show s.hsc.queue.erase m = []
      rw [h2]; rfl
    · have hj := (k.nodup.1.mem_erase_iff).mp hj
      exact (List.mem_cons.mp (h3 j hj.2)).resolve_left hj.1
  have dr : ∀ j, j ≠ m → j ∈ p.order.drops → j ∈ (Order.draining l).drops := fun j hj h => by
    rw [ho] at h
    exact (List.mem_cons.mp h).resolve_left hj
  unfold Machine.isolateChannel
  split
  · have k1 := k.forceReason m .isolated none
    refine Steady.leave hgo (p := { p with order := .draining l }) ha rfl (by decide) .never (k1.handBack (.draining l) ?_ dr)
    have e : (Machine.forceReason m .isolated none s).hsc = s.hsc := by
      unfold Machine.forceReason; dsimp only; split <;> rfl
    rw [e]; exact ok
  · rename_i hr
    have hpl : s.placed m := by
      rcases k.placed m ha with h | ⟨_, h, _⟩
      · exact h
      · rw [h] at hr; exact absurd rfl hr
    have hng : m ∉ s.hsc.grants := fun h => by
      have := hpl.1.mp h
      exact absurd this (by cases hs : (s.chan m).state <;> rw [hs] at hr <;> first | decide | exact absurd rfl hr)
    have hnq : m ∉ s.hsc.queue := fun h => by
      have := hpl.2.mp h
      rw [this] at hr; exact hr rfl
    have hch : ∀ j, ((dropRun m s).chan j).state = (s.chan j).state := fun j => by
      unfold dropRun
      dsimp only
      split <;> rw [setChan_chan] <;> split <;> first | (rename_i h; rw [h]) | rfl
    have e := dropRun_eq m s
    have hg : (dropRun m s).hsc.grants = s.hsc.grants := by rw [e]; exact List.erase_of_not_mem hng
    have hq : (dropRun m s).hsc.queue = s.hsc.queue := by rw [e]; exact List.erase_of_not_mem hnq
    refine ⟨by rw [e]; exact k.phase, by rw [e]; exact k.entries, by rw [hg, hq]; exact k.nodup, fun j hj => by rw [hch, hg, hq]; exact k.adrift j hj, fun j hj => ?_,
      by rw [e]; exact ok, by rw [e]; exact k.trip, by rw [e]; exact k.watches⟩
    unfold State.placed
    rw [hch, hg, hq]
    by_cases hjm : j = m
    · rw [hjm]; exact .inl hpl
    · exact (k.placed j hj).imp id fun h => ⟨dr j hjm h.1, h.2⟩

theorem steady_isolateAll (hgo : Steadies go) (l : List MachineId) (hl : ∀ m ∈ l, m ∉ p.adrift) :
    ∀ {s : State}, Steady { p with order := .draining l } s → Steady { p with order := .draining [] } (l.foldl (Machine.isolateChannel go) s) := by
  induction l with
  | nil => exact id
  | cons m l ih =>
    intro s k
    exact ih (fun j hj => hl j (List.mem_cons_of_mem _ hj)) (Steady.isolateChannel hgo (p := { p with order := .draining (m :: l) }) rfl
      (hl m List.mem_cons_self) k)

theorem Steady.flowIsolated (hgo : Steadies go) (k : Steady p s) (l : List MachineId) : Steady p (flowIsolated go l s) :=
  steady_ite (fun _ => Steady.publish hgo (s := s.onHsc _) k.of_same _) fun _ => k.recompute hgo

/-- ISOLATE asserted: nothing granted, nobody waiting, the pump OFF (R53); a trip record is covered from here on (R114). -/
theorem Steady.assertIsolate (hgo : Steadies go) (k : Steady p s) (ho : p.order = .settled) (b : Bool) :
    Steady { p with tripping := b } (assertIsolate go s) := by
  have k1 : Steady { p with order := .asserting, tripping := b } (s.onHsc fun h => { h with isolate := true }) :=
    ⟨k.phase, k.entries, k.nodup, k.adrift, fun m hm => (k.placed m hm).imp id fun h => absurd h.1 (by rw [ho]; exact List.not_mem_nil), rfl,
      fun _ => .inl rfl, k.watches⟩
  have k2 := k1.publishAll hgo [Item.isolated, Item.isolateOut]
  unfold Machine.assertIsolate
  dsimp only
  generalize Machine.publishAll go [Item.isolated, Item.isolateOut] (s.onHsc fun h => { h with isolate := true }) = u at k2 ⊢
  generalize hn : machines.filter (fun m => u.hsc.grants.contains m || u.hsc.queue.contains m) = named
  have mem : ∀ m, m ∈ named ↔ m ∈ u.hsc.grants ∨ m ∈ u.hsc.queue := fun m => by
    rw [← hn, List.mem_filter]
    have : m ∈ machines := by cases m <;> decide
    simp [this]
  have hl : ∀ m ∈ named, m ∉ p.adrift := fun m hm h => by
    have := k2.adrift m h
    exact ((mem m).mp hm).elim this.2.1 this.2.2
  have k3 : Steady { p with order := .draining named, tripping := b } (u.onHsc fun h => { h with queue := [] }) := by
    refine ⟨k2.phase, k2.entries, ⟨k2.nodup.1, List.nodup_nil⟩, fun m hm => ⟨(k2.adrift m hm).1, (k2.adrift m hm).2.1, List.not_mem_nil⟩,
      fun m hm => ?_, ⟨k2.order, rfl, fun m hm => (mem m).mpr (.inl hm)⟩, k2.trip, k2.watches⟩
    have h : u.placed m := (k2.placed m hm).resolve_right fun h => by cases h.1
    by_cases hw : (u.chan m).state = .waiting
    · refine .inr ⟨(mem m).mpr (.inr (h.2.mpr hw)), hw, fun x => ?_, List.not_mem_nil⟩
      have := h.1.mp x
      rw [hw] at this; cases this
    · exact .inl ⟨h.1, ⟨fun x => absurd x List.not_mem_nil, fun x => absurd x hw⟩⟩
  have k4 := steady_isolateAll hgo (p := { p with tripping := b }) named hl k3
  generalize named.foldl (Machine.isolateChannel go) _ = v at k4 ⊢
  have k5 : Steady { p with tripping := b } (Machine.setPump go .off 0 none v) := by
    obtain ⟨h1, h2, h3⟩ := k4.order
    have hg : v.hsc.grants = [] := List.eq_nil_iff_forall_not_mem.mpr fun m hm => absurd (h3 m hm) List.not_mem_nil
    refine Steady.publishAll hgo (s := v.onHsc _) ?_ _
    refine ⟨k4.phase, k4.entries, k4.nodup, k4.adrift, fun m hm => (k4.placed m hm).imp id fun h => absurd h.1 List.not_mem_nil, ?_, k4.trip, k4.watches⟩
    show p.order.ok _
    rw [ho]
    exact fun _ => ⟨hg, h2, rfl⟩
  exact (k5.flowIsolated hgo _).publishAll hgo _

/-- A new trip record asserts ISOLATE (R113, R114). -/
theorem Steady.takeTrip (hgo : Steadies go) (k : Steady p s) (c : Nat) : Steady p (takeTrip go c s) := by
  unfold Machine.takeTrip
  split
  · exact k
  · dsimp only
    let r : TripRec := { cause := c, time := s.now, rode := s.sfe.rode, restored := false }
    have k1 : Steady { p with tripping := true } (s.onFis fun f => { f with trip := some r }) :=
      ⟨k.phase, k.entries, k.nodup, k.adrift, k.placed, k.order, fun _ => .inr rfl, k.watches⟩
    have k2 := k1.publish hgo Item.tripRecorded
    have k3 := (cascade_publish hgo.cascades Item.tripRecorded (Cascade.refl (s.onFis fun f => { f with trip := some r }))).trip rfl
    rw [reconsiderIsolate_of_trip k3]
    generalize Machine.publish go (s.onFis fun f => { f with trip := some r }) Item.tripRecorded = u at k2 k3
    split
    · rename_i hi
      exact ⟨k2.phase, k2.entries, k2.nodup, k2.adrift, k2.placed, k2.order, fun _ => .inl hi, k2.watches⟩
    · rename_i hi
      have ho : p.order = .settled := by
        have := k2.order
        cases h : p.order with
        | settled => rfl
        | asserting => simp only [h] at this; exact absurd this hi
        | draining l => simp only [h] at this; exact absurd this.1 hi
      exact k2.assertIsolate hgo ho p.tripping

/-! ## Causes -/

theorem Steady.setCause (k : Steady p s) (c : Nat) (x : CauseRec) : Steady p (setCause c x s) := k.of_same

theorem Steady.raise (hgo : Steadies go) (k : Steady p s) {c : Nat} (hf : ∀ m, s.affects c m = true → m ∉ p.adrift) :
    Steady p (raise go c s) := by
  have hn : ∀ m ∈ machines.filter (s.affectedSet c).get, m ∉ p.adrift := fun m hm => by
    refine hf m ?_
    have := (List.mem_filter.mp hm).2
    cases m <;> exact this
  have k1 := steady_foldl (machines.filter (s.affectedSet c).get) (f := fun s m => Machine.hold go m c .later s)
    (fun u m hm h => h.hold hgo (hn m hm) c .later) (k.setCause c { s.cause c with active := true, raisedAt := some s.now })
  have k2 := (k1.publish hgo (Item.cause c)).queueEvent (.faultRaised c (s.affectedSet c) (s.causeSetting c).trip)
  have k3 := steady_ite (q := c = causeLinkLost) (fun _ => k2.cancelPageNow hgo) fun _ => k2
  have k4 := steady_foldl (machines.filter (s.affectedSet c).get) (f := fun s m => Machine.activate m s) (fun u m _ h => h.activate m) k3
  have k5 := steady_ite (q := (s.causeSetting c).cls = .latched) (fun _ => k4.requestWrite hgo .records false) fun _ => k4
  have k6 := steady_ite (q := (s.causeSetting c).trip = true) (fun _ => k5.takeTrip hgo c) fun _ => k5
  exact steady_ite (fun _ => k6) fun _ => (k6.handOver hgo).afterRelease hgo _

theorem Steady.clearCause (hgo : Steadies go) (k : Steady p s) (c : Nat) (means : ClearMeans) : Steady p (clearCause go c means s) := by
  have k1 := ((k.setCause c { s.cause c with active := false, raisedAt := none }).publish hgo (Item.cause c)).queueEvent (.faultCleared c means)
  exact (steady_ite (q := (s.causeSetting c).cls = .latched) (fun _ => k1.requestWrite hgo .records false) fun _ => k1).releaseHeld hgo

theorem Steady.trySelfClear (hgo : Steadies go) (k : Steady p s) (c : Nat) : Steady p (trySelfClear go c s) :=
  steady_ite (fun _ => k.clearCause hgo c _) fun _ => k

theorem Steady.report (hgo : Steadies go) (k : Steady p s) (c : Nat) (b : Bool) (hf : b = true → ∀ m, s.affects c m = true → m ∉ p.adrift) :
    Steady p (report go c b s) := by
  unfold Machine.report
  dsimp only
  split
  · rename_i hb
    exact steady_ite (fun _ => k) fun _ => steady_ite (fun _ => k.setCause _ _) fun _ => (k.setCause _ _).raise hgo (hf hb)
  · exact (k.setCause _ _).trySelfClear hgo c

theorem Steady.letGo (hgo : Steadies go) (k : Steady p s) (m : MachineId) : Steady p (letGo go m s) :=
  steady_foldl _ (fun _ c _ h => steady_ite (fun _ => h.trySelfClear hgo c) fun _ => h) k

/-! ## Runs -/

theorem Steady.createRun (hgo : Steadies go) (k : Steady p s) {m : MachineId} (o : Origin) (d : Direction) (t : Option Nat)
    (hs : (s.chan m).state = .idle) (hi : s.hsc.isolate = false) : Steady p (createRun go m o d t s) := by
  have k1 := k.setChan_same m ((s.chan m).withRun o d t s.settings.machines.refreshTime) rfl
  obtain ⟨e, w⟩ := publishAll_silent hgo [Item.dirOut m] (by intro r hr; rw [List.mem_singleton.mp hr]; cases m <;> rfl) k1.entries
  unfold Machine.createRun
  dsimp only
  rw [show Machine.publish go (setChan m ((s.chan m).withRun o d t s.settings.machines.refreshTime) s) (Item.dirOut m) =
    Machine.publishAll go [Item.dirOut m] (setChan m ((s.chan m).withRun o d t s.settings.machines.refreshTime) s) from rfl]
  have w := w k1.watches
  generalize Machine.publishAll go [Item.dirOut m] (setChan m ((s.chan m).withRun o d t s.settings.machines.refreshTime) s) = u at e w ⊢
  have k2 : Steady p u := by rw [e] at w ⊢; exact k1.of_core w
  have hs2 : (u.chan m).state = .idle := by
    rw [e]
    show ((setChan m _ s).chan m).state = _
    rw [setChan_chan_same]; exact hs
  have hi2 : u.hsc.isolate = false := by rw [e]; exact hi
  have k3 := k2.requestGrant hgo hs2 hi2
  refine Steady.activate (Steady.refreshDisplay ?_ m) m
  cases m
  · exact (k3.report hgo causeCreep false (fun h => by cases h)).requestWrite hgo _ _
  · exact k3
  · exact k3

theorem Steady.takeConflict (hgo : Steadies go) (k : Steady p s) (m : MachineId) : Steady p (takeConflict go m s) :=
  (((k.inhibit hgo m).setChan_same m _ (by rfl)).publish hgo _).endRun hgo m _

theorem startCheck_free {m : MachineId} {d : Direction} (h : s.startCheck m d = .passes) : s.hsc.isolate = false := by
  unfold State.startCheck at h
  dsimp only at h
  repeat' split at h
  all_goals (cases hi : s.hsc.isolate with | false => rfl | true => contradiction)

theorem Steady.tryStart (hgo : Steadies go) (k : Steady p s) (m : MachineId) : Steady p (tryStart go m s) := by
  unfold Machine.tryStart
  split
  · rename_i hs
    split
    · exact k.takeConflict hgo m
    · exact steady_ite (fun h => k.createRun hgo _ _ _ hs (startCheck_free h)) fun _ => k
    · exact steady_ite (fun h => k.createRun hgo _ _ _ hs (startCheck_free h)) fun _ => k
    · exact k
  · exact k

theorem Steady.becameValid (hgo : Steadies go) (k : Steady p s) (i : HoldInput) : Steady p (becameValid go i s) :=
  steady_ite (fun _ => k) fun _ => steady_ite (fun _ => k.takeConflict hgo _) fun _ =>
    steady_ite (fun _ => k.endRun hgo _ _) fun _ => k.tryStart hgo _

theorem Steady.pressEnded (hgo : Steadies go) (k : Steady p s) (i : HoldInput) : Steady p (pressEnded go i s) := by
  unfold Machine.pressEnded
  split
  · exact steady_ite (fun _ => k.endRun hgo _ _) fun _ => k
  · exact k

theorem Steady.enteredReleased (hgo : Steadies go) (k : Steady p s) (i : HoldInput) : Steady p (enteredReleased go i s) :=
  (steady_ite (fun _ => (k.setChan_same _ _ (by rfl)).publish hgo _) fun _ => k).letGo hgo _

/-! ## Interlocks and messages -/

theorem Steady.reevaluate (hgo : Steadies go) (k : Steady p s) (es : List InterlockEntry) : Steady p (reevaluate go es s) :=
  Steady.publishAll hgo (steady_foldl _ (fun _ _ _ h => steady_ite (fun _ => h.tryStart hgo _) fun _ => h)
    (steady_foldl _ (fun _ _ _ h => steady_ite (fun _ => h.endRun hgo _ _) fun _ => h) k)) _

theorem Steady.react (hgo : Steadies go) (k : Steady p s) (r : ItemRef) : Steady p (react go r s) := by
  unfold Machine.react
  split
  · exact k
  · exact k.reevaluate hgo _

/-- No entry names an item that follows the running of the machines (R121). -/
theorem react_silent (he : EntriesAllowed s) {r : ItemRef} (hr : r.followsRunning = true) : react go r s = s := by
  have : (s.entries.filter fun e => e.item == r) = [] := by
    rw [List.filter_eq_nil_iff]
    intro e hm hx
    have hx : e.item = r := by simpa using hx
    obtain ⟨i, hi, h⟩ := List.mem_filterMap.mp hm
    have hi : i < 24 := List.mem_range.mp hi
    unfold State.entry at h
    split at h
    · have : ∀ i, i < 3 → ∀ e, builtInEntry i = some e → e.item.followsRunning = false := by
        intro i hi e h
        match i, hi with
        | 0, _ => injection h with h; rw [← h]; decide
        | 1, _ => injection h with h; rw [← h]; decide
        | 2, _ => injection h with h; rw [← h]; decide
      have := this i (by assumption) e h
      rw [hx, hr] at this; cases this
    · have := (he.1 (i - builtInEntries) (by unfold builtInEntries at *; omega) e h).2.1
      rw [hx, hr] at this; cases this
  unfold react
  rw [this]

theorem steadies_handle (hgo : Steadies go) : Steadies (handle go) where
  keeps := fun p m s hm k => by
    cases m with
    | itemChanged r => exact k.react hgo r
    | tryStart m => exact k.tryStart hgo m
    | report c b => exact k.report hgo c b fun hb => by subst hb; exact hm
    | letGo m => exact k.letGo hgo m
  silent := fun r s he hr => react_silent he hr
  cascades := cascades_handle hgo.cascades

theorem steadies_deliver (n : Nat) : Steadies (deliver n) := by
  induction n with
  | zero => exact ⟨fun _ _ _ _ k => k, fun _ _ _ _ => rfl, fun _ s _ => .refl s⟩
  | succ n ih => exact steadies_handle ih

/-- The messages of a handling keep grants, places, ISOLATE, trip and watches together. -/
theorem steadies_send : Steadies send := steadies_deliver cascadeDepth

end Sys2Proof.Machine
end

