-- ==== Sys2Proof/Laws/Trips.lean ====
section
/-! SUPPORT. A cause that takes a new trip: ISOLATE asserted while channels run, and the raise as a whole (R18, R53, R106, R113). -/

namespace Sys2Proof.Machine

variable {go : Go}

/-- What ending the runs of the machines `ms` by ISOLATE leaves (R18, R53). -/
structure Isolating (ms : List MachineId) (s t : State) : Prop where
  phase : t.phase = s.phase
  now : t.now = s.now
  pins : t.pins = s.pins
  settings : t.settings = s.settings
  slp : t.slp = s.slp
  siq : t.siq = s.siq
  fis : t.fis = s.fis
  rode : t.sfe.rode = s.sfe.rode
  isolate : t.hsc.isolate = s.hsc.isolate
  grants : t.hsc.grants = ms.foldl List.erase s.hsc.grants
  queue : t.hsc.queue = ms.foldl List.erase s.hsc.queue
  chan : ∀ m, t.chan m = if m ∈ ms then (s.chan m).isolated else s.chan m

theorem Isolating.nil (s : State) : Isolating [] s s :=
  ⟨rfl, rfl, rfl, rfl, rfl, rfl, rfl, rfl, rfl, rfl, rfl, fun m => by rw [if_neg (by simp)]⟩

/-- One channel more (R18). -/
theorem isolating_channel (hgo : Quiet go) {ms : List MachineId} {s t : State} (h : Isolating ms s t) (hn : NoHostEntries s)
    (hi : s.hsc.isolate = true) (m : MachineId) (hm : m ∉ ms) (hr : (s.chan m).state.isRunning = true)
    (hv : s.inputState m .outward = .valid → s.inputState m .inward ≠ .valid) : Isolating (ms ++ [m]) s (isolateChannel go t m) := by
  have hc : t.chan m = s.chan m := by rw [h.chan, if_neg hm]
  have hnt : NoHostEntries t := hn.of_settings h.settings
  have e : isolateChannel go t m = leave go m .idle .never (forceReason m .isolated none t) := by
    unfold isolateChannel; rw [hc, if_pos hr]
  rw [e, forceReason_eq]
  generalize hd : ({ t.chan m with
      live := (t.chan m).live.map fun r => { r with endReason := some .isolated, cause := none }
      refresh := if (t.chan m).live.isSome then none else (t.chan m).refresh } : Channel) = d
  let f := setChan m d t
  have h0 : NoHostEntries (handBack m f) := hnt.of_settings (by rw [handBack_eq]; rfl)
  have k0 : Still (handBack m f) (releasedAt go m .never f) := (silent_engageBrake hgo h0 m).calm.still
  have k1 := calm_leave_of hgo (s := f) m .idle .never (k0.noHostEntries h0) fun _ p hp => hgo.isolated p m (by
      rw [hp.hsc, stateCore_eq]
      show (releasedAt go m .never f).hsc.isolate = true
      rw [k0.isolate, handBack_eq]
      show t.hsc.isolate = true
      rw [h.isolate, hi]) (by
      have es : p.siq = s.siq := by
        rw [hp.siq, stateCore_eq]
        show (releasedAt go m .never f).siq = _
        rw [k0.siq, handBack_eq]
        exact h.siq
      unfold State.inputState State.input at hv ⊢
      rw [es]; exact hv)
  have k : Still (stateCore m .idle (dropRun m f)) (leave go m .idle .never f) := by
    rw [← stateCore_handBack m (by decide)]
    exact (still_stateCore k0 m (by decide)).trans k1.still
  have hchan : ∀ j, (leave go m .idle .never f).chan j = (stateCore m .idle (dropRun m f)).chan j := fun j => by
    rw [k1.chan, stateCore_chan, stateCore_chan]
    have r0 : ∀ j, (releasedAt go m .never f).chan j = (handBack m f).chan j := fun j => (silent_engageBrake hgo h0 m).calm.chan j
    rw [r0, r0]
    have := congrArg (fun s => State.chan s j) (stateCore_handBack m (st := .idle) (by decide) f)
    rw [stateCore_chan, stateCore_chan] at this
    exact this
  show Isolating (ms ++ [m]) s (leave go m .idle .never f)
  have hrest : ∀ {α : Type} (g : State → α), (∀ a b c, g { t with mc := a, hsc := b, sfe := c } = g t) → g (stateCore m .idle (dropRun m f)) = g t := by
    intro α g hg
    rw [stateCore_eq, dropRun_eq]
    exact hg _ _ _
  refine ⟨?_, ?_, ?_, ?_, ?_, ?_, ?_, ?_, ?_, ?_, ?_, fun j => ?_⟩
  · rw [k.phase, hrest State.phase fun _ _ _ => rfl]; exact h.phase
  · rw [k.now, hrest State.now fun _ _ _ => rfl]; exact h.now
  · rw [k.pins, hrest State.pins fun _ _ _ => rfl]; exact h.pins
  · rw [k.settings, hrest State.settings fun _ _ _ => rfl]; exact h.settings
  · rw [k.slp, hrest State.slp fun _ _ _ => rfl]; exact h.slp
  · rw [k.siq, hrest State.siq fun _ _ _ => rfl]; exact h.siq
  · rw [k.fis, hrest State.fis fun _ _ _ => rfl]; exact h.fis
  · rw [k.rode, (stateCore_sfe _ _ _).1, dropRun_eq]; exact h.rode
  · rw [k.isolate, stateCore_eq, dropRun_eq]; exact h.isolate
  · rw [k.grants, stateCore_eq, dropRun_eq, List.foldl_append]
    show t.hsc.grants.erase m = _
    rw [h.grants]; rfl
  · rw [k.queue, stateCore_eq, dropRun_eq, List.foldl_append]
    show t.hsc.queue.erase m = _
    rw [h.queue]; rfl
  · rw [hchan, stateCore_chan]
    by_cases hj : j = m
    · subst hj
      rw [if_pos rfl, if_pos (by simp)]
      unfold Channel.isolated
      rw [if_pos hr]
      rw [hc] at hd
      unfold dropRun
      dsimp only
      cases hl : (s.chan j).live with
      | none =>
        rw [hl] at hd
        have hdl : (f.chan j).live = none := by rw [show f.chan j = d from setChan_chan_same _ _ _, ← hd]; rfl
        rw [hdl]
        dsimp only
        rw [setChan_chan_same, show f.chan j = d from setChan_chan_same _ _ _, ← hd]
        rfl
      | some r =>
        rw [hl] at hd
        have hdl : (f.chan j).live = some { r with endReason := some .isolated, cause := none } := by
          rw [show f.chan j = d from setChan_chan_same _ _ _, ← hd]; rfl
        rw [hdl]
        dsimp only
        rw [setChan_chan_same, show f.chan j = d from setChan_chan_same _ _ _, ← hd]
        rfl
    · rw [if_neg (Ne.symm hj)]
      have e1 : (dropRun m f).chan j = t.chan j := by
        unfold dropRun
        dsimp only
        split <;> (rw [setChan_chan, if_neg (Ne.symm hj)]; show (setChan m d t).chan j = _; rw [setChan_chan, if_neg (Ne.symm hj)])
      rw [e1, h.chan]
      have : (j ∈ ms ++ [m]) = (j ∈ ms) := by simp [hj]
      simp only [this]

theorem isolating_foldl (hgo : Quiet go) {s : State} (hn : NoHostEntries s) (hi : s.hsc.isolate = true)
    (hv : ∀ m, s.inputState m .outward = .valid → s.inputState m .inward ≠ .valid) (xs : List MachineId) :
    ∀ (ms : List MachineId) (t : State), Isolating ms s t → (ms ++ xs).Nodup → (∀ m ∈ xs, (s.chan m).state.isRunning = true) →
      Isolating (ms ++ xs) s (xs.foldl (isolateChannel go) t) := by
  induction xs with
  | nil => intro ms t h _ _; rw [List.append_nil]; exact h
  | cons x xs ih =>
    intro ms t h hd hr
    rw [List.foldl_cons]
    have hx : x ∉ ms := fun k => (List.nodup_append.mp hd).2.2 x k x List.mem_cons_self rfl
    have := ih (ms ++ [x]) _ (isolating_channel hgo h hn hi x hx (hr x List.mem_cons_self) (hv x)) (by rw [List.append_assoc]; exact hd)
      fun m hm => hr m (List.mem_cons_of_mem _ hm)
    rw [List.append_assoc] at this
    exact this

theorem mem_foldl_erase {x : MachineId} (ms : List MachineId) : ∀ {g : List MachineId}, g.Nodup → (x ∈ ms.foldl List.erase g ↔ x ∈ g ∧ x ∉ ms) := by
  induction ms with
  | nil => intro g _; simp
  | cons m ms ih =>
    intro g hg
    rw [List.foldl_cons, ih (hg.erase m), hg.mem_erase_iff]
    simp only [List.mem_cons, not_or, and_assoc, and_left_comm, and_comm, ne_eq]

theorem nodup_foldl_erase (ms : List MachineId) : ∀ {g : List MachineId}, g.Nodup → (ms.foldl List.erase g).Nodup := by
  induction ms with
  | nil => exact fun h => h
  | cons m ms ih => exact fun h => ih (h.erase m)

theorem foldl_erase_empty (ms : List MachineId) {g : List MachineId} (hg : g.Nodup) (h : ∀ m ∈ g, m ∈ ms) : ms.foldl List.erase g = [] :=
  List.eq_nil_iff_forall_not_mem.mpr fun x hx => ((mem_foldl_erase ms hg).mp hx).2 (h x ((mem_foldl_erase ms hg).mp hx).1)

theorem shared_ungranted {s : State} (hg : s.hsc.grants = []) (m : MachineId) : s.shared m = { s.chan m with share := 0, applied := 0 } := by
  unfold State.shared State.draws State.granted
  rw [hg]
  rfl

/-- The running channels are those with a grant or a place in the queue. -/
def GrantsRunning (s : State) : Prop :=
  s.hsc.grants.Nodup ∧ s.hsc.queue.Nodup ∧
    ∀ m, (s.chan m).state.isRunning = (s.hsc.grants.contains m || s.hsc.queue.contains m)

theorem Seated.grantsRunning {s : State} (h : Seated s) : GrantsRunning s := by
  refine ⟨h.1, h.2.1, fun m => ?_⟩
  obtain ⟨a, b⟩ := h.2.2 m
  rw [Bool.eq_iff_iff, Bool.or_eq_true, List.contains_iff_mem, List.contains_iff_mem, a, b]
  cases (s.chan m).state <;> decide

/-- A channel that does not run has no flow share. -/
def StillDry (s : State) : Prop := ∀ m, (s.chan m).state.isRunning = false → (s.chan m).share = 0 ∧ (s.chan m).applied = 0

theorem ValvesShut.stillDry {s : State} (h : ValvesShut s) : StillDry s := fun m hm => by
  have := (h m).1 (by cases hs : (s.chan m).state <;> rw [hs] at hm <;> first | rfl | cases hm)
  exact this.2.2

/-- Flow sharing once ISOLATE has emptied the grant list: recomputed when it held a grant, else left as it was (R51). -/
theorem flowIsolated_calm {s : State} (hn : NoHostEntries s) (l : List MachineId) :
    let t := flowIsolated send l s
    NoHostEntries t ∧ Still s t ∧ (t.hsc.pump = s.hsc.pump ∧ t.hsc.attempt = s.hsc.attempt ∧ t.hsc.timer = s.hsc.timer ∧
      t.hsc.pressLoss = s.hsc.pressLoss) ∧ ∀ m, t.chan m = if l = [] then s.chan m else s.shared m := by
  cases l with
  | nil =>
    have k := (silent_publish quiet_send (s := s.onHsc fun h => { h with scaled := false }) hn (r := Item.scaled) (by decide)).calm
    have st : Still s (flowIsolated send [] s) :=
      Still.trans (t := s.onHsc _) ⟨rfl, rfl, rfl, rfl, rfl, rfl, rfl, rfl, rfl, rfl, rfl, fun _ => rfl⟩ k.still
    have hh : (flowIsolated send [] s).hsc = { s.hsc with scaled := false } := k.hsc
    exact ⟨st.noHostEntries hn, st, by rw [hh]; exact ⟨rfl, rfl, rfl, rfl⟩, fun m => by rw [if_pos rfl]; exact k.chan m⟩
  | cons a l =>
    have k := calm_recompute quiet_send hn
    have st : Still s (recompute send s) := (still_shareCore s).trans k.still
    refine ⟨st.noHostEntries hn, st, ?_, fun m => ?_⟩
    · show (recompute send s).hsc.pump = _ ∧ (recompute send s).hsc.attempt = _ ∧ (recompute send s).hsc.timer = _ ∧
        (recompute send s).hsc.pressLoss = _
      rw [k.hsc, shareCore_eq]
      exact ⟨rfl, rfl, rfl, rfl⟩
    · rw [if_neg (by simp)]
      show (recompute send s).chan m = _
      rw [k.chan, shareCore_chan]

/-- What ISOLATE asserted leaves (R53). -/
structure IsolateAsserted (s t : State) : Prop where
  kept : t.phase = s.phase ∧ t.now = s.now ∧ t.pins = s.pins ∧ t.settings = s.settings ∧ t.slp = s.slp ∧ t.siq = s.siq ∧ t.fis = s.fis ∧
    t.sfe.rode = s.sfe.rode
  supply : t.hsc.grants = [] ∧ t.hsc.queue = [] ∧ t.hsc.pump = .off ∧ t.hsc.attempt = 0 ∧ t.hsc.timer = none ∧ t.hsc.pressLoss = none
  isolate : t.hsc.isolate = true ∧ t.item Item.isolated = true ∧ t.item Item.isolateOut = true
  chan : ∀ m, t.chan m = (s.chan m).isolated

/-- ISOLATE asserted while channels run (R18, R53). -/
theorem assertIsolate_running {s : State} (hn : NoHostEntries s) (hg : GrantsRunning s) (hd : StillDry s)
    (hv : ∀ m, s.inputState m .outward = .valid → s.inputState m .inward ≠ .valid) :
    IsolateAsserted s (assertIsolate send s) ∧ Cascade (s.onHsc fun h => { h with isolate := true }) (assertIsolate send s) := by
  let s0 := s.onHsc fun h => { h with isolate := true }
  have hn0 : NoHostEntries s0 := hn
  let s1 := publishAll send [Item.isolated, Item.isolateOut] s0
  have hpl : ∀ r ∈ [Item.isolated, Item.isolateOut], r ∉ builtInItems ∧ r.exists = true := by decide
  have k1 : Silent s0 s1 := silent_publishAll quiet_send hn0 _ (fun r hr => (hpl r hr).1)
  have i1 : s1.item Item.isolated = true :=
    (item_publishAll_mem quiet_send Item.isolated _ hpl (by decide) hn0 (fun t ht => by rw [ht]; rfl)).trans rfl
  have i2 : s1.item Item.isolateOut = true :=
    (item_publishAll_mem quiet_send Item.isolateOut _ hpl (by decide) hn0 (fun t ht => by rw [ht]; rfl)).trans rfl
  have c1 : Cascade s0 s1 := cascade_publishAll cascades_send _ (.refl _)
  have h1 : s1.hsc = s0.hsc := k1.calm.hsc
  let named := machines.filter fun m => s1.hsc.grants.contains m || s1.hsc.queue.contains m
  have hnamed : ∀ m, m ∈ named ↔ (s.chan m).state.isRunning = true := fun m => by
    show m ∈ machines.filter _ ↔ _
    rw [List.mem_filter, h1, hg.2.2 m]
    have : m ∈ machines := by cases m <;> decide
    exact ⟨fun k => k.2, fun k => ⟨this, k⟩⟩
  let s2 := s1.onHsc fun h => { h with queue := [] }
  have c2 : Cascade s0 s2 := c1.move (.hsc s1 _ .inl (fun k => k) (fun k => k))
  have hn2 : NoHostEntries s2 := hn0.of_settings (by show s1.settings = _; rw [k1])
  have hch : ∀ m, s2.chan m = s.chan m := fun m => k1.calm.chan m
  have f3 := isolating_foldl quiet_send hn2 (by show s1.hsc.isolate = true; rw [h1]; rfl)
    (fun m => by
      have es : s2.siq = s.siq := k1.calm.siq
      unfold State.inputState State.input at hv ⊢
      rw [es]; exact hv m) named [] s2 (.nil s2) (by rw [List.nil_append]; exact (by decide : machines.Nodup).filter _)
    fun m hm => by rw [hch]; exact (hnamed m).mp hm
  rw [List.nil_append] at f3
  have e : assertIsolate send s = publishAll send ([Item.grantsFull, Item.waitingAny] ++ machines.map Item.blocked)
      (flowIsolated send s1.hsc.grants (setPump send .off 0 none (named.foldl (isolateChannel send) s2))) := rfl
  have hcas : Cascade s1 (assertIsolate send s) := by
    rw [e]
    refine cascade_publishAll cascades_send _ (cascade_flowIsolated cascades_send _ (cascade_setPump cascades_send _ _ _ ?_))
    exact cascade_foldl _ (fun m _ hs => cascade_isolateChannel cascades_send m hs) (Cascade.move (.refl _) (.hsc s1 _ .inl (fun k => k) (fun k => k)))
  rw [e] at hcas ⊢
  generalize named.foldl (isolateChannel send) s2 = s3 at *
  have hn3 : NoHostEntries s3 := hn2.of_settings f3.settings
  have g3 : s3.hsc.grants = [] := by
    rw [f3.grants]
    refine foldl_erase_empty _ ?_ fun m hm => ?_
    · show s1.hsc.grants.Nodup; rw [h1]; exact hg.1
    · have hm : m ∈ s.hsc.grants := by have : m ∈ s1.hsc.grants := hm; rw [h1] at this; exact this
      rw [hnamed, hg.2.2]
      simp [hm]
  have q3 : s3.hsc.queue = [] := by
    rw [f3.queue]
    have : ∀ ms : List MachineId, ms.foldl List.erase ([] : List MachineId) = [] := fun ms => by
      induction ms with
      | nil => rfl
      | cons m ms ih => exact ih
    exact this _
  have k4 := calm_setPump quiet_send hn3 .off 0 none
  have hn4 := k4.noHostEntries (show NoHostEntries (s3.onHsc _) from hn3)
  generalize setPump send .off 0 none s3 = s4 at *
  obtain ⟨hn5, st5, hh5, ch5⟩ := flowIsolated_calm hn4 s1.hsc.grants
  generalize flowIsolated send s1.hsc.grants s4 = s5 at *
  have hpl2 : ∀ r ∈ [Item.grantsFull, Item.waitingAny] ++ machines.map Item.blocked, r ∉ builtInItems ∧ r.exists = true := by decide
  have k6 := (silent_publishAll quiet_send hn5 _ (fun r hr => (hpl2 r hr).1)).calm
  generalize publishAll send ([Item.grantsFull, Item.waitingAny] ++ machines.map Item.blocked) s5 = t at *
  have st : Still s3 t := Still.trans (Still.trans (t := s3.onHsc _) ⟨rfl, rfl, rfl, rfl, rfl, rfl, rfl, rfl, rfl, rfl, rfl, fun _ => rfl⟩ k4.still)
    (st5.trans k6.still)
  have hh : t.hsc.pump = .off ∧ t.hsc.attempt = 0 ∧ t.hsc.timer = none ∧ t.hsc.pressLoss = none := by
    rw [k6.hsc, hh5.1, hh5.2.1, hh5.2.2.1, hh5.2.2.2, k4.hsc]
    exact ⟨rfl, rfl, rfl, rfl⟩
  have hiso : s1.hsc.isolate = true := by rw [h1]; rfl
  obtain ⟨a1, a2, a3⟩ := hcas.asserted.2 hiso
  refine ⟨⟨⟨?_, ?_, ?_, ?_, ?_, ?_, ?_, ?_⟩, ⟨?_, ?_, hh⟩, ⟨a1, a2 i1, a3 i2⟩, fun m => ?_⟩, c1.trans hcas⟩
  · rw [st.phase, f3.phase]; exact k1.calm.phase
  · rw [st.now, f3.now]; exact k1.calm.now
  · rw [st.pins, f3.pins]; exact k1.calm.pins
  · rw [st.settings, f3.settings]; exact k1.calm.settings
  · rw [st.slp, f3.slp]; exact k1.calm.slp
  · rw [st.siq, f3.siq]; exact k1.calm.siq
  · rw [st.fis, f3.fis]; exact k1.calm.fis
  · rw [st.rode, f3.rode]; show s1.sfe.rode = _; rw [k1.calm.sfe]; rfl
  · rw [st.grants, g3]
  · rw [st.queue, q3]
  · have e4 : s4.chan m = if m ∈ named then (s.chan m).isolated else s.chan m := by
      rw [k4.chan]
      show s3.chan m = _
      rw [f3.chan, hch]
    have e5 : ({ (if m ∈ named then (s.chan m).isolated else s.chan m) with share := 0, applied := 0 } : Channel) = (s.chan m).isolated := by
      split
      · unfold Channel.isolated; split <;> rfl
      · rename_i hm
        rw [hnamed] at hm
        unfold Channel.isolated
        rw [if_neg hm]
    rw [k6.chan, ch5]
    split
    · rw [e4, ← e5]
      split
      · unfold Channel.isolated; split <;> rfl
      · rename_i hm
        rw [hnamed, Bool.not_eq_true] at hm
        obtain ⟨h1, h2⟩ := hd m hm
        cases hc : s.chan m
        rw [hc] at h1 h2
        simp only at h1 h2
        rw [h1, h2]
    · rw [shared_ungranted (by rw [k4.hsc]; exact g3), e4]
      exact e5

/-- The grants and the queue still hold the running channels once the machines that the cause affects have been held. -/
theorem Raised.grantsRunning {c : Nat} {s t : State} (h : Raised c s t) (hg : GrantsRunning s) : GrantsRunning t := by
  have hst : ∀ m, (t.chan m).state.isRunning = ((s.chan m).state.isRunning && !s.affects c m) := fun m => by
    rw [h.channel]
    cases ha : s.affects c m
    · simp
    · unfold Channel.heldBy
      cases hs : (s.chan m).state <;> simp [ChanState.isRunning, hs]
  have hm : ∀ m, m ∈ s.stopsRunning c ↔ s.affects c m = true ∧ (s.chan m).state.isRunning = true := fun m => by
    unfold State.stopsRunning
    rw [List.mem_filter]
    have : m ∈ machines := by cases m <;> decide
    simp [this]
  refine ⟨h.grants ▸ nodup_foldl_erase _ hg.1, h.queue ▸ nodup_foldl_erase _ hg.2.1, fun m => ?_⟩
  rw [hst, hg.2.2]
  have e1 : t.hsc.grants.contains m = (s.hsc.grants.contains m && !decide (m ∈ s.stopsRunning c)) := by
    rw [Bool.eq_iff_iff]
    simp only [List.contains_iff_mem, h.grants, mem_foldl_erase _ hg.1, Bool.and_eq_true, Bool.not_eq_true', decide_eq_false_iff_not]
  have e2 : t.hsc.queue.contains m = (s.hsc.queue.contains m && !decide (m ∈ s.stopsRunning c)) := by
    rw [Bool.eq_iff_iff]
    simp only [List.contains_iff_mem, h.queue, mem_foldl_erase _ hg.2.1, Bool.and_eq_true, Bool.not_eq_true', decide_eq_false_iff_not]
  have e3 : decide (m ∈ s.stopsRunning c) = (s.affects c m && (s.hsc.grants.contains m || s.hsc.queue.contains m)) := by
    rw [Bool.eq_iff_iff, decide_eq_true_eq, hm, hg.2.2, Bool.and_eq_true]
  rw [e1, e2, e3]
  cases s.affects c m <;> cases s.hsc.grants.contains m <;> cases s.hsc.queue.contains m <;> rfl

/-- The first steps of a raise leave every valve that is to be shut so. -/
theorem raiseCore_valvesShut (c : Nat) {s : State} (h : ValvesShut s) : ValvesShut (raiseCore send c s) := by
  have h0 : Cascade (setCause c { s.cause c with active := true, raisedAt := some s.now } s)
      (setCause c { s.cause c with active := true, raisedAt := some s.now } s) := .refl _
  have k1 := cascade_foldl (machines.filter (s.affectedSet c).get) (f := fun s m => hold send m c .later s)
    (fun m _ hs => cascade_hold cascades_send m c .later hs) h0
  have k2 := cascade_queueEvent (.faultRaised c (s.affectedSet c) (s.causeSetting c).trip) (cascade_publish cascades_send (Item.cause c) k1)
  have k3 := cascade_when (p := c = causeLinkLost) k2 fun k => cascade_cancelPageNow cascades_send k
  have k4 := cascade_foldl (machines.filter (s.affectedSet c).get) (f := fun s m => activate m s) (fun m _ hs => cascade_activate m hs) k3
  exact (cascade_when (p := (s.causeSetting c).cls = .latched) k4 fun k => cascade_requestWrite cascades_send .records false k).valvesShut h

/-- A raise in an undisturbed part that takes a new trip (R106, R113). -/
theorem tripped_raise {s : State} (hu : Undisturbed s) {c : Nat} (hc : c < 16)
    (hp : (s.causeSetting c).cls ≠ .self ∨ c ≠ causeCreep ∧ c ≠ causePins ∧ (s.cause c).present = true)
    (htrip : (s.causeSetting c).trip = true) (hno : s.fis.trip = none) (hi : s.hsc.isolate = false) (hg : Seated s) (hd : ValvesShut s)
    (hv : ∀ m, s.inputState m .outward = .valid → s.inputState m .inward ≠ .valid) :
    Tripped c s (raise send c s) ∧ ((raise send c s).cause c).present = (s.cause c).present := by
  obtain ⟨k, x, k2, k3, k4, k5⟩ := raised_core hu hc (fun e => (hp.resolve_left (fun h => h e)).2.2)
  have hself : ((raiseCore send c s).causeSetting c).cls = (s.causeSetting c).cls := by
    unfold State.causeSetting; rw [k.kept.2.2.2.1]
  have e0 : raise send c s = (let u := takeTrip send c (raiseCore send c s)
      if u.hsc.queue.isEmpty then u else afterRelease send .now (handOver send u)) := by rw [raise_eq, if_pos htrip]
  have hn : NoHostEntries (raiseCore send c s) := hu.1.of_settings k.kept.2.2.2.1
  have hgt := k.grantsRunning hg.grantsRunning
  have hdt := (raiseCore_valvesShut c hd).stillDry
  have hvt : ∀ m, (raiseCore send c s).inputState m .outward = .valid → (raiseCore send c s).inputState m .inward ≠ .valid := by
    intro m h1 h2
    have e : ∀ i, ((raiseCore send c s).input i).state = .valid → (s.input i).state = .valid := fun i hs => by
      rw [k.input] at hs
      split at hs
      · exact absurd hs (inhibited_notValid _ _)
      · exact hs
    exact hv m (e ⟨m, .outward⟩ h1) (e ⟨m, .inward⟩ h2)
  have hcp : ((raiseCore send c s).cause c).present = (s.cause c).present := by
    show (peek (raiseCore send c s).fis.causes c).present = _
    rw [k2]
    show (peek (poke _ c x) c).present = _
    rw [peek_poke, if_pos ⟨rfl, hc⟩, k3]
  generalize raiseCore send c s = r at *
  obtain ⟨r1, r2, r3, r4, r5, r6, r7, r8⟩ := k.kept
  let r0 := r.onFis fun f => { f with trip := some { cause := c, time := r.now, rode := r.sfe.rode, restored := false } }
  have hn0 : NoHostEntries r0 := hn
  let r' := publish send r0 Item.tripRecorded
  have hpl : Item.tripRecorded ∉ builtInItems := by decide
  have p1 : Silent r0 r' := silent_publish quiet_send hn0 hpl
  have i1 : r'.item Item.tripRecorded = true := by
    show (publish send r0 Item.tripRecorded).item _ = _
    rw [item_publish quiet_send hn0 hpl rfl, if_pos rfl]
    rfl
  have hn1 : NoHostEntries r' := hn0.of_settings (by rw [p1])
  have e1 : takeTrip send c r = assertIsolate send r' := by
    have : takeTrip send c r = reconsiderIsolate send r' := by unfold takeTrip; rw [r7, hno]
    rw [this]
    unfold reconsiderIsolate
    have w : (r'.pins.estop || r'.fis.trip.isSome) = true := by
      have : r'.fis = r0.fis := p1.calm.fis
      rw [this]; simp [r0]
    have h : r'.hsc.isolate = false := by
      have : r'.hsc = r0.hsc := p1.calm.hsc
      rw [this]; exact k4.trans hi
    dsimp only
    rw [w, h]
    rfl
  have hch : ∀ m, r'.chan m = r.chan m := fun m => p1.calm.chan m
  have hsq : r'.siq = r.siq := p1.calm.siq
  have hhs : r'.hsc = r.hsc := p1.calm.hsc
  obtain ⟨a, ca⟩ := assertIsolate_running hn1 (by unfold GrantsRunning at hgt ⊢; simp only [hch, hhs]; exact hgt)
    (by unfold StillDry at hdt ⊢; simp only [hch]; exact hdt)
    (by unfold State.inputState State.input at hvt ⊢; rw [hsq]; exact hvt)
  have e2 : raise send c s = assertIsolate send r' := by
    rw [e0, e1]
    dsimp only
    rw [a.supply.2.1]
    rfl
  rw [e2]
  have hci : ∀ d, (assertIsolate send r').cause d = r.cause d := fun d => by
    unfold State.cause; rw [a.kept.2.2.2.2.2.2.1, p1.calm.fis]; rfl
  have cas0 : Cascade r r0 := Cascade.move (.refl r) (.trip r _ (r7.trans hno))
  have cas1 : Cascade r r' := cascade_publish cascades_send _ cas0
  have cas : Cascade r (assertIsolate send r') := cascade_assertIsolate cascades_send (.inl (by rw [p1.calm.fis]; rfl)) cas1
  refine ⟨⟨by rw [hci]; exact k.active, fun d hd => (hci d).trans (k.others d hd), ?_, ?_, fun m => ?_, fun i => ?_, a.supply, ?_, fun hl => ?_, ?_⟩, ?_⟩
  · rw [a.kept.2.2.2.2.2.2.1, p1.calm.fis]
    show some _ = some _
    rw [r2, r6]
  · refine ⟨a.isolate.1, a.isolate.2.1, a.isolate.2.2, (ca.asserted.1 ?_).2 i1⟩
    show r'.fis.trip.isSome = true
    rw [p1.calm.fis]; rfl
  · rw [a.chan, hch, k.channel]
    split
    · rename_i ha
      unfold Channel.isolated
      rw [if_neg]
      unfold Channel.heldBy
      cases hs : (s.chan m).state <;> simp [ChanState.isRunning, hs]
    · unfold Channel.isolated
      dsimp only
  · have : (assertIsolate send r').input i = r.input i := by unfold State.input; rw [a.kept.2.2.2.2.2.1, hsq]
    rw [this, k.input]
  · refine cas.causeItem hc ?_ k.active.1 k.item
    rw [hself, hcp]
    exact hp
  · have hl' := cas.events.length_le
    rw [List.length_map, List.length_map] at hl'
    have := cas.events.subset (k.event (Nat.lt_of_le_of_lt hl' hl))
    rw [htrip] at this
    exact this
  · obtain ⟨b1, b2, b3, b4, b5, b6, b7, b8⟩ := a.kept
    refine ⟨?_, ?_, ?_, ?_, ?_, ?_, ?_⟩
    · rw [b1]; exact p1.calm.phase.trans r1
    · rw [b2]; exact p1.calm.now.trans r2
    · rw [b3]; exact p1.calm.pins.trans r3
    · rw [b4]; exact p1.calm.settings.trans r4
    · rw [b5]; exact p1.calm.slp.trans r5
    · rw [b8]; exact (congrArg Sfe.rode p1.calm.sfe).trans r6
    · rw [b7]; exact (congrArg Fis.faulted p1.calm.fis).trans r8
  · rw [hci, hcp]

/-- A trip seen from a state with the same channels, inputs, causes and settings. -/
theorem Tripped.of_same {c : Nat} {s s' t : State} (h : Tripped c s' t) (h1 : s'.mc = s.mc) (h2 : s'.siq = s.siq)
    (h5 : ∀ d, d ≠ c → s'.cause d = s.cause d) (h6 : s'.fis.faulted = s.fis.faulted)
    (h8 : s'.settings = s.settings) (h9 : s'.phase = s.phase) (h10 : s'.now = s.now) (h11 : s'.pins = s.pins) (h12 : s'.slp = s.slp)
    (h13 : s'.sfe.rode = s.sfe.rode) : Tripped c s t := by
  have ha : ∀ m, s'.affects c m = s.affects c m := fun m => by unfold State.affects State.stationFaulted; rw [h6]
  have hc : ∀ m, s'.chan m = s.chan m := fun m => by unfold State.chan; rw [h1]
  have hi : ∀ i, s'.input i = s.input i := fun i => by unfold State.input; rw [h2]
  have hs : s'.affectedSet c = s.affectedSet c := by unfold State.affectedSet; simp only [ha]
  obtain ⟨a1, a2, a3, a4, a5, a6, a7, a8, a9, b1, b2, b3, b4, b5, b6, b7⟩ := h
  refine ⟨h10 ▸ a1, fun d hd => (a2 d hd).trans (h5 d hd), by rw [a3, h10, h13], a4, fun m => ?_, fun i => ?_, a7, a8, ?_, b1.trans h9, b2.trans h10,
    b3.trans h11, b4.trans h8, b5.trans h12, b6.trans h13, b7.trans h6⟩
  · have := a5 m; rw [ha, hc] at this; exact this
  · have := a6 i; rw [ha, hc, hi, h8] at this; exact this
  · rw [← hs]; exact a9

/-- A cause at rest with its trip enabled whose condition is reported present trips the part (R105, R106, R113). -/
theorem tripped_report {s : State} (hu : Undisturbed s) {c : Nat} (hc : c < 16) (h : TripReady c s)
    (hself : (s.causeSetting c).cls ≠ .self ∨ c ≠ causeCreep ∧ c ≠ causePins) :
    Tripped c s (report send c true s) ∧ ((report send c true s).cause c).present = true := by
  obtain ⟨ha, hp, htrip, hno, hi, hg, hd, hv⟩ := h
  have e : report send c true s = raise send c (setCause c { s.cause c with present := true } s) := by
    unfold report
    dsimp only
    rw [hp, ha]
    rfl
  have hx : (setCause c { s.cause c with present := true } s).cause c = { s.cause c with present := true } := by
    rw [setCause_cause]; simp [hc]
  have hu1 : Undisturbed (setCause c { s.cause c with present := true } s) := by
    refine ⟨hu.1, fun d hd hda hcl => ?_⟩
    by_cases hdc : c = d
    · subst hdc; rw [hx]
    · rw [setCause_cause, if_neg (fun k => hdc k.1)] at hda ⊢
      exact hu.2 d hd hda hcl
  obtain ⟨k1, k2⟩ := tripped_raise hu1 hc (hself.imp id fun k => ⟨k.1, k.2, by rw [hx]⟩) htrip hno hi hg hd hv
  rw [e]
  refine ⟨k1.of_same rfl rfl (fun d hd => ?_) rfl rfl rfl rfl rfl rfl rfl, by rw [k2, hx]⟩
  rw [setCause_cause, if_neg (fun k => hd k.1.symm)]

/-- A cause at rest, not SELF and with its trip enabled, whose condition is an event trips the part (R105, R106, R113). -/
theorem tripped_event {s : State} (hu : Undisturbed s) {c : Nat} (hc : c < 16) (h : TripReady c s)
    (hcl : (s.causeSetting c).cls ≠ .self) :
    Tripped c s (reportEvent send c s) ∧ ((reportEvent send c s).cause c).present = false := by
  obtain ⟨k1, -⟩ := tripped_report hu hc h (.inl hcl)
  rw [reportEvent_eq hcl k1.kept.2.2.2.1]
  refine ⟨?_, by rw [setCause_cause, if_pos ⟨rfl, hc⟩]⟩
  obtain ⟨a1, a2, a3, a4, a5, a6, a7, a8, a9, b⟩ := k1
  refine ⟨?_, fun d hd => ?_, a3, a4, a5, a6, a7, a8, a9, b⟩
  · rw [setCause_cause, if_pos ⟨rfl, hc⟩]; exact a1
  · rw [setCause_cause, if_neg (fun k => hd k.1.symm)]; exact a2 d hd

/-- A trip outlasts the beginning of a store write. -/
theorem Tripped.of_sto {c : Nat} {s t t' : State} (h : Tripped c s t) (ht : t' = { t with sto := t'.sto }) : Tripped c s t' := by
  obtain ⟨a1, a2, a3, a4, a5, a6, a7, a8, a9, b⟩ := h
  rw [ht]
  exact ⟨a1, a2, a3, a4, a5, a6, a7, a8, a9, b⟩

/-- A condition reported at the end of a handling that trips the part. -/
theorem tripped_report_finish {s u : State} {c : Nat} (hu : Undisturbed s) (hc : c < 16) (h : TripReady c s)
    (hself : (s.causeSetting c).cls ≠ .self ∨ c ≠ causeCreep ∧ c ≠ causePins) (hs : Silent u s) :
    ∃ t, finish (report send c true s) = .next t ∧ Tripped c u t ∧ (t.cause c).present = true := by
  obtain ⟨k1, k2⟩ := tripped_report hu hc h hself
  obtain ⟨t, h1, h2⟩ := finish_sto (report send c true s)
  refine ⟨t, h1, ?_, by rw [cause_sto h2]; exact k2⟩
  refine (k1.of_sto h2).of_same ?_ ?_ (fun _ _ => ?_) ?_ ?_ ?_ ?_ ?_ ?_ ?_ <;> (rw [hs]) <;> rfl

/-- An event condition at the end of a handling that trips the part. -/
theorem tripped_event_finish {s u : State} {c : Nat} (hu : Undisturbed s) (hc : c < 16) (h : TripReady c s)
    (hcl : (s.causeSetting c).cls ≠ .self) (hs : Silent u s) :
    ∃ t, finish (reportEvent send c s) = .next t ∧ Tripped c u t ∧ (t.cause c).present = false := by
  obtain ⟨k1, k2⟩ := tripped_event hu hc h hcl
  obtain ⟨t, h1, h2⟩ := finish_sto (reportEvent send c s)
  refine ⟨t, h1, ?_, by rw [cause_sto h2]; exact k2⟩
  refine (k1.of_sto h2).of_same ?_ ?_ (fun _ _ => ?_) ?_ ?_ ?_ ?_ ?_ ?_ ?_ <;> (rw [hs]) <;> rfl

end Sys2Proof.Machine
end

