-- ==== Sys2Proof/Laws/SetUp.lean ====
section
/-! SUPPORT. The causes of the end of initialization in a part without host interlock entries: no channel runs, and each rests in the
state that its Enabled flag and the active causes give it (R2, R19, R41, R66, R182). -/

namespace Sys2Proof.Machine

/-- No channel runs, no input is VALID, and the supply is at rest; the channels are in the states `st`. -/
structure Resting (st : MachineId → ChanState) (s : State) : Prop where
  noHost : NoHostEntries s
  input : ∀ i, (s.input i).state = .released ∨ (s.input i).state = .inhibited
  supply : s.hsc.pump = .off ∧ s.hsc.attempt = 0 ∧ s.hsc.timer = none ∧ s.hsc.pressLoss = none ∧ s.hsc.grants = [] ∧ s.hsc.queue = []
  quiet : ∀ m, st m = .idle ∨ st m = .held ∨ st m = .disabled
  chan : ∀ m, (s.chan m).state = st m ∧ (s.chan m).live = none ∧ (s.chan m).demand = 0 ∧ (s.chan m).flow = 0 ∧ (s.chan m).share = 0 ∧
    (s.chan m).applied = 0
  creep : s.sfe.creepRef = if st .w = .idle then some s.sfe.rode else none

variable {st : MachineId → ChanState} {s t : State}

theorem Resting.anyValid (h : Resting st s) (m : MachineId) : s.anyValid m = false := by
  have e : ∀ d, (s.inputState m d == .valid) = false := fun d => by
    have := h.input ⟨m, d⟩
    unfold State.inputState
    rcases this with k | k <;> rw [k] <;> rfl
  unfold State.anyValid
  rw [e, e]; rfl

theorem Resting.allLetGo (h : Resting st s) (m : MachineId) : s.allLetGo m = true := by
  have e : ∀ d, (s.inputState m d).letGo = true := fun d => by
    have := h.input ⟨m, d⟩
    unfold State.inputState
    rcases this with k | k <;> rw [k] <;> rfl
  unfold State.allLetGo
  rw [e, e]; rfl

/-- Only the causes, the trip and the faulted set may differ besides what a `Calm` step may change. -/
theorem Resting.same (h : Resting st s) (h1 : t.settings = s.settings) (h2 : t.siq = s.siq) (h3 : t.hsc = s.hsc) (h4 : t.mc = s.mc)
    (h5 : t.sfe = s.sfe) : Resting st t := by
  have ec : ∀ m, t.chan m = s.chan m := fun m => by unfold State.chan; rw [h4]
  have ei : ∀ i, t.input i = s.input i := fun i => by unfold State.input; rw [h2]
  exact ⟨h.noHost.of_settings h1, fun i => by rw [ei]; exact h.input i, by rw [h3]; exact h.supply, h.quiet,
    fun m => by rw [ec]; exact h.chan m, by rw [h5]; exact h.creep⟩

theorem Resting.calm (h : Resting st s) (k : Calm s t) : Resting st t := h.same k.settings k.siq k.hsc k.mc k.sfe

theorem stateCore_creep (m : MachineId) (x : ChanState) (s : State) :
    (stateCore m x s).sfe.creepRef = if m = .w then s.creepRefFor x else s.sfe.creepRef := by
  have e : ∀ u : State, (stallCheck u).sfe.creepRef = u.sfe.creepRef := fun u => by
    unfold stallCheck
    dsimp only
    repeat' split
    all_goals rfl
  unfold stateCore
  rw [e]
  cases m <;> rfl

/-- A channel at rest enters IDLE or HELD (R1, R66). -/
theorem Resting.core (h : Resting st s) (m : MachineId) {x : ChanState} (hx : x = .idle ∨ x = .held) :
    Resting (fun k => if k = m then x else st k) (stateCore m x s) := by
  have e := stateCore_eq m x s
  refine ⟨h.noHost.of_settings (stateCore_settings _ _ _), fun i => ?_, ?_, fun k => ?_, fun k => ?_, ?_⟩
  · have : (stateCore m x s).input i = s.input i := by unfold State.input; rw [e]
    rw [this]; exact h.input i
  · rw [e]; exact h.supply
  · split
    · exact hx.imp id .inl
    · exact h.quiet k
  · rw [stateCore_chan]
    by_cases hk : k = m
    · subst hk
      rw [if_pos rfl, if_pos rfl]
      rcases hx with hx | hx <;> subst hx <;> exact ⟨rfl, (h.chan k).2.1, rfl, rfl, rfl, rfl⟩
    · rw [if_neg (Ne.symm hk), if_neg hk]; exact h.chan k
  · rw [stateCore_creep, (stateCore_sfe m x s).1]
    by_cases hm : m = .w
    · subst hm
      rw [if_pos rfl, if_pos rfl]
      rcases hx with hx | hx <;> subst hx <;> rfl
    · rw [if_neg hm, if_neg (Ne.symm hm)]; exact h.creep

theorem Resting.enter (h : Resting st s) (m : MachineId) {x : ChanState} (hx : x = .idle ∨ x = .held) :
    Resting (fun k => if k = m then x else st k) (enter send m x s) :=
  (h.core m hx).calm (calm_enter quiet_send h.noHost m x)

theorem enter_fis (hn : NoHostEntries s) (m : MachineId) (x : ChanState) : (enter send m x s).fis = s.fis ∧ (enter send m x s).settings = s.settings := by
  have k := calm_enter quiet_send hn m x
  exact ⟨by rw [k.fis, stateCore_eq], by rw [k.settings, stateCore_settings]⟩

theorem Resting.congr {st' : MachineId → ChanState} (h : Resting st s) (e : ∀ m, st' m = st m) : Resting st' s := by
  have : st' = st := funext e
  rw [this]; exact h

/-- The inputs of a machine at rest are inhibited already, or need not be (R95). -/
theorem Resting.inhibit (h : Resting st s) (hu : Undisturbed s) (m : MachineId) :
    Resting st (inhibit send m s) ∧ (inhibit send m s).fis = s.fis ∧ (inhibit send m s).settings = s.settings := by
  have k := calm_inhibit quiet_send hu m
  refine ⟨Resting.calm (s := inhibitCore m s) ⟨h.noHost, fun i => ?_, h.supply, h.quiet, h.chan, h.creep⟩ k, by rw [k.fis]; rfl, by rw [k.settings]; rfl⟩
  rw [inhibitCore_input]
  split
  · rcases h.input i with e | e
    · exact .inl (by unfold HoldRec.inhibited; rw [e]; exact e)
    · exact .inr (by unfold HoldRec.inhibited; rw [e]; exact e)
  · exact h.input i

/-- Holding a channel that does not run (R19). -/
theorem Resting.hold (h : Resting st s) (hu : Undisturbed s) (m : MachineId) (c : Nat) :
    Resting (fun k => if k = m ∧ st k = .idle then .held else st k) (hold send m c .later s) ∧
      (hold send m c .later s).fis = s.fis ∧ (hold send m c .later s).settings = s.settings := by
  unfold Machine.hold
  have hs := (h.chan m).1
  have other : st m ≠ .idle → Resting (fun k => if k = m ∧ st k = .idle then .held else st k) s := fun hne =>
    h.congr fun k => by
      rw [if_neg]
      rintro ⟨rfl, e⟩
      exact hne e
  rcases h.quiet m with k | k | k
  · rw [hs, k]
    dsimp only
    have hu1 : Undisturbed (Machine.enter send m .held s) := undisturbed_of hu (enter_fis h.noHost m .held).2 (enter_fis h.noHost m .held).1
    obtain ⟨r1, r2, r3⟩ := (h.enter m (.inr rfl)).inhibit hu1 m
    refine ⟨r1.congr fun j => ?_, r2.trans (enter_fis h.noHost m .held).1, r3.trans (enter_fis h.noHost m .held).2⟩
    by_cases hj : j = m
    · subst hj; rw [if_pos ⟨rfl, k⟩, if_pos rfl]
    · rw [if_neg (fun e => hj e.1), if_neg hj]
  · rw [hs, k]
    exact ⟨other (by rw [k]; decide), rfl, rfl⟩
  · rw [hs, k]
    exact ⟨other (by rw [k]; decide), rfl, rfl⟩

theorem Resting.holds (ms : List MachineId) (c : Nat) : ∀ {st : MachineId → ChanState} {s : State}, Resting st s → Undisturbed s →
    Resting (fun k => if k ∈ ms ∧ st k = .idle then .held else st k) (ms.foldl (fun s m => Machine.hold send m c .later s) s) ∧
      (ms.foldl (fun s m => Machine.hold send m c .later s) s).fis = s.fis ∧
      (ms.foldl (fun s m => Machine.hold send m c .later s) s).settings = s.settings := by
  induction ms with
  | nil => exact fun h _ => ⟨h.congr fun k => by rw [if_neg (by simp)], rfl, rfl⟩
  | cons m ms ih =>
    intro st s h hu
    obtain ⟨r1, r2, r3⟩ := h.hold hu m c
    obtain ⟨q1, q2, q3⟩ := ih r1 (undisturbed_of hu r3 r2)
    refine ⟨q1.congr fun k => ?_, q2.trans r2, q3.trans r3⟩
    by_cases h1 : k = m <;> by_cases h2 : k ∈ ms <;> by_cases h3 : st k = .idle <;> simp [h1, h2, h3]
    all_goals (subst h1; simp_all)

/-- ISOLATE asserted while no channel runs (R53). -/
theorem Resting.assertIsolate (h : Resting st s) : Resting st (assertIsolate send s) ∧ (assertIsolate send s).fis = s.fis ∧
    (assertIsolate send s).settings = s.settings := by
  obtain ⟨hp1, hp2, hp3, hp4, hg, hq⟩ := h.supply
  let s1 := publishAll send [Item.isolated, Item.isolateOut] (s.onHsc fun h => { h with isolate := true })
  have k1 : Calm (s.onHsc fun h => { h with isolate := true }) s1 :=
    calm_publishAll quiet_send (s := s.onHsc _) h.noHost _ (by unfold Plain; decide)
  have r1 : Resting st s1 := Resting.calm (s := s.onHsc fun h => { h with isolate := true })
    ⟨h.noHost, h.input, ⟨hp1, hp2, hp3, hp4, hg, hq⟩, h.quiet, h.chan, h.creep⟩ k1
  have e : Machine.assertIsolate send s = publishAll send ([Item.grantsFull, Item.waitingAny] ++ machines.map Item.blocked)
      (flowIsolated send [] (setPump send .off 0 none s1)) := assertIsolate_idle_eq h.noHost hg hq
  have k2 := calm_setPump quiet_send r1.noHost .off 0 none
  obtain ⟨g1, g2⟩ := r1.supply.2.2.2.2
  have r2 : Resting st (setPump send .off 0 none s1) := Resting.calm (s := s1.onHsc fun h => { h with pump := .off, attempt := 0, timer := none, pressLoss := if PumpState.off.confirmed then h.pressLoss else none })
    ⟨r1.noHost, r1.input, ⟨rfl, rfl, rfl, rfl, g1, g2⟩, r1.quiet, r1.chan, r1.creep⟩ k2
  have f2 : (setPump send .off 0 none s1).fis = s.fis := by rw [k2.fis]; exact k1.fis
  have n2 : (setPump send .off 0 none s1).settings = s.settings := by rw [k2.settings]; exact k1.settings
  generalize setPump send .off 0 none s1 = s2 at *
  have k3 : Calm (s2.onHsc fun h => { h with scaled := false }) (flowIsolated send [] s2) :=
    calm_publish quiet_send (s := s2.onHsc _) r2.noHost (by unfold Plain; decide)
  have r3 : Resting st (flowIsolated send [] s2) := Resting.calm (s := s2.onHsc fun h => { h with scaled := false })
    ⟨r2.noHost, r2.input, r2.supply, r2.quiet, r2.chan, r2.creep⟩ k3
  have k4 := calm_publishAll quiet_send r3.noHost ([Item.grantsFull, Item.waitingAny] ++ machines.map Item.blocked) (by unfold Plain; decide)
  rw [e]
  refine ⟨r3.calm k4, ?_, ?_⟩
  · rw [k4.fis, k3.fis]; exact f2
  · rw [k4.settings, k3.settings]; exact n2

/-- Every channel rests in the state that its Enabled flag and the active causes give it (R2). -/
def Settled (s : State) : Prop := Resting s.firstState s

theorem Settled.of (h : Resting st s) (e : ∀ m, s.firstState m = st m) : Settled s := h.congr e

theorem affected_iff (s : State) (m : MachineId) : s.affected m = true ↔ ∃ c, c < 16 ∧ (s.cause c).active = true ∧ s.affects c m = true := by
  unfold State.affected causeIndexes
  rw [List.any_eq_true]
  simp only [List.mem_range, Bool.and_eq_true]

theorem firstState_of (h1 : t.settings = s.settings) (h2 : ∀ m, t.affected m = s.affected m) (m : MachineId) : t.firstState m = s.firstState m := by
  unfold State.firstState State.params
  rw [h1, h2]

/-- A trip taken while no channel runs, with ISOLATE asserted already or not (R113). -/
theorem Resting.takeTrip (h : Resting st s) (c : Nat) : Resting st (takeTrip send c s) ∧ (takeTrip send c s).fis.causes = s.fis.causes ∧
    (takeTrip send c s).fis.faulted = s.fis.faulted ∧ (takeTrip send c s).settings = s.settings := by
  unfold Machine.takeTrip
  split
  · exact ⟨h, rfl, rfl, rfl⟩
  · let r0 := s.onFis fun f => { f with trip := some { cause := c, time := s.now, rode := s.sfe.rode, restored := false } }
    have h0 : Resting st r0 := h.same rfl rfl rfl rfl rfl
    have k := calm_publish quiet_send h0.noHost (r := Item.tripRecorded) (by unfold Plain; decide)
    have h1 := h0.calm k
    show Resting st (reconsiderIsolate send (publish send r0 Item.tripRecorded)) ∧
      (reconsiderIsolate send (publish send r0 Item.tripRecorded)).fis.causes = _ ∧
      (reconsiderIsolate send (publish send r0 Item.tripRecorded)).fis.faulted = _ ∧
      (reconsiderIsolate send (publish send r0 Item.tripRecorded)).settings = _
    have f1 : (publish send r0 Item.tripRecorded).fis.causes = s.fis.causes ∧ (publish send r0 Item.tripRecorded).fis.faulted = s.fis.faulted ∧
        (publish send r0 Item.tripRecorded).settings = s.settings := by
      rw [k.fis, k.settings]; exact ⟨rfl, rfl, rfl⟩
    have ft : (publish send r0 Item.tripRecorded).fis.trip.isSome = true := by rw [k.fis]; rfl
    generalize publish send r0 Item.tripRecorded = r at *
    unfold reconsiderIsolate
    dsimp only
    rw [ft, Bool.or_true]
    obtain ⟨a1, a2, a3⟩ := h1.assertIsolate
    split
    · rw [a2, a3]; exact ⟨a1, f1⟩
    · exact ⟨h1, f1⟩

/-- A cause is raised while no channel runs (R19, R106). -/
theorem Settled.raise (h : Settled s) (hu : Undisturbed s) {c : Nat} (hc : c < 16) (hp : (s.causeSetting c).cls = .self → (s.cause c).present = true) :
    Settled (Machine.raise send c s) ∧ (∀ d, (Machine.raise send c s).cause d =
      if d = c then { s.cause c with active := true, raisedAt := some s.now } else s.cause d) ∧
      (Machine.raise send c s).settings = s.settings := by
  let x : CauseRec := { s.cause c with active := true, raisedAt := some s.now }
  let s1 := setCause c x s
  have h1 : Resting s.firstState s1 := Resting.same h rfl rfl rfl rfl rfl
  have hx : s1.cause c = x := by show (setCause c x s).cause c = x; rw [setCause_cause]; simp [hc]
  have hu1 : Undisturbed s1 := by
    refine ⟨hu.1, fun d hd ha hcl => ?_⟩
    by_cases hdc : c = d
    · subst hdc; rw [hx]; exact hp hcl
    · have e : s1.cause d = s.cause d := by show (setCause c x s).cause d = _; rw [setCause_cause, if_neg (fun k => hdc k.1)]
      rw [e] at ha ⊢
      exact hu.2 d hd ha hcl
  obtain ⟨h2, f2, n2⟩ := Resting.holds (machines.filter (s.affectedSet c).get) c h1 hu1
  let t0 := (machines.filter (s.affectedSet c).get).foldl (fun s m => Machine.hold send m c .later s) s1
  have hplain : Plain (Item.cause c) := by
    unfold Plain builtInItems; simp [Item.cause, Item.ladderDown, Item.cradleHome, Item.matOccupied]
  have k1 : Calm t0 (publish send t0 (Item.cause c)) := calm_publish quiet_send h2.noHost hplain
  have k2 : Calm t0 (raiseCore send c s) := by
    let t2 := queueEvent (.faultRaised c (s.affectedSet c) (s.causeSetting c).trip) (publish send t0 (Item.cause c))
    have q2 : Calm t0 t2 := k1.trans (silent_queueEvent _ _).calm
    let t3 := if c = causeLinkLost then cancelPageNow send t2 else t2
    have q3 : Calm t0 t3 := by
      show Calm t0 (if c = causeLinkLost then cancelPageNow send t2 else t2)
      split
      · exact q2.trans (calm_cancelPageNow quiet_send (q2.noHostEntries h2.noHost))
      · exact q2
    have q4 : Calm t0 ((machines.filter (s.affectedSet c).get).foldl (fun s m => activate m s) t3) := q3.trans (calm_activates _ _)
    show Calm t0 (if (s.causeSetting c).cls = .latched then requestWrite send .records false _ else _)
    split
    · exact q4.trans (calm_requestWrite quiet_send (q4.noHostEntries h2.noHost) _ _)
    · exact q4
  have hr := h2.calm k2
  have hcause : (raiseCore send c s).fis = s1.fis := by rw [k2.fis]; exact f2
  have hset : (raiseCore send c s).settings = s.settings := by rw [k2.settings]; exact n2
  have e : Machine.raise send c s = (if (s.causeSetting c).trip = true then Machine.takeTrip send c (raiseCore send c s) else raiseCore send c s) := by
    rw [raise_eq]
    dsimp only
    have q : ∀ u, Resting (fun k => if k ∈ machines.filter (s.affectedSet c).get ∧ s.firstState k = .idle then .held else s.firstState k) u →
        (if u.hsc.queue.isEmpty = true then u else afterRelease send .now (handOver send u)) = u := fun u hu => by
      rw [hu.supply.2.2.2.2.2]; rfl
    split
    · exact q _ (hr.takeTrip c).1
    · exact q _ hr
  have fin : ∀ u, Resting (fun k => if k ∈ machines.filter (s.affectedSet c).get ∧ s.firstState k = .idle then .held else s.firstState k) u →
      u.fis.causes = s1.fis.causes → u.fis.faulted = s1.fis.faulted → u.settings = s.settings →
      Settled u ∧ (∀ d, u.cause d = if d = c then x else s.cause d) ∧ u.settings = s.settings := by
    intro u h3 h4 h5 h6
    have hcd : ∀ d, u.cause d = if d = c then x else s.cause d := fun d => by
      have : u.cause d = s1.cause d := by unfold State.cause; rw [h4]
      rw [this]
      show (setCause c x s).cause d = _
      rw [setCause_cause]
      by_cases hd : d = c
      · rw [if_pos ⟨hd.symm, hd ▸ hc⟩, if_pos hd]
      · rw [if_neg (fun k => hd k.1.symm), if_neg hd]
    refine ⟨Settled.of h3 fun m => ?_, hcd, h6⟩
    have haff : ∀ d, u.affects d m = s.affects d m := fun d => by
      unfold State.affects State.stationFaulted; rw [h5]; rfl
    have ha : u.affected m = (s.affected m || s.affects c m) := by
      rw [Bool.eq_iff_iff, affected_iff, Bool.or_eq_true, affected_iff]
      constructor
      · rintro ⟨d, hd, q1, q2⟩
        rw [hcd] at q1; rw [haff] at q2
        by_cases hdc : d = c
        · rw [← hdc]; exact .inr q2
        · rw [if_neg hdc] at q1; exact .inl ⟨d, hd, q1, q2⟩
      · rintro (⟨d, hd, q1, q2⟩ | k)
        · refine ⟨d, hd, ?_, by rw [haff]; exact q2⟩
          rw [hcd]; split
          · rfl
          · exact q1
        · exact ⟨c, hc, by rw [hcd, if_pos rfl], by rw [haff]; exact k⟩
    simp only [mem_affected]
    unfold State.firstState State.params
    rw [h6, ha]
    cases (s.settings.machines.common.get m).enabled <;> cases s.affected m <;> cases s.affects c m <;> simp
  rw [e]
  split
  · obtain ⟨a1, a2, a3, a4⟩ := hr.takeTrip c
    exact fin _ a1 (a2.trans (by rw [hcause])) (a3.trans (by rw [hcause])) (a4.trans hset)
  · exact fin _ hr (by rw [hcause]) (by rw [hcause]) hset

/-- A condition found present while no channel runs (R41, R105). -/
theorem Settled.report (h : Settled s) (hu : Undisturbed s) {c : Nat} (hc : c < 16) :
    Settled (report send c true s) ∧ Undisturbed (report send c true s) := by
  unfold Machine.report
  dsimp only
  rw [if_pos rfl]
  split
  · exact ⟨h, hu⟩
  · let s1 := setCause c { s.cause c with present := true } s
    have hx : s1.cause c = { s.cause c with present := true } := by
      show (setCause c _ s).cause c = _; rw [setCause_cause]; simp [hc]
    have hne : ∀ d, d ≠ c → s1.cause d = s.cause d := fun d hd => by
      show (setCause c _ s).cause d = _; rw [setCause_cause, if_neg (fun k => hd k.1.symm)]
    have hu1 : Undisturbed s1 := by
      refine ⟨hu.1, fun d hd hda hcl => ?_⟩
      by_cases hdc : d = c
      · subst hdc; rw [hx]
      · rw [hne d hdc] at hda ⊢
        exact hu.2 d hd hda hcl
    have hs1 : Settled s1 := Settled.of (Resting.same h rfl rfl rfl rfl rfl) (firstState_of rfl fun m => by
      rw [Bool.eq_iff_iff, affected_iff, affected_iff]
      have : ∀ d, (s1.cause d).active = (s.cause d).active := fun d => by
        by_cases hd : d = c
        · subst hd; rw [hx]
        · rw [hne d hd]
      simp only [this]
      rfl)
    split
    · exact ⟨hs1, hu1⟩
    · obtain ⟨r1, r2, r3⟩ := hs1.raise hu1 hc (fun _ => by rw [hx])
      refine ⟨r1, r1.noHost, fun d hd ha hcl => ?_⟩
      have hcl : (s1.causeSetting d).cls = .self := by unfold State.causeSetting at hcl ⊢; rw [r3] at hcl; exact hcl
      rw [r2] at ha ⊢
      by_cases hdc : d = c
      · subst hdc; rw [if_pos rfl, hx]
      · rw [if_neg hdc] at ha ⊢; exact hu1.2 d hd ha hcl

/-- Channels that nothing affects any longer leave HELD, and no start follows (R20). -/
theorem Resting.releaseHeld (h : Resting st s) : Resting (fun k => if st k = .held ∧ s.affected k = false then .idle else st k) (releaseHeld send s) ∧
    (releaseHeld send s).fis = s.fis ∧ (releaseHeld send s).settings = s.settings := by
  have one : ∀ (m : MachineId) {st : MachineId → ChanState} {u : State}, Resting st u → u.fis = s.fis → u.settings = s.settings →
      let v := if (u.chan m).state = .held ∧ u.affected m = false then send (.tryStart m) (Machine.enter send m .idle u) else u
      Resting (fun k => if k = m ∧ st k = .held ∧ s.affected k = false then .idle else st k) v ∧ v.fis = s.fis ∧ v.settings = s.settings := by
    intro m st u hu hf hs
    have ha : u.affected m = s.affected m := affected_fis (by rw [hf]) (by rw [hf]) m
    dsimp only
    rw [(hu.chan m).1, ha]
    split
    · rename_i hh
      have r := hu.enter m (x := .idle) (.inl rfl)
      rw [quiet_send.start _ m (r.anyValid m)]
      refine ⟨r.congr fun k => ?_, (enter_fis hu.noHost m .idle).1.trans hf, (enter_fis hu.noHost m .idle).2.trans hs⟩
      by_cases hk : k = m
      · subst hk; rw [if_pos rfl, if_pos ⟨rfl, hh⟩]
      · rw [if_neg hk, if_neg (fun e => hk e.1)]
    · rename_i hh
      refine ⟨hu.congr fun k => ?_, hf, hs⟩
      rw [if_neg]
      rintro ⟨rfl, e⟩
      exact hh e
  obtain ⟨a1, a2, a3⟩ := one .w h rfl rfl
  obtain ⟨b1, b2, b3⟩ := one .p a1 a2 a3
  obtain ⟨c1, c2, c3⟩ := one .h b1 b2 b3
  refine ⟨c1.congr fun k => ?_, c2, c3⟩
  cases k <;> simp

/-- A SELF cause whose condition is absent is cleared while no channel runs, and no other changes (R108). -/
theorem Settled.trySelfClear (h : Settled s) {c : Nat} (hc : c < 16) : Settled (trySelfClear send c s) ∧
    (trySelfClear send c s).settings = s.settings ∧ (∀ d, d ≠ c → (trySelfClear send c s).cause d = s.cause d) ∧
    (((trySelfClear send c s).cause c).active = true → (s.causeSetting c).cls = .self → ((trySelfClear send c s).cause c).present = true) := by
  unfold Machine.trySelfClear
  split
  · let s1 := setCause c { s.cause c with active := false, raisedAt := none } s
    have h1 : Resting s.firstState s1 := Resting.same h rfl rfl rfl rfl rfl
    have k1 : Calm s1 (publish send s1 (Item.cause c)) := calm_publish quiet_send h1.noHost (by
      unfold Plain builtInItems
      simp [Item.cause, Item.ladderDown, Item.cradleHome, Item.matOccupied])
    have k2 : Calm s1 (if (s.causeSetting c).cls = .latched then
        requestWrite send .records false (queueEvent (.faultCleared c .self) (publish send s1 (Item.cause c)))
        else queueEvent (.faultCleared c .self) (publish send s1 (Item.cause c))) := by
      have k := k1.trans (silent_queueEvent (.faultCleared c .self) _).calm
      split
      · exact k.trans (calm_requestWrite quiet_send (k.noHostEntries h1.noHost) _ _)
      · exact k
    have e : clearCause send c .self s = Machine.releaseHeld send (if (s.causeSetting c).cls = .latched then
        requestWrite send .records false (queueEvent (.faultCleared c .self) (publish send s1 (Item.cause c)))
        else queueEvent (.faultCleared c .self) (publish send s1 (Item.cause c))) := rfl
    rw [e]
    generalize (if (s.causeSetting c).cls = .latched then
        requestWrite send .records false (queueEvent (.faultCleared c .self) (publish send s1 (Item.cause c)))
        else queueEvent (.faultCleared c .self) (publish send s1 (Item.cause c))) = v at *
    obtain ⟨r1, r2, r3⟩ := (h1.calm k2).releaseHeld
    have hcd : ∀ d, (Machine.releaseHeld send v).cause d = s1.cause d := fun d => by unfold State.cause; rw [r2, k2.fis]
    have hx : s1.cause c = { s.cause c with active := false, raisedAt := none } := by
      show (setCause c _ s).cause c = _; rw [setCause_cause]; simp [hc]
    have hne : ∀ d, d ≠ c → s1.cause d = s.cause d := fun d hd => by
      show (setCause c _ s).cause d = _; rw [setCause_cause, if_neg (fun k => hd k.1.symm)]
    have hset : (Machine.releaseHeld send v).settings = s.settings := by rw [r3, k2.settings]; rfl
    refine ⟨Settled.of r1 fun m => ?_, hset, fun d hd => (hcd d).trans (hne d hd), ?_⟩
    · have ha : (Machine.releaseHeld send v).affected m = v.affected m := affected_fis (by rw [r2]) (by rw [r2]) m
      have mono : v.affected m = true → s.affected m = true := affected_mono (s := s) (t := v) (fun d hd => by
        have : v.cause d = s1.cause d := by unfold State.cause; rw [k2.fis]
        rw [this] at hd
        by_cases hdc : d = c
        · subst hdc; rw [hx] at hd; cases hd
        · rw [hne d hdc] at hd; exact hd) (by rw [k2.fis]; rfl) m
      unfold State.firstState State.params
      rw [hset, ha]
      cases (s.settings.machines.common.get m).enabled
      · simp
      · cases hv : v.affected m
        · cases s.affected m <;> simp
        · rw [mono hv]; simp
    · rw [hcd, hx]; exact nofun
  · rename_i hn
    refine ⟨h, rfl, fun _ _ => rfl, fun ha hcl => ?_⟩
    by_contra hp
    apply hn
    refine ⟨ha, hcl, Bool.eq_false_iff.mpr hp, ?_⟩
    rw [List.all_eq_true]
    intro m _
    rw [Resting.allLetGo h, Bool.or_true]

/-- The SELF causes that came back with their conditions absent are all cleared (R116). -/
theorem Settled.selfClears (h : Settled s) : Settled (causeIndexes.foldl (fun s c => Machine.trySelfClear send c s) s) ∧
    Undisturbed (causeIndexes.foldl (fun s c => Machine.trySelfClear send c s) s) := by
  have key : ∀ (cs done : List Nat) {u : State}, (∀ c ∈ cs, c < 16) → Settled u → u.settings = s.settings →
      (∀ c ∈ done, (u.cause c).active = true → (s.causeSetting c).cls = .self → (u.cause c).present = true) →
      let v := cs.foldl (fun s c => Machine.trySelfClear send c s) u
      Settled v ∧ v.settings = s.settings ∧
        ∀ c ∈ done ++ cs, (v.cause c).active = true → (s.causeSetting c).cls = .self → (v.cause c).present = true := by
    intro cs
    induction cs with
    | nil => intro done u _ hu hs hd; exact ⟨hu, hs, by rw [List.append_nil]; exact hd⟩
    | cons c cs ih =>
      intro done u hcs hu hs hd
      obtain ⟨a1, a2, a3, a4⟩ := hu.trySelfClear (hcs c List.mem_cons_self)
      have := ih (done ++ [c]) (fun d hd => hcs d (List.mem_cons_of_mem _ hd)) a1 (a2.trans hs) (fun d hdm ha hcl => by
        by_cases hdc : d = c
        · subst hdc
          refine a4 ha ?_
          unfold State.causeSetting at hcl ⊢; rw [hs]; exact hcl
        · rw [a3 d hdc] at ha ⊢
          rcases List.mem_append.mp hdm with k | k
          · exact hd d k ha hcl
          · exact absurd (List.mem_singleton.mp k) hdc)
      rw [List.append_assoc] at this
      exact this
  obtain ⟨a1, a2, a3⟩ := key causeIndexes [] (by decide) h rfl (fun _ k => nomatch k)
  refine ⟨a1, a1.noHost, fun c hc ha hcl => a3 c ?_ ha ?_⟩
  · rw [List.nil_append]; exact List.mem_range.mpr hc
  · unfold State.causeSetting at hcl ⊢; rw [a2] at hcl; exact hcl

/-! ## The set-up -/

theorem firstState_eq (h1 : t.settings = s.settings) (h2 : t.fis = s.fis) (m : MachineId) : t.firstState m = s.firstState m :=
  firstState_of h1 (fun m => affected_fis (by rw [h2]) (by rw [h2]) m) m

/-- The channels as they are set up, one after another (R2, R66). -/
theorem stage3_channels (s : State) : (∀ m, (stage3 s).chan m = ((samples s).chan m).inState (s.firstState m)) ∧
    (stage3 s).sfe.creepRef = if s.firstState .w = .idle then some s.sfe.rode else none := by
  have h0 : ∀ m, (samples s).firstState m = s.firstState m := firstState_eq rfl rfl
  have h1 : ∀ m, (setUpChannel (samples s) .w).firstState m = s.firstState m := fun m =>
    (firstState_eq (setUpChannel_keeps _ _).2.2.2.2.2.1 (setUpChannel_keeps _ _).1 m).trans (h0 m)
  have h2 : ∀ m, (setUpChannel (setUpChannel (samples s) .w) .p).firstState m = s.firstState m := fun m =>
    (firstState_eq (setUpChannel_keeps _ _).2.2.2.2.2.1 (setUpChannel_keeps _ _).1 m).trans (h1 m)
  refine ⟨fun m => ?_, ?_⟩
  · cases m
    · show ((samples s).chan .w).inState ((samples s).firstState .w) = _
      rw [h0]
    · show ((samples s).chan .p).inState ((setUpChannel (samples s) .w).firstState .p) = _
      rw [h1]
    · show ((samples s).chan .h).inState ((setUpChannel (setUpChannel (samples s) .w) .p).firstState .h) = _
      rw [h2]
  · show (setChan .w _ (samples s)).creepRefFor ((samples s).firstState .w) = _
    rw [h0]
    unfold State.creepRefFor
    cases hs : s.firstState .w <;> rfl

/-- The later stages leave the channels and the creep reference alone. -/
theorem stage45_keeps (s : State) : (stage5 (stage4 s)).mc = s.mc ∧ (stage5 (stage4 s)).sfe.creepRef = s.sfe.creepRef := by
  have h4 : ∀ (ns : List Nat) (u : State), (ns.foldl setUpSource u).mc = u.mc ∧ (ns.foldl setUpSource u).sfe = u.sfe := by
    intro ns
    induction ns with
    | nil => exact fun _ => ⟨rfl, rfl⟩
    | cons n ns ih =>
      intro u
      rw [List.foldl_cons, (ih _).1, (ih _).2]
      obtain ⟨x, e⟩ := setUpSource_keeps u n
      rw [e]; exact ⟨rfl, rfl⟩
  have h7 : ∀ (u : State) (f : Seu → Seu), (u.onSeu f).mc = u.mc ∧ (u.onSeu f).sfe = u.sfe := fun _ _ => ⟨rfl, rfl⟩
  have h6 : ∀ u : State, (setItems u).mc = u.mc ∧ (setItems u).sfe = u.sfe := fun u => by
    unfold setItems
    exact h7 _ _
  have h5 : ∀ u : State, (stage5 u).mc = u.mc ∧ (stage5 u).sfe.creepRef = u.sfe.creepRef := fun u => by
    unfold stage5
    rw [(h6 _).1, (h6 _).2, (h6 _).1, (h6 _).2, firstWrite_keeps]
    exact ⟨rfl, rfl⟩
  obtain ⟨a1, a2⟩ := h4 (List.range 3) (s.onSiq Siq.setUp)
  obtain ⟨b1, b2⟩ := h5 (stage4 s)
  exact ⟨b1.trans a1, b2.trans (congrArg Sfe.creepRef a2)⟩

theorem samples_live (s : State) (m : MachineId) : ((samples s).chan m).live = (s.chan m).live := by cases m <;> rfl

/-- Without host entries and live runs the set-up leaves every channel at rest (R2, R41, R66). -/
theorem settled_setUp (hn : NoHostEntries s) (hl : ∀ m, (s.chan m).live = none) : Settled (setUp s) := by
  have k := setUp_keeps s
  let s2 := stage2 (stage1 s)
  have e1 := stage1_eq s
  obtain ⟨c1, c2⟩ := stage3_channels s2
  obtain ⟨m1, m2⟩ := stage45_keeps (stage3 s2)
  have hf : ∀ m, (setUp s).firstState m = s2.firstState m := firstState_eq
    (k.settings.trans (by show _ = (stage1 s).settings; rw [e1]; rfl)) (k.fis.trans (stage1_fis s).symm)
  have hlive : ∀ m, ((samples s2).chan m).live = none := fun m => by
    rw [samples_live]
    show ((stage1 s).chan m).live = none
    rw [e1]; exact hl m
  have hchan : ∀ m, (setUp s).chan m = ((samples s2).chan m).inState (s2.firstState m) := fun m => by
    rw [← c1]; show (State.chan (stage5 (stage4 (stage3 s2))) m) = _
    unfold State.chan; rw [m1]
  have hq : ∀ m, s2.firstState m = .idle ∨ s2.firstState m = .held ∨ s2.firstState m = .disabled := fun m => by
    unfold State.firstState
    repeat' split
    · exact .inr (.inl rfl)
    · exact .inl rfl
    · exact .inr (.inr rfl)
  refine Settled.of (st := s2.firstState) ⟨hn.of_settings k.settings, fun i => ?_, ?_, hq, fun m => ?_, ?_⟩ hf
  · have : (setUp s).input i = (s.input i).setUp := by unfold State.input; rw [k.siq, setUp_input]
    rw [this]
    unfold HoldRec.setUp
    dsimp only
    split
    · exact .inl rfl
    · exact .inr rfl
  · rw [k.hsc]; exact ⟨rfl, rfl, rfl, rfl, rfl, rfl⟩
  · rw [hchan]
    rcases hq m with h | h | h <;> rw [h] <;> exact ⟨rfl, hlive m, rfl, rfl, rfl, rfl⟩
  · rw [k.rode]
    show (stage5 (stage4 (stage3 s2))).sfe.creepRef = _
    rw [m2, c2]
    have : s2.sfe.rode = s.sfe.rode := by show (stage1 s).sfe.rode = _; rw [e1]; rfl
    rw [this]

theorem calm_activateHeld (s : State) : Calm s (activateHeld s) := by
  unfold activateHeld
  exact calm_foldl _ _ (fun s m => by split; exact calm_activate m s; exact .refl s) s

/-- The end of initialization, without host entries and coming from a reset: every channel rests where its Enabled flag and the active
causes put it (R2, R41, R66, R182). -/
theorem settled_endOfInitialization (hp : s.phase = .initializing) (hn : NoHostEntries s) (hl : ∀ m, (s.chan m).live = none) :
    Settled (endOfInitialization send s) := by
  have h0 := settled_setUp hn hl
  have k := calm_activateHeld (setUp s)
  have h1 : Settled (activateHeld (setUp s)) := Settled.of (Resting.calm h0 k) (firstState_eq k.settings k.fis)
  obtain ⟨h2, u2⟩ := h1.selfClears
  unfold endOfInitialization
  rw [hp]
  dsimp only
  generalize causeIndexes.foldl (fun s c => Machine.trySelfClear send c s) (activateHeld (setUp s)) = v at *
  have h3 : Settled (if v.pins.estop = true then Machine.report send causeEstop true v else v) ∧
      Undisturbed (if v.pins.estop = true then Machine.report send causeEstop true v else v) := by
    split
    · exact h2.report u2 (by decide)
    · exact ⟨h2, u2⟩
  generalize (if v.pins.estop = true then Machine.report send causeEstop true v else v) = w at *
  split
  · exact (h3.1.report h3.2 (by decide)).1
  · exact h3.1

end Sys2Proof.Machine
end

