-- ==== Sys2Proof/Laws/SeatSteps.lean ====
section
/-! SUPPORT. Every handling keeps grants, places, ISOLATE, trip, watches and entries together: one lemma for each operation that a command
runs, and every step keeps what holds between the steps. -/

namespace Sys2Proof.Machine

variable {go : Go} {x : Phase} {s t : State}

/-- Between two handlings the part is steady exactly when the properties of Safety.lean hold. -/
theorem steady_rest : Steady (.rest s.phase) s ↔
    Seated s ∧ IsolateShuts s ∧ TripIsolates s ∧ WatchesCurrent s ∧ AsleepOutside s ∧ EntriesAllowed s := by
  refine ⟨fun k => ⟨⟨k.nodup.1, k.nodup.2, fun m => (k.placed m List.not_mem_nil).resolve_right fun h => absurd h.1 List.not_mem_nil⟩,
    k.order, fun h => (k.trip h).resolve_right Bool.false_ne_true, k.watches.1, k.watches.2, k.entries⟩,
    fun ⟨k1, k2, k3, k4, k5, k6⟩ => ⟨rfl, k6, ⟨k1.1, k1.2.1⟩, fun m hm => absurd hm List.not_mem_nil, fun m _ => .inl (k1.2.2 m), k2,
      fun h => .inl (k3 h), k4, k5⟩⟩

theorem Steady.reports (hgo : Steadies go) (k : Steady (.rest x) s) (c : Nat) (b : Bool) : Steady (.rest x) (Machine.report go c b s) :=
  k.report hgo c b fun _ _ _ => List.not_mem_nil

theorem Steady.reportEvent (hgo : Steadies go) (k : Steady (.rest x) s) (c : Nat) : Steady (.rest x) (reportEvent go c s) :=
  (k.reports hgo c true).reports hgo c false

theorem Steady.tries (hgo : Steadies go) (k : Steady (.rest x) s) (m : MachineId) : Steady (.rest x) (go (.tryStart m) s) :=
  hgo.keeps _ _ _ trivial k

theorem Steady.reconsiderIsolate (hgo : Steadies go) (k : Steady (.rest x) s) : Steady (.rest x) (reconsiderIsolate go s) := by
  unfold Machine.reconsiderIsolate
  dsimp only
  split
  · exact k.assertIsolate hgo rfl false
  · split
    · rename_i h
      have ht : s.fis.trip.isSome = false := by
        cases hh : s.fis.trip.isSome
        · rfl
        · simp [hh] at h
      have k0 : Steady (.rest x) (s.onHsc fun h => { h with isolate := false }) :=
        ⟨k.phase, k.entries, k.nodup, k.adrift, k.placed, fun h => absurd h Bool.false_ne_true, fun h => absurd (ht.symm.trans h) Bool.false_ne_true, k.watches⟩
      unfold releaseIsolate
      exact steady_foldl _ (fun u m _ h => (h.tries hgo m).publish hgo _) (k0.publishAll hgo _)
    · exact k

theorem Steady.addFaulted (hgo : Steadies go) (k : Steady (.rest x) s) (i : HoldInput) : Steady (.rest x) (addFaulted go i s) := by
  unfold Machine.addFaulted
  dsimp only
  have k1 : Steady (.rest x) (Machine.report go causeStationChannel true (setFaulted i true s)) :=
    Steady.reports (s := setFaulted i true s) hgo k.of_same _ _
  refine steady_ite (fun _ => ?_) fun _ => k1
  have k2 := (k1.hold hgo (m := i.machine) List.not_mem_nil causeStationChannel .later).activate i.machine
  exact steady_ite (fun _ => k2) fun _ => k2.afterRelease hgo _

theorem Steady.removeFaulted (hgo : Steadies go) (k : Steady (.rest x) s) (i : HoldInput) : Steady (.rest x) (removeFaulted go i s) := by
  unfold Machine.removeFaulted
  have k0 : Steady (.rest x) (setFaulted i false s) := k.of_same
  exact (steady_ite (fun _ => k0) fun _ => k0.reports hgo _ _).releaseHeld hgo

theorem Steady.foldClear (hgo : Steadies go) (k : Steady (.rest x) s) (y : ClearMeans) (cs : List Nat) :
    Steady (.rest x) (cs.foldl (fun s c => Machine.clearCause go c y s) s) :=
  steady_foldl _ (fun _ c _ h => h.clearCause hgo c y) k

/-! ## The store -/

theorem Steady.beginWrite (k : Steady (.rest x) s) : Steady (.rest x) (beginWrite s) := by
  have h : EntriesAllowed (Machine.beginWrite s) := by
    unfold Machine.beginWrite
    split
    · rename_i n _ _ _ _ _
      refine ⟨k.entries.1, k.entries.2.1, fun w y hw hy => ?_⟩
      injection hw with hw
      rw [← hw] at hy
      cases n <;> simp only [contentsNow] at hy <;> first | contradiction | (injection hy with hy; rw [← hy]; exact k.entries.1)
    · exact k.entries
  rw [beginWrite_eq] at h ⊢
  exact ⟨k.phase, h, k.nodup, k.adrift, k.placed, k.order, k.trip, k.watches⟩

theorem store_interlocks (u : Sto) (d : SectionData) (ok : Bool) (hu : InterlocksAllowed u.interlocks.content)
    (hd : ∀ y, d = .interlocks y → InterlocksAllowed y) : InterlocksAllowed (u.store d ok).interlocks.content := by
  cases d <;> first
    | exact hu
    | (cases ok
       · exact hu
       · exact hd _ rfl)

theorem Steady.storeWriteCompletion (hgo : Steadies go) (k : Steady (.rest x) s) (ok : Bool) :
    Steady (.rest x) (storeWriteCompletion go ok s) := by
  unfold Machine.storeWriteCompletion
  split
  · exact k
  · rename_i w hw
    have k0 : Steady (.rest x) (s.onSto fun t => { (t.store w.data ok) with writing := none }) :=
      ⟨k.phase, ⟨k.entries.1, store_interlocks _ _ _ k.entries.2.1 fun y hy => k.entries.2.2 w y hw hy, fun _ _ h => by cases h⟩, k.nodup,
        k.adrift, k.placed, k.order, k.trip, k.watches⟩
    exact (steady_ite (fun _ => k0.queueEvent _) fun _ => k0).beginWrite.publish hgo _

/-! ## Samples -/

theorem Steady.setSensors (k : Steady (.rest x) s) (m : MachineId) (y : SensorRec) : Steady (.rest x) (setSensors m y s) := by
  cases m <;> exact k.of_same

theorem Steady.takeCounts (k : Steady (.rest x) s) (m : MachineId) (a b : Nat) : Steady (.rest x) (takeCounts m a b s) := by
  unfold Machine.takeCounts
  refine (k.setSensors m _).setChan_same m _ ?_
  cases m <;> rfl

theorem Steady.checkOvertravel (hgo : Steadies go) (k : Steady (.rest x) s) (m : MachineId) : Steady (.rest x) (checkOvertravel go m s) :=
  steady_ite (fun _ => k) fun _ => (k.setSensors m _).reports hgo _ _

theorem Steady.checkDisagreement (hgo : Steadies go) (k : Steady (.rest x) s) (m : MachineId) :
    Steady (.rest x) (checkDisagreement go m s) := by
  unfold Machine.checkDisagreement
  dsimp only
  repeat' split
  · exact (k.setSensors m _).reports hgo _ _
  · exact k.setSensors m _
  · exact (k.setSensors m _).reports hgo _ _
  · exact k.setSensors m _

theorem Steady.handDemand (hgo : Steadies go) (k : Steady (.rest x) s) (m : MachineId) (v : Nat) : Steady (.rest x) (handDemand go m v s) :=
  steady_ite (fun _ => (k.setChan_same m { s.chan m with demand := v, flow := flowRequest v (s.params m).qmax } rfl).recompute hgo)
    fun _ => k

theorem Steady.stoppingSample (hgo : Steadies go) (k : Steady (.rest x) s) {m : MachineId} (hs : (s.chan m).state = .stopping) :
    Steady (.rest x) (stoppingSample go m s) :=
  steady_ite (fun _ => k.stopComplete hgo List.not_mem_nil hs) fun _ => k.handDemand hgo m _

theorem Steady.mcSample (hgo : Steadies go) (k : Steady (.rest x) s) (m : MachineId) : Steady (.rest x) (mcSample go m s) := by
  unfold Machine.mcSample
  split
  · rename_i hs
    unfold movingSample
    split
    · exact k
    · split
      · rename_i y _
        have k1 := k.noteReason m y
        have h1 : ((Machine.noteReason m y s).chan m).state = .moving := (noteReason_state m y s).trans hs
        refine Steady.stoppingSample hgo (Steady.enter hgo m .stopping (k1.goes List.not_mem_nil (by rw [h1]; decide) (by decide)
          (by rw [h1]; rfl))) ?_
        exact enter_state hgo m .stopping k1.entries (by rw [h1]; rfl)
      · exact k.handDemand hgo m _
  · rename_i hs
    exact k.stoppingSample hgo hs
  all_goals exact k

theorem Steady.positionSample (hgo : Steadies go) (k : Steady (.rest x) s) (y : Sample) : Steady (.rest x) (positionSample go y s) := by
  unfold Machine.positionSample
  have k0 : Steady (.rest x) (s.onPins fun p => p.withSample y) := k.of_same
  have sensor : ∀ m a b, Steady (.rest x) (sensorSample go m a b (s.onPins fun p => p.withSample y)) := fun m a b =>
    ((((((k0.takeCounts m a b).publishAll hgo _).refreshDisplay m).checkOvertravel hgo m).checkDisagreement hgo m).mcSample hgo m)
  dsimp only
  split
  · split
    · exact ((k0.setChan_same .w _ (by rfl)).refreshDisplay .w).mcSample hgo .w
    · exact sensor _ _ _
    · exact sensor _ _ _
  · exact k0

theorem Steady.refreshTimerExpiry (hgo : Steadies go) (k : Steady (.rest x) s) (m : MachineId) :
    Steady (.rest x) (refreshTimerExpiry go m s) := by
  unfold Machine.refreshTimerExpiry
  split
  · exact (k.setChan_same m { s.chan m with refresh := none } rfl).endRun hgo m _
  · exact k

/-! ## Windlass -/

theorem Steady.creepCheck (hgo : Steadies go) (k : Steady (.rest x) s) : Steady (.rest x) (creepCheck go s) := by
  unfold Machine.creepCheck
  split
  · exact steady_ite (fun _ => k.reports hgo _ _) fun _ => k
  · exact k

theorem Steady.gypARisingEdge (hgo : Steadies go) (k : Steady (.rest x) s) (b : Bool) : Steady (.rest x) (gypARisingEdge go b s) := by
  have k0 : Steady (.rest x)
      (s.onSfe fun f => { f with rode := nextRode s.pins.home s.settings.machines.windlass.rodeMax s.sfe.rode b }) := k.of_same
  unfold Machine.gypARisingEdge
  dsimp only
  generalize s.onSfe (fun f => { f with rode := nextRode s.pins.home s.settings.machines.windlass.rodeMax s.sfe.rode b }) = u at *
  split
  · exact k
  · exact k0
  · have k1 : Steady (.rest x) (restartStall u) := by
      unfold restartStall
      split
      · exact k0.of_same
      · exact k0
    exact steady_ite (fun _ => (k1.publish hgo _).creepCheck hgo) fun _ => k1.publish hgo _

theorem Steady.homeChange (hgo : Steadies go) (k : Steady (.rest x) s) (c : Bool) : Steady (.rest x) (homeChange go c s) := by
  unfold Machine.homeChange
  refine steady_ite (fun _ => k) fun _ => ?_
  dsimp only
  split
  · exact k.of_same
  · cases c <;> exact k.of_same
  · cases c
    · exact Steady.publish hgo (s := s.onPins _) k.of_same _
    · have k1 := Steady.publishAll hgo
        (s := (s.onPins fun p => { p with home := true }).onSfe fun f => { f with rode := 0, rodeUnknown := false })
        k.of_same [Item.atHome, Item.rodeUnknown, Item.atRodeMax]
      exact (steady_ite (fun _ => k1.requestWrite hgo _ _) fun _ => k1).creepCheck hgo

theorem Steady.onSfe (k : Steady (.rest x) s) (f : Sfe → Sfe) : Steady (.rest x) (s.onSfe f) := k.of_same

theorem Steady.onPins (k : Steady (.rest x) s) (f : Pins → Pins) : Steady (.rest x) (s.onPins f) := k.of_same

theorem Steady.onSiq (k : Steady (.rest x) s) (f : Siq → Siq) : Steady (.rest x) (s.onSiq f) := k.of_same

theorem Steady.onZae (k : Steady (.rest x) s) (f : Zae → Zae) : Steady (.rest x) (s.onZae f) := k.of_same

theorem Steady.onInd (k : Steady (.rest x) s) (f : Ind → Ind) : Steady (.rest x) (s.onInd f) := k.of_same

theorem Steady.onSlp (k : Steady (.rest x) s) (f : Slp → Slp) (h : (f s.slp).inService = s.slp.inService) : Steady (.rest x) (s.onSlp f) :=
  k.of_same (h13 := h)

theorem Steady.settings (k : Steady (.rest x) s) (f : Settings → Settings) (h : (f s.settings).interlocks = s.settings.interlocks) :
    Steady (.rest x) (s.onSettings f) := k.of_same (h1 := h)

theorem Steady.wOvldChange (hgo : Steadies go) (k : Steady (.rest x) s) (a : Bool) : Steady (.rest x) (wOvldChange go a s) := by
  unfold Machine.wOvldChange
  refine steady_ite (fun _ => k) fun _ => ?_
  refine steady_ite (fun _ => ?_) fun _ => k.onPins _
  have k1 := (k.onPins fun p => { p with wOvld := a }).publish hgo Item.overloadIn
  exact steady_ite (fun _ => k1.onSfe _) fun _ => steady_ite (fun _ => (k1.onSfe _).reports hgo _ _) fun _ => k1.onSfe _

theorem Steady.overloadQualifyTimerExpiry (hgo : Steadies go) (k : Steady (.rest x) s) :
    Steady (.rest x) (overloadQualifyTimerExpiry go s) := by
  unfold Machine.overloadQualifyTimerExpiry
  split
  · exact (k.onSfe _).reports hgo _ _
  · exact k

theorem Steady.stallTimerExpiry (hgo : Steadies go) (k : Steady (.rest x) s) : Steady (.rest x) (stallTimerExpiry go s) := by
  unfold Machine.stallTimerExpiry
  split
  · exact (k.onSfe _).reportEvent hgo _
  · exact k

/-! ## Plant -/

theorem Steady.reacts (k : Steady (.rest x) s) {f : State → State} (hf : Steady (.rest x) s → Steady (.rest x) (f s)) :
    Steady (.rest x) (reacts f s) := steady_ite (fun _ => hf k) fun _ => k

theorem Steady.pressureOkChange (hgo : Steadies go) (k : Steady (.rest x) s) (a : Bool) : Steady (.rest x) (pressureOkChange go a s) := by
  unfold Machine.pressureOkChange
  refine steady_ite (fun _ => k) fun _ => (k.onPins _).reacts fun k0 => ?_
  have k1 := k0.publish hgo Item.pressureOk
  refine steady_ite (fun _ => ?_) fun _ => ?_
  · unfold pressureAppears
    split
    · exact k1.judgeAttempt hgo
    all_goals exact k1.of_same
  · unfold pressureGoes
    split
    all_goals exact k1.of_same

theorem Steady.primeTimerExpiry (hgo : Steadies go) (k : Steady (.rest x) s) : Steady (.rest x) (primeTimerExpiry go s) := by
  unfold Machine.primeTimerExpiry
  split
  · rename_i h _
    have hf : Free (.rest x) s := k.free (by rw [h]; decide)
    exact steady_ite (fun _ => k.setPump hgo _ _ _ (.inr hf)) fun _ => (k.setPump hgo _ _ _ (.inl rfl)).reportEvent hgo _
  · exact k

theorem Steady.pumpGapExpiry (hgo : Steadies go) (k : Steady (.rest x) s) : Steady (.rest x) (pumpGapExpiry go s) := by
  unfold Machine.pumpGapExpiry
  split
  · rename_i h _
    exact k.beginAttempt hgo _ (k.free (by rw [h]; decide))
  · exact k

theorem Steady.runOnTimerExpiry (hgo : Steadies go) (k : Steady (.rest x) s) : Steady (.rest x) (runOnTimerExpiry go s) := by
  unfold Machine.runOnTimerExpiry
  split
  · exact k.setPump hgo _ _ _ (.inl rfl)
  · exact k

theorem Steady.pressureLossTimerExpiry (hgo : Steadies go) (k : Steady (.rest x) s) : Steady (.rest x) (pressureLossTimerExpiry go s) := by
  unfold Machine.pressureLossTimerExpiry
  split
  · exact (k.setPump hgo _ _ _ (.inl rfl)).reportEvent hgo _
  · exact k

theorem Steady.oilHotChange (hgo : Steadies go) (k : Steady (.rest x) s) (a : Bool) : Steady (.rest x) (oilHotChange go a s) :=
  steady_ite (fun _ => k) fun _ => (k.onPins _).reacts fun k0 => (k0.publish hgo _).reports hgo _ _

theorem Steady.serviceInputChange (hgo : Steadies go) (k : Steady (.rest x) s) (a : Bool) : Steady (.rest x) (serviceInputChange go a s) :=
  steady_ite (fun _ => k) fun _ => (k.onPins _).reacts fun k0 => k0.publish hgo _

theorem Steady.estopChange (hgo : Steadies go) (k : Steady (.rest x) s) (a : Bool) : Steady (.rest x) (estopChange go a s) :=
  steady_ite (fun _ => k) fun _ => (k.onPins _).reacts fun k0 => ((k0.publish hgo _).reports hgo _ _).reconsiderIsolate hgo

theorem Steady.pinsUlChange (hgo : Steadies go) (k : Steady (.rest x) s) (a : Bool) : Steady (.rest x) (pinsUlChange go a s) := by
  unfold Machine.pinsUlChange
  refine steady_ite (fun _ => k) fun _ => (k.onPins _).reacts fun k0 => ?_
  have k1 := k0.publish hgo Item.pinsUnlocked
  dsimp only
  split
  · rename_i h
    exact Steady.enterMoving hgo List.not_mem_nil (k1.seat List.not_mem_nil (by rw [h]; rfl))
  · exact k1.reportEvent hgo _
  · exact k1

theorem Steady.pinsLkChange (hgo : Steadies go) (k : Steady (.rest x) s) (a : Bool) : Steady (.rest x) (pinsLkChange go a s) := by
  unfold Machine.pinsLkChange
  refine steady_ite (fun _ => k) fun _ => (k.onPins _).reacts fun k0 => ?_
  have k1 := k0.publishAll hgo [Item.pinsLocked, Item.unsecured]
  dsimp only
  split
  · exact Steady.leave hgo List.not_mem_nil rfl (by decide) _ (k1.handsBack .h)
  · exact k1

theorem Steady.pinTimerExpiry (hgo : Steadies go) (k : Steady (.rest x) s) : Steady (.rest x) (pinTimerExpiry go s) := by
  unfold Machine.pinTimerExpiry
  split
  · exact k.reportEvent hgo _
  · exact k

theorem Steady.plainInputChange (hgo : Steadies go) (k : Steady (.rest x) s) (i : PlainInput) (a : Bool) :
    Steady (.rest x) (plainInputChange go i a s) := (k.onPins _).reacts fun k0 => k0.publish hgo _

/-! ## Stations -/

theorem Steady.inputBecomes (hgo : Steadies go) (k : Steady (.rest x) s) (i : HoldInput) (y : HoldRec) :
    Steady (.rest x) (inputBecomes go i y s) := by
  unfold Machine.inputBecomes
  dsimp only
  have k1 := (k.setInput i y).publishAll hgo (inputItems i)
  refine steady_ite (fun _ => k1) fun _ => ?_
  split
  · exact k1.becameValid hgo i
  · exact k1.enteredReleased hgo i
  all_goals exact k1

theorem Steady.holdToRunLevelChange (hgo : Steadies go) (k : Steady (.rest x) s) (i : HoldInput) (a b : Bool) :
    Steady (.rest x) (holdToRunLevelChange go i a b s) :=
  steady_ite (fun _ => k) fun _ => steady_ite (fun _ => k.inputBecomes hgo _ _) fun _ => k.setInput _ _

theorem Steady.qualifyTimerExpiry (hgo : Steadies go) (k : Steady (.rest x) s) (i : HoldInput) :
    Steady (.rest x) (qualifyTimerExpiry go i s) := steady_ite (fun _ => k.inputBecomes hgo _ _) fun _ => k

theorem Steady.disagreeTimerExpiry (hgo : Steadies go) (k : Steady (.rest x) s) (i : HoldInput) :
    Steady (.rest x) (disagreeTimerExpiry go i s) := steady_ite (fun _ => (k.inputBecomes hgo _ _).addFaulted hgo i) fun _ => k

theorem Steady.releaseTimerExpiry (hgo : Steadies go) (k : Steady (.rest x) s) (i : HoldInput) :
    Steady (.rest x) (releaseTimerExpiry go i s) := by
  unfold Machine.releaseTimerExpiry
  dsimp only
  refine steady_ite (fun _ => ?_) fun _ => k
  have k1 := (k.setInput i ((s.input i).goes .released none)).publishAll hgo (inputItems i)
  split
  · exact (k1.pressEnded hgo i).enteredReleased hgo i
  · exact (k1.removeFaulted hgo i).enteredReleased hgo i
  · exact k1.enteredReleased hgo i
  all_goals exact k1

theorem Steady.buttonLevelChange (k : Steady (.rest x) s) (c : ContactId) (v : Bool) : Steady (.rest x) (buttonLevelChange c v s) :=
  steady_ite (fun _ => k) fun _ => steady_ite (fun _ => k.onSiq _) fun _ => k.onSiq _

theorem Steady.setZone (k : Steady (.rest x) s) (z : Nat) (y : ZoneRec) : Steady (.rest x) (setZone z y s) := k.of_same

theorem Steady.setZoneQuiet (hgo : Steadies go) (k : Steady (.rest x) s) (z : Nat) (q : Bool) : Steady (.rest x) (setZoneQuiet go z q s) :=
  steady_ite (fun _ => k) fun _ => ((k.setZone z _).publish hgo _).reconsiderLists hgo

theorem Steady.debounceTimerExpiry (hgo : Steadies go) (k : Steady (.rest x) s) (c : ContactId) :
    Steady (.rest x) (debounceTimerExpiry go c s) := by
  unfold Machine.debounceTimerExpiry
  dsimp only
  refine steady_ite (fun _ => ?_) fun _ => k
  have k1 : ∀ y, Steady (.rest x) (Machine.publishAll go (contactItems c) (s.onSiq (setContact c y))) := fun y => (k.onSiq _).publishAll hgo _
  refine steady_ite (fun _ => steady_ite (fun _ => ?_) fun _ => k1 _) fun _ => ?_
  · unfold contactPress
    split
    · exact (k1 _).activate _
    · exact (k1 _).onSiq _
    · unfold guestKeyPress
      split
      · exact ((k1 _).setZoneQuiet hgo _ _).queueEvent _
      · exact (k1 _).queueEvent _
  · unfold contactRelease
    split
    · exact (k1 _).onSiq _
    all_goals exact k1 _

theorem Steady.longPressTimerExpiry (hgo : Steadies go) (k : Steady (.rest x) s) (m : MachineId) :
    Steady (.rest x) (longPressTimerExpiry go m s) := by
  unfold Machine.longPressTimerExpiry
  split
  · exact k
  · exact (k.onSiq _).foldClear hgo _ _

/-! ## Indicators, sources and output frames -/

theorem Steady.rampExpiry (k : Steady (.rest x) s) (m : MachineId) : Steady (.rest x) (rampExpiry m s) :=
  steady_ite (fun _ => ((k.setDisplay m _).continueRamp m).judgeOverlay m) fun _ => k

theorem Steady.holdExpiry (k : Steady (.rest x) s) (m : MachineId) : Steady (.rest x) (holdExpiry m s) :=
  steady_ite (fun _ => k.setDisplay m _) fun _ => k

theorem Steady.overlayExpiry (k : Steady (.rest x) s) (m : MachineId) : Steady (.rest x) (overlayExpiry m s) :=
  steady_ite (fun _ => k.setDisplay m _) fun _ => k

theorem Steady.flashClockExpiry (k : Steady (.rest x) s) : Steady (.rest x) (flashClockExpiry s) :=
  steady_ite (fun _ => k.onInd _) fun _ => k

theorem Steady.setSource (k : Steady (.rest x) s) (n : Nat) (y : SourceRec) : Steady (.rest x) (setSource n y s) := k.of_same

theorem Steady.adopt (hgo : Steadies go) (k : Steady (.rest x) s) (n : Nat) (c : RateClass) : Steady (.rest x) (adopt go n c s) :=
  ((k.setSource n _).publishAll hgo _).queueEvent _

theorem Steady.sourceFrameArrival (hgo : Steadies go) (k : Steady (.rest x) s) (n : Nat) (l r : BitVec 32) (e : Nat) :
    Steady (.rest x) (sourceFrameArrival go n l r e s) := by
  unfold Machine.sourceFrameArrival
  dsimp only
  refine steady_ite (fun _ => k) fun _ => steady_ite (fun _ => k.setSource n _) fun _ => ?_
  have k1 : ∀ y, Steady (.rest x) (Machine.publishAll go (sourceItems n) (Machine.setSource n y s)) := fun y => (k.setSource n y).publishAll hgo _
  refine steady_ite (fun _ => ?_) fun _ => k1 _
  unfold closeMeasurement
  dsimp only
  split
  · exact steady_ite (fun _ => ((k1 _).setSource n _).adopt hgo n _) fun _ => (k1 _).setSource n _
  · exact (k1 _).setSource n _

theorem Steady.frameTimerExpiry (hgo : Steadies go) (k : Steady (.rest x) s) (n : Nat) : Steady (.rest x) (frameTimerExpiry go n s) := by
  unfold Machine.frameTimerExpiry
  dsimp only
  split
  · exact k
  · exact steady_ite (fun _ => k.setSource n _) fun _ => (k.setSource n _).adopt hgo n _

theorem Steady.outputFrame (hgo : Steadies go) (k : Steady (.rest x) s) : Steady (.rest x) (outputFrame go s) := by
  unfold Machine.outputFrame
  refine steady_ite (fun _ => ?_) fun _ => k
  exact Steady.endPageIfDone hgo (Steady.publishAll hgo (Steady.of_same k) _)

/-! ## Requests -/

theorem Steady.replied {p : Point} {y : Status} {f : List Byte} (k : Steady p s) : Steady p (reply y f s).1 := k

theorem Steady.setMachines (k : Steady (.rest x) s) (y : MachineSettings) : Steady (.rest x) (setMachines y s) := k.settings _ rfl

theorem Steady.applyEnabled (hgo : Steadies go) (k : Steady (.rest x) s) (m : MachineId) : Steady (.rest x) (applyEnabled go m s) := by
  have go' : ∀ st : ChanState, (s.chan m).state ≠ .waiting → (s.chan m).state.isGranted = false → st.isGranted = false → st ≠ .waiting →
      Steady (.rest x) (Machine.enter go m st s) := fun st h1 h2 h3 h4 =>
    Steady.enter hgo m st (k.goes List.not_mem_nil h1 h4 (h3.trans h2.symm))
  unfold Machine.applyEnabled
  split
  · rename_i h _; exact go' _ (by rw [h]; decide) (by rw [h]; rfl) rfl (by decide)
  · rename_i h _; exact go' _ (by rw [h]; decide) (by rw [h]; rfl) rfl (by decide)
  · rename_i h _
    exact steady_ite (fun _ => go' _ (by rw [h]; decide) (by rw [h]; rfl) rfl (by decide)) fun _ =>
      (go' _ (by rw [h]; decide) (by rw [h]; rfl) rfl (by decide)).tries hgo m
  · exact k

theorem Steady.applyParams (hgo : Steadies go) (k : Steady (.rest x) s) (m : MachineId) : Steady (.rest x) (applyParams go m s) := by
  cases m with
  | w =>
    refine Steady.refreshDisplay ?_ _
    exact steady_ite (fun _ => ((k.onSfe _).publish hgo _).requestWrite hgo _ _) fun _ => k.publish hgo _
  | p => exact k.setSensors .p _
  | h => exact k.setSensors .h _

theorem Steady.serveConfigureMachine (hgo : Steadies go) (k : Steady (.rest x) s) (b : Byte) (f : MachineFields) :
    Steady (.rest x) (serveConfigureMachine go b f s).1 := by
  unfold Machine.serveConfigureMachine
  split
  · split
    · exact k
    · split
      · exact k
      · exact ((k.setMachines _).applyParams hgo _).applyEnabled hgo _
  · exact k

theorem runRefusal_none {m : MachineId} {d : Direction} {y : Option Nat} (h : s.runRefusal m d y = none) : s.startCheck m d = .passes := by
  unfold State.runRefusal at h
  split at h
  · cases h
  · cases h
  · split at h <;> cases h
  · assumption

theorem startCheck_idle {m : MachineId} {d : Direction} (h : s.startCheck m d = .passes) : (s.chan m).state = .idle := by
  unfold State.startCheck at h
  dsimp only at h
  by_cases hi : (s.chan m).state = .idle
  · exact hi
  · repeat' split at h
    all_goals contradiction

theorem Steady.serveRun (hgo : Steadies go) (k : Steady (.rest x) s) (b d : Byte) (y : Option Half) :
    Steady (.rest x) (serveRun go b d y s).1 := by
  unfold Machine.serveRun
  split
  · dsimp only
    split
    · exact k
    · rename_i h
      have h := runRefusal_none h
      exact k.createRun hgo _ _ _ (startCheck_idle h) (startCheck_free h)
  · exact k

theorem Steady.serveStop (hgo : Steadies go) (k : Steady (.rest x) s) (b : Byte) : Steady (.rest x) (serveStop go b s).1 := by
  unfold Machine.serveStop
  split
  · exact k
  · exact steady_foldl _ (fun _ m _ h => (h.inhibit hgo m).endRun hgo m _) k

theorem Steady.serveSetRode (hgo : Steadies go) (k : Steady (.rest x) s) (c : Half) : Steady (.rest x) (serveSetRode go c s).1 := by
  unfold Machine.serveSetRode
  dsimp only
  split
  · exact k
  · exact ((k.onSfe _).publishAll hgo _).requestWrite hgo _ _

theorem Steady.serveCalibrate (hgo : Steadies go) (k : Steady (.rest x) s) (b : Byte) (e : Half) :
    Steady (.rest x) (serveCalibrate go b e s).1 := by
  have one : ∀ m y, Steady (.rest x) (calibrateMachine go m y s).1 := fun m y => by
    unfold calibrateMachine
    split
    · exact k
    · dsimp only
      split
      · exact k
      · show Steady (.rest x) (applyCalibration go m _ s)
        unfold applyCalibration
        dsimp only
        have k1 : ∀ p z, Steady (.rest x) (Machine.publish go (Machine.setSensors m z (setSensorParams m p s)) (Item.uncalibrated m)) :=
          fun p z => ((k.setMachines _).setSensors m z).publish hgo _
        exact steady_ite (fun _ => (k1 _ _).tries hgo m) fun _ => k1 _ _
  unfold Machine.serveCalibrate
  split
  · exact one _ _
  · exact one _ _
  · exact k

theorem itemNamed_exists {g p : Byte} {r : ItemRef} (h : itemNamed g p = some r) : r.exists = true := by
  unfold itemNamed at h
  split at h
  · split at h
    · rename_i hp
      injection h with h
      subst h
      exact decide_eq_true hp
    · cases h
  · cases h

/-- An entry that WRITE INTERLOCK takes is allowed once its cap is clamped (R121). -/
theorem entryNamed_allowed {f : EntryFields} {e : InterlockEntry} (h : entryNamed f = some e) : e.clamped.allowed := by
  unfold entryNamed at h
  split at h
  · rename_i r _ _ _ _ hr _ _
    split at h
    · cases h
    · rename_i hf
      injection h with h
      have hx : r.exists = true := itemNamed_exists hr
      have hf : r.followsRunning = false := Bool.eq_false_iff.mpr hf
      subst h
      unfold InterlockEntry.clamped
      dsimp only
      split
      · refine ⟨hx, hf, fun v hv => ?_⟩
        injection hv with hv
        rw [← hv]
        unfold clamp
        omega
      · exact ⟨hx, hf, fun v hv => by cases hv⟩
  · cases h

theorem Steady.replaceEntry (hgo : Steadies go) (k : Steady (.rest x) s) (i : Nat) (e : Option InterlockEntry)
    (he : ∀ y, e = some y → y.allowed) : Steady (.rest x) (replaceEntry go i e s) := by
  unfold Machine.replaceEntry
  dsimp only
  have k1 : Steady (.rest x) (s.onSettings fun t => { t with interlocks := poke t.interlocks (i - builtInEntries) e }) := by
    refine ⟨k.phase, ⟨fun j hj y hy => ?_, k.entries.2⟩, k.nodup, k.adrift, k.placed, k.order, k.trip, k.watches⟩
    have hy : peek (poke s.settings.interlocks (i - builtInEntries) e) j = some y := hy
    rw [peek_poke] at hy
    split at hy
    · exact he y hy
    · exact k.entries.1 j hj y hy
  have k2 := k1.reevaluate hgo (s.onSettings fun t => { t with interlocks := poke t.interlocks (i - builtInEntries) e }).entries
  split
  · exact k2.tries hgo _
  · exact k2

theorem Steady.serveWriteInterlock (hgo : Steadies go) (k : Steady (.rest x) s) (i : Byte) (e : Option EntryFields) :
    Steady (.rest x) (serveWriteInterlock go i e s).1 := by
  unfold Machine.serveWriteInterlock
  split
  · split
    · exact k.replaceEntry hgo _ _ fun _ h => by cases h
    · split
      · exact k
      · rename_i h
        exact k.replaceEntry hgo _ _ fun y hy => by injection hy with hy; rw [← hy]; exact entryNamed_allowed h
  · exact k

theorem Steady.serveConfigureCause (k : Steady (.rest x) s) (c y z : Byte) : Steady (.rest x) (serveConfigureCause c y z s).1 := by
  unfold Machine.serveConfigureCause
  repeat' split
  all_goals first | exact k | exact Steady.replied (k.settings _ (by rfl))

theorem Steady.serveClearFault (hgo : Steadies go) (k : Steady (.rest x) s) (c : Byte) : Steady (.rest x) (serveClearFault go c s).1 := by
  unfold Machine.serveClearFault
  repeat' split
  all_goals first | exact k | exact k.foldClear hgo _ _

theorem Steady.serveServiceClear (hgo : Steadies go) (k : Steady (.rest x) s) (c : Byte) : Steady (.rest x) (serveServiceClear go c s).1 := by
  unfold Machine.serveServiceClear
  split
  · exact k
  · split
    · split
      · exact k
      · rename_i cs _
        have k1 : Steady (.rest x) (clearCauses go .service cs s) := k.foldClear hgo .service cs
        dsimp only
        show Steady (.rest x) (if _ then _ else _)
        refine steady_ite (fun _ => ?_) fun _ => k1
        unfold removeTrip
        have k2 : Steady (.rest x) ((clearCauses go .service cs s).onFis fun f => { f with trip := none }) :=
          ⟨k1.phase, k1.entries, k1.nodup, k1.adrift, k1.placed, k1.order, fun h => absurd h Bool.false_ne_true, k1.watches⟩
        exact (Steady.requestWrite hgo (k2.publish hgo _) _ _).reconsiderIsolate hgo
    · exact k

theorem Steady.serveConfigureStation (k : Steady (.rest x) s) (f : StationFields) : Steady (.rest x) (serveConfigureStation f s).1 := by
  unfold Machine.serveConfigureStation
  repeat' split
  all_goals first | exact k | exact Steady.replied (k.settings _ (by rfl))

theorem Steady.serveConfigureHsu (k : Steady (.rest x) s) (a b : Half) (c : Byte) (d : Half) :
    Steady (.rest x) (serveConfigureHsu a b c d s).1 := by
  unfold Machine.serveConfigureHsu
  split
  · exact Steady.replied (k.settings _ (by rfl))
  · exact k

theorem Steady.serveConfigureSource (hgo : Steadies go) (k : Steady (.rest x) s) (n : Byte) (f : SourceFields) :
    Steady (.rest x) (serveConfigureSource go n f s).1 := by
  have apply' : ∀ n c, Steady (.rest x) (applySource go n c s) := fun n c => by
    unfold applySource
    exact Steady.publishAll hgo (Steady.of_same k) _
  unfold Machine.serveConfigureSource
  split
  · dsimp only
    repeat' split
    all_goals first | exact k | exact apply' _ _
  · exact k

theorem Steady.setZoneConfig (k : Steady (.rest x) s) (z : Nat) (c : ZoneConfig) : Steady (.rest x) (setZoneConfig z c s) :=
  k.settings _ rfl

theorem Steady.serveConfigureZone (hgo : Steadies go) (k : Steady (.rest x) s) (z : Byte) (f : ZoneFields) :
    Steady (.rest x) (serveConfigureZone go z f s).1 := by
  unfold Machine.serveConfigureZone
  split
  · show Steady (.rest x) (if _ then _ else _)
    exact steady_ite (fun _ => k.setZoneConfig _ _) fun _ => (k.setZoneConfig _ _).reconsiderLists hgo
  · exact k

theorem Steady.serveSetVolume (k : Steady (.rest x) s) (z v : Byte) : Steady (.rest x) (serveSetVolume z v s).1 := by
  unfold Machine.serveSetVolume
  split
  · exact k
  · exact k.setZoneConfig _ _

theorem Steady.serveSetQuiet (hgo : Steadies go) (k : Steady (.rest x) s) (z q : Byte) : Steady (.rest x) (serveSetQuiet go z q s).1 := by
  unfold Machine.serveSetQuiet
  split
  · exact k.setZoneQuiet hgo _ _
  · exact k

theorem Steady.serveClearAudioFlags (hgo : Steadies go) (k : Steady (.rest x) s) (y : Byte) :
    Steady (.rest x) (serveClearAudioFlags go y s).1 := by
  unfold Machine.serveClearAudioFlags
  split
  · exact steady_foldl (f := fun s n => Machine.publish go (Machine.setSource n { s.source n with xrun := false } s) (Item.sourceXrun n)) _
      (fun u n _ h => (h.setSource n _).publish hgo _) k
  · exact k

theorem Steady.setClip (k : Steady (.rest x) s) (n : Nat) (c : ClipRec) : Steady (.rest x) (setClip n c s) := k.onZae _

theorem Steady.dropSamples (k : Steady (.rest x) s) (n : Nat) : Steady (.rest x) (dropSamples n s) := k.onZae _

theorem Steady.serveAllocateClip (k : Steady (.rest x) s) (n a c : Byte) : Steady (.rest x) (serveAllocateClip n a c s).1 := by
  unfold Machine.serveAllocateClip
  split
  · exact k
  · repeat' split
    · exact k
    · exact k
    · exact k
    · dsimp only
      exact Steady.replied (((k.dropSamples _).setClip _ _).onZae _)

theorem Steady.serveFreeClip (k : Steady (.rest x) s) (n : Byte) : Steady (.rest x) (serveFreeClip n s).1 := by
  unfold Machine.serveFreeClip
  split
  · exact k
  · split
    · exact k
    · exact Steady.replied (((k.dropSamples _).setClip _ _).onZae _)

theorem Steady.serveClipData (k : Steady (.rest x) s) (n : Byte) (o : Half) (ys : List Half) : Steady (.rest x) (serveClipData n o ys s).1 := by
  unfold Machine.serveClipData
  split
  · exact k
  · split
    · exact k
    · dsimp only
      repeat' split
      · exact k
      · exact k
      · exact Steady.replied (k.onZae _)

theorem Steady.serveClipEnd (k : Steady (.rest x) s) (n : Byte) (l : Half) : Steady (.rest x) (serveClipEnd n l s).1 := by
  unfold Machine.serveClipEnd
  split
  · exact k
  · dsimp only
    repeat' split
    · exact k
    · exact k
    · exact Steady.replied (k.setClip _ _)

theorem Steady.applyAnnounce (hgo : Steadies go) (k : Steady (.rest x) s) (m : MachineId) (r : AnnounceRecord) :
    Steady (.rest x) (applyAnnounce go m r s) := by
  have k1 := (k.settings (fun t => { t with audio := { t.audio with announce := t.audio.announce.set m r } }) rfl).reconsiderLists hgo
  unfold Machine.applyAnnounce
  dsimp only
  generalize Machine.reconsiderLists go _ = u at *
  exact (steady_foldl (f := fun s z => Machine.setZone z (s.repeatRewritten m (s.zone z)) s) zoneIndexes (fun v z _ h => h.setZone z _) k1).publish
    hgo _

theorem Steady.serveConfigureAnnounce (hgo : Steadies go) (k : Steady (.rest x) s) (b : Byte) (f : AnnounceFields) :
    Steady (.rest x) (serveConfigureAnnounce go b f s).1 := by
  unfold Machine.serveConfigureAnnounce
  split
  · exact Steady.replied (k.applyAnnounce hgo _ _)
  · exact k

theorem Steady.servePage (hgo : Steadies go) (k : Steady (.rest x) s) (n z d : Byte) : Steady (.rest x) (servePage go n z d s).1 := by
  have start : ∀ n d y, Steady (.rest x) (startPage go n d y s) := fun n d y => by
    unfold startPage
    dsimp only
    exact Steady.publish hgo (Steady.onZae (steady_foldl
      (f := fun s z => if peek y z = true then Machine.setZone z { s.zone z with voice := .page, place := 0, since := 0 } s else s) zoneIndexes
      (fun u z _ h => steady_ite (fun _ => h.setZone z _) fun _ => h) k) _) _
  unfold Machine.servePage
  split
  · exact k
  · split
    · exact k
    · exact steady_ite (fun _ => start _ _ _) fun _ => k

theorem Steady.serveCancelPage (hgo : Steadies go) (k : Steady (.rest x) s) : Steady (.rest x) (serveCancelPage go s).1 := by
  unfold Machine.serveCancelPage
  split
  · exact k.cancelPageNow hgo
  · exact k

theorem Steady.serveConfigureDisplay (k : Steady (.rest x) s) (d : Byte) (f : DisplayFields) :
    Steady (.rest x) (serveConfigureDisplay d f s).1 := by
  unfold Machine.serveConfigureDisplay
  split
  · exact k
  · dsimp only
    split
    · exact Steady.refreshDisplay (k.settings _ (by rfl)) _
    · exact k

theorem Steady.serveDisplayRequest (k : Steady (.rest x) s) (d a : Byte) : Steady (.rest x) (serveDisplayRequest d a s).1 := by
  unfold Machine.serveDisplayRequest
  split
  · rename_i ms f _ hf
    refine steady_foldl _ (fun u m _ h => ?_) k
    unfold displayAction at hf
    split at hf
    · injection hf with hf
      rw [← hf]; exact h.activate m
    · injection hf with hf
      rw [← hf]; exact h.setDisplay m _
    · cases hf
  · exact k

theorem Steady.serveConfigureLamp (k : Steady (.rest x) s) (l b : Byte) (y : Option LampItemFields) (m : Byte) :
    Steady (.rest x) (serveConfigureLamp l b y m s).1 := by
  unfold Machine.serveConfigureLamp
  split
  · exact Steady.replied (k.settings _ (by rfl))
  · exact k

theorem Steady.serveSaveSettings (hgo : Steadies go) (k : Steady (.rest x) s) (y : Byte) : Steady (.rest x) (serveSaveSettings go y s).1 :=
  (steady_foldl _ (fun _ _ _ h => h.requestWrite hgo _ _) k).beginWrite

theorem Steady.serveSetWatch (hp : x = .running) (k : Steady (.rest x) s) (i g : Byte) (y : Half) (c e : Byte) :
    Steady (.rest x) (serveSetWatch i g y c e s).1 := by
  unfold Machine.serveSetWatch
  split
  · split
    · rename_i n gr co ed _ _ _ _ _
      refine k.of_core ⟨fun j hj v hv => ?_, fun h => absurd (k.phase.trans hp) h⟩
      have e : ∀ z : WatchRec, peek (poke s.seu.watches n z) j = if n = j ∧ n < 8 then z else peek s.seu.watches j := fun z => peek_poke _ _ _ _
      have hv : (peek (poke s.seu.watches n (s.watchSet gr y.toNat co ed (peek s.seu.watches n))) j).last = some v := hv
      show v = combined (peek (poke s.seu.watches n (s.watchSet gr y.toNat co ed (peek s.seu.watches n))) j).combine
        (peek (poke s.seu.watches n (s.watchSet gr y.toNat co ed (peek s.seu.watches n))) j).items
        (s.groupWord (peek (poke s.seu.watches n (s.watchSet gr y.toNat co ed (peek s.seu.watches n))) j).group)
      rw [e] at hv ⊢
      by_cases hn : n = j ∧ n < 8
      · rw [if_pos hn] at hv ⊢
        unfold State.watchSet at hv ⊢
        split at hv
        · cases hv
        · rename_i h0
          rw [if_neg h0]
          injection hv with hv
          exact hv.symm
      · rw [if_neg hn] at hv ⊢
        exact k.watches.1 j hj v hv
    · exact k
  · exact k

theorem Steady.serveRefresh (k : Steady (.rest x) s) (b : Byte) (id : Half) : Steady (.rest x) (serveRefresh b id s).1 := by
  unfold Machine.serveRefresh
  split
  · exact k
  · split
    · exact k.setChan_same _ _ (by rfl)
    · exact k

theorem Steady.serveConfigureGlobal (k : Steady (.rest x) s) (a b : Half) : Steady (.rest x) (serveConfigureGlobal a b s).1 :=
  Steady.replied ((k.setMachines _).onSlp _ (by rfl))

/-- Every request in service keeps all this. -/
theorem Steady.serveRequest (hgo : Steadies go) (hp : x = .running) (k : Steady (.rest x) s) (i : Instr) :
    Steady (.rest x) (serveRequest go i s).1 := by
  cases i
  case setWatch => exact k.serveSetWatch hp _ _ _ _ _
  case fetchEvents => exact k.of_same
  case saveSettings => exact k.serveSaveSettings hgo _
  case configureMachine => exact k.serveConfigureMachine hgo _ _
  case configureMachineGlobal => exact k.serveConfigureGlobal _ _
  case run => exact k.serveRun hgo _ _ _
  case refresh => exact k.serveRefresh _ _
  case stop => exact k.serveStop hgo _
  case setRode => exact k.serveSetRode hgo _
  case calibrate => exact k.serveCalibrate hgo _ _
  case configureHsu => exact k.serveConfigureHsu _ _ _ _
  case writeInterlock => exact k.serveWriteInterlock hgo _ _
  case configureCause => exact k.serveConfigureCause _ _ _
  case clearFault => exact k.serveClearFault hgo _
  case serviceClear => exact k.serveServiceClear hgo _
  case configureStation => exact k.serveConfigureStation _
  case configureSource => exact k.serveConfigureSource hgo _ _
  case configureZone => exact k.serveConfigureZone hgo _ _
  case setVolume => exact k.serveSetVolume _ _
  case setQuiet => exact k.serveSetQuiet hgo _ _
  case allocateClip => exact k.serveAllocateClip _ _ _
  case clipData => exact k.serveClipData _ _ _
  case clipEnd => exact k.serveClipEnd _ _
  case freeClip => exact k.serveFreeClip _
  case configureAnnounce => exact k.serveConfigureAnnounce hgo _ _
  case page => exact k.servePage hgo _ _ _
  case cancelPage => exact k.serveCancelPage hgo
  case readAudio => show Steady (.rest x) (serveReadAudio _ s).1; unfold serveReadAudio; split <;> exact k
  case clearAudioFlags => exact k.serveClearAudioFlags hgo _
  case configureDisplay => exact k.serveConfigureDisplay _ _
  case displayRequest => exact k.serveDisplayRequest _ _
  case configureLamp => exact k.serveConfigureLamp _ _ _ _
  case readStatus => show Steady (.rest x) (serveReadStatus _ s).1; unfold serveReadStatus; split <;> exact k
  case readMachine => show Steady (.rest x) (serveReadMachine _ s).1; unfold serveReadMachine; split <;> exact k
  case readInterlock => show Steady (.rest x) (serveReadInterlock _ s).1; unfold serveReadInterlock; split <;> exact k
  all_goals exact k

/-! ## The link port -/

/-- In service the request in service is nobody's business here. -/
theorem Steady.inService (hp : x = .running) (k : Steady (.rest x) s) (f : Slp → Slp) : Steady (.rest x) (s.onSlp f) :=
  k.of_core ⟨k.watches.1, fun h => absurd (k.phase.trans hp) h⟩

theorem Steady.take (hgo : Steadies go) (hp : x = .running) (k : Steady (.rest x) s) (y : Ticket) : Steady (.rest x) (take go y s) := by
  unfold Machine.take
  refine Steady.inService hp ?_ _
  unfold serve
  split
  · exact k.serveRequest hgo hp _
  · exact k
  · exact k

theorem Steady.validFrame (hgo : Steadies go) (hp : x = .running) (k : Steady (.rest x) s) (y : Ticket) :
    Steady (.rest x) (validFrame go y s) := by
  have k1 : Steady (.rest x) (noteValidFrame go s) := by
    unfold noteValidFrame
    dsimp only
    exact steady_ite (fun _ => ((k.onSlp _ rfl).publish hgo _).reports hgo _ _) fun _ => (k.onSlp _ rfl).publish hgo _
  unfold Machine.validFrame offer
  split
  · exact k1.take hgo hp y
  · exact k1.inService hp _
  · exact k1

theorem Steady.requestArrives (k : Steady (.rest s.phase) s) (i : Instr) : Steady (.rest s.phase) (requestArrives i s) := by
  unfold Machine.requestArrives
  split
  · rename_i h; exact k.validFrame steadies_send h _
  all_goals exact k

theorem Steady.linkQuietTimerExpiry (hgo : Steadies go) (k : Steady (.rest x) s) : Steady (.rest x) (linkQuietTimerExpiry go s) := by
  unfold Machine.linkQuietTimerExpiry
  split
  · exact k
  · exact ((k.onSlp _ rfl).publish hgo _).reports hgo _ _

theorem Steady.setReceiver (k : Steady (.rest x) s) (r : Receiver) : Steady (.rest x) (setReceiver r s) := k.onSlp _ rfl

theorem Steady.receivedByte (hgo : Steadies go) (k : Steady (.rest s.phase) s) (b : Byte) : Steady (.rest s.phase) (receivedByte go b s) := by
  unfold Machine.receivedByte
  dsimp only
  split
  · exact k
  · exact k
  · rename_i hp
    split
    · exact steady_ite (fun _ => k.setReceiver _) fun _ => k
    · exact steady_ite (fun _ => k.setReceiver _) fun _ => steady_ite (fun _ => k.setReceiver _) fun _ => k.setReceiver _
    · exact steady_ite (fun _ => k.setReceiver _) fun _ => k.setReceiver _
    · exact k.setReceiver _
    · exact k.setReceiver _
    · split
      · exact k.setReceiver _
      · exact steady_ite (fun _ => k.validFrame hgo hp _) fun _ => k.setReceiver _

theorem Steady.discardFrame (k : Steady (.rest x) s) : Steady (.rest x) (discardFrame s) := by
  unfold Machine.discardFrame
  split <;> exact k.of_same

/-! ## Resets and the end of initialization -/

theorem loads_allowed (k : EntriesAllowed s) (y : Sto) (hy : y.interlocks.content = s.sto.interlocks.content) :
    InterlocksAllowed (y.interlocks.loaded factoryInterlocks) := by
  unfold Copy.loaded
  split
  · rw [hy]; exact k.2.1
  · intro i hi e he
    unfold factoryInterlocks at he
    rw [peek_replicate _ hi] at he
    cases he

theorem afterReset_interlocks (u : Sto) : u.afterReset.interlocks.content = u.interlocks.content := by
  unfold Sto.afterReset
  cases u.writing with
  | none => rfl
  | some w => dsimp only; cases w.data.name <;> rfl

theorem steady_boot (c : ResetCause) (y : Phase) (p : Straps) (k : EntriesAllowed s) : Steady (.rest y) (boot c y p s) := by
  refine ⟨rfl, ⟨loads_allowed k _ (afterReset_interlocks _), ?_, fun w z h => by cases h⟩, ⟨List.nodup_nil, List.nodup_nil⟩,
    fun m hm => absurd hm List.not_mem_nil, fun m _ => .inl ?_, fun _ => ⟨rfl, rfl, rfl⟩, fun _ => .inl rfl, fun i hi v hv => ?_, fun _ => ⟨rfl, fun i hi => ?_⟩⟩
  · show InterlocksAllowed s.sto.afterReset.interlocks.content
    rw [afterReset_interlocks]; exact k.2.1
  · cases m <;> exact ⟨⟨fun h => absurd h List.not_mem_nil, fun h => by cases h⟩, fun h => absurd h List.not_mem_nil, fun h => by cases h⟩
  · have hv : (peek (Vector.replicate 8 WatchRec.disarmed) i).last = some v := hv
    rw [peek_replicate _ hi] at hv; cases hv
  · show (peek (Vector.replicate 8 WatchRec.disarmed) i).last = none
    rw [peek_replicate _ hi]; rfl

/-- Where the set-up of the blocks leaves watches and stored entries as they were. -/
def SetUpSame (s t : State) : Prop :=
  t.seu.watches = s.seu.watches ∧ t.sto.interlocks = s.sto.interlocks ∧ t.sto.writing = s.sto.writing

theorem SetUpSame.trans {u : State} (h : SetUpSame s t) (k : SetUpSame t u) : SetUpSame s u :=
  ⟨k.1.trans h.1, k.2.1.trans h.2.1, k.2.2.trans h.2.2⟩

theorem SetUpSame.foldl {α : Type} (f : State → α → State) (hf : ∀ s y, SetUpSame s (f s y)) (ys : List α) (s : State) :
    SetUpSame s (ys.foldl f s) := by
  induction ys generalizing s with
  | nil => exact ⟨rfl, rfl, rfl⟩
  | cons y ys ih => exact (hf s y).trans (ih _)

theorem setUp_same (s : State) : SetUpSame s (setUp s) := by
  have k1 : SetUpSame s (stage1 s) := by rw [stage1_eq]; exact ⟨rfl, rfl, rfl⟩
  have k2 : ∀ u, SetUpSame u (stage2 u) := fun _ => ⟨rfl, rfl, rfl⟩
  have k3 : ∀ u, SetUpSame u (stage3 u) := fun u =>
    SetUpSame.trans (t := samples u) (by rw [(samples_eq u).1]; exact ⟨rfl, rfl, rfl⟩)
      (SetUpSame.foldl _ (fun _ m => by cases m <;> exact ⟨rfl, rfl, rfl⟩) _ _)
  have k4 : ∀ u, SetUpSame u (stage4 u) := fun u =>
    SetUpSame.trans (t := u.onSiq Siq.setUp) ⟨rfl, rfl, rfl⟩ (SetUpSame.foldl _ (fun s n => by
      obtain ⟨y, e⟩ := setUpSource_keeps s n; rw [e]; exact ⟨rfl, rfl, rfl⟩) _ _)
  have k5 : ∀ u, SetUpSame u (stage5 u) := fun u => by
    have a : SetUpSame u (firstWrite (startTimers u)) := by
      unfold firstWrite
      split <;> exact ⟨rfl, rfl, rfl⟩
    have c : ∀ (u : State) (f : Seu → Seu), (f u.seu).watches = u.seu.watches → SetUpSame u (u.onSeu f) := fun _ _ h => ⟨h, rfl, rfl⟩
    have b : ∀ u, SetUpSame u (setItems u) := fun u => by
      unfold setItems
      exact c u _ (by rfl)
    exact (a.trans (b _)).trans (b _)
  rw [setUp_stages]
  exact (((k1.trans (k2 _)).trans (k3 _)).trans (k4 _)).trans (k5 _)

theorem firstState_unseated (s : State) (m : MachineId) : (s.firstState m).isGranted = false ∧ s.firstState m ≠ .waiting := by
  unfold State.firstState
  repeat' split
  all_goals exact ⟨rfl, by decide⟩

theorem setUp_chanState (s : State) (m : MachineId) : ((setUp s).chan m).state = (stage2 (stage1 s)).firstState m := by
  have h : ∀ u, (stage3 u).mc = (stage5 (stage4 (stage3 u))).mc := fun u => (stage45_keeps (stage3 u)).1.symm
  have : ∀ u v : State, u.mc = v.mc → u.chan m = v.chan m := fun u v e => by unfold State.chan; rw [e]
  rw [setUp_stages, ← this _ _ (h _), (stage3_channels _).1, inState_state]

theorem steady_setUp (k : Steady (.rest .initializing) s) : Steady (.rest .running) (setUp s) := by
  have h := setUp_keeps s
  obtain ⟨a1, a2, a3⟩ := setUp_same s
  have hw : ∀ i, i < 8 → (peek (setUp s).seu.watches i).last = none := fun i hi => by
    rw [a1]; exact (k.watches.2 (by rw [k.phase]; decide)).2 i hi
  refine ⟨h.phase, ?_, ?_, fun m hm => absurd hm List.not_mem_nil, fun m _ => .inl ?_, ?_, fun ht => .inl ?_, fun i hi v hv => ?_,
    fun hp => absurd h.phase hp⟩
  · unfold EntriesAllowed
    rw [h.settings, a2, a3]
    exact k.entries
  · rw [h.hsc]; exact ⟨List.nodup_nil, List.nodup_nil⟩
  · obtain ⟨b1, b2⟩ := firstState_unseated (stage2 (stage1 s)) m
    unfold State.placed
    rw [setUp_chanState, h.hsc, b1]
    exact ⟨⟨fun h => absurd h List.not_mem_nil, fun h => by cases h⟩, fun h => absurd h List.not_mem_nil, fun h => absurd h b2⟩
  · show (setUp s).hsc.isolate = true → _
    rw [h.hsc]; exact fun _ => ⟨rfl, rfl, rfl⟩
  · rw [h.fis, storeCauses_trip] at ht
    rw [h.iso, ht, Bool.or_true]
  · rw [hw i hi] at hv; cases hv

theorem steady_endOfInitialization (hgo : Steadies go) (k : Steady (.rest s.phase) s) :
    Steady (.rest (endOfInitialization go s).phase) (endOfInitialization go s) := by
  have key : ∀ {y u}, Steady (.rest y) u → Steady (.rest u.phase) u := fun {y u} h => by rw [show u.phase = y from h.phase]; exact h
  unfold endOfInitialization
  split
  · rename_i hp
    rw [hp] at k
    have k1 : Steady (.rest .running) (activateHeld (setUp s)) :=
      steady_foldl _ (fun _ m _ h => steady_ite (fun _ => h.activate m) fun _ => h) (steady_setUp k)
    have k2 := steady_foldl causeIndexes (f := fun s c => Machine.trySelfClear go c s) (fun _ c _ h => h.trySelfClear hgo c) k1
    dsimp only
    generalize causeIndexes.foldl (fun s c => Machine.trySelfClear go c s) (activateHeld (setUp s)) = u at *
    have k3 : Steady (.rest .running) (if u.pins.estop = true then Machine.report go causeEstop true u else u) :=
      steady_ite (fun _ => k2.reports hgo _ _) fun _ => k2
    exact key (steady_ite (fun _ => k3.reports hgo _ _) fun _ => k3)
  all_goals exact k

theorem steady_elapse (k : Steady (.rest x) s) : Steady (.rest x) (elapse s) :=
  k.of_same (h4 := fun m => by cases m <;> rfl)

/-! ## Every step -/

/-- A handling that keeps the invariants leaves them with the store at rest. -/
theorem consistent_finish (k : Fit s) (h : Steady (.rest s.phase) s) (e : finish s = .next t) : Consistent t := by
  injection e with e
  rw [← e]
  refine ⟨fit_beginWrite k, atRest_beginWrite s, steady_rest.mp ?_⟩
  rw [beginWrite_phase]
  exact h.beginWrite

end Sys2Proof.Machine
end

