-- ==== Sys2Proof/Laws/Writes.lean ====
section
/-! SUPPORT. A completed store write (R179, R180). -/

namespace Sys2Proof.Machine

theorem evalWatches_disarmed {s : State} (h : ∀ i, i < 8 → (peek s.seu.watches i).last = none) (g : Group) : evalWatches g s = s := by
  unfold evalWatches
  have : ∀ xs : List Nat, (∀ i ∈ xs, i < 8) → xs.foldl (evalWatch g) s = s := by
    intro xs
    induction xs with
    | nil => intro _; rfl
    | cons i xs ih =>
      intro hx
      have e : evalWatch g s i = s := by
        unfold evalWatch
        dsimp only
        rw [h i (hx i List.mem_cons_self)]
      rw [List.foldl_cons, e]
      exact ih fun j hj => hx j (List.mem_cons_of_mem _ hj)
  exact this _ fun i hi => List.mem_range.mp hi

/-- With no watch armed a published item queues nothing. -/
theorem publish_disarmed {go : Go} (hgo : Quiet go) {s : State} (hn : NoHostEntries s)
    (h : ∀ i, i < 8 → (peek s.seu.watches i).last = none) {r : ItemRef} (hr : r ∉ builtInItems) :
    (publish go s r).seu.events = s.seu.events := by
  unfold publish setItem
  split
  · rfl
  · have e := evalWatches_disarmed (s := s.onSeu fun u => { u with items := poke u.items r.index (s.itemNow r) }) h r.group
    rw [e, hgo.item (s.onSeu fun u => { u with items := poke u.items r.index (s.itemNow r) }) r hn hr]
    rfl

theorem store_passes (t : Sto) (d : SectionData) (ok : Bool) (x : SectionName) :
    (t.store d ok).passes x = if x = d.name then ok else t.passes x := by
  cases d <;> cases x <;> cases ok <;> rfl

theorem store_holds (t : Sto) (d : SectionData) : (t.store d true).holds d := by
  cases d <;> rfl

theorem store_holds_other (t : Sto) (d e : SectionData) (ok : Bool) (h : e.name ≠ d.name) : (t.store d ok).holds e ↔ t.holds e := by
  cases d <;> cases e <;> first | exact Iff.rfl | exact absurd rfl h

theorem store_queue (t : Sto) (d : SectionData) (ok : Bool) : (t.store d ok).queue = t.queue := by
  cases d <;> rfl

theorem holds_of {t u : Sto} (h : t = { u with queue := t.queue, writing := t.writing }) (d : SectionData) : t.holds d ↔ u.holds d := by
  rw [h]; cases d <;> exact Iff.rfl

theorem passes_of {t u : Sto} (h : t = { u with queue := t.queue, writing := t.writing }) (x : SectionName) : t.passes x = u.passes x := by
  rw [h]; cases x <;> rfl

end Sys2Proof.Machine
end

