-- ==== Sys2Proof/Tests/Slice0.lean ====
section
/-! SUPPORT. Tests of the model: the manual's own examples, one ill-formed term for each check of WellFormed, some effects worked out
by hand, and for each statement with hypotheses the states and operands that meet them, clause by clause at the ends of its ranges.
A witness says of its state `calm`, which `calm_of` takes to the hypotheses of that kind. -/

namespace Sys2Proof.Tests

set_option Elab.async false
open Sys2Proof Sys2Proof.Machine

/-! ## The states of the tests -/

def calibrated : SensorParams := { tol := 40, disagreeCount := 3, calA := { c0 := 200, c1 := 3800 }, calB := { c0 := 3800, c1 := 200 } }

/-- The part in service with its factory values and calibrated sensors: every machine IDLE, the link up, ISOLATE released. -/
def ready : State :=
  { State.reset with
    phase := .running
    settings := { factorySettings with machines := { factoryMachines with platform := calibrated, hatch := calibrated } }
    slp := { Slp.fresh Pins.idle.straps with linkOk := true, quiet := some 3000 }
    mc := { w := { Channel.fresh with state := .idle }, p := { Channel.fresh with state := .idle },
            h := { Channel.fresh with state := .idle } }
    hsc := { Hsc.fresh with isolate := false }
    seu := { Seu.fresh with items := poke Seu.fresh.items 0 true } }

def aRun (o : Origin) (d : Direction) (t : Option Nat) : RunRec :=
  { id := 0, origin := o, dir := d, target := t, startPos := 0, endReason := none, cause := none, endPos := none }

/-- The channel of `m` with a live run, granted, at a demand and a position, and the pump running. -/
def going (m : MachineId) (st : ChanState) (r : RunRec) (demand position : Nat) : State :=
  { setChan m { Channel.fresh with state := st, live := some r, demand := demand, position := position, counter := 1 } ready with
    hsc := { ready.hsc with grants := [m], pump := .running } }

def inState (m : MachineId) (st : ChanState) : State := setChan m { Channel.fresh with state := st } ready
def withPump (p : PumpState) (t : Timer) (n : Nat) : State := { ready with hsc := { ready.hsc with pump := p, timer := t, attempt := n } }
def withCause (c : Nat) (x : CauseRec) : State := setCause c x ready
def withInput (i : HoldInput) (st : InputState) (a b : Bool) (t : Option (StationTimer × Nat)) (s : State) : State :=
  setInput i { state := st, a := a, b := b, timer := t } s
def withRx (st : RxState) (len : Nat) (payload : List Byte) (high : Option Byte) : State :=
  setReceiver { state := st, len := len, code := 0x01, payload := payload, crcHigh := high, gap := some 25 } ready
def withPins (f : Pins → Pins) : State := { ready with pins := f ready.pins }
def outOfService : State := { ready with phase := .initializing }
def heldDown : State := { ready with phase := .heldInReset }
def withClip (st : ClipState) : State :=
  { ready with zae := { ready.zae with
      clips := poke ready.zae.clips 15 { state := st, start := 63, count := 1, length := 256 }
      owners := poke ready.zae.owners 63 (.clip 15) } }
def aPage : PageRec :=
  { clip := 15, duck := 23, playing := poke (Vector.replicate 8 false) 7 true, completed := Vector.replicate 8 false,
    cut := Vector.replicate 8 false, place := 255 }
def paging : State :=
  let s := withClip .ready
  { s with zae := { s.zae with page := some aPage, zones := poke s.zae.zones 7 { ZoneRec.fresh with voice := .page } } }
def playing (v : VoiceState) (x : Sound) : State :=
  { ready with
    hsc := { ready.hsc with grants := [.p], pump := .running }
    zae := { ready.zae with
      zones := poke ready.zae.zones 6 { ZoneRec.fresh with voice := v, sound := x, list := [.p], place := 23999, since := 239999 } } }
def wOut : HoldInput := ⟨.w, .outward⟩
def wIn : HoldInput := ⟨.w, .inward⟩
def active : CauseRec := { active := true, present := false, raisedAt := some 7 }

/-- The hypotheses that many statements share, as one check. -/
def calm (s : State) : Bool :=
  s.sto.queue.isEmpty && decide (s.slp.inService = none) && decide (Memory.wf s.zae.memory = true) &&
  decide (s.phase = .running → s.pins.estop = true → s.hsc.isolate = true) &&
  (List.range 21).all (fun i => decide (peek s.settings.interlocks i = none)) &&
  (List.range 16).all fun c => !((s.cause c).active && decide ((s.causeSetting c).cls = .self) && !(s.cause c).present)

theorem calm_of {s : State} (h : calm s = true) :
    StoreAtRest s ∧ NoHostEntries s ∧ Undisturbed s ∧ StoreOrdered s ∧ MemoryCanonical s ∧ EstopIsolates s ∧
      (s.phase = .running → Serving s) := by
  simp only [calm, Bool.and_eq_true, List.isEmpty_iff, decide_eq_true_eq, List.all_eq_true, List.mem_range, Bool.not_eq_true',
    Bool.and_eq_false_iff, decide_eq_false_iff_not, Bool.not_eq_false'] at h
  obtain ⟨⟨⟨⟨⟨hq, hs⟩, hm⟩, he⟩, hi⟩, hc⟩ := h
  refine ⟨fun _ => .inl hq, hi, ⟨hi, fun c hc' ha hk => ?_⟩, ?_, hm, he, fun hr => ⟨hr, hs⟩⟩
  · rcases hc c hc' with (h | h) | h
    · exact absurd ha (by simp [h])
    · exact absurd hk h
    · exact h
  · simp [StoreOrdered, hq, isPending]

theorem every_machine (m : MachineId) : m ∈ machines := by cases m <;> decide

/-- Grants, places and valves as `Seated` and `ValvesShut` have them, as one check. -/
def seatedShut (s : State) : Bool :=
  decide (s.hsc.grants.Nodup ∧ s.hsc.queue.Nodup) &&
  machines.all fun m =>
    let c := s.chan m
    decide (((m ∈ s.hsc.grants ↔ c.state.isGranted = true) ∧ (m ∈ s.hsc.queue ↔ c.state = .waiting)) ∧
      (c.state.isFlowing = false → c.demand = 0 ∧ c.flow = 0 ∧ c.share = 0 ∧ c.applied = 0) ∧ c.share ≤ c.flow ∧ (c.flow = 0 → c.applied = 0))

theorem seated_shut_of {s : State} (h : seatedShut s = true) : Seated s ∧ ValvesShut s := by
  simp only [seatedShut, Bool.and_eq_true, List.all_eq_true, decide_eq_true_eq] at h
  exact ⟨⟨h.1.1, h.1.2, fun m => (h.2 m (every_machine m)).1⟩, fun m => (h.2 m (every_machine m)).2⟩

/-- The hypotheses of a cause that takes a new trip, as one check. -/
def tripping (c : Nat) (s : State) : Bool :=
  !(s.cause c).active && !(s.cause c).present && (s.causeSetting c).trip && decide (s.fis.trip = none) && !s.hsc.isolate &&
  seatedShut s && machines.all (fun m => !(decide (s.inputState m .outward = .valid) && decide (s.inputState m .inward = .valid))) &&
  calm s && decide (s.phase = .running ∧ (s.causeSetting c).cls ≠ .self)

theorem trip_ready_of {c : Nat} {s : State} (h : tripping c s = true) : TripReady c s ∧ Undisturbed s ∧ StoreAtRest s := by
  simp only [tripping, Bool.and_eq_true, List.all_eq_true, decide_eq_true_eq, Bool.not_eq_true', Bool.and_eq_false_iff,
    decide_eq_false_iff_not] at h
  obtain ⟨⟨⟨⟨⟨⟨⟨⟨h1, h2⟩, h3⟩, h4⟩, h5⟩, h6⟩, h7⟩, h8⟩, -⟩ := h
  obtain ⟨k1, k2⟩ := seated_shut_of h6
  refine ⟨⟨h1, h2, h3, h4, h5, k1, k2, fun m ho hi => ?_⟩, (calm_of h8).2.2.1, (calm_of h8).1⟩
  rcases h7 m (every_machine m) with k | k
  · exact k ho
  · exact k hi

/-- What `Consistent` asks, as one check: without host entries, armed watches or clips, with the factory values in the store. -/
def consistentCheck (s : State) : Bool :=
  calm s && seatedShut s && decide (s.seu.events = []) && decide (s.hsc.grants.length ≤ 2) &&
  decide (s.sfe.rode ≤ s.settings.machines.windlass.rodeMax ∧ (s.phase ≠ .heldInReset → s.pins.home = true → s.sfe.rode = 0)) &&
  decide (∀ n ∈ List.range 3, (s.source n).fifo.length ≤ (s.sourceConfig n).capacity) &&
  decide (∀ k ∈ List.range 16, (s.clip k).state = .ready → (s.clip k).length ≤ (s.clip k).room) &&
  decide (∀ z ∈ List.range 8, (s.zone z).left = 0 ∧ (s.zone z).right = 0) &&
  decide (s.hsc.isolate = true → s.hsc.grants = [] ∧ s.hsc.queue = [] ∧ s.hsc.pump = .off) &&
  decide (s.fis.trip.isSome = true → s.hsc.isolate = true) && decide (∀ i ∈ List.range 8, (peek s.seu.watches i).last = none) &&
  decide (s.sto.writing = none) && decide (∀ i ∈ List.range 21, peek s.sto.interlocks.content i = none)

theorem consistent_of {s : State} (h : consistentCheck s = true) : Consistent s := by
  simp only [consistentCheck, Bool.and_eq_true, decide_eq_true_eq] at h
  obtain ⟨⟨⟨⟨⟨⟨⟨⟨⟨⟨⟨⟨h1, h2⟩, h3⟩, h4⟩, h5⟩, h6⟩, h7⟩, h8⟩, h9⟩, h10⟩, h11⟩, h12⟩, h13⟩ := h
  obtain ⟨c1, c2, -, c4, c5, c6, c7⟩ := calm_of h1
  have hs : s.slp.inService = none := by
    simp only [calm, Bool.and_eq_true, decide_eq_true_eq] at h1
    exact h1.1.1.1.1.2
  have none_allowed : ∀ {x : InterlockSettings}, (∀ i, i < 21 → peek x i = none) → InterlocksAllowed x := fun h i hi e he => by
    rw [h i hi] at he; cases he
  simp only [List.mem_range] at h6 h7 h8 h11 h13
  refine ⟨⟨(seated_shut_of h2).2, ?_, h4, h5, h6, h7, c5, fun z hz => ?_, c4, c6⟩, c1, (seated_shut_of h2).1, h9, h10, fun i hi v hv => ?_,
    fun _ => ⟨hs, h11⟩, none_allowed c2, none_allowed h13, fun w x hw => ?_⟩
  · unfold EventsFit; rw [h3]; decide
  · obtain ⟨e1, e2⟩ := h8 z hz
    rw [e1, e2]
    exact ⟨⟨by decide, by decide⟩, by decide, by decide⟩
  · rw [h11 i hi] at hv; cases hv
  · rw [h12] at hw; cases hw

/-! ## The manual's examples -/

/-- Chapter 13: over the two bytes of IDENTIFY the CRC is 0x0D2E, sent high byte first. -/
theorem test_crc_of_identify : crcOf [0x00, 0x01] = 0x0D2E ∧ frameBytes 0x01 [] = [0xC9, 0x36, 0x00, 0x01, 0x0D, 0x2E] := by
  decide +kernel

/-- Chapter 13, the worked example: RUN P OUT with target 600, its frame and how it is read. -/
theorem test_run_example : encodeRequest (.run 1 0 (some 600)) = some (0x12, [0x01, 0x00, 0x01, 0x02, 0x58]) ∧
    parseFrame 0x12 [0x01, 0x00, 0x01, 0x02, 0x58] = .ask (.run 1 0 (some 600)) ∧
    (frameBytes 0x12 [0x01, 0x00, 0x01, 0x02, 0x58]).length = 11 := by decide +kernel

def replyOf (o : Host.Outcome State Fault Refusal) : Option (Byte × List Byte) :=
  match o with
  | .next t => t.slp.inService.map fun r => (r.code, r.payload)
  | _ => none

def seven : State := setChan .p { ready.chan .p with counter := 7 } ready

/-- Its reply with run id 7 and the pump OFF, the same with target 1200, and with an input of P VALID. -/
theorem test_run_replies :
    replyOf (exec (.run 1 0 (some 600)) seven) = some (0x92, [0x00, 0x00, 0x07, 0x03, 0x01, 0x02, 0x58]) ∧
    replyOf (exec (.run 1 0 (some 1200)) seven) = some (0x92, [0x01, 0x00, 0x07, 0x03, 0x01, 0x03, 0xE8]) ∧
    replyOf (exec (.run 1 0 (some 600)) (withInput ⟨.p, .inward⟩ .valid true false none seven)) = some (0x92, [0x83]) := by
  decide +kernel

/-- A payload of another length, and a code that names no request. -/
theorem test_other_frames : parseFrame 0x12 [0x00, 0x01] = .wrongLength 0x12 ∧
    parseFrame 0x7F [] = .ask (.undefinedRequestCode 0x7F) := by decide +kernel

/-- The part that leaves the factory and is powered is the reset state. -/
theorem test_power_reset_is_reset :
    exec (.powerReset Pins.idle.straps) { State.reset with phase := .running, now := 5 } = .next State.reset :=
  congrArg Host.Outcome.next (by decide +kernel)

/-- The table has no bits: no word spells a command, and the queue stays as it is. -/
theorem test_no_word_spells : decodeTableWord 8 0x12 = none ∧ ready.withFetchWord 8 0x12 = ready := by decide +kernel

/-! ## Ill-formed terms -/

theorem test_wf_windlass_fields_for_platform :
    Instr.wf (.configureMachine 1 ⟨1, 0, 0, 0, 0, 0, 0, 0, 0, .windlass 0 0 0 0 0⟩) = false := by decide +kernel
theorem test_wf_block_with_cap : Instr.wf (.writeInterlock 3 (some ⟨0, 0, 0, 0, 0, 1, some 100⟩)) = false := by decide +kernel
theorem test_wf_no_samples : Instr.wf (.clipData 0 0 []) = false := by decide +kernel
theorem test_wf_too_many_samples : Instr.wf (.clipData 0 0 (List.replicate 97 0)) = false := by decide +kernel
theorem test_wf_lamp_on_with_item : Instr.wf (.configureLamp 0 1 (some ⟨0, 0, 0⟩) 0) = false := by decide +kernel
theorem test_wf_defined_code : Instr.wf (.undefinedRequestCode 0x12) = false ∧ Instr.wf (.undefinedRequestCode 0x10) = false := by
  decide +kernel

/-! ## Effects by hand -/

/-- A pocket in at 0 stays at 0, one out at 0 counts 1 (R58). -/
theorem test_pockets : nextRode false 900 0 true = 0 ∧ nextRode false 900 0 false = 1 ∧ nextRode false 900 900 false = 900 ∧
    nextRode true 900 5 false = 0 := by decide

/-- The worked cases of flow sharing in chapter 3: the windlass and the platform in cases 1 and 2, the windlass in case 4. -/
theorem test_shares : shareOf 150 180 120 1000 120 = (100, 833) ∧ shareOf 150 180 60 750 80 = (50, 625) ∧
    shareOf 150 180 116 971 120 = (96, 800) ∧ shareOf 150 180 64 800 80 = (53, 662) ∧ shareOf 90 120 120 1000 120 = (90, 750) := by
  decide +kernel

/-- The worked example of chapter 2: sensors A and B of the hatch, samples 2 to 5. -/
theorem test_positions :
    let a : Calibration := { c0 := 412, c1 := 3620 }
    let b : Calibration := { c0 := 3598, c1 := 395 }
    [(1214, 2797), (2016, 1990), (3620, 410), (3700, 380)].map (fun x : Nat × Nat => (a.raw x.1, b.raw x.2)) =
      [(some 250, some 250), (some 500, some 502), (some 1000, some 995), (some 1024, some 1004)] ∧
    meanPosition (some 500) (some 502) = 501 ∧ meanPosition (some 1000) (some 995) = 997 ∧ meanPosition (some 1024) (some 1004) = 1000 := by
  decide +kernel

/-- The taper of R33 in the worked example of chapter 2: the platform 75, 50 and 13 before its target; and R34's sum at HOME. -/
theorem test_taper : taper 800 120 80 75 = 757 ∧ taper 800 120 80 50 = 545 ∧ taper 800 120 80 13 = 230 ∧ taper 1000 150 30 0 = 150 := by
  decide +kernel

/-- The worked cases 1 to 4 of the mix in chapter 8, and the stored words of case 5. -/
theorem test_mix : musicTerm (-3000001) 7 = -23438 ∧ mixed (-3000001) 7 1536000 = 1512562 ∧ mixed 8000000 0 8388352 = 8388607 ∧
    musicTerm (-5) 26 = 0 ∧ mixed 400000 12 1048576 = 1048673 ∧ storedWord 16 0xFFFF0000 = -256 ∧ storedWord 32 0xFFFFFFFF = -1 ∧
    storedWord 32 0x7FFFFFFF = 8388607 := by decide +kernel

/-- The table of R60: 37, 39 and 900 pockets at 152 mm. -/
theorem test_rode_lengths : [37, 39, 900].map (fun n => (rodeCentimetres 152 n, rodeMetres 152 n)) = [(562, 5), (592, 5), (13680, 136)] := by
  decide +kernel

/-- The measurements of the worked example of chapter 8. -/
theorem test_classes : [512, 416, 256, 257, 255].map classOf = [.r48, .unsupported, .r96, .r96, .r96] := by decide +kernel

/-! ## Witnesses -/

theorem test_witness_steps :
    { ready with pending := [.identify, .reset] }.pending = .identify :: [.reset] ∧
    ready.pending = [] ∧ outOfService.phase ≠ .running ∧ outOfService.pending = [] ∧ ready.phase = .running ∧
    (∀ e ∈ (elapse ready).timers, e.2 ≠ some 0) ∧
    (((elapse (ready.onSlp fun l => { l with quiet := some 1 })).timers.filter fun e => e.2 == some 0).map Prod.fst) =
      [.linkQuietTimerExpiry] := by decide +kernel

def badStore (x : SectionName) : State :=
  match x with
  | .records => { State.reset with sto := { Sto.factory with records := ⟨factoryRecords, false⟩ } }
  | _ => { State.reset with sto := { Sto.factory with machines := ⟨factoryMachines, false⟩ } }

theorem test_witness_resets :
    heldDown.phase = .heldInReset ∧ calm ready = true ∧ ready.phase ≠ .heldInReset ∧
    (withPins fun p => { p with home := true }).pins.home = true ∧
    ready.pins.home = false ∧ ready.sto.intact .records = true ∧ (badStore .records).pins.home = false ∧
    (badStore .records).sto.intact .records = false ∧ heldDown.pins.home = false := by decide +kernel

/-- ISOLATE is released at the end of initialization, and stays with ESTOP active (R41). -/
theorem test_isolate_at_end_of_initialization :
    (match exec .endOfInitialization State.reset with
      | .next t => !t.hsc.isolate
      | _ => false) = true ∧
    (match exec .endOfInitialization { State.reset with pins := { Pins.idle with estop := true } } with
      | .next t => t.hsc.isolate
      | _ => false) = true := by decide +kernel

theorem test_witness_end_of_initialization :
    State.reset.phase = .initializing ∧ State.reset.seu.events = [] ∧
    ({ State.reset with pins := { Pins.idle with estop := true } }.pins.estop = true) ∧ (State.reset.cause causeEstop).present = false ∧
    (.machines ∈ (badStore .machines).sto.failed) ∧ ((badStore .machines).causeSetting causeStoreConfig).cls = .crew ∧
    (.records ∈ (badStore .records).sto.failed) ∧ ((badStore .records).causeSetting causeStoreRecords).cls = .crew ∧
    ready.phase ≠ .initializing ∧ calm ready = true ∧ calm State.reset = true ∧ (State.reset.chan .w).live = none ∧
    (machines.all fun m => decide ((State.reset.chan m).live = none)) = true := by decide +kernel

theorem test_witness_received_bytes :
    [withRx .hunt 0 [] none, withRx .syncSeen 0 [] none, withRx .length 0 [] none, withRx .code 0 [] none, withRx .code 200 [] none,
      withRx .payload 2 [] none, withRx .payload 1 [] none, withRx .check 0 [] none].all calm = true ∧
    calm outOfService = true ∧ (withRx .hunt 0 [] none).phase = .running ∧ (200#8).toNat ≤ 200 ∧ 200 < (201#8).toNat ∧
    ([] : List Byte).length + 1 < 2 ∧ 1 ≤ ([] : List Byte).length + 1 ∧
    (let s := withRx .check 0 [] (some 0x0D)
     s.phase = .running ∧ s.slp.rx.state = .check ∧ s.slp.rx.crcHigh = some 0x0D ∧
     crcOf (frameBody s.slp.rx.len s.slp.rx.code s.slp.rx.payload) ≠ (0x0D : Byte) ++ (0x2F : Byte)) := by decide +kernel

theorem test_witness_frames :
    Instr.wf (.clipData 15 0 (List.replicate 96 1)) = true ∧ (encodeRequest (.clipData 15 0 (List.replicate 96 1))).isSome = true ∧
    encodeRequest .identify = some (0x01, []) ∧ Instr.wf .identify = true ∧ (List.replicate 200 (0#8)).length ≤ 200 ∧
    parseFrame 0x01 (List.replicate 200 0) = .wrongLength 0x01 ∧ parseFrame 0x10 (4 :: List.replicate 24 0) = .undefinedSelector 0x10 ∧
    parseFrame 0x10 (0xFF :: List.replicate 25 0) = .wrongLength 0x10 ∧ 3 < (4#8).toNat ∧ ready.slp.inService = none ∧ ready.phase = .running ∧ calm ready = true ∧
    ready.slp.rx = Receiver.hunting := by decide +kernel

def inService (r : Reply) (h : Option Ticket) : State := ready.onSlp fun l => { l with inService := some r, held := h }

theorem test_witness_link :
    codeUndefined 0x7F = true ∧ codeUndefined 0xFF = true ∧
    ready.item Item.linkOk = true ∧ (ready.cause causeLinkLost).present = false ∧
    ((withCause causeLinkLost { active with present := true }).cause causeLinkLost).present = true ∧
    (encodeRequest .reset).isSome = true ∧ outOfService.phase ≠ .running ∧
    (inService ⟨0x81, [], false⟩ none).phase = .running ∧ (inService ⟨0x81, [], false⟩ none).slp.inService.isSome = true ∧
    (inService ⟨0x81, [], false⟩ (some (.wrongLength 0x12))).slp.held.isSome = true ∧
    ready.slp.inService = none ∧ calm ready = true ∧
    (inService ⟨0x82, [], true⟩ none).slp.inService = some ⟨0x82, [], true⟩ ∧
    (inService ⟨0x81, [], false⟩ (some (.undefinedSelector 0x10))).slp.held = some (.undefinedSelector 0x10) ∧
    (inService ⟨0x81, [], false⟩ (some (.ask .identify))).slp.held = some (.ask .identify) ∧ Instr.identify ≠ .reset ∧
    (ready.onSlp fun l => { l with quiet := none }).slp.quiet = none ∧ ready.slp.quiet.isSome = true := by decide +kernel

/-- The reset behind the reply to RESET samples the straps as they stand then (R172, R182). -/
theorem test_request_reset_samples : ∃ t, exec .replySent (inService ⟨0x82, [0x00], true⟩ none) = .next t ∧
    t.phase = .initializing ∧ t.resetCause = .request ∧ t.slp.rate = Config.strapLevels 0 ∧ t.pins.strapReads = 1 :=
  ⟨_, rfl, rfl, rfl, rfl, rfl⟩

theorem test_at_rest : StoreAtRest (inService ⟨0x81, [], false⟩ none) := fun _ => .inl rfl

def watched (e : WatchEdge) : State :=
  ready.onSeu fun u => { u with watches := poke u.watches 7 { group := .sys, items := 1, combine := .any, edge := e, last := some false } }

theorem test_witness_status :
    calm ready = true ∧ ready.phase = .running ∧ groupNamed 8 = some .zone ∧ 8 < (9#8).toNat ∧ (7#8).toNat < 8 ∧
    combineNamed 0 = some .any ∧ edgeNamed 2 = some .both ∧ (0xFFFF#16).toNat < 2 ^ Group.zone.size ∧ 8 ≤ (8#8).toNat ∧
    groupNamed 9 = none ∧ combineNamed 2 = none ∧ edgeNamed 3 = none ∧ 2 ^ Group.sys.size ≤ (64#16).toNat ∧
    (peek ready.seu.watches 7).last = none ∧ (peek (watched .both).seu.watches 7).last = some false ∧
    (peek (watched .both).seu.watches 7).group = .sys ∧
    combined .any 1 ((watched .rise).groupWord .sys) ≠ false ∧
    ready.pins.service = !true ∧ ready.item Item.serviceIn = !true ∧ calm (watched .both) = true ∧
    (watched .both).item Item.serviceIn = !true ∧ (List.range 8).all (fun i => decide ((peek ready.seu.watches i).last = none)) = true := by
  decide +kernel

/-- SERVICE_IN is item 2 of SYS: a watch on it fires when SERVICE# is asserted (R164, R168). -/
theorem test_service_watch_fires :
    let s := ready.onSeu fun u => { u with watches := poke u.watches 7 { group := .sys, items := 4, combine := .any, edge := .rise, last := some false } }
    (match exec (.serviceInputChange true) s with
      | .next t => decide (t.seu.events.map Event.kind = [.watch 7 true 5] ∧ (peek t.seu.watches 7).last = some true)
      | _ => false) = true := by decide +kernel

theorem test_witness_store :
    calm ready = true ∧ ready.phase = .running ∧ (0x80#8).getLsbD (sectionCode .records) = true ∧ (heard ready).sto.queue = [] ∧
    (List.replicate 32 (⟨.guestKey 0 none, 0, false⟩ : Event)).length = 32 := by decide +kernel

def common : MachineFields := ⟨1, 1000, 20, 500, 0, 1, 500, 400, 50, .platform 10 20⟩

theorem test_witness_configure_machine :
    calm ready = true ∧ ready.phase = .running ∧ machineNamed 3 = none ∧ machineNamed 1 = some .p ∧ yesNoNamed 2 = none ∧
    yesNoNamed common.enabled = some true ∧ machineLayout 1 common.tail = true ∧ ((heard ready).chan .p).state.isRunning = false ∧
    ((heard (going .p .moving (aRun .link .outward none) 5 500)).chan .p).state.isRunning = true ∧
    (ready.params .p).enabled = true ∧ machineLayout 0 (.windlass 20 4000 50 500 50) = true ∧
    machineLayout 2 (.hatch 200 1 100 15000) = true ∧
    (let s := withInput ⟨.p, .outward⟩ .valid true false none
        (inState .p .disabled |>.onSettings fun x => { x with machines := { x.machines with
          common := x.machines.common.set .p { x.machines.common.p with enabled := false } } })
     calm s = true ∧ (s.params .p).enabled = false ∧ (heard s).allReleased .p = false ∧
     (heard s).allReleased .h = true ∧ ((heard s).chan .p).state = .disabled) := by decide +kernel

def blocked : State := setItem send Item.ladderDown true (withPins fun p => { p with ladder := true })

theorem test_witness_run_refused :
    calm ready = true ∧ ready.phase = .running ∧ directionNamed 2 = none ∧ directionNamed 1 = some .inward ∧
    ((heard (inState .p .disabled)).chan .p).state = .disabled ∧ calm (inState .p .disabled) = true ∧
    (let u := heard (withCause 8 active)
     u.affected .p = true ∧ (u.chan .p).state ≠ .disabled) ∧ calm (withCause 8 active) = true ∧
    (let s := going .p .moving (aRun .link .outward none) 5 500
     calm s = true ∧ ((heard s).chan .p).state = .moving ∧ (heard s).affected .p = false) ∧
    ((heard ready).chan .p).state = .idle ∧ (heard ready).affected .p = false ∧
    (heard (withInput ⟨.p, .inward⟩ .valid true false none ready)).anyValid .p = true ∧
    (heard ready).anyValid .p = false ∧ (heard ready).uncalibrated .p = false ∧ (heard ready).hsc.isolate = false ∧
    (heard { ready with hsc := Hsc.fresh }).hsc.isolate = true ∧
    (heard { ready with settings := factorySettings }).uncalibrated .p = true ∧
    (heard blocked).blockMatches .p .inward = true ∧ calm blocked = true ∧ (heard ready).blockMatches .p .outward = false ∧
    min (0#16).toNat ((heard ready).positionTop .p) ≤ ((heard ready).chan .p).position ∧
    ((heard ready).chan .p).position ≤ min (1000#16).toNat ((heard ready).positionTop .p) := by decide +kernel

def waitingFor (p : PumpState) (g : List MachineId) : State := { ready with hsc := { ready.hsc with pump := p, grants := g } }

theorem test_witness_run_accepted :
    [ready, withPins fun p => { p with pressureOk := true }, waitingFor .starting [.p], waitingFor .retryGap [.p],
      waitingFor .running [.p], waitingFor .runOn [], waitingFor .running [.p, .h]].all (fun s =>
        calm s && decide (s.phase = .running) && decide (((heard s).chan .w).state = .idle) && !(heard s).affected .w && !(heard s).anyValid .w &&
        !(heard s).uncalibrated .w && !(heard s).hsc.isolate && !(heard s).blockMatches .w .outward && decide (((heard s).chan .w).position < 900) &&
        decide ((heard s).hsc.pump = .off → (heard s).hsc.grants = [])) = true ∧
    ((heard ready).cause causeCreep).active = false ∧ machineNamed 0 = some .w ∧ directionNamed 0 = some .outward ∧
    ((heard ready).chan .h).state = .idle ∧ (heard ready).affected .h = false ∧ (heard ready).blockMatches .h .outward = false ∧
    ((heard ready).chan .h).position < 1000 ∧ machineNamed 2 = some .h ∧
    2 ≤ (heard (waitingFor .running [.p, .h])).hsc.grants.length := by decide +kernel

theorem test_witness_ends_of_runs :
    let s := setChan .w { (going .w .moving (aRun .link .outward none) 200 10).chan .w with refresh := some 300 }
      (going .w .moving (aRun .link .outward none) 200 10)
    calm s = true ∧ s.phase = .running ∧ ((heard s).chan .w).live = some (aRun .link .outward none) ∧
    (aRun .link .outward none).id = (0#16).toNat ∧ (aRun .link .outward none).endReason = none ∧
    ((heard ready).chan .w).live = none ∧ (ready.chan .w).refresh = none ∧ (s.chan .w).refresh ≠ none ∧
    (s.chan .w).state = .moving ∧ (s.chan .w).demand ≠ 0 ∧ machinesNamed 0xFF = some machines ∧ machinesNamed 0 = some [.w] ∧
    machinesNamed 3 = none ∧
    (let w := { going .p .waiting (aRun .station .inward none) 0 500 with hsc := { ready.hsc with grants := [.w, .h], queue := [.p] } }
     calm w = true ∧ (w.chan .p).state = .waiting ∧ w.anyValid .p = false ∧ w.hsc.queue.erase .p = []) ∧
    ((going .w .stopping (aRun .link .outward none) 50 10).chan .w).state = .stopping ∧
    calm (heard s) = true ∧ (heard s).hsc.queue = [] ∧ (machines.all fun m => decide (((heard s).chan m).state = .moving →
      ((heard s).chan m).demand ≠ 0)) = true ∧
    (let p := going .h .unlocking (aRun .station .outward none) 0 0
     calm (heard p) = true ∧ (heard p).hsc.queue = [] ∧ ((heard p).chan .h).state = .unlocking ∧
       ((heard p).chan .h).live = some (aRun .station .outward none)) := by decide +kernel

theorem test_witness_rode_and_calibration :
    calm ready = true ∧ ready.phase = .running ∧ ((heard ready).chan .w).state = .idle ∧ (ready.pins.home = true → (900 : Nat) = 0) ∧
    (withPins fun p => { p with home := true }).pins.home = true ∧
    ((heard (going .w .moving (aRun .link .outward none) 5 5)).chan .w).state ≠ .idle ∧
    machineNamed 1 = some .p ∧ ((heard ready).chan .p).state.isRunning = false ∧ ((heard ready).chan .p).state ≠ .disabled ∧
    (let x := ready.sensors .p
     x.countA ≠ (ready.sensorParams .p).calA.c1 ∧ x.countB ≠ (ready.sensorParams .p).calB.c1) ∧
    (let s := ready.onSfe fun f => { f with platform := { f.platform with countA := 3800 } }
     calm s = true ∧ (s.sensors .p).countA = (s.sensorParams .p).calA.c1) ∧
    (heard ready).hsc.grants = [] ∧ (heard ready).hsc.queue = [] ∧ (heard (waitingFor .running [.p])).hsc.grants ≠ [] := by
  decide +kernel

def withEntry : State :=
  ready.onSettings fun x => { x with
    interlocks := poke x.interlocks 20 (some { machine := .w, dir := none, item := Item.serviceIn, sense := true, action := .cap 50 }) }

theorem test_witness_reads :
    calm ready = true ∧ ready.phase = .running ∧ machineNamed 0 = some .w ∧ machineNamed 2 = some .h ∧ 2 < (3#8).toNat ∧
    ready.entry 22 = none ∧ (ready.entry 0).isSome = true ∧ (withEntry.entry 23).isSome = true ∧ 23 < (24#8).toNat ∧
    4 < (5#8).toNat := by decide +kernel

theorem test_entry_serving : Serving withEntry := ⟨rfl, rfl⟩

theorem test_witness_interlocks :
    calm ready = true ∧ ready.phase = .running ∧ (2#8).toNat < 3 ∧ 3 ≤ (3#8).toNat ∧ (23#8).toNat ≤ 23 ∧
    machineNamed 0 = some .w ∧ entryDirectionNamed 2 = some none ∧ itemNamed 0 2 = some Item.serviceIn ∧
    Item.serviceIn.followsRunning = false ∧ yesNoNamed 1 = some true ∧ itemNamed 0 6 = none ∧
    (Item.running .w).followsRunning = true ∧ itemNamed 1 1 = some (Item.running .w) ∧
    ready.item (plainItem .ladder) = !true ∧ ready.item (plainItem .mat) = !true ∧ ready.item (plainItem .ladder) = false ∧
    (let s := setItem send Item.cradleHome true (withPins fun p => { p with cradle := true })
     calm s = true ∧ s.item (plainItem .cradle) = !false) ∧
    (ready.chan .p).live = none ∧ ready.anyValid .p = false ∧ (ready.chan .h).live = none ∧ ready.anyValid .h = false ∧
    outOfService.phase ≠ .running ∧
    (let s := going .p .moving (aRun .link .inward none) 300 500
     calm s = true ∧ s.item (plainItem .ladder) = !true ∧ (s.chan .p).live = some (aRun .link .inward none)) ∧
    (let s := setItem send Item.cradleHome true { going .h .moving (aRun .link .inward none) 300 500 with
        pins := { Pins.idle with cradle := true } }
     calm s = true ∧ s.item (plainItem .cradle) = !false ∧ (s.chan .h).live = some (aRun .link .inward none)) ∧
    (aRun .link .inward none).dir = .inward ∧
    (let s := going .p .moving (aRun .link .outward none) 300 500
     calm s = true ∧ s.phase = .running ∧ (machines.all fun k => !(heard s).anyValid k) = true ∧
       ((heard s).chan .p).live = some (aRun .link .outward none) ∧ ((heard s).chan .w).live = none ∧ ((heard s).chan .h).live = none ∧
       ((heard s).chan .p).state = .moving ∧ ((heard s).chan .p).demand ≠ 0 ∧ (heard s).item Item.serviceIn = false ∧
       (heard s).blockMatches .p .outward = false ∧ yesNoNamed 0 = some false ∧ entryDirectionNamed 0 = some (some .outward)) := by
  decide +kernel

/-- An entry that matches when it is written ends the run; one that caps moves nothing (R120, R121). -/
theorem test_entry_acts_at_once :
    let s := going .p .moving (aRun .link .outward none) 300 500
    (match exec (.writeInterlock 3 (some ⟨1, 2, 0, 2, 0, 1, none⟩)) s with
      | .next t => decide ((t.chan .p).state = .stopping ∧ t.item (Item.blocked .p) = true)
      | _ => false) = true ∧
    (match exec (.writeInterlock 23 (some ⟨1, 0, 0, 2, 0, 2, some 100⟩)) s with
      | .next t => decide ((t.chan .p).state = .moving ∧ t.item (Item.capped .p) = true)
      | _ => false) = true := by decide +kernel

theorem test_witness_causes_and_stations :
    calm ready = true ∧ ready.phase = .running ∧ ((heard (withCause 15 active)).cause 15).active = true ∧
    ((heard ready).cause 0).active = false ∧ classNamed 3 = none ∧ classNamed 2 = some .latched ∧ classAllowed 4 .latched = true ∧
    classAllowed 0 .self = false ∧ tripAllowed 4 = true ∧ 15 < (16#8).toNat ∧
    (holdInputs.all fun i => decide (((heard ready).input i).state = .released)) = true ∧
    (machines.all fun m => !((heard ready).chan m).state.isRunning) = true ∧
    ((heard (withInput wOut .inhibited false true none ready)).input wOut).state ≠ .released := by decide +kernel

def served (c : Nat) (k : CauseClass) : State :=
  { withCause c active with
    settings := { ready.settings with causes := poke ready.settings.causes c { cls := k, trip := k == .latched } }
    fis := { (withCause c active).fis with
      trip := if k = .latched then some { cause := c, time := 7, rode := 0, restored := false } else none }
    hsc := if k = .latched then Hsc.fresh else ready.hsc
    pins := { Pins.idle with service := true }
    mc := { w := { Channel.fresh with state := .held }, p := { Channel.fresh with state := .held }, h := { Channel.fresh with state := .held } } }

theorem test_witness_clears :
    calm (served 0 .crew) = true ∧ calm (served 4 .latched) = true ∧ (served 0 .crew).phase = .running ∧
    (0xFF#8) ∈ ((0xFF : Byte) :: (List.range 16).map fun c => BitVec.ofNat 8 c) ∧
    (16#8) ∉ ((0xFF : Byte) :: (List.range 16).map fun c => BitVec.ofNat 8 c) ∧
    ((heard (served 4 .latched)).cause (4#8).toNat).active = true ∧ ((served 4 .latched).causeSetting 4).cls = .latched ∧
    ((heard (served 4 .latched)).cause 4).present = false ∧ ready.pins.service = false ∧ (served 4 .latched).pins.service = true ∧
    (machines.all fun m => !(heard (served 4 .latched)).anyValid m) = true ∧ ((heard (served 0 .crew)).chan .w).state = .held ∧
    (served 4 .latched).fis.trip.isSome = true := by decide +kernel

theorem test_witness_sources_and_zones :
    calm ready = true ∧ ready.phase = .running ∧ (2#8).toNat ≤ 2 ∧ (ready.source 2).state = .disabled ∧ 2 < (3#8).toNat ∧
    ([24, 25, 31].all fun k => decide (peek ready.zae.owners k = .free)) = true ∧ peek ready.zae.owners 8 = .source 1 ∧
    (let s := setSource 0 { SourceRec.fresh with state := .detecting } ready
     calm s = true ∧ (s.source 0).state ≠ .disabled) ∧
    (7#8).toNat ≤ 7 ∧ (3#8).toNat ≤ 3 ∧ (ready.zoneConfig 7).safety = true ∧ (ready.zone 7).quiet = false ∧
    7 < (8#8).toNat ∧ (5#8).getLsbD 2 = true := by decide +kernel

theorem test_witness_clips :
    calm (withClip .loading) = true ∧ (withClip .loading).phase = .running ∧ (heard (withClip .loading)).clipInPlay 15 = false ∧
    (heard paging).clipInPlay 15 = true ∧ calm paging = true ∧ (withClip .loading).clip 15 = ⟨.loading, 63, 1, 256⟩ ∧
    (0 : Nat) + (List.replicate 96 (0#16)).length ≤ 1 * 256 ∧ 256 < (161#16).toNat + 96 ∧ (160#16).toNat + 96 ≤ 256 ∧
    (256#16).toNat ≤ 256 ∧ 256 < (257#16).toNat ∧ peek (withClip .loading).zae.owners 63 = .clip 15 ∧
    peek (withClip .loading).zae.owners 24 = .free ∧ ((withClip .ready).clip 15).state ≠ .loading := by decide +kernel

theorem test_witness_announcements :
    calm (playing .repeatWait .tone) = true ∧ calm (playing .played .tone) = true ∧ (playing .played .tone).phase = .running ∧
    machineNamed 1 = some .p ∧ (15#8).toNat ≤ 15 ∧ 15 < (16#8).toNat ∧ (16#8) ≠ 0xFF ∧
    ((playing .repeatWait .tone).zone 6).list.head? = some .p ∧ (playing .repeatWait .tone).zae.page = none ∧
    calm (withClip .ready) = true ∧ ((withClip .ready).clip 15).state = .ready ∧ (heard (withClip .ready)).zae.page = none ∧
    ((heard (withClip .ready)).zone 7).list.isEmpty = true ∧ (0x80#8).getLsbD 7 = true ∧ (heard paging).zae.page = some aPage := by
  decide +kernel

/-- A page plays in zone 0, which QUIET then cuts off. -/
def pagingQuiet : State :=
  let s := withClip .ready
  { s with zae := { s.zae with
      page := some { aPage with playing := poke (Vector.replicate 8 false) 0 true }
      zones := poke s.zae.zones 0 { ZoneRec.fresh with voice := .page, quiet := true } } }

theorem test_witness_page_cut :
    calm pagingQuiet = true ∧ pagingQuiet.phase = .running ∧ (pagingQuiet.zone 0).list = [] ∧ (pagingQuiet.zone 0).voice = .page ∧
    (pagingQuiet.zone 0).quiet = true ∧ (pagingQuiet.zoneConfig 0).safety = false := by decide +kernel

/-- QUIET cuts the page off: the zone is SILENT and PAGE_ENDED tells so (R145, R151). -/
theorem test_quiet_cuts_page :
    let s := { pagingQuiet with zae := { pagingQuiet.zae with zones := poke pagingQuiet.zae.zones 0 { ZoneRec.fresh with voice := .page } } }
    (match exec (.setQuiet 0 1) s with
      | .next t => decide ((t.zone 0).voice = .silent ∧ t.zae.page = none ∧ t.seu.events.length = 1)
      | _ => false) = true := by decide +kernel

def shown (st : DisplayState) (t : Timer) (o : Overlay) : State :=
  { ready with ind := { ready.ind with
      displays := ready.ind.displays.set .p
        { state := st, lit := 0, ramp := t, hold := t, overlay := o, overlayOn := true, overlayTimer := t } } }

def shownFields (n : Half) : DisplayFields := ⟨Vector.replicate 8 n, Vector.replicate 8 0, 500, 60, 0, 100, 1000⟩

theorem test_witness_indicators :
    calm ready = true ∧ ready.phase = .running ∧ machineNamed 2 = some .h ∧ 2 < (3#8).toNat ∧
    ((Vector.replicate 8 (0#16)).map fun x => min x.toNat 1000).toList.Pairwise (· ≤ ·) ∧
    machinesNamed 3 = none ∧ machinesNamed 0xFF = some machines ∧ ((heard ready).display .p).state = .off ∧
    (heard (setChan .p { ready.chan .p with position := 1000 } ready)).target .p = 8 ∧ 0 < (ready.displayParams .p).rampDelay ∧
    ((heard (shown .showing none .none)).display .p).state = .showing ∧ ((heard (shown .ramping (some 9) .none)).display .p).state = .ramping ∧
    itemNamed 0 2 = some Item.serviceIn ∧ yesNoNamed 1 = some true ∧ 5 < (6#8).toNat ∧ (5#8).toNat ≤ 5 ∧
    calm (shown .ramping (some 9) .none) = true ∧ ((shown .ramping (some 9) .none).display .p).ramp.isSome = true ∧
    calm (shown .showing (some 9) .flash) = true ∧ ((shown .showing (some 9) .flash).display .p).hold.isSome = true ∧
    ((shown .showing (some 9) .flash).display .p).overlay ≠ .none ∧
    ((shown .showing (some 9) .flash).display .p).overlayTimer.isSome = true ∧ (ready.display .p).ramp = none := by decide +kernel

def measured (c : RateClass) (k : Option (RateClass × Nat)) (n : Nat) : State :=
  setSource 1 { SourceRec.fresh with
    state := if c = .none then .detecting else .filling, cls := c, candidate := k, measuring := true, frames := n, edges := 448,
    frameTimer := some 2 } ready

theorem test_witness_source_frames :
    [measured .r48 none 0, measured .r48 none 7, measured .r96 none 7, measured .r96 (some (.r48, 1)) 7, measured .r96 (some (.r48, 3)) 7,
      measured .none none 0].all calm = true ∧
    (ready.source 1).state = .disabled ∧ ((measured .r48 none 7).source 1).measuring = true ∧
    (setSource 1 { SourceRec.fresh with state := .detecting } ready |>.source 1).measuring = false ∧
    ((measured .r48 none 7).source 1).frames + 1 = 8 ∧ 448 + 64 = 512 ∧ ((measured .r48 none 7).source 1).frameTimer.isSome = true ∧
    ((measured .none none 0).source 1).cls = .none ∧ (ready.source 1).frameTimer = none := by decide +kernel

theorem test_witness_output_frames :
    outOfService.phase ≠ .running ∧ ready.phase = .running ∧ (ready.voiceBegins (ready.zone 6)).voice = .silent ∧
    (let s := playing .repeatWait .tone
     calm s = true ∧ (s.zone 6).list = .p :: [] ∧ (s.announce .p).repeatInterval * 48 ≤ (s.zone 6).since + 1 ∧
       (s.voiceBegins (s.zone 6)).voice = .play ∧ (s.voiceBegins (s.zone 6)).sound = .tone) ∧
    ((playing .played .tone).voiceBegins ((playing .played .tone).zone 6)).voice = .played ∧
    (let s := playing .play .tone
     (s.voiceBegins (s.zone 6)).voice = .play ∧ 24000 ≤ (s.voiceBegins (s.zone 6)).place + 1 ∧ (s.voiceBegins (s.zone 6)).list = .p :: []) ∧
    ((playing .play (.clip 15)).voiceBegins ((playing .play (.clip 15)).zone 6)).sound = .clip 15 ∧
    (paging.voiceBegins (paging.zone 7)).voice = .page ∧ paging.zae.page = some aPage ∧ calm paging = true ∧
    (paging.clip aPage.clip).length ≤ aPage.place + 1 ∧ aPage.playing.any id = true := by decide +kernel

theorem test_witness_position_samples :
    outOfService.phase ≠ .running ∧ calm ready = true ∧ ready.phase = .running ∧
    ((ready.sampled .p 2000 2000).overtravels = (ready.sampled .p 2000 2000).overtravel) ∧
    (ready.sampled .p 2000 2000).disagrees (ready.sensorParams .p).tol = false ∧ (ready.sampled .p 2000 2000).sensorBad = false ∧
    (ready.sampled .p 2000 4095).disagrees (ready.sensorParams .p).tol = true ∧
    (ready.chan .p).state ≠ .moving ∧ (ready.chan .p).state ≠ .stopping := by decide +kernel

theorem test_samples_agree : SampleFindsNothing ready (.platform 2000 2000) ∧ SampleFindsNothing ready .windlass ∧
    SampleFindsNothing (going .h .stopping (aRun .link .inward none) 30 0) (.hatch 200 3800) :=
  ⟨⟨by decide +kernel, by decide +kernel, by decide +kernel⟩, trivial, by decide +kernel, by decide +kernel, by decide +kernel⟩

/-- A run on its way, one at its limit, one at its target, one whose stop completes in IDLE, and a closed hatch whose pins are out. -/
theorem test_witness_demand :
    [going .w .moving (aRun .link .outward (some 30)) 100 0, going .p .moving (aRun .link .outward (some 500)) 800 0,
      going .h .stopping (aRun .link .inward none) 30 0, going .p .stopping (aRun .link .outward none) 41 0].all (fun s =>
        calm s && decide (s.phase = .running)) = true ∧
    ((going .w .moving (aRun .link .outward (some 30)) 100 0).chan .w).live = some (aRun .link .outward (some 30)) ∧
    (going .p .moving (aRun .link .outward (some 500)) 800 0).positionOf (.platform 2000 2000) = 500 ∧
    (going .h .stopping (aRun .link .inward none) 30 0).positionOf (.hatch 200 3800) ≤ ((ready.params .h).endBand) ∧
    (ready.params .h).rampDown = 30 ∧ (ready.params .p).rampDown < 41 ∧ ready.pins.pinsLk = false ∧ ready.anyValid .h = false ∧
    ready.hsc.queue = [] := by decide +kernel

/-- The platform runs with its valve open at half its request. -/
def flowing : State :=
  let s := going .p .moving (aRun .link .outward none) 800 500
  setChan .p { s.chan .p with flow := 64, share := 32, applied := 400 } s

theorem test_flowing_consistent : Consistent flowing ∧ Consistent ready ∧ Consistent State.reset ∧
    Consistent (waitingFor .runOn []) ∧ Consistent { ready with hsc := Hsc.fresh } :=
  ⟨consistent_of (by decide +kernel), consistent_of (by decide +kernel), consistent_of (by decide +kernel),
    consistent_of (by decide +kernel), consistent_of (by decide +kernel)⟩

theorem test_witness_output_pins :
    flowing.valve .p .outward = 400 ∧ flowing.valve .p .inward = 0 ∧ (flowing.chan .p).live = some (aRun .link .outward none) ∧
    (ready.chan .w).state ≠ .moving ∧ (ready.chan .w).state ≠ .stopping ∧ (waitingFor .runOn []).pumpRun = true ∧
    ({ ready with hsc := Hsc.fresh } : State).hsc.isolate = true ∧ flowing.zoneOutput 7 = (0, 0) := by decide +kernel

/-- The platform reaches the end of its stop while the windlass, or the hatch, waits for its grant. -/
def stoppingBefore (k : MachineId) : State :=
  let s := setChan k { Channel.fresh with state := .waiting, live := some (aRun .station .outward none) }
    (going .p .stopping (aRun .link .outward none) 20 500)
  { s with hsc := { s.hsc with queue := [k] } }

/-- The platform reaches the end of its stop with its OUT input pressed, the windlass granted beside it or nobody. -/
def stoppingPressed (g : List MachineId) : State :=
  let s := withInput ⟨.p, .outward⟩ .valid true false none (going .p .stopping (aRun .link .outward (some 500)) 20 500)
  { s with hsc := { s.hsc with grants := g } }

theorem test_witness_stop_completes :
    ([.w, .h] : List MachineId).all (fun k =>
      let s := stoppingBefore k
      calm s && decide (s.phase = .running) && decide ((s.chan .p).state = .stopping) && decide ((s.chan .p).demand ≤ (s.params .p).rampDown) &&
        !s.anyValid .p && decide (s.hsc.queue.erase .p = [k]) && decide ((s.hsc.grants.erase .p).length < 2) &&
        decide (s.hsc.pump = .running) && (s.chan .h).runsIn .outward == decide (k = .h)) = true ∧
    ([[.p], [.w, .p]] : List (List MachineId)).all (fun g =>
      let s := stoppingPressed g
      calm s && decide (s.phase = .running) && decide ((s.chan .p).demand ≤ (s.params .p).rampDown) && decide (s.hsc.queue = []) &&
        decide (s.inputState .p .outward = .valid) && decide (s.inputState .p .inward ≠ .valid) && !s.affected .p && !s.uncalibrated .p &&
        !s.hsc.isolate && !s.blockMatches .p .outward && ([.ladder, .mat, .cradle] : List PlainInput).all (fun i =>
          s.item (plainItem i) == s.itemNow (plainItem i)) && decide ((s.hsc.grants.erase .p).length < 2) &&
        decide (s.hsc.pump = .running) && decide (s.settings.hsu.runOn ≠ 0)) = true := by decide +kernel

theorem test_stopping_samples_agree : SampleFindsNothing (stoppingBefore .w) (.platform 2000 2000) ∧
    SampleFindsNothing (stoppingBefore .h) (.platform 2000 2000) ∧ SampleFindsNothing (stoppingPressed [.p]) (.platform 2000 2000) ∧
    SampleFindsNothing (stoppingPressed [.w, .p]) (.platform 2000 2000) :=
  ⟨⟨by decide +kernel, by decide +kernel, by decide +kernel⟩, ⟨by decide +kernel, by decide +kernel, by decide +kernel⟩,
    ⟨by decide +kernel, by decide +kernel, by decide +kernel⟩, by decide +kernel, by decide +kernel, by decide +kernel⟩

/-- The stop completes: the hatch takes the slot, and the press starts the platform again (R7, R16, R50). -/
theorem test_stop_hands_over_and_starts :
    (match exec (.positionSample (.platform 2000 2000)) (stoppingBefore .h) with
      | .next t => decide (t.hsc.grants = [.h] ∧ (t.chan .p).state = .idle ∧ (t.chan .h).state = .unlocking)
      | _ => false) = true ∧
    (match exec (.positionSample (.platform 2000 2000)) (stoppingPressed [.p]) with
      | .next t => decide (t.hsc.grants = [.p] ∧ (t.chan .p).state = .moving ∧ t.hsc.pump = .running)
      | _ => false) = true := by decide +kernel

theorem test_witness_pump :
    [ready, withPump .starting (some 9) 1, withPump .starting (some 9) 3, withPump .retryGap (some 9) 1, withPump .runOn (some 9) 0,
      withPins fun p => { p with pressureOk := true }].all calm = true ∧
    ready.pins.pressureOk = !true ∧ ready.phase = .running ∧ (withPump .starting (some 9) 2).hsc.attempt < ready.settings.hsu.primeTries ∧
    ready.settings.hsu.primeTries ≤ (withPump .starting (some 9) 3).hsc.attempt ∧ ready.hsc.pump ≠ .starting ∧
    ¬ (MachineId.h ∈ (withPump .starting (some 9) 1).hsc.grants) := by decide +kernel

def atRest (c : Nat) (s : State) : Bool :=
  !(s.cause c).active && !(s.cause c).present && !(s.causeSetting c).trip &&
    decide ((s.stopsRunning c).foldl List.erase s.hsc.queue = []) && calm s && decide (s.phase = .running)

def withTrip (c : Nat) (s : State) : State :=
  s.onSettings fun x => { x with causes := poke x.causes c { cls := .latched, trip := true } }

/-- Each cause with its trip enabled, while the platform runs and another run waits. -/
theorem test_witness_trips :
    let s := going .p .moving (aRun .station .outward none) 200 500
    tripping 2 (withTrip 2 { s with hsc := { s.hsc with pressLoss := some 9 } }) = true ∧
    (let u := going .p .priming (aRun .station .outward none) 0 500
     tripping 1 (withTrip 1 { u with hsc := { u.hsc with pump := .starting, timer := some 9, attempt := 3 } }) = true) ∧
    tripping 3 (withTrip 3 s) = true ∧ s.pins.oilHot = false ∧ tripping 4 (withTrip 4 (s.onSfe fun f => { f with overload := some 9 })) = true ∧
    tripping 5 (withTrip 5 (s.onSfe fun f => { f with stall := some 9 })) = true ∧
    tripping 11 (withTrip 11 (s.onSfe fun f => { f with pinTimer := some 9 })) = true ∧
    (let u := setChan .w { Channel.fresh with state := .waiting, live := some (aRun .link .outward none) }
        (setChan .h { Channel.fresh with state := .moving, live := some (aRun .link .outward none) } s)
     tripping 3 (withTrip 3 { u with hsc := { u.hsc with grants := [.p, .h], queue := [.w] } }) = true) := by decide +kernel

theorem test_witness_causes :
    atRest 2 ({ ready with hsc := { ready.hsc with pressLoss := some 9 } }) = true ∧ (ready.causeSetting 2).cls ≠ .self ∧
    atRest 1 (withPump .starting (some 9) 3) = true ∧ (ready.causeSetting 1).cls ≠ .self ∧
    atRest 3 ready = true ∧ ready.pins.oilHot = false ∧ (withPins fun p => { p with oilHot := true }).pins.oilHot = true ∧
    atRest 4 (ready.onSfe fun f => { f with overload := some 9 }) = true ∧ ready.pins.wOvld = false ∧
    (withPins fun p => { p with wOvld := true }).pins.wOvld = true ∧ (ready.cause 4).active = false ∧
    atRest 5 (ready.onSfe fun f => { f with stall := some 9 }) = true ∧ (ready.causeSetting 5).cls ≠ .self ∧
    atRest 11 (ready.onSfe fun f => { f with pinTimer := some 9 }) = true ∧ (ready.causeSetting 11).cls ≠ .self ∧
    atRest 0 ready = true ∧ (ready.stopsRunning 0).foldl List.erase ready.hsc.grants = [] ∧
    (let s := { withPins fun p => { p with estop := true } with hsc := Hsc.fresh }
     calm s = true ∧ s.pins.estop = true ∧ s.hsc.isolate = true ∧ (s.cause 0).active = false ∧ (machines.all fun m => !s.anyValid m) = true ∧
       s.fis.trip = none) ∧ ready.pins.service = !true := by decide +kernel

/-- Hot oil with cause 3 active in class SELF, every machine HELD. -/
def hot (other : Bool) (i : InputState) : State :=
  let s := withInput wOut i false false none (setCause 3 { active := true, present := true, raisedAt := some 7 }
    (if other then setCause 8 active ready else ready))
  { s with
    pins := { Pins.idle with oilHot := true }
    mc := { w := { Channel.fresh with state := .held }, p := { Channel.fresh with state := .held }, h := { Channel.fresh with state := .held } } }

theorem test_witness_self_clear :
    (let s := hot true .inhibited
     calm s = true ∧ s.phase = .running ∧ s.pins.oilHot = true ∧ (s.cause 3).active = true ∧ (s.causeSetting 3).cls = .self ∧
       holdInputs.all (fun i => (s.input i).state.letGo) = true ∧ (s.chan .w).state = .held ∧
       (List.range 16).all (fun c => c == 3 || !(s.cause c).active || !s.affects c .w) = true ∧ s.affects 8 .p = true) ∧
    calm (hot false .valid) = true ∧ ((hot false .valid).input wOut).state ≠ .released ∧
    ((hot false .valid).input wOut).state ≠ .inhibited ∧
    (let s := withCause causeLinkLost { active with present := true }
     (s.causeSetting causeLinkLost).cls = .self ∧ (s.cause causeLinkLost).active = true) := by decide +kernel

/-- The oil cools: cause 3 clears itself, and the machine that cause 8 still affects stays HELD (R20, R108). -/
theorem test_oil_cools : (match exec (.oilHotChange false) (hot true .inhibited) with
    | .next t => decide ((t.cause 3).active = false ∧ (t.chan .w).state = .idle ∧ (t.chan .p).state = .held)
    | _ => false) = true := by decide +kernel

def creeping (r n : Nat) : State := ready.onSfe fun f => { f with creepRef := some r, rode := n }

theorem test_witness_rode :
    calm ready = true ∧ calm heldDown = true ∧ calm outOfService = true ∧ (ready.chan .w).state = .idle ∧ ready.sfe.rode ≠ 900 ∧
    (let s := creeping 0 2
     calm s = true ∧ s.phase = .running ∧ s.pins.home = false ∧ (s.cause 6).present = false ∧ (s.cause 6).active = false ∧
       (s.causeSetting 6).trip = false ∧ s.hsc.queue = [] ∧ s.sfe.creepRef = some 0 ∧
       0 + s.settings.machines.windlass.creepPockets ≤ s.sfe.rode + 1) ∧
    (let s := creeping 3 3
     calm s = true ∧ 0 + s.settings.machines.windlass.creepPockets ≤ 3) ∧
    ready.sfe.rodeUnknown = true ∧ ready.sto.writing = none := by decide +kernel

def waitingPins (st : ChanState) (d : Direction) : State :=
  let s := going .h st { aRun .link d none with endReason := some .limitReached } 0 0
  { s with sfe := { s.sfe with pinTimer := some 9 } }

/-- The hatch locks its pins with the windlass granted beside it and the platform waiting. -/
def handingOver : State :=
  let s := setChan .w { Channel.fresh with state := .moving, live := some (aRun .link .outward none), demand := 300 }
    (setChan .p { Channel.fresh with state := .waiting, live := some (aRun .station .outward none) } (waitingPins .locking .inward))
  { s with hsc := { s.hsc with grants := [.w, .h], queue := [.p] } }

/-- The pins reach home: the hatch is IDLE, and the platform that waited runs in its place (R50, R84). -/
theorem test_slot_handed_over : (match exec (.pinsLkChange true) handingOver with
    | .next t => decide (t.hsc.grants = [.w, .p] ∧ t.hsc.queue = [] ∧ (t.chan .h).state = .idle ∧ (t.chan .p).state = .moving)
    | _ => false) = true := by decide +kernel

theorem test_witness_pins :
    calm (waitingPins .unlocking .outward) = true ∧ ((waitingPins .unlocking .outward).chan .h).state = .unlocking ∧
    (waitingPins .unlocking .outward).pins.pinsUl = false ∧ (waitingPins .unlocking .outward).phase = .running ∧
    atRest 11 { waitingPins .moving .outward with pins := { Pins.idle with pinsUl := true } } = true ∧
    ((waitingPins .moving .outward).chan .h).state = .moving ∧ calm (waitingPins .locking .inward) = true ∧
    ((waitingPins .locking .inward).chan .h).live.isSome = true ∧ (waitingPins .locking .inward).anyValid .h = false ∧
    (waitingPins .locking .inward).hsc.queue.erase .h = [] ∧ (ready.chan .h).state ≠ .unlocking ∧
    (waitingPins .locking .inward).pins.pinsLk = false ∧
    (let s := handingOver
     calm s = true ∧ s.phase = .running ∧ s.pins.pinsLk = false ∧ (s.chan .h).state = .locking ∧ (s.chan .h).live.isSome = true ∧
       s.anyValid .h = false ∧ s.hsc.queue.erase .h = [.p] ∧ MachineId.p ≠ .h ∧ (s.hsc.grants.erase .h).length < 2 ∧
       s.hsc.pump = .running) := by decide +kernel

theorem test_witness_contacts :
    [.released, .early, .agreed, .valid, .releasing, .faulted, .inhibited].all (fun st =>
      calm (withInput wOut st false false none ready) && decide (((withInput wOut st false false none ready).input wOut).state = st)) = true ∧
    patternOf false true ≠ patternOf false false ∧ patternOf true false ≠ patternOf false false ∧ ready.phase = .running ∧
    (let s := withInput wOut .releasing false false none (going .w .moving (aRun .station .outward none) 5 5)
     calm s = true ∧ s.inputState .w .inward ≠ .valid ∧ (s.chan .w).hasLinkRun = false ∧ (s.chan .w).state ≠ .idle) := by decide +kernel

theorem test_witness_input_timers :
    (let s := withInput wOut .agreed true false (some (.qualify, 1)) ready
     calm s = true ∧ s.startCheck .w .outward = .passes ∧ s.inputState .w .inward ≠ .valid ∧ (s.chan .w).hasLinkRun = false ∧
       (s.input wOut).timer = some (.qualify, 1) ∧ (s.cause causeCreep).active = false ∧ s.hsc.grants.length < 2) ∧
    (let s := withInput wIn .valid true false none (withInput wOut .agreed true false (some (.qualify, 1)) ready)
     calm s = true ∧ s.inputState .w .inward = .valid ∧ s.hsc.queue.erase .w = []) ∧
    (let s := withInput wOut .agreed true false (some (.qualify, 1)) (going .w .moving (aRun .link .inward none) 5 5)
     calm s = true ∧ (s.chan .w).hasLinkRun = true) ∧
    (let s := withInput wOut .agreed true false (some (.qualify, 1)) (inState .w .disabled)
     calm s = true ∧ s.startCheck .w .outward ≠ .passes) ∧
    (let s := withInput wOut .early false false (some (.disagree, 1)) ready
     calm s = true ∧ atRest 12 s = true ∧ ((setFaulted wOut true s).stopsRunning 12).foldl List.erase s.hsc.queue = []) ∧
    (let s := withInput wOut .releasing false true (some (.release, 1)) (going .w .moving (aRun .station .outward none) 5 5)
     calm s = true ∧ (s.chan .w).live = some (aRun .station .outward none) ∧ s.anyValid .w = false) ∧
    calm (withInput wOut .inhibited false true (some (.release, 1)) ready) = true ∧
    (let s := setFaulted wOut true (withInput wOut .faulted false true (some (.release, 1))
        (setCause 12 { active := true, present := true, raisedAt := some 7 } (inState .w .held)))
     calm s = true ∧ (s.cause 12).active = true ∧ (s.causeSetting 12).cls = .self ∧
       (setFaulted wOut true { s with fis := Fis.fresh }).fis.faulted = s.fis.faulted ∧ (machines.all fun k => !s.anyValid k) = true) := by
  decide +kernel

def contact (c : ContactId) (x : ContactRec) (s : State) : State := { s with siq := setContact c x s.siq }

theorem test_witness_buttons :
    ([.display .w, .reset .p, .key 7] : List ContactId).all (fun c =>
      let s := contact c { closed := true, pressed := false, armed := true, debounce := some 1 } ready
      calm s && decide ((contactOf s.siq c).debounce ≠ none) && (contactOf s.siq c).armed) = true ∧
    (contactOf ready.siq (.key 0)).closed ≠ true ∧ peek ready.settings.stations.bindings 4 = some 4 ∧
    peek ready.settings.stations.bindings 7 = none ∧ ready.seu.events.length < 32 ∧
    (let s := { withCause 4 active with
        mc := { w := { Channel.fresh with state := .held }, p := ready.chan .p, h := ready.chan .h },
        siq := { ready.siq with longPress := { w := some 1, p := none, h := none } } }
     calm s = true ∧ s.siq.longPress.get .w ≠ none ∧ s.siq.longPress.get .p = none ∧ (machines.all fun k => !s.anyValid k) = true ∧
       (s.chan .w).state = .held) := by decide +kernel

def writing (mark : Bool) (q : List (SectionName × Bool)) : State :=
  { ready with sto := { ready.sto with writing := some { data := .hsu factoryHsu, mark := mark }, queue := q } }

theorem test_witness_writes :
    ready.sto.writing = none ∧ calm ready = true ∧ calm (writing true []) = true ∧ (writing true []).sto.writing.isSome = true ∧
    (writing false [(.machines, false)]).sto.queue = (.machines, false) :: [] ∧ (writing true []).phase = .running ∧
    ((List.range 8).all fun i => decide ((peek ready.seu.watches i).last = none)) = true := by decide +kernel

/-- The invariants hold at reset, and a step from there answers a next state. -/
theorem test_witness_invariants : Instr.identify ∈ { State.reset with pending := [.identify] }.pending ∧
    step { State.reset with pending := [] } = .next { State.reset with pending := [] } := ⟨by decide +kernel, rfl⟩

end Sys2Proof.Tests
end

section
/-! PROOFS. What every step keeps (O59, O60): each command is a handling that ends in `finish`, each handling keeps what `Fit` and
`Steady` say, and a millisecond is a fold of such commands. -/

namespace Sys2Proof.Machine

variable {s t : State}

/-! ## The two halves of the invariant -/

/-- What a handling keeps: the bounds, and the seats with all that belongs to them. -/
structure Kept (s : State) : Prop where
  fit : Fit s
  steady : Steady (.rest s.phase) s

theorem Consistent.kept (h : Consistent s) : Kept s := by
  obtain ⟨hfit, -, hseats⟩ := h
  exact ⟨hfit, steady_rest.mpr hseats⟩

theorem Kept.consistent_finish (h : Kept s) (e : finish s = .next t) : Consistent t := Machine.consistent_finish h.fit h.steady e

/-- A handling that leaves the phase keeps its half of the invariant under either phase. -/
theorem Kept.of_steady {x : Phase} (hf : Fit t) (hs : Steady (.rest x) t) : Kept t :=
  ⟨hf, by rw [show t.phase = x from hs.phase]; exact hs⟩

theorem kept_boot (h : EntriesAllowed s) (c : ResetCause) {y : Phase} (hy : y ≠ .running) (p : Straps) : Kept (boot c y p s) :=
  ⟨fit_boot c y hy p s, steady_boot c y p h⟩

/-! ## One handling for each command -/

/-- The handling behind a command that is no request; a request arrives at the link port. -/
def handling : Instr → State → State
  | .powerReset x => powerReset x
  | .pinReset => pinReset
  | .rstGoesHigh x => rstGoesHigh x
  | .endOfInitialization => endOfInitialization send
  | .receivedByte b => receivedByte send b
  | .gapTimerExpiry => discardFrame
  | .framingError => discardFrame
  | .crcMismatchFrame => crcMismatchFrame
  | .replySent => replySent send
  | .linkQuietTimerExpiry => linkQuietTimerExpiry send
  | .positionSample x => positionSample send x
  | .refreshTimerExpiry m => refreshTimerExpiry send m
  | .holdToRunLevelChange i a b => holdToRunLevelChange send i a b
  | .qualifyTimerExpiry i => qualifyTimerExpiry send i
  | .disagreeTimerExpiry i => disagreeTimerExpiry send i
  | .releaseTimerExpiry i => releaseTimerExpiry send i
  | .buttonLevelChange c v => buttonLevelChange c v
  | .debounceTimerExpiry c => debounceTimerExpiry send c
  | .longPressTimerExpiry m => longPressTimerExpiry send m
  | .pressureOkChange a => pressureOkChange send a
  | .primeTimerExpiry => primeTimerExpiry send
  | .gapTimerExpiryPump => pumpGapExpiry send
  | .runOnTimerExpiry => runOnTimerExpiry send
  | .pressureLossTimerExpiry => pressureLossTimerExpiry send
  | .oilHotChange a => oilHotChange send a
  | .estopChange a => estopChange send a
  | .serviceInputChange a => serviceInputChange send a
  | .wOvldChange a => wOvldChange send a
  | .overloadQualifyTimerExpiry => overloadQualifyTimerExpiry send
  | .stallTimerExpiry => stallTimerExpiry send
  | .gypARisingEdge b => gypARisingEdge send b
  | .homeChange c => homeChange send c
  | .pinsUlChange a => pinsUlChange send a
  | .pinsLkChange a => pinsLkChange send a
  | .pinTimerExpiry => pinTimerExpiry send
  | .ladderMatCradleChange i a => plainInputChange send i a
  | .sourceFrameArrival n l r e => sourceFrameArrival send n.val l r e
  | .frameTimerExpiry n => frameTimerExpiry send n.val
  | .outputFrame => outputFrame send
  | .rampTimerExpiry m => rampExpiry m
  | .holdTimerExpiry m => holdExpiry m
  | .overlayHalfExpiry m => overlayExpiry m
  | .lampFlashHalfExpiry => flashClockExpiry
  | .storeWriteCompletion ok => storeWriteCompletion send ok
  | i => requestArrives i

theorem exec_eq_finish (i : Instr) (s : State) : exec i s = finish (handling i s) := by cases i <;> rfl

theorem kept_replySent (h : Kept s) : Kept (replySent send s) := by
  unfold replySent
  split
  · exact h
  · rename_i r hr
    have hp : s.phase = .running := by
      by_contra hne
      obtain ⟨hidle, -⟩ := h.steady.watches.2 hne
      rw [hidle] at hr
      cases hr
    split
    · exact kept_boot (s := s.countStrapRead) (y := .initializing) h.steady.entries .request (by decide) _
    · split
      · exact .of_steady (h.fit.onSlp _) (h.steady.inService hp _)
      · exact .of_steady (fit_take (h.fit.onSlp _) cascades_send _) ((h.steady.inService hp _).take steadies_send hp _)

theorem kept_handling (h : Kept s) (i : Instr) : Kept (handling i s) := by
  obtain ⟨hf, hs⟩ := h
  have hc := cascades_send
  have hg := steadies_send
  cases i
  case powerReset x => exact kept_boot hs.entries .power (by decide) x
  case pinReset => exact kept_boot hs.entries .pin (by decide) _
  case rstGoesHigh x =>
    show Kept (rstGoesHigh x s)
    unfold rstGoesHigh
    split
    · exact kept_boot hs.entries .pin (by decide) x
    all_goals exact ⟨hf, hs⟩
  case endOfInitialization => exact ⟨fit_endOfInitialization hf hc, steady_endOfInitialization hg hs⟩
  case receivedByte b => exact .of_steady (fit_receivedByte hf hc b) (hs.receivedByte hg b)
  case gapTimerExpiry => exact .of_steady (fit_discardFrame hf) hs.discardFrame
  case framingError => exact .of_steady (fit_discardFrame hf) hs.discardFrame
  case crcMismatchFrame => exact .of_steady (fit_setReceiver hf _) (hs.setReceiver _)
  case replySent => exact kept_replySent ⟨hf, hs⟩
  case linkQuietTimerExpiry => exact .of_steady (fit_linkQuietTimerExpiry hf hc) (hs.linkQuietTimerExpiry hg)
  case positionSample x => exact .of_steady (fit_positionSample hf hc x) (hs.positionSample hg x)
  case refreshTimerExpiry m => exact .of_steady (fit_refreshTimerExpiry hf hc m) (hs.refreshTimerExpiry hg m)
  case holdToRunLevelChange i a b => exact .of_steady (fit_holdToRunLevelChange hf hc i a b) (hs.holdToRunLevelChange hg i a b)
  case qualifyTimerExpiry i => exact .of_steady (fit_qualifyTimerExpiry hf hc i) (hs.qualifyTimerExpiry hg i)
  case disagreeTimerExpiry i => exact .of_steady (fit_disagreeTimerExpiry hf hc i) (hs.disagreeTimerExpiry hg i)
  case releaseTimerExpiry i => exact .of_steady (fit_releaseTimerExpiry hf hc i) (hs.releaseTimerExpiry hg i)
  case buttonLevelChange c v => exact .of_steady (fit_buttonLevelChange hf c v) (hs.buttonLevelChange c v)
  case debounceTimerExpiry c => exact .of_steady (fit_debounceTimerExpiry hf hc c) (hs.debounceTimerExpiry hg c)
  case longPressTimerExpiry m => exact .of_steady (fit_longPressTimerExpiry hf hc m) (hs.longPressTimerExpiry hg m)
  case pressureOkChange a => exact .of_steady (fit_pressureOkChange hf hc a) (hs.pressureOkChange hg a)
  case primeTimerExpiry => exact .of_steady (fit_primeTimerExpiry hf hc) (hs.primeTimerExpiry hg)
  case gapTimerExpiryPump => exact .of_steady (fit_pumpGapExpiry hf hc) (hs.pumpGapExpiry hg)
  case runOnTimerExpiry => exact .of_steady (fit_runOnTimerExpiry hf hc) (hs.runOnTimerExpiry hg)
  case pressureLossTimerExpiry => exact .of_steady (fit_pressureLossTimerExpiry hf hc) (hs.pressureLossTimerExpiry hg)
  case oilHotChange a => exact .of_steady (fit_oilHotChange hf hc a) (hs.oilHotChange hg a)
  case estopChange a => exact .of_steady (fit_estopChange hf hc a) (hs.estopChange hg a)
  case serviceInputChange a => exact .of_steady (fit_serviceInputChange hf hc a) (hs.serviceInputChange hg a)
  case wOvldChange a => exact .of_steady (fit_wOvldChange hf hc a) (hs.wOvldChange hg a)
  case overloadQualifyTimerExpiry => exact .of_steady (fit_overloadQualifyTimerExpiry hf hc) (hs.overloadQualifyTimerExpiry hg)
  case stallTimerExpiry => exact .of_steady (fit_stallTimerExpiry hf hc) (hs.stallTimerExpiry hg)
  case gypARisingEdge b => exact .of_steady (fit_gypARisingEdge hf hc b) (hs.gypARisingEdge hg b)
  case homeChange c => exact .of_steady (fit_homeChange hf hc c) (hs.homeChange hg c)
  case pinsUlChange a => exact .of_steady (fit_pinsUlChange hf hc a) (hs.pinsUlChange hg a)
  case pinsLkChange a => exact .of_steady (fit_pinsLkChange hf hc a) (hs.pinsLkChange hg a)
  case pinTimerExpiry => exact .of_steady (fit_pinTimerExpiry hf hc) (hs.pinTimerExpiry hg)
  case ladderMatCradleChange i a => exact .of_steady (fit_plainInputChange hf hc i a) (hs.plainInputChange hg i a)
  case sourceFrameArrival n l r e => exact .of_steady (fit_sourceFrameArrival hf hc n.val l r e) (hs.sourceFrameArrival hg n.val l r e)
  case frameTimerExpiry n => exact .of_steady (fit_frameTimerExpiry hf hc n.val) (hs.frameTimerExpiry hg n.val)
  case outputFrame => exact .of_steady (fit_outputFrame hf hc) (hs.outputFrame hg)
  case rampTimerExpiry m => exact .of_steady (fit_rampExpiry hf m) (hs.rampExpiry m)
  case holdTimerExpiry m => exact .of_steady (fit_holdExpiry hf m) (hs.holdExpiry m)
  case overlayHalfExpiry m => exact .of_steady (fit_overlayExpiry hf m) (hs.overlayExpiry m)
  case lampFlashHalfExpiry => exact .of_steady (fit_flashClockExpiry hf) hs.flashClockExpiry
  case storeWriteCompletion ok => exact .of_steady (fit_storeWriteCompletion hf hc ok) (hs.storeWriteCompletion hg ok)
  all_goals exact .of_steady (fit_requestArrives hf _) (hs.requestArrives _)

/-! ## Commands and milliseconds -/

theorem consistent_exec (h : Consistent s) (i : Instr) (e : exec i s = .next t) : Consistent t :=
  (kept_handling h.kept i).consistent_finish (by rw [← exec_eq_finish]; exact e)

theorem consistent_expire (h : Consistent s) (c : Instr) : Consistent (expire s c) := by
  unfold expire
  split
  · split
    · rename_i t e
      exact consistent_exec h c e
    all_goals exact h
  · exact h

theorem consistent_elapse (h : Consistent s) : Consistent (elapse s) :=
  ⟨fit_elapse h.kept.fit, h.2.1, steady_rest.mp (steady_elapse h.kept.steady)⟩

theorem consistent_expiries (cs : List Instr) : ∀ {s : State}, Consistent s → Consistent (cs.foldl expire s) := by
  induction cs with
  | nil => exact id
  | cons c cs ih => exact fun h => ih (consistent_expire h c)

theorem consistent_tick (h : Consistent s) : Consistent (tick s) := by
  unfold tick
  split
  · exact consistent_expiries _ (consistent_elapse h)
  all_goals exact h

/-- Settles O59: a step is one command, or one millisecond with the expiries it brings. -/
theorem everyStepKeepsTheInvariants : Obligations.EveryStepKeepsTheInvariants := by
  intro s t h e
  unfold step at e
  split at e
  · rename_i c rest _
    have hrest : Consistent { s with pending := rest } := h
    exact consistent_exec hrest c e
  · injection e with e
    exact e ▸ consistent_tick h

/-- Supplying the part that has left the factory gives that part again. -/
theorem reset_eq_boot : State.reset = boot .power .initializing Pins.idle.straps State.reset := by decide +kernel

theorem factory_entriesAllowed : EntriesAllowed State.reset := by
  have hnone : InterlocksAllowed factoryInterlocks := fun i hi e he => by
    rw [factoryInterlocks, peek_replicate _ hi] at he
    cases he
  exact ⟨hnone, hnone, fun _ _ hw => by cases hw⟩

/-- Settles O60: the reset state is what a reset makes of the factory store, and nothing waits to be written. -/
theorem resetMeetsTheInvariants : Obligations.ResetMeetsTheInvariants := by
  have hkept : Kept State.reset := by
    rw [reset_eq_boot]
    exact kept_boot factory_entriesAllowed .power (by decide) _
  exact ⟨hkept.fit, fun hp => absurd hp (by decide), steady_rest.mp hkept.steady⟩

end Sys2Proof.Machine
end

section
/-! PROOFS. The requests of a machine that read or write parameters (O22, O23, O31) and the refusals of RUN (O24). -/

namespace Sys2Proof.Machine

/-! ## A request answered -/

/-- In a link port that serves nothing, a request whose owner gives `(u, payload)` is answered so. -/
theorem exec_served {s u : State} {i : Instr} {code : Byte} {payload : List Byte} (h : Serving s)
    (hs : serveRequest send i (heard s) = (u, payload)) (hc : ticketCode (.ask i) + 0x80 = code)
    (he : (encodeRequest i).isSome = true := by rfl) (hr : ticketResets (.ask i) = false := by rfl) :
    exec i s = .next (answered code payload u) := by
  rw [request_answered h i he hr, hs, hc]

/-- A request that its owner refuses is answered with the status alone. -/
theorem exec_refused {s : State} {i : Instr} {code : Byte} {x : Status} (h : Serving s)
    (hs : serveRequest send i (heard s) = refuse x (heard s)) (hc : ticketCode (.ask i) + 0x80 = code)
    (he : (encodeRequest i).isSome = true := by rfl) (hr : ticketResets (.ask i) = false := by rfl) :
    exec i s = refusal code x.code s := exec_served h hs hc he hr

theorem accepted_or {a b : Bool} {p q : Prop} [Decidable p] [Decidable q] (ha : a = true ↔ ¬ p) (hb : b = true ↔ ¬ q) :
    (accepted (a || b)).code = if p ∧ q then 0x00 else 0x01 := by
  by_cases hp : p <;> by_cases hq : q <;> simp_all [accepted, Status.code]

theorem accepted_clean (b : Bool) : ((accepted b).code = 0x00 ∨ (accepted b).code = 0x01) ∧ ((accepted b).code = 0x00 ↔ b = false) := by
  cases b <;> exact ⟨by decide, by decide⟩

/-! ## CONFIGURE MACHINE naming GLOBAL -/

theorem clampQuiet_eq (n : Nat) : clampQuiet n = if n = 0 then 0 else max 500 (min n 30000) := rfl

/-- Settles O23. -/
theorem configureGlobalRestartsTheLinkQuietTimer : Obligations.ConfigureGlobalRestartsTheLinkQuietTimer := by
  intro s r q h
  dsimp only
  rw [← clampQuiet_eq]
  refine exec_served h ?_ rfl
  show reply (accepted (clamp 100 1000 r.toNat != r.toNat || clampQuiet q.toNat != q.toNat)) [] _ = _
  unfold reply
  rw [accepted_or (p := clamp 100 1000 r.toNat = r.toNat) (q := clampQuiet q.toNat = q.toNat) (by simp) (by simp), heard_settings]
  unfold setMachines State.onSettings State.onSlp timerUnlessZero
  rw [heard_settings]
  rfl

/-! ## READ MACHINE -/

theorem ownParams_heard (s : State) (m : MachineId) : (heard s).ownParams m = s.ownParams m := by
  unfold State.ownParams; rw [heard_settings]

theorem sensorParams_heard (s : State) (m : MachineId) : (heard s).sensorParams m = s.sensorParams m := by
  unfold State.sensorParams; rw [heard_settings]

theorem params_heard (s : State) (m : MachineId) : (heard s).params m = s.params m := by
  unfold State.params; rw [heard_settings]

/-- What READ MACHINE gives of a machine `m` in the state `s`, with the owner's fields in one list. -/
theorem serveReadMachine_named {b : Byte} {m : MachineId} (hm : machineNamed b = some m) (s : State) :
    serveReadMachine b s = (s, 0x00 ::
      (byte (s.chan m).state.code ++ word (s.chan m).position ++ word (s.chan m).demand ++ word (s.chan m).flow ++
        word (s.chan m).share ++ word (s.chan m).applied ++ optional RunRec.bytes (s.chan m).live ++
        optional RunRec.bytes (s.chan m).last ++ optional word (s.chan m).refresh ++ (s.params m).bytes ++ s.ownParams m ++
        word s.settings.machines.refreshTime ++ word s.settings.machines.linkQuiet ++ s.machineReport m)) := by
  unfold serveReadMachine
  rw [hm]
  rfl

theorem pinDrives (s : State) :
    s.pinUnlock = decide ((s.chan .h).state = .unlocking) ∧ s.pinLock = decide ((s.chan .h).state = .locking) := by
  unfold State.pinUnlock State.pinLock
  constructor <;> cases (s.chan .h).state <;> rfl

/-- Settles O31. -/
theorem readMachineReportsTheChannel : Obligations.ReadMachineReportsTheChannel := by
  intro s b h
  refine ⟨fun hb => ?_, fun m hm => ?_⟩
  · refine exec_refused (x := .refusedValue) h ?_ rfl
    show serveReadMachine b (heard s) = _
    unfold serveReadMachine
    rw [machineNamed_none hb]
  · refine exec_served h ?_ rfl
    show serveReadMachine b (heard s) = _
    rw [serveReadMachine_named hm, params_heard, ownParams_heard, heard_settings]
    cases m
    · simp only [State.machineReport, State.windlassReport, State.ownParams, CommonParams.bytes, rodeCentimetres, heard_settings,
        heard_rode, heard_overload, List.append_assoc]
      rfl
    · simp only [State.machineReport, State.sensorReport, State.ownParams, CommonParams.bytes, heard_sensors, sensorParams_heard,
        List.append_assoc]
      rfl
    · simp only [State.machineReport, State.sensorReport, State.ownParams, CommonParams.bytes, heard_sensors, sensorParams_heard,
        List.append_assoc, (pinDrives _).1, (pinDrives _).2]
      rfl

/-! ## RUN refused -/

theorem startCheck_disabled {s : State} {m : MachineId} (d : Direction) (h : (s.chan m).state = .disabled) :
    s.startCheck m d = .notReady := if_pos h

theorem startCheck_faulted {s : State} {m : MachineId} (d : Direction) (h : (s.chan m).state ≠ .disabled)
    (hf : (s.chan m).state = .held ∨ s.affected m = true) : s.startCheck m d = .faulted := by
  unfold State.startCheck
  rw [if_neg h, if_pos hf]

theorem startCheck_running {s : State} {m : MachineId} (d : Direction) (h : (s.chan m).state ≠ .disabled)
    (hh : (s.chan m).state ≠ .held) (hi : (s.chan m).state ≠ .idle) (ha : s.affected m = false) : s.startCheck m d = .notReady := by
  unfold State.startCheck
  rw [if_neg h, if_neg (by simp [hh, ha]), if_pos hi]

/-- The checks of R5 that are left for an IDLE channel that no active cause affects. -/
theorem startCheck_idle_eq {s : State} {m : MachineId} (d : Direction) (h : (s.chan m).state = .idle) (ha : s.affected m = false) :
    s.startCheck m d =
      if s.uncalibrated m = true ∨ s.hsc.isolate = true then .notReady else if s.blockMatches m d then .interlocked else .passes := by
  unfold State.startCheck
  rw [h, ha]
  cases s.uncalibrated m <;> cases s.hsc.isolate <;> rfl

/-- A windlass IN target of 0 is recorded as absent, every other target as it is clamped (R9). -/
theorem recordedTarget_some {m : MachineId} {d : Direction} {n : Nat} (h : ¬ (m = .w ∧ d = .inward ∧ n = 0)) :
    recordedTarget m d (some n) = some n := by
  unfold recordedTarget
  rw [if_neg]
  rintro ⟨hm, hd, hn⟩
  exact h ⟨hm, hd, Option.some.inj hn⟩

/-- A RUN whose shared checks pass, with no VALID input, is refused when its target is not ahead. -/
theorem runRefusal_target {s : State} {m : MachineId} {d : Direction} {t : Option Nat} (hc : s.startCheck m d = .passes)
    (hv : s.anyValid m = false) (ht : s.targetAhead m d t = false) : s.runRefusal m d t = some .refusedValue := by
  unfold State.runRefusal
  rw [hc, hv, ht]
  rfl

/-- Settles O24: `runRefusal` gives the status of the first check that fails. -/
theorem runRefusedByTheFirstCheckThatFails : Obligations.RunRefusedByTheFirstCheckThatFails := by
  intro s b db t h
  refine ⟨fun hn => ?_, fun m d hm hd => ?_⟩
  · refine exec_refused (x := .refusedValue) h ?_ (by cases t <;> rfl) (by cases t <;> rfl)
    show serveRun send b db t (heard s) = _
    unfold serveRun
    split
    · rename_i hm hd
      rw [hm, hd] at hn
      rcases hn with hn | hn <;> cases hn
    · rfl
  · dsimp only
    have refused : ∀ x : Status, (heard s).runRefusal m d (recordedTarget m d ((heard s).clampedTarget m t)) = some x →
        exec (.run b db t) s = refusal 0x92 x.code s := fun x hx => run_refused h hm hd hx
    generalize hu : heard s = u at *
    have byCheck : ∀ {x : StartCheck} {y : Status}, u.startCheck m d = x →
        (∀ n, u.startCheck m d = x → u.runRefusal m d n = some y) → exec (.run b db t) s = refusal 0x92 y.code s :=
      fun hx hy => refused _ (hy _ hx)
    have notReady : u.startCheck m d = .notReady → exec (.run b db t) s = refusal 0x92 0x83 s := fun hx =>
      byCheck (y := .refusedState) hx fun n hx => by unfold State.runRefusal; rw [hx]
    refine ⟨fun hd' => notReady (startCheck_disabled d hd'), fun hd' hf => ?_, fun hd' hh hi ha => notReady (startCheck_running d hd' hh hi ha),
      fun hi ha => ⟨fun hx => ?_, fun hv hc hl => ⟨fun hb => ?_, fun hb x hx hw => ?_⟩⟩⟩
    · exact byCheck (y := .refusedFault) (startCheck_faulted d hd' hf) fun n hx => by unfold State.runRefusal; rw [hx]
    · by_cases hr : u.uncalibrated m = true ∨ u.hsc.isolate = true
      · exact notReady (by rw [startCheck_idle_eq d hi ha, if_pos hr])
      · have hv : u.anyValid m = true := hx.resolve_right hr
        refine refused .refusedState ?_
        unfold State.runRefusal
        rw [startCheck_idle_eq d hi ha, if_neg hr, hv]
        cases u.blockMatches m d <;> rfl
    · refine byCheck (x := .interlocked) (y := .refusedInterlock) ?_ fun n hx => by unfold State.runRefusal; rw [hx, hv]; rfl
      rw [startCheck_idle_eq d hi ha, hc, hl, hb]
      rfl
    · have hpass : u.startCheck m d = .passes := by
        rw [startCheck_idle_eq d hi ha, hc, hl, hb]
        rfl
      have htarget : u.clampedTarget m t = some (min x.toNat (u.positionTop m)) := by rw [hx]; rfl
      refine ⟨fun ho hle => ?_, fun hin hle h0 => ?_⟩
      · refine refused .refusedValue (runRefusal_target hpass hv ?_)
        rw [htarget, recordedTarget_some (by rw [ho]; rintro ⟨-, hd', -⟩; cases hd'), ho]
        exact decide_eq_false (Nat.not_lt.mpr hle)
      · refine refused .refusedValue (runRefusal_target hpass hv ?_)
        rw [htarget, recordedTarget_some (fun hw => h0 hw.1 hw.2.2), hin]
        exact decide_eq_false (Nat.not_lt.mpr hle)

end Sys2Proof.Machine
end

section
/-! PROOFS. CONFIGURE MACHINE naming one machine (O22). -/

namespace Sys2Proof.Machine

/-! ## What a configuration leaves -/

/-- The disagreement limit of the platform or the hatch. -/
def MachineSettings.disagreeLimit (x : MachineSettings) : MachineId → Nat
  | .h => x.hatch.disagreeCount
  | .w | .p => x.platform.disagreeCount

/-- The part `u` once the machine settings `new` have taken effect on the machine `m` of the part `s`, judged in the state `v`. -/
structure ConfiguredTo (new : MachineSettings) (m : MachineId) (s v u : State) : Prop where
  settings : u.settings = { s.settings with machines := new }
  pins : u.pins = s.pins
  position : ∀ k, (u.chan k).position = (s.chan k).position
  rode : m = .w → u.sfe.rode = min s.sfe.rode new.windlass.rodeMax
  disagree : m ≠ .w → (u.sensors m).disagree = min (s.sensors m).disagree (new.disagreeLimit m)
  disabled : NoHostEntries s → (new.common.get m).enabled = false → (u.chan m).state = .disabled
  enters : NoHostEntries s → (new.common.get m).enabled = true → (v.chan m).state = .disabled → v.allReleased m = true →
    (u.chan m).state = if v.affected m then .held else .idle
  stays : NoHostEntries s → (new.common.get m).enabled = true → (v.chan m).state ≠ .disabled → (u.chan m).state = (v.chan m).state

theorem paramCore_rode (s : State) : (paramCore .w s).sfe.rode = min s.sfe.rode s.settings.machines.windlass.rodeMax := by
  unfold paramCore
  dsimp only
  split
  · rename_i h
    exact (Nat.min_eq_right (Nat.le_of_lt h)).symm
  · rename_i h
    exact (Nat.min_eq_left (Nat.not_lt.mp h)).symm

theorem paramCore_disagree {m : MachineId} (hm : m ≠ .w) (s : State) :
    ((paramCore m s).sensors m).disagree = min (s.sensors m).disagree (s.settings.machines.disagreeLimit m) := by
  cases m
  · exact absurd rfl hm
  · rfl
  · rfl

theorem sensors_sfe {s t : State} (h : t.sfe = s.sfe) (m : MachineId) : t.sensors m = s.sensors m := by
  unfold State.sensors; rw [h]

theorem chan_mc {s t : State} (h : t.mc = s.mc) (m : MachineId) : t.chan m = s.chan m := by
  unfold State.chan; rw [h]

theorem input_siq {s t : State} (h : t.siq = s.siq) (i : HoldInput) : t.input i = s.input i := by
  unfold State.input; rw [h]

theorem allReleased_siq {s t : State} (h : t.siq = s.siq) (m : MachineId) : t.allReleased m = s.allReleased m := by
  unfold State.allReleased State.inputState; rw [input_siq h, input_siq h]

theorem NoHostEntries.of_interlocks {s t : State} (h : NoHostEntries s) (k : t.settings.interlocks = s.settings.interlocks) :
    NoHostEntries t := by
  unfold NoHostEntries at *
  rwa [k]

/-- The new settings taken up by the machine, with its run stopped, reach exactly the state that R21 gives. -/
theorem configuredTo (s : State) (m : MachineId) (new : MachineSettings) (hstop : ((heard s).chan m).state.isRunning = false) :
    ConfiguredTo new m s (heard s) (applyEnabled send m (applyParams send m (setMachines new (heard s)))) := by
  generalize hw : setMachines new (heard s) = w
  have wsettings : w.settings = { s.settings with machines := new } := by
    rw [← hw]
    show { (heard s).settings with machines := new } = _
    rw [heard_settings]
  have wpins : w.pins = s.pins := by rw [← hw]; exact heard_pins s
  have wsfe : w.sfe = (heard s).sfe := by rw [← hw]; rfl
  have wmc : w.mc = (heard s).mc := by rw [← hw]; rfl
  have wfis : w.fis = (heard s).fis := by rw [← hw]; rfl
  have wsiq : w.siq = (heard s).siq := by rw [← hw]; rfl
  have wmachines : w.settings.machines = new := by rw [wsettings]
  have core := paramCore_other m w
  have casc := (params_cascade m w).trans (enabled_settings send cascades_send m _)
  have judged : NoHostEntries s → ∃ p, NoHostEntries p ∧ applyParams send m w = p ∧ p.params m = new.common.get m ∧
      (p.chan m).state = ((heard s).chan m).state ∧ p.allReleased m = (heard s).allReleased m ∧ p.affected m = (heard s).affected m := by
    intro hn
    have hnw : NoHostEntries w := hn.of_interlocks (by rw [wsettings])
    have k := calm_params m hnw
    have settings : (applyParams send m w).settings = w.settings := by rw [k.settings, core]
    have mc : (applyParams send m w).mc = (heard s).mc := by rw [k.mc, core]; exact wmc
    have siq : (applyParams send m w).siq = (heard s).siq := by rw [k.siq, core]; exact wsiq
    have fis : (applyParams send m w).fis = (heard s).fis := by rw [k.fis, core]; exact wfis
    refine ⟨_, hnw.of_settings settings, rfl, ?_, ?_, allReleased_siq siq m, affected_fis (by rw [fis]) (by rw [fis]) m⟩
    · unfold State.params
      rw [settings, wmachines]
    · rw [chan_mc mc]
  refine ⟨?_, ?_, fun k => ?_, ?_, ?_, ?_, ?_, ?_⟩
  · rw [casc.settings, core, wsettings]
  · rw [casc.pins, core, wpins]
  · rw [casc.position k, ← heard_position s k, core]
    exact congrArg Channel.position (chan_mc wmc k)
  · rintro rfl
    rw [casc.rode, paramCore_rode, wmachines, wsfe, heard_rode]
  · intro hm
    rw [casc.sensors m, paramCore_disagree hm, wmachines, sensors_sfe wsfe, heard_sensors]
  · intro hn hen
    obtain ⟨p, hnp, rfl, hparams, hstate, -, -⟩ := judged hn
    exact (enabled_state m hnp).1 (by rw [hparams, hen]) (by rw [hstate, hstop])
  · intro hn hen hdis hrel
    obtain ⟨p, hnp, rfl, hparams, hstate, hreleased, haffected⟩ := judged hn
    rw [← haffected]
    exact (enabled_state m hnp).2.2 (by rw [hparams, hen]) (by rw [hstate, hdis]) (by rw [hreleased, hrel])
  · intro hn hen hdis
    obtain ⟨p, hnp, rfl, hparams, hstate, -, -⟩ := judged hn
    rw [← hstate]
    exact (enabled_state m hnp).2.1 (by rw [hparams, hen]) (by rw [hstate]; exact hdis)

/-! ## The clamped parameters -/

/-- The common parameters of `m` clamped, and those of the other machines as they were. -/
theorem clamped_common (x : MachineSettings) (m k : MachineId) :
    (x.clamped m).common.get k = if m = k then (x.common.get k).clamped m else x.common.get k := by
  cases m <;> cases k <;> rfl

/-- The common parameters are within their ranges exactly when each written value is the one that is taken. -/
theorem commonOf_clamped_iff (f : MachineFields) (en : Bool) (m : MachineId) (q : CommonParams) (hq : q = (commonOf f en).clamped m) :
    q = commonOf f en ↔ q.vmax = f.vmax.toNat ∧ q.vcreep = f.vcreep.toNat ∧ q.slowOut = f.slowOut.toNat ∧
      q.slowIn = f.slowIn.toNat ∧ q.rampUp = f.rampUp.toNat ∧ q.rampDown = f.rampDown.toNat ∧ q.qmax = f.qmax.toNat ∧
      q.endBand = f.endBand.toNat := by
  have hen : q.enabled = en := by rw [hq]; rfl
  obtain ⟨e, a1, a2, a3, a4, a5, a6, a7, a8⟩ := q
  cases hen
  simp only [commonOf, CommonParams.mk.injEq, true_and]

/-- The settings hold the machine's own parameters as the tail carries them. -/
def tailTaken (x : MachineSettings) : MachineTail → Prop
  | .windlass pitch rodeMax demand time creep => x.windlass =
      { pocketPitch := pitch.toNat, rodeMax := rodeMax.toNat, stallDemand := demand.toNat, stallTime := time.toNat,
        creepPockets := creep.toNat }
  | .platform tol dis => x.platform.tol = tol.toNat ∧ x.platform.disagreeCount = dis.toNat
  | .hatch tol dis pins lock => x.hatch.tol = tol.toNat ∧ x.hatch.disagreeCount = dis.toNat ∧ x.pinsFlow = pins.toNat ∧
      x.lockTime = lock.toNat

/-- Settings whose machine `m` carries `c` and the tail `t` are within their ranges exactly when `c` and the tail are. -/
theorem clamped_eq_iff {x raw : MachineSettings} {m : MachineId} {t : MachineTail} {c : CommonParams}
    (h : ({ x with common := x.common.set m c }).withTail m t = some raw) :
    raw.clamped m = raw ↔ c.clamped m = c ∧ tailTaken (raw.clamped m) t := by
  cases m <;> cases t <;> cases h
  · simp [tailTaken, MachineSettings.clamped, Three.adjust, Three.set, Three.get]
  · simp [tailTaken, MachineSettings.clamped, Three.adjust, Three.set, Three.get, SensorParams.clamped]
  · simp [tailTaken, MachineSettings.clamped, Three.adjust, Three.set, Three.get, SensorParams.clamped, and_assoc]

/-- Settles O22. -/
theorem configureMachineTakesTheWhole : Obligations.ConfigureMachineTakesTheWhole := by
  intro s b f h
  refine ⟨fun hn => ?_, fun m en hm he hl => ?_⟩
  · refine exec_refused (x := .refusedValue) h ?_ rfl
    show serveConfigureMachine send b f (heard s) = _
    unfold serveConfigureMachine
    split
    · rename_i hm he
      rw [hm, he] at hn
      rcases hn with hn | hn <;> cases hn
    · rfl
  · obtain ⟨raw, hraw, hcommon, hrefresh, hquiet⟩ :=
      withTail_layout b m f.tail { s.settings.machines with common := s.settings.machines.common.set m (commonOf f en) } hm hl
    have hserve := configured (heard s) b f m en raw hm he (by rw [heard_settings]; exact hraw)
    rw [params_heard] at hserve
    refine ⟨fun hx => ?_, fun hstop hrel => ?_⟩
    · refine exec_refused (x := .refusedState) h ?_ rfl
      exact hserve.trans (if_pos hx)
    · have hfree : ¬ (((heard s).chan m).state.isRunning = true ∨
          en = true ∧ (s.params m).enabled = false ∧ (heard s).allReleased m = false) := by
        rintro (hx | ⟨hx, hy, hz⟩)
        · rw [hstop] at hx; cases hx
        · rw [hrel hx hy] at hz; cases hz
      rw [if_neg hfree] at hserve
      have hu := configuredTo s m (raw.clamped m) hstop
      generalize applyEnabled send m (applyParams send m (setMachines (raw.clamped m) (heard s))) = u at hserve hu
      have hparams : ∀ k, u.params k = if m = k then (commonOf f en).clamped m else s.params k := fun k => by
        unfold State.params
        rw [hu.settings, clamped_common, hcommon, Three.get_set]
        split <;> rfl
      have hmachines : u.settings.machines = raw.clamped m := by rw [hu.settings]
      have hm' : u.params m = (commonOf f en).clamped m := by rw [hparams, if_pos rfl]
      have hen : ((raw.clamped m).common.get m).enabled = en := by rw [clamped_common, if_pos rfl, hcommon, Three.get_set_same]; rfl
      refine ⟨u, _, exec_served h hserve rfl, (accepted_clean _).1, ?_, ?_, fun k hk => ?_, ?_, ?_, ?_, fun hn => ⟨fun hen' => ?_, fun hen' hdis hr => ?_, fun hen' hdis => ?_⟩, ?_, ?_, ?_, hu.pins, hu.position⟩
      · rw [(accepted_clean _).2, bne_eq_false_iff_eq, clamped_eq_iff hraw, hm', commonOf_clamped_iff f en m _ rfl, hmachines]
        cases f.tail <;> simp only [and_assoc, tailTaken]
      · rw [hm']
        cases m <;> rfl
      · rw [hparams, if_neg (Ne.symm hk)]
      · intro pitch rodeMax demand time creep ht
        rw [ht] at hraw
        cases m <;> cases hraw
        rw [hmachines, hu.rode rfl]
        exact ⟨rfl, rfl, rfl, rfl⟩
      · intro tol dis ht
        rw [ht] at hraw
        cases m <;> cases hraw
        rw [hmachines, hu.disagree (by decide)]
        exact ⟨rfl, rfl, rfl, rfl⟩
      · intro tol dis pins lock ht
        rw [ht] at hraw
        cases m <;> cases hraw
        rw [hmachines, hu.disagree (by decide)]
        exact ⟨rfl, rfl, rfl, rfl, rfl, rfl⟩
      · exact hu.disabled hn (hen.trans hen')
      · exact hu.enters hn (hen.trans hen') hdis hr
      · exact hu.stays hn (hen.trans hen') hdis
      · rw [hu.settings]
      · rw [hmachines, ← hrefresh]
        cases m <;> rfl
      · rw [hmachines, ← hquiet]
        cases m <;> rfl

end Sys2Proof.Machine
end

section
/-! PROOFS. The long press at a station (O57). -/

namespace Sys2Proof.Machine

@[simp] theorem beginWrite_cause (s : State) (c : Nat) : (beginWrite s).cause c = s.cause c := by
  unfold State.cause; rw [beginWrite_fis]

@[simp] theorem beginWrite_chan (s : State) (m : MachineId) : (beginWrite s).chan m = s.chan m := chan_mc (beginWrite_mc s) m

@[simp] theorem beginWrite_affected (s : State) (m : MachineId) : (beginWrite s).affected m = s.affected m :=
  affected_fis (by rw [beginWrite_fis]) (by rw [beginWrite_fis]) m

theorem mem_causeIndexes {c : Nat} : c ∈ causeIndexes ↔ c < 16 := List.mem_range

/-- The causes that a long press clears, as the manual words them. -/
theorem longPressClears_eq (s : State) (m : MachineId) (c : Nat) :
    s.longPressClears m c = ((s.cause c).active && decide ((s.causeSetting c).cls = .crew) && !(s.cause c).present &&
      (s.affects c m || decide (m = .w ∧ c = 6) || decide (c = 12 ∧ s.anyStationFaulted = false))) := by
  have hcls : ((s.causeSetting c).cls == .crew) = decide ((s.causeSetting c).cls = .crew) := beq_eq_decide _ _
  have hcreep : (m == MachineId.w && c == causeCreep) = decide (m = .w ∧ c = 6) := by
    rw [Bool.decide_and, beq_eq_decide, beq_eq_decide]; rfl
  have hset : (c == causeStationChannel && !s.anyStationFaulted) = decide (c = 12 ∧ s.anyStationFaulted = false) := by
    rw [Bool.decide_and, beq_eq_decide]
    cases s.anyStationFaulted <;> rfl
  unfold State.longPressClears
  rw [hcls, hcreep, hset]

/-- Settles O57: the causes found clearable are cleared one after another, and no other handling comes between them. -/
theorem longPressClearsTheCrewCauses : Obligations.LongPressClearsTheCrewCauses := by
  intro s m hrest
  refine ⟨fun h => ?_, fun h hn hv => ?_⟩
  · show finish (longPressTimerExpiry send m s) = .next s
    unfold longPressTimerExpiry
    rw [h]
    exact finish_atRest hrest
  · have key := clearCauses_calm (s := setLongPress m none s) quiet_send .station (causeIndexes.filter (s.longPressClears m)) hn hv
    have hexec : exec (.longPressTimerExpiry m) s =
        finish (clearCauses send .station (causeIndexes.filter (s.longPressClears m)) (setLongPress m none s)) := by
      show finish (longPressTimerExpiry send m s) = _
      unfold longPressTimerExpiry
      split
      · rename_i hnone; exact absurd hnone h
      · rfl
    generalize clearCauses send .station _ _ = u at key hexec
    refine ⟨beginWrite u, hexec, ?_⟩
    dsimp only
    simp only [← longPressClears_eq]
    obtain ⟨apart, causes, released, others⟩ := key
    refine ⟨fun c hc => ?_, fun k hk hheld haff => ?_, fun k hk => ?_, ?_, ?_, ?_, ?_, ?_, ?_⟩
    · rw [beginWrite_cause, causes]
      simp only [List.mem_filter, mem_causeIndexes, hc, true_and, and_true]
      rfl
    · rw [beginWrite_chan]
      rw [beginWrite_affected] at haff
      obtain ⟨c, hc, hclears⟩ := hk
      exact released k (List.ne_nil_of_mem (List.mem_filter.mpr ⟨mem_causeIndexes.mpr hc, hclears⟩)) hheld haff
    · rw [beginWrite_chan]
      rw [beginWrite_affected] at hk
      exact others k hk
    · rw [beginWrite_siq, apart.siq]; rfl
    · rw [beginWrite_hsc, apart.hsc]; rfl
    · rw [beginWrite_settings, apart.settings]; rfl
    · rw [beginWrite_pins, apart.pins]; rfl
    · rw [beginWrite_fis, apart.trip]; rfl
    · rw [beginWrite_fis, apart.faulted]; rfl

end Sys2Proof.Machine
end

section
/-! PROOFS. RUN accepted (O25), REFRESH and the refresh timer (O26), STOP (O27). -/

namespace Sys2Proof.Machine

/-! ## RUN accepted -/

/-- A target on the run's side of the position is ahead, an absent one always (R9). -/
theorem targetAhead_of {s : State} {m : MachineId} {d : Direction} {t : Option Nat}
    (h : ∀ x, t = some x → (d = .outward → (s.chan m).position < x) ∧ (d = .inward → x < (s.chan m).position)) :
    s.targetAhead m d t = true := by
  cases t with
  | none => rfl
  | some x =>
    obtain ⟨hout, hin⟩ := h x rfl
    cases d with
    | outward => exact decide_eq_true (hout rfl)
    | inward => exact decide_eq_true (hin rfl)

/-- The checks of R5 for an IDLE channel, all passed. -/
theorem startCheck_passes {s : State} {m : MachineId} {d : Direction} (h : (s.chan m).state = .idle) (ha : s.affected m = false)
    (hc : s.uncalibrated m = false) (hi : s.hsc.isolate = false) (hb : s.blockMatches m d = false) : s.startCheck m d = .passes := by
  rw [startCheck_idle_eq d h ha, hc, hi, hb]
  rfl

theorem runRefusal_passes {s : State} {m : MachineId} {d : Direction} {t : Option Nat} (hc : s.startCheck m d = .passes)
    (hv : s.anyValid m = false) (ht : s.targetAhead m d t = true) : s.runRefusal m d t = none := by
  unfold State.runRefusal
  rw [hc, hv, ht]
  rfl

/-- What RUN gives when no check fails. -/
theorem serveRun_accepted {s : State} {b db : Byte} {t : Option Half} {m : MachineId} {d : Direction} (go : Go)
    (hm : machineNamed b = some m) (hd : directionNamed db = some d)
    (hx : s.runRefusal m d (recordedTarget m d (s.clampedTarget m t)) = none) :
    let v := createRun go m .link d (recordedTarget m d (s.clampedTarget m t)) s
    serveRun go b db t s = (v, (accepted (s.clampedTarget m t != t.map BitVec.toNat)).code ::
      (word (s.chan m).counter ++ byte (v.chan m).state.code ++ optional word (recordedTarget m d (s.clampedTarget m t)))) := by
  unfold serveRun
  rw [hm, hd]
  dsimp only
  rw [hx]
  rfl

/-- Settles O25. -/
theorem runAcceptedCreatesALinkRun : Obligations.RunAcceptedCreatesALinkRun := by
  intro s b db t m d h hn hm hd
  dsimp only
  intro hidle haff hvalid hcal hiso hblock htarget hcreep hoff hpin
  have hpass : (heard s).startCheck m d = .passes := startCheck_passes hidle haff hcal hiso hblock
  have hserve := serveRun_accepted (t := t) send hm hd (runRefusal_passes hpass hvalid (targetAhead_of htarget))
  obtain ⟨v, rfl, live, last, counter, dirOut, refresh, position, demand, slot, waits, others, settings, pins, siq, slp, rode⟩ :=
    createRun_spec quiet_send (noHost_heard hn) m .link d (recordedTarget m d ((heard s).clampedTarget m t)) hcreep hoff
      (by rwa [heard_pins])
  rw [heard_pins, heard_settings] at slot
  rw [heard_settings] at refresh settings
  rw [heard_pins] at pins
  rw [heard_rode] at rode
  refine ⟨_, ?_, live, last, counter, dirOut, refresh, position, demand, slot, waits, others, settings, pins, siq, slp, rode⟩
  have hstatus : [(accepted ((heard s).clampedTarget m t != t.map BitVec.toNat)).code] =
      if (heard s).clampedTarget m t = t.map BitVec.toNat then [0x00] else [0x01] := by
    rw [status_of bne_iff_ne]
    split <;> rfl
  rw [exec_served (i := .run b db t) (code := 0x92) h hserve (by cases t <;> rfl) (by cases t <;> rfl) (by cases t <;> rfl)]
  show _ = Host.Outcome.next
    (answered 0x92 ((if (heard s).clampedTarget m t = t.map BitVec.toNat then [0x00] else [0x01]) ++ _ ++ _ ++ _) _)
  rw [← hstatus]
  rfl

/-! ## REFRESH -/

theorem refreshable_iff {c : Channel} {id : Nat} :
    c.refreshable id = true ↔ ∃ r, c.live = some r ∧ r.origin = .link ∧ r.id = id ∧ r.endReason = none := by
  unfold Channel.refreshable
  cases c.live with
  | none => exact ⟨(nomatch ·), fun ⟨_, h, _⟩ => (nomatch h)⟩
  | some r => simp [and_assoc]

theorem serveRefresh_named {b : Byte} {m : MachineId} (hm : machineNamed b = some m) (id : Half) (s : State) :
    serveRefresh b id s =
      if (s.chan m).refreshable id.toNat = true then
        reply .ok [] (setChan m { s.chan m with refresh := some s.settings.machines.refreshTime } s)
      else refuse .refusedState s := by
  unfold serveRefresh
  rw [hm]

/-- Settles O26: at expiry the run takes its reason by `endRun_ramped`. -/
theorem refreshTimerIsRestartedOrExpires : Obligations.RefreshTimerIsRestartedOrExpires := by
  refine ⟨fun s b id h => ⟨fun hb => ?_, fun m hm => ⟨fun r hl ho hid he => ?_, fun hr => ?_⟩⟩, fun s m hrest hr => ?_,
    fun s m hr hn => ?_⟩
  · refine exec_refused (x := .refusedValue) h ?_ rfl
    show serveRefresh b id (heard s) = _
    unfold serveRefresh
    rw [hb]
  · refine exec_served h ((serveRefresh_named hm id _).trans ((if_pos (refreshable_iff.mpr ⟨r, hl, ho, hid, he⟩)).trans ?_)) rfl
    rw [heard_settings]
    rfl
  · refine exec_refused (x := .refusedState) h ((serveRefresh_named hm id _).trans (if_neg fun hx => ?_)) rfl
    obtain ⟨r, hl, ho, hid, he⟩ := refreshable_iff.mp hx
    rcases hr r hl with hne | hne | hne
    · rw [ho] at hne; cases hne
    · exact hne hid
    · rw [he] at hne; cases hne
  · show finish (refreshTimerExpiry send m s) = .next s
    unfold refreshTimerExpiry
    rw [hr]
    exact finish_atRest hrest
  · obtain ⟨n, hsome⟩ := Option.ne_none_iff_exists'.mp hr
    have hexec : exec (.refreshTimerExpiry m) s =
        finish (endRun send m .refreshMissed (setChan m { s.chan m with refresh := none } s)) := by
      show finish (refreshTimerExpiry send m s) = _
      unfold refreshTimerExpiry
      rw [hsome]
    have hn' : NoHostEntries (setChan m { s.chan m with refresh := none } s) := hn
    exact ⟨_, hexec, ramped_of (endRun_ramped quiet_send hn' m .refreshMissed nofun) rfl rfl rfl rfl (still_beginWrite _)
      (beginWrite_hsc _)⟩

/-! ## STOP -/

theorem cascade_stops (ms : List MachineId) (s : State) : Cascade s (ms.foldl (stopMachine send) s) :=
  cascade_foldl ms (fun m _ => cascade_stopMachine cascades_send m) (.refl s)

/-- An inhibit order given again changes nothing, whether a cascade has given it already or not (R95). -/
theorem Cascade.inhibited_input {s t : State} (h : Cascade s t) (i : HoldInput) (r : Nat) (hr : s.settings.stations.releaseTime = r) :
    (t.input i).inhibited r = (s.input i).inhibited r := by
  rcases h.input i with k | k
  · rw [k]
  · rw [k, hr, inhibited_idem]

/-- STOP inhibits every input of the machines named (R14, R95). -/
theorem stops_inputs (ms : List MachineId) (s : State) (i : HoldInput) (hi : i.machine ∈ ms) :
    (ms.foldl (stopMachine send) s).input i = (s.input i).inhibited s.settings.stations.releaseTime := by
  induction ms generalizing s with
  | nil => cases hi
  | cons m ms ih =>
    have first : Cascade s (stopMachine send s m) := cascade_stopMachine cascades_send m (.refl s)
    by_cases hm : i.machine = m
    · have here := stop_inputs cascades_send m s i hm
      rcases (cascade_stops ms (stopMachine send s m)).input i with k | k
      · exact k.trans here
      · exact k.trans (by rw [here, first.settings, inhibited_idem])
    · have later := ih (stopMachine send s m) ((List.mem_cons.mp hi).resolve_left hm)
      rw [first.settings] at later
      exact later.trans (first.inhibited_input i _ rfl)

/-- A channel in a state whose run LINK_STOP completes at once. -/
def ChanState.notMovingYet (st : ChanState) : Bool := st == .waiting || st == .priming || st == .unlocking

/-- What LINK_STOP as a ramped reason makes of the channel `c` when nobody waits (R14, R15). -/
structure StoppedChan (c d : Channel) : Prop where
  moving : ∀ r, c.live = some r → c.state = .moving → c.demand ≠ 0 →
    d.state = .stopping ∧ d.live = some { r with endReason := some (r.endReason.getD .linkStop) } ∧ d.refresh = none ∧ d.demand = c.demand
  completed : ∀ r, c.live = some r → c.state = .priming ∨ c.state = .unlocking →
    d.state = .idle ∧ d.live = none ∧ d.refresh = none ∧
      d.last = some { r with endReason := some (r.endReason.getD .linkStop), endPos := some c.position }
  stopping : c.state = .stopping ∨ c.state = .locking → d.state = c.state ∧ d.live = c.live

theorem stoppedChan_of_ramped {m : MachineId} {s t : State} (h : RampedEnd m .linkStop s t) (hq : s.hsc.queue = []) :
    StoppedChan (s.chan m) (t.chan m) where
  moving r hl hs hd := by
    obtain ⟨state, live, refresh, demand, -⟩ := h.moving r hs hl hd
    exact ⟨state, live, refresh, demand⟩
  completed r hl hs := by
    obtain ⟨state, live, last, refresh, -⟩ := h.notMoving r (.inr hs) hl (.inl rfl) (by rw [hq]; rfl)
    exact ⟨state, live, refresh, last⟩
  stopping := h.stopping

/-- The same but for the flow share and the applied demand. -/
def SameRun (c d : Channel) : Prop := d = { c with share := d.share, applied := d.applied }

theorem SameRun.trans {c d e : Channel} (h : SameRun c d) (k : SameRun d e) : SameRun c e := by
  unfold SameRun at *
  rw [k, h]

theorem StoppedChan.of_left {c d e : Channel} (h : SameRun c d) (k : StoppedChan d e) : StoppedChan c e := by
  rw [h] at k
  exact ⟨k.moving, k.completed, k.stopping⟩

theorem StoppedChan.of_right {c d e : Channel} (h : StoppedChan c d) (k : SameRun d e) : StoppedChan c e := by
  rw [k]
  exact ⟨h.moving, h.completed, h.stopping⟩

/-- STOP of the machines `ms` one after another, with nobody waiting. -/
structure StoppedRuns (ms : List MachineId) (s t : State) : Prop where
  stopped : ∀ m ∈ ms, StoppedChan (s.chan m) (t.chan m)
  others : ∀ m, m ∉ ms → SameRun (s.chan m) (t.chan m)
  grants : (∀ m ∈ ms, (s.chan m).state = .moving → (s.chan m).demand ≠ 0) →
    t.hsc.grants = (ms.filter fun m => (s.chan m).state.notMovingYet).foldl List.erase s.hsc.grants

/-- The grants after the stop of one machine, which keeps its grant unless its run is completed at once. -/
theorem stop_grants {m : MachineId} {s t : State} (hd : (s.chan m).state = .moving → (s.chan m).demand ≠ 0)
    (hm : (s.chan m).state = .moving → (s.chan m).demand ≠ 0 → t.hsc.grants = s.hsc.grants)
    (hn : (s.chan m).state ≠ .moving → t.hsc.grants =
      if (s.chan m).state = .waiting ∨ (s.chan m).state = .priming ∨ (s.chan m).state = .unlocking then s.hsc.grants.erase m
      else s.hsc.grants) :
    t.hsc.grants = if (s.chan m).state.notMovingYet = true then s.hsc.grants.erase m else s.hsc.grants := by
  by_cases h : (s.chan m).state = .moving
  · rw [hm h (hd h), h]
    rfl
  · rw [hn h]
    simp only [ChanState.notMovingYet, Bool.or_eq_true, beq_iff_eq, or_assoc]

theorem stoppedRuns (ms : List MachineId) (hms : ms.Nodup) {s : State} (h : Undisturbed s) (hq : s.hsc.queue = []) :
    StoppedRuns ms s (ms.foldl (stopMachine send) s) := by
  induction ms generalizing s with
  | nil => exact ⟨nofun, fun _ _ => rfl, fun _ => rfl⟩
  | cons m ms ih =>
    obtain ⟨hm, hms⟩ := List.nodup_cons.mp hms
    obtain ⟨ramped, frame⟩ := stopMachine_spec quiet_send h m
    obtain ⟨settings, fis, queue, chan, moving, notMoving⟩ := frame hq
    have first := stoppedChan_of_ramped ramped hq
    rw [List.foldl_cons]
    generalize stopMachine send s m = t at *
    have undisturbed : Undisturbed t := undisturbed_of h settings fis
    obtain ⟨stopped, others, grants⟩ := ih hms undisturbed queue
    have same : ∀ k, k ≠ m → SameRun (s.chan k) (t.chan k) := chan
    have state : ∀ k, k ≠ m → (t.chan k).state = (s.chan k).state := fun k hk => by rw [same k hk]
    refine ⟨fun k hk => ?_, fun k hk => ?_, fun hd => ?_⟩
    · rcases List.mem_cons.mp hk with rfl | hk
      · exact first.of_right (others k hm)
      · exact (stopped k hk).of_left (same k fun e => hm (e ▸ hk))
    · obtain ⟨hkm, hk⟩ := not_or.mp (mt List.mem_cons.mpr hk)
      exact (same k hkm).trans (others k hk)
    · have filter : (ms.filter fun k => (t.chan k).state.notMovingYet) = ms.filter fun k => (s.chan k).state.notMovingYet :=
        List.filter_congr fun k hk => by rw [state k fun e => hm (e ▸ hk)]
      have later := grants fun k hk => by
        have hkm : k ≠ m := fun e => hm (e ▸ hk)
        rw [same k hkm]
        exact hd k (List.mem_cons_of_mem _ hk)
      rw [later, filter, stop_grants (hd m List.mem_cons_self) moving notMoving, List.filter_cons]
      split <;> rfl

/-- Settles O27. -/
theorem stopInhibitsAndEndsTheRun : Obligations.StopInhibitsAndEndsTheRun := by
  intro s b h
  refine ⟨fun hb => ?_, fun ms hms => ?_⟩
  · refine exec_refused (x := .refusedValue) h ?_ rfl
    show serveStop send b (heard s) = _
    unfold serveStop
    rw [hb]
  · have hserve : serveStop send b (heard s) = (ms.foldl (stopMachine send) (heard s), [0x00]) := by
      unfold serveStop
      rw [hms]
      rfl
    have k := cascade_stops ms (heard s)
    refine ⟨_, exec_served (i := .stop b) h hserve rfl, fun i hi => ?_, ?_, ?_, k.slp, ?_, fun m => ?_, ?_, ?_⟩
    · rw [stops_inputs ms _ i hi, heard_settings]
    · rw [k.settings, heard_settings]
    · rw [k.pins, heard_pins]
    · rw [k.rode, heard_rode]
    · rw [k.position, heard_position]
    · rintro m rfl hu
      exact (stopMachine_spec quiet_send hu m).1
    · rintro rfl hu hq
      obtain ⟨stopped, -, grants⟩ := stoppedRuns [.w, .p, .h] (by decide) hu hq
      refine ⟨fun m r hl => ?_, fun hd => grants fun m _ => hd m⟩
      obtain ⟨moving, completed, stopping⟩ := stopped m (by cases m <;> decide)
      exact ⟨moving r hl, completed r hl, fun hs => ⟨(stopping hs).1, (stopping hs).2.trans hl⟩⟩

end Sys2Proof.Machine
end

section
/-! PROOFS. The plain inputs and the built-in interlock entries (O35). -/

namespace Sys2Proof.Machine

/-! ## Re-evaluation in two parts -/

/-- The runs that the entries end and the starts they allow again, before BLOCKED and CAPPED follow (R120). -/
def afterEntries (go : Go) (es : List InterlockEntry) (s : State) : State :=
  es.foldl (fun s e => if e.blocks && !s.holds e then tryStart go e.machine s else s)
    (es.foldl (fun s e => if blockedRun s e then endRun go e.machine .interlock s else s) s)

/-- BLOCKED and CAPPED of every machine. -/
def restrictionItems : List ItemRef := machines.map Item.blocked ++ machines.map Item.capped

theorem reevaluate_eq (go : Go) (es : List InterlockEntry) (s : State) :
    reevaluate go es s = publishAll go restrictionItems (afterEntries go es s) := rfl

theorem cascade_afterEntries {go : Go} (hgo : Cascades go) (es : List InterlockEntry) (s : State) : Cascade s (afterEntries go es s) :=
  cascade_foldl _ (fun _ _ hs => cascade_when hs fun k => cascade_tryStart hgo _ k)
    (cascade_foldl _ (fun _ _ hs => cascade_when hs fun k => cascade_endRun hgo _ _ k) (.refl s))

/-- One entry that ends no run, and whose machine no press starts. -/
theorem afterEntries_idle {go : Go} {e : InterlockEntry} {s : State} (hb : blockedRun s e = false)
    (hv : e.blocks = false ∨ s.anyValid e.machine = false) : afterEntries go [e] s = s := by
  unfold afterEntries
  simp only [List.foldl_cons, List.foldl_nil, hb, Bool.false_eq_true, if_false]
  split
  · rename_i h
    rcases hv with hv | hv
    · rw [hv] at h; cases h
    · exact tryStart_quiet go hv
  · rfl

/-! ## Items across the end of a handling -/

@[simp] theorem beginWrite_item (s : State) (q : ItemRef) : (beginWrite s).item q = s.item q :=
  item_silent (beginWrite_seu s) q

@[simp] theorem beginWrite_anyValid (s : State) (m : MachineId) : (beginWrite s).anyValid m = s.anyValid m :=
  anyValid_siq (beginWrite_siq s) m

theorem reacts_running {s : State} (h : s.phase = .running) (f : State → State) : reacts f s = f s := if_pos h

theorem reacts_asleep {s : State} (h : s.phase ≠ .running) (f : State → State) : reacts f s = s := if_neg h

/-! ## A plain input -/

theorem plainItem_builtIn (i : PlainInput) : plainItem i ∈ builtInItems := by cases i <;> decide

theorem itemNow_withPlain (s : State) (i : PlainInput) (a : Bool) :
    (s.onPins fun p => p.withPlain i a).itemNow (plainItem i) = a := by cases i <;> rfl

theorem exec_plain_running {s : State} (h : s.phase = .running) (i : PlainInput) (a : Bool) :
    exec (.ladderMatCradleChange i a) s = finish (publish send (s.onPins fun p => p.withPlain i a) (plainItem i)) := by
  show finish (plainInputChange send i a s) = _
  unfold plainInputChange
  rw [reacts_running (s := s.onPins fun p => p.withPlain i a) h]

/-- The item of a plain input takes a new level: its one built-in entry is re-evaluated, and nothing else follows (R118, R120). -/
theorem publish_plain {s : State} (hn : NoHostEntries s) (i : PlainInput) (hi : s.item (plainItem i) ≠ s.itemNow (plainItem i)) :
    ∃ w, Silent s w ∧ w.item (plainItem i) = s.itemNow (plainItem i) ∧
      publish send s (plainItem i) = reevaluate (deliver 63) [ownEntry i] w := by
  have hexists : (plainItem i).exists = true := (reported_builtIn _ (plainItem_builtIn i)).1
  let w0 := s.onSeu fun u => { u with items := poke u.items (plainItem i).index (s.itemNow (plainItem i)) }
  let w := evalWatches (plainItem i).group w0
  have silent : Silent s w := Silent.trans (t := w0) rfl (silent_evalWatches _ _)
  have item : w.item (plainItem i) = s.itemNow (plainItem i) := by
    rw [item_evalWatches, item_set _ _ _ _ hexists, if_pos rfl]
  refine ⟨w, silent, item, ?_⟩
  have hw : NoHostEntries w := hn.of_settings (by rw [silent])
  rw [← react_plain hw i (deliver 63)]
  unfold publish setItem
  rw [if_neg]
  · rfl
  · rintro (h | h)
    · exact hi h
    · rw [hexists] at h; cases h

/-- BLOCKED and CAPPED once the entry of a plain input has been re-evaluated (R4, R119). -/
theorem restrictions_reevaluated {s : State} (hn : NoHostEntries s) (es : List InterlockEntry) :
    let t := reevaluate (deliver 63) es s
    t.item (Item.blocked .p) = (t.item Item.ladderDown || ((t.chan .p).state == .idle && t.anyValid .p && t.hsc.isolate)) ∧
    t.item (Item.blocked .h) = (!t.item Item.cradleHome || ((t.chan .h).state == .idle && t.anyValid .h && t.hsc.isolate)) ∧
    t.item (Item.capped .p) = ((t.chan .p).live.isSome && t.item Item.matOccupied) := by
  intro t
  have k := cascade_afterEntries (cascades_deliver 63) es s
  have hv : NoHostEntries (afterEntries (deliver 63) es s) := hn.of_settings k.settings
  have published : ∀ m, Silent (afterEntries (deliver 63) es s) t ∧ _ ∧ t.item (Item.blocked m) = t.isBlocked m ∧
    t.item (Item.capped m) = t.isCapped m := restrictions_published (quiet_deliver 62) hv
  clear_value t
  obtain ⟨silent, -, blockedP, cappedP⟩ := published .p
  obtain ⟨-, -, blockedH, -⟩ := published .h
  have ht : NoHostEntries t := hv.of_settings (by rw [silent])
  rw [isBlocked_builtin ht] at blockedP blockedH
  rw [isCapped_builtin ht] at cappedP
  exact ⟨blockedP.trans (congrArg (· || _) (Bool.or_false _)), blockedH, cappedP⟩

/-- What a BLOCK entry coming to hold does to the run it stands against. -/
theorem plain_blocks {s : State} (hn : NoHostEntries s) (i : PlainInput) {m : MachineId} {d : Direction}
    (hi : s.item (plainItem i) ≠ s.itemNow (plainItem i)) (hm : (ownEntry i).machine = m) (hb : (ownEntry i).blocks = true)
    (hd : (ownEntry i).dir = some d) (hs : (ownEntry i).sense = s.itemNow (plainItem i))
    (hrun : ∀ r, (s.chan m).live = some r → r.dir = d) :
    RampedEnd m .interlock s (publish send s (plainItem i)) := by
  obtain ⟨w, silent, item, hpublish⟩ := publish_plain hn i hi
  have hch : w.chan m = s.chan m := by unfold State.chan; rw [silent]
  have hholds : w.holds (ownEntry i) = true := by
    have hitem : (ownEntry i).item = plainItem i := by cases i <;> rfl
    unfold State.holds
    rw [hitem, item, hs, beq_self_eq_true]
  rw [hpublish]
  have key := ramped_reevaluate (n := 62) (hn.of_settings (by rw [silent])) m (ownEntry i) hm hb hholds fun r hr => by
    rw [hch] at hr
    unfold InterlockEntry.covers
    rw [hm, hd, hrun r hr, beq_self_eq_true, beq_self_eq_true, Bool.or_true, Bool.and_true]
  exact ramped_of key (by rw [silent]) (by rw [silent]) (by rw [silent]) (by rw [silent]) (.refl _) rfl

/-- With no run of its machine and no press there, the entry of a plain input moves nothing. -/
theorem plain_moves_nothing {s : State} (hn : NoHostEntries s) (i : PlainInput) (hi : s.item (plainItem i) ≠ s.itemNow (plainItem i))
    (h : (ownEntry i).blocks = false ∨ (s.chan (ownEntry i).machine).live = none ∧ s.anyValid (ownEntry i).machine = false) :
    Silent s (publish send s (plainItem i)) := by
  obtain ⟨w, silent, -, hpublish⟩ := publish_plain hn i hi
  have hch : w.chan (ownEntry i).machine = s.chan (ownEntry i).machine := by unfold State.chan; rw [silent]
  have hv : w.anyValid (ownEntry i).machine = s.anyValid (ownEntry i).machine := anyValid_siq (by rw [silent]) _
  rw [hpublish, reevaluate_eq, afterEntries_idle]
  · exact silent.trans (restrictions_published (quiet_deliver 62) (hn.of_settings (by rw [silent])) .w).1
  · rcases h with h | ⟨h, -⟩
    · exact blockedRun_cap h
    · exact blockedRun_none (hch ▸ h)
  · rw [hv]
    exact h.imp_right And.right

/-- Settles O35. -/
theorem ladderMatAndCradleAct : Obligations.LadderMatAndCradleAct := by
  intro s i a
  refine ⟨fun hp => ?_, fun hp => ?_⟩
  · show finish (plainInputChange send i a s) = _
    unfold plainInputChange
    rw [reacts_asleep (s := s.onPins fun p => p.withPlain i a) hp]
    exact finish_of_phase hp
  · have hexec := exec_plain_running hp i a
    have hnow := itemNow_withPlain s i a
    have hitem : (s.onPins fun p => p.withPlain i a).item (plainItem i) = s.item (plainItem i) := rfl
    let base := s.onPins fun p => p.withPlain i a
    change exec _ s = finish (publish send base (plainItem i)) at hexec
    change base.itemNow (plainItem i) = a at hnow
    change base.item (plainItem i) = s.item (plainItem i) at hitem
    have k : Cascade base (publish send base (plainItem i)) := cascade_publish cascades_send _ (.refl _)
    have published := item_publish_builtIn cascades_send base (plainItem i) (plainItem_builtIn i)
    refine ⟨beginWrite (publish send base (plainItem i)), hexec, ?_, ?_, ?_, ?_, ?_, fun m => ?_, fun he hr => ?_, fun hn hne => ?_⟩
    · rw [beginWrite_pins, k.pins]; rfl
    · rw [beginWrite_item]
      rw [hnow] at published
      cases i <;> exact published
    · rw [beginWrite_settings, k.settings]; rfl
    · rw [beginWrite_slp, k.slp]; rfl
    · rw [beginWrite_sfe, k.rode]; rfl
    · rw [beginWrite_chan, k.position]; rfl
    · have hsame : publish send base (plainItem i) = base := by
        unfold publish setItem
        rw [if_pos (.inl (by rw [hitem, he, hnow]))]
      rw [hsame]
      exact beginWrite_atRest (s := base) hr
    · have hnb : NoHostEntries base := hn
      have hchange : base.item (plainItem i) ≠ base.itemNow (plainItem i) := by
        rw [hitem, hne, hnow]
        cases a <;> nofun
      have still : ∀ {m}, RampedEnd m .interlock base (publish send base (plainItem i)) →
          RampedEnd m .interlock s (beginWrite (publish send base (plainItem i))) :=
        fun h => ramped_of h rfl rfl rfl rfl (still_beginWrite _) (beginWrite_hsc _)
      have unmoved : Silent base (publish send base (plainItem i)) →
          (beginWrite (publish send base (plainItem i))).mc = s.mc ∧ (beginWrite (publish send base (plainItem i))).hsc = s.hsc :=
        fun h => by
          rw [beginWrite_mc, beginWrite_hsc, h]
          exact ⟨rfl, rfl⟩
      refine ⟨?_, ?_, ?_, ?_, ?_, ?_⟩
      · rintro rfl hr
        have h := plain_moves_nothing hnb .mat hchange (.inl rfl)
        rw [beginWrite_atRest]
        · exact h
        · rw [h]; exact hr
      · rintro rfl rfl hrun
        exact still (plain_blocks hnb .ladder hchange rfl rfl rfl hnow.symm hrun)
      · rintro rfl rfl hrun
        exact still (plain_blocks hnb .cradle hchange rfl rfl rfl hnow.symm hrun)
      · rintro rfl hlive hvalid
        exact unmoved (plain_moves_nothing hnb .ladder hchange (.inr ⟨hlive, hvalid⟩))
      · rintro rfl hlive hvalid
        exact unmoved (plain_moves_nothing hnb .cradle hchange (.inr ⟨hlive, hvalid⟩))
      · obtain ⟨w, silent, -, hpublish⟩ := publish_plain hnb i hchange
        simp only [beginWrite_item, beginWrite_chan, beginWrite_anyValid, beginWrite_hsc]
        rw [hpublish]
        exact restrictions_reevaluated (hnb.of_settings (by rw [silent])) _

end Sys2Proof.Machine
end

section
/-! PROOFS. WRITE INTERLOCK (O34): with an entry of the host in force, whose item does not follow the running of the machines. -/

namespace Sys2Proof.Machine

/-! ## Publishing the items that follow the running -/

/-- No entry names an item that follows the running of the machines (R121). -/
def EntriesAside (s : State) : Prop := ∀ e ∈ s.entries, e.item.followsRunning = false

theorem entries_of {s t : State} (h : t.settings = s.settings) : t.entries = s.entries := by
  unfold State.entries State.entry
  rw [h]

theorem EntriesAside.of_settings {s t : State} (h : EntriesAside s) (k : t.settings = s.settings) : EntriesAside t := by
  unfold EntriesAside at *
  rwa [entries_of k]

/-- A part that differs from `s` in the status unit alone, and there in the items that follow the running alone. -/
structure RunningItems (s t : State) : Prop where
  silent : Silent s t
  others : ∀ q : ItemRef, q.followsRunning = false → t.item q = s.item q

theorem RunningItems.refl (s : State) : RunningItems s s := ⟨.refl s, fun _ _ => rfl⟩

theorem RunningItems.trans {s t u : State} (h : RunningItems s t) (k : RunningItems t u) : RunningItems s u :=
  ⟨h.silent.trans k.silent, fun q hq => (k.others q hq).trans (h.others q hq)⟩

theorem RunningItems.settings {s t : State} (h : RunningItems s t) : t.settings = s.settings := by rw [h.silent]

variable {n : Nat} {s t : State}

/-- An item that no entry names is published without consequences (R120, R164). -/
theorem setItem_running (h : EntriesAside s) {r : ItemRef} (hr : r.followsRunning = true) (v : Bool) :
    RunningItems s (setItem (deliver (n + 1)) r v s) ∧
      ∀ q, (setItem (deliver (n + 1)) r v s).item q = if q = r ∧ r.exists = true then v else s.item q := by
  unfold setItem
  split
  · rename_i hsame
    refine ⟨.refl s, fun q => ?_⟩
    split
    · rename_i hq
      obtain ⟨rfl, hq⟩ := hq
      exact hsame.resolve_right (by rw [hq]; nofun)
    · rfl
  · rename_i hsame
    have hexists : r.exists = true := by
      cases he : r.exists
      · exact absurd (.inr he) hsame
      · rfl
    let w0 := s.onSeu fun u => { u with items := poke u.items r.index v }
    have silent : Silent s (evalWatches r.group w0) := Silent.trans (t := w0) rfl (silent_evalWatches _ _)
    have hreact : deliver (n + 1) (.itemChanged r) (evalWatches r.group w0) = evalWatches r.group w0 := by
      rw [deliver_succ]
      show react (deliver n) r _ = _
      have hnone : (evalWatches r.group w0).entries.filter (fun e => e.item == r) = [] := by
        refine List.filter_eq_nil_iff.mpr fun e he heq => ?_
        have := (h.of_settings (t := evalWatches r.group w0) (by rw [silent])) e he
        rw [eq_of_beq heq, hr] at this
        cases this
      unfold react
      rw [hnone]
    have item : ∀ q, (evalWatches r.group w0).item q = if q = r then v else s.item q := fun q => by
      rw [item_evalWatches, item_set _ _ _ _ hexists]
    rw [hreact]
    refine ⟨⟨silent, fun q hq => ?_⟩, fun q => ?_⟩
    · rw [item, if_neg]
      rintro rfl
      rw [hr] at hq
      cases hq
    · rw [item, hexists]
      simp only [and_true]

theorem publish_running (h : EntriesAside s) {r : ItemRef} (hr : r.followsRunning = true) :
    RunningItems s (publish (deliver (n + 1)) s r) := (setItem_running h hr _).1

theorem publishAll_running (h : EntriesAside s) (rs : List ItemRef) (hr : ∀ r ∈ rs, r.followsRunning = true) :
    RunningItems s (publishAll (deliver (n + 1)) rs s) := by
  induction rs generalizing s with
  | nil => exact .refl s
  | cons r rs ih =>
    have k : RunningItems s (publish (deliver (n + 1)) s r) := publish_running h (hr r List.mem_cons_self)
    exact k.trans (ih (h.of_settings k.settings) fun x hx => hr x (List.mem_cons_of_mem _ hx))

theorem item_publishAll_running (h : EntriesAside s) (rs : List ItemRef) (hr : ∀ r ∈ rs, r.followsRunning = true) {q : ItemRef}
    (hq : q ∉ rs) : (publishAll (deliver (n + 1)) rs s).item q = s.item q := by
  induction rs generalizing s with
  | nil => rfl
  | cons r rs ih =>
    obtain ⟨hqr, hqs⟩ := not_or.mp (mt List.mem_cons.mpr hq)
    obtain ⟨k, item⟩ := setItem_running (n := n) h (hr r List.mem_cons_self) (s.itemNow r)
    exact (ih (h.of_settings k.settings) (fun x hx => hr x (List.mem_cons_of_mem _ hx)) hqs).trans
      ((item q).trans (if_neg fun e => hqr e.1))

/-- An item that its owner's rule gives as true, whatever the other items that follow the running are, is published true. -/
theorem item_publishAll_true (h : EntriesAside s) (rs : List ItemRef) (hr : ∀ r ∈ rs, r.followsRunning = true) {q : ItemRef}
    (hq : q ∈ rs) (hexists : q.exists = true) (hnow : ∀ t, RunningItems s t → t.itemNow q = true) :
    (publishAll (deliver (n + 1)) rs s).item q = true := by
  induction rs generalizing s with
  | nil => cases hq
  | cons r rs ih =>
    obtain ⟨k, item⟩ := setItem_running (n := n) h (hr r List.mem_cons_self) (s.itemNow r)
    have hrs : ∀ x ∈ rs, x.followsRunning = true := fun x hx => hr x (List.mem_cons_of_mem _ hx)
    by_cases hm : q ∈ rs
    · exact ih (h.of_settings k.settings) hrs hm fun t ht => hnow t (k.trans ht)
    · obtain rfl := (List.mem_cons.mp hq).resolve_right hm
      refine (item_publishAll_running (h.of_settings k.settings) rs hrs hm).trans ((item q).trans ?_)
      rw [if_pos ⟨rfl, hexists⟩]
      exact hnow s (.refl s)

/-! ## A MOVING run that takes a ramped reason -/

theorem channelItems_running (m : MachineId) : ∀ r ∈ channelItems m, r.followsRunning = true := by cases m <;> decide

theorem restrictionItems_running : ∀ r ∈ restrictionItems, r.followsRunning = true := by decide

theorem judgeOverlay_seu (m : MachineId) (s : State) : (judgeOverlay m s).seu = s.seu := by
  unfold judgeOverlay
  dsimp only
  split <;> rfl

theorem displayFollows_seu (old : ChanState) (m : MachineId) (s : State) : (displayFollows old m s).seu = s.seu := by
  unfold displayFollows
  dsimp only
  rw [judgeOverlay_seu]
  repeat' split
  all_goals rfl

/-- What a ramped reason makes of the part when the run of `m` is in MOVING with a demand, whatever entries are in force (R15). -/
structure RampStarts (m : MachineId) (x : EndReason) (r : RunRec) (s t : State) : Prop where
  settings : t.settings = s.settings
  siq : t.siq = s.siq
  state : (t.chan m).state = .stopping
  live : (t.chan m).live = some { r with endReason := some (r.endReason.getD x) }
  refresh : (t.chan m).refresh = none
  demand : (t.chan m).demand = (s.chan m).demand
  grants : t.hsc.grants = s.hsc.grants
  others : ∀ k, k ≠ m → (t.chan k).live = (s.chan k).live
  items : ∀ q : ItemRef, q.followsRunning = false → t.item q = s.item q

theorem endRun_rampStarts (h : EntriesAside s) {m : MachineId} (x : EndReason) {r : RunRec} (hs : (s.chan m).state = .moving)
    (hl : (s.chan m).live = some r) (hd : (s.chan m).demand ≠ 0) : RampStarts m x r s (endRun (deliver (n + 1)) m x s) := by
  have hend : endRun (deliver (n + 1)) m x s = recompute (deliver (n + 1)) (enter (deliver (n + 1)) m .stopping (noteReason m x s)) := by
    unfold endRun
    rw [hs]
    exact if_neg hd
  rw [hend, noteReason_eq _ _ _ _ hl]
  let c : Channel := { s.chan m with live := some { r with endReason := some (r.endReason.getD x) }, refresh := none }
  let w := setChan m c s
  have hc : w.chan m = c := setChan_chan_same _ _ _
  have henter : enter (deliver (n + 1)) m .stopping w =
      publishAll (deliver (n + 1)) (channelItems m) (displayFollows .moving m (stateCore m .stopping w)) := by
    have hstate : (w.chan m).state = .moving := (congrArg Channel.state hc).trans hs
    unfold enter
    rw [hstate]
    show changeState (deliver (n + 1)) m .stopping w = _
    unfold changeState
    rw [hstate]
    rfl
  let d := displayFollows .moving m (stateCore m .stopping w)
  have calm : Calm (stateCore m .stopping w) d := calm_displayFollows _ _ _
  have hdset : d.settings = s.settings := calm.settings.trans (stateCore_settings _ _ _)
  have k : RunningItems d (enter (deliver (n + 1)) m .stopping w) := by
    rw [henter]
    exact publishAll_running (h.of_settings hdset) _ (channelItems_running m)
  generalize enter (deliver (n + 1)) m .stopping w = e at k
  have hsil : Silent d e := k.silent
  have kr : RunningItems (shareCore e) (recompute (deliver (n + 1)) e) :=
    publish_running (r := Item.scaled) ((h.of_settings (k.settings.trans hdset)).of_settings (shareCore_settings e)) rfl
  have st : Still (stateCore m .stopping w) (recompute (deliver (n + 1)) e) :=
    (calm.still.trans hsil.calm.still).trans ((still_shareCore e).trans kr.silent.calm.still)
  have hcore : ∀ k, (stateCore m .stopping w).chan k = if m = k then { c with state := .stopping } else s.chan k := fun k => by
    rw [stateCore_chan, hc]
    split
    · rfl
    · rename_i hk; exact (setChan_chan _ _ _ _).trans (if_neg hk)
  have hm := st.chan m
  rw [hcore, if_pos rfl] at hm
  refine ⟨?_, ?_, ?_, ?_, ?_, ?_, ?_, fun k hk => ?_, fun q hq => ?_⟩
  · rw [st.settings, stateCore_settings]; rfl
  · rw [st.siq, stateCore_eq]; rfl
  · rw [hm]
  · rw [hm]
  · rw [hm]
  · rw [hm]
  · rw [st.grants, stateCore_eq]; rfl
  · rw [st.chan, hcore, if_neg (Ne.symm hk)]
  · have seu : (shareCore e).seu = e.seu := by rw [shareCore_eq]
    have seuD : d.seu = s.seu := (displayFollows_seu _ _ _).trans (by rw [stateCore_eq]; rfl)
    rw [kr.others q hq, item_of_seu seu, k.others q hq, item_of_seu seuD]

/-! ## Re-evaluation where one machine alone has a run and no input is VALID -/

theorem itemNow_blocked (s : State) (m : MachineId) : s.itemNow (Item.blocked m) = s.isBlocked m := by cases m <;> rfl

theorem itemNow_capped (s : State) (m : MachineId) : s.itemNow (Item.capped m) = s.isCapped m := by cases m <;> rfl

theorem foldl_tryStart_quiet (go : Go) (es : List InterlockEntry) (hv : ∀ k, s.anyValid k = false) :
    es.foldl (fun s e => if e.blocks && !s.holds e then tryStart go e.machine s else s) s = s := by
  induction es with
  | nil => rfl
  | cons e es ih =>
    have hstep : (if (e.blocks && !s.holds e) = true then tryStart go e.machine s else s) = s := by
      rw [tryStart_quiet go (hv e.machine), ite_self]
    rw [List.foldl_cons, hstep]
    exact ih

/-- A run that is STOPPING, the only one, takes no further reason. -/
theorem foldl_endRun_stopping (go : Go) (es : List InterlockEntry) {m : MachineId} (hs : (s.chan m).state = .stopping)
    (ho : ∀ k, k ≠ m → (s.chan k).live = none) :
    es.foldl (fun s e => if blockedRun s e then endRun go e.machine .interlock s else s) s = s := by
  induction es with
  | nil => rfl
  | cons e es ih =>
    have hstep : (if blockedRun s e = true then endRun go e.machine .interlock s else s) = s := by
      by_cases hm : e.machine = m
      · have : endRun go e.machine .interlock s = s := by
          unfold endRun
          rw [hm, hs]
        rw [this, ite_self]
      · rw [blockedRun_none (ho _ hm)]
        rfl
    rw [List.foldl_cons, hstep]
    exact ih

/-- The first entry that blocks the only run ends it; those after it find it STOPPING. -/
theorem foldl_endRun_first (h : EntriesAside s) (es : List InterlockEntry) {m : MachineId} {r : RunRec}
    (hs : (s.chan m).state = .moving) (hl : (s.chan m).live = some r) (hd : (s.chan m).demand ≠ 0)
    (ho : ∀ k, k ≠ m → (s.chan k).live = none) (hb : ∃ e ∈ es, blockedRun s e = true) :
    es.foldl (fun s e => if blockedRun s e then endRun (deliver (n + 1)) e.machine .interlock s else s) s =
      endRun (deliver (n + 1)) m .interlock s := by
  induction es with
  | nil =>
    obtain ⟨e, he, -⟩ := hb
    cases he
  | cons e es ih =>
    rw [List.foldl_cons]
    by_cases he : blockedRun s e = true
    · have hm : e.machine = m := by
        by_contra hm
        rw [blockedRun_none (ho _ hm)] at he
        cases he
      rw [if_pos he, hm]
      have k := endRun_rampStarts (n := n) h .interlock hs hl hd
      exact foldl_endRun_stopping _ es k.state fun j hj => (k.others j hj).trans (ho j hj)
    · rw [if_neg he]
      refine ih ?_
      obtain ⟨d, hd, hdb⟩ := hb
      rcases List.mem_cons.mp hd with rfl | hd
      · exact absurd hdb he
      · exact ⟨d, hd, hdb⟩

/-- No entry blocks a run. -/
theorem foldl_endRun_none (go : Go) (es : List InterlockEntry) (hb : ∀ e ∈ es, blockedRun s e = false) :
    es.foldl (fun s e => if blockedRun s e then endRun go e.machine .interlock s else s) s = s := by
  induction es with
  | nil => rfl
  | cons e es ih =>
    rw [List.foldl_cons, hb e List.mem_cons_self]
    exact ih fun d hd => hb d (List.mem_cons_of_mem _ hd)

/-- A BLOCK entry in force that matches the only run of the part, in MOVING with a demand, is re-evaluated with all the others
(R120). -/
theorem reevaluate_blocks (h : EntriesAside s) (hv : ∀ k, s.anyValid k = false) {m : MachineId} {r : RunRec} {e : InterlockEntry}
    (hs : (s.chan m).state = .moving) (hl : (s.chan m).live = some r) (hd : (s.chan m).demand ≠ 0)
    (ho : ∀ k, k ≠ m → (s.chan k).live = none) (he : e ∈ s.entries) (hm : e.machine = m) (hblocks : e.blocks = true)
    (hcovers : e.covers m r.dir = true) (hholds : s.holds e = true) :
    RampStarts m .interlock r s (reevaluate (deliver (n + 1)) s.entries s) ∧
      (reevaluate (deliver (n + 1)) s.entries s).item (Item.blocked m) = true := by
  have hblocked : blockedRun s e = true := by
    unfold blockedRun
    rw [hm, hl]
    dsimp only
    rw [hblocks, hcovers, hholds]
    rfl
  have k := endRun_rampStarts (n := n) h .interlock hs hl hd
  rw [reevaluate_eq]
  unfold afterEntries
  rw [foldl_endRun_first h s.entries hs hl hd ho ⟨e, he, hblocked⟩]
  generalize endRun (deliver (n + 1)) m .interlock s = t at k
  rw [foldl_tryStart_quiet _ _ fun j => (anyValid_siq k.siq j).trans (hv j)]
  have ht : EntriesAside t := h.of_settings k.settings
  have p := publishAll_running (n := n) ht restrictionItems restrictionItems_running
  have blocked := item_publishAll_true (n := n) ht restrictionItems restrictionItems_running (q := Item.blocked m)
    (by cases m <;> decide) (by cases m <;> decide) fun w hw => by
      rw [itemNow_blocked]
      unfold State.isBlocked State.anyBlock
      rw [entries_of (hw.settings.trans k.settings), Bool.or_eq_true]
      refine .inl (List.any_eq_true.mpr ⟨e, he, ?_⟩)
      have hitem : w.holds e = s.holds e := by
        unfold State.holds
        rw [hw.others _ (h e he), k.items _ (h e he)]
      rw [hitem, hholds, hblocks, hm, beq_self_eq_true]
      rfl
  generalize publishAll (deliver (n + 1)) restrictionItems t = u at p blocked
  have hch : ∀ j, u.chan j = t.chan j := p.silent.calm.chan
  refine ⟨⟨p.settings.trans k.settings, ?_, ?_, ?_, ?_, ?_, ?_, fun j hj => ?_, fun q hq => (p.others q hq).trans (k.items q hq)⟩, blocked⟩
  · exact p.silent.calm.siq.trans k.siq
  · rw [hch, k.state]
  · rw [hch, k.live]
  · rw [hch, k.refresh]
  · rw [hch, k.demand]
  · rw [p.silent.calm.hsc, k.grants]
  · rw [hch, k.others j hj]

theorem lowestCap_isSome {m : MachineId} {d : Direction} {e : InterlockEntry} {v : Nat} (he : e ∈ s.entries)
    (ha : e.action = .cap v) (hc : e.covers m d = true) (hh : s.holds e = true) : (s.lowestCap m d).isSome = true := by
  unfold State.lowestCap
  generalize s.entries = es at he
  have hfold : ∀ low : Option Nat, low.isSome = true ∨ e ∈ es →
      (es.foldl (fun low e => match e.action with
        | .cap v => if (e.covers m d && s.holds e) = true then some (match low with | none => v | some x => min x v) else low
        | .block => low) low).isSome = true := by
    clear he
    induction es with
    | nil =>
      rintro low (h | h)
      · exact h
      · cases h
    | cons y ys ih =>
      intro low h
      rw [List.foldl_cons]
      refine ih _ ?_
      rcases h with h | h
      · left
        split
        · split
          · rfl
          · exact h
        · exact h
      · rcases List.mem_cons.mp h with rfl | h
        · left
          rw [ha]
          dsimp only
          rw [hc, hh]
          rfl
        · exact .inr h
  exact hfold none (.inr he)

/-- A CAP entry in force that matches the run of `m` is re-evaluated with the others, none of which blocks a run (R119, R120). -/
theorem reevaluate_caps (h : EntriesAside s) (hv : ∀ k, s.anyValid k = false) {m : MachineId} {r : RunRec} {e : InterlockEntry} {v : Nat}
    (hl : (s.chan m).live = some r) (hnone : ∀ e ∈ s.entries, blockedRun s e = false) (he : e ∈ s.entries)
    (ha : e.action = .cap v) (hcovers : e.covers m r.dir = true) (hholds : s.holds e = true) :
    Silent s (reevaluate (deliver (n + 1)) s.entries s) ∧ (reevaluate (deliver (n + 1)) s.entries s).item (Item.capped m) = true := by
  rw [reevaluate_eq]
  unfold afterEntries
  rw [foldl_endRun_none _ _ hnone, foldl_tryStart_quiet _ _ hv]
  refine ⟨(publishAll_running h restrictionItems restrictionItems_running).silent,
    item_publishAll_true h restrictionItems restrictionItems_running (by cases m <;> decide) (by cases m <;> decide) fun w hw => ?_⟩
  have hch : w.chan m = s.chan m := hw.silent.calm.chan m
  rw [itemNow_capped]
  unfold State.isCapped
  rw [hch, hl]
  refine lowestCap_isSome (e := e) ?_ ha hcovers ?_
  · rw [entries_of hw.settings]; exact he
  · unfold State.holds at *
    rw [hw.others _ (h e he)]
    exact hholds

/-! ## The entry written -/

/-- The configuration with entry `i` replaced. -/
def withEntry (i : Nat) (e : Option InterlockEntry) (s : State) : State :=
  s.onSettings fun t => { t with interlocks := poke t.interlocks (i - builtInEntries) e }

theorem blockedRun_withEntry (i : Nat) (e : Option InterlockEntry) (s : State) (d : InterlockEntry) :
    blockedRun (withEntry i e s) d = blockedRun s d := rfl

theorem replaceEntry_empty (go : Go) {i : Nat} (e : Option InterlockEntry) (h : s.entry i = none) :
    replaceEntry go i e s = reevaluate go (withEntry i e s).entries (withEntry i e s) := by
  unfold replaceEntry
  rw [h]
  rfl

theorem mem_entries {e : InterlockEntry} : e ∈ s.entries ↔ ∃ j, j < 24 ∧ s.entry j = some e := by
  unfold State.entries
  rw [List.mem_filterMap]
  exact exists_congr fun j => and_congr_left' List.mem_range

variable {i : Nat} {e : InterlockEntry}

theorem mem_entries_withEntry (hi : 3 ≤ i ∧ i ≤ 23) : e ∈ (withEntry i (some e) s).entries :=
  mem_entries.mpr ⟨i, by omega, (entry_replaced i hi (some e) s i (by omega)).trans (if_pos rfl)⟩

/-- The entries after the write of one into a part without host entries. -/
theorem mem_entries_withEntry_cases (hi : 3 ≤ i ∧ i ≤ 23) {d : InterlockEntry} (hd : d ∈ (withEntry i (some e) s).entries) :
    d = e ∨ d ∈ s.entries := by
  obtain ⟨j, hj, hjd⟩ := mem_entries.mp hd
  have := (entry_replaced i hi (some e) s j hj).symm.trans hjd
  split at this
  · exact .inl (Option.some.inj this).symm
  · exact .inr (mem_entries.mpr ⟨j, hj, this⟩)

theorem entriesAside_withEntry (hn : NoHostEntries s) (hi : 3 ≤ i ∧ i ≤ 23) (he : e.item.followsRunning = false) :
    EntriesAside (withEntry i (some e) s) := by
  intro d hd
  rcases mem_entries_withEntry_cases hi hd with rfl | hd
  · exact he
  · obtain ⟨j, -, hj⟩ := mem_entries.mp hd
    have hbuilt : ∀ q ∈ builtInItems, q.followsRunning = false := by decide
    exact hbuilt _ (entry_builtIn hn hj)

/-! ## The request -/

theorem writable_iff (b : Byte) : writableEntry b.toNat = true ↔ 3 ≤ b.toNat ∧ b.toNat ≤ 23 := by
  unfold writableEntry builtInEntries interlockEntries
  rw [decide_eq_true_iff]
  omega

theorem actionNamed_none {a : Byte} (cap : Option Half) (h : a ≠ 1 ∧ a ≠ 2) : actionNamed a cap = none := by
  have h1 : a.toNat ≠ 1 := fun hx => h.1 (BitVec.eq_of_toNat_eq hx)
  have h2 : a.toNat ≠ 2 := fun hx => h.2 (BitVec.eq_of_toNat_eq hx)
  unfold actionNamed
  split
  · rename_i hx; exact absurd hx h1
  · rename_i hx; exact absurd hx h2
  · rfl

/-- The entry of fields that are all defined, for an item that does not follow the running. -/
theorem entryNamed_some {f : EntryFields} {m : MachineId} {d : Option Direction} {r : ItemRef} {v : Bool} {a : InterlockAction}
    (hm : machineNamed f.machine = some m) (hd : entryDirectionNamed f.dir = some d) (hr : itemNamed f.group f.place = some r)
    (hf : r.followsRunning = false) (hv : yesNoNamed f.sense = some v) (ha : actionNamed f.action f.cap = some a) :
    entryNamed f = some { machine := m, dir := d, item := r, sense := v, action := a } := by
  unfold entryNamed
  rw [hm, hd, hr, hv, ha]
  dsimp only
  rw [hf]
  rfl

theorem entryNamed_none {f : EntryFields}
    (h : machineNamed f.machine = none ∨ entryDirectionNamed f.dir = none ∨ itemNamed f.group f.place = none ∨
      yesNoNamed f.sense = none ∨ (f.action ≠ 1 ∧ f.action ≠ 2) ∨
      (∃ r, itemNamed f.group f.place = some r ∧ r.followsRunning = true)) : entryNamed f = none := by
  unfold entryNamed
  split
  · rename_i m d r v a hm hd hr hv ha
    split
    · rfl
    · rename_i hf
      rcases h with h | h | h | h | h | ⟨q, hq, h⟩
      · rw [hm] at h; cases h
      · rw [hd] at h; cases h
      · rw [hr] at h; cases h
      · rw [hv] at h; cases h
      · rw [actionNamed_none _ h] at ha; cases ha
      · rw [hr] at hq
        cases hq
        exact absurd h hf
  · rfl

theorem actionNamed_block {f : EntryFields} (ha : f.action = 1) (hc : f.cap = none) : actionNamed f.action f.cap = some .block := by
  rw [ha, hc]; rfl

theorem actionNamed_cap {f : EntryFields} {x : Half} (ha : f.action = 2) (hc : f.cap = some x) :
    actionNamed f.action f.cap = some (.cap x.toNat) := by
  rw [ha, hc]; rfl

theorem exec_writeInterlock {b : Byte} {f : EntryFields} (h : Serving s) (hb : 3 ≤ b.toNat ∧ b.toNat ≤ 23)
    (he : entryNamed f = some e) :
    exec (.writeInterlock b (some f)) s =
      .next (answered 0xB0 [(accepted (e.clamped != e)).code] (replaceEntry send b.toNat (some e.clamped) (heard s))) := by
  refine exec_served h ?_ rfl
  show serveWriteInterlock send b (some f) (heard s) = _
  unfold serveWriteInterlock
  rw [(writable_iff b).mpr hb]
  dsimp only
  rw [he]
  rfl

theorem clamped_block (m : MachineId) (d : Option Direction) (r : ItemRef) (v : Bool) :
    (InterlockEntry.clamped ⟨m, d, r, v, .block⟩) = ⟨m, d, r, v, .block⟩ := rfl

theorem clamped_cap (m : MachineId) (d : Option Direction) (r : ItemRef) (v : Bool) (n : Nat) :
    (InterlockEntry.clamped ⟨m, d, r, v, .cap n⟩) = ⟨m, d, r, v, .cap (max 50 (min n 1000))⟩ := rfl

theorem status_cap (m : MachineId) (d : Option Direction) (r : ItemRef) (v : Bool) (n : Nat) :
    (accepted (InterlockEntry.clamped ⟨m, d, r, v, .cap n⟩ != ⟨m, d, r, v, .cap n⟩)).code =
      if max 50 (min n 1000) = n then 0x00 else 0x01 := by
  rw [accepted_ne, clamped_cap]
  simp only [InterlockEntry.mk.injEq, InterlockAction.cap.injEq, true_and]

/-- What WRITE INTERLOCK of the entry `b` leaves, whatever the part makes of it (R121). -/
theorem write_leaves {b : Byte} (hb : 3 ≤ b.toNat ∧ b.toNat ≤ 23) (e : Option InterlockEntry) :
    let u := replaceEntry send b.toNat e (heard s)
    u.settings = { s.settings with interlocks := u.settings.interlocks } ∧
      (∀ i, i < 24 → u.entry i = if i = b.toNat then e else s.entry i) ∧
      u.pins = s.pins ∧ u.slp = (heard s).slp ∧ u.sfe.rode = s.sfe.rode ∧ ∀ m, (u.chan m).position = (s.chan m).position := by
  intro u
  have k : Cascade (withEntry b.toNat e (heard s)) u := cascade_replace b.toNat e (heard s)
  refine ⟨?_, fun i hi => ?_, k.pins.trans (heard_pins s), k.slp, k.rode.trans (heard_rode s),
    fun m => (k.position m).trans (heard_position s m)⟩
  · rw [k.settings]
    unfold withEntry State.onSettings
    dsimp only
    rw [heard_settings]
  · have := entry_replaced b.toNat hb e (heard s) i hi
    rw [heard_entry] at this
    rw [← this]
    unfold State.entry
    rw [k.settings]
    rfl

/-- An entry just written into a part without host entries, whose condition holds for the run of `m`. -/
structure WrittenFor (m : MachineId) (r : RunRec) (i : Nat) (e : InterlockEntry) (s w : State) : Prop where
  eq : w = withEntry i (some e) s
  aside : EntriesAside w
  mem : e ∈ w.entries
  machine : e.machine = m
  covers : e.covers m r.dir = true
  holds : w.holds e = true
  replaced : replaceEntry send i (some e) s = reevaluate (deliver 64) w.entries w

theorem writtenFor (hn : NoHostEntries s) (hi : 3 ≤ i ∧ i ≤ 23) {m : MachineId} {d : Option Direction} {q : ItemRef} {v : Bool}
    {a : InterlockAction} {r : RunRec} (hq : q.followsRunning = false) (hd : d = none ∨ d = some r.dir) (hv : s.item q = v) :
    ∃ w, WrittenFor m r i ⟨m, d, q, v, a⟩ s w := by
  refine ⟨_, rfl, entriesAside_withEntry hn hi hq, mem_entries_withEntry hi, rfl, ?_, beq_iff_eq.mpr hv, replaceEntry_empty send _ ?_⟩
  · unfold InterlockEntry.covers
    rw [beq_self_eq_true, Bool.true_and, Bool.or_eq_true]
    exact hd.imp beq_iff_eq.mpr beq_iff_eq.mpr
  · unfold State.entry builtInEntries
    rw [if_neg (by omega)]
    exact hn _ (by omega)

/-- With no BLOCK entry that matches the run of `m`, no entry for `m` blocks it. -/
theorem blockedRun_of_blockMatches {m : MachineId} {r : RunRec} (hl : (s.chan m).live = some r) (hb : s.blockMatches m r.dir = false)
    (he : e ∈ s.entries) (hm : e.machine = m) : blockedRun s e = false := by
  unfold blockedRun
  rw [hm, hl]
  exact Bool.eq_false_iff.mpr (List.any_eq_false.mp hb e he)

/-- Settles O34. -/
theorem writeInterlockReplacesTheEntry : Obligations.WriteInterlockReplacesTheEntry := by
  intro s b h
  refine ⟨fun hb x => ?_, fun h3 h23 => ⟨?_, fun f => ⟨fun hf => ?_, fun m d r v hm hd hr hrun hv => ⟨fun ha hc => ?_, fun x ha hc => ?_⟩⟩,
    fun m d r v run hn hvalid hlive hothers f hm hd hr hrun hv hdir hitem => ⟨fun ha hc hs hdem => ?_, fun x ha hc hblock => ?_⟩⟩⟩
  · refine exec_refused (x := .refusedValue) h ?_ (by cases x <;> rfl) (by cases x <;> rfl)
    show serveWriteInterlock send b x (heard s) = _
    unfold serveWriteInterlock
    rw [if_neg fun hw => ?_]
    have := (writable_iff b).mp hw
    omega
  · refine ⟨_, exec_served h ?_ rfl, write_leaves ⟨h3, h23⟩ none⟩
    show serveWriteInterlock send b none (heard s) = _
    unfold serveWriteInterlock
    rw [(writable_iff b).mpr ⟨h3, h23⟩]
    rfl
  · refine exec_refused (x := .refusedValue) h ?_ rfl
    show serveWriteInterlock send b (some f) (heard s) = _
    unfold serveWriteInterlock
    rw [(writable_iff b).mpr ⟨h3, h23⟩]
    dsimp only
    rw [entryNamed_none hf]
    rfl
  · refine ⟨_, ?_, write_leaves ⟨h3, h23⟩ _⟩
    rw [exec_writeInterlock h ⟨h3, h23⟩ (entryNamed_some hm hd hr hrun hv (actionNamed_block ha hc)), clamped_block, accepted_ne, if_pos rfl]
  · refine ⟨_, ?_, write_leaves ⟨h3, h23⟩ _⟩
    rw [exec_writeInterlock h ⟨h3, h23⟩ (entryNamed_some hm hd hr hrun hv (actionNamed_cap ha hc)), status_cap, clamped_cap]
  · obtain ⟨w, hw⟩ := writtenFor (i := b.toNat) (m := m) (a := .block) (noHost_heard hn) ⟨h3, h23⟩ hrun hdir hitem
    obtain ⟨ramp, blocked⟩ : RampStarts m .interlock run w (reevaluate (deliver 64) w.entries w) ∧
        (reevaluate (deliver 64) w.entries w).item (Item.blocked m) = true :=
      reevaluate_blocks (n := 63) hw.aside (by rw [hw.eq]; exact hvalid) (by rw [hw.eq]; exact hs) (by rw [hw.eq]; exact hlive)
        (by rw [hw.eq]; exact hdem) (by rw [hw.eq]; exact hothers) hw.mem hw.machine rfl hw.covers hw.holds
    refine ⟨_, ?_, ramp.state, ramp.live, ramp.refresh, ramp.demand.trans (by rw [hw.eq]; rfl),
      ramp.grants.trans (by rw [hw.eq]; rfl), blocked⟩
    rw [exec_writeInterlock h ⟨h3, h23⟩ (entryNamed_some hm hd hr hrun hv (actionNamed_block ha hc)), clamped_block, accepted_ne,
      if_pos rfl, hw.replaced]
  · obtain ⟨w, hw⟩ := writtenFor (i := b.toNat) (m := m) (a := .cap (max 50 (min x.toNat 1000))) (noHost_heard hn) ⟨h3, h23⟩ hrun hdir hitem
    have hnone : ∀ e ∈ w.entries, blockedRun w e = false := fun e he => by
      rw [hw.eq] at he ⊢
      rcases mem_entries_withEntry_cases ⟨h3, h23⟩ he with rfl | he
      · exact blockedRun_cap rfl
      · rw [blockedRun_withEntry]
        by_cases hem : e.machine = m
        · exact blockedRun_of_blockMatches hlive hblock he hem
        · exact blockedRun_none (hothers _ hem)
    obtain ⟨silent, capped⟩ : Silent w (reevaluate (deliver 64) w.entries w) ∧
        (reevaluate (deliver 64) w.entries w).item (Item.capped m) = true :=
      reevaluate_caps (n := 63) hw.aside (by rw [hw.eq]; exact hvalid) (by rw [hw.eq]; exact hlive) hnone hw.mem rfl hw.covers hw.holds
    refine ⟨_, ?_, ?_, ?_, capped⟩
    · rw [exec_writeInterlock h ⟨h3, h23⟩ (entryNamed_some hm hd hr hrun hv (actionNamed_cap ha hc)), status_cap, clamped_cap,
        hw.replaced]
    · rw [silent.calm.mc, hw.eq]
      rfl
    · rw [silent.calm.hsc, hw.eq]
      rfl

end Sys2Proof.Machine
end

section
/-! PROOFS. CLEAR FAULT and SERVICE CLEAR (O37). -/

namespace Sys2Proof.Machine

/-! ## The causes that a request names -/

theorem causeSetting_heard (s : State) (c : Nat) : (heard s).causeSetting c = s.causeSetting c := by
  unfold State.causeSetting; rw [heard_settings]

/-- What a clear of class `k` may clear, as the manual words it (R109, R111). -/
theorem clearable_heard (s : State) (k : CauseClass) (c : Nat) :
    (heard s).clearable k c = (((heard s).cause c).active && decide ((s.causeSetting c).cls = k) && !((heard s).cause c).present) := by
  unfold State.clearable
  rw [causeSetting_heard, beq_eq_decide]

theorem causesNamed_none {b : Byte} (h : b ∉ 0xFF :: (List.range 16).map fun c => BitVec.ofNat 8 c) : causesNamed b = none :=
  Option.not_isSome_iff_eq_none.mp (mt (codes_named b).mpr h)

theorem causesNamed_some {b : Byte} (h : b ∈ 0xFF :: (List.range 16).map fun c => BitVec.ofNat 8 c) : ∃ x, causesNamed b = some x :=
  Option.isSome_iff_exists.mp ((codes_named b).mp h)

/-- A list of causes as the set of those that have both properties. -/
theorem set16_contains {cs : List Nat} {p : Nat → Prop} [DecidablePred p] {f : Nat → Bool}
    (hcs : ∀ c, c ∈ cs ↔ c < 16 ∧ p c ∧ f c = true) : set16 cs.contains = set16 fun c => decide (p c) && f c := by
  refine congrArg word (maskOf_congr 16 _ _ fun c hc => ?_)
  rw [List.contains_eq_mem, ← Bool.decide_eq_true (b := f c), ← Bool.decide_and]
  exact decide_eq_decide.mpr ((hcs c).trans (and_iff_right hc))

/-- The causes that are active once those of the list are cleared. -/
theorem Cleared.active_eq {cs : List Nat} {s t : State} (h : Cleared cs s t) {p : Nat → Prop} [DecidablePred p] {f : Nat → Bool}
    (hcs : ∀ c, c ∈ cs ↔ c < 16 ∧ p c ∧ f c = true) {c : Nat} (hc : c < 16) :
    (t.cause c).active = ((s.cause c).active && !(decide (p c) && f c)) := by
  have hmem : (decide (p c) && f c) = decide (c ∈ cs) := by
    rw [← Bool.decide_eq_true (b := f c), ← Bool.decide_and]
    exact decide_eq_decide.mpr ((hcs c).trans (and_iff_right hc)).symm
  rw [h.causes, hmem]
  by_cases hm : c ∈ cs
  · rw [if_pos ⟨hm, hc⟩, decide_eq_true hm, Bool.not_true, Bool.and_false]
  · rw [if_neg fun hx => hm hx.1, decide_eq_false hm, Bool.not_false, Bool.and_true]

/-! ## The requests, arm by arm -/

theorem serveClearFault_refused {b : Byte} {x : CauseChoice} {s : State} (hx : causesNamed b = some x) (hc : s.toClear .crew x = none)
    (go : Go) : serveClearFault go b s = refuse .refusedState s := by
  unfold serveClearFault
  rw [hx]
  dsimp only
  rw [hc]

theorem serveClearFault_clears {b : Byte} {x : CauseChoice} {s : State} {cs : List Nat} (hx : causesNamed b = some x)
    (hc : s.toClear .crew x = some cs) (go : Go) :
    serveClearFault go b s = (clearCauses go .crew cs s, 0x00 :: set16 cs.contains) := by
  unfold serveClearFault
  rw [hx]
  dsimp only
  rw [hc]
  rfl

/-- The trip record goes with the clears of SERVICE CLEAR when no tripping cause is left. -/
def afterServiceClear (s : State) : State := if s.tripRemovable then removeTrip send s else s

theorem serveServiceClear_refused {b : Byte} {x : CauseChoice} {s : State} (hx : causesNamed b = some x) (hs : s.pins.service = true)
    (hc : s.toClear .latched x = none) : serveServiceClear send b s = refuse .refusedState s := by
  unfold serveServiceClear
  rw [hx]
  dsimp only
  rw [if_pos hs, hc]

theorem serveServiceClear_clears {b : Byte} {x : CauseChoice} {s : State} {cs : List Nat} (hx : causesNamed b = some x)
    (hs : s.pins.service = true) (hc : s.toClear .latched x = some cs) :
    let w := clearCauses send .service cs s
    serveServiceClear send b s = (afterServiceClear w, 0x00 :: (set16 cs.contains ++ flag w.tripRemovable)) := by
  unfold serveServiceClear
  rw [hx]
  dsimp only
  rw [if_pos hs, hc]
  rfl

/-! ## The trip record -/

theorem clearing_afterServiceClear {cs : List Nat} {s w : State} (h : Clearing cs s w) : Clearing cs s (afterServiceClear w) := by
  unfold afterServiceClear
  split
  · exact h.trans (clearing_removeTrip cascades_send w)
  · exact h

/-- What the removal of the trip record leaves in a calm part: ISOLATE stays asserted with ESTOP alone (R111, R114). -/
structure TripTaken (removed : Bool) (w u : State) : Prop where
  causes : u.fis.causes = w.fis.causes
  faulted : u.fis.faulted = w.fis.faulted
  mc : u.mc = w.mc
  trip : u.fis.trip = if removed then none else w.fis.trip
  hsc : u.hsc = if removed then { w.hsc with isolate := w.pins.estop } else w.hsc

theorem tripTaken {w : State} (hn : NoHostEntries w) (hv : ∀ m, w.anyValid m = false)
    (hi : w.pins.estop = true → w.hsc.isolate = true) : TripTaken w.tripRemovable w (afterServiceClear w) := by
  unfold afterServiceClear
  cases w.tripRemovable
  · exact ⟨rfl, rfl, rfl, rfl, rfl⟩
  · have k := removeTrip_calm quiet_send hn hv hi
    exact ⟨by rw [if_pos rfl, k.fis], by rw [if_pos rfl, k.fis], by rw [if_pos rfl, k.mc], by rw [if_pos rfl, k.fis]; rfl,
      by rw [if_pos rfl, k.hsc]; rfl⟩

/-- Settles O37: what every clear leaves (`after`) is shown once, for a part `u` whose causes and channels are those of the cleared part `w`. -/
theorem clearsRemoveCausesAndTrip : Obligations.ClearsRemoveCausesAndTrip := by
  intro s b hserving v may named codes after
  have hmay : ∀ k c, v.clearable k c = may k c := fun k c => clearable_heard s k c
  have leaves : ∀ {k : CauseClass} {cs : List Nat} {u w : State}, (∀ c, c ∈ cs ↔ c < 16 ∧ named c ∧ v.clearable k c = true) →
      Clearing cs v u → (NoHostEntries s → EstopIsolates s → (∀ m, v.anyValid m = false) → Cleared cs v w ∧ u.fis.causes = w.fis.causes ∧
        u.fis.faulted = w.fis.faulted ∧ u.mc = w.mc ∧ u.hsc.grants = w.hsc.grants ∧ u.hsc.queue = w.hsc.queue) → after k u := by
    intro k cs u w hcs hclearing hcalm
    refine ⟨hclearing.settings.trans (heard_settings s), hclearing.pins.trans (heard_pins s), hclearing.slp,
      hclearing.rode.trans (heard_rode s), fun m => (hclearing.position m).trans (heard_position s m), fun c hc hn hm => ?_,
      fun c hc hn ha hcls => ?_, fun hn he hv => ?_⟩
    · exact hclearing.gone c ((hcs c).mpr ⟨hc, hn, (hmay k c).trans hm⟩) hc
    · refine hclearing.stay c (fun hm => hn ?_) ha (by rw [causeSetting_heard]; exact hcls)
      obtain ⟨-, hnc, hmc⟩ := (hcs c).mp hm
      exact ⟨hnc, (hmay k c).symm.trans hmc⟩
    · obtain ⟨cleared, causes, faulted, mc, grants, queue⟩ := hcalm hn he hv
      have cause : ∀ c, u.cause c = w.cause c := fun c => by unfold State.cause; rw [causes]
      have chan : ∀ m, u.chan m = w.chan m := chan_mc mc
      have affected : ∀ m, u.affected m = w.affected m := affected_fis causes faulted
      refine ⟨fun c hc => ?_, grants.trans (by rw [cleared.apart.hsc]), queue.trans (by rw [cleared.apart.hsc]), fun m hm ha hx => ?_,
        fun m hm => ?_⟩
      · rw [cause, cleared.active_eq hcs hc, hmay]
      · obtain ⟨c, hc, hnc, hmc⟩ := hx
        rw [chan]
        rw [affected] at ha
        exact cleared.released m (List.ne_nil_of_mem ((hcs c).mpr ⟨hc, hnc, (hmay k c).trans hmc⟩)) hm ha
      · rw [chan]
        rw [affected] at hm
        exact cleared.others m hm
  have bits : ∀ {k : CauseClass} {cs : List Nat}, (∀ c, c ∈ cs ↔ c < 16 ∧ named c ∧ v.clearable k c = true) →
      set16 cs.contains = set16 fun c => decide (named c) && may k c := fun {k cs} hcs => by
    simp only [← hmay]
    exact set16_contains hcs
  refine ⟨fun hb => ⟨?_, ?_⟩, fun hb => ?_⟩
  · refine exec_refused (x := .refusedValue) hserving ?_ rfl
    show serveClearFault send b v = _
    unfold serveClearFault
    rw [causesNamed_none hb]
  · refine exec_refused (x := .refusedValue) hserving ?_ rfl
    show serveServiceClear send b v = _
    unfold serveServiceClear
    rw [causesNamed_none hb]
  · obtain ⟨x, hx⟩ := causesNamed_some hb
    obtain ⟨crewNone, crewSome⟩ := toClear_spec v .crew b x hx
    obtain ⟨latchedNone, latchedSome⟩ := toClear_spec v .latched b x hx
    refine ⟨fun hne ha hm => ?_, fun hm => ?_, fun hs => ?_, fun hs => ⟨fun hne ha hm => ?_, fun hm => ?_⟩⟩
    · refine exec_refused (x := .refusedState) hserving
        (serveClearFault_refused hx (crewNone hne ha ((hmay _ _).trans hm)) send) rfl
    · obtain ⟨cs, hclear, hcs⟩ := crewSome (by rw [hmay]; exact hm)
      have hserve := serveClearFault_clears hx hclear send
      rw [bits hcs] at hserve
      refine ⟨_, exec_served (i := .clearFault b) hserving hserve rfl,
        leaves (w := clearCauses send .crew cs v) hcs (clearing_clearCauses cascades_send _ _ _)
          fun hn _ hv => ⟨clearCauses_calm quiet_send _ _ (noHost_heard hn) hv, rfl, rfl, rfl, rfl, rfl⟩, fun hn hv => ?_⟩
      have k := clearCauses_calm quiet_send .crew cs (noHost_heard hn) hv
      exact ⟨k.apart.trip, k.apart.hsc⟩
    · refine exec_refused (x := .refusedService) hserving ?_ rfl
      show serveServiceClear send b v = _
      unfold serveServiceClear
      rw [hx, show v.pins.service = false from (congrArg Pins.service (heard_pins s)).trans hs]
      rfl
    · have hs' : v.pins.service = true := (congrArg Pins.service (heard_pins s)).trans hs
      refine exec_refused (x := .refusedState) hserving
        (serveServiceClear_refused hx hs' (latchedNone hne ha ((hmay _ _).trans hm))) rfl
    · have hs' : v.pins.service = true := (congrArg Pins.service (heard_pins s)).trans hs
      obtain ⟨cs, hclear, hcs⟩ := latchedSome (by rw [hmay]; exact hm)
      have hserve := serveServiceClear_clears hx hs' hclear
      rw [bits hcs] at hserve
      have clearing : Clearing cs v (clearCauses send .service cs v) := clearing_clearCauses cascades_send _ _ _
      have calm : NoHostEntries s → (∀ m, v.anyValid m = false) → Cleared cs v (clearCauses send .service cs v) :=
        fun hn hv => clearCauses_calm quiet_send _ _ (noHost_heard hn) hv
      generalize clearCauses send .service cs v = w at hserve clearing calm
      have isolates : EstopIsolates s → s.pins.estop = true → v.hsc.isolate = true :=
        fun he hes => heard_isolate s (he hserving.1 hes)
      have taken : NoHostEntries s → EstopIsolates s → (∀ m, v.anyValid m = false) →
          TripTaken w.tripRemovable w (afterServiceClear w) := fun hn he hv => by
        obtain ⟨apart, -, -, -⟩ := calm hn hv
        refine tripTaken ((noHost_heard hn).of_settings apart.settings) (fun m => (apart.anyValid m).trans (hv m)) fun hes => ?_
        rw [apart.hsc]
        exact isolates he (by rwa [apart.pins, show v.pins = s.pins from heard_pins s] at hes)
      refine ⟨_, w.tripRemovable, exec_served (i := .serviceClear b) hserving hserve rfl,
        leaves (w := w) hcs (clearing_afterServiceClear clearing) fun hn he hv => ?_, fun hx => ?_, fun hn he hv => ?_⟩
      · have k := taken hn he hv
        refine ⟨calm hn hv, k.causes, k.faulted, k.mc, ?_, ?_⟩
        · rw [k.hsc]; split <;> rfl
        · rw [k.hsc]; split <;> rfl
      · rcases hx with hx | ⟨c, hc, hnc, hmc⟩
        · unfold afterServiceClear
          rw [if_pos hx]
          exact removeTrip_pending cascades_send w
        · refine (clearing_afterServiceClear clearing).records ⟨c, (hcs c).mpr ⟨hc, hnc, (hmay _ _).trans hmc⟩, ?_⟩
          rw [causeSetting_heard]
          simp only [may, Bool.and_eq_true, decide_eq_true_eq] at hmc
          exact hmc.1.2
      · have k := taken hn he hv
        obtain ⟨apart, -, -, -⟩ := calm hn hv
        have cause : ∀ c, (afterServiceClear w).cause c = w.cause c := fun c => by unfold State.cause; rw [k.causes]
        have pins : w.pins = s.pins := apart.pins.trans (heard_pins s)
        refine ⟨?_, k.trip.trans (by rw [apart.trip]), fun hr => ?_, fun hr hes => ?_, fun hr hes => ?_⟩
        · simp only [cause]
          unfold State.tripRemovable State.causeSetting causeIndexes
          rw [apart.trip, apart.settings, show v.settings = s.settings from heard_settings s]
        · rw [k.hsc, hr, apart.hsc]; rfl
        · rw [k.hsc, hr, pins]; exact hes
        · rw [k.hsc, hr, if_pos rfl, pins, hes, apart.hsc, ← isolates he hes]

end Sys2Proof.Machine
end

section
/-! PROOFS. The contacts of a hold-to-run input (O54). -/

namespace Sys2Proof.Machine

/-! ## Patterns -/

theorem patternOf_equal {a b : Bool} (h : a = b) : patternOf a b = .partly := by
  subst h
  cases a <;> rfl

/-- An inhibit order times the release of an input whose pattern is released (R95). -/
theorem inhibited_timer (x : HoldRec) (r : Nat) (h : x.state = .early ∨ x.state = .agreed ∨ x.state = .valid ∨ x.state = .releasing) :
    x.inhibited r = { x with state := .inhibited, timer := if patternOf x.a x.b = .released then some (.release, r) else none } := by
  unfold HoldRec.inhibited
  rcases h with h | h | h | h <;> rw [h]

theorem inhibited_stays (x : HoldRec) (r : Nat) (h : x.state = .released ∨ x.state = .faulted ∨ x.state = .inhibited) :
    x.inhibited r = x := by
  unfold HoldRec.inhibited
  rcases h with h | h | h <;> rw [h]

theorem patternOf_notReleased {a b : Bool} (h : a = true ∨ b = false) : patternOf a b ≠ .released := by
  rcases h with rfl | rfl
  · cases b <;> nofun
  · cases a <;> nofun

theorem withLevels_same {x : HoldRec} {a b : Bool} (p : StationSettings) (h : patternOf a b = patternOf x.a x.b) :
    x.withLevels a b p = { x with a := a, b := b } := if_pos h

theorem withLevels_changed {x : HoldRec} {a b : Bool} (p : StationSettings) (h : patternOf a b ≠ patternOf x.a x.b) :
    x.withLevels a b p = ({ x with a := a, b := b } : HoldRec).onPattern (patternOf a b) p := if_neg h

section onPattern
variable (y : HoldRec) (p : StationSettings)

theorem onPattern_early (h : y.state = .released ∨ y.state = .agreed) :
    y.onPattern .partly p = y.goes .early (some (.disagree, p.disagreeTime)) := by
  unfold HoldRec.onPattern
  rcases h with h | h <;> rw [h]

theorem onPattern_letGoPartly (h : y.state = .valid ∨ y.state = .releasing) :
    y.onPattern .partly p = y.goes .releasing (some (.disagree, p.disagreeTime)) := by
  unfold HoldRec.onPattern
  rcases h with h | h <;> rw [h]

theorem onPattern_letGo (h : y.state = .valid ∨ y.state = .releasing) :
    y.onPattern .released p = y.goes .releasing (some (.release, p.releaseTime)) := by
  unfold HoldRec.onPattern
  rcases h with h | h <;> rw [h]

theorem onPattern_agreed (h : y.state = .released ∨ y.state = .early) :
    y.onPattern .pressed p = y.goes .agreed (some (.qualify, p.qualifyTime)) := by
  unfold HoldRec.onPattern
  rcases h with h | h <;> rw [h]

theorem onPattern_valid (h : y.state = .releasing) : y.onPattern .pressed p = y.goes .valid none := by
  unfold HoldRec.onPattern
  rw [h]

theorem onPattern_released (h : y.state = .early ∨ y.state = .agreed) : y.onPattern .released p = y.goes .released none := by
  unfold HoldRec.onPattern
  rcases h with h | h <;> rw [h]

/-- In FAULTED and INHIBITED the release timer runs while the pattern is released, and no other. -/
theorem onPattern_barred (h : y.state = .faulted ∨ y.state = .inhibited) (new : Pattern) :
    y.onPattern new p = y.goes y.state (if new = .released then some (.release, p.releaseTime) else none) := by
  unfold HoldRec.onPattern
  rcases h with h | h <;> rw [h] <;> cases new <;> rfl

end onPattern

/-! ## The handling -/

theorem exec_levelChange {s : State} {i : HoldInput} {a b : Bool} (hp : s.phase = .running)
    (hx : (s.input i).a ≠ a ∨ (s.input i).b ≠ b) :
    exec (.holdToRunLevelChange i a b) s = finish (inputBecomes send i ((s.input i).withLevels a b s.settings.stations) s) := by
  show finish (holdToRunLevelChange send i a b s) = _
  unfold holdToRunLevelChange
  dsimp only
  rw [if_neg, if_pos hp]
  rintro ⟨ha, hb⟩
  rcases hx with hx | hx
  · exact hx ha
  · exact hx hb

/-- A handling that moves an input and the status unit alone begins no write. -/
theorem finish_silent {s u v : State} (h : Silent u v) (hu : u.phase = s.phase) (hs : u.sto = s.sto) (hr : StoreAtRest s) :
    finish v = .next v := by
  refine finish_atRest fun hp => ?_
  rw [h] at hp ⊢
  exact hs ▸ hr (hu ▸ hp)

/-- An input that returns to VALID, while its run goes on, moves itself and its items alone (R92). -/
theorem becomes_valid_again {s : State} (hn : NoHostEntries s) (i : HoldInput) (y : HoldRec) (hy : y.state = .valid)
    (hx : (s.input i).state ≠ .valid) (ho : s.inputState i.machine i.dir.other ≠ .valid)
    (hl : (s.chan i.machine).hasLinkRun = false) (hi : (s.chan i.machine).state ≠ .idle) :
    Silent (setInput i y s) (inputBecomes send i y s) := by
  have k := silent_inputItems hn i y
  have hself : ((publishAll send (inputItems i) (setInput i y s)).inputState i.machine i.dir) = .valid := by
    unfold State.inputState
    rw [show (publishAll send (inputItems i) (setInput i y s)).input _ = (setInput i y s).input i from input_siq (by rw [k]) i,
      input_set_self, hy]
  have hother : ((publishAll send (inputItems i) (setInput i y s)).inputState i.machine i.dir.other) ≠ .valid := by
    rw [← input_other i y s _ (other_ne _)] at ho
    unfold State.inputState at *
    rwa [input_siq (s := setInput i y s) (by rw [k])]
  have hchan : (publishAll send (inputItems i) (setInput i y s)).chan i.machine = s.chan i.machine := chan_mc (by rw [k]; rfl) _
  have hbecame : inputBecomes send i y s = becameValid send i (publishAll send (inputItems i) (setInput i y s)) := by
    unfold inputBecomes
    dsimp only
    rw [if_neg (by rw [hy]; exact hx.symm), hy]
  rw [hbecame]
  unfold becameValid
  rw [if_neg (not_not.mpr hself), if_neg hother, hchan, hl, if_neg nofun, tryStart_notIdle]
  · exact k
  · rw [hchan]
    exact hi

/-- The entry into RELEASED, the input and its items having moved: a conflict of the machine ends with it once both inputs are
RELEASED (R13). -/
theorem enteredReleased_after {s w : State} (hu : Undisturbed s) (i : HoldInput) (y : HoldRec) (hy : y.state = .released)
    (k : Silent (setInput i y s) w) :
    ∃ t, enteredReleased send i w = t ∧ t = { setInput i y s with mc := t.mc, seu := t.seu } ∧
      ∀ m, t.chan m = { s.chan m with conflict := (s.chan m).conflict &&
        !(decide (m = i.machine) && decide (s.inputState m i.dir.other = .released)) } := by
  have hself : w.inputState i.machine i.dir = .released := by
    unfold State.inputState
    rw [show w.input _ = (setInput i y s).input i from input_siq (by rw [k]) i, input_set_self, hy]
  obtain ⟨t, heq, ht, hchan⟩ := enteredReleased_spec (undisturbed_of hu (t := w) (by rw [k]; rfl) (by rw [k]; rfl)) i hself
  refine ⟨t, heq, ?_, fun m => ?_⟩
  · rw [ht, k]
  · rw [hchan, show w.chan m = s.chan m from chan_mc (by rw [k]; rfl) m]
    by_cases hm : m = i.machine
    · have hother : w.inputState m i.dir.other = s.inputState m i.dir.other := by
        rw [hm, ← input_other i y s _ (other_ne _)]
        unfold State.inputState
        rw [input_siq (s := setInput i y s) (by rw [k])]
      rw [hother]
    · rw [decide_eq_false hm, Bool.false_and, Bool.false_and]

theorem becomes_released {s : State} (hu : Undisturbed s) (i : HoldInput) (y : HoldRec) (hy : y.state = .released)
    (hx : (s.input i).state ≠ .released) :
    ∃ t, inputBecomes send i y s = t ∧ t = { setInput i y s with mc := t.mc, seu := t.seu } ∧
      ∀ m, t.chan m = { s.chan m with conflict := (s.chan m).conflict &&
        !(decide (m = i.machine) && decide (s.inputState m i.dir.other = .released)) } := by
  have hbecomes : inputBecomes send i y s = enteredReleased send i (publishAll send (inputItems i) (setInput i y s)) := by
    unfold inputBecomes
    dsimp only
    rw [if_neg (by rw [hy]; exact hx.symm), hy]
  rw [hbecomes]
  exact enteredReleased_after hu i y hy (silent_inputItems hu.1 i y)

/-- Settles O54. -/
theorem contactsMoveAHoldToRunInput : Obligations.ContactsMoveAHoldToRunInput := by
  refine ⟨⟨rfl, rfl, rfl, rfl⟩, fun x r => ⟨inhibited_stays x r, fun h => ⟨fun ha hb => ?_, fun hab => ?_⟩⟩,
    fun s i a b hu hrest => ?_⟩
  · rw [inhibited_timer x r h, ha, hb]
    rfl
  · rw [inhibited_timer x r h, if_neg (patternOf_notReleased hab)]
  · intro x y p becomes goes
    have same : x.a = a → x.b = b → exec (.holdToRunLevelChange i a b) s = .next s := fun ha hb => by
      show finish (holdToRunLevelChange send i a b s) = _
      unfold holdToRunLevelChange
      dsimp only
      rw [if_pos ⟨ha, hb⟩]
      exact finish_atRest hrest
    refine ⟨same, fun hp => ?_, fun hp hx => ?_⟩
    · by_cases hxy : x.a = a ∧ x.b = b
      · rw [same hxy.1 hxy.2]
        have hy : y = x := by
          show ({ x with a := a, b := b } : HoldRec) = x
          rw [← hxy.1, ← hxy.2]
        rw [hy]
        exact congrArg _ (setInput_self i s).symm
      · show finish (holdToRunLevelChange send i a b s) = _
        unfold holdToRunLevelChange
        dsimp only
        rw [if_neg hxy, if_neg hp]
        exact finish_of_phase (s := setInput i y s) hp
    · have hexec := exec_levelChange hp hx
      have moves : ∀ z, x.withLevels a b p = z → (Silent (setInput i z s) (inputBecomes send i z s)) → becomes z := fun z hz k => by
        refine ⟨_, ?_, k⟩
        rw [hexec, show (s.input i).withLevels a b s.settings.stations = z from hz]
        exact finish_silent k rfl rfl hrest
      have quietly : ∀ z, x.withLevels a b p = z → z.state = x.state ∨ (z.state ≠ .valid ∧ z.state ≠ .released) → becomes z :=
        fun z hz h => moves z hz (becomes_quiet hu.1 i z h)
      refine ⟨fun hpat => quietly y (withLevels_same p hpat) (.inl rfl), fun hpat => ?_⟩
      have hy := withLevels_changed (x := x) p hpat
      refine ⟨fun hab => ?_, fun ha hb => ?_, fun ha hb => ?_⟩
      · rw [patternOf_equal hab] at hy
        exact ⟨fun h => quietly _ (hy.trans (onPattern_early y p h)) (.inr ⟨nofun, nofun⟩),
          fun h => quietly _ (hy.trans (onPattern_letGoPartly y p h)) (.inr ⟨nofun, nofun⟩),
          fun h => quietly _ (hy.trans (onPattern_barred y p h _)) (.inl rfl)⟩
      · rw [show patternOf a b = .pressed by rw [ha, hb]; rfl] at hy
        exact ⟨fun h => quietly _ (hy.trans (onPattern_agreed y p h)) (.inr ⟨nofun, nofun⟩),
          fun h => quietly _ (hy.trans (onPattern_barred y p h _)) (.inl rfl),
          fun h ho hl hi => moves _ (hy.trans (onPattern_valid y p h)) (becomes_valid_again hu.1 i _ rfl (by rw [h]; nofun) ho hl hi)⟩
      · rw [show patternOf a b = .released by rw [ha, hb]; rfl] at hy
        refine ⟨fun h => quietly _ (hy.trans (onPattern_letGo y p h)) (.inr ⟨nofun, nofun⟩),
          fun h => quietly _ (hy.trans (onPattern_barred y p h _)) (.inl rfl), fun h => ?_⟩
        obtain ⟨t, hbecomes, ht, hchan⟩ := becomes_released hu i (y.goes .released none) rfl
          (by rw [show (s.input i).state = x.state from rfl]; rcases h with h | h <;> rw [h] <;> nofun)
        refine ⟨t, ?_, ht, hchan⟩
        rw [hexec, show (s.input i).withLevels a b s.settings.stations = y.goes .released none from hy.trans (onPattern_released y p h),
          hbecomes]
        refine finish_atRest fun hpt => ?_
        rw [ht] at hpt ⊢
        exact hrest hpt

end Sys2Proof.Machine
end

section
/-! PROOFS. The timers of a hold-to-run input (O55). -/

namespace Sys2Proof.Machine

variable {s w : State} {i : HoldInput}

/-! ## The input once it has moved -/

/-- The input `i` has taken the record `y`, and its items have followed. -/
structure InputMoved (i : HoldInput) (y : HoldRec) (s w : State) : Prop where
  silent : Silent (setInput i y s) w
  items : ∀ q ∈ builtInItems, w.item q = s.item q

theorem inputMoved (hn : NoHostEntries s) (i : HoldInput) (y : HoldRec) :
    InputMoved i y s (publishAll send (inputItems i) (setInput i y s)) where
  silent := silent_inputItems hn i y
  items q hq := item_publishAll_other quiet_send (s := setInput i y s) hn _ (plain_inputItems i) q
    fun hm => (plain_inputItems i q hm).1 hq

section
variable {y : HoldRec} (k : InputMoved i y s w)
include k

theorem InputMoved.settings : w.settings = s.settings := by rw [k.silent]; rfl
theorem InputMoved.hsc : w.hsc = s.hsc := by rw [k.silent]; rfl
theorem InputMoved.fis : w.fis = s.fis := by rw [k.silent]; rfl
theorem InputMoved.mc : w.mc = s.mc := by rw [k.silent]; rfl
theorem InputMoved.pins : w.pins = s.pins := by rw [k.silent]; rfl
theorem InputMoved.siq : w.siq = (setInput i y s).siq := by rw [k.silent]
theorem InputMoved.chan (m : MachineId) : w.chan m = s.chan m := chan_mc k.mc m
theorem InputMoved.noHost (hn : NoHostEntries s) : NoHostEntries w := hn.of_settings k.settings
theorem InputMoved.undisturbed (hu : Undisturbed s) : Undisturbed w := undisturbed_of hu k.settings k.fis

theorem InputMoved.self : w.inputState i.machine i.dir = y.state := by
  unfold State.inputState
  rw [show w.input _ = (setInput i y s).input i from input_siq k.siq i, input_set_self]

theorem InputMoved.other : w.inputState i.machine i.dir.other = s.inputState i.machine i.dir.other := by
  rw [← input_other i y s _ (other_ne _)]
  unfold State.inputState
  rw [input_siq k.siq]

theorem InputMoved.inputState_ne {m : MachineId} (hm : m ≠ i.machine) (d : Direction) : w.inputState m d = s.inputState m d := by
  unfold State.inputState
  rw [input_siq k.siq, setInput_input, if_neg]
  rintro rfl
  exact hm rfl

theorem InputMoved.startCheck (hn : NoHostEntries s) (m : MachineId) (d : Direction) : w.startCheck m d = s.startCheck m d :=
  startCheck_items hn k.settings k.mc k.hsc k.fis k.items m d

/-- An input that is not VALID now leaves its machine without a VALID input if it was so. -/
theorem InputMoved.anyValid (hy : y.state ≠ .valid) {m : MachineId} (hv : s.anyValid m = false) : w.anyValid m = false := by
  obtain ⟨hout, hin⟩ := Bool.or_eq_false_iff.mp hv
  have state : ∀ d, (s.inputState m d == .valid) = false → (w.inputState m d == .valid) = false := fun d hd => by
    by_cases hm : m = i.machine
    · by_cases hdir : d = i.dir
      · rw [hm, hdir, k.self]
        exact beq_eq_false_iff_ne.mpr hy
      · have : d = i.dir.other := by revert hdir; cases d <;> cases i.dir <;> simp [Direction.other]
        rw [hm, this, k.other, ← hm, ← this]
        exact hd
    · rw [k.inputState_ne hm]
      exact hd
  exact Bool.or_eq_false_iff.mpr ⟨state _ hout, state _ hin⟩

theorem InputMoved.rampedEnd {m : MachineId} {x : EndReason} {t : State} (h : RampedEnd m x w t) :
    RampedEnd m x (setInput i y s) (beginWrite t) :=
  ramped_of h k.mc.symm k.hsc.symm k.siq.symm k.settings.symm (still_beginWrite t) (beginWrite_hsc t)

end

/-! ## Which timers expire -/

theorem runs_iff (x : HoldRec) (k : StationTimer) : x.runs k = true ↔ ∃ n, x.timer = some (k, n) := by
  unfold HoldRec.runs
  split
  · rename_i k' n h
    rw [h, beq_iff_eq]
    exact ⟨fun e => ⟨n, by rw [e]⟩, fun ⟨_, e⟩ => congrArg Prod.fst (Option.some.inj e)⟩
  · rename_i h
    rw [h]
    exact ⟨nofun, fun ⟨_, e⟩ => (nomatch e)⟩

/-! ## Qualification -/

theorem exec_qualify (hn : NoHostEntries s) (hx : (s.input i).state = .agreed) (hr : (s.input i).runs .qualify = true) :
    ∃ w, InputMoved i ((s.input i).goes .valid none) s w ∧ exec (.qualifyTimerExpiry i) s = finish (becameValid send i w) := by
  refine ⟨_, inputMoved hn i _, ?_⟩
  show finish (qualifyTimerExpiry send i s) = _
  unfold qualifyTimerExpiry
  dsimp only
  rw [if_pos ⟨hx, hr⟩]
  unfold inputBecomes
  dsimp only
  rw [if_neg (by rw [hx]; nofun)]
  rfl

theorem becameValid_conflict (go : Go) (hs : w.inputState i.machine i.dir = .valid) (ho : w.inputState i.machine i.dir.other = .valid) :
    becameValid go i w = takeConflict go i.machine w := by
  unfold becameValid
  rw [if_neg (not_not.mpr hs), if_pos ho]

theorem becameValid_link (go : Go) (hs : w.inputState i.machine i.dir = .valid) (ho : w.inputState i.machine i.dir.other ≠ .valid)
    (hl : (w.chan i.machine).hasLinkRun = true) : becameValid go i w = endRun go i.machine .overridden w := by
  unfold becameValid
  rw [if_neg (not_not.mpr hs), if_neg ho, if_pos hl]

/-- The station start of an IDLE channel with one VALID input: it starts if its checks pass (R7). -/
theorem tryStart_lone (go : Go) {m : MachineId} {d : Direction} (hi : (w.chan m).state = .idle) (hs : w.inputState m d = .valid)
    (ho : w.inputState m d.other ≠ .valid) :
    tryStart go m w = if w.startCheck m d = .passes then createRun go m .station d none w else w := by
  have ho : (w.inputState m d.other == .valid) = false := beq_eq_false_iff_ne.mpr ho
  unfold tryStart
  rw [if_pos hi]
  cases d
  · rw [hs, show (w.inputState m .inward == .valid) = false from ho]
    rfl
  · rw [hs, show (w.inputState m .outward == .valid) = false from ho]
    rfl

/-- The station start of the one VALID input of a machine without a LINK run (R7). -/
theorem becameValid_start (go : Go) (hs : w.inputState i.machine i.dir = .valid) (ho : w.inputState i.machine i.dir.other ≠ .valid)
    (hl : (w.chan i.machine).hasLinkRun = false) :
    becameValid go i w = if w.startCheck i.machine i.dir = .passes then createRun go i.machine .station i.dir none w else w := by
  unfold becameValid
  rw [if_neg (not_not.mpr hs), if_neg ho, hl, if_neg nofun]
  by_cases hi : (w.chan i.machine).state = .idle
  · exact tryStart_lone go hi hs ho
  · rw [tryStart_notIdle go hi, if_neg]
    exact fun h => hi (startCheck_idle h)

/-- What a conflict does in an undisturbed part: both inputs inhibited, CONFLICT true, the run ended (R13, R95). -/
theorem takeConflict_spec (hu : Undisturbed w) (m : MachineId) (hq : w.hsc.queue.erase m = []) :
    let t := takeConflict send m w
    (t.chan m).conflict = true ∧ (∀ d, t.input ⟨m, d⟩ = (w.input ⟨m, d⟩).inhibited w.settings.stations.releaseTime) ∧
      RampedEnd m .conflict w t := by
  intro t
  have kv : Calm (inhibitCore m w) (inhibit send m w) := calm_inhibit quiet_send hu m
  let v := inhibit send m w
  let c : Channel := { v.chan m with conflict := true }
  have hnv : NoHostEntries (setChan m c v) := hu.1.of_settings (t := setChan m c v) kv.settings
  have kp : Calm (setChan m c v) (publish send (setChan m c v) (Item.conflict m)) :=
    calm_publish quiet_send hnv (by cases m <;> (unfold Plain; decide))
  have ht : t = endRun send m .conflict (publish send (setChan m c v) (Item.conflict m)) := rfl
  generalize publish send (setChan m c v) (Item.conflict m) = p at kp ht
  have siq : p.siq = (inhibitCore m w).siq := by rw [kp.siq]; exact kv.siq
  have hsc : p.hsc = w.hsc := by rw [kp.hsc]; exact kv.hsc
  have settings : p.settings = w.settings := by rw [kp.settings]; exact kv.settings
  have input : ∀ d, p.input ⟨m, d⟩ = (w.input ⟨m, d⟩).inhibited w.settings.stations.releaseTime := fun d => by
    rw [input_siq siq, inhibitCore_input, if_pos rfl]
  have hv : p.anyValid m = false := by
    unfold State.anyValid State.inputState
    rw [input, input]
    simp [inhibited_notValid]
  have chan : p.chan m = { w.chan m with conflict := true } := by
    rw [kp.chan, setChan_chan_same]
    show { (inhibit send m w).chan m with conflict := true } = _
    rw [kv.chan]
    rfl
  have keeps := endKeeps_endRun (kp.noHostEntries hnv) m .conflict hv (by rw [hsc]; exact hq)
  have ramped := endRun_ramped quiet_send (kp.noHostEntries hnv) m .conflict fun _ => hv
  rw [ht]
  refine ⟨(keeps.conflict m).trans (by rw [chan]), fun d => (input_siq keeps.siq _).trans (input d),
    ramped.of_source true chan hsc settings fun _ => .inr (.inl rfl)⟩

/-! ## Disagreement -/

theorem exec_disagree (hn : NoHostEntries s) (hx : (s.input i).state = .early ∨ (s.input i).state = .releasing)
    (hr : (s.input i).runs .disagree = true) :
    ∃ w, Silent (setInput i ((s.input i).goes .faulted none) s) w ∧
      exec (.disagreeTimerExpiry i) s = finish (addFaulted send i w) := by
  refine ⟨_, becomes_quiet hn i _ (.inr ⟨nofun, nofun⟩), ?_⟩
  show finish (disagreeTimerExpiry send i s) = _
  unfold disagreeTimerExpiry
  dsimp only
  rw [if_pos ⟨hx, hr⟩]

/-- An input joins the faulted-station set while cause 12 is at rest: its condition is reported, and nothing else is held here. -/
theorem addFaulted_resting (go : Go) (h : (s.cause causeStationChannel).active = false) :
    addFaulted go i s = report go causeStationChannel true (setFaulted i true s) := by
  unfold addFaulted
  dsimp only
  rw [h, if_neg (by simp)]

/-! ## Release -/

theorem exec_release_idle (hr : (s.input i).runs .release = false) : exec (.releaseTimerExpiry i) s = finish s := by
  show finish (releaseTimerExpiry send i s) = _
  unfold releaseTimerExpiry
  dsimp only
  rw [hr, if_neg nofun]

/-- The input enters RELEASED with its items; what follows depends on the state it left. -/
theorem exec_release (hn : NoHostEntries s) (hr : (s.input i).runs .release = true) :
    ∃ w, InputMoved i ((s.input i).goes .released none) s w ∧
      ((s.input i).state = .releasing → exec (.releaseTimerExpiry i) s = finish (enteredReleased send i (pressEnded send i w))) ∧
      ((s.input i).state = .faulted → exec (.releaseTimerExpiry i) s = finish (enteredReleased send i (removeFaulted send i w))) ∧
      ((s.input i).state = .inhibited → exec (.releaseTimerExpiry i) s = finish (enteredReleased send i w)) := by
  refine ⟨_, inputMoved hn i _, ?_⟩
  rw [show exec (.releaseTimerExpiry i) s = finish (releaseTimerExpiry send i s) from rfl]
  unfold releaseTimerExpiry
  dsimp only
  rw [if_pos hr]
  refine ⟨fun hx => ?_, fun hx => ?_, fun hx => ?_⟩ <;> rw [hx]

/-- Without a station run of its press on the machine, the end of a press ends no run (R92). -/
theorem pressEnded_other (go : Go) (h : ∀ r, (w.chan i.machine).live = some r → r.origin = .link ∨ r.dir = i.dir.other) :
    pressEnded go i w = w := by
  unfold pressEnded
  split
  · rename_i r hr
    rw [if_neg]
    rintro ⟨ho, hd⟩
    rcases h r hr with h | h
    · rw [ho] at h; cases h
    · exact other_ne i.dir (h.symm.trans hd)
  · rfl

theorem pressEnded_own (go : Go) {r : RunRec} (hl : (w.chan i.machine).live = some r) (ho : r.origin = .station) (hd : r.dir = i.dir) :
    pressEnded go i w = endRun go i.machine .released w := by
  unfold pressEnded
  rw [hl]
  exact if_pos ⟨ho, hd⟩

/-- The end of a press and the entry into RELEASED, for the station run of that press (R92). -/
theorem release_ends_press (hu : Undisturbed w) (hs : w.inputState i.machine i.dir = .released) (hv : w.anyValid i.machine = false)
    (hq : w.hsc.queue.erase i.machine = []) :
    RampedEnd i.machine .released w (enteredReleased send i (endRun send i.machine .released w)) := by
  have ramped := endRun_ramped quiet_send hu.1 i.machine .released nofun
  have keeps := endKeeps_endRun hu.1 i.machine .released hv hq
  generalize endRun send i.machine .released w = e at ramped keeps
  have hs' : e.inputState i.machine i.dir = .released := by
    unfold State.inputState at *
    rw [input_siq keeps.siq, hs]
  obtain ⟨t, heq, ht, hchan⟩ := enteredReleased_spec (undisturbed_of hu keeps.settings keeps.fis) i hs'
  rw [heq]
  exact ramped.of_target _ (hchan i.machine) (by rw [ht])

/-! ## Leaving the faulted-station set -/

/-- The set holds the input `i` alone. -/
def OnlyFaulted (i : HoldInput) (s : State) : Prop := s.fis.faulted = (setFaulted i true { s with fis := Fis.fresh }).fis.faulted

theorem stationFaulted_removed (h : OnlyFaulted i s) (m : MachineId) : (setFaulted i false s).stationFaulted m = false := by
  have hset : (setFaulted i false s).fis.faulted = s.fis.faulted.set i.machine ((s.fis.faulted.get i.machine).set i.dir false) := rfl
  unfold State.stationFaulted
  rw [hset, show s.fis.faulted = _ from h]
  obtain ⟨k, d⟩ := i
  cases k <;> cases d <;> cases m <;> rfl

/-- An input leaves the set as its last: cause 12, of class SELF, is cleared, and the channels that no other cause holds are let go. -/
structure SetEmptied (i : HoldInput) (w t : State) : Prop where
  apart : Apart (setFaulted i false w) t
  cause : (t.cause 12).active = false ∧ (t.cause 12).present = false
  others : ∀ c, c ≠ 12 → t.cause c = w.cause c
  held : ∀ m, (w.chan m).state = .held → t.affected m = false → (t.chan m).state = .idle

theorem setEmptied (hn : NoHostEntries w) (hv : ∀ m, w.anyValid m = false) (h : OnlyFaulted i w)
    (ha : (w.cause 12).active = true) (hc : (w.causeSetting 12).cls = .self) : SetEmptied i w (removeFaulted send i w) := by
  let x : CauseRec := { w.cause 12 with present := false }
  let u := setCause 12 x (setFaulted i false w)
  have hcause : ∀ c, u.cause c = if c = 12 then x else w.cause c := fun c => by
    rw [setCause_cause]
    by_cases hc : c = 12
    · rw [hc]; rfl
    · rw [if_neg fun e => hc e.1.symm, if_neg hc]; rfl
  have hx : u.cause 12 = x := (hcause 12).trans (if_pos rfl)
  have hclears : report send causeStationChannel false (setFaulted i false w) = clearCause send 12 .self u := by
    show trySelfClear send 12 u = _
    unfold trySelfClear
    rw [if_pos]
    refine ⟨by rw [hx]; exact ha, hc, by rw [hx], List.all_eq_true.mpr fun m _ => ?_⟩
    rw [show u.affects 12 m = false from stationFaulted_removed h m]
    rfl
  have hremove : removeFaulted send i w = releaseHeld send (clearCause send 12 .self u) := by
    have hempty : (setFaulted i false w).anyStationFaulted = false := List.any_eq_false.mpr fun m _ => by
      rw [stationFaulted_removed h m]
      nofun
    unfold removeFaulted
    dsimp only
    rw [hempty, if_neg nofun, hclears]
  have k1 := clearCause_calm (s := u) quiet_send hn hv 12 .self
  obtain ⟨apart, causes, held⟩ := releaseHeld_calm (s := clearCause send 12 .self u) quiet_send (hn.of_settings k1.apart.settings)
    fun m => (k1.apart.anyValid m).trans (hv m)
  rw [hremove]
  have hcauses : ∀ c, (releaseHeld send (clearCause send 12 .self u)).cause c = (clearCause send 12 .self u).cause c := fun c => by
    unfold State.cause
    rw [causes]
  have haffected : ∀ m, (releaseHeld send (clearCause send 12 .self u)).affected m = (clearCause send 12 .self u).affected m :=
    affected_fis causes apart.faulted
  refine ⟨Apart.trans (t := u) ⟨rfl, rfl, rfl, rfl, rfl, rfl, rfl, rfl⟩ (k1.apart.trans apart), ?_, fun c hc => ?_, fun m hm hf => ?_⟩
  · rw [hcauses, k1.causes, if_pos ⟨List.mem_singleton.mpr rfl, by decide⟩, hx]
    exact ⟨rfl, rfl⟩
  · rw [hcauses, k1.causes, if_neg fun e => hc (List.mem_singleton.mp e.1), hcause, if_neg hc]
  · rw [haffected] at hf
    have hidle := k1.released m (List.cons_ne_nil _ _) hm hf
    rw [held, hidle, if_neg]
    rintro ⟨e, -⟩
    cases e

/-- With the cause `d` at rest, and no other active one that affects it, a machine is unaffected. -/
theorem affected_without {s t : State} {d : Nat} {m : MachineId} (hd : (t.cause d).active = false)
    (ho : ∀ c, c ≠ d → t.cause c = s.cause c) (ha : ∀ c, c ≠ d → t.affects c m = s.affects c m)
    (h : ∀ c, c < 16 → c ≠ d → (s.cause c).active = true → s.affects c m = false) : t.affected m = false := by
  refine List.any_eq_false.mpr fun c hc => ?_
  by_cases hcd : c = d
  · rw [hcd, hd]
    nofun
  · rw [ho c hcd, ha c hcd]
    intro hx
    obtain ⟨hact, haff⟩ := Bool.and_eq_true_iff.mp hx
    rw [h c (mem_causeIndexes.mp hc) hcd hact] at haff
    cases haff

/-- Settles O55. -/
theorem timersQualifyFaultAndRelease : Obligations.TimersQualifyFaultAndRelease := by
  intro s i hu hrest x m c other set running unconflicted
  have hruns : ∀ k, x.runs k = true ↔ running k := fun k => runs_iff x k
  refine ⟨fun h => ?_, fun hx hr => ⟨fun ho hq => ?_, fun ho => ⟨fun hl => ?_, fun hl => ⟨fun hc => ?_, fun hc hcreep hoff hpin => ?_⟩⟩⟩,
    fun h => ?_, fun hx hr ha hp htrip hq => ?_, fun h => ?_, fun hr hx => ?_, fun r hr hx hl ho hd hv hq => ?_, fun hr hx honly ha hcls hv => ?_⟩
  · show finish (qualifyTimerExpiry send i s) = _
    unfold qualifyTimerExpiry
    dsimp only
    rw [if_neg]
    · exact finish_atRest hrest
    · rintro ⟨h1, h2⟩
      exact h.elim (fun h => h h1) (fun h => h ((hruns _).mp h2))
  · obtain ⟨w, k, hexec⟩ := exec_qualify hu.1 hx ((hruns _).mpr hr)
    rw [becameValid_conflict send k.self (k.other.trans ho)] at hexec
    obtain ⟨conflict, inputs, ramped⟩ := takeConflict_spec (k.undisturbed hu) m (by rw [k.hsc]; exact hq)
    refine ⟨_, hexec, by rw [beginWrite_chan]; exact conflict, fun d => ?_, ?_⟩
    · rw [input_siq (beginWrite_siq _), inputs, k.settings, input_siq k.siq]
      rfl
    · have fromInput := (k.rampedEnd ramped).of_source (s := s) c.conflict rfl rfl rfl fun _ => .inr (.inl rfl)
      exact fromInput
  · obtain ⟨w, k, hexec⟩ := exec_qualify hu.1 hx ((hruns _).mpr hr)
    rw [becameValid_link send k.self (by rw [k.other]; exact ho) (by rw [k.chan]; exact hl)] at hexec
    exact ⟨_, hexec, k.rampedEnd (endRun_ramped quiet_send (k.noHost hu.1) m .overridden nofun)⟩
  · obtain ⟨w, k, hexec⟩ := exec_qualify hu.1 hx ((hruns _).mpr hr)
    rw [becameValid_start send k.self (by rw [k.other]; exact ho) (by rw [k.chan]; exact hl), k.startCheck hu.1, if_neg hc,
      finish_silent k.silent rfl rfl hrest] at hexec
    exact ⟨_, hexec, k.silent⟩
  · obtain ⟨w, k, hexec⟩ := exec_qualify hu.1 hx ((hruns _).mpr hr)
    rw [becameValid_start send k.self (by rw [k.other]; exact ho) (by rw [k.chan]; exact hl), k.startCheck hu.1, if_pos hc] at hexec
    obtain ⟨v, rfl, live, last, counter, dirOut, refresh, -, demand, slot, waits, others, settings, -, siq, -, -⟩ :=
      createRun_spec quiet_send (k.noHost hu.1) m .station i.dir none (fun hm => by
        unfold State.cause
        rw [k.fis]
        exact hcreep hm) (by rw [k.hsc]; exact hoff) (by
        unfold State.atInEnd State.params
        rw [k.pins, k.chan, k.settings]
        exact hpin)
    rw [k.chan] at live counter
    rw [k.hsc] at slot waits
    refine ⟨_, hexec, ?_⟩
    simp only [beginWrite_chan, beginWrite_hsc, beginWrite_siq, beginWrite_settings]
    refine ⟨live, last, counter, dirOut, refresh, demand, fun h => ⟨(slot h).1, (slot h).2.1⟩, fun h => ⟨(waits h).1, (waits h).2.1⟩,
      fun j hj => ?_, siq.trans k.siq, settings.trans k.settings⟩
    obtain ⟨state, live, -⟩ := others j hj
    rw [k.chan] at state live
    exact ⟨state, live⟩
  · show finish (disagreeTimerExpiry send i s) = _
    unfold disagreeTimerExpiry
    dsimp only
    rw [if_neg]
    · exact finish_atRest hrest
    · rintro ⟨h1, h2⟩
      rcases h with ⟨h3, h4⟩ | h
      · exact h1.elim h3 h4
      · exact h ((hruns _).mp h2)
  · obtain ⟨w, k, hexec⟩ := exec_disagree hu.1 hx ((hruns _).mpr hr)
    have kf : Silent (setFaulted i true (set .faulted)) (setFaulted i true w) := by
      unfold Silent
      rw [k]
      rfl
    rw [addFaulted_resting send (by rw [k]; exact ha)] at hexec
    obtain ⟨t, hfinish, raised, present, -⟩ := report_finish (s := setFaulted i true w) (u := setFaulted i true (set .faulted)) (c := 12)
      (by rw [kf]; exact hu) (by decide) (by rw [kf]; exact ⟨ha, hp, htrip, hq⟩) kf
    exact ⟨t, hexec.trans hfinish, raised, present⟩
  · rw [exec_release_idle (Bool.eq_false_iff.mpr (mt (hruns _).mp h))]
    exact finish_atRest hrest
  · obtain ⟨w, k, releasing, -, inhibited⟩ := exec_release hu.1 ((hruns _).mpr hr)
    have hexec : exec (.releaseTimerExpiry i) s = finish (enteredReleased send i w) := by
      rcases hx with hx | ⟨hx, hown⟩
      · exact inhibited hx
      · rw [releasing hx, pressEnded_other]
        exact fun r hl => hown r ((congrArg Channel.live (k.chan m)).symm.trans hl)
    obtain ⟨t, heq, ht, hchan⟩ := enteredReleased_after hu i (x.goes .released none) rfl k.silent
    refine ⟨t, ?_, ht, fun j => ?_⟩
    · rw [hexec, heq]
      refine finish_atRest fun hp => ?_
      rw [ht] at hp ⊢
      exact hrest hp
    · rw [hchan]
      by_cases hj : j = m
      · rw [hj, if_pos rfl, decide_eq_true rfl, Bool.true_and]
      · rw [if_neg hj, decide_eq_false hj, Bool.false_and, Bool.not_false, Bool.and_true]
  · obtain ⟨w, k, releasing, -, -⟩ := exec_release hu.1 ((hruns _).mpr hr)
    have hexec := releasing hx
    rw [pressEnded_own send (by rw [k.chan]; exact hl) ho hd] at hexec
    exact ⟨_, hexec, k.rampedEnd (release_ends_press (k.undisturbed hu) k.self (k.anyValid nofun hv) (by rw [k.hsc]; exact hq))⟩
  · obtain ⟨w, k, -, faulted, -⟩ := exec_release hu.1 ((hruns _).mpr hr)
    have only : OnlyFaulted i w := (congrArg Fis.faulted k.fis).trans honly
    have emptied := setEmptied (k.noHost hu.1) (fun j => k.anyValid nofun (hv j)) only (by
      unfold State.cause; rw [k.fis]; exact ha) (by unfold State.causeSetting; rw [k.settings]; exact hcls)
    have hexec := faulted hx
    generalize removeFaulted send i w = y at emptied hexec
    have settings : y.settings = s.settings := emptied.apart.settings.trans k.settings
    have others : ∀ j, j ≠ 12 → y.cause j = s.cause j := fun j hj => (emptied.others j hj).trans (by unfold State.cause; rw [k.fis])
    have hy : Undisturbed y := ⟨hu.1.of_settings settings, fun j hj hja hjc => by
      by_cases h12 : j = 12
      · rw [h12, emptied.cause.1] at hja
        cases hja
      · rw [others j h12] at hja ⊢
        exact hu.2 j hj hja (by unfold State.causeSetting at *; rwa [settings] at hjc)⟩
    have hself : y.inputState i.machine i.dir = .released := by
      have := k.self
      unfold State.inputState at *
      rw [input_siq (s := w) emptied.apart.siq]
      exact this
    obtain ⟨t, heq, ht, hchan⟩ := enteredReleased_spec hy i hself
    have hfis : t.fis = y.fis := by rw [ht]
    refine ⟨_, hexec.trans (congrArg finish heq), ?_, ?_, ?_, fun hheld hnone => ?_⟩
    · rw [beginWrite_cause]; unfold State.cause; rw [hfis]; exact emptied.cause.1
    · rw [beginWrite_cause]; unfold State.cause; rw [hfis]; exact emptied.cause.2
    · unfold State.anyStationFaulted State.stationFaulted
      rw [beginWrite_fis, hfis, emptied.apart.faulted]
      exact List.any_eq_false.mpr fun j _ => Bool.eq_false_iff.mp (stationFaulted_removed only j)
    · rw [beginWrite_chan, hchan]
      exact emptied.held m (by rw [k.chan]; exact hheld)
        (affected_without emptied.cause.1 others (fun j hj => (if_neg hj).trans (if_neg hj).symm) hnone)

end Sys2Proof.Machine
end

section
/-! PROOFS. The inputs of the hatch pins (O53). -/

namespace Sys2Proof.Machine

variable {s w : State}

/-! ## A pin input -/

/-- The part with PINS_UL at a level, and with PINS_LK at one. -/
def State.withUl (s : State) (v : Bool) : State := { s with pins := { s.pins with pinsUl := v } }
def State.withLk (s : State) (v : Bool) : State := { s with pins := { s.pins with pinsLk := v } }

/-- What PINS_UL does once its item has changed (R83, R86). -/
def afterUl (v : Bool) (s : State) : State :=
  match (s.chan .h).state, v with
  | .unlocking, true => enterMoving send .h s
  | .moving, false => reportEvent send causePins s
  | _, _ => s

/-- What PINS_LK does once its items have changed (R84). -/
def afterLk (v : Bool) (s : State) : State :=
  match (s.chan .h).state, v with
  | .locking, true => leave send .h .idle .now s
  | _, _ => s

theorem exec_pinsUl_idle (hrest : StoreAtRest s) {v : Bool} (h : s.phase ≠ .running ∨ s.pins.pinsUl = v) :
    exec (.pinsUlChange v) s = .next (s.withUl v) := by
  show finish (pinsUlChange send v s) = _
  unfold pinsUlChange
  by_cases hv : s.pins.pinsUl = v
  · subst hv
    rw [if_pos rfl]
    exact finish_atRest hrest
  · have hp : (s.withUl v).phase ≠ .running := h.resolve_right hv
    rw [if_neg hv, reacts_asleep (s := s.onPins _) hp]
    exact finish_of_phase hp

theorem exec_pinsLk_idle (hrest : StoreAtRest s) {v : Bool} (h : s.phase ≠ .running ∨ s.pins.pinsLk = v) :
    exec (.pinsLkChange v) s = .next (s.withLk v) := by
  show finish (pinsLkChange send v s) = _
  unfold pinsLkChange
  by_cases hv : s.pins.pinsLk = v
  · subst hv
    rw [if_pos rfl]
    exact finish_atRest hrest
  · have hp : (s.withLk v).phase ≠ .running := h.resolve_right hv
    rw [if_neg hv, reacts_asleep (s := s.onPins _) hp]
    exact finish_of_phase hp

/-- PINS_UL changes in service: its item follows, and then the hatch. -/
theorem exec_pinsUl (hn : NoHostEntries s) (hp : s.phase = .running) {v : Bool} (hv : s.pins.pinsUl = !v) :
    ∃ w, Silent (s.withUl v) w ∧ w.item Item.pinsUnlocked = v ∧ exec (.pinsUlChange v) s = finish (afterUl v w) := by
  refine ⟨publish send (s.withUl v) Item.pinsUnlocked, silent_publish quiet_send (s := s.withUl v) hn (by decide),
    item_publish quiet_send (s := s.withUl v) hn (r := Item.pinsUnlocked) (by unfold Plain; decide) rfl _, ?_⟩
  show finish (pinsUlChange send v s) = _
  unfold pinsUlChange
  rw [hv, if_neg (by cases v <;> nofun), reacts_running (s := s.onPins _) hp]
  rfl

/-- PINS_LK changes in service: its two items follow, and then the hatch. -/
theorem exec_pinsLk (hn : NoHostEntries s) (hp : s.phase = .running) {v : Bool} (hv : s.pins.pinsLk = !v) :
    ∃ w, Silent (s.withLk v) w ∧ w.item Item.pinsLocked = v ∧
      w.item Item.unsecured = (s.item (Item.atIn .h) && !v && (s.chan .h).state == .idle) ∧
      exec (.pinsLkChange v) s = finish (afterLk v w) := by
  have k1 : Silent (s.withLk v) (publish send (s.withLk v) Item.pinsLocked) :=
    silent_publish quiet_send (s := s.withLk v) hn (by decide)
  have item1 := item_publish quiet_send (s := s.withLk v) hn (r := Item.pinsLocked) (by unfold Plain; decide) rfl
  have hexec : exec (.pinsLkChange v) s =
      finish (afterLk v (publish send (publish send (s.withLk v) Item.pinsLocked) Item.unsecured)) := by
    show finish (pinsLkChange send v s) = _
    unfold pinsLkChange
    rw [hv, if_neg (by cases v <;> nofun), reacts_running (s := s.onPins _) hp]
    rfl
  generalize publish send (s.withLk v) Item.pinsLocked = u at k1 item1 hexec
  have hnu : NoHostEntries u := hn.of_settings (by rw [k1]; rfl)
  have item2 := item_publish quiet_send hnu (r := Item.unsecured) (by unfold Plain; decide) rfl
  refine ⟨_, k1.trans (silent_publish quiet_send hnu (by decide)), ?_, ?_, hexec⟩
  · rw [item2, if_neg (by decide), item1, if_pos rfl]
    rfl
  · rw [item2, if_pos rfl]
    show u.isUnsecured = _
    unfold State.isUnsecured
    rw [item1, if_neg (by decide), show u.pins = (s.withLk v).pins by rw [k1], chan_mc (s := s) (by rw [k1]; rfl)]
    rfl

theorem afterUl_stays {v : Bool} (hl : v = true → (w.chan .h).state ≠ .unlocking) (hm : v = false → (w.chan .h).state ≠ .moving) :
    afterUl v w = w := by
  unfold afterUl
  split
  · rename_i h; exact absurd h (hl rfl)
  · rename_i h; exact absurd h (hm rfl)
  · rfl

theorem afterLk_stays {v : Bool} (hl : v = true → (w.chan .h).state ≠ .locking) : afterLk v w = w := by
  unfold afterLk
  split
  · rename_i h; exact absurd h (hl rfl)
  · rfl

/-! ## UNLOCKING into MOVING -/

/-- The hatch with its pins drawn enters MOVING (R37, R83). -/
structure HatchMoves (s t : State) : Prop where
  still : Still (stateCore .h .moving s) t
  pinTimer : t.sfe.pinTimer = none
  shares : SharesFlow t

theorem hatchMoves (hn : NoHostEntries w) (hul : w.pins.pinsUl = true) : HatchMoves w (enterMoving send .h w) := by
  have ke := calm_enter quiet_send hn .h .moving
  have heq : enterMoving send .h w = recompute send (enter send .h .moving w) := by
    have kr : Still (stateCore .h .moving w) (recompute send (enter send .h .moving w)) :=
      ke.still.trans (still_recompute quiet_send (ke.noHostEntries (noHost_stateCore hn .h .moving)))
    unfold enterMoving
    dsimp only
    rw [if_neg]
    rintro ⟨-, hpins, -⟩
    rw [kr.pins, stateCore_eq, hul] at hpins
    cases hpins
  have hne : NoHostEntries (enter send .h .moving w) := ke.noHostEntries (noHost_stateCore hn .h .moving)
  have kr := calm_recompute quiet_send hne
  rw [heq]
  refine ⟨ke.still.trans (still_recompute quiet_send hne), ?_, sharesFlow_recompute quiet_send hne⟩
  rw [kr.sfe, shareCore_pin, ke.sfe]
  exact (stateCore_moving_h w).2

/-! ## LOCKING into IDLE -/

theorem handBack_other {m k : MachineId} (h : k ≠ m) (s : State) : (handBack m s).chan k = s.chan k := by
  unfold handBack
  rw [setChan_chan, if_neg h.symm, dropRun_other h]

theorem handBack_self {m : MachineId} {r : RunRec} (hl : (s.chan m).live = some r) :
    (handBack m s).chan m = Channel.released
      { s.chan m with live := none, last := some { r with endPos := some (s.chan m).position }, refresh := none } := by
  unfold handBack
  rw [setChan_chan_same, dropRun_chan m s r hl]

/-- The beginning of a store write changes no channel, no item and no share. -/
theorem SharesFlow.beginWrite {t : State} (h : SharesFlow t) : SharesFlow (beginWrite t) :=
  h.of_same (beginWrite_mc t) (beginWrite_hsc t) (beginWrite_settings t) (beginWrite_item t _) (by rw [beginWrite_sfe])

/-- What a sequence of the hatch keeps of the part, from a state that differs in the hatch and the supply alone. -/
theorem kept_of_still {u t : State} (h : Still u t) (e : u = { s with pins := u.pins, mc := u.mc, sfe := u.sfe, hsc := u.hsc, seu := u.seu })
    (hr : u.sfe.rode = s.sfe.rode) (hi : u.hsc.isolate = s.hsc.isolate) (hc : ∀ m, m ≠ .h → u.chan m = s.chan m) :
    t.phase = s.phase ∧ t.now = s.now ∧ t.settings = s.settings ∧ t.slp = s.slp ∧ t.siq = s.siq ∧ t.fis = s.fis ∧
      t.sfe.rode = s.sfe.rode ∧ t.hsc.isolate = s.hsc.isolate ∧
      ∀ m, m ≠ .h → t.chan m = { s.chan m with share := (t.chan m).share, applied := (t.chan m).applied } := by
  refine ⟨?_, ?_, ?_, ?_, ?_, ?_, h.rode.trans hr, h.isolate.trans hi, fun m hm => ?_⟩
  · rw [h.phase, e]
  · rw [h.now, e]
  · rw [h.settings, e]
  · rw [h.slp, e]
  · rw [h.siq, e]
  · rw [h.fis, e]
  · rw [← hc m hm]
    exact h.chan m

/-- Settles O53. -/
theorem pinInputsEndTheirSequences : Obligations.PinInputsEndTheirSequences := by
  intro s hu hrest ul lk rest kept
  refine ⟨fun v h => exec_pinsUl_idle hrest h, fun v hp hv hl hm => ?_, fun hp hv hs => ?_, fun hp hv hs hr => ?_,
    fun v h => exec_pinsLk_idle hrest h, fun v hp hv hl => ?_, fun r hp hv hs hl hvalid hq => ?_,
    fun r k rest hp hv hs hl hvalid hq hk hg hpump => ?_⟩
  · obtain ⟨w, k, item, hexec⟩ := exec_pinsUl hu.1 hp hv
    have hstate : w.chan .h = s.chan .h := chan_mc (by rw [k]; rfl) .h
    rw [afterUl_stays (by rwa [hstate]) (by rwa [hstate]), finish_silent k rfl rfl hrest] at hexec
    exact ⟨w, hexec, item, k⟩
  · obtain ⟨w, k, -, hexec⟩ := exec_pinsUl hu.1 hp (v := true) hv
    have hch : ∀ m, w.chan m = s.chan m := chan_mc (by rw [k]; rfl)
    have hafter : afterUl true w = enterMoving send .h w := by
      unfold afterUl
      rw [hch, hs]
    obtain ⟨still, pinTimer, shares⟩ := hatchMoves (w := w) (hu.1.of_settings (by rw [k]; rfl)) (by rw [k]; rfl)
    rw [hafter] at hexec
    generalize enterMoving send .h w = t at still pinTimer shares hexec
    have all := still.trans (still_beginWrite t)
    have core := stateCore_eq .h .moving w
    have hh := all.chan .h
    rw [(stateCore_moving_h w).1, hch] at hh
    refine ⟨_, hexec, hh, by rw [beginWrite_sfe, pinTimer], ?_, shares.beginWrite, ?_, ?_, ?_, kept_of_still all ?_ ?_ ?_ fun m hm => ?_⟩
    · unfold State.pinUnlock; rw [hh]; rfl
    · rw [all.grants, core, k]; rfl
    · rw [all.queue, core, k]; rfl
    · rw [all.pins, core, k]; rfl
    · rw [core, k]; rfl
    · rw [(stateCore_sfe _ _ _).1, k]; rfl
    · rw [core, k]; rfl
    · rw [stateCore_chan, if_neg hm.symm, hch]
  · obtain ⟨w, k, -, hexec⟩ := exec_pinsUl hu.1 hp (v := false) hv
    have hafter : afterUl false w = reportEvent send causePins w := by
      unfold afterUl
      rw [chan_mc (s := s) (by rw [k]; rfl), hs]
    obtain ⟨hactive, hpresent, htrip, hempty, hcls⟩ := hr
    obtain ⟨t, hfinish, raised, absent⟩ := event_finish (s := w) (u := ul false) (c := 11)
      (undisturbed_of hu (by rw [k]; rfl) (by rw [k]; rfl)) (by decide) (by rw [k]; exact ⟨hactive, hpresent, htrip, hempty⟩)
      (by rw [k]; exact hcls) k
    exact ⟨t, hexec.trans ((congrArg finish hafter).trans hfinish), raised, absent⟩
  · obtain ⟨w, k, locked, unsecured, hexec⟩ := exec_pinsLk hu.1 hp hv
    have hstate : w.chan .h = s.chan .h := chan_mc (by rw [k]; rfl) .h
    rw [afterLk_stays (by rwa [hstate]), finish_silent k rfl rfl hrest] at hexec
    exact ⟨w, hexec, locked, unsecured, k⟩
  · obtain ⟨w, k, -, -, hexec⟩ := exec_pinsLk hu.1 hp (v := true) hv
    have hch : ∀ m, w.chan m = s.chan m := chan_mc (by rw [k]; rfl)
    have hn : NoHostEntries w := hu.1.of_settings (by rw [k]; rfl)
    have hv : w.anyValid .h = false := (anyValid_siq (by rw [k]; rfl) _).trans hvalid
    have hqw : w.hsc.queue.erase .h = [] := by rw [k]; exact hq
    have still := leave_still quiet_send hn .h (st := .idle) (by decide) hqw fun _ => hv
    have pump := pumpReleased_leave quiet_send hn .h .idle hqw fun _ => hv
    have hafter : afterLk true w = leave send .h .idle .now w := by
      unfold afterLk
      rw [hch, hs]
    rw [hafter] at hexec
    generalize leave send .h .idle .now w = t at still pump hexec
    have all := still.trans (still_beginWrite t)
    have core := stateCore_eq .h .idle (dropRun .h w)
    have drop := dropRun_eq .h w
    have hh := all.chan .h
    rw [stateCore_chan, if_pos rfl, dropRun_chan .h w r (by rw [hch]; exact hl), hch] at hh
    refine ⟨_, hexec, ?_, ?_, ?_, ?_, ?_, ?_, ?_, kept_of_still all ?_ ?_ ?_ fun m hm => ?_, ?_⟩
    · rw [hh]; rfl
    · rw [hh]; rfl
    · rw [hh]; rfl
    · unfold State.pinLock; rw [hh]; rfl
    · rw [all.grants, core, drop, k]; rfl
    · rw [all.queue, core, drop]; exact hqw
    · rw [all.pins, core, drop, k]; rfl
    · rw [core, drop, k]; rfl
    · rw [(stateCore_sfe _ _ _).1, drop, k]; rfl
    · rw [core, drop, k]; rfl
    · rw [stateCore_chan, if_neg hm.symm, dropRun_other hm, hch]
    · rw [beginWrite_hsc]
      rw [k] at pump
      exact pump
  · obtain ⟨w, kw, -, -, hexec⟩ := exec_pinsLk hu.1 hp (v := true) hv
    have hch : ∀ m, w.chan m = s.chan m := chan_mc (by rw [kw]; rfl)
    have hn : NoHostEntries w := hu.1.of_settings (by rw [kw]; rfl)
    have hv : w.anyValid .h = false := (anyValid_siq (by rw [kw]; rfl) _).trans hvalid
    obtain ⟨still, pump⟩ := leave_handsOver quiet_send hn .h k hk (by rw [kw]; exact hq) (by rw [kw]; exact hg) (by rw [kw]; exact hpump)
      (fun h => absurd h hk) hv
    have hafter : afterLk true w = leave send .h .idle .now w := by
      unfold afterLk
      rw [hch, hs]
    rw [hafter] at hexec
    generalize leave send .h .idle .now w = t at still pump hexec
    have hmoving : grantedState w k = .moving := by
      unfold grantedState State.needsUnlocking
      rw [beq_eq_false_iff_ne.mpr hk]
      rfl
    rw [hmoving] at still
    have all := still.trans (still_beginWrite t)
    have back := handBack_eq .h w
    let x := (handBack .h w).onHsc fun y => { y with grants := y.grants ++ [k], queue := rest }
    have xch : ∀ m, x.chan m = (handBack .h w).chan m := fun _ => rfl
    have core : stateCore .h .idle (stateCore k .moving x) = { x with
        mc := (stateCore .h .idle (stateCore k .moving x)).mc, sfe := (stateCore .h .idle (stateCore k .moving x)).sfe } := by
      rw [stateCore_eq .h, stateCore_eq k]
    have xs : x.settings = s.settings ∧ x.siq = s.siq ∧ x.fis = s.fis ∧ x.sfe.rode = s.sfe.rode ∧
        x.hsc.grants = s.hsc.grants.erase .h ++ [k] := by
      show (handBack .h w).settings = _ ∧ (handBack .h w).siq = _ ∧ (handBack .h w).fis = _ ∧ (handBack .h w).sfe.rode = _ ∧
        (handBack .h w).hsc.grants ++ [k] = _
      rw [back, kw]
      exact ⟨rfl, rfl, rfl, rfl, rfl⟩
    obtain ⟨xsettings, xsiq, xfis, xrode, xgrants⟩ := xs
    have hh := all.chan .h
    rw [stateCore_chan, if_pos rfl, stateCore_chan, if_neg hk, xch, handBack_self (by rw [hch]; exact hl), hch] at hh
    have hkk := all.chan k
    rw [stateCore_chan, if_neg hk.symm, stateCore_chan, if_pos rfl, xch, handBack_other hk, hch] at hkk
    refine ⟨_, hexec, ?_, ?_, ?_, ?_, ?_, ?_, ?_, hkk, fun m hm hmk => ?_, ?_, ?_, ?_, ?_⟩
    · rw [hh]; rfl
    · rw [hh]; rfl
    · rw [hh]; rfl
    · unfold State.pinLock; rw [hh]; rfl
    · rw [all.grants, core]; exact xgrants
    · rw [all.queue, core]; rfl
    · rw [beginWrite_hsc]; exact pump
    · have := all.chan m
      rwa [stateCore_chan, if_neg hm.symm, stateCore_chan, if_neg hmk.symm, xch, handBack_other hm, hch] at this
    · rw [all.settings, core]; exact xsettings
    · rw [all.siq, core]; exact xsiq
    · rw [all.fis, core]; exact xfis
    · rw [all.rode, (stateCore_sfe _ _ _).1, (stateCore_sfe _ _ _).1]; exact xrode

end Sys2Proof.Machine
end

section
/-! PROOFS. The events that raise a cause (O50). -/

namespace Sys2Proof.Machine

variable {s u v : State} {c : Nat}

/-! ## A cause at rest -/

/-- The cause is at rest, and its raise takes no new trip and leaves nobody waiting. -/
def RaiseReady (c : Nat) (s : State) : Prop :=
  (s.cause c).active = false ∧ (s.cause c).present = false ∧
    ((s.causeSetting c).trip = false ∨ s.fis.trip.isSome = true) ∧ s.emptiesQueue c

/-- Two states whose channels, inputs, causes, settings, grants, places and ISOLATE are the same. -/
structure SamePlant (s u : State) : Prop where
  mc : u.mc = s.mc
  siq : u.siq = s.siq
  fis : u.fis = s.fis
  settings : u.settings = s.settings
  grants : u.hsc.grants = s.hsc.grants
  queue : u.hsc.queue = s.hsc.queue
  isolate : u.hsc.isolate = s.hsc.isolate

theorem SamePlant.silent (h : SamePlant s u) (k : Silent u v) : SamePlant s v := by
  obtain ⟨mc, siq, fis, settings, grants, queue, isolate⟩ := h
  rw [k]
  exact ⟨mc, siq, fis, settings, grants, queue, isolate⟩

theorem SamePlant.cause (h : SamePlant s u) (c : Nat) : u.cause c = s.cause c := by
  unfold State.cause; rw [h.fis]

theorem SamePlant.causeSetting (h : SamePlant s u) (c : Nat) : u.causeSetting c = s.causeSetting c := by
  unfold State.causeSetting; rw [h.settings]

theorem SamePlant.undisturbed (h : SamePlant s u) (hu : Undisturbed s) : Undisturbed u := undisturbed_of hu h.settings h.fis

theorem RaiseReady.of_same (h : RaiseReady c s) (k : SamePlant s u) : RaiseReady c u := by
  obtain ⟨active, present, trip, empties⟩ := h
  refine ⟨by rw [k.cause]; exact active, by rw [k.cause]; exact present, by rw [k.causeSetting, k.fis]; exact trip, ?_⟩
  exact Raised.emptiesQueue_of empties k.mc k.queue (by rw [k.fis])

theorem TripReady.of_same (h : TripReady c s) (k : SamePlant s u) : TripReady c u := by
  obtain ⟨active, present, trip, none, isolate, seated, shut, valid⟩ := h
  have hch : ∀ m, u.chan m = s.chan m := chan_mc k.mc
  refine ⟨by rw [k.cause]; exact active, by rw [k.cause]; exact present, by rw [k.causeSetting]; exact trip, by rw [k.fis]; exact none,
    by rw [k.isolate]; exact isolate, ?_, fun m => by rw [hch]; exact shut m, fun m => ?_⟩
  · unfold Seated at *
    simp only [k.grants, k.queue, hch]
    exact seated
  · unfold State.inputState at *
    rw [input_siq k.siq, input_siq k.siq]
    exact valid m

/-- A raise without a new trip and one with it exclude each other. -/
theorem RaiseReady.not_tripReady (h : RaiseReady c s) (k : TripReady c s) : False := by
  obtain ⟨-, -, htrip, -⟩ := h
  obtain ⟨-, -, enabled, none, -⟩ := k
  rcases htrip with htrip | htrip
  · rw [enabled] at htrip; cases htrip
  · rw [none] at htrip; cases htrip

/-- What the raise of `c` at `s` makes of `u`, without a new trip or with one. -/
def RaisesOrTrips (c : Nat) (s u t : State) : Prop := (RaiseReady c s → Raised c u t) ∧ (TripReady c s → Tripped c u t)

/-- A condition reported at the end of a handling. -/
theorem report_raises (hu : Undisturbed s) (same : SamePlant s u) (k : Silent u v) (hc : c < 16) (h : RaiseReady c s ∨ TripReady c s)
    (hself : (s.causeSetting c).cls ≠ .self ∨ c ≠ causeCreep ∧ c ≠ causePins) :
    ∃ t, finish (report send c true v) = .next t ∧ RaisesOrTrips c s u t ∧ (t.cause c).present = true := by
  have sv := same.silent k
  rcases h with h | h
  · obtain ⟨t, hfinish, raised, present, -⟩ := report_finish (sv.undisturbed hu) hc (h.of_same sv) k
    exact ⟨t, hfinish, ⟨fun _ => raised, fun ht => (h.not_tripReady ht).elim⟩, present⟩
  · obtain ⟨t, hfinish, tripped, present⟩ := tripped_report_finish (sv.undisturbed hu) hc (h.of_same sv)
      (by rw [sv.causeSetting]; exact hself) k
    exact ⟨t, hfinish, ⟨fun hr => (hr.not_tripReady h).elim, fun _ => tripped⟩, present⟩

/-- An event condition at the end of a handling. -/
theorem event_raises (hu : Undisturbed s) (same : SamePlant s u) (k : Silent u v) (hc : c < 16) (h : RaiseReady c s ∨ TripReady c s)
    (hcls : (s.causeSetting c).cls ≠ .self) :
    ∃ t, finish (reportEvent send c v) = .next t ∧ RaisesOrTrips c s u t ∧ (t.cause c).present = false := by
  have sv := same.silent k
  have hclsv : (v.causeSetting c).cls ≠ .self := by rw [sv.causeSetting]; exact hcls
  rcases h with h | h
  · obtain ⟨t, hfinish, raised, present⟩ := event_finish (sv.undisturbed hu) hc (h.of_same sv) hclsv k
    exact ⟨t, hfinish, ⟨fun _ => raised, fun ht => (h.not_tripReady ht).elim⟩, present⟩
  · obtain ⟨t, hfinish, tripped, present⟩ := tripped_event_finish (sv.undisturbed hu) hc (h.of_same sv) hclsv k
    exact ⟨t, hfinish, ⟨fun hr => (hr.not_tripReady h).elim, fun _ => tripped⟩, present⟩

/-! ## Hot oil -/

theorem exec_oilHot_idle (hrest : StoreAtRest s) {a : Bool} (h : s.phase ≠ .running ∨ s.pins.oilHot = a) :
    exec (.oilHotChange a) s = .next { s with pins := { s.pins with oilHot := a } } := by
  show finish (oilHotChange send a s) = _
  unfold oilHotChange
  by_cases hv : s.pins.oilHot = a
  · subst hv
    rw [if_pos rfl]
    exact finish_atRest hrest
  · have hp := h.resolve_right hv
    rw [if_neg hv, reacts_asleep (s := s.onPins fun p => { p with oilHot := a }) hp]
    exact finish_of_phase (s := s.onPins fun p => { p with oilHot := a }) hp

/-- OIL_HOT changes in service: its item follows, and then its condition is reported. -/
theorem exec_oilHot (hn : NoHostEntries s) (hp : s.phase = .running) {a : Bool} (hv : s.pins.oilHot = !a) :
    ∃ w, Silent { s with pins := { s.pins with oilHot := a } } w ∧ w.item Item.oilHotIn = a ∧
      exec (.oilHotChange a) s = finish (report send causeOilHot a w) := by
  let b : State := { s with pins := { s.pins with oilHot := a } }
  refine ⟨publish send b Item.oilHotIn, silent_publish quiet_send (s := b) hn (by decide),
    item_publish quiet_send (s := b) hn (r := Item.oilHotIn) (by unfold Plain; decide) rfl _, ?_⟩
  show finish (oilHotChange send a s) = _
  unfold oilHotChange
  rw [hv, if_neg (by cases a <;> nofun), reacts_running (s := s.onPins _) hp]
  rfl

/-! ## Windlass overload -/

theorem exec_wOvld_idle (hrest : StoreAtRest s) {a : Bool} (h : s.phase ≠ .running ∨ s.pins.wOvld = a) :
    exec (.wOvldChange a) s = .next { s with pins := { s.pins with wOvld := a } } := by
  show finish (wOvldChange send a s) = _
  unfold wOvldChange
  by_cases hv : s.pins.wOvld = a
  · subst hv
    rw [if_pos rfl]
    exact finish_atRest hrest
  · have hp := h.resolve_right hv
    rw [if_neg hv]
    dsimp only
    rw [if_neg (show (s.onPins fun p => { p with wOvld := a }).phase ≠ .running from hp)]
    exact finish_of_phase (s := s.onPins fun p => { p with wOvld := a }) hp

/-- What W_OVLD does once its item has changed (R65). -/
def afterOverload (a : Bool) (s : State) : State :=
  if a then s.onSfe fun f => { f with overload := some 200 }
  else
    let s := s.onSfe fun f => { f with overload := none }
    if (s.cause causeOverload).present then report send causeOverload false s else s

theorem exec_wOvld (hn : NoHostEntries s) (hp : s.phase = .running) {a : Bool} (hv : s.pins.wOvld = !a) :
    ∃ w, Silent { s with pins := { s.pins with wOvld := a } } w ∧ w.item Item.overloadIn = a ∧
      exec (.wOvldChange a) s = finish (afterOverload a w) := by
  let b : State := { s with pins := { s.pins with wOvld := a } }
  refine ⟨publish send b Item.overloadIn, silent_publish quiet_send (s := b) hn (by decide),
    item_publish quiet_send (s := b) hn (r := Item.overloadIn) (by unfold Plain; decide) rfl _, ?_⟩
  show finish (wOvldChange send a s) = _
  unfold wOvldChange
  rw [hv, if_neg (by cases a <;> nofun)]
  dsimp only
  rw [if_pos (show (s.onPins fun p => { p with wOvld := a }).phase = .running from hp)]
  rfl

/-- The overload's condition goes absent without a clear. -/
theorem afterOverload_absent (h : (s.cause 4).active = false ∨ (s.causeSetting 4).cls ≠ .self) :
    afterOverload false s =
      { s with sfe := { s.sfe with overload := none }, fis := { s.fis with causes := poke s.fis.causes 4 { s.cause 4 with present := false } } } := by
  unfold afterOverload
  rw [if_neg nofun]
  dsimp only
  split
  · exact report_absent_plain (s := s.onSfe fun f => { f with overload := none }) h
  · rename_i hp
    have hx : ({ s.cause 4 with present := false } : CauseRec) = s.cause 4 := by
      rw [← Bool.eq_false_iff.mpr hp]
      rfl
    rw [hx]
    exact (setCause_self 4 (s.onSfe fun f => { f with overload := none })).symm

/-! ## Oil that is hot no longer -/

theorem letGo_iff (x : InputState) : x.letGo = true ↔ x = .released ∨ x = .inhibited := by cases x <;> decide

/-- Cause 3 affects every machine. -/
theorem oilHot_affects (s : State) (m : MachineId) : s.affects causeOilHot m = true := by cases m <;> rfl

/-- The condition of cause 3 goes absent while it is active, of class SELF, and every input let go: it is cleared (R108). -/
theorem oilCool_clears (ha : (s.cause 3).active = true) (hc : (s.causeSetting 3).cls = .self)
    (hl : ∀ i, (s.input i).state = .released ∨ (s.input i).state = .inhibited) :
    report send causeOilHot false s = clearCause send 3 .self (setCause 3 { s.cause 3 with present := false } s) := by
  have hx : (setCause 3 { s.cause 3 with present := false } s).cause 3 = { s.cause 3 with present := false } := by
    rw [setCause_cause, if_pos ⟨rfl, by decide⟩]
  show trySelfClear send 3 (setCause 3 { s.cause 3 with present := false } s) = _
  unfold trySelfClear
  rw [hx, if_pos]
  refine ⟨ha, hc, rfl, List.all_eq_true.mpr fun m _ => ?_⟩
  rw [Bool.or_eq_true]
  exact .inr (Bool.and_eq_true_iff.mpr ⟨(letGo_iff _).mpr (hl ⟨m, .outward⟩), (letGo_iff _).mpr (hl ⟨m, .inward⟩)⟩)

/-- The condition of cause 3 goes absent, and nothing is cleared. -/
theorem oilCool_stays (h : (s.cause 3).active = false ∨ (s.causeSetting 3).cls ≠ .self ∨
      ∃ i, (s.input i).state ≠ .released ∧ (s.input i).state ≠ .inhibited) :
    report send causeOilHot false s = setCause 3 { s.cause 3 with present := false } s := by
  rcases h with h | h | ⟨i, hreleased, hinhibited⟩
  · exact report_absent_plain (c := 3) (.inl h)
  · exact report_absent_plain (c := 3) (.inr h)
  · show trySelfClear send 3 (setCause 3 { s.cause 3 with present := false } s) = _
    unfold trySelfClear
    rw [if_neg]
    rintro ⟨-, -, -, hall⟩
    have hm := List.all_eq_true.mp hall i.machine (by cases i.machine <;> decide)
    rw [show (setCause 3 { s.cause 3 with present := false } s).affects 3 i.machine = true from oilHot_affects _ _, Bool.not_true,
      Bool.false_or] at hm
    obtain ⟨hout, hin⟩ := Bool.and_eq_true_iff.mp hm
    have hi : ((s.input i).state).letGo = true := by
      obtain ⟨m, d⟩ := i
      cases d
      · exact hout
      · exact hin
    rcases (letGo_iff _).mp hi with h | h
    · exact hreleased h
    · exact hinhibited h

/-- Settles O50. -/
theorem causeEventsHoldTheirMachines : Obligations.CauseEventsHoldTheirMachines := by
  intro s hu hrest rest trips raised pumpOff absent
  have pumpOffSame : SamePlant s pumpOff := ⟨rfl, rfl, rfl, rfl, rfl, rfl, rfl⟩
  have off : Silent pumpOff (setPump send .off 0 none s) := (setPump_exact hu.1 .off 0 none).1
  refine ⟨fun h => ?_, fun h hr hcls => ?_, fun hp ht ha hr hcls => ?_, fun a h => exec_oilHot_idle hrest h, fun hp hv hr => ?_,
    fun hp hv ha hcls hl => ?_, fun hp hv h => ?_, fun a h => exec_wOvld_idle hrest h, fun hp hv => ?_, fun hp hv h => ?_,
    fun h => ?_, fun h hr => ?_, fun h => ?_, fun h hr hcls => ?_, fun h => ?_, fun h hr hcls => ?_⟩
  · show finish (pressureLossTimerExpiry send s) = _
    unfold pressureLossTimerExpiry
    rw [h]
    exact finish_atRest hrest
  · obtain ⟨n, hn⟩ := Option.ne_none_iff_exists'.mp h
    have hexec : exec .pressureLossTimerExpiry s = finish (reportEvent send 2 (setPump send .off 0 none s)) := by
      show finish (pressureLossTimerExpiry send s) = _
      unfold pressureLossTimerExpiry
      rw [hn]
      rfl
    rw [hexec]
    exact event_raises hu pumpOffSame off (by decide) hr hcls
  · obtain ⟨n, hn⟩ := Option.ne_none_iff_exists'.mp ht
    have hexec : exec .primeTimerExpiry s = finish (reportEvent send 1 (setPump send .off 0 none s)) := by
      show finish (primeTimerExpiry send s) = _
      unfold primeTimerExpiry
      rw [hp, hn]
      dsimp only
      rw [if_neg (Nat.not_lt.mpr ha)]
      rfl
    rw [hexec]
    exact event_raises hu pumpOffSame off (by decide) hr hcls
  · obtain ⟨w, k, -, hexec⟩ := exec_oilHot hu.1 hp hv (a := true)
    rw [hexec]
    exact report_raises hu ⟨rfl, rfl, rfl, rfl, rfl, rfl, rfl⟩ k (by decide) hr (.inr ⟨by decide, by decide⟩)
  · obtain ⟨w, k, -, hexec⟩ := exec_oilHot hu.1 hp hv (a := false)
    have hclear := oilCool_clears (s := w) (by rw [k]; exact ha) (by rw [k]; exact hcls) (by rw [k]; exact hl)
    rw [hclear] at hexec
    have hcause : ∀ c, (setCause 3 { w.cause 3 with present := false } w).cause c =
        if c = 3 then { s.cause 3 with present := false } else s.cause c := fun c => by
      rw [setCause_cause, k]
      by_cases hc : c = 3
      · rw [hc]; rfl
      · rw [if_neg fun e => hc e.1.symm, if_neg hc]; rfl
    have hv : ∀ m, (setCause 3 { w.cause 3 with present := false } w).anyValid m = false := fun m => by
      have hne : ∀ d, (s.inputState m d == .valid) = false := fun d => by
        rcases hl ⟨m, d⟩ with h | h
        · rw [show s.inputState m d = _ from h]; rfl
        · rw [show s.inputState m d = _ from h]; rfl
      rw [anyValid_siq (s := s) (by rw [k]; rfl)]
      exact Bool.or_eq_false_iff.mpr ⟨hne _, hne _⟩
    have event := cleared_event cascades_send 3 .self (setCause 3 { w.cause 3 with present := false } w)
    obtain ⟨apart, causes, released, others⟩ := clearCause_calm quiet_send (s := setCause 3 { w.cause 3 with present := false } w)
      (hu.1.of_settings (by rw [k]; rfl)) hv 3 .self
    generalize clearCause send 3 .self (setCause 3 { w.cause 3 with present := false } w) = u at hexec event apart causes released others
    have hch : ∀ m, (setCause 3 { w.cause 3 with present := false } w).chan m = s.chan m := fun m => by rw [k]; rfl
    have cleared : u.cause 3 = { active := false, present := false, raisedAt := none } := by
      rw [causes, if_pos ⟨List.mem_singleton.mpr rfl, by decide⟩, hcause, if_pos rfl]
    have kept : ∀ c, c ≠ 3 → u.cause c = s.cause c := fun c hc => by
      rw [causes, if_neg fun e => hc (List.mem_singleton.mp e.1), hcause, if_neg hc]
    have faulted : u.fis.faulted = s.fis.faulted := apart.faulted.trans (by rw [k]; rfl)
    refine ⟨_, hexec, (beginWrite_cause u 3).trans cleared, fun c hc => (beginWrite_cause u c).trans (kept c hc), fun m hm hnone => ?_,
      fun m hm => ?_, fun hlen => ?_, ?_, ?_, ?_, ?_, ?_⟩
    · rw [beginWrite_chan]
      refine released m (List.cons_ne_nil _ _) (by rw [hch]; exact hm) (affected_without (by rw [cleared]) kept (fun c _ => ?_) hnone)
      unfold State.affects State.stationFaulted
      rw [faulted]
    · rw [beginWrite_chan]
      rw [beginWrite_affected] at hm
      exact (others m (by rw [hch]; exact hm)).trans (by rw [hch])
    · rw [beginWrite_seu] at hlen ⊢
      exact event hlen
    · rw [beginWrite_pins, apart.pins, k]; rfl
    · rw [beginWrite_hsc, apart.hsc, k]; rfl
    · rw [beginWrite_siq, apart.siq, k]; rfl
    · rw [beginWrite_settings, apart.settings, k]; rfl
    · rw [beginWrite_fis, apart.trip, k]; rfl
  · obtain ⟨w, k, item, hexec⟩ := exec_oilHot hu.1 hp hv (a := false)
    rw [oilCool_stays (by rw [k]; exact h)] at hexec
    refine ⟨_, hexec.trans (finish_atRest ?_), item, ?_⟩
    · rw [k]; exact hrest
    · rw [absent_eq, k]
  · obtain ⟨w, k, item, hexec⟩ := exec_wOvld hu.1 hp hv (a := true)
    refine ⟨_, hexec.trans (finish_atRest ?_), item, ?_⟩
    · rw [k]; exact hrest
    · rw [k]
      rfl
  · obtain ⟨w, k, item, hexec⟩ := exec_wOvld hu.1 hp hv (a := false)
    rw [afterOverload_absent (by rw [k]; exact h)] at hexec
    refine ⟨_, hexec.trans (finish_atRest ?_), item, ?_⟩
    · rw [k]; exact hrest
    · rw [k]
      rfl
  · show finish (overloadQualifyTimerExpiry send s) = _
    unfold overloadQualifyTimerExpiry
    rw [h]
    exact finish_atRest hrest
  · obtain ⟨n, hn⟩ := Option.ne_none_iff_exists'.mp h
    have hexec : exec .overloadQualifyTimerExpiry s =
        finish (report send 4 true { s with sfe := { s.sfe with overload := none } }) := by
      show finish (overloadQualifyTimerExpiry send s) = _
      unfold overloadQualifyTimerExpiry
      rw [hn]
      rfl
    rw [hexec]
    exact report_raises hu ⟨rfl, rfl, rfl, rfl, rfl, rfl, rfl⟩ (.refl _) (by decide) hr (.inr ⟨by decide, by decide⟩)
  · show finish (stallTimerExpiry send s) = _
    unfold stallTimerExpiry
    rw [h]
    exact finish_atRest hrest
  · obtain ⟨n, hn⟩ := Option.ne_none_iff_exists'.mp h
    have hexec : exec .stallTimerExpiry s = finish (reportEvent send 5 { s with sfe := { s.sfe with stall := none } }) := by
      show finish (stallTimerExpiry send s) = _
      unfold stallTimerExpiry
      rw [hn]
      rfl
    rw [hexec]
    exact event_raises hu ⟨rfl, rfl, rfl, rfl, rfl, rfl, rfl⟩ (.refl _) (by decide) hr hcls
  · show finish (pinTimerExpiry send s) = _
    unfold pinTimerExpiry
    rw [h]
    exact finish_atRest hrest
  · obtain ⟨n, hn⟩ := Option.ne_none_iff_exists'.mp h
    have hexec : exec .pinTimerExpiry s = finish (reportEvent send 11 s) := by
      show finish (pinTimerExpiry send s) = _
      unfold pinTimerExpiry
      rw [hn]
      rfl
    rw [hexec]
    exact event_raises hu ⟨rfl, rfl, rfl, rfl, rfl, rfl, rfl⟩ (.refl _) (by decide) hr hcls

end Sys2Proof.Machine
end

section
/-! PROOFS. The end of initialization: the set-up, the two inputs reported after it, and the resting channels (R2, R41, R66, R96,
R98, R115, R182). -/

namespace Sys2Proof.Machine

variable {s t : State}

/-- An input that stands at the end of initialization reports its cause (R41). -/
def reportedIf (b : Bool) (c : Nat) (s : State) : State := if b then report send c true s else s

/-- The part when the two inputs are about to be reported: set up, its displays activated, its SELF causes tried. -/
def selfTried (s : State) : State := causeIndexes.foldl (fun s c => trySelfClear send c s) (activateHeld (setUp s))

theorem selfTried_cascade (s : State) : Cascade (setUp s) (selfTried s) :=
  cascade_foldl _ (fun c _ h => cascade_trySelfClear cascades_send c h) (cascade_activateHeld (.refl _))

theorem reportedIf_keeps (b : Bool) {c : Nat} (hc : c < 16) (s : State) : InitKeeps s (reportedIf b c s) := by
  cases b
  · exact (Cascade.refl s).init
  · exact init_report hc s

/-- A report leaves another cause as a cascade does. -/
theorem reportedIf_other (b : Bool) {c d : Nat} (hc : c < 16) (hd : c ≠ d) (s : State) :
    ∃ v, v.cause d = s.cause d ∧ v.settings = s.settings ∧ Cascade v (reportedIf b c s) := by
  cases b
  · exact ⟨s, rfl, rfl, .refl s⟩
  · obtain ⟨v, hv, hcas, hset⟩ := report_other hc s hd
    exact ⟨v, hv, hset, hcas⟩

/-- A report asserts ISOLATE for a trip record or ESTOP alone (R114). -/
theorem reportedIf_isolateWanted (b : Bool) {c : Nat} (hc : c < 16) (h : s.hsc.isolate = true → IsolateWanted s) :
    (reportedIf b c s).hsc.isolate = true → IsolateWanted (reportedIf b c s) := by
  cases b
  · exact h
  · obtain ⟨x, hcas, -⟩ := report_present c hc s
    exact hcas.isolateWanted h

/-- A condition that appears makes its cause active and present (R105, R106). -/
theorem reportedIf_stands {c : Nat} (hc : c < 16) (h1 : c ≠ causeCreep) (h2 : c ≠ causePins) (hp : (s.cause c).present = false) :
    ((reportedIf true c s).cause c).active = true ∧ ((reportedIf true c s).cause c).present = true := by
  obtain ⟨x, hcas, hx, -, happ⟩ := report_present c hc s
  have hself : (setCause c x s).cause c = x := by rw [setCause_cause, if_pos ⟨rfl, hc⟩]
  obtain ⟨ha, hpr, -⟩ := hcas.causeStands h1 h2 (by rw [hself]; exact (happ hp).1) (by rw [hself]; exact hx)
  exact ⟨ha, hpr⟩

theorem endOfInitialization_eq (hp : s.phase = .initializing) :
    endOfInitialization send s =
      reportedIf s.pins.oilHot causeOilHot (reportedIf s.pins.estop causeEstop (selfTried s)) := by
  have hpins : (selfTried s).pins = s.pins := (selfTried_cascade s).pins.trans (setUp_keeps s).pins
  have hpins' : (reportedIf s.pins.estop causeEstop (selfTried s)).pins = s.pins :=
    ((reportedIf_keeps s.pins.estop (by decide) (selfTried s)).cas.2.2.2.2).trans hpins
  have hcases : endOfInitialization send s =
      reportedIf (reportedIf (selfTried s).pins.estop causeEstop (selfTried s)).pins.oilHot causeOilHot
        (reportedIf (selfTried s).pins.estop causeEstop (selfTried s)) := by
    unfold endOfInitialization
    rw [hp]
    dsimp only
    rw [show causeIndexes.foldl (fun s c => trySelfClear send c s) (activateHeld (setUp s)) = selfTried s from rfl]
    generalize selfTried s = v
    rfl
  rw [hcases, hpins, hpins']

/-- What the set-up puts in place stays through the causes raised after it. -/
theorem endOfInitialization_keeps (hp : s.phase = .initializing) : InitKeeps (setUp s) (endOfInitialization send s) := by
  rw [endOfInitialization_eq hp]
  exact ((selfTried_cascade s).init.trans (reportedIf_keeps _ (by decide) _)).trans (reportedIf_keeps _ (by decide) _)

theorem endOfInitialization_isolateWanted (hp : s.phase = .initializing)
    (h : (endOfInitialization send s).hsc.isolate = true) : IsolateWanted (endOfInitialization send s) := by
  have hset : (setUp s).hsc.isolate = true → IsolateWanted (setUp s) := by
    intro hi
    rw [(setUp_keeps s).iso, Bool.or_eq_true] at hi
    unfold IsolateWanted
    rw [(setUp_keeps s).fis, storeCauses_trip, (setUp_keeps s).pins]
    exact hi.symm
  rw [endOfInitialization_eq hp] at h ⊢
  exact reportedIf_isolateWanted _ (by decide)
    (reportedIf_isolateWanted _ (by decide) ((selfTried_cascade s).isolateWanted hset)) h

/-- With ESTOP asserted cause 0 appears, and no later report takes it away (R41). -/
theorem endOfInitialization_estop (hp : s.phase = .initializing) (he : s.pins.estop = true)
    (hc : (s.cause causeEstop).present = false) :
    ((endOfInitialization send s).cause causeEstop).active = true ∧
      ((endOfInitialization send s).cause causeEstop).present = true := by
  have hset : ((setUp s).cause causeEstop).present = false := by
    unfold State.cause
    rw [(setUp_keeps s).fis, storeCauses_cause0 s _ (by decide)]
    exact hc
  have htried : ((selfTried s).cause causeEstop).present = false :=
    ((selfTried_cascade s).causePresent (by decide) (by decide)).trans hset
  obtain ⟨ha, hpr⟩ := reportedIf_stands (c := causeEstop) (by decide) (by decide) (by decide) htried
  rw [endOfInitialization_eq hp, he]
  obtain ⟨v, hv, -, hcas⟩ := reportedIf_other s.pins.oilHot (c := causeOilHot) (d := causeEstop) (by decide) (by decide)
    (reportedIf true causeEstop (selfTried s))
  obtain ⟨k1, k2, -⟩ := hcas.causeStands (c := causeEstop) (by decide) (by decide) (by rw [hv]; exact ha) (by rw [hv]; exact hpr)
  exact ⟨k1, k2⟩

/-- A CREW cause that the set-up leaves active stays so, with its time of raise, unless it is one of the two reported. -/
theorem endOfInitialization_crew (hp : s.phase = .initializing) {c : Nat} (h0 : causeEstop ≠ c) (h3 : causeOilHot ≠ c)
    (hcls : (s.causeSetting c).cls = .crew) (ha : ((setUp s).cause c).active = true) :
    ((endOfInitialization send s).cause c).active = true ∧
      ((endOfInitialization send s).cause c).raisedAt = ((setUp s).cause c).raisedAt := by
  have notSelf : ∀ {u : State}, u.settings = s.settings → (u.causeSetting c).cls ≠ .self := fun e => by
    unfold State.causeSetting at hcls ⊢
    rw [e, hcls]
    decide
  have hset := (setUp_keeps s).settings
  have htried := (selfTried_cascade s).settings.trans hset
  obtain ⟨a1, r1⟩ := (selfTried_cascade s).causeActive ha (notSelf hset)
  obtain ⟨v, hv, hvs, hcas⟩ := reportedIf_other s.pins.estop (by decide) h0 (selfTried s)
  obtain ⟨a2, r2⟩ := hcas.causeActive (by rw [hv]; exact a1) (notSelf (hvs.trans htried))
  have hestop := (hcas.settings.trans hvs).trans htried
  obtain ⟨w, hw, hws, hcas'⟩ := reportedIf_other s.pins.oilHot (by decide) h3 (reportedIf s.pins.estop causeEstop (selfTried s))
  obtain ⟨a3, r3⟩ := hcas'.causeActive (by rw [hw]; exact a2) (notSelf (hws.trans hestop))
  rw [endOfInitialization_eq hp]
  refine ⟨a3, r3.trans ?_⟩
  rw [hw, r2, hv, r1]

theorem contactOf_setUp (q : Siq) (k : ContactId) :
    contactOf q.setUp k =
      { closed := (contactOf q k).closed, pressed := (contactOf q k).closed, armed := !(contactOf q k).closed, debounce := none } := by
  match k with
  | .display m => cases m <;> rfl
  | .reset m => cases m <;> rfl
  | .key n =>
    show peek (q.keys.map ContactRec.setUp) n.val = ContactRec.setUp (peek q.keys n.val)
    simp [peek, n.isLt]

/-- The hold-to-run inputs keep what the set-up makes of them: a hold inhibits them, and so they are already (R95, R96). -/
theorem endOfInitialization_input (hp : s.phase = .initializing) (i : HoldInput) :
    (endOfInitialization send s).input i = (s.input i).setUp := by
  have hset : (setUp s).input i = (s.input i).setUp := by
    unfold State.input
    rw [(setUp_keeps s).siq, setUp_input]
  rcases (endOfInitialization_keeps hp).inp i with e | e
  · rw [e, hset]
  · rw [e, hset, inhibited_setUp]

theorem endOfInitialization_contact (hp : s.phase = .initializing) (k : ContactId) :
    contactOf (endOfInitialization send s).siq k = contactOf s.siq.setUp k := by
  rw [(endOfInitialization_keeps hp).siq, (setUp_keeps s).siq]
  cases k <;> rfl

theorem endOfInitialization_firstEvent (hp : s.phase = .initializing) (hq : s.seu.events = []) :
    ((endOfInitialization send s).seu.events.map Event.kind).head? = some (.resetDone s.resetCause s.sto.failed) := by
  obtain ⟨rest, hrest⟩ := (endOfInitialization_keeps hp).ev
  rw [← hrest, (setUp_keeps s).events, hq]
  rfl

/-- Settles O6: the set-up stage by stage, then the causes of ESTOP and OIL_HOT reported as cascades over it. -/
theorem endOfInitializationSetsUp : Obligations.EndOfInitializationSetsUp := by
  unfold Obligations.EndOfInitializationSetsUp
  intro s
  refine ⟨fun hp => ?_, fun hp hst => ?_⟩
  · let u := endOfInitialization send s
    have su := setUp_keeps s
    have keeps := endOfInitialization_keeps hp
    obtain ⟨kset, kslp, kphase, know, kpins⟩ := keeps.cas
    have hslp : u.slp = { s.slp with quiet := timerUnlessZero s.settings.machines.linkQuiet } := kslp.trans su.slp
    have hcause : ∀ c, (setUp s).cause c = peek (storeCauses s).fis.causes c := fun c => by unfold State.cause; rw [su.fis]
    refine ⟨beginWrite u, rfl, ?_, ?_, ?_, ?_, ?_, fun hq => ?_, fun hi => ?_, fun hi => ?_, fun he hc => ?_, fun i => ?_,
      fun k => ?_, ?_, fun m hm => ?_, fun hn hl => ?_, fun hf hcls => ?_, fun hf hcls => ?_⟩
    · rw [beginWrite_phase]; exact kphase.trans su.phase
    · rw [beginWrite_now]; exact know.trans su.now
    · rw [beginWrite_settings]; exact kset.trans su.settings
    · rw [beginWrite_slp, hslp]
    · rw [beginWrite_slp, hslp]; rfl
    · rw [beginWrite_seu]; exact endOfInitialization_firstEvent hp hq
    · rw [beginWrite_hsc]
      exact keeps.iso (by rw [su.iso, Bool.or_eq_true]; exact hi)
    · rw [beginWrite_hsc] at hi
      rw [beginWrite_fis, ← su.pins, ← kpins]
      exact (endOfInitialization_isolateWanted hp hi).symm
    · rw [beginWrite_cause]; exact endOfInitialization_estop hp he hc
    · rw [input_siq (beginWrite_siq u), endOfInitialization_input hp]
      have released : ∀ a b : Bool, patternOf a b = .released ↔ a = false ∧ b = true := by decide
      unfold HoldRec.setUp
      simp only [released]
    · rw [beginWrite_siq, endOfInitialization_contact hp, contactOf_setUp]
    · rw [beginWrite_chan, keeps.pos, su.pos]; rfl
    · rw [beginWrite_chan, keeps.pos, su.pos]
      cases m
      · exact absurd rfl hm
      · rfl
      · rfl
    · have settled : Settled u := settled_endOfInitialization hp hn hl
      have hset : u.settings = s.settings := kset.trans su.settings
      have hrode : u.sfe.rode = s.sfe.rode := keeps.rode.trans su.rode
      obtain ⟨hpump, hatt, htim, hloss, hgr, hqu⟩ := settled.supply
      refine ⟨fun m => ?_, ?_, ?_, ?_, ?_, ?_, ?_, ?_, ?_⟩
      · rw [beginWrite_chan, beginWrite_affected]
        obtain ⟨hst, hrest⟩ := settled.chan m
        refine ⟨hst.trans ?_, hrest⟩
        unfold State.firstState State.params
        rw [hset]
      · rw [beginWrite_sfe, beginWrite_chan, settled.creep, (settled.chan .w).1, hrode]
      all_goals try rw [beginWrite_hsc]
      · exact hpump
      · exact hatt
      · exact htim
      · exact hloss
      · exact hgr
      · exact hqu
      · unfold State.pinFlow
        rw [beginWrite_chan, (settled.chan .h).1, if_neg]
        rcases settled.quiet .h with e | e | e <;> rw [e] <;> decide
    · rw [beginWrite_cause]
      obtain ⟨ha, hr⟩ := storeCause_cfg s hf
      rw [← hcause] at ha hr
      obtain ⟨k1, k2⟩ := endOfInitialization_crew hp (by decide) (by decide) hcls ha
      exact ⟨k1, k2.trans hr⟩
    · rw [beginWrite_cause]
      obtain ⟨ha, hr⟩ := storeCause_rec s hf
      rw [← hcause] at ha hr
      obtain ⟨k1, k2⟩ := endOfInitialization_crew hp (by decide) (by decide) hcls ha
      exact ⟨k1, k2.trans hr⟩
  · have hid : endOfInitialization send s = s := by
      unfold endOfInitialization
      split
      · contradiction
      · rfl
      · rfl
    show finish (endOfInitialization send s) = _
    rw [hid, finish_atRest hst]

end Sys2Proof.Machine
end

section
/-! PROOFS. The pins that move a machine, and the demand of a channel at its machine's sample (R1, R10, R16, R31 to R39, R50, R62, R83,
R84). -/

namespace Sys2Proof.Machine

variable {s t u w : State} {x : Sample} {m : MachineId} {r run : RunRec}

/-! ## The pins of a consistent state -/

theorem valve_of_run (hl : (s.chan m).live = some r) (hs : (s.chan m).state = .moving ∨ (s.chan m).state = .stopping) :
    s.valve m r.dir = (s.chan m).applied ∧ s.valve m r.dir.other = 0 := by
  have hflow : (s.chan m).state.isFlowing = true := by rcases hs with h | h <;> rw [h] <;> rfl
  unfold State.valve Channel.runsIn
  rw [hl, hflow]
  refine ⟨if_pos ⟨rfl, beq_self_eq_true _⟩, if_neg ?_⟩
  rintro ⟨-, h⟩
  exact other_ne r.dir (beq_iff_eq.mp h).symm

theorem isFlowing_iff (st : ChanState) : st.isFlowing = true ↔ st = .moving ∨ st = .stopping := by cases st <;> decide

theorem isGranted_of_isFlowing {st : ChanState} (h : st.isFlowing = true) : st.isGranted = true := by
  rcases (isFlowing_iff st).mp h with h | h <;> rw [h] <;> rfl

theorem valve_open {d : Direction} (h : s.valve m d ≠ 0) :
    (s.chan m).state.isFlowing = true ∧ (s.chan m).applied ≠ 0 ∧ ∃ r, (s.chan m).live = some r ∧ r.dir = d := by
  unfold State.valve at h
  split at h
  · rename_i hc
    obtain ⟨hflow, hrun⟩ := hc
    refine ⟨hflow, h, ?_⟩
    unfold Channel.runsIn at hrun
    split at hrun
    · rename_i r hl
      exact ⟨r, hl, beq_iff_eq.mp hrun⟩
    · cases hrun
  · exact absurd rfl h

/-- A channel that holds a grant leaves ISOLATE released, and so no trip record and, in service, no ESTOP (R53, R114). -/
theorem granted_unshut (hc : Consistent s) (hg : (s.chan m).state.isGranted = true) :
    m ∈ s.hsc.grants ∧ s.hsc.isolate = false ∧ s.fis.trip = none ∧ (s.phase = .running → s.pins.estop = false) := by
  obtain ⟨⟨-, -, -, -, -, -, -, -, -, hestop⟩, -, ⟨-, -, hseat⟩, hshuts, htrip, -⟩ := hc
  have hmem := (hseat m).1.mpr hg
  have hiso : s.hsc.isolate = false := Bool.eq_false_iff.mpr fun k => by
    rw [(hshuts k).1] at hmem
    cases hmem
  refine ⟨hmem, hiso, ?_, fun hp => Bool.eq_false_iff.mpr fun k => ?_⟩
  · cases h : s.fis.trip with
    | none => rfl
    | some y => rw [htrip (by rw [h]; rfl)] at hiso; cases hiso
  · rw [hestop hp k] at hiso
    cases hiso

/-! ## What a channel carries after its sample -/

/-- The channel after a sample that leaves it its grant: its state, run and demand, with the flow shared anew (R39, R51). -/
structure SampleLeaves (s : State) (m : MachineId) (st : ChanState) (run : RunRec) (v p : Nat) (t : State) : Prop where
  state : (t.chan m).state = st
  live : (t.chan m).live = some run
  demand : (t.chan m).demand = v
  flow : (t.chan m).flow = v * (s.params m).qmax / 1000
  position : (t.chan m).position = p
  grants : t.hsc.grants = s.hsc.grants
  queue : t.hsc.queue = s.hsc.queue
  shares : SharesFlow t
  others : ∀ k, k ≠ m → t.chan k = { s.chan k with share := (t.chan k).share, applied := (t.chan k).applied }

theorem SampleLeaves.beginWrite {st : ChanState} {v p : Nat} (h : SampleLeaves s m st run v p t) :
    SampleLeaves s m st run v p (beginWrite t) := by
  obtain ⟨h1, h2, h3, h4, h5, h6, h7, h8, h9⟩ := h
  refine ⟨?_, ?_, ?_, ?_, ?_, ?_, ?_, h8.beginWrite, fun k hk => ?_⟩
  all_goals first | rw [beginWrite_chan] | rw [beginWrite_hsc]
  exacts [h1, h2, h3, h4, h5, h6, h7, h9 k hk]

theorem SampleLeaves.of_handed {v : Nat} (h : Handed m w t) (hv : (t.chan m).demand = v)
    (hf : (t.chan m).flow = v * (w.params m).qmax / 1000) (hl : (w.chan m).live = some run) (hs : w.settings = s.settings)
    (hh : w.hsc = s.hsc) (ho : ∀ k, k ≠ m → w.chan k = s.chan k) :
    SampleLeaves s m (w.chan m).state run v (w.chan m).position t := by
  obtain ⟨k1, k2, k3, k4, k5, k6, k7⟩ := h
  refine ⟨k1, k2.trans hl, hv, ?_, k3, by rw [k4, hh], by rw [k5, hh], k6, fun k hk => by rw [← ho k hk]; exact k7 k hk⟩
  rw [hf]
  unfold State.params
  rw [hs]

/-! ## The profile at a sample -/

theorem SampleCore.noHost (h : SampleCore s x u) (hn : NoHostEntries s) : NoHostEntries u := hn.of_settings h.settings

theorem SampleCore.own (h : SampleCore s x u) :
    u.chan (sampleMachine x) = { s.chan (sampleMachine x) with position := s.positionOf x } := by
  rw [h.chan, if_pos rfl]

theorem SampleCore.other (h : SampleCore s x u) {k : MachineId} (hk : k ≠ sampleMachine x) : u.chan k = s.chan k := by
  rw [h.chan, if_neg hk]

theorem SampleCore.position (h : SampleCore s x u) : (u.chan (sampleMachine x)).position = s.positionOf x := by rw [h.own]

theorem SampleCore.params (h : SampleCore s x u) (k : MachineId) : u.params k = s.params k := by
  unfold State.params
  rw [h.settings]

/-- The profile with its slow zone tried first: at distance 0 a taper is at Vcreep already (R33, R34). -/
theorem profile_eq (u : State) (m : MachineId) (r : RunRec) :
    u.profile m r =
      let q := u.params m
      let d := u.distance m r
      if q.slowZone r.dir = 0 ∨ q.slowZone r.dir ≤ d then
        (if m = .w ∧ r.dir = .inward ∧ r.target = none ∧ d = 0 then q.vcreep else q.vmax)
      else q.vcreep + (q.vmax - q.vcreep) * d / q.slowZone r.dir := by
  unfold State.profile taper
  dsimp only
  generalize u.distance m r = d
  by_cases hc : m = .w ∧ r.dir = .inward ∧ r.target = none ∧ d = 0
  · rw [if_pos hc, if_pos hc, hc.2.2.2]
    simp
  · rw [if_neg hc, if_neg hc]

/-- The capped value with the built-in entries alone (R35, R36). -/
theorem cappedValue_eq (hn : NoHostEntries u) (m : MachineId) (r : RunRec) :
    u.cappedValue m r =
      let v := if m = .p ∧ u.item Item.matOccupied = true then min 300 (u.profile m r) else u.profile m r
      if m = .w ∧ u.sfe.rodeUnknown = true then min v (u.params m).vcreep else v := by
  unfold State.cappedValue
  rw [lowestCap_builtin hn]
  by_cases hm : m = .p ∧ u.item Item.matOccupied = true
  · rw [if_pos hm, if_pos hm]
  · rw [if_neg hm, if_neg hm]

/-! ## A sample in STOPPING -/

/-- The state in which a channel takes its sample in STOPPING: one that has been STOPPING, or one whose run has just ended (R10). -/
structure StopSample (s : State) (x : Sample) (run : RunRec) (w : State) : Prop where
  result : positionSample send x s = stoppingSample send (sampleMachine x) w
  own : w.chan (sampleMachine x) = { s.chan (sampleMachine x) with
    state := .stopping, live := some run, refresh := (w.chan (sampleMachine x)).refresh, position := s.positionOf x }
  others : ∀ k, k ≠ sampleMachine x → w.chan k = s.chan k
  hsc : w.hsc = s.hsc
  settings : w.settings = s.settings
  siq : w.siq = s.siq
  fis : w.fis = s.fis
  pins : w.pins = s.pins.withSample x
  plain : ∀ q ∈ builtInItems, s.item q = s.itemNow q → w.item q = s.itemNow q

theorem withSample_itemNow (s : State) (x : Sample) : ∀ q ∈ builtInItems,
    (s.onPins fun p => p.withSample x).itemNow q = s.itemNow q := by
  cases x with
  | windlass => exact fun _ _ => rfl
  | platform a b =>
    simp only [builtInItems, List.forall_mem_cons]
    exact ⟨rfl, rfl, rfl, nofun⟩
  | hatch a b =>
    simp only [builtInItems, List.forall_mem_cons]
    exact ⟨rfl, rfl, rfl, nofun⟩

/-- A channel in STOPPING takes the sample as it is (R38). -/
theorem stopSample_stopping (h : SampleCore s x u) (hs : (s.chan (sampleMachine x)).state = .stopping)
    (hl : (s.chan (sampleMachine x)).live = some r) : StopSample s x r u := by
  refine ⟨?_, ?_, fun k hk => h.other hk, h.hsc, h.settings, h.siq, h.fis, h.pins, fun q hq e => (h.plain q hq).trans e⟩
  · have hst : (u.chan (sampleMachine x)).state = .stopping := by rw [h.own]; exact hs
    rw [h.result]
    unfold mcSample
    rw [hst]
  · rw [h.own, ← hs, ← hl]

/-- A run that ends on its sample takes the reason, and the sample is its first in STOPPING (R10, R15). -/
theorem stopSample_ends (h : SampleCore s x u) (hn : NoHostEntries s) {y : EndReason}
    (hs : (s.chan (sampleMachine x)).state = .moving) (hl : (s.chan (sampleMachine x)).live = some r)
    (hy : u.endFound (sampleMachine x) r = some y) :
    StopSample s x { r with endReason := some (r.endReason.getD y) }
      (enter send (sampleMachine x) .stopping (noteReason (sampleMachine x) y u)) := by
  generalize hm : sampleMachine x = m at *
  have hown : u.chan m = { s.chan m with position := s.positionOf x } := hm ▸ h.own
  have hlu : (u.chan m).live = some r := by rw [hown]; exact hl
  have hnoted := noteReason_eq m y u r hlu
  have hnn : NoHostEntries (noteReason m y u) := (h.noHost hn).of_settings (by rw [hnoted]; rfl)
  have k := calm_enter quiet_send hnn m .stopping
  have hchan : ∀ j, (enter send m .stopping (noteReason m y u)).chan j =
      if m = j then { u.chan m with state := .stopping, live := some { r with endReason := some (r.endReason.getD y) }, refresh := none }
      else u.chan j := fun j => by
    rw [k.chan, stateCore_chan, hnoted, setChan_chan_same, setChan_chan]
    split <;> rfl
  refine ⟨?_, ?_, fun j hj => ?_, ?_, ?_, ?_, ?_, ?_, fun q hq e => ?_⟩
  · have hst : (u.chan m).state = .moving := by rw [hown]; exact hs
    rw [h.result, hm]
    unfold mcSample movingSample
    rw [hst, hlu]
    dsimp only
    rw [hy]
  · rw [hm, hchan, if_pos rfl, hown]
  · rw [hm] at hj
    rw [hchan, if_neg hj.symm, h.other (hm ▸ hj)]
  · rw [k.hsc, stateCore_eq, hnoted]; exact h.hsc
  · rw [k.settings, stateCore_eq, hnoted]; exact h.settings
  · rw [k.siq, stateCore_eq, hnoted]; exact h.siq
  · rw [k.fis, stateCore_eq, hnoted]; exact h.fis
  · rw [k.pins, stateCore_eq, hnoted]; exact h.pins
  · have hcas : Cascade u (enter send m .stopping (noteReason m y u)) :=
      cascade_enter cascades_send m _ (cascade_noteReason m y (.refl u))
    have hnow : u.itemNow q = s.itemNow q :=
      (itemNow_builtIn (s := s.onPins fun p => p.withSample x) h.pins q hq).trans (withSample_itemNow s x q hq)
    rw [← hnow]
    exact hcas.builtIn q hq (by rw [h.plain q hq, e, hnow])

/-- A stop that needs no locking lets the channel leave for IDLE (R16, R84). -/
theorem stopComplete_leaves (go : Go) (hl : (w.chan m).live = some r)
    (h : m ≠ .h ∨ r.dir = .outward ∨ (w.params m).endBand < (w.chan m).position ∨ w.pins.pinsLk = true) :
    stopComplete go m w = leave go m .idle .now w := by
  unfold stopComplete
  rw [if_neg]
  rintro ⟨hm, hrun, hend, hpins⟩
  unfold Channel.runsIn at hrun
  rw [hl, beq_iff_eq] at hrun
  unfold State.atInEnd at hend
  rw [decide_eq_true_eq] at hend
  rcases h with h | h | h | h
  · exact h hm
  · rw [hrun] at h; cases h
  · omega
  · rw [hpins] at h; cases h

theorem stoppingSample_completes (go : Go) (h : (w.chan m).demand ≤ (w.params m).rampDown) :
    stoppingSample go m w = stopComplete go m w := by
  unfold stoppingSample
  dsimp only
  rw [if_pos (Nat.sub_eq_zero_of_le h)]

/-- A channel that leaves for IDLE with nobody waiting: its run is completed and its grant handed back, and then its station start is
tried (R16, R17, R50). -/
theorem leave_tries (hn : NoHostEntries w) (m : MachineId) (hq : w.hsc.queue.erase m = []) :
    ∃ p, Still (stateCore m .idle (dropRun m w)) p ∧ PumpReleased w.settings.hsu.runOn w.hsc p.hsc ∧ Cascade w p ∧
      leave send m .idle .now w = tryStart (deliver 63) m p := by
  have k := still_releasedAt quiet_send hn m .now fun t ht hn => still_afterRelease quiet_send hn (ht.trans hq) .now
  have h0 : NoHostEntries (handBack m w) := hn.of_settings (by rw [handBack_eq])
  obtain ⟨p, hp, hcas, heq⟩ := leave_then quiet_send m .idle .now (k.noHostEntries h0)
  refine ⟨p, ?_, (pumpReleased_releasedAt quiet_send hn m hq).same (samePump_of (by rw [hp.hsc, stateCore_eq])), hcas cascades_send, heq⟩
  rw [← stateCore_handBack m (by decide)]
  exact (still_stateCore k m (by decide)).trans hp.still

/-- With the built-in entries alone a match follows the three items of R80. -/
theorem blockMatches_of_plain (hs : NoHostEntries s) (ht : NoHostEntries t) (h : ∀ q ∈ builtInItems, t.item q = s.item q)
    (m : MachineId) (d : Direction) : t.blockMatches m d = s.blockMatches m d := by
  have e1 := h Item.ladderDown (by decide)
  have e2 := h Item.cradleHome (by decide)
  have e3 := h Item.matOccupied (by decide)
  unfold State.blockMatches
  rw [entries_builtin hs, entries_builtin ht]
  simp only [List.any_cons, List.any_nil, State.holds, e1, e2, e3]

theorem exec_sample (h : positionSample send x s = t) : exec (.positionSample x) s = .next (beginWrite t) := by rw [← h]; rfl

theorem StopSample.noHost (h : StopSample s x run w) (hn : NoHostEntries s) : NoHostEntries w := hn.of_settings h.settings

theorem StopSample.params (h : StopSample s x run w) (k : MachineId) : w.params k = s.params k := by
  unfold State.params
  rw [h.settings]

theorem StopSample.pinsLk (h : StopSample s x run w) : w.pins.pinsLk = s.pins.pinsLk := by
  rw [h.pins]
  cases x <;> rfl

theorem StopSample.pinsUl (h : StopSample s x run w) : w.pins.pinsUl = s.pins.pinsUl := by
  rw [h.pins]
  cases x <;> rfl

theorem StopSample.live (h : StopSample s x run w) : (w.chan (sampleMachine x)).live = some run := by rw [h.own]

theorem StopSample.state (h : StopSample s x run w) : (w.chan (sampleMachine x)).state = .stopping := by rw [h.own]

theorem StopSample.position (h : StopSample s x run w) : (w.chan (sampleMachine x)).position = s.positionOf x := by rw [h.own]

theorem StopSample.demand (h : StopSample s x run w) :
    (w.chan (sampleMachine x)).demand = (s.chan (sampleMachine x)).demand := by rw [h.own]

/-- The demand falls by RampDown while that leaves any (R38). -/
theorem StopSample.slows (h : StopSample s x run w) (hn : NoHostEntries s)
    (hd : (s.params (sampleMachine x)).rampDown < (s.chan (sampleMachine x)).demand) :
    SampleLeaves s (sampleMachine x) .stopping run
      ((s.chan (sampleMachine x)).demand - (s.params (sampleMachine x)).rampDown) (s.positionOf x) (positionSample send x s) := by
  obtain ⟨handed, hdemand, hflow⟩ := (stopping_spec (h.noHost hn) _ run h.state h.live).1 (by rw [h.params, h.demand]; exact hd)
  rw [h.result, ← h.state, ← h.position]
  rw [h.params, h.demand] at hdemand
  refine .of_handed handed hdemand ?_ h.live h.settings h.hsc h.others
  rw [hflow, h.params, h.demand]

/-- A hatch that stops closed with its pins not home locks them (R84). -/
theorem StopSample.locks (h : StopSample s x run w) (hn : NoHostEntries s) (hm : sampleMachine x = .h) (hr : run.dir = .inward)
    (hd : (s.chan (sampleMachine x)).demand ≤ (s.params (sampleMachine x)).rampDown)
    (he : s.positionOf x ≤ (s.params (sampleMachine x)).endBand) (hpins : s.pins.pinsLk = false) :
    SampleLeaves s (sampleMachine x) .locking run 0 (s.positionOf x) (positionSample send x s) ∧
      (positionSample send x s).sfe.pinTimer = some s.settings.machines.lockTime := by
  have hpos := h.position
  have hown := h.params (sampleMachine x)
  obtain ⟨h1, h2, h3, h4, h5, h6, h7, h8, h9, h10⟩ := ((stopping_spec (h.noHost hn) _ run h.state h.live).2 (by rw [h.params, h.demand]; exact hd)).1
    hm hr (by rw [← hm, hpos, hown]; exact he) (h.pinsLk.trans hpins)
  rw [h.result]
  refine ⟨⟨h1, h2, h3, ?_, h5.trans hpos, by rw [h6, h.hsc], by rw [h7, h.hsc], h8, fun k hk => ?_⟩, by rw [h9, h.settings]⟩
  · rw [h4, Nat.zero_mul, Nat.zero_div]
  · rw [← h.others k hk]
    exact h10 k hk

/-- The stop completes into IDLE, with the grant handed back as `leave` does (R16). -/
theorem StopSample.leaves (h : StopSample s x run w)
    (hd : (s.chan (sampleMachine x)).demand ≤ (s.params (sampleMachine x)).rampDown)
    (hlock : sampleMachine x ≠ .h ∨ run.dir = .outward ∨ (s.params (sampleMachine x)).endBand < s.positionOf x ∨ s.pins.pinsLk = true) :
    positionSample send x s = leave send (sampleMachine x) .idle .now w := by
  rw [h.result, stoppingSample_completes send (by rw [h.params, h.demand]; exact hd)]
  exact stopComplete_leaves send h.live (by rw [h.params, h.position, h.pinsLk]; exact hlock)

/-- The channel of a run that is over (R3, R17). -/
structure RunOver (s : State) (m : MachineId) (run : RunRec) (p : Nat) (t : State) : Prop where
  state : (t.chan m).state = .idle
  live : (t.chan m).live = none
  last : (t.chan m).last = some { run with endPos := some p }
  refresh : (t.chan m).refresh = none

/-- The channel once its run has been dropped and IDLE entered. -/
theorem StopSample.dropped (h : StopSample s x run w) :
    (stateCore (sampleMachine x) .idle (dropRun (sampleMachine x) w)).chan (sampleMachine x) = { s.chan (sampleMachine x) with
      state := .idle, live := none, last := some { run with endPos := some (s.positionOf x) }, refresh := none
      position := s.positionOf x, demand := 0, flow := 0, share := 0, applied := 0 } := by
  rw [stateCore_chan, if_pos rfl, dropRun_chan _ _ _ h.live, h.own]
  rfl

theorem StopSample.dropped_other (h : StopSample s x run w) {k : MachineId} (hk : k ≠ sampleMachine x) :
    (stateCore (sampleMachine x) .idle (dropRun (sampleMachine x) w)).chan k = s.chan k := by
  rw [stateCore_chan, if_neg hk.symm, dropRun_other hk, h.others k hk]

/-- With nobody waiting and no press left, the channel rests and the pump follows the release (R16, R17, R45, R46). -/
theorem StopSample.rests (h : StopSample s x run w) (hn : NoHostEntries s)
    (hleave : positionSample send x s = leave send (sampleMachine x) .idle .now w)
    (hv : s.anyValid (sampleMachine x) = false) (hq : s.hsc.queue = []) :
    let m := sampleMachine x
    let t := beginWrite (positionSample send x s)
    RunOver s m run (s.positionOf x) t ∧ t.hsc.grants = s.hsc.grants.erase m ∧ t.hsc.queue = [] ∧
      PumpReleased s.settings.hsu.runOn s.hsc t.hsc ∧
      ∀ k, k ≠ m → t.chan k = { s.chan k with share := (t.chan k).share, applied := (t.chan k).applied } := by
  intro m t
  have hqw : w.hsc.queue.erase m = [] := by rw [h.hsc, hq]; rfl
  have hvw : ChanState.idle = .idle → w.anyValid m = false := fun _ => (anyValid_siq h.siq m).trans hv
  have pump := pumpReleased_leave quiet_send (h.noHost hn) m .idle hqw hvw
  have all := (leave_still quiet_send (h.noHost hn) m (st := .idle) (by decide) hqw hvw).trans (still_beginWrite _)
  rw [← hleave] at pump all
  have hown := all.chan m
  rw [h.dropped] at hown
  refine ⟨⟨by rw [hown], by rw [hown], by rw [hown], by rw [hown]⟩, ?_, ?_, ?_, fun k hk => ?_⟩
  · rw [all.grants, stateCore_eq, dropRun_eq, h.hsc]
  · rw [all.queue, stateCore_eq, dropRun_eq]
    exact hqw
  · rw [h.settings, h.hsc] at pump
    rw [beginWrite_hsc]
    exact pump
  · rw [← h.dropped_other hk]
    exact all.chan k

/-- The slot goes to the channel that has waited longest, under the running pump (R50). -/
theorem StopSample.handsOver (h : StopSample s x run w) (hn : NoHostEntries s)
    (hleave : positionSample send x s = leave send (sampleMachine x) .idle .now w)
    (hv : s.anyValid (sampleMachine x) = false) {k : MachineId} {rest : List MachineId}
    (hq : s.hsc.queue.erase (sampleMachine x) = k :: rest) (hk : k ≠ sampleMachine x)
    (hg : (s.hsc.grants.erase (sampleMachine x)).length < 2) (hp : s.hsc.pump = .running)
    (hpin : k = .h → s.pins.pinsUl = true ∨ (s.chan .h).runsIn .outward = true ∨ s.atInEnd .h = true) :
    let m := sampleMachine x
    let t := beginWrite (positionSample send x s)
    RunOver s m run (s.positionOf x) t ∧ t.hsc.grants = s.hsc.grants.erase m ++ [k] ∧ t.hsc.queue = rest ∧ t.hsc.pump = .running ∧
      t.chan k = { s.chan k with
        state := if k = .h ∧ (s.chan .h).runsIn .outward = true ∧ s.pins.pinsUl = false then .unlocking else .moving
        demand := 0, flow := 0, share := (t.chan k).share, applied := (t.chan k).applied } ∧
      ∀ j, j ≠ m → j ≠ k → t.chan j = { s.chan j with share := (t.chan j).share, applied := (t.chan j).applied } := by
  intro m t
  have hkw : w.chan k = s.chan k := h.others k hk
  have hpinw : k = .h → w.pins.pinsUl = true ∨ (w.chan .h).runsIn .outward = true ∨ w.atInEnd .h = true := by
    rintro rfl
    unfold State.atInEnd
    rw [h.pinsUl, hkw, h.params]
    exact hpin rfl
  obtain ⟨still, pump⟩ := leave_handsOver quiet_send (h.noHost hn) m k hk (by rw [h.hsc]; exact hq) (by rw [h.hsc]; exact hg)
    (by rw [h.hsc]; exact hp) hpinw ((anyValid_siq h.siq m).trans hv)
  have all := still.trans (still_beginWrite _)
  rw [← hleave] at all pump
  have hgranted : grantedState w k =
      if k = .h ∧ (s.chan .h).runsIn .outward = true ∧ s.pins.pinsUl = false then .unlocking else .moving := by
    unfold grantedState State.needsUnlocking
    rw [h.pinsUl, hkw]
    by_cases hkh : k = .h
    · subst hkh
      cases (s.chan .h).runsIn .outward <;> cases s.pins.pinsUl <;> rfl
    · simp [hkh]
  have hstop : grantedState w k ≠ .stopping := by
    unfold grantedState
    split <;> decide
  rw [← hgranted]
  generalize grantedState w k = g at *
  generalize hy : (handBack m w).onHsc (fun y => { y with grants := y.grants ++ [k], queue := rest }) = y at all
  have ychan : ∀ j, y.chan j = (handBack m w).chan j := fun j => by rw [← hy]; rfl
  have yhsc : y.hsc.grants = s.hsc.grants.erase m ++ [k] ∧ y.hsc.queue = rest := by
    rw [← hy]
    show (handBack m w).hsc.grants ++ [k] = _ ∧ _
    rw [handBack_eq, h.hsc]
    exact ⟨rfl, rfl⟩
  have hown := all.chan m
  rw [stateCore_chan, if_pos rfl, stateCore_chan, if_neg hk, ychan, handBack_self h.live, h.own] at hown
  have hkk := all.chan k
  rw [stateCore_chan, if_neg hk.symm, stateCore_chan, if_pos rfl, ychan, handBack_other hk, hkw] at hkk
  refine ⟨⟨?_, ?_, ?_, ?_⟩, ?_, ?_, ?_, ?_, fun j hj hjk => ?_⟩
  · rw [hown]; rfl
  · rw [hown]; rfl
  · rw [hown]; rfl
  · rw [hown]; rfl
  · rw [all.grants, stateCore_eq, stateCore_eq]; exact yhsc.1
  · rw [all.queue, stateCore_eq, stateCore_eq]; exact yhsc.2
  · rw [beginWrite_hsc]; exact pump
  · rw [hkk]
    cases g <;> first | rfl | exact absurd rfl hstop
  · have hjj := all.chan j
    rwa [stateCore_chan, if_neg hj.symm, stateCore_chan, if_neg hjk.symm, ychan, handBack_other hj, h.others j hj] at hjj

/-- The state in which a press still VALID starts its run: the channel IDLE with its run over, nobody waiting. -/
structure ReadyAgain (s : State) (x : Sample) (p : State) : Prop where
  own : ∃ last refresh share applied, p.chan (sampleMachine x) = { s.chan (sampleMachine x) with
    state := .idle, live := none, last := last, refresh := refresh, position := s.positionOf x, demand := 0, flow := 0,
    share := share, applied := applied }
  grants : p.hsc.grants = s.hsc.grants.erase (sampleMachine x)
  queue : p.hsc.queue = []
  isolate : p.hsc.isolate = s.hsc.isolate
  pump : PumpReleased s.settings.hsu.runOn s.hsc p.hsc
  settings : p.settings = s.settings
  siq : p.siq = s.siq
  fis : p.fis = s.fis
  pinsUl : p.pins.pinsUl = s.pins.pinsUl
  plain : ∀ q ∈ builtInItems, s.item q = s.itemNow q → p.item q = s.item q

/-- A stop that completes with nobody waiting tries the station start of its machine (R7, R16). -/
theorem StopSample.triesStart (h : StopSample s x run w) (hn : NoHostEntries s)
    (hleave : positionSample send x s = leave send (sampleMachine x) .idle .now w) (hq : s.hsc.queue = []) :
    ∃ p, ReadyAgain s x p ∧ positionSample send x s = tryStart (deliver 63) (sampleMachine x) p := by
  have hqw : w.hsc.queue.erase (sampleMachine x) = [] := by rw [h.hsc, hq]; rfl
  obtain ⟨p, still, pump, hcas, heq⟩ := leave_tries (h.noHost hn) (sampleMachine x) hqw
  have hown := still.chan (sampleMachine x)
  rw [h.dropped] at hown
  refine ⟨p, ⟨⟨_, _, _, _, hown⟩, ?_, ?_, ?_, ?_, ?_, ?_, ?_, ?_, fun q hq e => ?_⟩, hleave.trans heq⟩
  · rw [still.grants, stateCore_eq, dropRun_eq, h.hsc]
  · rw [still.queue, stateCore_eq, dropRun_eq]
    exact hqw
  · rw [still.isolate, stateCore_eq, dropRun_eq, h.hsc]
  · rw [h.settings, h.hsc] at pump
    exact pump
  · rw [still.settings, stateCore_eq, dropRun_eq, h.settings]
  · rw [still.siq, stateCore_eq, dropRun_eq, h.siq]
  · rw [still.fis, stateCore_eq, dropRun_eq, h.fis]
  · rw [still.pins, stateCore_eq, dropRun_eq, h.pinsUl]
  · have hnow : w.itemNow q = s.itemNow q :=
      (itemNow_builtIn (s := s.onPins fun p => p.withSample x) h.pins q hq).trans (withSample_itemNow s x q hq)
    rw [hcas.builtIn q hq ((h.plain q hq e).trans hnow.symm), hnow, e]

theorem ReadyAgain.position (h : ReadyAgain s x u) : (u.chan (sampleMachine x)).position = s.positionOf x := by
  obtain ⟨_, _, _, _, hown⟩ := h.own
  rw [hown]

theorem ReadyAgain.state (h : ReadyAgain s x u) : (u.chan (sampleMachine x)).state = .idle := by
  obtain ⟨_, _, _, _, hown⟩ := h.own
  rw [hown]

theorem ReadyAgain.counter (h : ReadyAgain s x u) : (u.chan (sampleMachine x)).counter = (s.chan (sampleMachine x)).counter := by
  obtain ⟨_, _, _, _, hown⟩ := h.own
  rw [hown]

/-- With a grant left, or a run-on to run through, the pump that ran is confirmed yet (R40, R46). -/
theorem ReadyAgain.confirmed (h : ReadyAgain s x u) (hp : s.hsc.pump = .running)
    (hg : s.hsc.grants.erase (sampleMachine x) ≠ [] ∨ s.settings.hsu.runOn ≠ 0) :
    u.hsc.pump = .running ∨ u.hsc.pump = .runOn := by
  by_cases hne : u.hsc.grants = []
  · rcases hg with hg | hg
    · exact absurd (h.grants.symm.trans hne) hg
    · exact .inr (h.pump.runsOn hne hp hg).1
  · exact .inl ((h.pump.stays (.inl hne)).1.trans hp)

theorem ReadyAgain.passes (h : ReadyAgain s x u) (hn : NoHostEntries s) {d : Direction}
    (ha : s.affected (sampleMachine x) = false) (hu : s.uncalibrated (sampleMachine x) = false) (hi : s.hsc.isolate = false)
    (hb : s.blockMatches (sampleMachine x) d = false) (hplain : ∀ i, s.item (plainItem i) = s.itemNow (plainItem i)) :
    u.startCheck (sampleMachine x) d = .passes := by
  have haff : u.affected (sampleMachine x) = false := (affected_fis (by rw [h.fis]) (by rw [h.fis]) _).trans ha
  have hunc : u.uncalibrated (sampleMachine x) = false := by
    unfold State.uncalibrated State.sensorParams
    rw [h.settings]
    exact hu
  have hstands : ∀ q ∈ builtInItems, s.item q = s.itemNow q := by
    simp only [builtInItems, List.forall_mem_cons]
    exact ⟨hplain .ladder, hplain .cradle, hplain .mat, nofun⟩
  have hblock : u.blockMatches (sampleMachine x) d = false :=
    (blockMatches_of_plain hn (hn.of_settings h.settings) (fun q hq => h.plain q hq (hstands q hq)) _ d).trans hb
  rw [startCheck_idle_eq d h.state haff, hunc, h.isolate, hi, hblock]
  rfl

/-- The run that a press still VALID starts at once (R7, R83). -/
structure StartsAgain (s : State) (x : Sample) (d : Direction) (t : State) : Prop where
  state : (t.chan (sampleMachine x)).state =
    if sampleMachine x = .h ∧ d = .outward ∧ s.pins.pinsUl = false then .unlocking else .moving
  live : (t.chan (sampleMachine x)).live = some {
    id := (s.chan (sampleMachine x)).counter, origin := .station, dir := d, target := none, startPos := s.positionOf x, endReason := none, cause := none, endPos := none }
  last : (t.chan (sampleMachine x)).last = none
  counter : (t.chan (sampleMachine x)).counter = ((s.chan (sampleMachine x)).counter + 1) % 65536
  dirOut : (t.chan (sampleMachine x)).dirOut = decide (d = .outward)
  refresh : (t.chan (sampleMachine x)).refresh = none
  demand : (t.chan (sampleMachine x)).demand = 0
  position : (t.chan (sampleMachine x)).position = s.positionOf x
  grants : t.hsc.grants = s.hsc.grants.erase (sampleMachine x) ++ [sampleMachine x]
  queue : t.hsc.queue = []
  pump : t.hsc.pump = .running

theorem ReadyAgain.starts (h : ReadyAgain s x u) (hn : NoHostEntries s) {d : Direction}
    (hg : (s.hsc.grants.erase (sampleMachine x)).length < 2) (hconf : u.hsc.pump = .running ∨ u.hsc.pump = .runOn)
    (hcreep : sampleMachine x = .w → (s.cause causeCreep).active = false)
    (hpin : sampleMachine x = .h → s.pins.pinsUl = true ∨ d = .outward ∨ s.positionOf x ≤ (s.params (sampleMachine x)).endBand) :
    StartsAgain s x d (beginWrite (createRun (deliver 63) (sampleMachine x) .station d none u)) := by
  have hcause : sampleMachine x = .w → (u.cause causeCreep).active = false := fun hm => by
    unfold State.cause
    rw [h.fis]
    exact hcreep hm
  have hoff : u.hsc.pump = .off → u.hsc.grants = [] := fun k => by rcases hconf with e | e <;> (rw [e] at k; cases k)
  have hpinu : sampleMachine x = .h → u.pins.pinsUl = true ∨ d = .outward ∨ u.atInEnd .h = true := fun hm => by
    unfold State.atInEnd State.params
    rw [h.pinsUl, h.settings, ← hm, h.position, decide_eq_true_iff]
    exact hpin hm
  obtain ⟨v, hv, live, last, counter, dirOut, refresh, position, demand, granted, -⟩ :=
    createRun_spec (quiet_deliver 62) (hn.of_settings h.settings) (sampleMachine x) .station d none hcause hoff hpinu
  obtain ⟨grants, queue, -, -, -, confirmed⟩ := granted (by rw [h.grants]; exact hg)
  obtain ⟨state, pump⟩ := confirmed hconf
  rw [hv]
  refine ⟨?_, ?_, ?_, ?_, ?_, ?_, ?_, ?_, ?_, ?_, ?_⟩
  all_goals first | rw [beginWrite_chan] | rw [beginWrite_hsc]
  · rw [state, h.pinsUl]
  · rw [live, newRun, h.counter, h.position]
  · exact last
  · rw [counter, h.counter]
  · exact dirOut
  · exact refresh
  · exact demand
  · rw [position, h.position]
  · rw [grants, h.grants]
  · rw [queue, h.queue]
  · exact pump

/-! ## A sample in MOVING that goes on -/

/-- A run that goes on follows the ramp to the capped profile (R37, R39). -/
theorem SampleCore.ramps (h : SampleCore s x u) (hn : NoHostEntries s) (hs : (s.chan (sampleMachine x)).state = .moving)
    (hl : (s.chan (sampleMachine x)).live = some r) (hy : u.endFound (sampleMachine x) r = none) :
    SampleLeaves s (sampleMachine x) .moving r (rampedDemand (s.chan (sampleMachine x)).demand (s.params (sampleMachine x)).rampUp
      (u.cappedValue (sampleMachine x) r)) (s.positionOf x) (positionSample send x s) := by
  have hst : (u.chan (sampleMachine x)).state = .moving := by rw [h.own]; exact hs
  have hlu : (u.chan (sampleMachine x)).live = some r := by rw [h.own]; exact hl
  have hdemand : (u.chan (sampleMachine x)).demand = (s.chan (sampleMachine x)).demand := by rw [h.own]
  have hstep : positionSample send x s = handDemand send (sampleMachine x) (rampedDemand (s.chan (sampleMachine x)).demand
      (s.params (sampleMachine x)).rampUp (u.cappedValue (sampleMachine x) r)) u := by
    rw [h.result]
    unfold mcSample movingSample
    rw [hst, hlu]
    dsimp only
    rw [hy, hdemand, h.params]
  obtain ⟨handed, hd, hf⟩ := handDemand_spec (h.noHost hn) (sampleMachine x) (rampedDemand (s.chan (sampleMachine x)).demand
    (s.params (sampleMachine x)).rampUp (u.cappedValue (sampleMachine x) r)) (by rw [hst]; rfl)
  rw [hstep, ← hst, ← h.position]
  exact .of_handed handed hd hf hlu h.settings h.hsc fun k hk => h.other hk

/-! ## The statement -/

/-- The pins of a consistent state (R1, R52, R53, R62, R81). -/
theorem pins_follow (hc : Consistent s) :
    (∀ m, let c := s.chan m
      (∀ r, c.live = some r → c.state = .moving ∨ c.state = .stopping → s.valve m r.dir = c.applied ∧ s.valve m r.dir.other = 0) ∧
      (c.state ≠ .moving → c.state ≠ .stopping → ∀ d, s.valve m d = 0) ∧
      (∀ d, s.valve m d ≠ 0 → m ∈ s.hsc.grants ∧ c.flow ≠ 0 ∧ c.share ≤ c.flow ∧ s.hsc.isolate = false ∧ s.fis.trip = none ∧
        (s.phase = .running → s.pins.estop = false) ∧ ∃ r, c.live = some r ∧ r.dir = d)) ∧
    (s.brakeReleased = true ↔ (s.chan .w).state = .moving ∨ (s.chan .w).state = .stopping) ∧
    (s.pinUnlock = true ↔ (s.chan .h).state = .unlocking) ∧ (s.pinLock = true ↔ (s.chan .h).state = .locking) ∧
    (s.brakeReleased = true → .w ∈ s.hsc.grants ∧ s.hsc.isolate = false) ∧
    (s.pinUnlock = true ∨ s.pinLock = true → .h ∈ s.hsc.grants ∧ s.hsc.isolate = false) := by
  have hunlock : s.pinUnlock = true ↔ (s.chan .h).state = .unlocking := beq_iff_eq
  have hlock : s.pinLock = true ↔ (s.chan .h).state = .locking := beq_iff_eq
  have free : ∀ m, (s.chan m).state.isGranted = true → m ∈ s.hsc.grants ∧ s.hsc.isolate = false := fun m hg => by
    obtain ⟨hmem, hiso, -⟩ := granted_unshut hc hg
    exact ⟨hmem, hiso⟩
  refine ⟨fun m => ⟨fun r => valve_of_run, fun h1 h2 d => ?_, fun d hv => ?_⟩, isFlowing_iff _, hunlock, hlock,
    fun h => free .w (isGranted_of_isFlowing h), fun h => free .h ?_⟩
  · by_contra hv
    obtain ⟨hflow, -⟩ := valve_open hv
    rcases (isFlowing_iff _).mp hflow with k | k
    · exact h1 k
    · exact h2 k
  · obtain ⟨hflow, happ, hrun⟩ := valve_open hv
    obtain ⟨hmem, hiso, htrip, hestop⟩ := granted_unshut hc (isGranted_of_isFlowing hflow)
    obtain ⟨-, hshare, hdry⟩ := hc.1.1 m
    exact ⟨hmem, fun h0 => happ (hdry h0), hshare, hiso, htrip, hestop, hrun⟩
  · rw [hunlock, hlock] at h
    rcases h with h | h <;> rw [h] <;> rfl

/-- Settles O48: the pins from the invariants; a sample by the one function that the channel's state and the run's end name, and a
completed stop by what its release lets follow. -/
theorem samplesSetTheDemand : Obligations.SamplesSetTheDemand := by
  unfold Obligations.SamplesSetTheDemand
  refine ⟨fun s => pins_follow, ?_⟩
  intro s x r hp hrest hn hx m c q p hl stop d slow limit target profile mat capped ending record after
  obtain ⟨u, hu⟩ := sample_core hp hn hx
  have hpos : (u.chan m).position = p := hu.position
  have hd : u.distance m r = d := by
    unfold State.distance State.stopPoint State.positionTop
    rw [hpos, hu.settings]
    rfl
  have hq : u.params m = q := hu.params m
  have hlimit : u.atLimit m r.dir = limit := by
    unfold State.atLimit State.atInEnd State.atOutEnd
    rw [hu.home]
    cases x <;> cases hdir : r.dir <;> (simp only [limit, hdir]; rw [← hpos, ← hu.settings, ← hq]; rfl)
  have hcapped : u.cappedValue m r = capped := by
    rw [cappedValue_eq (hu.noHost hn), profile_eq, hd, hu.params, hu.mat, hu.unknown]
    cases hdir : r.dir <;> simp only [capped, mat, profile, slow, hdir] <;> rfl
  have hfound : u.endFound m r = if limit = true then some .limitReached else if target = true then some .targetReached else none := by
    unfold State.endFound
    rw [hlimit, hd, hu.params]
    simp only [target, Bool.and_eq_true, decide_eq_true_eq]
    rfl
  have leaves : ∀ {st : ChanState} {run : RunRec} {v : Nat}, SampleLeaves s m st run v p (positionSample send x s) → after st run v :=
    fun h => by
      obtain ⟨h1, h2, h3, h4, h5, h6, h7, h8, h9⟩ := h.beginWrite
      exact ⟨_, exec_sample rfl, h1, h2, h3, h4, h5, h6, h7, h8, h9⟩
  refine ⟨fun hs hno => ?_, fun hs hend => ?_⟩
  · have hnone : u.endFound m r = none := by
      rw [hfound, if_neg fun k => hno (.inr (.inl k)), if_neg fun k => hno (.inr (.inr k))]
    have h := hu.ramps hn hs hl hnone
    rw [hcapped] at h
    exact leaves h
  · have hstops : ∃ w, StopSample s x record w := by
      by_cases hst : c.state = .stopping
      · have hrec : record = r := if_pos hst
        rw [hrec]
        exact ⟨u, stopSample_stopping hu hst hl⟩
      · have hrec : record = { r with endReason := some (r.endReason.getD (if limit = true then .limitReached else .targetReached)) } :=
          if_neg hst
        have hy : u.endFound m r = some (if limit = true then .limitReached else .targetReached) := by
          rw [hfound]
          by_cases hlim : limit = true
          · rw [if_pos hlim, if_pos hlim]
          · rw [if_neg hlim, if_neg hlim, if_pos ((hend.resolve_left hst).resolve_left hlim)]
        rw [hrec]
        exact ⟨_, stopSample_ends hu hn (hs.resolve_right hst) hl hy⟩
    obtain ⟨w, hw⟩ := hstops
    have hdir : record.dir = r.dir := by
      show (if c.state = .stopping then r else _).dir = r.dir
      split <;> rfl
    refine ⟨fun hlt => leaves (hw.slows hn hlt), fun hle => ⟨fun hm hr he hpins => ?_, fun hlock hv hq => ?_,
      fun k rest hlock hv hq hk hg hpump hpin => ?_,
      fun e hlock hq hv ho ha hunc hi hb hplain hg hpump hleft hcreep hpin => ?_⟩⟩
    · obtain ⟨h, htimer⟩ := hw.locks hn hm (hdir.trans hr) hle he hpins
      refine ⟨leaves h, fun t ht => ?_⟩
      rw [exec_sample rfl] at ht
      injection ht with ht
      rw [← ht, beginWrite_sfe]
      exact htimer
    · obtain ⟨⟨h1, h2, h3, h4⟩, h5⟩ := hw.rests hn (hw.leaves hle (by rw [hdir]; exact hlock)) hv hq
      exact ⟨_, exec_sample rfl, h1, h2, h3, h4, h5⟩
    · obtain ⟨⟨h1, h2, h3, h4⟩, h5⟩ := hw.handsOver hn (hw.leaves hle (by rw [hdir]; exact hlock)) hv hq hk hg hpump hpin
      exact ⟨_, exec_sample rfl, h1, h2, h3, h4, h5⟩
    · obtain ⟨y, hready, hstep⟩ := hw.triesStart hn (hw.leaves hle (by rw [hdir]; exact hlock)) hq
      have hvalid : ∀ d, y.inputState m d = s.inputState m d := fun d => by
        unfold State.inputState
        rw [input_siq hready.siq]
      rw [tryStart_lone _ hready.state ((hvalid e).trans hv) (by rw [hvalid]; exact ho),
        if_pos (hready.passes hn ha hunc hi hb hplain)] at hstep
      obtain ⟨h1, h2, h3, h4, h5, h6, h7, h8, h9, h10, h11⟩ :=
        hready.starts hn (d := e) hg (hready.confirmed hpump hleft) hcreep hpin
      exact ⟨_, exec_sample hstep, h1, h2, h3, h4, h5, h6, h7, h8, h9, h10, h11⟩

end Sys2Proof.Machine
end

section
/-! PROOFS. CALIBRATE (O29). -/

namespace Sys2Proof.Machine

/-! ## The state with a new calibration -/

theorem setSensorParams_sensorParams {m : MachineId} (hm : m ≠ .w) (p : SensorParams) (s : State) :
    (setSensorParams m p s).sensorParams m = p := by
  cases m
  · exact absurd rfl hm
  · rfl
  · rfl

/-- The calibration of one machine touches no setting outside the machine settings, and none of the other machine's there. -/
theorem setSensorParams_frame (m : MachineId) (p : SensorParams) (s : State) :
    let x := (setSensorParams m p s).settings
    x = { s.settings with machines := x.machines } ∧ x.machines.common = s.settings.machines.common ∧
      (m = .p → x.machines.hatch = s.settings.machines.hatch) ∧ (m = .h → x.machines.platform = s.settings.machines.platform) := by
  cases m
  · exact ⟨rfl, rfl, nofun, nofun⟩
  · exact ⟨rfl, rfl, fun _ => rfl, nofun⟩
  · exact ⟨rfl, rfl, nofun, fun _ => rfl⟩

theorem missing_iff (c : Calibration) : c.missing = true ↔ c.c0 = c.c1 := beq_iff_eq

theorem uncalibrated_false_of {s : State} {m : MachineId} (ha : (s.sensorParams m).calA.missing = false)
    (hb : (s.sensorParams m).calB.missing = false) : s.uncalibrated m = false := by
  unfold State.uncalibrated
  rw [ha, hb]
  cases m <;> rfl

/-- The state that takes the new calibration, before UNCALIBRATED follows it (R79). -/
def withCalibration (m : MachineId) (p : SensorParams) (s : State) : State :=
  setSensors m { s.sensors m with disagree := 0 } (setSensorParams m p s)

/-- What follows a new calibration is a cascade: the change of UNCALIBRATED, and the start that R7 then tries. -/
theorem cascade_applyCalibration {go : Go} (hgo : Cascades go) (m : MachineId) (p : SensorParams) (s : State) :
    Cascade (withCalibration m p s) (applyCalibration go m p s) :=
  have published := cascade_publish hgo (Item.uncalibrated m) (.refl (withCalibration m p s))
  cascade_when published fun k => hgo.step k (.tryStart m)

/-- A new calibration replaces the machine's own parameters and its disagreement count, and moves nothing. -/
theorem applyCalibration_spec {go : Go} (hgo : Cascades go) {m : MachineId} (hm : m ≠ .w) (p : SensorParams) (s : State) :
    let u := applyCalibration go m p s
    u.settings = (setSensorParams m p s).settings ∧ u.sensorParams m = p ∧ u.sensors m = { s.sensors m with disagree := 0 } ∧
      (∀ k, (u.chan k).position = (s.chan k).position) ∧ u.pins = s.pins := by
  have casc := cascade_applyCalibration hgo m p s
  have settings : (applyCalibration go m p s).settings = (setSensorParams m p s).settings :=
    casc.settings.trans (setSensors_settings m _ _)
  refine ⟨settings, ?_, ?_, fun k => ?_, ?_⟩
  · unfold State.sensorParams
    rw [settings]
    exact setSensorParams_sensorParams hm p s
  · rw [casc.sensors, withCalibration, setSensors_sensors hm, if_pos (.inl rfl)]
  · rw [casc.position, withCalibration, setSensors_chan]
    rfl
  · rw [casc.pins, withCalibration, (setSensors_rest m _ _).1]
    rfl

/-! ## The request -/

theorem endpointNamed_none {e : Half} (h0 : e ≠ 0) (h1 : e ≠ 1000) : endpointNamed e = none := by
  unfold endpointNamed
  rw [if_neg h0, if_neg h1]

theorem endpointNamed_some {e : Half} (h : e = 0 ∨ e = 1000) : endpointNamed e = some (decide (e = 0)) := by
  rcases h with rfl | rfl <;> rfl

theorem captured_eq (c : Calibration) (e : Half) (n : Nat) :
    c.captured (decide (e = 0)) n = if e = 0 then { c with c0 := n } else { c with c1 := n } := by
  unfold Calibration.captured
  by_cases h : e = 0 <;> simp [h]

theorem serveCalibrate_unnamed (go : Go) {b : Byte} {e : Half} (s : State)
    (h : machineNamed b = none ∨ machineNamed b = some .w ∨ endpointNamed e = none) :
    serveCalibrate go b e s = refuse .refusedValue s := by
  unfold serveCalibrate
  split
  · rename_i hm he
    rw [hm, he] at h
    simp at h
  · rename_i hm he
    rw [hm, he] at h
    simp at h
  · rfl

theorem serveCalibrate_named (go : Go) {b : Byte} {m : MachineId} {e : Half} (hm : machineNamed b = some m) (hw : m ≠ .w)
    (he : e = 0 ∨ e = 1000) (s : State) : serveCalibrate go b e s = calibrateMachine go m (decide (e = 0)) s := by
  unfold serveCalibrate
  rw [hm, endpointNamed_some he]
  cases m
  · exact absurd rfl hw
  · rfl
  · rfl

/-- Settles O29: the state that takes the calibration is known, and all that follows it is a cascade. -/
theorem calibrateCapturesTheLastCounts : Obligations.CalibrateCapturesTheLastCounts := by
  intro s b e h
  refine ⟨fun hbad => ?_, fun m hm hw he => ?_⟩
  · refine exec_refused (x := .refusedValue) h (serveCalibrate_unnamed send (heard s) ?_) rfl
    exact hbad.imp id (Or.imp id fun hx => endpointNamed_none hx.1 hx.2)
  · intro x p a c st
    have served : serveRequest send (.calibrate b e) (heard s) = calibrateMachine send m (decide (e = 0)) (heard s) :=
      serveCalibrate_named send hm hw he _
    unfold calibrateMachine at served
    simp only [sensorParams_heard, heard_sensors, captured_eq] at served
    refine ⟨fun hst => exec_refused (x := .refusedState) h (served.trans (if_pos hst)) rfl, fun hrun hdis => ?_⟩
    rw [if_neg (by rintro (k | k); exacts [Bool.false_ne_true (hrun.symm.trans k), hdis k])] at served
    refine ⟨fun hsame => ?_, fun ha hc => ?_⟩
    · refine exec_refused (x := .refusedValue) h (served.trans (if_pos ?_)) rfl
      rw [Bool.or_eq_true, missing_iff, missing_iff]
      exact hsame
    · have hcalA : a.missing = false := Bool.eq_false_iff.mpr fun k => ha ((missing_iff a).mp k)
      have hcalB : c.missing = false := Bool.eq_false_iff.mpr fun k => hc ((missing_iff c).mp k)
      have hmissing : ¬ (a.missing || c.missing) = true := by rw [hcalA, hcalB]; decide
      obtain ⟨settings, params, sensors, position, pins⟩ :=
        applyCalibration_spec cascades_send hw { p with calA := a, calB := c } (heard s)
      obtain ⟨others, common, hatch, platform⟩ := setSensorParams_frame m { p with calA := a, calB := c } (heard s)
      rw [← settings, heard_settings] at others common hatch platform
      refine ⟨_, exec_served h (served.trans (if_neg hmissing)) rfl, params, ?_, ?_, others, common, hatch, platform,
        fun k => (position k).trans (heard_position s k), pins.trans (heard_pins s)⟩
      · exact uncalibrated_false_of (by rw [params]; exact hcalA) (by rw [params]; exact hcalB)
      · rw [sensors, heard_sensors]

end Sys2Proof.Machine
end

section
/-! PROOFS. The position that a sample forms, and its two sensor checks (O47). -/

namespace Sys2Proof.Machine

variable {s t : State} {x : Sample} {m : MachineId} {a b : Nat}

/-! ## What every sample keeps -/

/-- What a sample leaves whatever follows from it: the counts stand at the converters, and no other machine's position moves. -/
structure SampleKeeps (s : State) (x : Sample) (t : State) : Prop where
  pins : t.pins = s.pins.withSample x
  settings : t.settings = s.settings
  slp : t.slp = s.slp
  rode : t.sfe.rode = s.sfe.rode
  rodeUnknown : t.sfe.rodeUnknown = s.sfe.rodeUnknown
  position : ∀ k, k ≠ sampleMachine x → (t.chan k).position = (s.chan k).position

/-- The sample `x` brings the two counts of the machine `m`, the platform or the hatch. -/
def Brings (x : Sample) (m : MachineId) (a b : BitVec 12) : Prop :=
  (m = .p ∧ x = .platform a b) ∨ (m = .h ∧ x = .hatch a b)

theorem Brings.machine {a b : BitVec 12} (h : Brings x m a b) : sampleMachine x = m ∧ m ≠ .w := by
  rcases h with ⟨rfl, rfl⟩ | ⟨rfl, rfl⟩ <;> exact ⟨rfl, by decide⟩

theorem positionSample_windlass (go : Go) (hp : s.phase = .running) : positionSample go .windlass s = windlassSample go s := if_pos hp

theorem positionSample_brings (go : Go) {a b : BitVec 12} (hp : s.phase = .running) (h : Brings x m a b) :
    positionSample go x s = sensorSample go m a.toNat b.toNat (s.onPins fun p => p.withSample x) := by
  rcases h with ⟨rfl, rfl⟩ | ⟨rfl, rfl⟩ <;> exact if_pos hp

/-- What follows the rode count at a windlass sample is a cascade. -/
theorem cascade_windlassSample (s : State) : Cascade (takeRode s) (windlassSample send s) :=
  cascade_mcSample cascades_send .w (cascade_refreshDisplay .w (.refl _))

theorem takeRode_position (s : State) (k : MachineId) :
    ((takeRode s).chan k).position = if k = .w then s.sfe.rode else (s.chan k).position := by cases k <;> rfl

theorem sampled_brings {a b : BitVec 12} (hp : s.phase = .running) (h : Brings x m a b) :
    SensorSampled m a.toNat b.toNat (s.onPins fun p => p.withSample x) (positionSample send x s) := by
  rw [positionSample_brings send hp h]
  exact sampled_sensor h.machine.2 _ _ _

theorem sampleKeeps_positionSample (hp : s.phase = .running) : SampleKeeps s x (positionSample send x s) := by
  have sensor : ∀ m a b, Brings x m a b → SampleKeeps s x (positionSample send x s) := fun m a b h =>
    have k := sampled_brings hp h
    ⟨k.pins, k.settings, k.slp, k.rode, k.rodeUnknown, fun j hj => by rw [k.position, if_neg (h.machine.1 ▸ hj)]; rfl⟩
  cases x with
  | windlass =>
    have k := cascade_windlassSample s
    rw [positionSample_windlass send hp]
    exact ⟨k.pins, k.settings, k.slp, k.rode, k.rodeUnknown, fun j hj => by
      rw [k.position, takeRode_position]; exact if_neg hj⟩
  | platform a b => exact sensor .p a b (.inl ⟨rfl, rfl⟩)
  | hatch a b => exact sensor .h a b (.inr ⟨rfl, rfl⟩)

/-! ## The sensors after the checks -/

theorem checkedSensors_counts (m : MachineId) (a b : Nat) (s : State) :
    (checkedSensors m a b s).countA = a ∧ (checkedSensors m a b s).countB = b ∧
      (checkedSensors m a b s).rawA = (s.sensorParams m).calA.raw a ∧ (checkedSensors m a b s).rawB = (s.sensorParams m).calB.raw b := by
  unfold checkedSensors SensorRec.afterCheck
  dsimp only
  split <;> exact ⟨rfl, rfl, rfl, rfl⟩

theorem checkedSensors_eq (m : MachineId) (a b : Nat) (s : State) : checkedSensors m a b s =
    { (s.sampled m a b).afterCheck (s.sensorParams m).tol (s.sensorParams m).disagreeCount with
      overtravel := (s.sampled m a b).overtravels } := rfl

theorem checkedSensors_agreeing (h : (s.sampled m a b).disagrees (s.sensorParams m).tol = false) :
    (checkedSensors m a b s).disagree = 0 ∧ (checkedSensors m a b s).sensorBad = false := by
  have checked : (s.sampled m a b).afterCheck (s.sensorParams m).tol (s.sensorParams m).disagreeCount = _ :=
    if_neg (Bool.eq_false_iff.mp h)
  rw [checkedSensors_eq, checked]
  exact ⟨rfl, rfl⟩

theorem checkedSensors_disagreeing (h : (s.sampled m a b).disagrees (s.sensorParams m).tol = true) :
    (checkedSensors m a b s).disagree = min ((s.sensors m).disagree + 1) (s.sensorParams m).disagreeCount ∧
      (checkedSensors m a b s).sensorBad = ((s.sensors m).sensorBad ||
        decide ((checkedSensors m a b s).disagree = (s.sensorParams m).disagreeCount)) := by
  have checked : (s.sampled m a b).afterCheck (s.sensorParams m).tol (s.sensorParams m).disagreeCount = _ := if_pos h
  rw [checkedSensors_eq, checked]
  exact ⟨rfl, rfl⟩

/-! ## A sample on which nothing is reported -/

theorem mcSample_idle (go : Go) (h1 : (s.chan m).state ≠ .moving) (h2 : (s.chan m).state ≠ .stopping) : mcSample go m s = s := by
  unfold mcSample
  split
  · contradiction
  · contradiction
  all_goals rfl

/-- A sample that reports nothing, of a machine that no demand moves: position, items, display and sensors, and nothing else. -/
theorem sensorSample_quiet (hm : m ≠ .w) (hn : NoHostEntries s) (ha : s.agrees m a b) (h1 : (s.chan m).state ≠ .moving)
    (h2 : (s.chan m).state ≠ .stopping) :
    sensorSample send m a b s = setSensors m (checkedSensors m a b s) (formed m a b s) := by
  have hf := formed_eq (m := m) (a := a) (b := b) hn
  have state : ((setSensors m (checkedSensors m a b s) (formed m a b s)).chan m).state = (s.chan m).state := by
    rw [setSensors_chan, hf, takeCounts_eq]
    show ((s.mc.set m _).get m).state = _
    rw [Three.get_set_same]
  obtain ⟨sampled, -⟩ := quiet_sample hm ha send
    (by show (formed m a b s).sensors m = _; rw [hf]; exact takeCounts_sensors hm _ _ _)
    (by show (formed m a b s).settings = _; rw [hf, takeCounts_eq])
  exact sampled.trans (mcSample_idle send (fun k => h1 (state.symm.trans k)) fun k => h2 (state.symm.trans k))

/-- A state that has taken counts, with the sensors set, differs in position, sensors, items and display alone. -/
theorem setSensors_takeCounts (z : SensorRec) {f : State} (hf : f = { takeCounts m a b s with seu := f.seu, ind := f.ind }) :
    let t := setSensors m z f
    t = { s with
      mc := s.mc.set m { s.chan m with position := meanPosition (s.sampled m a b).rawA (s.sampled m a b).rawB }
      sfe := { s.sfe with platform := t.sfe.platform, hatch := t.sfe.hatch }, seu := t.seu, ind := t.ind } := by
  generalize f.seu = u, f.ind = i at hf
  subst hf
  cases m <;> rfl

/-- The position items after the position has been formed (R76, R87). -/
theorem formed_items (hm : m ≠ .w) (hn : NoHostEntries s) :
    let p := meanPosition (s.sampled m a b).rawA (s.sampled m a b).rawB
    let t := formed m a b s
    t.item (Item.atIn m) = (!s.uncalibrated m && decide (p ≤ (s.params m).endBand)) ∧
      t.item (Item.atOut m) = (!s.uncalibrated m && decide (1000 ≤ p + (s.params m).endBand)) ∧
      (m = .h → t.item Item.unsecured =
        (t.item (Item.atIn .h) && !s.pins.pinsLk && decide ((s.chan .h).state = .idle))) := by
  intro p t
  have items (q : ItemRef) : t.item q = (publishAll send (positionItems m) (takeCounts m a b s)).item q :=
    item_of_seu (by rw [show t = refreshDisplay m _ from rfl, (displayOnly_refresh m _).1]) q
  obtain ⟨hin, hout, hunsecured⟩ := items_position hm (v := takeCounts m a b s) (hn.of_settings (by rw [takeCounts_eq]))
  have position : ((takeCounts m a b s).chan m).position = p := by
    rw [takeCounts_eq]
    show ((s.mc.set m _).get m).position = _
    rw [Three.get_set_same]
  have uncalibrated : (takeCounts m a b s).uncalibrated m = s.uncalibrated m := by rw [takeCounts_eq]; rfl
  have params : (takeCounts m a b s).params m = s.params m := by rw [takeCounts_eq]; rfl
  have atIn : (takeCounts m a b s).atInItem m = (!s.uncalibrated m && decide (p ≤ (s.params m).endBand)) := by
    rw [State.atInItem, State.atInEnd, uncalibrated, position, params]
  have atOut : (takeCounts m a b s).atOutItem m = (!s.uncalibrated m && decide (1000 ≤ p + (s.params m).endBand)) := by
    rw [State.atOutItem, State.atOutEnd, uncalibrated, position, params]
  refine ⟨(items _).trans (hin.trans atIn), (items _).trans (hout.trans atOut), ?_⟩
  rintro rfl
  rw [items, items, hunsecured rfl, hin, beq_eq_decide]
  rfl

/-! ## The position sample -/

/-- Outside service a sample is a change of the converter counts (log entry 20). -/
theorem exec_sample_outside (hp : s.phase ≠ .running) : exec (.positionSample x) s = .next { s with pins := s.pins.withSample x } := by
  show finish (positionSample send x s) = _
  rw [show positionSample send x s = { s with pins := s.pins.withSample x } from if_neg hp]
  exact finish_atRest fun k => absurd k hp

/-- The exact effect of a platform or hatch sample that reports nothing, of a machine that no demand moves (R24, R76, R87). -/
theorem positionSample_quiet {a b : BitVec 12} (hp : s.phase = .running) (hrest : StoreAtRest s) (hb : Brings x m a b)
    (hn : NoHostEntries s) (ha : s.agrees m a.toNat b.toNat) (h1 : (s.chan m).state ≠ .moving) (h2 : (s.chan m).state ≠ .stopping) :
    let p := meanPosition (s.sampled m a.toNat b.toNat).rawA (s.sampled m a.toNat b.toNat).rawB
    let t := beginWrite (positionSample send x s)
    t = { s with
        pins := t.pins, mc := s.mc.set m { s.chan m with position := p }
        sfe := { s.sfe with platform := t.sfe.platform, hatch := t.sfe.hatch }, seu := t.seu, ind := t.ind } ∧
      t.item (Item.atIn m) = (!s.uncalibrated m && decide (p ≤ (s.params m).endBand)) ∧
      t.item (Item.atOut m) = (!s.uncalibrated m && decide (1000 ≤ p + (s.params m).endBand)) ∧
      (m = .h → t.item Item.unsecured =
        (t.item (Item.atIn .h) && !s.pins.pinsLk && decide ((s.chan .h).state = .idle))) := by
  have sampled : positionSample send x s = _ :=
    (positionSample_brings send hp hb).trans (sensorSample_quiet (s := s.onPins fun p => p.withSample x) hb.machine.2 hn ha h1 h2)
  have frame := setSensors_takeCounts (s := s.onPins fun p => p.withSample x) (m := m) (a := a.toNat) (b := b.toNat)
    (checkedSensors m a.toNat b.toNat (s.onPins fun p => p.withSample x)) (formed_eq hn)
  have items := formed_items (s := s.onPins fun p => p.withSample x) (a := a.toNat) (b := b.toNat) hb.machine.2 hn
  have seu : (positionSample send x s).seu = (formed m a.toNat b.toNat (s.onPins fun p => p.withSample x)).seu := by
    rw [sampled, setSensors_frame]
  dsimp only at frame
  rw [← sampled] at frame
  generalize positionSample send x s = u at *
  have atRest : StoreAtRest u := by rw [frame]; exact hrest
  rw [beginWrite_atRest atRest]
  have pins : u.pins = s.pins.withSample x := congrArg State.pins frame
  have lock : (s.pins.withSample x).pinsLk = s.pins.pinsLk := by cases x <;> rfl
  obtain ⟨hin, hout, hunsecured⟩ := items
  refine ⟨by rw [pins]; exact frame, (item_of_seu seu _).trans hin, (item_of_seu seu _).trans hout, fun hm => ?_⟩
  rw [item_of_seu seu, item_of_seu seu, hunsecured hm, ← lock]
  rfl

theorem SampleKeeps.beginWrite (h : SampleKeeps s x t) : SampleKeeps s x (beginWrite t) := by
  rw [beginWrite_eq]
  exact { h with }

theorem SensorSampled.beginWrite (h : SensorSampled m a b s t) : SensorSampled m a b s (beginWrite t) := by
  rw [beginWrite_eq]
  exact { h with }

/-- Settles O47: `SensorSampled` says what the sample leaves whatever follows from it, `positionSample_quiet` the exact state where
nothing does. -/
theorem positionSampleFormsThePosition : Obligations.PositionSampleFormsThePosition := by
  intro s x
  refine ⟨exec_sample_outside, fun hp hrest => ?_⟩
  have keeps := (sampleKeeps_positionSample (x := x) hp).beginWrite
  refine ⟨_, exec_sample rfl, keeps.pins, keeps.settings, keeps.slp, keeps.rode, keeps.rodeUnknown, keeps.position, ?_, ?_⟩
  · rintro rfl
    have casc := cascade_windlassSample s
    rw [positionSample_windlass send hp, beginWrite_chan, beginWrite_sfe, casc.position, takeRode_position]
    exact ⟨rfl, casc.platform, casc.hatch⟩
  · intro m a b hb q raw clamped ra rb apart y z
    have left := (sampled_brings hp hb).beginWrite
    have sensors : y = checkedSensors m a.toNat b.toNat s := left.sensors
    obtain ⟨countA, countB, rawA, rawB⟩ := checkedSensors_counts m a.toNat b.toNat s
    have hra : (s.sampled m a.toNat b.toNat).rawA = ra := raw_eq _ _
    have hrb : (s.sampled m a.toNat b.toNat).rawB = rb := raw_eq _ _
    have mean : meanPosition (s.sampled m a.toNat b.toNat).rawA (s.sampled m a.toNat b.toNat).rawB = (clamped ra + clamped rb) / 2 := by
      rw [meanPosition, hra, hrb, clamped_eq, clamped_eq]
    have disagrees : (s.sampled m a.toNat b.toNat).disagrees q.tol = true ↔ ra ≠ none ∧ rb ≠ none ∧ q.tol < apart := by
      rw [disagrees_iff, hra, hrb, clamped_eq, clamped_eq]
    have overtravels := overtravels_iff (s.sampled m a.toNat b.toNat)
    rw [hra, hrb] at overtravels
    refine ⟨?_, ?_, ?_, ?_, ?_, left.hatch, left.platform, fun hagree => ?_, fun hA hB hapart => ?_, ?_, ?_, ?_, ?_,
      fun hn hag h1 h2 => ?_⟩
    · rw [sensors, countA]
    · rw [sensors, countB]
    · rw [sensors, rawA, ← hra]; rfl
    · rw [sensors, rawB, ← hrb]; rfl
    · rw [left.position, if_pos rfl, ← mean]; rfl
    · rw [sensors]
      refine checkedSensors_agreeing (Bool.eq_false_iff.mpr fun k => ?_)
      obtain ⟨hA, hB, hapart⟩ := disagrees.mp k
      rcases hagree with e | e | e
      · exact hA e
      · exact hB e
      · exact Nat.not_le.mpr hapart e
    · rw [sensors]
      exact checkedSensors_disagreeing (disagrees.mpr ⟨hA, hB, hapart⟩)
    · rw [sensors]
      exact overtravels
    · rw [sensors]
      exact left.sensor
    · rw [sensors]
      exact left.travel
    · rw [sensors]
      exact left.raised
    · rw [← mean]
      exact positionSample_quiet hp hrest hb hn hag h1 h2

end Sys2Proof.Machine
end

section
/-! PROOFS. The requests of the hydraulic supply, READ FAULTS and READ INTERLOCK (O30, O32). -/

namespace Sys2Proof.Machine

/-! ## CONFIGURE HSU -/

/-- What CONFIGURE HSU gives while nothing is granted and nothing waits. -/
theorem serveConfigureHsu_free {s : State} (f p r : Half) (n : Byte) (hg : s.hsc.grants = []) (hq : s.hsc.queue = []) :
    serveConfigureHsu f p n r s =
      let raw : HsuSettings := { fcap := f.toNat, primeTime := p.toNat, primeTries := n.toNat, runOn := r.toNat }
      reply (accepted (raw.clamped != raw)) [] (s.onSettings fun t => { t with hsu := raw.clamped }) := by
  unfold serveConfigureHsu
  rw [hg, hq]
  rfl

/-- What CONFIGURE HSU gives while something is granted or waits. -/
theorem serveConfigureHsu_taken {s : State} (f p r : Half) (n : Byte) (h : s.hsc.grants ≠ [] ∨ s.hsc.queue ≠ []) :
    serveConfigureHsu f p n r s = refuse .refusedState s := by
  unfold serveConfigureHsu
  rw [if_neg]
  rw [Bool.and_eq_true, List.isEmpty_iff, List.isEmpty_iff]
  rintro ⟨hg, hq⟩
  exact h.elim (· hg) (· hq)

/-- The parameters are as given exactly when each of the four is (R55). -/
theorem hsuClamped_eq_iff (x : HsuSettings) :
    x.clamped = x ↔ x.clamped.fcap = x.fcap ∧ x.clamped.primeTime = x.primeTime ∧ x.clamped.primeTries = x.primeTries ∧
      x.clamped.runOn = x.runOn := by
  cases x
  exact Eq.to_iff (HsuSettings.mk.injEq ..)

/-- Settles O30. -/
theorem configureHsuWhileNothingIsGranted : Obligations.ConfigureHsuWhileNothingIsGranted := by
  intro s f p r n h
  refine ⟨fun hbusy => exec_refused (x := .refusedState) h (serveConfigureHsu_taken f p r n hbusy) rfl, fun hg hq => ?_⟩
  let raw : HsuSettings := { fcap := f.toNat, primeTime := p.toNat, primeTries := n.toNat, runOn := r.toNat }
  have status := status_of (b := raw.clamped != raw) (bne_iff_ne.trans (not_congr (hsuClamped_eq_iff raw)))
  have settings : (heard s).onSettings (fun t => { t with hsu := raw.clamped }) =
      { heard s with settings := { s.settings with hsu := raw.clamped } } := by
    unfold State.onSettings
    rw [heard_settings]
  refine exec_served h ((serveConfigureHsu_free f p r n hg hq).trans ?_) rfl
  dsimp only
  rw [settings]
  exact congrArg _ status

/-! ## READ HSU, READ FAULTS and READ INTERLOCK -/

/-- What READ INTERLOCK gives for an index of the table (R122). -/
theorem serveReadInterlock_named {b : Byte} (hb : b.toNat ≤ 23) (s : State) :
    serveReadInterlock b s = reply .ok
      (entryReport (s.entry b.toNat) ++ flag (decide (b.toNat < 3)) ++ flag ((s.entry b.toNat).any s.holds)) s := by
  unfold serveReadInterlock
  rw [index_some (n := interlockEntries) (Nat.lt_succ_of_le hb)]
  rfl

theorem serveReadInterlock_unnamed {b : Byte} (hb : 23 < b.toNat) (s : State) : serveReadInterlock b s = refuse .refusedValue s := by
  unfold serveReadInterlock
  rw [index_none (n := interlockEntries) hb]

/-- Settles O32. -/
theorem readHsuFaultsAndInterlocks : Obligations.ReadHsuFaultsAndInterlocks := by
  intro s h
  refine ⟨exec_served h ?_ rfl, exec_served h ?_ rfl, fun b => ⟨fun hb => ?_, fun hb he => ?_, fun e hb he => ?_⟩⟩
  · show serveReadHsu (heard s) = _
    unfold serveReadHsu
    rw [heard_settings, heard_pins]
    rfl
  · show serveReadFaults (heard s) = _
    unfold serveReadFaults State.causeBytes
    rw [heard_pins, heard_faulted, show (heard s).causeSetting = s.causeSetting from funext (causeSetting_heard s)]
    rfl
  · exact exec_refused (x := .refusedValue) h (serveReadInterlock_unnamed hb _) rfl
  · refine exec_served h ((serveReadInterlock_named hb _).trans ?_) rfl
    rw [heard_entry, he]
    by_cases hbuilt : b.toNat < 3
    · rw [if_pos hbuilt, decide_eq_true hbuilt]; rfl
    · rw [if_neg hbuilt, decide_eq_false hbuilt]; rfl
  · refine exec_served h ((serveReadInterlock_named hb _).trans ?_) rfl
    rw [heard_entry, he]
    obtain ⟨m, d, q, v, a⟩ := e
    cases d <;> cases a <;> rfl

end Sys2Proof.Machine
end

section
/-! PROOFS. The pump after its timers and PRESSURE_OK, and PUMP_RUN in a consistent state (O49). -/

namespace Sys2Proof.Machine

variable {s u w : State}

/-! ## A level that changes -/

/-- An input in its level already, or outside service, moves its pin alone (R40, R115). -/
theorem finish_level_idle (hrest : StoreAtRest s) {old v : Bool} {f : Pins → Pins} (g : State → State) (hf : old = v → s.onPins f = s)
    (h : s.phase ≠ .running ∨ old = v) : finish (if old = v then s else reacts g (s.onPins f)) = .next (s.onPins f) := by
  by_cases hv : old = v
  · rw [if_pos hv, hf hv]
    exact finish_atRest hrest
  · rw [if_neg hv, reacts_asleep (s := s.onPins f) (h.resolve_right hv)]
    exact finish_of_phase (s := s.onPins f) (h.resolve_right hv)

/-- An input that changes in service is reacted to. -/
theorem level_changes {old v : Bool} {f : Pins → Pins} (g : State → State) (hp : s.phase = .running) (hv : old = !v) :
    (if old = v then s else reacts g (s.onPins f)) = g (s.onPins f) := by
  rw [if_neg (by rw [hv]; cases v <;> nofun), reacts_running (s := s.onPins f) hp]

/-! ## PUMP_RUN -/

theorem pumpRun_iff (s : State) : s.pumpRun = true ↔ s.hsc.pump = .starting ∨ s.hsc.pump = .running ∨ s.hsc.pump = .runOn := by
  unfold State.pumpRun
  cases s.hsc.pump <;> decide

theorem pumpRun_off (h : s.hsc.pump = .off) : s.pumpRun = false := by
  unfold State.pumpRun
  rw [h]

/-- What asserts ISOLATE leaves the pump OFF (R53, R114). -/
theorem pump_off_of_isolating (h : Consistent s)
    (hi : s.hsc.isolate = true ∨ s.fis.trip.isSome = true ∨ (s.phase = .running ∧ s.pins.estop = true)) : s.hsc.pump = .off := by
  obtain ⟨⟨-, -, -, -, -, -, -, -, -, estop⟩, -, -, shuts, trip, -⟩ := h
  have isolated : s.hsc.isolate = true := hi.elim id fun hi => hi.elim trip fun hi => estop hi.1 hi.2
  exact (shuts isolated).2.2

/-! ## The attempt in progress -/

/-- A granted hatch in PRIMING may move without raising H_PINS (R82, R86). -/
def HatchClear (s : State) : Prop :=
  MachineId.h ∈ s.hsc.grants → (s.chan .h).state = .priming →
    s.pins.pinsUl = true ∨ (s.chan .h).runsIn .outward = true ∨ (s.chan .h).position ≤ (s.params .h).endBand

theorem judgeAttempt_confirms (go : Go) (hp : s.hsc.pump = .starting) (ho : s.pins.pressureOk = true) :
    judgeAttempt go s = confirmPump go s := if_pos ⟨hp, ho⟩

theorem judgeAttempt_waits (go : Go) (ho : s.pins.pressureOk = false) : judgeAttempt go s = s :=
  if_neg fun h => by rw [ho] at h; exact Bool.false_ne_true h.2

/-- The confirmation of an attempt that has moved the supply and the items alone since `s`, at the end of the handling (R42). -/
theorem confirmed_finish (hn : NoHostEntries s) (hc : HatchClear s) (hw : w = { s with hsc := w.hsc, seu := w.seu })
    (hg : w.hsc.grants = s.hsc.grants) (hq : w.hsc.queue = s.hsc.queue) (hi : w.hsc.isolate = s.hsc.isolate) :
    PumpConfirmed s (beginWrite (confirmPump send w)) := by
  have hnw : NoHostEntries w := hn.of_settings (by rw [hw])
  have hcw : HatchClear w := by
    unfold HatchClear at hc ⊢
    rw [hg, hw]
    exact hc
  refine (confirmed_confirmPump hnw hcw).of_still ?_ hg.symm hq.symm hi.symm ?_ ⟨?_, ?_, ?_, ?_, ?_, ?_, ?_⟩ (beginWrite_eq _)
  all_goals rw [hw]

/-! ## PRESSURE_OK -/

/-- What PRESSURE_OK does once its item has changed (R42, R47). -/
def afterPressure (v : Bool) (s : State) : State := if v then pressureAppears send s else pressureGoes s

/-- PRESSURE_OK changes in service: its item follows, and then the pump. -/
theorem exec_pressure (hn : NoHostEntries s) (hp : s.phase = .running) {v : Bool} (hv : s.pins.pressureOk = !v) :
    ∃ w, Silent { s with pins := { s.pins with pressureOk := v } } w ∧ w.item Item.pressureOk = v ∧
      exec (.pressureOkChange v) s = .next (beginWrite (afterPressure v w)) := by
  let b : State := { s with pins := { s.pins with pressureOk := v } }
  exact ⟨publish send b Item.pressureOk, silent_publish quiet_send (s := b) hn (by decide),
    item_publish quiet_send (s := b) hn (r := Item.pressureOk) (by unfold Plain; decide) rfl _,
    congrArg finish (level_changes (f := fun p => { p with pressureOk := v }) _ hp hv)⟩

/-- An attempt in progress is confirmed once PRESSURE_OK is active. -/
theorem afterPressure_starting (hp : s.hsc.pump = .starting) (ho : s.pins.pressureOk = true) :
    afterPressure true s = confirmPump send s := by
  show pressureAppears send s = _
  unfold pressureAppears
  rw [hp]
  exact judgeAttempt_confirms send hp ho

/-- Without an attempt to confirm, PRESSURE_OK stops or starts the pressure-loss timer of a confirmed pump and moves nothing else. -/
theorem afterPressure_timer {v : Bool} (h : v = false ∨ s.hsc.pump ≠ .starting) : afterPressure v s =
    { s with hsc := { s.hsc with pressLoss :=
      if s.hsc.pump = .running ∨ s.hsc.pump = .runOn then (if v then none else some 200) else s.hsc.pressLoss } } := by
  unfold afterPressure pressureAppears pressureGoes
  cases hp : s.hsc.pump
  case starting =>
    obtain rfl : v = false := h.resolve_right (· hp)
    rfl
  all_goals cases v <;> rfl

/-! ## The timers of the pump -/

theorem primeTimer_idle (go : Go) (h : s.hsc.pump ≠ .starting ∨ s.hsc.timer = none) : primeTimerExpiry go s = s := by
  unfold primeTimerExpiry
  split
  · rename_i hp ht
    exact absurd (ht.symm.trans (h.resolve_left (not_not_intro hp))) nofun
  · rfl

theorem primeTimer_retries (go : Go) (hp : s.hsc.pump = .starting) (ht : s.hsc.timer ≠ none)
    (ha : s.hsc.attempt < s.settings.hsu.primeTries) :
    primeTimerExpiry go s = setPump go .retryGap s.hsc.attempt (some 500) s := by
  obtain ⟨n, hn⟩ := Option.ne_none_iff_exists'.mp ht
  unfold primeTimerExpiry
  rw [hp, hn]
  exact if_pos ha

theorem pumpGap_idle (go : Go) (h : s.hsc.pump ≠ .retryGap ∨ s.hsc.timer = none) : pumpGapExpiry go s = s := by
  unfold pumpGapExpiry
  split
  · rename_i hp ht
    exact absurd (ht.symm.trans (h.resolve_left (not_not_intro hp))) nofun
  · rfl

theorem pumpGap_expires (go : Go) (hp : s.hsc.pump = .retryGap) (ht : s.hsc.timer ≠ none) :
    pumpGapExpiry go s = beginAttempt go (s.hsc.attempt + 1) s := by
  obtain ⟨n, hn⟩ := Option.ne_none_iff_exists'.mp ht
  unfold pumpGapExpiry
  rw [hp, hn]

theorem runOnTimer_idle (go : Go) (h : s.hsc.pump ≠ .runOn ∨ s.hsc.timer = none) : runOnTimerExpiry go s = s := by
  unfold runOnTimerExpiry
  split
  · rename_i hp ht
    exact absurd (ht.symm.trans (h.resolve_left (not_not_intro hp))) nofun
  · rfl

theorem runOnTimer_expires (go : Go) (hp : s.hsc.pump = .runOn) (ht : s.hsc.timer ≠ none) :
    runOnTimerExpiry go s = setPump go .off 0 none s := by
  obtain ⟨n, hn⟩ := Option.ne_none_iff_exists'.mp ht
  unfold runOnTimerExpiry
  rw [hp, hn]

/-- A handling that sets the pump and no more. -/
theorem finish_setPump (hrest : StoreAtRest s) (hn : NoHostEntries s) (p : PumpState) (k : Nat) (t : Timer) :
    finish (setPump send p k t s) = .next (setPump send p k t s) :=
  finish_silent (s := s) (setPump_exact hn p k t).1 rfl rfl hrest

/-- Settles O49: PUMP_RUN by the invariants; the timers by `setPump_exact`, a confirmation by `confirmed_confirmPump`. -/
theorem pumpFollowsItsTimersAndPressure : Obligations.PumpFollowsItsTimersAndPressure := by
  refine ⟨fun s hc => ⟨pumpRun_iff s, fun hi => pumpRun_off (pump_off_of_isolating hc hi)⟩, ?_⟩
  intro s hrest hn h hatchClear
  refine ⟨fun v hv => ?_, fun v hp hv => ?_, fun hidle => ?_, fun hp ht ha => ?_, fun hidle => ?_, fun hp ht => ?_, fun hidle => ?_,
    fun hp ht => ?_⟩
  · exact finish_level_idle hrest (f := fun p => { p with pressureOk := v }) _ (by rintro rfl; rfl) hv
  · obtain ⟨w, k, item, hexec⟩ := exec_pressure hn hp hv
    refine ⟨_, hexec, fun hon hst hclear => ?_, fun hno => ?_⟩
    · subst hon
      rw [afterPressure_starting (by rw [k]; exact hst) (by rw [k])]
      refine confirmed_finish (s := { s with pins := { s.pins with pressureOk := true } }) hn hclear ?_ ?_ ?_ ?_ <;> rw [k]
    · rw [afterPressure_timer (by rw [k]; exact hno)]
      rw [beginWrite_atRest]
      · exact ⟨item, by rw [k]⟩
      · rw [k]
        exact hrest
  · exact (congrArg finish (primeTimer_idle send hidle)).trans (finish_atRest hrest)
  · obtain ⟨silent, pumpOn, starting, -⟩ := setPump_exact hn .retryGap h.attempt (some 500)
    exact ⟨_, (congrArg finish (primeTimer_retries send hp ht ha)).trans (finish_setPump hrest hn _ _ _), silent, pumpOn, starting⟩
  · exact (congrArg finish (pumpGap_idle send hidle)).trans (finish_atRest hrest)
  · have hexec : exec .gapTimerExpiryPump s = finish (judgeAttempt send _) := congrArg finish (pumpGap_expires send hp ht)
    have attempt := setPump_exact hn .starting (h.attempt + 1) (some s.settings.hsu.primeTime)
    have finished := finish_setPump hrest hn .starting (h.attempt + 1) (some s.settings.hsu.primeTime)
    generalize setPump send .starting (h.attempt + 1) (some s.settings.hsu.primeTime) s = w at hexec attempt finished
    obtain ⟨silent, pumpOn, starting, -⟩ := attempt
    cases ho : s.pins.pressureOk with
    | true =>
      rw [judgeAttempt_confirms send (by rw [silent]; rfl) (by rw [silent]; exact ho)] at hexec
      refine ⟨_, hexec, fun _ hclear => confirmed_finish hn hclear ?_ ?_ ?_ ?_, nofun⟩ <;> (rw [silent]; rfl)
    | false =>
      rw [judgeAttempt_waits send (by rw [silent]; exact ho), finished] at hexec
      exact ⟨_, hexec, nofun, fun _ => ⟨pumpOn, starting, silent⟩⟩
  · exact (congrArg finish (runOnTimer_idle send hidle)).trans (finish_atRest hrest)
  · obtain ⟨silent, pumpOn, -, runOn⟩ := setPump_exact hn .off 0 none
    exact ⟨_, (congrArg finish (runOnTimer_expires send hp ht)).trans (finish_setPump hrest hn _ _ _), silent, pumpOn, runOn⟩

end Sys2Proof.Machine
end

section
/-! PROOFS. The protection inputs: ESTOP with its cause and ISOLATE, and SERVICE# (O51). -/

namespace Sys2Proof.Machine

variable {s r w : State} {c : Nat}

/-! ## ISOLATE reconsidered -/

theorem Silent.onHsc (h : Silent s w) (f : Hsc → Hsc) : Silent (s.onHsc f) (w.onHsc f) := by
  unfold Silent at h ⊢
  rw [h]
  rfl

theorem reconsiderIsolate_of_estop (go : Go) (h : s.pins.estop = true) :
    reconsiderIsolate go s = if s.hsc.isolate = true then s else assertIsolate go s := by
  cases hi : s.hsc.isolate <;> simp [reconsiderIsolate, h, hi]

/-- ISOLATE released with no input VALID (R54). -/
theorem releaseIsolate_calm (hn : NoHostEntries s) (hv : ∀ m, s.anyValid m = false) :
    Silent (s.onHsc fun h => { h with isolate := false }) (releaseIsolate send s) ∧
    (releaseIsolate send s).item Item.isolated = false ∧ (releaseIsolate send s).item Item.isolateOut = false := by
  let b := s.onHsc fun h => { h with isolate := false }
  have plain : ∀ q ∈ [Item.isolated, Item.isolateOut], q ∉ builtInItems ∧ q.exists = true := by decide
  have silent : Silent b (publishAll send [Item.isolated, Item.isolateOut] b) :=
    silent_publishAll quiet_send (s := b) hn _ fun q hq => (plain q hq).1
  have isolated : (publishAll send [Item.isolated, Item.isolateOut] b).item Item.isolated = false :=
    item_publishAll_mem quiet_send Item.isolated _ plain (by decide) (s := b) hn fun t ht => by rw [ht]; rfl
  have isolateOut : (publishAll send [Item.isolated, Item.isolateOut] b).item Item.isolateOut = false :=
    item_publishAll_mem quiet_send Item.isolateOut _ plain (by decide) (s := b) hn fun t ht => by rw [ht]; rfl
  unfold releaseIsolate
  change Silent b (machines.foldl _ (publishAll send [Item.isolated, Item.isolateOut] b)) ∧
    (machines.foldl _ (publishAll send [Item.isolated, Item.isolateOut] b)).item _ = _ ∧
    (machines.foldl _ (publishAll send [Item.isolated, Item.isolateOut] b)).item _ = _
  generalize publishAll send [Item.isolated, Item.isolateOut] b = u at *
  have hnu : NoHostEntries u := hn.of_settings (by rw [silent]; rfl)
  have hvu : ∀ m, u.anyValid m = false := fun m => (anyValid_siq (by rw [silent]; rfl) m).trans (hv m)
  exact ⟨silent.trans (valid_start quiet_send hnu hvu machines),
    (item_valid_start quiet_send (fun m => by cases m <;> decide) machines hnu hvu).trans isolated,
    (item_valid_start quiet_send (fun m => by cases m <;> decide) machines hnu hvu).trans isolateOut⟩

/-- ISOLATE reconsidered with ESTOP inactive and no input VALID: it is released unless a trip record exists (R54, R114). -/
theorem reconsiderIsolate_without_estop (hn : NoHostEntries s) (he : s.pins.estop = false) (hi : s.hsc.isolate = true)
    (hv : ∀ m, s.anyValid m = false) :
    Silent (s.onHsc fun h => { h with isolate := s.fis.trip.isSome }) (reconsiderIsolate send s) ∧
    (s.fis.trip = none → (reconsiderIsolate send s).item Item.isolated = false ∧
      (reconsiderIsolate send s).item Item.isolateOut = false) := by
  cases ht : s.fis.trip with
  | some x =>
    have stays : reconsiderIsolate send s = s := by simp [reconsiderIsolate, he, hi, ht]
    have same : (s.onHsc fun h => { h with isolate := true }) = s := by unfold State.onHsc; rw [← hi]
    rw [stays]
    exact ⟨same.symm ▸ .refl s, nofun⟩
  | none =>
    have releases : reconsiderIsolate send s = releaseIsolate send s := by simp [reconsiderIsolate, he, hi, ht]
    rw [releases]
    obtain ⟨silent, isolated, isolateOut⟩ := releaseIsolate_calm hn hv
    exact ⟨silent, fun _ => ⟨isolated, isolateOut⟩⟩

/-! ## A raise, and ISOLATE asserted after it -/

/-- A raise seen from before the items that changed ahead of it. -/
theorem Raised.of_silent (h : Raised c w r) (k : Silent s w) : Raised c s r := by
  refine h.of_same ?_ ?_ ?_ ?_ (fun _ _ => by rw [k]; rfl) ?_ ?_ ?_ ?_ ?_ ?_ ?_ ?_ (OffStays.of_hsc ?_) <;> rw [k]

/-- The supply with the pump OFF. -/
def State.withPumpOff (s : State) : State :=
  { s with hsc := { s.hsc with pump := .off, attempt := 0, timer := none, pressLoss := none } }

/-- What a raise has left, with no grant left and nobody waiting, is left by the assertion of ISOLATE too; the pump is OFF then
(R53, R106). -/
theorem Raised.assertIsolate (h : Raised c s r) (hn : NoHostEntries r) (hw : IsolateWanted r) (hg : r.hsc.grants = [])
    (hq : r.hsc.queue = []) : Raised c s.withPumpOff (assertIsolate send r) := by
  obtain ⟨still, pump, attempt, timer, pressLoss, -, -, fis, items⟩ := assertIsolate_idle hn hg hq
  have cascade := cascade_assertIsolate cascades_send hw (.refl r)
  obtain ⟨active, others, channel, input, grants, queue, -, item, event, phase, now, pins, settings, slp, rode, trip, faulted⟩ := h
  have cause : ∀ d, (Machine.assertIsolate send r).cause d = r.cause d := fun d => by unfold State.cause; rw [fis]
  have apart : ∀ q ∈ [Item.isolated, Item.isolateOut] ++ pumpItems ++ [Item.scaled] ++
      ([Item.grantsFull, Item.waitingAny] ++ machines.map Item.blocked), q.group ≠ .flt := by decide
  refine ⟨by rw [cause]; exact active, fun d hd => (cause d).trans (others d hd), fun m => ?_,
    fun i => (input_siq still.siq i).trans (input i), still.grants.trans grants, still.queue.trans queue,
    fun _ => ⟨pump, attempt, timer, pressLoss⟩, (items _ fun k => apart _ k rfl).trans item, fun hlen => ?_,
    still.phase.trans phase, still.now.trans now, still.pins.trans pins, still.settings.trans settings, still.slp.trans slp,
    still.rode.trans rode, by rw [fis]; exact trip, by rw [fis]; exact faulted⟩
  · have own : (Machine.assertIsolate send r).chan m = { r.chan m with
        share := ((Machine.assertIsolate send r).chan m).share, applied := ((Machine.assertIsolate send r).chan m).applied } := still.chan m
    rw [channel m] at own
    exact own
  · have kinds := cascade.events
    have short := kinds.length_le
    rw [List.length_map, List.length_map] at short
    exact kinds.subset (event (Nat.lt_of_le_of_lt short hlen))

/-! ## ESTOP -/

/-- ESTOP changes in service: its item follows, then its condition is reported, and then ISOLATE is reconsidered. -/
theorem exec_estop (hn : NoHostEntries s) (hp : s.phase = .running) {a : Bool} (hv : s.pins.estop = !a) :
    ∃ w, Silent { s with pins := { s.pins with estop := a } } w ∧
      exec (.estopChange a) s = .next (beginWrite (reconsiderIsolate send (report send causeEstop a w))) := by
  let b : State := { s with pins := { s.pins with estop := a } }
  exact ⟨publish send b Item.estopIn, silent_publish quiet_send (s := b) hn (by decide),
    congrArg finish (level_changes (f := fun p => { p with estop := a }) _ hp hv)⟩

/-- The condition of cause 0, at rest before, is reported present: the cause is raised, and ISOLATE stays as it is (R106, R115). -/
theorem estop_raised {u : State} (hu : Undisturbed s) (h : RaiseReady causeEstop s) (same : SamePlant s u) (k : Silent u w) :
    Raised causeEstop u (report send causeEstop true w) ∧ ((report send causeEstop true w).cause causeEstop).present = true ∧
      (report send causeEstop true w).hsc.isolate = s.hsc.isolate := by
  have samew := same.silent k
  obtain ⟨active, absent, trip, empties⟩ := h.of_same samew
  obtain ⟨raised, present, isolate, -⟩ := raised_report (samew.undisturbed hu) (by decide) absent active trip empties
  exact ⟨raised.of_silent k, present, isolate.trans samew.isolate⟩

/-- SERVICE# changes in service: its item alone follows. -/
theorem exec_service (hrest : StoreAtRest s) (hn : NoHostEntries s) (hp : s.phase = .running) {v : Bool} (hv : s.pins.service = !v) :
    ∃ t, exec (.serviceInputChange v) s = .next t ∧ t.item Item.serviceIn = v ∧
      Silent { s with pins := { s.pins with service := v } } t := by
  let b : State := { s with pins := { s.pins with service := v } }
  have silent : Silent b (publish send b Item.serviceIn) := silent_publish quiet_send (s := b) hn (by decide)
  exact ⟨_, (congrArg finish (level_changes (f := fun p => { p with service := v }) _ hp hv)).trans
      (finish_silent (s := s) silent rfl rfl hrest),
    item_publish quiet_send (s := b) hn (r := Item.serviceIn) (by unfold Plain; decide) rfl _, silent⟩

/-- Settles O51: the raise by `estop_raised`, ISOLATE by `Raised.assertIsolate` and `releaseIsolate_calm`. -/
theorem estopRaisesItsCauseAndIsolates : Obligations.EstopRaisesItsCauseAndIsolates := by
  intro s hu hrest
  refine ⟨fun v hv => finish_level_idle hrest (f := fun p => { p with estop := v }) _ (by rintro rfl; rfl) hv,
    fun hp hv ha hpr htrip hempty hgrants => ?_, fun hp hv hi hc hvalid => ?_,
    fun v hv => finish_level_idle hrest (f := fun p => { p with service := v }) _ (by rintro rfl; rfl) hv,
    fun v hp hv => exec_service hrest hu.1 hp hv⟩
  · obtain ⟨w, k, hexec⟩ := exec_estop hu.1 hp hv (a := true)
    obtain ⟨raised, present, isolate⟩ := estop_raised hu ⟨ha, hpr, htrip, hempty⟩
      (u := { s with pins := { s.pins with estop := true } }) ⟨rfl, rfl, rfl, rfl, rfl, rfl, rfl⟩ k
    generalize report send causeEstop true w = r at raised present isolate hexec
    obtain ⟨-, -, pins, settings, -⟩ := raised.kept
    have estop : r.pins.estop = true := by rw [pins]
    rw [reconsiderIsolate_of_estop send estop, isolate] at hexec
    cases hi : s.hsc.isolate with
    | true =>
      rw [if_pos hi] at hexec
      refine ⟨_, hexec, ?_, ?_, fun _ => raised.of_sto (beginWrite_eq r), nofun⟩
      · rw [beginWrite_hsc, isolate, hi]
      · rw [beginWrite_cause]; exact present
    | false =>
      rw [if_neg (by rw [hi]; nofun)] at hexec
      have hn : NoHostEntries r := hu.1.of_settings settings
      have hg : r.hsc.grants = [] := raised.grants.trans hgrants
      have hq : r.hsc.queue = [] := raised.queue.trans hempty
      obtain ⟨still, -, -, -, -, isolated, isolateOut, fis, -⟩ := assertIsolate_idle hn hg hq
      refine ⟨_, hexec, ?_, ?_, nofun, fun _ => ⟨?_, ?_, (raised.assertIsolate hn (.inr estop) hg hq).of_sto (beginWrite_eq _)⟩⟩
      · rw [beginWrite_hsc, still.isolate]; rfl
      · rw [beginWrite_cause]; unfold State.cause; rw [fis]; exact present
      · rw [beginWrite_item]; exact isolated
      · rw [beginWrite_item]; exact isolateOut
  · obtain ⟨w, k, hexec⟩ := exec_estop hu.1 hp hv (a := false)
    rw [report_absent_plain (c := causeEstop) (by rw [k]; exact hc)] at hexec
    let absent := setCause 0 { w.cause 0 with present := false } w
    change exec _ s = .next (beginWrite (reconsiderIsolate send absent)) at hexec
    have fields : Silent { s with
        pins := { s.pins with estop := false }
        fis := { s.fis with causes := poke s.fis.causes 0 { s.cause 0 with present := false } } } absent := by
      unfold Silent
      rw [show absent = _ from absent_eq 0 w, k]
      rfl
    obtain ⟨silent, items⟩ := reconsiderIsolate_without_estop (s := absent) (hu.1.of_settings (by rw [fields])) (by rw [fields])
      (by rw [fields]; exact hi) fun m => (anyValid_siq (by rw [fields]) m).trans (hvalid m)
    rw [show absent.fis.trip = s.fis.trip by rw [fields]] at silent items
    have released := (fields.onHsc fun h => { h with isolate := s.fis.trip.isSome }).trans silent
    exact ⟨_, hexec.trans (finish_silent (s := s) released rfl rfl hrest), items, released⟩

end Sys2Proof.Machine
end

section
/-! PROOFS. What a reset restores from the RECORDS section (O5). -/

namespace Sys2Proof.Machine

/-! ## The causes and the trip record -/

/-- A cause as RECORDS restores it, kept there as LATCHED or not (R116). -/
def restoredCause (latched : Bool) : CauseRec :=
  if latched = true then { active := true, present := false, raisedAt := some 0 }
  else { active := false, present := false, raisedAt := none }

theorem restoredFis_cause (r : Copy Records) {c : Nat} (hc : c < 16) :
    peek (restoredFis r).causes c = restoredCause (r.ok && peek r.content.latched c) := by
  unfold restoredFis
  cases r.ok
  · exact peek_replicate _ hc
  · show peek (r.content.latched.map _) c = _
    rw [peek_map _ _ _ hc, Bool.true_and]
    cases peek r.content.latched c <;> rfl

theorem restoredFis_trip (r : Copy Records) :
    (restoredFis r).trip = if r.ok = true then r.content.trip.map fun x => { x with restored := true } else none := by
  unfold restoredFis
  cases r.ok <;> rfl

/-! ## A reset -/

/-- The part `t` has the rode count, RODE_UNKNOWN, the causes and the trip record that the RECORDS section of `s` restores
(R69, R116). -/
def RecordsRestored (s t : State) : Prop :=
  (s.pins.home = true → t.sfe.rode = 0 ∧ t.sfe.rodeUnknown = false) ∧
  (s.pins.home = false → s.sto.intact .records = true →
    t.sfe.rode = min s.sto.records.content.rode.count t.settings.machines.windlass.rodeMax ∧
    t.sfe.rodeUnknown = !(s.sto.records.content.rode.known && s.sto.records.content.rode.settled)) ∧
  (s.pins.home = false → s.sto.intact .records = false → t.sfe.rode = 0 ∧ t.sfe.rodeUnknown = true) ∧
  (∀ c, c < 16 → t.cause c =
    if s.sto.intact .records = true ∧ peek s.sto.records.content.latched c = true then
      { active := true, present := false, raisedAt := some 0 }
    else { active := false, present := false, raisedAt := none }) ∧
  t.fis.trip = (if s.sto.intact .records = true then
    s.sto.records.content.trip.map fun r => { r with restored := true } else none)

/-- Every reset reads RECORDS back, whatever its kind: the copy counts as it passes its check after the reset. -/
theorem boot_restores (k : ResetCause) (p : Phase) (straps : Straps) (s : State) : RecordsRestored s (boot k p straps s) := by
  let r : Copy Records := { s.sto.records with ok := s.sto.intact .records }
  have records : s.sto.afterReset.records = r := afterReset_records s.sto
  have sfe : (boot k p straps s).sfe = restoredSfe r (boot k p straps s).settings.machines.windlass.rodeMax s.pins.home :=
    congrArg (restoredSfe · _ _) records
  have fis : (boot k p straps s).fis = restoredFis r := congrArg restoredFis records
  unfold RecordsRestored
  rw [sfe, fis]
  refine ⟨fun home => ?_, fun home intact => ?_, fun home failed => ?_, fun c hc => ?_, restoredFis_trip r⟩
  · rw [home]
    exact ⟨rfl, rfl⟩
  · simp [restoredSfe, restoredRode, r, home, intact]
  · simp [restoredSfe, restoredRode, r, home, failed]
  · have cause : (boot k p straps s).cause c = restoredCause (r.ok && peek r.content.latched c) := by
      rw [State.cause, fis]
      exact restoredFis_cause r hc
    simpa only [restoredCause, Bool.and_eq_true] using cause

/-- Settles O5: each reset is a `boot`, and outside service no store write begins after it. -/
theorem resetRestoresTheRecords : Obligations.ResetRestoresTheRecords := by
  intro s straps
  refine ⟨⟨_, finish_of_phase (s := powerReset straps s) nofun, boot_restores _ _ _ s⟩,
    ⟨_, finish_of_phase (s := pinReset s) nofun, boot_restores _ _ _ s⟩, fun held => ?_, fun r inService resets => ?_⟩
  · have high : rstGoesHigh straps s = boot .pin .initializing straps s := by
      unfold rstGoesHigh
      rw [held]
    exact ⟨_, (congrArg finish high).trans (finish_of_phase nofun), boot_restores _ _ _ s⟩
  · have sent : replySent send s = boot .request .initializing s.strapsNow s.countStrapRead := by
      unfold replySent
      rw [inService]
      exact if_pos resets
    exact ⟨_, (congrArg finish sent).trans (finish_of_phase nofun), boot_restores _ _ _ s.countStrapRead⟩

end Sys2Proof.Machine
end

section
/-! PROOFS. SET RODE (O28). -/

namespace Sys2Proof.Machine

/-- The count that SET RODE takes (R71). -/
def settableRode (s : State) (b : Half) : Nat := min b.toNat s.settings.machines.windlass.rodeMax

/-- The part with the count `n`, known, and the creep reference on it (R71). -/
def withRode (n : Nat) (s : State) : State := s.onSfe fun f => { f with rode := n, rodeUnknown := false, creepRef := some n }

/-- What follows the count of SET RODE: its items, and the RECORDS write (R68, R71). -/
def rodeSet (s : State) : State := requestWrite send .records false (publishAll send [Item.rodeUnknown, Item.atRodeMax] s)

theorem cascade_rodeSet (s : State) : Cascade s (rodeSet s) :=
  cascade_requestWrite cascades_send _ _ (cascade_publishAll cascades_send _ (.refl s))

theorem calm_rodeSet {s : State} (h : NoHostEntries s) : Calm s (rodeSet s) :=
  have items : Calm s (publishAll send [Item.rodeUnknown, Item.atRodeMax] s) :=
    calm_publishAll quiet_send h _ (by unfold Plain; decide)
  items.trans (calm_requestWrite quiet_send (items.noHostEntries h) _ _)

theorem rodeSet_pending (s : State) : isPending .records (rodeSet s).sto.queue = true := requestWrite_pending cascades_send _ _ _

theorem serveSetRode_refused {s : State} {b : Half}
    (h : (s.chan .w).state ≠ .idle ∨ (s.pins.home = true ∧ settableRode s b ≠ 0)) :
    serveSetRode send b s = refuse .refusedState s := if_pos h

theorem serveSetRode_taken {s : State} {b : Half} (hi : (s.chan .w).state = .idle)
    (hh : s.pins.home = true → settableRode s b = 0) :
    serveSetRode send b s =
      reply (accepted (settableRode s b != b.toNat)) [] (rodeSet (withRode (settableRode s b) s)) :=
  if_neg fun h => h.elim (fun k => k hi) fun k => k.2 (hh k.1)

theorem settableRode_heard (s : State) (b : Half) : settableRode (heard s) b = settableRode s b := by
  unfold settableRode; rw [heard_settings]

/-- Settles O28: the count stands in `withRode`, and all that follows it is a cascade, calm without host entries. -/
theorem setRodeSetsTheCount : Obligations.SetRodeSetsTheCount := by
  intro s b h n
  have hn : settableRode (heard s) b = n := settableRode_heard s b
  refine ⟨fun hx => ?_, fun hi hh => ?_⟩
  · refine exec_refused (x := .refusedState) h (serveSetRode_refused ?_) rfl
    rw [hn, heard_pins]
    exact hx
  · have served := serveSetRode_taken (b := b) hi (by rw [hn, heard_pins]; exact hh)
    rw [hn] at served
    have cascade := cascade_rodeSet (withRode n (heard s))
    refine ⟨_, (exec_served (i := .setRode b) (code := 0x95) h served rfl).trans ?_, cascade.rode, cascade.rodeUnknown,
      rodeSet_pending _, fun hnone => ?_, cascade.settings.trans (heard_settings s), cascade.pins.trans (heard_pins s), cascade.slp,
      (cascade.position .w).trans (heard_position s .w)⟩
    · rw [accepted_ne]
    · have calm := calm_rodeSet (s := withRode n (heard s)) (noHost_heard hnone)
      exact ⟨calm.sfe, calm.mc, calm.hsc, calm.fis, calm.siq⟩

end Sys2Proof.Machine
end

section
/-! PROOFS. The rode count between the samples: pocket edges, HOME and the creep cause (O52). -/

namespace Sys2Proof.Machine

variable {s u w : State}

/-! ## The creep comparison -/

/-- The count `n` has come CreepPockets or more away from the creep reference of an IDLE windlass whose cause 6 is not present
already (R67). -/
def Creeps (s : State) (n : Nat) : Prop :=
  (s.chan .w).state = .idle ∧ (s.cause 6).present = false ∧ ∃ r, s.sfe.creepRef = some r ∧
    (r + s.settings.machines.windlass.creepPockets ≤ n ∨ n + s.settings.machines.windlass.creepPockets ≤ r)

/-- Cause 6 at rest, where its raise takes no new trip and nobody waits for a slot. -/
def CreepAtRest (s : State) : Prop :=
  (s.cause 6).active = false ∧ ((s.causeSetting 6).trip = false ∨ s.fis.trip.isSome = true) ∧ s.hsc.queue = []

/-- What the creep comparison and the raise of cause 6 read of a state, besides the count. -/
structure SameCreep (s u : State) : Prop where
  mc : u.mc = s.mc
  fis : u.fis = s.fis
  settings : u.settings = s.settings
  queue : u.hsc.queue = s.hsc.queue
  creepRef : u.sfe.creepRef = s.sfe.creepRef

theorem SameCreep.calm (h : SameCreep s u) (k : Calm u w) : SameCreep s w :=
  ⟨k.mc.trans h.mc, k.fis.trans h.fis, k.settings.trans h.settings, (congrArg Hsc.queue k.hsc).trans h.queue,
    (congrArg Sfe.creepRef k.sfe).trans h.creepRef⟩

theorem SameCreep.creeps_iff (h : SameCreep s u) (n : Nat) : Creeps u n ↔ Creeps s n := by
  obtain ⟨mc, fis, settings, -, creepRef⟩ := h
  unfold Creeps State.chan State.cause
  rw [mc, fis, settings, creepRef]

theorem SameCreep.atRest (h : SameCreep s u) (k : CreepAtRest s) : CreepAtRest u := by
  obtain ⟨-, fis, settings, queue, -⟩ := h
  unfold CreepAtRest State.cause State.causeSetting at *
  rwa [fis, settings, queue]

/-- A count that has not crept is compared without effect. -/
theorem creepCheck_stays (same : SameCreep s u) (k : Calm u w) (hc : ¬ Creeps s u.sfe.rode) : creepCheck send w = w := by
  refine creepCheck_quiet (s := w) fun hw => hc (((same.calm k).creeps_iff _).mp ?_)
  rw [← congrArg Sfe.rode k.sfe]
  exact hw

/-- A count that has crept raises cause 6 at the end of the handling. -/
theorem creepCheck_raises (hu : Undisturbed s) (same : SameCreep s u) (k : Calm u w) (hc : Creeps s u.sfe.rode)
    (hr : CreepAtRest s) : ∃ t, finish (creepCheck send w) = .next t ∧ Raised 6 u t ∧ (t.cause 6).present = true := by
  have samew := same.calm k
  have crept : Creeps w w.sfe.rode := by
    rw [congrArg Sfe.rode k.sfe]
    exact (samew.creeps_iff _).mpr hc
  obtain ⟨-, absent, -⟩ := id crept
  obtain ⟨active, trip, queue⟩ := samew.atRest hr
  obtain ⟨t, hfinish, raised, present, -⟩ := report_finish_events (undisturbed_of hu samew.settings samew.fis) (by decide)
    ⟨active, absent, trip, emptiesQueue_creep queue⟩ k
  rw [creepCheck_report crept]
  exact ⟨t, hfinish, raised, present⟩

/-! ## Pocket edges -/

/-- The part with a pocket counted, or not, and a running stall timer restarted (R58, R63). -/
def countedTo (n : Nat) (s : State) : State :=
  { s with sfe := { s.sfe with
    rode := n
    stall := if s.sfe.stall = none then none else some s.settings.machines.windlass.stallTime } }

theorem gyp_held (go : Go) (hp : s.phase = .heldInReset) (b : Bool) : gypARisingEdge go b s = s := by
  unfold gypARisingEdge
  rw [hp]

/-- A pocket edge in service: AT_RODE_MAX follows the count, and a count that has changed is compared. -/
theorem exec_gyp_running (hn : NoHostEntries s) (hp : s.phase = .running) (b : Bool) :
    let n := nextRode s.pins.home s.settings.machines.windlass.rodeMax s.sfe.rode b
    ∃ w, Silent (countedTo n s) w ∧ w.item Item.atRodeMax = decide (n = s.settings.machines.windlass.rodeMax) ∧
      exec (.gypARisingEdge b) s = finish (if n ≠ s.sfe.rode then creepCheck send w else w) := by
  intro n
  exact ⟨publish send (countedTo n s) Item.atRodeMax, silent_publish quiet_send (s := countedTo n s) hn (by decide),
    item_publish quiet_send (s := countedTo n s) hn (r := Item.atRodeMax) (by unfold Plain; decide) rfl _,
    congrArg finish (gyp_running send hp b)⟩

/-! ## HOME -/

/-- The part with the level of HOME at `v`. -/
def withHome (v : Bool) (s : State) : State := s.onPins fun p => { p with home := v }

theorem homeChange_same (go : Go) {v : Bool} (hv : s.pins.home = v) : homeChange go v s = s := if_pos hv

theorem homeChange_held (go : Go) {v : Bool} (hp : s.phase = .heldInReset) (hv : s.pins.home ≠ v) :
    homeChange go v s = withHome v s := by
  unfold homeChange
  rw [if_neg hv]
  dsimp only
  rw [show (s.onPins fun p => { p with home := v }).phase = .heldInReset from hp]
  rfl

/-- A HOME that closes during initialization decides the count and leaves its RECORDS write to the end of it (R59, R69). -/
theorem homeChange_initializing (go : Go) {v : Bool} (hp : s.phase = .initializing) (hv : s.pins.home ≠ v) :
    homeChange go v s = if v = true then (withHome v s).onSfe fun f =>
      { f with rode := 0, rodeUnknown := false, rodeWriteDue := f.rodeWriteDue || f.rodeUnknown } else withHome v s := by
  unfold homeChange
  rw [if_neg hv]
  dsimp only
  rw [show (s.onPins fun p => { p with home := v }).phase = .initializing from hp]
  rfl

theorem homeChange_opens (go : Go) (hp : s.phase = .running) (hv : s.pins.home = true) :
    homeChange go false s = publish go (withHome false s) Item.atHome := by
  unfold homeChange
  rw [if_neg (by rw [hv]; nofun)]
  dsimp only
  rw [show (s.onPins fun p => { p with home := false }).phase = .running from hp]
  rfl

/-- HOME in its level already, or in a part held in reset, moves its pin alone. -/
theorem exec_home_idle (hrest : StoreAtRest s) {v : Bool} (h : s.phase = .heldInReset ∨ s.pins.home = v) :
    exec (.homeChange v) s = .next (withHome v s) := by
  by_cases hv : s.pins.home = v
  · have same : withHome v s = s := by
      subst hv
      rfl
    rw [same]
    exact (congrArg finish (homeChange_same send hv)).trans (finish_atRest hrest)
  · have held := h.resolve_right hv
    have asleep : (withHome v s).phase ≠ .running := ne_of_eq_of_ne held nofun
    exact (congrArg finish (homeChange_held send held hv)).trans (finish_of_phase asleep)

/-- HOME changes during initialization. -/
theorem exec_home_initializing {v : Bool} (hp : s.phase = .initializing) (hv : s.pins.home ≠ v) :
    exec (.homeChange v) s = .next (if v = true then (withHome v s).onSfe fun f =>
      { f with rode := 0, rodeUnknown := false, rodeWriteDue := f.rodeWriteDue || f.rodeUnknown } else withHome v s) := by
  refine (congrArg finish (homeChange_initializing send hp hv)).trans (finish_of_phase ?_)
  cases v <;> exact ne_of_eq_of_ne hp nofun

/-- HOME opens in service: AT_HOME alone follows. -/
theorem exec_home_opens (hn : NoHostEntries s) (hrest : StoreAtRest s) (hp : s.phase = .running) (hv : s.pins.home = true) :
    ∃ t, exec (.homeChange false) s = .next t ∧ t.item Item.atHome = false ∧ Silent (withHome false s) t := by
  have silent : Silent (withHome false s) (publish send (withHome false s) Item.atHome) :=
    silent_publish quiet_send (s := withHome false s) hn (by decide)
  exact ⟨_, (congrArg finish (homeChange_opens send hp hv)).trans (finish_silent (s := s) silent rfl rfl hrest),
    item_publish quiet_send (s := withHome false s) hn (r := Item.atHome) (by unfold Plain; decide) rfl _, silent⟩

/-! ## The RECORDS write of a HOME that has closed -/

theorem recordsNow_congr (mc : u.mc = s.mc) (fis : u.fis = s.fis) (settings : u.settings = s.settings) (sfe : u.sfe = s.sfe) :
    recordsNow u = recordsNow s := by
  unfold recordsNow State.cause State.causeSetting State.chan
  rw [mc, fis, settings, sfe]

/-- With no write in progress the write of RECORDS, requested at rest, begins at once (R180). -/
theorem beginWrite_records (hp : s.phase = .running) {t : Sto} (hw : t.writing = none) (hq : t.queue = [])
    (hs : s.sto = { t with queue := enqueueWrite .records false t.queue }) :
    (beginWrite s).sto.writing = some { data := .records (recordsNow s), mark := false } := by
  have writing : s.sto.writing = none := by rw [hs]; exact hw
  have queue : s.sto.queue = [(.records, false)] := by rw [hs, hq]; rfl
  unfold beginWrite
  rw [hp, writing, queue]
  rfl

theorem beginWrite_of_writing (hw : s.sto.writing.isSome = true) : beginWrite s = s := beginWrite_atRest fun _ => .inr hw

/-- The RECORDS write of a closing: none when the count was known; else it begins at once, or waits for the write in progress
(R59, R180). -/
theorem closing_store (hrest : StoreAtRest s) (hp : s.phase = .running) (phase : u.phase = s.phase) (k : Calm u w)
    (sto : w.sto = if s.sfe.rodeUnknown then { s.sto with queue := enqueueWrite .records false s.sto.queue } else s.sto) :
    (s.sfe.rodeUnknown = false → (beginWrite w).sto = s.sto) ∧
    (s.sfe.rodeUnknown = true → s.sto.writing = none →
      (beginWrite w).sto.writing = some { data := .records (recordsNow u), mark := false }) ∧
    (s.sfe.rodeUnknown = true → s.sto.writing.isSome = true → isPending .records (beginWrite w).sto.queue = true) := by
  have running : w.phase = .running := (k.phase.trans phase).trans hp
  refine ⟨fun hk => ?_, fun hk hnone => ?_, fun hk hsome => ?_⟩
  · rw [hk, if_neg nofun] at sto
    have atRest : StoreAtRest w := fun _ => by
      rw [sto]
      exact hrest hp
    rw [beginWrite_atRest atRest, sto]
  · rw [hk, if_pos rfl] at sto
    have empty : s.sto.queue = [] := (hrest hp).resolve_right (by rw [hnone]; nofun)
    rw [beginWrite_records running hnone empty sto, recordsNow_congr k.mc k.fis k.settings k.sfe]
  · rw [hk, if_pos rfl] at sto
    rw [beginWrite_of_writing (by rw [sto]; exact hsome), sto]
    exact isPending_enqueueWrite _ _ _

/-- Settles O52: the pocket edges by `exec_gyp_running`, HOME by `home_closes`, and both counts through one creep comparison. -/
theorem pocketsAndHomeDecideTheRode : Obligations.PocketsAndHomeDecideTheRode := by
  intro s hu hrest max creeps rest after
  refine ⟨fun b => ?_, fun v h => exec_home_idle hrest h,
    fun hp hv => exec_home_initializing (v := true) hp (by rw [hv]; nofun),
    fun hp hv => exec_home_initializing (v := false) hp (by rw [hv]; nofun),
    fun hp hv => exec_home_opens hu.1 hrest hp hv, fun hp hv => ?_⟩
  · intro n stall
    refine ⟨fun hp => ?_, fun hp => ?_, fun hp hn => ?_, fun hp hn hc hr => ?_⟩
    · exact (congrArg finish (gyp_held send hp b)).trans (finish_atRest hrest)
    · exact (congrArg finish (gyp_init send hp b)).trans (finish_of_phase (ne_of_eq_of_ne hp nofun))
    · obtain ⟨w, silent, item, hexec⟩ := exec_gyp_running hu.1 hp b
      have stays : (if n ≠ s.sfe.rode then creepCheck send w else w) = w := by
        split
        · rename_i hne
          exact creepCheck_stays ⟨rfl, rfl, rfl, rfl, rfl⟩ silent.calm (hn.resolve_left hne)
        · rfl
      exact ⟨w, (hexec.trans (congrArg finish stays)).trans (finish_silent (s := s) silent rfl rfl hrest), item, silent⟩
    · obtain ⟨w, silent, -, hexec⟩ := exec_gyp_running hu.1 hp b
      rw [hexec.trans (congrArg finish (if_pos hn))]
      exact creepCheck_raises hu ⟨rfl, rfl, rfl, rfl, rfl⟩ silent.calm hc hr
  · obtain ⟨w, hexec, hw, atHome, unknown, atMax, sto⟩ := home_closes hu.1 hp hv
    have calm : Calm after w := by
      unfold Calm
      rw [hw]
    refine ⟨fun hc => ?_, fun hc hr => ?_⟩
    · rw [creepCheck_stays (u := after) ⟨rfl, rfl, rfl, rfl, rfl⟩ calm hc] at hexec
      refine ⟨beginWrite w, hexec, ?_, ?_, ?_, ?_, closing_store hrest hp rfl calm sto⟩
      · rw [beginWrite_item]; exact atHome
      · rw [beginWrite_item]; exact unknown
      · rw [beginWrite_item]; exact atMax
      · rw [beginWrite_eq, hw]
    · rw [hexec]
      exact creepCheck_raises (u := after) hu ⟨rfl, rfl, rfl, rfl, rfl⟩ calm hc hr

end Sys2Proof.Machine
end

section
/-! PROOFS. READ STATIONS and READ AUDIO (O33). -/

namespace Sys2Proof.Machine

/-! ## What a valid frame leaves for READ STATIONS -/

theorem heard_contact (s : State) (c : ContactId) : contactOf (heard s).siq c = contactOf s.siq c := by
  cases c with
  | display m => exact congrArg (fun t : Three ContactRec => t.get m) (heard_display s)
  | reset m => exact congrArg (fun t : Three ContactRec => t.get m) (heard_reset s)
  | key k => exact congrArg (peek · k.val) (heard_keys s)

theorem buttonBytes_heard (s : State) : (heard s).siq.buttonBytes = s.siq.buttonBytes := by
  funext c
  cases c <;> unfold Siq.buttonBytes <;> simp only [heard_contact, heard_longPress]

/-- A hold-to-run input as it is reported, with the number of its running timer, or 0 (R103). -/
theorem holdBytes_eq (x : HoldRec) : x.bytes =
    byte x.state.code ++ flag x.a ++ flag x.b ++ byte (patternOf x.a x.b).code ++
      byte ((x.timer.map fun t => t.1.code).getD 0) ++ optional word (x.timer.map Prod.snd) := by
  unfold HoldRec.bytes
  cases x.timer <;> rfl

theorem zoneOrNone_eq (z : Option Nat) : zoneOrNone z = z.getD 0xFF := by cases z <;> rfl

theorem sourceOrNone_eq (n : Option Nat) : sourceOrNone n = n.getD 3 := by cases n <;> rfl

/-- A table is carried with its size and its entries in order. -/
theorem counted_toList {α : Type} {n : Nat} (f : α → List Byte) (v : Vector α n) :
    counted f v.toList = byte n ++ v.toList.flatMap f := by
  unfold counted
  rw [Vector.length_toList]

/-- The six buttons as they are reported, each reset button with its long-press timer (R103). -/
theorem counted_buttons (q : Siq) : counted q.buttonBytes buttons =
    byte 6 ++ (contactOf q (.display .w)).bytes ++ (contactOf q (.display .p)).bytes ++ (contactOf q (.display .h)).bytes ++
      (contactOf q (.reset .w)).bytes ++ optional word q.longPress.w ++ (contactOf q (.reset .p)).bytes ++
      optional word q.longPress.p ++ (contactOf q (.reset .h)).bytes ++ optional word q.longPress.h := by
  unfold counted buttons machines
  simp [Siq.buttonBytes, Three.get]

/-- The eight guest keys as they are reported (R103). -/
theorem counted_guestKeys (q : Siq) : counted q.buttonBytes guestKeys =
    byte 8 ++ (List.finRange 8).flatMap fun k => (contactOf q (.key k)).bytes := rfl

/-! ## What a valid frame leaves for READ AUDIO -/

theorem source_heard (s : State) (n : Nat) : (heard s).source n = s.source n := by
  unfold State.source; rw [heard_sources]

theorem sourceConfig_heard (s : State) (n : Nat) : (heard s).sourceConfig n = s.sourceConfig n := by
  unfold State.sourceConfig; rw [heard_settings]

theorem clip_heard (s : State) (k : Nat) : (heard s).clip k = s.clip k := by
  unfold State.clip; rw [heard_clips]

theorem announce_heard (s : State) (m : MachineId) : (heard s).announce m = s.announce m := by
  unfold State.announce; rw [heard_settings]

/-- READ AUDIO refuses every part that has no meaning (R139). -/
theorem serveReadAudio_unnamed {b : Byte} (hb : 4 < b.toNat) (s : State) : serveReadAudio b s = refuse .refusedValue s := by
  unfold serveReadAudio
  split <;> first | omega | rfl

/-- A source as it is reported, its FIFO with the capacity and the start fill of its blocks (R139). -/
theorem sourceReport_eq (s : State) (n : Nat) : s.sourceReport n =
    byte (s.source n).state.code ++ byte (s.source n).cls.code ++
      optional (fun y : RateClass × Nat => byte y.1.code ++ byte y.2) (s.source n).candidate ++ word (s.source n).lastCount ++
      word (s.source n).fifo.length ++ word ((s.sourceConfig n).count * 128) ++ word ((s.sourceConfig n).count * 128 / 2) ++
      flag (decide ((s.sourceConfig n).highMark ≤ (s.source n).fifo.length)) ++ flag (s.item (Item.sourceLow n)) ++
      flag (s.item (Item.sourceXrun n)) ++ flag (s.sourceConfig n).enabled ++ byte (s.sourceConfig n).word ++
      flag (s.sourceConfig n).mono ++ byte (s.sourceConfig n).start ++ byte (s.sourceConfig n).count ++
      word (s.sourceConfig n).lowMark ++ word (s.sourceConfig n).highMark := by
  simp only [State.sourceReport, sourceConfigBytes, ← List.append_assoc]
  rfl

/-- A clip slot as it is reported (R153). -/
theorem clipReport_eq (s : State) (k : Nat) : s.clipReport k =
    byte (s.clip k).state.code ++
      (if (s.clip k).state = .empty then [0x00] else 0x01 :: (byte (s.clip k).start ++ byte (s.clip k).count)) ++
      (if (s.clip k).state = .ready then 0x01 :: word (s.clip k).length else [0x00]) ++ flag (s.clipInPlay k) := by
  unfold State.clipReport
  dsimp only
  cases (s.clip k).state <;> rfl

/-- The milliseconds of a number of frames: the whole ones, and one more when a rest rounds up (log entry 7). -/
theorem framesToMs_eq (n : Nat) :
    framesToMs n = n / 48 + if n % 48 ≠ 0 ∧ Config.repeatRestRoundsUp n = true then 1 else 0 := by
  unfold framesToMs framesPerMs
  split <;> rfl

/-- A voice as it is reported, with its place in a play or a page, or the time it still waits (R153). -/
theorem voiceReport_eq (s : State) (z : Nat) : s.voiceReport z =
    counted (fun m => byte (machineCode m)) (s.zone z).list ++ byte (s.zone z).voice.code ++
      optional word (match (s.zone z).voice with
        | .play => some (s.zone z).place
        | .page => s.zae.page.map PageRec.place
        | _ => none) ++
      optional word (match (s.zone z).voice with
        | .repeatWait =>
          let frames := s.headRepeat (s.zone z).list * 48 - (s.zone z).since
          some (frames / 48 + if frames % 48 ≠ 0 ∧ Config.repeatRestRoundsUp frames = true then 1 else 0)
        | _ => none) := by
  unfold State.voiceReport State.voicePlace State.repeatLeft
  simp only [framesToMs_eq]
  cases (s.zone z).voice <;> rfl

/-- Settles O33: each reply is the owner's report, with what a valid frame leaves alone read in the state before it. -/
theorem readStationsAndAudio : Obligations.ReadStationsAndAudio := by
  intro s h
  refine ⟨exec_served h ?_ rfl, fun b hb => exec_refused (x := .refusedValue) h (serveReadAudio_unnamed hb _) rfl,
    exec_served h ?_ rfl, exec_served h ?_ rfl, exec_served h ?_ rfl, exec_served h ?_ rfl, exec_served h ?_ rfl⟩
  · show serveReadStations (heard s) = _
    unfold serveReadStations
    simp only [heard_settings, heard_faulted, buttonBytes_heard, counted_buttons, counted_guestKeys, counted_toList, holdBytes_eq,
      zoneOrNone_eq, heard_levelA, heard_levelB, List.append_assoc]
    rfl
  · show reply .ok (counted (heard s).sourceReport (List.range 3)) (heard s) = _
    simp only [funext (sourceReport_eq (heard s)), source_heard, sourceConfig_heard]
    rfl
  · show reply .ok (counted (heard s).zoneReport zoneIndexes ++ _) (heard s) = _
    unfold State.zoneReport
    simp only [zoneConfig_heard, heard_quiet, heard_duck, announce_heard, sourceOrNone_eq, AnnounceRecord.bytes, zoneOrNone_eq]
    rfl
  · show reply .ok (counted _ (heard s).zae.owners.toList) (heard s) = _
    rw [heard_owners, counted_toList]
    rfl
  · show reply .ok (counted (heard s).clipReport (List.range 16)) (heard s) = _
    simp only [funext (clipReport_eq (heard s)), clip_heard]
    rfl
  · show reply .ok (counted (heard s).voiceReport zoneIndexes ++ _ ++ _ ++ _) (heard s) = _
    rw [funext (voiceReport_eq (heard s))]
    rfl

end Sys2Proof.Machine
end

section
/-! PROOFS. CONFIGURE CAUSE and CONFIGURE STATION (O36). -/

namespace Sys2Proof.Machine

/-! ## CONFIGURE CAUSE -/

section
variable {c k v : Byte} {s : State}

/-- Class and trip enable that CONFIGURE CAUSE names and that cause `c` allows (R112). -/
structure CauseNamed (c : Nat) (k v : Byte) (x : CauseSetting) : Prop where
  cls : classNamed k = some x.cls
  trip : yesNoNamed v = some x.trip
  allowed : classAllowed c x.cls = true
  trips : x.trip = true → x.cls = .latched ∧ tripAllowed c = true

theorem causeNamed_iff (c : Nat) (k v : Byte) (x : CauseSetting) : CauseNamed c k v x ↔
    classNamed k = some x.cls ∧ yesNoNamed v = some x.trip ∧
      (classAllowed c x.cls && (!x.trip || (x.cls == .latched && tripAllowed c))) = true := by
  have trips : (!x.trip || (x.cls == .latched && tripAllowed c)) = true ↔
      (x.trip = true → x.cls = .latched ∧ tripAllowed c = true) := by
    cases x.trip <;> simp
  rw [Bool.and_eq_true, trips]
  exact ⟨fun ⟨cls, trip, allowed, h⟩ => ⟨cls, trip, allowed, h⟩, fun ⟨cls, trip, allowed, h⟩ => ⟨cls, trip, allowed, h⟩⟩

theorem serveConfigureCause_unnamed (hc : 15 < c.toNat) : serveConfigureCause c k v s = refuse .refusedValue s := by
  unfold serveConfigureCause
  rw [index_none (n := 16) hc]

theorem serveConfigureCause_active (hc : c.toNat ≤ 15) (ha : (s.cause c.toNat).active = true) :
    serveConfigureCause c k v s = refuse .refusedState s := by
  unfold serveConfigureCause
  rw [index_some (n := 16) (Nat.lt_succ_of_le hc)]
  exact if_pos ha

theorem serveConfigureCause_taken (hc : c.toNat ≤ 15) (ha : (s.cause c.toNat).active = false) {x : CauseSetting}
    (h : CauseNamed c.toNat k v x) :
    serveConfigureCause c k v s = reply .ok [] (s.onSettings fun y => { y with causes := poke y.causes c.toNat x }) := by
  obtain ⟨cls, trip, allowed⟩ := (causeNamed_iff ..).mp h
  unfold serveConfigureCause
  rw [index_some (n := 16) (Nat.lt_succ_of_le hc), cls, trip]
  dsimp only
  rw [ha, if_neg nofun, if_pos allowed]

theorem serveConfigureCause_barred (hc : c.toNat ≤ 15) (ha : (s.cause c.toNat).active = false)
    (h : ∀ x, ¬ CauseNamed c.toNat k v x) : serveConfigureCause c k v s = refuse .refusedValue s := by
  unfold serveConfigureCause
  rw [index_some (n := 16) (Nat.lt_succ_of_le hc)]
  dsimp only
  rw [ha, if_neg nofun]
  split
  · rename_i x t cls trip
    exact if_neg fun allowed => h { cls := x, trip := t } ((causeNamed_iff ..).mpr ⟨cls, trip, allowed⟩)
  · rfl

theorem classNamed_latched (h : classNamed k = some .latched) : k = 2 := by
  unfold classNamed at h
  split at h
  case h_3 hk => exact BitVec.eq_of_toNat_eq hk
  all_goals cases h

end

/-- CONFIGURE CAUSE in an idle link port (R112). -/
theorem configureCause_judged {s : State} (h : Serving s) (c k v : Byte) :
    (15 < c.toNat → exec (.configureCause c k v) s = refusal 0xB2 0x82 s) ∧
    (c.toNat ≤ 15 → ((heard s).cause c.toNat).active = true → exec (.configureCause c k v) s = refusal 0xB2 0x83 s) ∧
    (c.toNat ≤ 15 → ((heard s).cause c.toNat).active = false →
      ((∀ x, ¬ CauseNamed c.toNat k v x) → exec (.configureCause c k v) s = refusal 0xB2 0x82 s) ∧
      (∀ x, CauseNamed c.toNat k v x → exec (.configureCause c k v) s = .next (answered 0xB2 [0x00]
        { heard s with settings := { s.settings with causes := poke s.settings.causes c.toNat x } }))) := by
  refine ⟨fun hc => exec_refused (x := .refusedValue) h (serveConfigureCause_unnamed hc) rfl,
    fun hc ha => exec_refused (x := .refusedState) h (serveConfigureCause_active hc ha) rfl,
    fun hc ha => ⟨fun hn => ?_, fun x hx => ?_⟩⟩
  · exact exec_refused (x := .refusedValue) h (serveConfigureCause_barred hc ha hn) rfl
  · refine exec_served h ((serveConfigureCause_taken hc ha hx).trans ?_) rfl
    unfold State.onSettings
    rw [heard_settings]
    rfl

/-! ## CONFIGURE STATION -/

section
variable {s : State} {f : StationFields}

/-- The binding byte names a zone, or NONE (R102). -/
theorem bindingNamed_iff (b : Byte) : (indexOrNoneNamed 8 0xFF b).isSome = true ↔ b.toNat ≤ 7 ∨ b = 0xFF := by
  unfold indexOrNoneNamed indexNamed
  rw [← BitVec.toNat_inj (y := 0xFF)]
  show _ ↔ _ ∨ b.toNat = 255
  split
  · next hnone => exact iff_of_true rfl (.inr hnone)
  · next hnone =>
    split
    · next hzone => exact iff_of_true rfl (.inl (Nat.le_of_lt_succ hzone))
    · next hzone => exact iff_of_false nofun (by omega)

theorem bindingNamed_value {b : Byte} (h : b.toNat ≤ 7 ∨ b = 0xFF) :
    (indexOrNoneNamed 8 0xFF b).getD none = if b = 0xFF then none else some b.toNat := by
  by_cases hb : b = 0xFF
  · subst hb; rfl
  · rw [if_neg hb]
    have hlt := h.resolve_right hb
    unfold indexOrNoneNamed
    rw [if_neg (by omega), index_some (Nat.lt_succ_of_le hlt)]
    rfl

theorem toList_all_iff {α : Type} [Inhabited α] {n : Nat} (v : Vector α n) (p : α → Bool) :
    v.toList.all p = true ↔ ∀ k, k < n → p (peek v k) = true := by
  have pk : ∀ k (h : k < n), peek v k = v[k] := fun k h => by unfold peek; simp [h]
  rw [Vector.all_toList, Vector.all_eq_true]
  exact forall₂_congr fun k h => by rw [pk k h]

/-- The station settings that CONFIGURE STATION carries, before they are clamped (R102). -/
def carriedStations (f : StationFields) : StationSettings where
  qualifyTime := f.qualifyTime.toNat
  releaseTime := f.releaseTime.toNat
  disagreeTime := f.disagreeTime.toNat
  bindings := f.bindings.map fun b => (indexOrNoneNamed 8 0xFF b).getD none

/-- Every binding names a zone, or NONE. -/
def BindingsNamed (f : StationFields) : Prop := ∀ k, k < 8 → (peek f.bindings k).toNat ≤ 7 ∨ peek f.bindings k = 0xFF

theorem bindings_all_iff (f : StationFields) :
    (f.bindings.toList.all fun b => (indexOrNoneNamed 8 0xFF b).isSome) = true ↔ BindingsNamed f := by
  rw [toList_all_iff]
  exact forall₂_congr fun k _ => bindingNamed_iff _

theorem stationNamed_some (h : BindingsNamed f) : stationNamed f = some (carriedStations f) := if_pos ((bindings_all_iff f).mpr h)

theorem stationNamed_none (h : ¬ BindingsNamed f) : stationNamed f = none := if_neg (mt (bindings_all_iff f).mp h)

theorem carriedStations_binding (h : BindingsNamed f) {k : Nat} (hk : k < 8) : peek (carriedStations f).bindings k =
    if peek f.bindings k = 0xFF then none else some (peek f.bindings k).toNat := by
  show peek (f.bindings.map _) k = _
  rw [peek_map _ _ _ hk]
  exact bindingNamed_value (h k hk)

theorem stationsClamped_eq_iff (x : StationSettings) : x.clamped = x ↔
    x.clamped.qualifyTime = x.qualifyTime ∧ x.clamped.releaseTime = x.releaseTime ∧ x.clamped.disagreeTime = x.disagreeTime := by
  obtain ⟨q, r, d, z⟩ := x
  simp [StationSettings.clamped]

/-- Every input is RELEASED and no channel runs (R102). -/
def StationsFree (s : State) : Prop := (∀ i, (s.input i).state = .released) ∧ ∀ m, (s.chan m).state.isRunning = false

theorem machines_all_iff (p : MachineId → Bool) : machines.all p = true ↔ ∀ m, p m = true := by
  rw [List.all_eq_true]
  exact ⟨fun h m => h m (by cases m <;> decide), fun h m _ => h m⟩

theorem everyInputReleased_iff (s : State) : s.everyInputReleased = true ↔ ∀ i, (s.input i).state = .released := by
  unfold State.everyInputReleased State.allReleased State.inputState
  rw [machines_all_iff]
  simp only [Bool.and_eq_true, beq_iff_eq]
  refine ⟨fun h i => ?_, fun h m => ⟨h _, h _⟩⟩
  obtain ⟨m, d⟩ := i
  cases d
  · exact (h m).1
  · exact (h m).2

theorem anyRunning_eq_false_iff (s : State) : s.anyRunning = false ↔ ∀ m, (s.chan m).state.isRunning = false := by
  unfold State.anyRunning
  rw [← Bool.not_eq_true', List.not_any_eq_all_not, machines_all_iff]
  exact forall_congr' fun m => (Bool.not_eq_true' _).to_iff

theorem stationsFree_iff (s : State) : (s.everyInputReleased && !s.anyRunning) = true ↔ StationsFree s := by
  rw [Bool.and_eq_true, Bool.not_eq_true', everyInputReleased_iff, anyRunning_eq_false_iff]
  rfl

theorem serveConfigureStation_busy (h : ¬ StationsFree s) : serveConfigureStation f s = refuse .refusedState s :=
  if_neg (mt (stationsFree_iff s).mp h)

theorem serveConfigureStation_unnamed (h : StationsFree s) (hb : ¬ BindingsNamed f) :
    serveConfigureStation f s = refuse .refusedValue s := by
  unfold serveConfigureStation
  rw [if_pos ((stationsFree_iff s).mpr h), stationNamed_none hb]

theorem serveConfigureStation_taken (h : StationsFree s) (hb : BindingsNamed f) :
    serveConfigureStation f s = reply (accepted ((carriedStations f).clamped != carriedStations f)) []
      (s.onSettings fun t => { t with stations := (carriedStations f).clamped }) := by
  unfold serveConfigureStation
  rw [if_pos ((stationsFree_iff s).mpr h), stationNamed_some hb]

end

/-- CONFIGURE STATION taken in an idle link port (R102). -/
theorem configureStation_taken {s : State} {f : StationFields} (h : Serving s) (hfree : StationsFree (heard s)) (hb : BindingsNamed f) :
    exec (.configureStation f) s = .next (answered 0xC0
      [if (carriedStations f).clamped.qualifyTime = f.qualifyTime.toNat ∧
          (carriedStations f).clamped.releaseTime = f.releaseTime.toNat ∧
          (carriedStations f).clamped.disagreeTime = f.disagreeTime.toNat then 0x00 else 0x01]
      { heard s with settings := { s.settings with stations := (carriedStations f).clamped } }) := by
  have status := status_of (b := (carriedStations f).clamped != carriedStations f)
    (bne_iff_ne.trans (not_congr (stationsClamped_eq_iff (carriedStations f))))
  refine exec_served h ((serveConfigureStation_taken hfree hb).trans ?_) rfl
  unfold State.onSettings
  rw [heard_settings]
  exact congrArg _ status

/-- Settles O36: each request by what its owner judges, `CauseNamed` for the one and `StationsFree` with `BindingsNamed` for the other. -/
theorem configureCauseAndStation : Obligations.ConfigureCauseAndStation := by
  refine fun s h => ⟨fun c k v => ?_, fun f => ⟨fun hbusy => ?_, fun hreleased hstopped => ⟨fun hbad => ?_, fun hb => ?_⟩⟩⟩
  · obtain ⟨unnamed, active, judged⟩ := configureCause_judged h c k v
    refine ⟨unnamed, active, fun hc ha => ⟨fun hx => (judged hc ha).1 fun x named => ?_, fun x hx hallowed hv => ?_⟩⟩
    · obtain ⟨cls, trip, allowed, trips⟩ := named
      rcases hx with hx | hx | ⟨y, hy, hx⟩ | ⟨rfl, hx⟩
      · rw [cls] at hx; cases hx
      · rw [trip] at hx; cases hx
      · obtain rfl : x.cls = y := Option.some.inj (cls.symm.trans hy)
        rw [allowed] at hx; cases hx
      · obtain ⟨latched, mayTrip⟩ := trips (Option.some.inj (trip.symm.trans rfl))
        rcases hx with hx | hx
        · exact hx (classNamed_latched (latched ▸ cls))
        · rw [mayTrip] at hx; cases hx
    · refine (judged hc ha).2 { cls := x, trip := v == 1 } ⟨hx, ?_, hallowed, fun ht => ?_⟩
      · rcases hv with rfl | ⟨rfl, -⟩ <;> rfl
      · rcases hv with rfl | ⟨-, latched, mayTrip⟩
        · cases ht
        · exact ⟨latched, mayTrip⟩
  · refine exec_refused (x := .refusedState) h (serveConfigureStation_busy fun ⟨released, stopped⟩ => ?_) rfl
    rcases hbusy with ⟨i, hi⟩ | ⟨m, hm⟩
    · exact hi (released i)
    · rw [stopped m] at hm; cases hm
  · obtain ⟨k, hk, hzone, hnone⟩ := hbad
    have unnamed : ¬ BindingsNamed f := fun hb => (hb k hk).elim (Nat.not_le_of_lt hzone) hnone
    exact exec_refused (x := .refusedValue) h (serveConfigureStation_unnamed ⟨hreleased, hstopped⟩ unnamed) rfl
  · exact ⟨(carriedStations f).clamped, rfl, rfl, rfl, fun k hk => carriedStations_binding hb hk,
      configureStation_taken h ⟨hreleased, hstopped⟩ hb⟩

end Sys2Proof.Machine
end

section
/-! PROOFS. Buttons and guest keys: debouncing, and what a press does (O56). -/

namespace Sys2Proof.Machine

variable {s u w : State} {c : ContactId} {m : MachineId}

/-! ## The level of a contact -/

/-- The part with the record `x` of the contact `c`. -/
def withContact (c : ContactId) (x : ContactRec) (s : State) : State := { s with siq := setContact c x s.siq }

@[simp] theorem withContact_self (c : ContactId) (s : State) : withContact c (contactOf s.siq c) s = s := by
  have same : setContact c (contactOf s.siq c) s.siq = s.siq := by
    match c with
    | .display m => cases m <;> rfl
    | .reset m => cases m <;> rfl
    | .key k =>
      show { s.siq with keys := poke s.siq.keys k.val (peek s.siq.keys k.val) } = s.siq
      rw [poke_peek]
  unfold withContact
  rw [same]

theorem buttonLevelChange_same {v : Bool} (hv : (contactOf s.siq c).closed = v) : buttonLevelChange c v s = s := if_pos hv

/-- Outside service the level alone is kept. -/
theorem buttonLevelChange_asleep (hp : s.phase ≠ .running) (v : Bool) :
    buttonLevelChange c v s = withContact c { contactOf s.siq c with closed := v } s := by
  by_cases hv : (contactOf s.siq c).closed = v
  · subst hv
    exact (buttonLevelChange_same rfl).trans (withContact_self c s).symm
  · unfold buttonLevelChange
    dsimp only
    rw [if_neg hv, if_neg hp]
    rfl

/-- In service the debounce timer runs while level and debounced state differ; one that runs already is not started again (R98). -/
theorem buttonLevelChange_running (hp : s.phase = .running) {v : Bool} (hv : (contactOf s.siq c).closed ≠ v) :
    buttonLevelChange c v s = withContact c { contactOf s.siq c with
      closed := v
      debounce := if v = (contactOf s.siq c).pressed then none
        else some ((contactOf s.siq c).debounce.getD s.settings.stations.qualifyTime) } s := by
  unfold buttonLevelChange ContactRec.withLevel
  dsimp only
  rw [if_neg hv, if_pos hp]
  cases (contactOf s.siq c).debounce <;> rfl

/-! ## The debounced state -/

/-- The part once the debounced state of the contact has taken the level, before its item follows (R98). -/
def settled (c : ContactId) (s : State) : State :=
  withContact c { contactOf s.siq c with
    pressed := (contactOf s.siq c).closed
    debounce := none
    armed := (contactOf s.siq c).armed || !(contactOf s.siq c).closed } s

/-- The settled part with the item of the contact published (R97). -/
def shown (c : ContactId) (s : State) : State := publishAll send (contactItems c) (settled c s)

theorem debounce_idle (go : Go) (h : (contactOf s.siq c).debounce = none) : debounceTimerExpiry go c s = s := by
  unfold debounceTimerExpiry
  dsimp only
  rw [h]
  rfl

/-- What an expiry of the debounce timer does: the press of an armed contact, or a release, after the item (R98). -/
theorem debounce_runs (h : (contactOf s.siq c).debounce ≠ none) : debounceTimerExpiry send c s =
    if (contactOf s.siq c).closed then
      (if (contactOf s.siq c).armed then contactPress send c (shown c s) else shown c s)
    else contactRelease c (shown c s) :=
  if_pos (Option.isSome_iff_ne_none.mpr h)

theorem debounce_press (h : (contactOf s.siq c).debounce ≠ none)
    (hp : (contactOf s.siq c).closed = true ∧ (contactOf s.siq c).armed = true) :
    debounceTimerExpiry send c s = contactPress send c (shown c s) := by
  rw [debounce_runs h, if_pos hp.1, if_pos hp.2]

theorem debounce_unarmed (h : (contactOf s.siq c).debounce ≠ none) (hc : (contactOf s.siq c).closed = true)
    (ha : (contactOf s.siq c).armed = false) : debounceTimerExpiry send c s = shown c s := by
  rw [debounce_runs h, if_pos hc, ha, if_neg nofun]

theorem debounce_release (h : (contactOf s.siq c).debounce ≠ none) (hc : (contactOf s.siq c).closed = false) :
    debounceTimerExpiry send c s = contactRelease c (shown c s) := by
  rw [debounce_runs h, hc, if_neg nofun]

/-- Without a press, a contact whose release does nothing moves its item alone. -/
theorem debounce_noPress (h : (contactOf s.siq c).debounce ≠ none) (hr : ∀ w, contactRelease c w = w)
    (hp : ¬ ((contactOf s.siq c).closed = true ∧ (contactOf s.siq c).armed = true)) : debounceTimerExpiry send c s = shown c s := by
  cases hc : (contactOf s.siq c).closed with
  | true => exact debounce_unarmed h hc (Bool.eq_false_iff.mpr fun ha => hp ⟨hc, ha⟩)
  | false => exact (debounce_release h hc).trans (hr _)

theorem silent_shown (hn : NoHostEntries s) (c : ContactId) : Silent (settled c s) (shown c s) :=
  silent_publishAll quiet_send (s := settled c s) hn _ fun r hr => (contact_plain c r hr).1

theorem contactOf_setContact (c : ContactId) (x : ContactRec) (q : Siq) : contactOf (setContact c x q) c = x := by
  match c with
  | .display m => exact Three.get_set_same ..
  | .reset m => exact Three.get_set_same ..
  | .key k => exact peek_poke_same _ k.isLt _

/-- The item of a button reads its debounced state (R97). -/
theorem itemNow_contact {r : ItemRef} (hr : r ∈ contactItems c) (s : State) : s.itemNow r = (contactOf s.siq c).pressed := by
  match c, hr with
  | .display m, hr =>
    obtain rfl := List.mem_singleton.mp hr
    cases m <;> rfl
  | .reset m, hr =>
    obtain rfl := List.mem_singleton.mp hr
    cases m <;> rfl

/-- The item of a button follows its level (R97, R98). -/
theorem item_shown (hn : NoHostEntries s) {r : ItemRef} (hr : r ∈ contactItems c) :
    (shown c s).item r = (contactOf s.siq c).closed := by
  have now : (settled c s).itemNow r = (contactOf s.siq c).closed := by
    rw [itemNow_contact hr]
    exact congrArg ContactRec.pressed (contactOf_setContact ..)
  refine (item_publishAll_mem quiet_send r _ (contact_plain c) hr (s := settled c s) hn fun t ht => ?_).trans now
  rw [itemNow_contact hr, itemNow_contact hr, ht]

theorem item_seu (h : u.seu = s.seu) (r : ItemRef) : u.item r = s.item r := by
  unfold State.item; rw [h]

/-! ## Display buttons -/

/-- A display that moves after items alone leaves all but the indicators and the status unit as they were. -/
theorem DisplayOnly.of_silent {b : State} (k : Silent b w) (h : DisplayOnly m w u) :
    u = { b with seu := u.seu, ind := u.ind } ∧ u.seu = w.seu ∧ ∀ n, n ≠ m → u.display n = b.display n := by
  obtain ⟨only, others, -⟩ := h
  have ind : w.ind = b.ind := by rw [k]
  refine ⟨?_, by rw [only], fun n hn => (others n hn).trans ?_⟩
  · rw [only, k]
  · unfold State.display
    rw [ind]

theorem ActSpec.of_silent {b : State} {d : DisplayRec} (k : Silent b w) (h : ActSpec w m d) : ActSpec b m d := by
  rw [k] at h
  exact h

/-- The debounce expiry of a display button. -/
theorem displayButton_debounced (hrest : StoreAtRest s) (hn : NoHostEntries s)
    (hruns : (contactOf s.siq (.display m)).debounce ≠ none) :
    let x := contactOf s.siq (.display m)
    let press := x.closed = true ∧ x.armed = true
    let t := debounceTimerExpiry send (.display m) s
    finish t = .next t ∧ t.item (Item.displayButton m) = x.closed ∧ (¬ press → Silent (settled (.display m) s) t) ∧
      (press → t = { settled (.display m) s with seu := t.seu, ind := t.ind } ∧ (∀ k, k ≠ m → t.display k = s.display k) ∧
        ActSpec s m (t.display m)) := by
  intro x press t
  have silent := silent_shown hn (.display m)
  have item := item_shown (c := .display m) hn (List.mem_singleton.mpr rfl)
  by_cases hp : press
  · have pressed : t = activate m (shown (.display m) s) := debounce_press hruns hp
    obtain ⟨only, seu, others⟩ := (displayOnly_activate m _).of_silent silent
    rw [pressed]
    have acts : ActSpec (settled (.display m) s) m ((activate m (shown (.display m) s)).display m) :=
      (activate_spec m _).of_silent silent
    have atRest : StoreAtRest (activate m (shown (.display m) s)) := by
      rw [only]
      exact hrest
    exact ⟨finish_atRest atRest, (item_seu seu _).trans item, fun h => absurd hp h, fun _ => ⟨only, others, acts⟩⟩
  · have still : t = shown (.display m) s := debounce_noPress hruns (fun _ => rfl) hp
    rw [still]
    exact ⟨finish_silent (s := s) silent rfl rfl hrest, item, fun _ => silent, fun h => absurd h hp⟩

/-! ## Reset buttons -/

theorem Silent.setLongPress (k : Silent s w) (m : MachineId) (n : Timer) : Silent (setLongPress m n s) (setLongPress m n w) := by
  unfold Silent at k ⊢
  rw [k]
  rfl

/-- The debounce expiry of a reset button: its press starts the long-press timer, its release stops it (R100). -/
theorem resetButton_debounced (hrest : StoreAtRest s) (hn : NoHostEntries s)
    (hruns : (contactOf s.siq (.reset m)).debounce ≠ none) :
    let x := contactOf s.siq (.reset m)
    let b := settled (.reset m) s
    let t := debounceTimerExpiry send (.reset m) s
    finish t = .next t ∧ t.item (Item.resetButton m) = x.closed ∧
      (x.closed = true ∧ x.armed = true → Silent (setLongPress m (some 3000) b) t) ∧
      (x.closed = true → x.armed = false → Silent b t) ∧ (x.closed = false → Silent (setLongPress m none b) t) := by
  intro x b t
  have silent := silent_shown hn (.reset m)
  have item := item_shown (c := .reset m) hn (List.mem_singleton.mpr rfl)
  have moved : ∀ {a w : State}, t = w → Silent a w → a.phase = s.phase → a.sto = s.sto → w.seu = (shown (.reset m) s).seu →
      finish t = .next t ∧ t.item (Item.resetButton m) = x.closed ∧ Silent a t := by
    rintro a _ rfl k phase sto seu
    exact ⟨finish_silent k phase sto hrest, (item_seu seu _).trans item, k⟩
  cases hc : x.closed with
  | false =>
    obtain ⟨finishes, item, released⟩ := moved (debounce_release hruns hc) (silent.setLongPress m none) rfl rfl rfl
    exact ⟨finishes, item.trans hc, nofun, nofun, fun _ => released⟩
  | true =>
    cases ha : x.armed with
    | false =>
      obtain ⟨finishes, item, unarmed⟩ := moved (debounce_unarmed hruns hc ha) silent rfl rfl rfl
      exact ⟨finishes, item.trans hc, nofun, fun _ _ => unarmed, nofun⟩
    | true =>
      obtain ⟨finishes, item, pressed⟩ := moved (debounce_press hruns ⟨hc, ha⟩) (silent.setLongPress m (some 3000)) rfl rfl rfl
      exact ⟨finishes, item.trans hc, fun _ => pressed, nofun, nofun⟩

/-! ## Guest keys -/

theorem guestKeyPress_unbound (go : Go) {k : Nat} (h : peek s.settings.stations.bindings k = none) :
    guestKeyPress go k s = queueEvent (.guestKey k none) s := by
  unfold guestKeyPress
  rw [h]

theorem guestKeyPress_bound (go : Go) {k z : Nat} (h : peek s.settings.stations.bindings k = some z) :
    guestKeyPress go k s = queueEvent (.guestKey k (some (z, ((setZoneQuiet go z (!(s.zone z).quiet) s).zone z).quiet)))
      (setZoneQuiet go z (!(s.zone z).quiet) s) := by
  unfold guestKeyPress
  rw [h]

theorem plain_quiet {z : Nat} (hz : z < 8) :
    (Item.quiet z ∉ builtInItems ∧ (Item.quiet z).exists = true) ∧
      Item.quiet z ∉ Item.paging :: (zoneIndexes.map Item.announcing ++ [Item.toneAny]) := by
  have all : ∀ k : Fin 8, (Item.quiet k.val ∉ builtInItems ∧ (Item.quiet k.val).exists = true) ∧
      Item.quiet k.val ∉ Item.paging :: (zoneIndexes.map Item.announcing ++ [Item.toneAny]) := by decide
  exact all ⟨z, hz⟩

/-- A toggled QUIET of a zone: its item follows, and the lists are reconsidered with it (R131, R137). -/
theorem setZoneQuiet_toggled (hn : NoHostEntries s) {z : Nat} (hz : z < 8) :
    let v := !(s.zone z).quiet
    let t := setZoneQuiet send z v s
    Relisted (setZone z { s.zone z with quiet := v } s) t ∧ (t.zone z).quiet = v ∧ t.item (Item.quiet z) = v := by
  intro v t
  let b := setZone z { s.zone z with quiet := v } s
  have nb : NoHostEntries b := hn
  obtain ⟨⟨plain, named⟩, aside⟩ := plain_quiet hz
  have quiet : (b.zone z).quiet = v := by rw [setZone_zone, if_pos ⟨rfl, hz⟩]
  have silent : Silent b (publish send b (Item.quiet z)) := silent_publish quiet_send nb plain
  have item : (publish send b (Item.quiet z)).item (Item.quiet z) = v := by
    rw [item_publish quiet_send nb plain named, if_pos rfl]
    show (if 8 + z < 8 then _ else (b.zone (8 + z - 8)).quiet) = v
    rw [if_neg (by omega), Nat.add_sub_cancel_left, quiet]
  have np : NoHostEntries (publish send b (Item.quiet z)) := nb.of_settings (by rw [silent])
  have toggles : t = reconsiderLists send (publish send b (Item.quiet z)) := if_neg (Bool.self_ne_not _)
  have relisted : Relisted b t := toggles ▸ (relisted_reconsiderLists quiet_send cascades_send np).of_silent silent
  refine ⟨relisted, (relisted.kept z hz).1.trans quiet, ?_⟩
  rw [toggles, item_reconsiderLists_other quiet_send np _ aside, item]

/-- The debounce expiry of a guest key (R101). -/
theorem guestKey_debounced (hn : NoHostEntries s) {k : Fin 8} (hruns : (contactOf s.siq (.key k)).debounce ≠ none) :
    let x := contactOf s.siq (.key k)
    let press := x.closed = true ∧ x.armed = true
    let b := settled (.key k) s
    let t := debounceTimerExpiry send (.key k) s
    (¬ press → t = b) ∧
      (press → peek s.settings.stations.bindings k.val = none → t = queueEvent (.guestKey k.val none) b) ∧
      (press → ∀ z, z < 8 → peek s.settings.stations.bindings k.val = some z →
        (t.zone z).quiet = !(s.zone z).quiet ∧ t.item (Item.quiet z) = !(s.zone z).quiet ∧ t.siq = b.siq ∧
          Relisted (setZone z { s.zone z with quiet := !(s.zone z).quiet } b) t ∧
          (t.seu.events.length < 32 → .guestKey k.val (some (z, !(s.zone z).quiet)) ∈ t.seu.events.map Event.kind)) := by
  intro x press b t
  have pressed : press → t = guestKeyPress send k.val b := debounce_press hruns
  refine ⟨debounce_noPress hruns fun _ => rfl, fun hp hz => (pressed hp).trans (guestKeyPress_unbound (s := b) send hz),
    fun hp z hz hbound => ?_⟩
  obtain ⟨relisted, quiet, item⟩ := setZoneQuiet_toggled (s := b) hn hz
  have queued : t = _ := (pressed hp).trans (guestKeyPress_bound (s := b) send hbound)
  rw [quiet] at queued
  rw [queued]
  refine ⟨quiet, item, ?_, relisted.queueEvent _, kind_queued _ _ _ (List.prefix_refl _)⟩
  obtain ⟨-, -, -, -, -, -, -, -, siq, -⟩ := relisted.others
  exact siq

/-- Settles O56: the level by the three cases of `buttonLevelChange`, the expiry by one lemma for each kind of contact. -/
theorem contactsAreDebouncedAndPressed : Obligations.ContactsAreDebouncedAndPressed := by
  intro s c hrest
  refine ⟨fun v hv => ?_, fun v hp => ?_, fun v hp hv => ?_, fun hidle => ?_, fun hruns hn => ?_⟩
  · exact (congrArg finish (buttonLevelChange_same hv)).trans (finish_atRest hrest)
  · exact (congrArg finish (buttonLevelChange_asleep hp v)).trans (finish_of_phase hp)
  · exact (congrArg finish (buttonLevelChange_running hp hv)).trans (finish_atRest (s := withContact c _ s) hrest)
  · exact (congrArg finish (debounce_idle send hidle)).trans (finish_atRest hrest)
  · cases c with
    | display m =>
      obtain ⟨finishes, display⟩ := displayButton_debounced hrest hn hruns
      refine ⟨_, finishes, ?_, nofun, nofun⟩
      rintro _ ⟨⟩
      exact display
    | reset m =>
      obtain ⟨finishes, reset⟩ := resetButton_debounced hrest hn hruns
      refine ⟨_, finishes, nofun, ?_, nofun⟩
      rintro _ ⟨⟩
      exact reset
    | key k =>
      obtain ⟨noPress, unbound, bound⟩ := guestKey_debounced hn hruns
      refine ⟨_, rfl, nofun, nofun, ?_⟩
      rintro _ ⟨⟩
      refine ⟨fun hp => ?_, fun hp hz => ?_, fun hp z hz hbound => ?_⟩
      · exact (congrArg beginWrite (noPress hp)).trans (beginWrite_atRest (s := settled _ s) hrest)
      · exact (congrArg beginWrite (unbound hp hz)).trans (beginWrite_atRest (s := queueEvent _ (settled _ s)) hrest)
      · obtain ⟨quiet, item, siq, relisted, queued⟩ := bound hp z hz hbound
        generalize debounceTimerExpiry send (.key k) s = u at *
        have zone : ((beginWrite u).zone z) = u.zone z := by unfold State.zone; rw [beginWrite_zae]
        refine ⟨(congrArg ZoneRec.quiet zone).trans quiet, (beginWrite_item u _).trans item, (beginWrite_siq u).trans siq,
          relisted.of_sto (beginWrite_eq u), ?_⟩
        rw [beginWrite_seu]
        exact queued

end Sys2Proof.Machine
end

section
/-! PROOFS. What a valid frame does to the link supervision and to LINK_LOST (O11). -/

namespace Sys2Proof.Machine

/-! ## What follows the told state -/

/-- An item already at its owner's value is published without effect (R164). -/
theorem publish_current (go : Go) {s : State} {r : ItemRef} (h : s.item r = s.itemNow r) : publish go s r = s := if_pos (.inl h)

/-- The state in which the condition of LINK_LOST is looked at: LINK_OK has been published. -/
def linkOkTold (s : State) : State := publish send (toldOfFrame s) Item.linkOk

theorem linkOkTold_cascade (s : State) : Cascade (toldOfFrame s) (linkOkTold s) := cascade_publish cascades_send _ (.refl _)

theorem linkOkTold_present (s : State) : ((linkOkTold s).cause causeLinkLost).present = (s.cause causeLinkLost).present :=
  (linkOkTold_cascade s).causePresent (by decide) (by decide)

theorem heard_of_absent {s : State} (h : (s.cause causeLinkLost).present = false) : heard s = linkOkTold s :=
  if_neg (c := ((linkOkTold s).cause causeLinkLost).present = true) (by rw [linkOkTold_present, h]; nofun)

theorem heard_of_present {s : State} (h : (s.cause causeLinkLost).present = true) :
    heard s = report send causeLinkLost false (linkOkTold s) :=
  if_pos (c := ((linkOkTold s).cause causeLinkLost).present = true) (by rw [linkOkTold_present, h])

/-- With LINK_OK true and the condition absent a valid frame changes the link port alone. -/
theorem heard_link_alone {s : State} (hok : s.item Item.linkOk = true) (h : (s.cause causeLinkLost).present = false) :
    heard s = toldOfFrame s :=
  (heard_of_absent h).trans (publish_current send (s := toldOfFrame s) hok)

/-! ## LINK_LOST -/

/-- Cause 13 affects no machine, so no input holds its clear back (R108). -/
theorem linkLost_affects (s : State) (m : MachineId) : s.affects causeLinkLost m = false := rfl

theorem linkBack_cause (s : State) : (linkBack s).cause causeLinkLost = { s.cause causeLinkLost with present := false } := by
  unfold linkBack
  rw [setCause_cause, if_pos ⟨rfl, by decide⟩]

/-- The condition of LINK_LOST goes absent while the cause is active and of class SELF: it is cleared (R108). -/
theorem linkLost_clears {s : State} (ha : (s.cause causeLinkLost).active = true) (hc : (s.causeSetting causeLinkLost).cls = .self) :
    report send causeLinkLost false s = clearCause send causeLinkLost .self (linkBack s) := by
  show trySelfClear send causeLinkLost (linkBack s) = _
  unfold trySelfClear
  rw [linkBack_cause, if_pos]
  refine ⟨ha, hc, rfl, List.all_eq_true.mpr fun m _ => ?_⟩
  rw [linkLost_affects, Bool.not_false, Bool.true_or]

theorem linkLost_absent (s : State) : ((report send causeLinkLost false s).cause causeLinkLost).present = false := by
  rw [(report_absent causeLinkLost s).causePresent (by decide) (by decide)]
  exact congrArg CauseRec.present (linkBack_cause s)

/-- An active LINK_LOST of class SELF still stands when LINK_OK has been published, since its condition does. -/
theorem heard_clears {s : State} (hp : (s.cause causeLinkLost).present = true) (ha : (s.cause causeLinkLost).active = true)
    (hc : (s.causeSetting causeLinkLost).cls = .self) :
    heard s = clearCause send causeLinkLost .self (linkBack (linkOkTold s)) := by
  obtain ⟨active, -, -⟩ := (linkOkTold_cascade s).causeStands (c := causeLinkLost) (by decide) (by decide) ha hp
  have class_kept : (linkOkTold s).causeSetting causeLinkLost = s.causeSetting causeLinkLost := by
    unfold State.causeSetting
    rw [(linkOkTold_cascade s).settings]
    rfl
  exact (heard_of_present hp).trans (linkLost_clears active (class_kept ▸ hc))

theorem causeRec_eq {x : CauseRec} {active present : Bool} {raisedAt : Option Nat} (ha : x.active = active)
    (hp : x.present = present) (hr : x.raisedAt = raisedAt) : x = { active, present, raisedAt } := by
  subst ha hp hr
  rfl

/-- Settles O11: what stays after a valid frame by `heard_keeps`, the condition by `linkLost_absent`, the clear by `heard_clears`. -/
theorem validFrameSupervisesTheLink : Obligations.ValidFrameSupervisesTheLink := by
  intro s
  have absent (hp : (s.cause causeLinkLost).present = true) : ((heard s).cause causeLinkLost).present = false := by
    rw [heard_of_present hp]
    exact linkLost_absent _
  refine ⟨heard_slp s, fun hok hp => by rw [heard_link_alone hok hp]; rfl, absent, fun hp ha hc => ?_,
    heard_phase s, heard_now s, heard_pins s, heard_settings s, heard_rode s, heard_position s, heard_memory s, heard_clips s,
    heard_sources s⟩
  have cleared := heard_clears hp ha hc
  obtain ⟨inactive, raisedAt⟩ := (clearing_clearCause cascades_send causeLinkLost .self (linkBack (linkOkTold s))).gone causeLinkLost
    List.mem_cons_self (by decide) (by decide)
  rw [← cleared] at inactive raisedAt
  refine ⟨causeRec_eq inactive (absent hp) raisedAt, fun hlen => ?_⟩
  rw [cleared] at hlen ⊢
  exact cleared_event cascades_send causeLinkLost .self _ hlen

end Sys2Proof.Machine
end

section
/-! PROOFS. What a change of an item does to the watches of its group (O18). -/

namespace Sys2Proof.Machine

variable {s t : State} {g : Group} {i j : Nat} {old : Bool}

/-! ## One watch -/

theorem edgeMatches_iff (e : WatchEdge) (new : Bool) : edgeMatches e new = true ↔ e = .both ∨ e = (if new then .rise else .fall) := by
  cases e <;> cases new <;> decide

theorem edgeMatches_against {e : WatchEdge} {new : Bool} (h : e = (if new then .fall else .rise)) : edgeMatches e new = false := by
  subst h
  cases new <;> rfl

/-- Watch `i` is armed with the last value `old` and watches the group. -/
structure WatchArmed (g : Group) (i : Nat) (old : Bool) (s : State) : Prop where
  last : (peek s.seu.watches i).last = some old
  group : (peek s.seu.watches i).group = g

/-- Watch `i` is disarmed, or it watches another group. -/
def WatchAside (g : Group) (i : Nat) (s : State) : Prop :=
  (peek s.seu.watches i).last = none ∨ (peek s.seu.watches i).group ≠ g

theorem watchAside_or_armed (g : Group) (i : Nat) (s : State) : WatchAside g i s ∨ ∃ old, WatchArmed g i old s := by
  unfold WatchAside
  by_cases hg : (peek s.seu.watches i).group = g
  · cases hl : (peek s.seu.watches i).last with
    | none => exact .inl (.inl rfl)
    | some old => exact .inr ⟨old, hl, hg⟩
  · exact .inl (.inr hg)

/-- The combined value of watch `i` over the items as they stand. -/
def State.watchValue (s : State) (g : Group) (i : Nat) : Bool :=
  combined (peek s.seu.watches i).combine (peek s.seu.watches i).items (s.groupWord g)

/-- The event queue with the event of watch `i` at its tail. -/
def State.withWatchEvent (s : State) (g : Group) (i : Nat) : List Event :=
  pushEvent { kind := .watch i (s.watchValue g i) (s.groupWord g), time := s.now, lost := false } s.seu.events

theorem evalWatch_aside (h : WatchAside g i s) : evalWatch g s i = s := by
  unfold evalWatch
  dsimp only
  split
  · rfl
  · rename_i hl
    exact if_neg (h.resolve_left (by rw [hl]; nofun))

/-- The value that an armed watch holds already is no change (R168). -/
theorem evalWatch_same (h : WatchArmed g i old s) (hv : s.watchValue g i = old) : evalWatch g s i = s := by
  unfold evalWatch
  dsimp only
  rw [h.last]
  dsimp only
  rw [if_pos h.group]
  exact if_pos hv

/-- An armed watch at a new value holds it, and queues its event when the value moves along its edge (R168). -/
theorem evalWatch_moved (h : WatchArmed g i old s) (hv : s.watchValue g i ≠ old) :
    evalWatch g s i = s.onSeu fun x => { x with
      events := if edgeMatches (peek s.seu.watches i).edge (s.watchValue g i) = true then s.withWatchEvent g i else x.events
      watches := poke x.watches i { peek s.seu.watches i with last := some (s.watchValue g i) } } := by
  unfold evalWatch
  dsimp only
  rw [h.last]
  dsimp only
  rw [if_pos h.group]
  refine (if_neg hv).trans ?_
  change (if edgeMatches _ (s.watchValue g i) = true then _ else _ : State).onSeu _ = _
  split <;> rfl

/-- An armed watch holds its combined value once it has been evaluated. -/
theorem evalWatch_watches (h : WatchArmed g i old s) :
    (evalWatch g s i).seu.watches = poke s.seu.watches i { peek s.seu.watches i with last := some (s.watchValue g i) } := by
  by_cases hv : s.watchValue g i = old
  · rw [evalWatch_same h hv, hv, ← h.last, poke_peek]
  · rw [evalWatch_moved h hv]
    rfl

theorem evalWatch_events_same (h : WatchArmed g i old s) (hv : s.watchValue g i = old) :
    (evalWatch g s i).seu.events = s.seu.events := by rw [evalWatch_same h hv]

theorem evalWatch_events_along (h : WatchArmed g i old s) (hv : s.watchValue g i ≠ old)
    (he : edgeMatches (peek s.seu.watches i).edge (s.watchValue g i) = true) :
    (evalWatch g s i).seu.events = s.withWatchEvent g i := by
  rw [evalWatch_moved h hv]
  exact if_pos he

theorem evalWatch_events_against (h : WatchArmed g i old s) (hv : s.watchValue g i ≠ old)
    (he : edgeMatches (peek s.seu.watches i).edge (s.watchValue g i) = false) :
    (evalWatch g s i).seu.events = s.seu.events := by
  rw [evalWatch_moved h hv]
  exact if_neg (by rw [he]; nofun)

theorem evalWatch_other (g : Group) (s : State) (hij : i ≠ j) : peek (evalWatch g s i).seu.watches j = peek s.seu.watches j := by
  rcases watchAside_or_armed g i s with h | ⟨old, h⟩
  · rw [evalWatch_aside h]
  · rw [evalWatch_watches h, peek_poke_other _ hij]

/-- The records that waited stay in front while a watch is evaluated (R169). -/
theorem evalWatch_kinds (g : Group) (s : State) (i : Nat) :
    s.seu.events.map Event.kind <+: (evalWatch g s i).seu.events.map Event.kind := by
  rcases watchAside_or_armed g i s with h | ⟨old, h⟩
  · rw [evalWatch_aside h]
  · by_cases hv : s.watchValue g i = old
    · rw [evalWatch_events_same h hv]
    · cases he : edgeMatches (peek s.seu.watches i).edge (s.watchValue g i)
      · rw [evalWatch_events_against h hv he]
      · rw [evalWatch_events_along h hv he]
        exact pushEvent_kinds _ _

/-! ## The watches of a group, in index order -/

/-- The evaluation of watches other than `i` has led from `s` to `t`: the items and watch `i` are as they were, and the records that
waited stay in front. -/
structure WatchUntouched (i : Nat) (s t : State) : Prop where
  items : t.seu.items = s.seu.items
  watch : peek t.seu.watches i = peek s.seu.watches i
  kinds : s.seu.events.map Event.kind <+: t.seu.events.map Event.kind

theorem watchUntouched_foldl (g : Group) (s : State) {xs : List Nat} (hi : i ∉ xs) : WatchUntouched i s (xs.foldl (evalWatch g) s) :=
  List.foldlRecOn xs (evalWatch g) (motive := WatchUntouched i s) ⟨rfl, rfl, List.prefix_refl _⟩ fun t ht k hk =>
    ⟨(evalWatch_items g t k).trans ht.items, (evalWatch_other g t (ne_of_mem_of_not_mem hk hi)).trans ht.watch,
      ht.kinds.trans (evalWatch_kinds g t k)⟩

/-- Each watch has one turn, and what stands before and after it leaves the watch alone. -/
theorem evalWatches_turn (g : Group) (s : State) (hi : i < 8) :
    ∃ u, WatchUntouched i s u ∧ WatchUntouched i (evalWatch g u i) (evalWatches g s) := by
  obtain ⟨before, after, order⟩ := List.append_of_mem (List.mem_range.mpr hi)
  have distinct : (before ++ i :: after).Nodup := order ▸ List.nodup_range
  obtain ⟨-, hafter, apart⟩ := List.nodup_append.mp distinct
  refine ⟨before.foldl (evalWatch g) s, watchUntouched_foldl g s fun h => apart i h i List.mem_cons_self rfl, ?_⟩
  have turns : evalWatches g s = after.foldl (evalWatch g) (evalWatch g (before.foldl (evalWatch g) s) i) := by
    unfold evalWatches
    rw [order, List.foldl_append, List.foldl_cons]
  rw [turns]
  exact watchUntouched_foldl g _ (List.nodup_cons.mp hafter).1

theorem WatchUntouched.groupWord (h : WatchUntouched i s t) (g : Group) : t.groupWord g = s.groupWord g := by
  unfold State.groupWord State.item
  rw [h.items]

theorem WatchUntouched.watchValue (h : WatchUntouched i s t) (g : Group) : t.watchValue g i = s.watchValue g i := by
  unfold State.watchValue
  rw [h.watch, h.groupWord]

theorem WatchUntouched.aside (h : WatchUntouched i s t) (k : WatchAside g i s) : WatchAside g i t := by
  unfold WatchAside
  rwa [h.watch]

theorem WatchUntouched.armed (h : WatchUntouched i s t) (k : WatchArmed g i old s) : WatchArmed g i old t :=
  ⟨h.watch ▸ k.last, h.watch ▸ k.group⟩

theorem evalWatches_watch_aside (hi : i < 8) (h : WatchAside g i s) : peek (evalWatches g s).seu.watches i = peek s.seu.watches i := by
  obtain ⟨u, before, after⟩ := evalWatches_turn g s hi
  rw [after.watch, evalWatch_aside (before.aside h), before.watch]

theorem evalWatches_watch_armed (hi : i < 8) (h : WatchArmed g i old s) :
    peek (evalWatches g s).seu.watches i = { peek s.seu.watches i with last := some (s.watchValue g i) } := by
  obtain ⟨u, before, after⟩ := evalWatches_turn g s hi
  rw [after.watch, evalWatch_watches (before.armed h), peek_poke_same _ hi, before.watch, before.watchValue]

theorem evalWatches_groupWord (g k : Group) (s : State) : (evalWatches g s).groupWord k = s.groupWord k := by
  unfold State.groupWord
  simp only [item_evalWatches]

/-- A watch whose value moves along its edge has its event in the queue, unless the queue is full (R168, R169). -/
theorem evalWatches_event (hi : i < 8) (h : WatchArmed g i old s) (hv : s.watchValue g i ≠ old)
    (he : edgeMatches (peek s.seu.watches i).edge (s.watchValue g i) = true) (hlen : (evalWatches g s).seu.events.length < 32) :
    .watch i (s.watchValue g i) (s.groupWord g) ∈ (evalWatches g s).seu.events.map Event.kind := by
  obtain ⟨u, before, after⟩ := evalWatches_turn g s hi
  rw [← before.watchValue] at hv ⊢
  rw [← before.groupWord]
  have pushed : (evalWatch g u i).seu.events = u.withWatchEvent g i :=
    evalWatch_events_along (before.armed h) hv (by rw [before.watch, before.watchValue]; exact he)
  refine kind_queued _ u _ ?_ hlen
  have kinds := after.kinds
  rw [pushed] at kinds
  exact kinds

theorem evalWatches_aside (h : ∀ i, i < 8 → WatchAside g i s) : evalWatches g s = s :=
  List.foldlRecOn (List.range 8) (evalWatch g) (motive := (· = s)) rfl fun t ht i hi => by
    subst ht
    exact evalWatch_aside (h i (List.mem_range.mp hi))

/-! ## SERVICE# -/

/-- An item that changes without further consequences is recorded, and the watches of its group are evaluated (R164). -/
theorem publish_change {go : Go} (hgo : Quiet go) (hn : NoHostEntries s) {r : ItemRef} (hr : Plain r) (he : r.exists = true)
    (hv : s.item r ≠ s.itemNow r) :
    publish go s r = evalWatches r.group (s.onSeu fun x => { x with items := poke x.items r.index (s.itemNow r) }) := by
  unfold publish setItem
  rw [if_neg (by simp [hv, he])]
  refine hgo.item _ _ (hn.of_settings ?_) hr
  rw [silent_evalWatches]
  rfl

/-- The part with SERVICE# at its new level and SERVICE_IN recorded, before a watch has been evaluated. -/
def serviceRecorded (v : Bool) (s : State) : State :=
  { s with pins := { s.pins with service := v }, seu := { s.seu with items := poke s.seu.items Item.serviceIn.index v } }

theorem serviceRecorded_item (v : Bool) (s : State) (q : ItemRef) :
    (serviceRecorded v s).item q = if q = Item.serviceIn then v else s.item q :=
  item_set Item.serviceIn q v s rfl

/-- SERVICE# changes in service: SERVICE_IN is recorded, and the watches of SYS are evaluated (R115, R164, R168). -/
theorem exec_service_watches (hp : s.phase = .running) (hrest : StoreAtRest s) (hn : NoHostEntries s) {v : Bool}
    (hpin : s.pins.service = !v) (hitem : s.item Item.serviceIn = !v) :
    exec (.serviceInputChange v) s = .next (evalWatches .sys (serviceRecorded v s)) := by
  let b : State := { s with pins := { s.pins with service := v } }
  have published : publish send b Item.serviceIn = evalWatches .sys (serviceRecorded v s) :=
    publish_change quiet_send (s := b) hn (by unfold Plain; decide) rfl
      (by show s.item Item.serviceIn ≠ v; rw [hitem]; exact Bool.not_ne_self v)
  have silent : Silent b (publish send b Item.serviceIn) := silent_publish quiet_send (s := b) hn (by decide)
  exact (congrArg finish (level_changes (f := fun p => { p with service := v }) _ hp hpin)).trans
    ((finish_silent (s := s) silent rfl rfl hrest).trans (congrArg _ published))

/-- Settles O18: one watch by `evalWatch_moved`, the watches of SYS at SERVICE# each by its turn, `evalWatches_turn`. -/
theorem watchFollowsItsGroup : Obligations.WatchFollowsItsGroup := by
  refine ⟨fun s v hp hrest hn hpin hitem => ?_, fun s g i hi => ⟨evalWatch_aside, fun old hl hg => ?_⟩⟩
  · refine ⟨_, exec_service_watches hp hrest hn hpin hitem, fun q => ?_, fun i hi => ?_, fun h => ?_⟩
    · rw [item_evalWatches]
      exact serviceRecorded_item v s q
    · dsimp only
      rw [evalWatches_groupWord]
      refine ⟨fun h => evalWatches_watch_aside hi h.symm, fun old hg hl => ?_⟩
      have armed : WatchArmed .sys i old (serviceRecorded v s) := ⟨hl, hg⟩
      exact ⟨evalWatches_watch_armed hi armed, fun hv he hlen => evalWatches_event hi armed hv ((edgeMatches_iff _ _).mpr he) hlen⟩
    · have aside : ∀ i, i < 8 → WatchAside .sys i (serviceRecorded v s) := h
      rw [evalWatches_aside aside]
      rfl
  · have armed : WatchArmed g i old s := ⟨hl, hg⟩
    refine ⟨evalWatch_items g s i, fun j => ?_, evalWatch_events_same armed,
      fun hv he => evalWatch_events_along armed hv ((edgeMatches_iff _ _).mpr he),
      fun hv he => evalWatch_events_against armed hv (edgeMatches_against he)⟩
    rw [evalWatch_watches armed, peek_poke]
    by_cases hj : j = i
    · rw [if_pos ⟨hj.symm, hi⟩, if_pos hj]
      rfl
    · rw [if_neg fun h => hj h.1.symm, if_neg hj]

end Sys2Proof.Machine
end

section
/-! PROOFS. The requests of the zone audio engine for its sources and zones (O38, O39). -/

namespace Sys2Proof.Machine

variable {s : State}

/-! ## CONFIGURE SOURCE -/

section
variable {b : Byte} {f : SourceFields}

/-- The configuration that the fields of CONFIGURE SOURCE carry, its marks not yet clamped. -/
def carriedSource (f : SourceFields) : SourceConfig :=
  { enabled := decide (f.enabled = 1), word := f.word.toNat, mono := decide (f.mono = 1), start := f.start.toNat,
    count := f.count.toNat, lowMark := f.lowMark.toNat, highMark := f.highMark.toNat }

/-- Every code of CONFIGURE SOURCE has a meaning (R134). -/
structure SourceNamed (b : Byte) (f : SourceFields) : Prop where
  source : b.toNat ≤ 2
  word : f.word = 16 ∨ f.word = 24 ∨ f.word = 32
  enabled : f.enabled.toNat ≤ 1
  mono : f.mono.toNat ≤ 1

theorem serveConfigureSource_unnamed
    (h : 2 < b.toNat ∨ (f.word ≠ 16 ∧ f.word ≠ 24 ∧ f.word ≠ 32) ∨ 1 < f.enabled.toNat ∨ 1 < f.mono.toNat) :
    serveConfigureSource send b f s = refuse .refusedValue s := by
  unfold serveConfigureSource
  split
  · rename_i hn hw he hm
    rcases h with h | h | h | h
    · rw [index_none (n := 3) h] at hn
      cases hn
    · rw [word_none h] at hw
      cases hw
    · rw [yesNo_none h] at he
      cases he
    · rw [yesNo_none h] at hm
      cases hm
  · rfl

/-- The checks of R134 in their order. -/
theorem serveConfigureSource_named (h : SourceNamed b f) : serveConfigureSource send b f s =
    if (s.source b.toNat).state ≠ .disabled ∧ decide (f.enabled = 1) = true then refuse .refusedState s
    else if beyondMemory f.start.toNat f.count.toNat || (decide (f.enabled = 1) && f.count.toNat == 0) then refuse .refusedValue s
    else if s.claimed f.start.toNat f.count.toNat (.source b.toNat) then refuse .refusedValue s
    else reply (accepted ((carriedSource f).clamped != carriedSource f)) []
      (applySource send b.toNat (carriedSource f).clamped s) := by
  unfold serveConfigureSource
  rw [index_some (n := 3) (Nat.lt_succ_of_le h.source), word_some h.word, yesNo_of h.enabled, yesNo_of h.mono]
  rfl

theorem sourceMarks_clamped_iff (c : SourceConfig) : c.clamped = c ↔
    min c.lowMark (c.count * 128) = c.lowMark ∧ max (min c.lowMark (c.count * 128)) (min c.highMark (c.count * 128)) = c.highMark := by
  constructor
  · exact fun h => ⟨congrArg SourceConfig.lowMark h, congrArg SourceConfig.highMark h⟩
  · intro ⟨low, high⟩
    show ({ c with lowMark := min c.lowMark (c.count * 128),
                   highMark := max (min c.lowMark (c.count * 128)) (min c.highMark (c.count * 128)) } : SourceConfig) = c
    rw [high, low]

/-- The state with the configuration of a source taken, before its items follow. -/
def withSource (n : Nat) (c : SourceConfig) (s : State) : State :=
  (s.onSettings fun t => { t with audio := { t.audio with sources := poke t.audio.sources n c } }).onZae fun a =>
    { a with
      owners := reowned a.owners (.source n) c.start c.count
      sources := poke a.sources n ((peek a.sources n).configured c.enabled) }

theorem applySource_cascade (n : Nat) (c : SourceConfig) (s : State) : Cascade (withSource n c s) (applySource send n c s) :=
  cascade_publishAll cascades_send _ (.refl _)

theorem peek_reowned (owners : Vector BlockOwner 64) (mine : BlockOwner) (first count : Nat) {k : Nat} (hk : k < 64) :
    peek (reowned owners mine first count) k =
      if first ≤ k ∧ k < first + count then mine else if peek owners k = mine then .free else peek owners k :=
  peek_ofFn _ k hk

/-- A source configured as `c` says, and all else as a request finds it (R134). -/
structure SourceConfigured (n : Nat) (c : SourceConfig) (s u : State) : Prop where
  config : u.sourceConfig n = c
  configs : ∀ k, k ≠ n → u.sourceConfig k = s.sourceConfig k
  settings : u.settings = { s.settings with audio := { s.settings.audio with sources := u.settings.audio.sources } }
  owners : ∀ k, k < 64 → peek u.zae.owners k =
    if c.start ≤ k ∧ k < c.start + c.count then .source n
    else if peek s.zae.owners k = .source n then .free else peek s.zae.owners k
  source : u.source n = (s.source n).configured c.enabled
  sources : ∀ k, k ≠ n → u.source k = s.source k
  memory : u.zae.memory = s.zae.memory
  clips : u.zae.clips = s.zae.clips
  pins : u.pins = s.pins
  slp : u.slp = s.slp
  position : ∀ m, (u.chan m).position = (s.chan m).position

theorem sourceConfigured_applySource {n : Nat} (hn : n < 3) (c : SourceConfig) (s : State) :
    SourceConfigured n c s (applySource send n c s) := by
  have k := applySource_cascade n c s
  generalize applySource send n c s = u at k
  have config : ∀ j, u.sourceConfig j = peek (poke s.settings.audio.sources n c) j := fun j => by
    unfold State.sourceConfig
    rw [k.settings]
    rfl
  have source : ∀ j, u.source j = peek (poke s.zae.sources n ((s.source n).configured c.enabled)) j := fun j => by
    unfold State.source
    rw [k.sources]
    rfl
  exact
    { config := by rw [config, peek_poke_same _ hn]
      configs := fun j hj => by rw [config, peek_poke_other _ (Ne.symm hj)]; rfl
      settings := by rw [k.settings]; rfl
      owners := fun j hj => by rw [k.owners]; exact peek_reowned _ _ _ _ hj
      source := by rw [source, peek_poke_same _ hn]
      sources := fun j hj => by rw [source, peek_poke_other _ (Ne.symm hj)]; rfl
      memory := k.memory, clips := k.clips, pins := k.pins, slp := k.slp, position := k.position }

theorem sourceBeyond_iff (f : SourceFields) :
    (beyondMemory f.start.toNat f.count.toNat || (decide (f.enabled = 1) && f.count.toNat == 0)) = true ↔
      64 < f.count.toNat ∨ 63 < f.start.toNat ∨ 64 < f.start.toNat + f.count.toNat ∨ (f.enabled = 1 ∧ f.count.toNat = 0) := by
  rw [Bool.or_eq_true, beyond_iff, Bool.and_eq_true, decide_eq_true_eq, beq_iff_eq]
  simp only [or_assoc]

end

/-- Settles O38: the checks by `serveConfigureSource_named`, what an accepted configuration leaves by `SourceConfigured`. -/
theorem configureSourceIsJudgedInOrder : Obligations.ConfigureSourceIsJudgedInOrder := by
  intro s b f h
  refine ⟨fun hc => exec_refused (x := .refusedValue) h (serveConfigureSource_unnamed hc) rfl, fun hb hw he hm => ?_⟩
  intro first count others beyond
  have served := serveConfigureSource_named (s := heard s) ⟨hb, hw, he, hm⟩
  rw [source_heard] at served
  have others_iff : (heard s).claimed first count (.source b.toNat) = true ↔ others := by
    rw [claimed_iff, heard_owners]
  refine ⟨fun hs e => ?_, fun hs => ⟨fun hbad => ?_, fun hin hfree => ?_⟩⟩
  · exact exec_refused (x := .refusedState) h (served.trans (if_pos ⟨hs, decide_eq_true e⟩)) rfl
  all_goals
    have stopped : ¬ ((s.source b.toNat).state ≠ .disabled ∧ decide (f.enabled = 1) = true) := by
      rintro ⟨k, e⟩
      rcases hs with hs | hs
      · exact k hs
      · rw [hs] at e
        cases e
    rw [if_neg stopped] at served
  · refine exec_refused (x := .refusedValue) h (served.trans ?_) rfl
    split
    · rfl
    · rename_i hin
      exact if_pos (others_iff.mpr (hbad.resolve_left fun k => hin ((sourceBeyond_iff f).mpr k)))
  · rw [if_neg (mt (sourceBeyond_iff f).mp hin), if_neg (mt others_iff.mp hfree)] at served
    have k := sourceConfigured_applySource (Nat.lt_succ_of_le hb) (carriedSource f).clamped (heard s)
    refine ⟨_, ?_, k.config, fun n hn => (k.configs n hn).trans (sourceConfig_heard s n), ?_, ?_, ?_,
      fun n hn => (k.sources n hn).trans (source_heard s n), k.memory.trans (heard_memory s), k.clips.trans (heard_clips s),
      k.pins.trans (heard_pins s), k.slp, fun m => (k.position m).trans (heard_position s m)⟩
    · refine exec_served h (served.trans ?_) rfl
      unfold reply
      rw [accepted_ne, if_congr (sourceMarks_clamped_iff _) rfl rfl]
      rfl
    · rw [k.settings, heard_settings]
    · have owners := k.owners
      rw [heard_owners] at owners
      exact owners
    · rw [k.source, source_heard]
      show SourceRec.configured _ (decide (f.enabled = 1)) = _
      simp only [SourceRec.configured, decide_eq_true_eq]
      rfl

/-! ## SET VOLUME and CONFIGURE ZONE -/

/-- The configuration that the fields of CONFIGURE ZONE carry, V and A not yet clamped. -/
def carriedZone (f : ZoneFields) : ZoneConfig :=
  { source := if f.source = 3 then none else some f.source.toNat, volume := f.volume.toNat, fold := decide (f.fold = 1),
    safety := decide (f.safety = 1), level := f.level.toNat }

theorem zoneClamped_iff (c : ZoneConfig) : c.clamped = c ↔ c.volume ≤ 31 ∧ c.level ≤ 23 := by
  obtain ⟨_, _, _, _, _⟩ := c
  simp [ZoneConfig.clamped]

/-- SET VOLUME in an idle link port (R136). -/
theorem setVolume_judged (h : Serving s) (b v : Byte) :
    (7 < b.toNat → exec (.setVolume b v) s = refusal 0xD2 0x82 s) ∧
    (b.toNat ≤ 7 → exec (.setVolume b v) s = .next (answered 0xD2 [if v.toNat ≤ 31 then 0x00 else 0x01]
      { heard s with settings := { s.settings with audio := { s.settings.audio with
          zones := poke s.settings.audio.zones b.toNat { s.zoneConfig b.toNat with volume := min v.toNat 31 } } } })) := by
  refine ⟨fun hb => exec_refused (x := .refusedValue) h ?_ rfl, fun hb => exec_served h ?_ rfl⟩
  · show serveSetVolume b v _ = _
    unfold serveSetVolume
    rw [index_none (n := 8) hb]
  · show serveSetVolume b v _ = _
    unfold serveSetVolume
    rw [index_some (n := 8) (Nat.lt_succ_of_le hb)]
    dsimp only
    rw [zoneConfig_heard, setZoneConfig_heard]
    unfold reply
    rw [accepted_ne, if_congr (min_eq_left_iff (a := v.toNat) (b := 31)) rfl rfl]

section
variable {b : Byte} {f : ZoneFields}

theorem serveConfigureZone_unnamed (h : 7 < b.toNat ∨ 3 < f.source.toNat ∨ 1 < f.fold.toNat ∨ 1 < f.safety.toNat) :
    serveConfigureZone send b f s = refuse .refusedValue s := by
  unfold serveConfigureZone
  split
  · rename_i hz hn hf ha
    rcases h with h | h | h | h
    · rw [index_none (n := 8) h] at hz
      cases hz
    · rw [indexOrNone3_none h] at hn
      cases hn
    · rw [yesNo_none h] at hf
      cases hf
    · rw [yesNo_none h] at ha
      cases ha
  · rfl

theorem serveConfigureZone_named (hb : b.toNat ≤ 7) (hn : f.source.toNat ≤ 3) (hf : f.fold.toNat ≤ 1) (ha : f.safety.toNat ≤ 1) :
    serveConfigureZone send b f s =
      let base := setZoneConfig b.toNat (carriedZone f).clamped s
      reply (accepted ((carriedZone f).clamped != carriedZone f)) []
        (if (s.zoneConfig b.toNat).safety = decide (f.safety = 1) then base else reconsiderLists send base) := by
  unfold serveConfigureZone
  rw [index_some (n := 8) (Nat.lt_succ_of_le hb), indexOrNone3 hn, yesNo_of hf, yesNo_of ha]
  rfl

/-- CONFIGURE ZONE in an idle link port (R135). -/
theorem configureZone_judged (h : Serving s) (b : Byte) (f : ZoneFields) :
    (7 < b.toNat ∨ 3 < f.source.toNat ∨ 1 < f.fold.toNat ∨ 1 < f.safety.toNat →
      exec (.configureZone b f) s = refusal 0xD1 0x82 s) ∧
    (b.toNat ≤ 7 → f.source.toNat ≤ 3 → f.fold.toNat ≤ 1 → f.safety.toNat ≤ 1 →
      let new := (carriedZone f).clamped
      let base : State := { heard s with settings := { s.settings with audio := { s.settings.audio with
        zones := poke s.settings.audio.zones b.toNat new } } }
      ∃ u, exec (.configureZone b f) s =
          .next (answered 0xD1 [if f.volume.toNat ≤ 31 ∧ f.level.toNat ≤ 23 then 0x00 else 0x01] u) ∧
        u.settings = base.settings ∧ (∀ z, (u.zone z).quiet = (s.zone z).quiet) ∧
        (new.safety = (s.zoneConfig b.toNat).safety → u = base) ∧
        (new.safety ≠ (s.zoneConfig b.toNat).safety → NoHostEntries s → Relisted base u)) := by
  refine ⟨fun hbad => exec_refused (x := .refusedValue) h (serveConfigureZone_unnamed hbad) rfl, fun hb hn hf ha => ?_⟩
  intro new base
  have relists : Cascade base (reconsiderLists send base) := cascade_reconsiderLists cascades_send (.refl _)
  refine ⟨if (s.zoneConfig b.toNat).safety = new.safety then base else reconsiderLists send base, exec_served h ?_ rfl,
    ?_, fun z => ?_, fun e => if_pos e.symm, fun e hno => ?_⟩
  · refine (serveConfigureZone_named hb hn hf ha).trans ?_
    dsimp only
    rw [setZoneConfig_heard, zoneConfig_heard]
    unfold reply
    rw [accepted_ne, if_congr (zoneClamped_iff _) rfl rfl]
    rfl
  · split
    · rfl
    · exact relists.settings
  · refine Eq.trans ?_ (heard_quiet s z)
    split
    · rfl
    · exact (relists.zone z).1
  · rw [if_neg (Ne.symm e)]
    exact relisted_reconsiderLists quiet_send cascades_send (s := base) hno

end

/-! ## SET QUIET -/

section
variable {b q : Byte}

theorem serveSetQuiet_unnamed (h : 7 < b.toNat ∨ 1 < q.toNat) : serveSetQuiet send b q s = refuse .refusedValue s := by
  unfold serveSetQuiet
  split
  · rename_i hz hq
    rcases h with h | h
    · rw [index_none (n := 8) h] at hz
      cases hz
    · rw [yesNo_none h] at hq
      cases hq
  · rfl

theorem serveSetQuiet_named (hb : b.toNat ≤ 7) (hq : q.toNat ≤ 1) :
    serveSetQuiet send b q s = reply .ok [] (setZoneQuiet send b.toNat (decide (q = 1)) s) := by
  unfold serveSetQuiet
  rw [index_some (n := 8) (Nat.lt_succ_of_le hb), yesNo_of hq]

/-- A QUIET that is written over the other value is a cascade behind the write. -/
theorem setZoneQuiet_cascade {z : Nat} {v : Bool} (hv : (s.zone z).quiet ≠ v) :
    Cascade (setZone z { s.zone z with quiet := v } s) (setZoneQuiet send z v s) := by
  unfold setZoneQuiet
  rw [if_neg hv]
  exact cascade_reconsiderLists cascades_send (cascade_publish cascades_send _ (.refl _))

/-- SET QUIET in an idle link port (R137). -/
theorem setQuiet_judged (h : Serving s) (b q : Byte) :
    (7 < b.toNat ∨ 1 < q.toNat → exec (.setQuiet b q) s = refusal 0xD3 0x82 s) ∧
    (b.toNat ≤ 7 → q.toNat ≤ 1 → (s.zone b.toNat).quiet = decide (q = 1) →
      exec (.setQuiet b q) s = .next (answered 0xD3 [0x00] (heard s))) ∧
    (b.toNat ≤ 7 → q.toNat ≤ 1 → (s.zone b.toNat).quiet ≠ decide (q = 1) → ∃ u,
      exec (.setQuiet b q) s = .next (answered 0xD3 [0x00] u) ∧ u.settings = s.settings ∧
      (∀ z, (u.zone z).quiet = if z = b.toNat then decide (q = 1) else (s.zone z).quiet) ∧
      (NoHostEntries s → u.item (Item.quiet b.toNat) = decide (q = 1) ∧
        Relisted (setZone b.toNat { (heard s).zone b.toNat with quiet := decide (q = 1) } (heard s)) u)) := by
  refine ⟨fun hbad => exec_refused (x := .refusedValue) h (serveSetQuiet_unnamed hbad) rfl, fun hb hq e => ?_, fun hb hq e => ?_⟩
  · rw [← heard_quiet] at e
    refine exec_served h ((serveSetQuiet_named hb hq).trans ?_) rfl
    unfold setZoneQuiet
    rw [if_pos e]
    rfl
  · rw [← heard_quiet] at e
    have k := setZoneQuiet_cascade e
    refine ⟨_, exec_served h (serveSetQuiet_named hb hq) rfl, k.settings.trans (heard_settings s), fun z => ?_, fun hno => ?_⟩
    · rw [(k.zone z).1, setZone_zone, ← heard_quiet]
      by_cases hz : b.toNat = z
      · rw [if_pos ⟨hz, Nat.lt_succ_of_le hb⟩, if_pos hz.symm]
      · rw [if_neg (fun t => hz t.1), if_neg (Ne.symm hz)]
    · obtain ⟨relisted, -, item⟩ := setZoneQuiet_toggled (noHost_heard hno) (Nat.lt_succ_of_le hb)
      have toggles : (!((heard s).zone b.toNat).quiet) = decide (q = 1) := (Bool.eq_not_of_ne (Ne.symm e)).symm
      rw [toggles] at relisted item
      exact ⟨item, relisted⟩

end

/-! ## CLEAR AUDIO FLAGS -/

/-- The XRUN flag of one source cleared, and its item with it (R138). -/
def clearXrun (s : State) (n : Nat) : State :=
  publish send (setSource n { s.source n with xrun := false } s) (Item.sourceXrun n)

theorem clearXrun_cascade (s : State) (n : Nat) : Cascade (setSource n { s.source n with xrun := false } s) (clearXrun s n) :=
  cascade_publish cascades_send _ (.refl _)

theorem clearXrun_source (s : State) {n k : Nat} (hk : k < 3) :
    (clearXrun s n).source k = if n = k then { s.source k with xrun := false } else s.source k := by
  unfold State.source
  rw [(clearXrun_cascade s n).sources]
  refine (setSource_source n k _ s).trans ?_
  by_cases e : n = k
  · subst e
    rw [if_pos ⟨rfl, hk⟩, if_pos rfl]
    rfl
  · rw [if_neg (fun t => e t.1), if_neg e]
    rfl

theorem plain_sourceXrun {n : Nat} (hn : n < 3) : Plain (Item.sourceXrun n) ∧ (Item.sourceXrun n).exists = true := by
  have all : ∀ k : Fin 3, Item.sourceXrun k.val ∉ builtInItems ∧ (Item.sourceXrun k.val).exists = true := by decide
  exact all ⟨n, hn⟩

theorem itemNow_sourceXrun {n : Nat} (hn : n < 3) (s : State) : s.itemNow (Item.sourceXrun n) = (s.source n).xrun := by
  have : n = 0 ∨ n = 1 ∨ n = 2 := by omega
  rcases this with rfl | rfl | rfl <;> rfl

theorem clearXrun_sourcesOnly (hno : NoHostEntries s) {n : Nat} (hn : n < 3) : SourcesOnly s (clearXrun s n) :=
  (sourcesOnly_set n _ s).trans
    (silent_publish quiet_send (s := setSource n { s.source n with xrun := false } s) hno (plain_sourceXrun hn).1).sourcesOnly

theorem clearXrun_item (hno : NoHostEntries s) {n k : Nat} (hn : n < 3) :
    (clearXrun s n).item (Item.sourceXrun k) = if k = n then false else s.item (Item.sourceXrun k) := by
  obtain ⟨plain, named⟩ := plain_sourceXrun hn
  unfold clearXrun
  have same : Item.sourceXrun k = Item.sourceXrun n ↔ k = n := by
    simp only [Item.sourceXrun, ItemRef.mk.injEq, true_and]
    omega
  have cleared : (setSource n { s.source n with xrun := false } s).itemNow (Item.sourceXrun n) = false := by
    rw [itemNow_sourceXrun hn, setSource_source, if_pos ⟨rfl, hn⟩]
  rw [item_publish quiet_send (s := setSource n { s.source n with xrun := false } s) hno plain named, cleared, if_congr same rfl rfl]
  rfl

/-- The XRUN flags of the sources `ns` have been cleared, and nothing that a request reads has changed besides (R138). -/
structure FlagsCleared (ns : List Nat) (s u : State) : Prop where
  source : ∀ k, k < 3 → u.source k = if k ∈ ns then { s.source k with xrun := false } else s.source k
  settings : u.settings = s.settings
  pins : u.pins = s.pins
  slp : u.slp = s.slp
  owners : u.zae.owners = s.zae.owners
  memory : u.zae.memory = s.zae.memory
  clips : u.zae.clips = s.zae.clips

theorem flagsCleared (ns : List Nat) (s : State) : FlagsCleared ns s (ns.foldl clearXrun s) := by
  induction ns generalizing s with
  | nil => exact ⟨fun _ _ => rfl, rfl, rfl, rfl, rfl, rfl, rfl⟩
  | cons n ns ih =>
    have first := clearXrun_cascade s n
    have rest := ih (clearXrun s n)
    refine ⟨fun k hk => ?_, rest.settings.trans first.settings, rest.pins.trans first.pins, rest.slp.trans first.slp,
      rest.owners.trans first.owners, rest.memory.trans first.memory, rest.clips.trans first.clips⟩
    show (ns.foldl clearXrun (clearXrun s n)).source k = _
    rw [rest.source k hk, clearXrun_source s hk]
    by_cases e : n = k <;> by_cases m : k ∈ ns <;> simp [e, m, eq_comm]

/-- Without host entries a cleared flag's item is false, and only sources and items change (R138). -/
theorem flagsCleared_quiet (ns : List Nat) (hns : ∀ n ∈ ns, n < 3) (hno : NoHostEntries s) :
    SourcesOnly s (ns.foldl clearXrun s) ∧
      ∀ k, (ns.foldl clearXrun s).item (Item.sourceXrun k) = if k ∈ ns then false else s.item (Item.sourceXrun k) := by
  induction ns generalizing s with
  | nil => exact ⟨rfl, fun _ => rfl⟩
  | cons n ns ih =>
    have hn := hns n List.mem_cons_self
    have only := clearXrun_sourcesOnly hno hn
    obtain ⟨alone, items⟩ := ih (fun k hk => hns k (List.mem_cons_of_mem _ hk))
      (hno.of_settings (clearXrun_cascade s n).settings)
    refine ⟨only.trans alone, fun k => ?_⟩
    show (ns.foldl clearXrun (clearXrun s n)).item _ = _
    rw [items, clearXrun_item hno hn]
    by_cases e : k = n <;> by_cases m : k ∈ ns <;> simp [e, m]

/-- The sources that a set byte names (R185). -/
def sourcesNamed (b : Byte) : List Nat := (List.range 3).filter (memberOf b)

theorem mem_sourcesNamed {b : Byte} {n : Nat} : n ∈ sourcesNamed b ↔ n < 3 ∧ b.getLsbD n = true := by
  unfold sourcesNamed memberOf
  rw [List.mem_filter, List.mem_range]

/-- CLEAR AUDIO FLAGS in an idle link port (R138). -/
theorem clearAudioFlags_judged (h : Serving s) (b : Byte) :
    (7 < b.toNat → exec (.clearAudioFlags b) s = refusal 0xDC 0x82 s) ∧
    (b.toNat ≤ 7 → ∃ u, exec (.clearAudioFlags b) s = .next (answered 0xDC [0x00] u) ∧
      (∀ n, n < 3 → u.source n = if b.getLsbD n then { s.source n with xrun := false } else s.source n) ∧
      u.settings = s.settings ∧ u.pins = s.pins ∧ u.slp = (heard s).slp ∧ u.zae.owners = s.zae.owners ∧
      u.zae.memory = s.zae.memory ∧ u.zae.clips = s.zae.clips ∧
      (NoHostEntries s → u = { heard s with zae := { (heard s).zae with sources := u.zae.sources }, seu := u.seu } ∧
        ∀ n, n < 3 → b.getLsbD n = true → u.item (Item.sourceXrun n) = false)) := by
  refine ⟨fun hb => exec_refused (x := .refusedValue) h (if_neg (Nat.not_lt.mpr hb)) rfl, fun hb => ?_⟩
  have k := flagsCleared (sourcesNamed b) (heard s)
  refine ⟨_, exec_served h (if_pos (Nat.lt_succ_of_le hb)) rfl, fun n hn => ?_, k.settings.trans (heard_settings s),
    k.pins.trans (heard_pins s), k.slp, k.owners.trans (heard_owners s), k.memory.trans (heard_memory s),
    k.clips.trans (heard_clips s), fun hno => ?_⟩
  · refine (k.source n hn).trans ?_
    rw [source_heard]
    exact if_congr (mem_sourcesNamed.trans (and_iff_right hn)) rfl rfl
  · obtain ⟨alone, items⟩ := flagsCleared_quiet (sourcesNamed b) (fun n hn => (mem_sourcesNamed.mp hn).1) (noHost_heard hno)
    exact ⟨alone, fun n hn hm => (items n).trans (if_pos (mem_sourcesNamed.mpr ⟨hn, hm⟩))⟩

/-- Settles O39, one lemma for each of the four requests. -/
theorem zoneRequestsTakeTheirValues : Obligations.ZoneRequestsTakeTheirValues := fun _ h =>
  ⟨setVolume_judged h, configureZone_judged h, setQuiet_judged h, clearAudioFlags_judged h⟩

end Sys2Proof.Machine
end

section
/-! PROOFS. The clip requests: what each of them writes, and what it leaves (O40). -/

namespace Sys2Proof.Machine

section
variable {s t u : State} {k : Nat}

/-! ## What a clip request may change -/

/-- The two states differ at most in the blocks' owners, the samples and clip slot `k`. -/
def ClipAlone (k : Nat) (s u : State) : Prop :=
  u = { s with zae := { s.zae with owners := u.zae.owners, memory := u.zae.memory, clips := u.zae.clips } } ∧
    ∀ j, j ≠ k → u.clip j = s.clip j

theorem ClipAlone.trans (h : ClipAlone k s t) (g : ClipAlone k t u) : ClipAlone k s u := by
  obtain ⟨ht, clips⟩ := h
  obtain ⟨hu, others⟩ := g
  refine ⟨?_, fun j hj => (others j hj).trans (clips j hj)⟩
  rw [ht] at hu
  exact hu

theorem clipAlone_setClip (k : Nat) (c : ClipRec) (s : State) : ClipAlone k s (setClip k c s) :=
  ⟨rfl, fun j hj => by rw [setClip_clip, if_neg fun e => hj e.1.symm]⟩

theorem clipAlone_blocks (k : Nat) (f : Zae → Vector BlockOwner 64) (g : Zae → SampleMemory) (s : State) :
    ClipAlone k s (s.onZae fun a => { a with owners := f a, memory := g a }) := ⟨rfl, fun _ _ => rfl⟩

theorem clipAlone_samples (k : Nat) (g : Zae → SampleMemory) (s : State) :
    ClipAlone k s (s.onZae fun a => { a with memory := g a }) := ⟨rfl, fun _ _ => rfl⟩

theorem ClipAlone.of_heard (h : ClipAlone k (heard s) u) : (u = { heard s with zae := { (heard s).zae with
    owners := u.zae.owners, memory := u.zae.memory, clips := u.zae.clips } }) ∧ ∀ j, j ≠ k → u.clip j = s.clip j :=
  ⟨h.1, fun j hj => (h.2 j hj).trans (clip_heard s j)⟩

/-- Sample address `a` lies in the blocks of clip slot `k`. -/
def State.inClip (s : State) (k a : Nat) : Prop := (s.clip k).start * 256 ≤ a ∧ a < (s.clip k).start * 256 + (s.clip k).count * 256

theorem readSample_cleared_in {m : SampleMemory} {a first count : Nat} (h : first ≤ a ∧ a < first + count) :
    readSample (clearSamples first count m) a = 0 := by
  rw [readSample_clearSamples, if_pos h]
  rfl

theorem readSample_cleared_out {m : SampleMemory} {a first count : Nat} (h : ¬ (first ≤ a ∧ a < first + count)) :
    readSample (clearSamples first count m) a = readSample m a := by
  rw [readSample_clearSamples, if_neg h]

end

section
variable {s : State} {b : Byte}

/-! ## ALLOCATE CLIP -/

/-- The clip record of a slot that has just been allocated (R141). -/
def loadingClip (first count : Nat) : ClipRec := { state := .loading, start := first, count := count, length := 0 }

/-- The state with clip slot `k` allocated (R141). -/
def withClipAllocated (k first count : Nat) (s : State) : State :=
  (setClip k (loadingClip first count) (dropSamples k s)).onZae fun a =>
    { a with owners := reowned a.owners (.clip k) first count, memory := clearSamples (first * 256) (count * 256) a.memory }

theorem serveAllocateClip_unnamed {f c : Byte} (hb : 15 < b.toNat) : serveAllocateClip b f c s = refuse .refusedValue s := by
  unfold serveAllocateClip
  rw [index_none (n := 16) hb]

/-- The checks of R141 in their order. -/
theorem serveAllocateClip_named {f c : Byte} (hb : b.toNat ≤ 15) : serveAllocateClip b f c s =
    if s.clipInPlay b.toNat then refuse .refusedState s
    else if c.toNat = 0 ∨ beyondMemory f.toNat c.toNat = true then refuse .refusedValue s
    else if s.claimed f.toNat c.toNat (.clip b.toNat) then refuse .refusedValue s
    else reply .ok [] (withClipAllocated b.toNat f.toNat c.toNat s) := by
  unfold serveAllocateClip
  rw [index_some (n := 16) (Nat.lt_succ_of_le hb)]
  rfl

theorem clipAlone_allocated (k first count : Nat) (s : State) : ClipAlone k s (withClipAllocated k first count s) :=
  ((clipAlone_samples k _ s).trans (clipAlone_setClip k _ _)).trans (clipAlone_blocks k _ _ _)

theorem withClipAllocated_memory (k first count : Nat) (s : State) : (withClipAllocated k first count s).zae.memory =
    clearSamples (first * 256) (count * 256) (clearSamples ((s.clip k).start * 256) ((s.clip k).count * 256) s.zae.memory) := rfl

/-- A range with no block in it, or with a block past the last, does not fit (R141). -/
theorem clipBeyond_iff (first count : Nat) :
    (count = 0 ∨ beyondMemory first count = true) ↔ (count = 0 ∨ 64 < first + count) := by
  rw [beyond_iff]
  omega

/-- ALLOCATE CLIP in an idle link port (R141). -/
theorem allocateClip_judged (h : Serving s) (b f c : Byte) :
    let taken := ∃ k, f.toNat ≤ k ∧ k < f.toNat + c.toNat ∧ peek s.zae.owners k ≠ .free ∧ peek s.zae.owners k ≠ .clip b.toNat
    let beyond := c.toNat = 0 ∨ 64 < f.toNat + c.toNat
    (15 < b.toNat → exec (.allocateClip b f c) s = refusal 0xD4 0x82 s) ∧
    (b.toNat ≤ 15 → (heard s).clipInPlay b.toNat = true → exec (.allocateClip b f c) s = refusal 0xD4 0x83 s) ∧
    (b.toNat ≤ 15 → (heard s).clipInPlay b.toNat = false → beyond ∨ taken → exec (.allocateClip b f c) s = refusal 0xD4 0x82 s) ∧
    (b.toNat ≤ 15 → (heard s).clipInPlay b.toNat = false → ¬ beyond → ¬ taken →
      exec (.allocateClip b f c) s = .next (answered 0xD4 [0x00] (withClipAllocated b.toNat f.toNat c.toNat (heard s)))) := by
  intro taken beyond
  have taken_iff : (heard s).claimed f.toNat c.toNat (.clip b.toNat) = true ↔ taken := by
    rw [claimed_iff, heard_owners]
  refine ⟨fun hb => exec_refused (x := .refusedValue) h (serveAllocateClip_unnamed hb) rfl, fun hb hp => ?_, fun hb hp hbad => ?_,
    fun hb hp hin hfree => ?_⟩
  · exact exec_refused (x := .refusedState) h ((serveAllocateClip_named hb).trans (if_pos hp)) rfl
  all_goals
    have served := serveAllocateClip_named (f := f) (c := c) (s := heard s) hb
    rw [hp, if_neg nofun, if_congr (clipBeyond_iff f.toNat c.toNat) rfl rfl] at served
  · refine exec_refused (x := .refusedValue) h (served.trans ?_) rfl
    by_cases hin : beyond
    · exact if_pos hin
    · exact (if_neg hin).trans (if_pos (taken_iff.mpr (hbad.resolve_left hin)))
  · exact exec_served h (served.trans ((if_neg hin).trans (if_neg (mt taken_iff.mp hfree)))) rfl

/-- What an allocation leaves in the slot, the blocks and the samples (R141). -/
theorem clipAllocated_leaves {k : Nat} (hk : k ≤ 15) (first count : Nat) (s : State) :
    let u := withClipAllocated k first count s
    u.clip k = loadingClip first count ∧
    (∀ j, j < 64 → peek u.zae.owners j = if first ≤ j ∧ j < first + count then .clip k
      else if peek s.zae.owners j = .clip k then .free else peek s.zae.owners j) ∧
    (∀ a, first * 256 ≤ a → a < first * 256 + count * 256 → readSample u.zae.memory a = 0) ∧
    (∀ a, ¬ s.inClip k a → ¬ (first * 256 ≤ a ∧ a < first * 256 + count * 256) →
      readSample u.zae.memory a = readSample s.zae.memory a) := by
  intro u
  refine ⟨?_, fun j hj => peek_reowned _ _ _ _ hj, fun a h1 h2 => readSample_cleared_in ⟨h1, h2⟩, fun a hold hnew => ?_⟩
  · refine (onZae_blocks_clip _ _ (setClip k (loadingClip first count) (dropSamples k s)) k).trans ?_
    rw [setClip_clip, if_pos ⟨rfl, Nat.lt_succ_of_le hk⟩]
  · show readSample (withClipAllocated k first count s).zae.memory a = _
    rw [withClipAllocated_memory, readSample_cleared_out hnew, readSample_cleared_out hold]

/-! ## FREE CLIP -/

/-- The state with clip slot `k` freed (R141). -/
def withClipFreed (k : Nat) (s : State) : State :=
  (setClip k ClipRec.free (dropSamples k s)).onZae fun a => { a with owners := reowned a.owners (.clip k) 0 0 }

theorem clipAlone_freed (k : Nat) (s : State) : ClipAlone k s (withClipFreed k s) :=
  ((clipAlone_samples k _ s).trans (clipAlone_setClip k _ _)).trans (clipAlone_blocks k _ Zae.memory _)

/-- FREE CLIP in an idle link port (R141). -/
theorem freeClip_judged (h : Serving s) (b : Byte) :
    (15 < b.toNat → exec (.freeClip b) s = refusal 0xD7 0x82 s) ∧
    (b.toNat ≤ 15 → (heard s).clipInPlay b.toNat = true → exec (.freeClip b) s = refusal 0xD7 0x83 s) ∧
    (b.toNat ≤ 15 → (heard s).clipInPlay b.toNat = false →
      exec (.freeClip b) s = .next (answered 0xD7 [0x00] (withClipFreed b.toNat (heard s)))) := by
  have served : b.toNat ≤ 15 → serveFreeClip b (heard s) =
      if (heard s).clipInPlay b.toNat then refuse .refusedState (heard s) else reply .ok [] (withClipFreed b.toNat (heard s)) := by
    intro hb
    unfold serveFreeClip
    rw [index_some (n := 16) (Nat.lt_succ_of_le hb)]
    rfl
  refine ⟨fun hb => exec_refused (x := .refusedValue) h ?_ rfl,
    fun hb hp => exec_refused (x := .refusedState) h ((served hb).trans (if_pos hp)) rfl,
    fun hb hp => exec_served h ((served hb).trans (if_neg (by rw [hp]; nofun))) rfl⟩
  show serveFreeClip b (heard s) = _
  unfold serveFreeClip
  rw [index_none (n := 16) hb]

/-- What freeing leaves in the slot, the blocks and the samples (R141). -/
theorem clipFreed_leaves {k : Nat} (hk : k ≤ 15) (s : State) :
    let u := withClipFreed k s
    (u.clip k).state = .empty ∧
    (∀ j, j < 64 → peek u.zae.owners j = if peek s.zae.owners j = .clip k then .free else peek s.zae.owners j) ∧
    (∀ a, ¬ s.inClip k a → readSample u.zae.memory a = readSample s.zae.memory a) := by
  intro u
  refine ⟨?_, fun j hj => ?_, fun a hold => readSample_cleared_out hold⟩
  · refine (congrArg ClipRec.state (onZae_owners_clip _ (setClip k ClipRec.free (dropSamples k s)) k)).trans ?_
    rw [setClip_clip, if_pos ⟨rfl, Nat.lt_succ_of_le hk⟩]
    rfl
  · exact (peek_reowned s.zae.owners (.clip k) 0 0 hj).trans (if_neg (by omega))

/-! ## CLIP DATA -/

/-- CLIP DATA in an idle link port (R142). -/
theorem clipData_judged (h : Serving s) (b : Byte) (o : Half) (xs : List Half) :
    (xs.length < 1 ∨ 96 < xs.length → exec (.clipData b o xs) s = refusal 0xD5 0x81 s) ∧
    (1 ≤ xs.length → xs.length ≤ 96 →
      (15 < b.toNat → exec (.clipData b o xs) s = refusal 0xD5 0x82 s) ∧
      (b.toNat ≤ 15 → (s.clip b.toNat).state ≠ .loading → exec (.clipData b o xs) s = refusal 0xD5 0x83 s) ∧
      (b.toNat ≤ 15 → (s.clip b.toNat).state = .loading → (s.clip b.toNat).count * 256 < o.toNat + xs.length →
        exec (.clipData b o xs) s = refusal 0xD5 0x82 s) ∧
      (b.toNat ≤ 15 → (s.clip b.toNat).state = .loading → o.toNat + xs.length ≤ (s.clip b.toNat).count * 256 →
        exec (.clipData b o xs) s = .next (answered 0xD5 [0x00]
          ((heard s).onZae fun a => { a with memory := writeSamples ((s.clip b.toNat).start * 256 + o.toNat) xs a.memory })))) := by
  refine ⟨fun hl => exec_refused (x := .refusedLength) h (if_pos hl) rfl, fun h1 h2 => ?_⟩
  have fits : ¬ (xs.length < 1 ∨ 96 < xs.length) := by omega
  have served : b.toNat ≤ 15 → serveClipData b o xs (heard s) =
      if (s.clip b.toNat).state ≠ .loading then refuse .refusedState (heard s)
      else if (s.clip b.toNat).count * 256 < o.toNat + xs.length then refuse .refusedValue (heard s)
      else reply .ok []
        ((heard s).onZae fun a => { a with memory := writeSamples ((s.clip b.toNat).start * 256 + o.toNat) xs a.memory }) := by
    intro hb
    unfold serveClipData
    rw [if_neg fits, index_some (n := 16) (Nat.lt_succ_of_le hb)]
    dsimp only
    rw [clip_heard]
    rfl
  refine ⟨fun hb => exec_refused (x := .refusedValue) h ?_ rfl,
    fun hb hs => exec_refused (x := .refusedState) h ((served hb).trans (if_pos hs)) rfl, fun hb hs hl => ?_, fun hb hs hl => ?_⟩
  · show serveClipData b o xs (heard s) = _
    unfold serveClipData
    rw [if_neg fits, index_none (n := 16) hb]
  · exact exec_refused (x := .refusedValue) h ((served hb).trans ((if_neg (not_not.mpr hs)).trans (if_pos hl))) rfl
  · exact exec_served h ((served hb).trans ((if_neg (not_not.mpr hs)).trans (if_neg (Nat.not_lt.mpr hl)))) rfl

/-! ## CLIP END -/

/-- CLIP END in an idle link port (R142). -/
theorem clipEnd_judged (h : Serving s) (b : Byte) (n : Half) :
    (15 < b.toNat → exec (.clipEnd b n) s = refusal 0xD6 0x82 s) ∧
    (b.toNat ≤ 15 → (s.clip b.toNat).state ≠ .loading → exec (.clipEnd b n) s = refusal 0xD6 0x83 s) ∧
    (b.toNat ≤ 15 → (s.clip b.toNat).state = .loading →
      (n.toNat = 0 ∨ (s.clip b.toNat).count * 256 < n.toNat → exec (.clipEnd b n) s = refusal 0xD6 0x82 s) ∧
      (n.toNat ≠ 0 → n.toNat ≤ (s.clip b.toNat).count * 256 → exec (.clipEnd b n) s =
        .next (answered 0xD6 [0x00] (setClip b.toNat { s.clip b.toNat with state := .ready, length := n.toNat } (heard s))))) := by
  have served : b.toNat ≤ 15 → serveClipEnd b n (heard s) =
      if (s.clip b.toNat).state ≠ .loading then refuse .refusedState (heard s)
      else if n.toNat = 0 ∨ (s.clip b.toNat).count * 256 < n.toNat then refuse .refusedValue (heard s)
      else reply .ok [] (setClip b.toNat { s.clip b.toNat with state := .ready, length := n.toNat } (heard s)) := by
    intro hb
    unfold serveClipEnd
    rw [index_some (n := 16) (Nat.lt_succ_of_le hb)]
    dsimp only
    rw [clip_heard]
    rfl
  refine ⟨fun hb => exec_refused (x := .refusedValue) h ?_ rfl,
    fun hb hs => exec_refused (x := .refusedState) h ((served hb).trans (if_pos hs)) rfl, fun hb hs => ⟨fun hl => ?_, fun h1 h2 => ?_⟩⟩
  · show serveClipEnd b n (heard s) = _
    unfold serveClipEnd
    rw [index_none (n := 16) hb]
  · exact exec_refused (x := .refusedValue) h ((served hb).trans ((if_neg (not_not.mpr hs)).trans (if_pos hl))) rfl
  · exact exec_served h ((served hb).trans ((if_neg (not_not.mpr hs)).trans (if_neg (by omega)))) rfl

end

/-- Settles O40: for each clip request how it is judged, and what the state it leaves holds. -/
theorem clipRequestsWriteTheirSamples : Obligations.ClipRequestsWriteTheirSamples := by
  intro s h inPlay fixed old
  refine ⟨fun b f c => ?_, fun b o xs => ?_, fun b n => ?_, fun b => ?_⟩
  · obtain ⟨unnamed, busy, barred, accepted⟩ := allocateClip_judged h b f c
    refine ⟨unnamed, busy, barred, fun hb hp hin hfree => ⟨_, accepted hb hp hin hfree, (clipAlone_allocated _ _ _ _).of_heard, ?_⟩⟩
    obtain ⟨slot, owners, zeroed, kept⟩ := clipAllocated_leaves hb f.toNat c.toNat (heard s)
    unfold State.inClip at kept
    rw [heard_owners] at owners
    rw [clip_heard, heard_memory] at kept
    exact ⟨slot, owners, zeroed, kept⟩
  · obtain ⟨wrongLength, judged⟩ := clipData_judged h b o xs
    refine ⟨wrongLength, fun h1 h2 => ?_⟩
    obtain ⟨unnamed, notLoading, beyond, accepted⟩ := judged h1 h2
    refine ⟨unnamed, notLoading, beyond, fun hb hs hl hm => ⟨_, accepted hb hs hl, (clipAlone_samples _ _ _).of_heard, clip_heard s _,
      heard_owners s, fun k hk => ?_, fun a ha => ?_⟩⟩
    all_goals
      refine (readSample_writeSamples _ xs _ (by rw [heard_memory]; exact hm) _).trans ?_
    · rw [if_pos (by omega), Nat.add_sub_cancel_left]
      rfl
    · rw [if_neg (by omega), heard_memory]
  · obtain ⟨unnamed, notLoading, judged⟩ := clipEnd_judged h b n
    refine ⟨unnamed, notLoading, fun hb hs => ?_⟩
    obtain ⟨barred, accepted⟩ := judged hb hs
    refine ⟨barred, fun h1 h2 => ⟨_, accepted h1 h2, (clipAlone_setClip _ _ _).of_heard, ?_, heard_owners s, heard_memory s⟩⟩
    rw [setClip_clip, if_pos ⟨rfl, Nat.lt_succ_of_le hb⟩]
  · obtain ⟨unnamed, busy, accepted⟩ := freeClip_judged h b
    refine ⟨unnamed, busy, fun hb hp => ⟨_, accepted hb hp, (clipAlone_freed _ _).of_heard, ?_⟩⟩
    obtain ⟨slot, owners, kept⟩ := clipFreed_leaves hb (heard s)
    unfold State.inClip at kept
    rw [heard_owners] at owners
    rw [clip_heard, heard_memory] at kept
    exact ⟨slot, owners, kept⟩

end Sys2Proof.Machine
end

section
/-! PROOFS. Source frames: measured, kept or skipped, pushed or lost; the class of a source (O45). -/

namespace Sys2Proof.Machine

section
variable {s t u : State} {n : Nat}

/-! ## What a source's frame may change -/

/-- Between the two states only source `n`, and what no frame of a source is told by, has changed. -/
structure SourceAlone (n : Nat) (s t : State) : Prop where
  settings : t.settings = s.settings
  pins : t.pins = s.pins
  slp : t.slp = s.slp
  memory : t.zae.memory = s.zae.memory
  clips : t.zae.clips = s.zae.clips
  owners : t.zae.owners = s.zae.owners
  others : ∀ k, k ≠ n → t.source k = s.source k
  now : t.now = s.now
  events : s.seu.events.map Event.kind <+: t.seu.events.map Event.kind

theorem SourceAlone.trans (h : SourceAlone n s t) (k : SourceAlone n t u) : SourceAlone n s u :=
  ⟨k.settings.trans h.settings, k.pins.trans h.pins, k.slp.trans h.slp, k.memory.trans h.memory, k.clips.trans h.clips,
    k.owners.trans h.owners, fun j hj => (k.others j hj).trans (h.others j hj), k.now.trans h.now, h.events.trans k.events⟩

theorem source_of_sources (h : t.zae.sources = s.zae.sources) (k : Nat) : t.source k = s.source k := by
  unfold State.source
  rw [h]

theorem Cascade.sourceAlone (h : Cascade s t) : SourceAlone n s t :=
  ⟨h.settings, h.pins, h.slp, h.memory, h.clips, h.owners, fun k _ => source_of_sources h.sources k, h.now, h.events⟩

theorem sourceAlone_set (n : Nat) (x : SourceRec) (s : State) : SourceAlone n s (setSource n x s) :=
  ⟨rfl, rfl, rfl, rfl, rfl, rfl, fun k hk => by rw [setSource_source, if_neg fun e => hk e.1.symm], rfl, List.prefix_refl _⟩

/-- Source `n` takes a record and its items follow. -/
def sourceShown (n : Nat) (x : SourceRec) (s : State) : State := publishAll send (sourceItems n) (setSource n x s)

theorem sourceShown_cascade (n : Nat) (x : SourceRec) (s : State) : Cascade (setSource n x s) (sourceShown n x s) :=
  cascade_publishAll cascades_send _ (.refl _)

theorem sourceShown_alone (n : Nat) (x : SourceRec) (s : State) : SourceAlone n s (sourceShown n x s) :=
  (sourceAlone_set n x s).trans (sourceShown_cascade n x s).sourceAlone

theorem sourceShown_source (hn : n < 3) (x : SourceRec) (s : State) : (sourceShown n x s).source n = x := by
  rw [source_of_sources (sourceShown_cascade n x s).sources, setSource_source, if_pos ⟨rfl, hn⟩]

/-! ## Adopting a class -/

theorem adopt_eq (n : Nat) (c : RateClass) (s : State) :
    adopt send n c s = queueEvent (.rateChanged n c) (sourceShown n ((s.source n).adopted c) s) := rfl

theorem adopt_alone (n : Nat) (c : RateClass) (s : State) : SourceAlone n s (adopt send n c s) :=
  (sourceShown_alone n _ s).trans (Cascade.sourceAlone (cascade_queueEvent _ (.refl _)))

theorem adopt_source (hn : n < 3) (c : RateClass) (s : State) : (adopt send n c s).source n = (s.source n).adopted c :=
  sourceShown_source hn _ s

/-- RATE_CHANGED is the last record queued, behind those that waited and those that the items gave rise to (R126). -/
theorem adopt_event (n : Nat) (c : RateClass) (s : State) : ∃ q, s.seu.events.map Event.kind <+: q.map Event.kind ∧
    (adopt send n c s).seu.events = pushEvent { kind := .rateChanged n c, time := s.now, lost := false } q := by
  have k := sourceShown_alone n ((s.source n).adopted c) s
  refine ⟨_, k.events, ?_⟩
  rw [adopt_eq, ← k.now]
  rfl

/-! ## Closing a measurement -/

/-- The source with its measurement closed and the next one begun (R125). -/
def SourceRec.closed (x : SourceRec) (candidate : Option (RateClass × Nat)) : SourceRec :=
  { x with lastCount := x.edges, candidate := candidate, frames := 0, edges := 0 }

theorem closeMeasurement_none (h : (s.source n).candidateAfter (classOf (s.source n).edges) = none) :
    closeMeasurement send n s = setSource n ((s.source n).closed none) s := by
  unfold closeMeasurement
  simp only [h]
  rfl

theorem closeMeasurement_some {c : RateClass} {i : Nat}
    (h : (s.source n).candidateAfter (classOf (s.source n).edges) = some (c, i)) :
    closeMeasurement send n s = if 4 ≤ i then adopt send n c (setSource n ((s.source n).closed (some (c, i))) s)
      else setSource n ((s.source n).closed (some (c, i))) s := by
  unfold closeMeasurement
  simp only [h]
  rfl

theorem closeMeasurement_alone (n : Nat) (s : State) : SourceAlone n s (closeMeasurement send n s) := by
  cases h : (s.source n).candidateAfter (classOf (s.source n).edges) with
  | none =>
    rw [closeMeasurement_none h]
    exact sourceAlone_set _ _ _
  | some x =>
    rw [closeMeasurement_some h]
    split
    · exact (sourceAlone_set _ _ _).trans (adopt_alone _ _ _)
    · exact sourceAlone_set _ _ _

variable {x : SourceRec} {c : RateClass}

theorem candidateAfter_same (h : c = x.cls) : x.candidateAfter c = none := if_pos h

theorem candidateAfter_first (h : c ≠ x.cls) (hx : ∀ i, x.candidate ≠ some (c, i)) : x.candidateAfter c = some (c, 1) := by
  unfold SourceRec.candidateAfter
  rw [if_neg h]
  split
  · rename_i d i hd
    refine if_neg fun e => hx i ?_
    rw [hd, e]
  · rfl

theorem candidateAfter_again {i : Nat} (h : c ≠ x.cls) (hx : x.candidate = some (c, i)) :
    x.candidateAfter c = some (c, i + 1) := by
  unfold SourceRec.candidateAfter
  rw [if_neg h, hx]
  exact if_pos rfl

/-! ## A frame of a source that is measured -/

/-- The source once its frame has been counted, before the measurement is looked at (R124, R125, R127). -/
def SourceRec.counted (x : SourceRec) (c : SourceConfig) (l r : BitVec 32) (e : Nat) : SourceRec :=
  { arrivedSpec x c (c.frame l r) with frames := x.frames + 1, edges := x.edges + e, frameTimer := some frameTime }

theorem counted_class (x : SourceRec) (c : SourceConfig) (l r : BitVec 32) (e : Nat) :
    (x.counted c l r e).cls = x.cls ∧ (x.counted c l r e).candidate = x.candidate := by
  unfold SourceRec.counted arrivedSpec
  dsimp only
  repeat' split
  all_goals exact ⟨rfl, rfl⟩

variable {l r : BitVec 32} {e : Nat}

theorem sourceFrame_measured (hs : (s.source n).state ≠ .disabled) (hm : (s.source n).measuring = true) :
    sourceFrameArrival send n l r e s =
      let v := sourceShown n ((s.source n).counted (s.sourceConfig n) l r e) s
      if 8 ≤ (s.source n).frames + 1 then closeMeasurement send n v else v := by
  unfold sourceFrameArrival SourceRec.counted
  dsimp only
  rw [if_neg hs, hm, if_neg nofun, arrived_eq]
  rfl

theorem sourceFrame_alone (hs : (s.source n).state ≠ .disabled) (hm : (s.source n).measuring = true) :
    SourceAlone n s (sourceFrameArrival send n l r e s) := by
  rw [sourceFrame_measured hs hm]
  dsimp only
  split
  · exact (sourceShown_alone _ _ _).trans (closeMeasurement_alone _ _)
  · exact sourceShown_alone _ _ _

/-- Class `c` has been adopted by source `n`, whose XRUN flag was `xrun` (R126). -/
structure ClassAdopted (n : Nat) (xrun : Bool) (c : RateClass) (s t : State) : Prop where
  cls : (t.source n).cls = c
  candidate : (t.source n).candidate = none
  fifo : (t.source n).fifo = []
  decim : (t.source n).decim = 0
  xrun : (t.source n).xrun = xrun
  state : (t.source n).state = c.stateOf
  event : ∃ q, s.seu.events.map Event.kind <+: q.map Event.kind ∧
    t.seu.events = pushEvent { kind := .rateChanged n c, time := s.now, lost := false } q

theorem classAdopted_adopt (hn : n < 3) (c : RateClass) (h : SourceAlone n s t) :
    ClassAdopted n (t.source n).xrun c s (adopt send n c t) := by
  obtain ⟨q, before, queued⟩ := adopt_event n c t
  have x := adopt_source hn c t
  exact
    { cls := by rw [x]; rfl
      candidate := by rw [x]; rfl
      fifo := by rw [x]; rfl
      decim := by rw [x]; rfl
      xrun := by rw [x]; rfl
      state := by rw [x]; rfl
      event := ⟨q, h.events.trans before, by rw [queued, h.now]⟩ }

/-- A frame that does not end a measurement (R125). -/
theorem sourceFrame_goesOn (hn : n < 3) (hs : (s.source n).state ≠ .disabled) (hm : (s.source n).measuring = true)
    (hf : (s.source n).frames + 1 < 8) :
    (sourceFrameArrival send n l r e s).source n = (s.source n).counted (s.sourceConfig n) l r e := by
  rw [sourceFrame_measured hs hm]
  dsimp only
  rw [if_neg (Nat.not_le.mpr hf), sourceShown_source hn]

/-- The frame that ends a measurement: its class is the source's, is a candidate, or is adopted (R125, R126). -/
theorem sourceFrame_closes (hn : n < 3) (hs : (s.source n).state ≠ .disabled) (hm : (s.source n).measuring = true)
    (hf : 8 ≤ (s.source n).frames + 1) :
    let x := s.source n
    let y := x.counted (s.sourceConfig n) l r e
    let k := classOf y.edges
    let t := sourceFrameArrival send n l r e s
    (k = x.cls → t.source n = y.closed none) ∧
    (k ≠ x.cls → (∀ i, x.candidate ≠ some (k, i)) → t.source n = y.closed (some (k, 1))) ∧
    (∀ i, k ≠ x.cls → x.candidate = some (k, i) →
      (i + 1 < 4 → t.source n = y.closed (some (k, i + 1))) ∧ (4 ≤ i + 1 → ClassAdopted n y.xrun k s t)) := by
  intro x y k t
  let v := sourceShown n y s
  have shown : v.source n = y := sourceShown_source hn y s
  have closes : t = closeMeasurement send n v := (sourceFrame_measured hs hm).trans (if_pos hf)
  have taken : ∀ z, (setSource n z v).source n = z := fun z => by rw [setSource_source, if_pos ⟨rfl, hn⟩]
  obtain ⟨cls, candidate⟩ := counted_class x (s.sourceConfig n) l r e
  refine ⟨fun hk => ?_, fun hk hc => ?_, fun i hk hc => ?_⟩
  · rw [closes, closeMeasurement_none (by rw [shown]; exact candidateAfter_same (hk.trans cls.symm)), taken, shown]
  · have first : y.candidateAfter k = some (k, 1) := candidateAfter_first (fun h => hk (h.trans cls)) (candidate.symm ▸ hc)
    rw [closes, closeMeasurement_some (by rw [shown]; exact first), if_neg (by decide), taken, shown]
  · have again : y.candidateAfter k = some (k, i + 1) := candidateAfter_again (fun h => hk (h.trans cls)) (candidate.trans hc)
    have closed := closes.trans (closeMeasurement_some (by rw [shown]; exact again))
    rw [shown] at closed
    refine ⟨fun hi => ?_, fun hi => ?_⟩
    · rw [closed, if_neg (Nat.not_le.mpr hi), taken]
    · rw [closed, if_pos hi]
      have adopted := classAdopted_adopt hn k ((sourceShown_alone n y s).trans (sourceAlone_set n (y.closed (some (k, i + 1))) v))
      rw [taken] at adopted
      exact adopted

/-! ## The frame timer -/

/-- The source with its measurement discarded (R125). -/
def SourceRec.discarded (x : SourceRec) : SourceRec :=
  { x with measuring := false, frames := 0, edges := 0, candidate := none, frameTimer := none }

theorem frameTimer_idle (h : (s.source n).frameTimer = none) : frameTimerExpiry send n s = s := by
  unfold frameTimerExpiry
  dsimp only
  rw [h]

theorem frameTimer_runs (h : (s.source n).frameTimer.isSome = true) : frameTimerExpiry send n s =
    let v := setSource n (s.source n).discarded s
    if (s.source n).cls = .none then v else adopt send n .none v := by
  obtain ⟨k, hk⟩ := Option.isSome_iff_exists.mp h
  unfold frameTimerExpiry
  dsimp only
  rw [hk]
  rfl

/-- The end of the edges of a source of some class: class NONE is adopted, and the frame timer runs anew (R125, R126). -/
theorem frameTimer_adopts (hn : n < 3) (h : (s.source n).frameTimer.isSome = true) (hc : (s.source n).cls ≠ .none) :
    let t := frameTimerExpiry send n s
    SourceAlone n s t ∧ ClassAdopted n (s.source n).xrun .none s t ∧ (t.source n).frameTimer = some 2 ∧
      (t.source n).measuring = false := by
  intro t
  have alone := sourceAlone_set n (s.source n).discarded s
  have adopts : t = adopt send n .none (setSource n (s.source n).discarded s) := (frameTimer_runs h).trans (if_neg hc)
  have adopted := classAdopted_adopt hn .none alone
  have x := adopt_source hn .none (setSource n (s.source n).discarded s)
  rw [setSource_source, if_pos ⟨rfl, hn⟩] at adopted x
  rw [adopts, x]
  exact ⟨alone.trans (adopt_alone _ _ _), adopted, rfl, rfl⟩

/-! ## The end of the handling -/

theorem beginWrite_source (s : State) (k : Nat) : (beginWrite s).source k = s.source k :=
  source_of_sources (by rw [beginWrite_zae]) k

theorem SourceAlone.beginWrite (h : SourceAlone n s t) : SourceAlone n s (Machine.beginWrite t) := by
  obtain ⟨settings, pins, slp, memory, clips, owners, others, now, events⟩ := h
  constructor <;> simp only [beginWrite_settings, beginWrite_pins, beginWrite_slp, beginWrite_zae, beginWrite_now, beginWrite_seu,
    beginWrite_source] <;> assumption

theorem ClassAdopted.beginWrite {x : Bool} (h : ClassAdopted n x c s t) : ClassAdopted n x c s (Machine.beginWrite t) := by
  obtain ⟨cls, candidate, fifo, decim, xrun, state, event⟩ := h
  constructor <;> simp only [beginWrite_source, beginWrite_seu] <;> assumption

end

/-- Settles O45: the first edge and the two cases of the frame timer by the model's equations, a frame that is measured by
`sourceFrame_goesOn` and `sourceFrame_closes`. -/
theorem sourceFramesAreMeasuredAndKept : Obligations.SourceFramesAreMeasuredAndKept := by
  intro s n hrest x c adopted frame
  have is_frame : ∀ {t}, SourceAlone n.val s t → frame t := fun h =>
    ⟨h.settings, h.pins, h.slp, h.memory, h.clips, h.owners, h.others⟩
  have is_adopted : ∀ {y : SourceRec} {k t}, ClassAdopted n.val y.xrun k s t → adopted y k t := fun {_ k _} h =>
    ⟨h.cls, h.candidate, h.fifo, h.decim, h.xrun, h.state.trans (by cases k <;> rfl), h.event⟩
  refine ⟨fun l r e => ⟨fun hs => ?_, fun hs hm => ?_, fun hs hm => ?_⟩, fun h => ?_, fun h hc => ?_, fun h hc => ?_⟩
  · have stays : sourceFrameArrival send n.val l r e s = s := if_pos hs
    exact (congrArg finish stays).trans (finish_atRest hrest)
  · have begins : sourceFrameArrival send n.val l r e s = _ := (if_neg hs).trans (if_pos hm)
    exact (congrArg finish begins).trans (finish_atRest (s := setSource n.val _ s) hrest)
  · refine ⟨_, fin_next _, is_frame (sourceFrame_alone hs hm).beginWrite, fun hf => ?_, fun hf => ?_⟩
    · exact (beginWrite_source _ _).trans (sourceFrame_goesOn n.isLt hs hm hf)
    · obtain ⟨same, first, again⟩ := sourceFrame_closes (l := l) (r := r) (e := e) n.isLt hs hm hf
      refine ⟨fun hk => (beginWrite_source _ _).trans (same hk), fun hk hc => (beginWrite_source _ _).trans (first hk hc),
        fun i hk hc => ?_⟩
      obtain ⟨counts, adopts⟩ := again i hk hc
      exact ⟨fun hi => (beginWrite_source _ _).trans (counts hi), fun hi => is_adopted (adopts hi).beginWrite⟩
  · exact (congrArg finish (frameTimer_idle h)).trans (finish_atRest hrest)
  · exact (congrArg finish ((frameTimer_runs h).trans (if_pos hc))).trans (finish_atRest (s := setSource n.val _ s) hrest)
  · obtain ⟨alone, adopts, timer, measuring⟩ := frameTimer_adopts n.isLt h hc
    refine ⟨_, fin_next _, is_frame alone.beginWrite, is_adopted adopts.beginWrite, ?_, ?_⟩
    · rw [beginWrite_source, timer]
    · rw [beginWrite_source, measuring]

end Sys2Proof.Machine
end

section
/-! PROOFS. The output frame: the sources popped, the voices and the page moved on, the zones mixed (O46). -/

namespace Sys2Proof.Machine

variable {s : State} {z : Nat} {x : ZoneRec}

/-! ## The sources -/

theorem zaeFrame_kept (s : State) : s.zaeFrame.memory = s.zae.memory ∧ s.zaeFrame.clips = s.zae.clips ∧
    s.zaeFrame.owners = s.zae.owners ∧ s.zaeFrame.sources = (s.zae.sources.map SourceRec.popped).map Prod.snd := by
  unfold State.zaeFrame
  dsimp only
  split <;> exact ⟨rfl, rfl, rfl, rfl⟩

theorem zaeFrame_page (s : State) : s.zaeFrame.page = s.zae.page.map fun p => (s.pageMoves p).1 := by
  unfold State.zaeFrame
  dsimp only
  split
  · rename_i h
    rw [h]
    rfl
  · rename_i h
    rw [h]
    rfl

/-! ## The voice of a zone -/

/-- A wait for a repeat: the repeat begins when it is due, or the wait has gone on by one frame (R148). -/
theorem voiceBegins_wait {m : MachineId} {rest : List MachineId} (hv : x.voice = .repeatWait) (hl : x.list = m :: rest) :
    s.voiceBegins x = if (s.announce m).repeatInterval * 48 ≤ x.since + 1 then s.beginPlay m x else { x with since := x.since + 1 } := by
  unfold State.voiceBegins
  rw [hv, hl]
  rfl

theorem voiceBegins_other (hv : x.voice ≠ .repeatWait) : s.voiceBegins x = x := by
  unfold State.voiceBegins
  split
  · exact absurd ‹_› hv
  · rfl

theorem voiceBegins_quiet (s : State) (x : ZoneRec) : (s.voiceBegins x).quiet = x.quiet := by
  unfold State.voiceBegins State.beginPlay
  split
  · split <;> rfl
  · rfl

theorem voiceFrame_silent (hv : x.voice = .silent) : s.voiceFrame x = (.nothing, 0, x) := by
  unfold State.voiceFrame
  rw [hv]

theorem voiceFrame_waits (hv : x.voice = .repeatWait ∨ x.voice = .played) : s.voiceFrame x = (.nothing, s.listDuck x.list, x) := by
  unfold State.voiceFrame
  rcases hv with hv | hv <;> rw [hv]

theorem voiceFrame_plays (hv : x.voice = .play) :
    s.voiceFrame x = (s.soundAt x.sound x.place, s.listDuck x.list, s.playMoves x) := by
  unfold State.voiceFrame
  rw [hv]

theorem voiceFrame_page {p : PageRec} (hv : x.voice = .page) (hp : s.zae.page = some p) :
    s.voiceFrame x = (.sample (s.clipSample p.clip p.place), p.duck, x) := by
  unfold State.voiceFrame
  rw [hv, hp]

/-- A play goes on with the next sample, or ends with its last one and waits as its RepeatInterval says (R146, R148). -/
theorem playMoves_spec (s : State) (x : ZoneRec) :
    (x.place + 1 < s.soundLength x.sound → (s.playMoves x).voice = x.voice ∧ (s.playMoves x).place = x.place + 1) ∧
    (s.soundLength x.sound ≤ x.place + 1 →
      (s.playMoves x).voice = if s.headRepeat x.list = 0 then .played else .repeatWait) ∧
    (s.playMoves x).quiet = x.quiet := by
  unfold State.playMoves
  dsimp only
  refine ⟨fun h => ?_, fun h => ?_, ?_⟩
  · rw [if_neg (Nat.not_le.mpr h)]
    exact ⟨rfl, rfl⟩
  · rw [if_pos h]
  · split <;> rfl

/-- A frame makes no voice begin or leave a page, and leaves QUIET alone. -/
theorem voiceFrame_kept (s : State) (x : ZoneRec) :
    ((s.voiceFrame x).2.2.voice = .page ↔ x.voice = .page) ∧ (s.voiceFrame x).2.2.quiet = x.quiet := by
  obtain ⟨goesOn, ends, quiet⟩ := playMoves_spec s x
  cases hv : x.voice with
  | silent => rw [voiceFrame_silent hv, hv]; exact ⟨Iff.rfl, rfl⟩
  | repeatWait => rw [voiceFrame_waits (.inl hv), hv]; exact ⟨Iff.rfl, rfl⟩
  | played => rw [voiceFrame_waits (.inr hv), hv]; exact ⟨Iff.rfl, rfl⟩
  | page =>
    unfold State.voiceFrame
    rw [hv]
    dsimp only
    split <;> exact ⟨iff_of_true hv rfl, rfl⟩
  | play =>
    rw [voiceFrame_plays hv]
    refine ⟨iff_of_false ?_ nofun, quiet⟩
    rcases Nat.lt_or_ge (x.place + 1) (s.soundLength x.sound) with h | h
    · rw [(goesOn h).1, hv]
      nofun
    · rw [ends h]
      split <;> nofun

/-! ## The mix of a zone -/

/-- The frame a zone takes from its source, folded where it says so (R130, R132). -/
def State.zoneSamples (s : State) (z : Nat) : Int × Int :=
  foldFrame (s.zoneConfig z).fold (match (s.zoneConfig z).source with
    | some k => (s.source k).popped.1
    | none => (0, 0))

/-- One channel of the mix, from the clip or tone term and the duck (R133). -/
def ZoneConfig.out (c : ZoneConfig) (term : Int) (duck : Nat) (v : Int) : Int :=
  max (-8388608) (min 8388607 ((if c.volume + duck ≤ 23 then v / 2 ^ (c.volume + duck) else 0) + term))

theorem mixed_eq (c : ZoneConfig) (v term : Int) (duck : Nat) : mixed v (c.volume + duck) term = c.out term duck v :=
  clampInt_eq _

/-- What the voice of a zone hands the mix, its duck, and the zone afterwards. -/
def State.handed (s : State) (z : Nat) : VoiceOut × Nat × ZoneRec := s.voiceFrame (s.voiceBegins (s.zone z))

/-- The record of a zone after an output frame, with the page's completion still to come. -/
def State.mixedZone (s : State) (z : Nat) : ZoneRec :=
  let c := s.zoneConfig z
  let v := s.handed z
  { v.2.2 with
    duck := v.2.1
    left := c.out (clipTerm v.1 c.level) v.2.1 (s.zoneSamples z).1
    right := c.out (clipTerm v.1 c.level) v.2.1 (s.zoneSamples z).2 }

theorem zoneFrame_eq (s : State) (z : Nat) :
    s.zoneFrame ((s.zae.sources.map SourceRec.popped).map Prod.fst) (s.zoneConfig z) (s.zone z) = s.mixedZone z := by
  unfold State.zoneFrame State.mixedZone State.zoneSamples
  simp only [frames_peek, mixed_eq]
  rfl

/-- The zone record that an output frame leaves (R130, R151). -/
def State.zoneAfter (s : State) (z : Nat) : ZoneRec := peek s.zaeFrame.zones z

theorem zoneAfter_noPage (hz : z < 8) (hp : s.zae.page = none) : s.zoneAfter z = s.mixedZone z := by
  refine (zaeFrame_zone s z hz).trans ?_
  rw [hp, zoneFrame_eq]

theorem zoneAfter_page (hz : z < 8) {p : PageRec} (hp : s.zae.page = some p) :
    s.zoneAfter z = if (s.clip p.clip).length ≤ p.place + 1 then (s.mixedZone z).pageCompleted else s.mixedZone z := by
  refine (zaeFrame_zone s z hz).trans ?_
  rw [hp, zoneFrame_eq]

theorem zoneAfter_same (hz : z < 8) : SameZone (s.mixedZone z) (s.zoneAfter z) := by
  cases hp : s.zae.page with
  | none => rw [zoneAfter_noPage hz hp]; exact ⟨rfl, rfl, rfl, rfl⟩
  | some p =>
    rw [zoneAfter_page hz hp]
    split
    · exact (pageCompleted_same _).1
    · exact ⟨rfl, rfl, rfl, rfl⟩

/-- A voice outside PAGE is not touched by a page's completion. -/
theorem zoneAfter_unpaged (hz : z < 8) (hv : (s.mixedZone z).voice ≠ .page) : s.zoneAfter z = s.mixedZone z := by
  cases hp : s.zae.page with
  | none => exact zoneAfter_noPage hz hp
  | some p =>
    rw [zoneAfter_page hz hp, (pageCompleted_same _).2.1 hv, ite_self]

/-! ## The handling -/

/-- The items that follow an output frame. -/
def outputItems : List ItemRef := sourceItems 0 ++ sourceItems 1 ++ sourceItems 2 ++ [Item.toneAny]

theorem plain_outputItems : ∀ r ∈ outputItems, r ∉ builtInItems := by decide

/-- The state with the engine's frame done and the items following it. -/
def framePublished (s : State) : State := publishAll send outputItems (s.onZae fun _ => s.zaeFrame)

theorem outputFrame_running (h : s.phase = .running) : outputFrame send s = endPageIfDone send (framePublished s) := if_pos h

theorem framePublished_cascade (s : State) : Cascade (s.onZae fun _ => s.zaeFrame) (framePublished s) :=
  cascade_publishAll cascades_send _ (.refl _)

theorem outputFrame_cascade (h : s.phase = .running) : Cascade (s.onZae fun _ => s.zaeFrame) (outputFrame send s) := by
  rw [outputFrame_running h]
  exact cascade_endPageIfDone cascades_send (framePublished_cascade s)

/-- What an output frame leaves in the sources, the outputs of the zones and all else, whatever its items give rise to (R130). -/
structure Framed (s t : State) : Prop where
  settings : t.settings = s.settings
  pins : t.pins = s.pins
  slp : t.slp = s.slp
  memory : t.zae.memory = s.zae.memory
  clips : t.zae.clips = s.zae.clips
  owners : t.zae.owners = s.zae.owners
  source : ∀ n, n < 3 → t.source n = (s.source n).popped.2
  zone : ∀ z, SameZone (s.zoneAfter z) (t.zone z)

theorem framed_outputFrame (h : s.phase = .running) : Framed s (outputFrame send s) := by
  have k := outputFrame_cascade h
  obtain ⟨memory, clips, owners, sources⟩ := zaeFrame_kept s
  refine ⟨k.settings, k.pins, k.slp, k.memory.trans memory, k.clips.trans clips, k.owners.trans owners, fun n hn => ?_, k.zone⟩
  unfold State.source
  rw [k.sources]
  show peek s.zaeFrame.sources n = _
  rw [sources]
  exact sources_peek s n hn

/-- Without host entries the voices and the page are those of the engine's frame, and a page that nobody plays ends (R151). -/
theorem outputFrame_quiet (h : s.phase = .running) (hno : NoHostEntries s) : (outputFrame send s).zae = { s.zaeFrame with
    page := if (s.zaeFrame.page.any fun p => !p.playing.any id) then none else s.zaeFrame.page } := by
  have silent : Silent (s.onZae fun _ => s.zaeFrame) (framePublished s) :=
    silent_publishAll quiet_send (s := s.onZae fun _ => s.zaeFrame) hno _ plain_outputItems
  rw [outputFrame_running h, endPage_spec quiet_send (hno.of_settings (by rw [silent]; rfl)), silent_zae silent]
  rfl

/-! ## The page -/

/-- The last sample of a page has been handed: it ends, completed in every zone that played it (R151). -/
theorem outputFrame_pageEnds (h : s.phase = .running) (hno : NoHostEntries s) {p : PageRec} (hp : s.zae.page = some p)
    (hl : (s.clip p.clip).length ≤ p.place + 1) :
    (outputFrame send s).zae.page = none ∧ ((outputFrame send s).seu.events.length < 32 →
      .pageEnded p.clip (Vector.ofFn fun k : Fin 8 => peek p.completed k.val || peek p.playing k.val) p.cut ∈
        (outputFrame send s).seu.events.map Event.kind) := by
  let done : PageRec := { p with
    playing := Vector.replicate 8 false
    completed := Vector.ofFn fun z : Fin 8 => peek p.completed z.val || peek p.playing z.val }
  have moved : s.zaeFrame.page = some done := by
    rw [zaeFrame_page, hp]
    exact congrArg (fun m : PageRec × Bool => some m.1) (if_pos hl)
  have nobody : done.playing.any id = false := (by simp : (Vector.replicate 8 false).any id = false)
  refine ⟨?_, fun he => ?_⟩
  · rw [outputFrame_quiet h hno, moved]
    exact if_pos (by rw [Option.any_some, nobody]; rfl)
  · have silent : Silent (s.onZae fun _ => s.zaeFrame) (framePublished s) :=
      silent_publishAll quiet_send (s := s.onZae fun _ => s.zaeFrame) hno _ plain_outputItems
    have page : (framePublished s).zae.page = some done := by
      rw [silent_zae silent]
      exact moved
    rw [outputFrame_running h] at he ⊢
    exact endPage_event cascades_send page nobody he

/-- A page that a zone still plays moves on by the sample handed (R151). -/
theorem outputFrame_pageGoesOn (h : s.phase = .running) (hno : NoHostEntries s) {p : PageRec} (hp : s.zae.page = some p)
    (hl : p.place + 1 < (s.clip p.clip).length) (hplay : p.playing.any id = true) :
    (outputFrame send s).zae.page = some { p with place := p.place + 1 } := by
  have moved : s.zaeFrame.page = some { p with place := p.place + 1 } := by
    rw [zaeFrame_page, hp]
    exact congrArg (fun m : PageRec × Bool => some m.1) (if_neg (Nat.not_le.mpr hl))
  rw [outputFrame_quiet h hno, moved]
  exact if_neg (by rw [Option.any_some, hplay]; nofun)

/-! ## One zone after an output frame -/

/-- The lines and the duck of a zone, from what its voice handed. -/
theorem zoneAfter_mixes (hz : z < 8) {t : State} (ht : SameZone (s.zoneAfter z) (t.zone z)) {v : VoiceOut} {d : Nat} {w : ZoneRec}
    (hh : s.voiceFrame (s.voiceBegins (s.zone z)) = (v, d, w)) :
    let c := s.zoneConfig z
    t.zoneOutput z = (c.out (clipTerm v c.level) d (s.zoneSamples z).1, c.out (clipTerm v c.level) d (s.zoneSamples z).2) ∧
      (t.zone z).duck = d := by
  obtain ⟨-, left, right, duck⟩ := zoneAfter_same (s := s) hz
  obtain ⟨-, left', right', duck'⟩ := ht
  have handed : s.handed z = (v, d, w) := hh
  have mixedZone : s.mixedZone z = { w with
      duck := d
      left := (s.zoneConfig z).out (clipTerm v (s.zoneConfig z).level) d (s.zoneSamples z).1
      right := (s.zoneConfig z).out (clipTerm v (s.zoneConfig z).level) d (s.zoneSamples z).2 } := by
    unfold State.mixedZone
    rw [handed]
  rw [mixedZone] at left right duck
  exact ⟨Prod.ext (left'.trans left) (right'.trans right), duck'.trans duck⟩

theorem zoneAfter_quiet (hz : z < 8) : (s.zoneAfter z).quiet = (s.zone z).quiet :=
  (zoneAfter_same hz).1.trans ((voiceFrame_kept s _).2.trans (voiceBegins_quiet s _))

/-- A voice in PLAY moves on as its sound and its list say. -/
theorem zoneAfter_plays (hz : z < 8) (hv : (s.voiceBegins (s.zone z)).voice = .play) :
    (s.zoneAfter z).voice = (s.playMoves (s.voiceBegins (s.zone z))).voice ∧
      (s.zoneAfter z).place = (s.playMoves (s.voiceBegins (s.zone z))).place := by
  have handed : s.handed z = _ := voiceFrame_plays hv
  have unpaged : (s.mixedZone z).voice ≠ .page := fun e => by
    have := (voiceFrame_kept s _).1.mp e
    rw [hv] at this
    cases this
  rw [zoneAfter_unpaged hz unpaged]
  unfold State.mixedZone
  rw [handed]
  exact ⟨rfl, rfl⟩

/-- While a page goes on, the voices in PAGE stay there, and no other enters it. -/
theorem zoneAfter_paged (hz : z < 8) {p : PageRec} (hp : s.zae.page = some p) (hl : p.place + 1 < (s.clip p.clip).length) :
    (s.zoneAfter z).voice = .page ↔ (s.voiceBegins (s.zone z)).voice = .page := by
  rw [zoneAfter_page hz hp, if_neg (Nat.not_le.mpr hl)]
  exact (voiceFrame_kept s _).1

/-- A page's last sample silences every voice that is in PAGE (R151). -/
theorem zoneAfter_completed (hz : z < 8) {p : PageRec} (hp : s.zae.page = some p) (hl : (s.clip p.clip).length ≤ p.place + 1)
    (hv : (s.voiceBegins (s.zone z)).voice = .page) : (s.zoneAfter z).voice = .silent := by
  rw [zoneAfter_page hz hp, if_pos hl]
  exact (pageCompleted_same _).2.2 ((voiceFrame_kept s _).1.mpr hv)

theorem soundLength_eq (s : State) (x : Sound) : s.soundLength x = match x with
    | .tone => 24000
    | .clip k => (s.clip k).length := by
  cases x <;> rfl

/-! ## The end of the handling -/

theorem beginWrite_zone (t : State) (z : Nat) : (beginWrite t).zone z = t.zone z := by
  unfold State.zone
  rw [beginWrite_zae]

theorem Framed.beginWrite {t : State} (h : Framed s t) : Framed s (Machine.beginWrite t) := by
  obtain ⟨settings, pins, slp, memory, clips, owners, source, zone⟩ := h
  constructor <;> simp only [beginWrite_settings, beginWrite_pins, beginWrite_slp, beginWrite_zae, beginWrite_source, beginWrite_zone] <;>
    assumption

/-- The lines of a zone carry values of the 24-bit domain (R133). -/
theorem consistent_zoneOutput (h : Consistent s) (hz : z < 8) :
    (-8388608 ≤ (s.zoneOutput z).1 ∧ (s.zoneOutput z).1 ≤ 8388607) ∧ -8388608 ≤ (s.zoneOutput z).2 ∧ (s.zoneOutput z).2 ≤ 8388607 := by
  obtain ⟨⟨-, -, -, -, -, -, -, outputs, -⟩, -⟩ := h
  exact outputs z hz

/-- Settles O46: the lines by `zoneAfter_mixes` for each voice, the voices and the page by the lemmas on `zoneAfter` and on the
page. -/
theorem outputFrameMixesEveryZone : Obligations.OutputFrameMixesEveryZone := by
  refine ⟨fun s h z hz => consistent_zoneOutput h hz, fun s => ⟨fun hp => ?_, fun hp => ?_⟩⟩
  · have asleep : beginWrite s = s := by
      unfold beginWrite
      split
      · exact absurd ‹_› hp
      · rfl
    exact (congrArg finish (if_neg hp : outputFrame send s = s)).trans (congrArg Host.Outcome.next asleep)
  have framed := (framed_outputFrame hp).beginWrite
  refine ⟨_, fin_next _, framed.settings, framed.pins, framed.slp, framed.memory, framed.clips, framed.owners,
    fun n hn => (framed.source n hn).trans (congrArg Prod.snd (popped_eq _)), fun z hz => ?_⟩
  intro c x head given folded sample largest out mixes
  have samples : folded = s.zoneSamples z := by
    show foldFrame c.fold given = foldFrame c.fold _
    congr 1
    show (match c.source with | some k => head k | none => (0, 0)) = _
    cases (s.zoneConfig z).source with
    | none => rfl
    | some k => exact (congrArg Prod.fst (popped_eq _)).symm
  have mix : ∀ {v d w}, s.voiceFrame x = (v, d, w) → mixes (clipTerm v c.level) d := fun h => by
    show _ = (out _ _ folded.1, out _ _ folded.2) ∧ _
    rw [samples]
    exact zoneAfter_mixes hz (framed.zone z) h
  refine ⟨fun m rest hv hl => ⟨fun hdue => ?_, fun hdue => ?_⟩, voiceBegins_other, (framed.zone z).1.trans (zoneAfter_quiet hz),
    fun hv => mix (voiceFrame_silent hv), fun hv => mix (voiceFrame_waits hv), fun k hv hsound => ?_, fun hv hsound => ?_,
    fun p hv hpage => mix (voiceFrame_page hv hpage), fun hno => ?_⟩
  · have begins : x = s.beginPlay m (s.zone z) := (voiceBegins_wait hv hl).trans (if_pos hdue)
    rw [begins]
    exact ⟨rfl, rfl, rfl⟩
  · exact (voiceBegins_wait hv hl).trans (if_neg (Nat.not_le.mpr hdue))
  · have h := mix (voiceFrame_plays hv)
    rw [hsound] at h
    exact h
  · have h := mix (voiceFrame_plays hv)
    rw [hsound] at h
    exact h
  intro length
  have soundLength : s.soundLength x.sound = length := soundLength_eq s x.sound
  have zone : (beginWrite (outputFrame send s)).zone z = s.zoneAfter z := by
    rw [beginWrite_zone]
    unfold State.zone
    rw [outputFrame_quiet hp hno]
    rfl
  obtain ⟨goesOn, ends, -⟩ := playMoves_spec s x
  rw [soundLength] at goesOn ends
  rw [zone, beginWrite_zae, beginWrite_seu]
  refine ⟨fun hv hl => ?_, fun m rest hv hl hlist => ?_, fun p hpage => ⟨zoneAfter_paged hz hpage,
    fun hl hv => zoneAfter_completed hz hpage hl hv, outputFrame_pageEnds hp hno hpage, outputFrame_pageGoesOn hp hno hpage⟩⟩
  · obtain ⟨voice, place⟩ := zoneAfter_plays hz hv
    exact ⟨voice.trans ((goesOn hl).1.trans hv), place.trans (goesOn hl).2⟩
  · have moved := ends hl
    rw [hlist] at moved
    exact (zoneAfter_plays hz hv).1.trans moved

end Sys2Proof.Machine
end

section
/-! PROOFS. A page that is cancelled, and the expiry of the link-quiet timer, which cancels it (O14). -/

namespace Sys2Proof.Machine

variable {s t : State}

/-- No cascade begins a page. -/
theorem Cascade.noPage (h : Cascade s t) (hs : s.zae.page = none) : t.zae.page = none := by
  cases ht : t.zae.page with
  | none => rfl
  | some p =>
    obtain ⟨x, hx, -⟩ := h.page p ht
    rw [hs] at hx
    cases hx

/-! ## A page cancelled -/

/-- The record of a page that has been cut in every zone still playing it (R151). -/
def PageRec.cutEverywhere (p : PageRec) : PageRec :=
  { p with
    playing := Vector.replicate 8 false
    cut := Vector.ofFn fun z : Fin 8 => peek p.cut z.val || peek p.playing z.val }

/-- The page cut everywhere, and its voices silent with it (R151). -/
theorem cutPage_everywhere {p : PageRec} (hp : s.zae.page = some p) :
    cutPage (fun _ => true) s =
      { s with zae := { s.zae with zones := (cutPage (fun _ => true) s).zae.zones, page := some p.cutEverywhere } } := by
  refine (cutPage_spec _ s p hp).1.trans ?_
  simp only [Bool.and_true, Bool.and_not_self]
  rfl

theorem cutPage_everywhere_zone {p : PageRec} (hp : s.zae.page = some p) {n : Nat} (hn : n < 8) :
    (cutPage (fun _ => true) s).zone n =
      if peek p.playing n = true ∧ (s.zone n).voice = .page then { s.zone n with voice := .silent, place := 0, since := 0 }
      else s.zone n := by
  refine ((cutPage_spec (fun _ => true) s p hp).2 n).trans (if_congr ?_ rfl rfl)
  rw [and_iff_right hn]
  simp only [Bool.and_true]

/-- Nobody plays a page that has been cut everywhere. -/
theorem cutEverywhere_unplayed (p : PageRec) : p.cutEverywhere.playing.any id = false :=
  (by simp : (Vector.replicate 8 false).any id = false)

/-- The page over: its event queued and its record removed, before PAGING follows (R151). -/
def pageOver (p : PageRec) (s : State) : State :=
  (queueEvent (.pageEnded p.clip p.completed p.cut) s).onZae fun a => { a with page := none }

theorem pageOver_zone (p : PageRec) (s : State) (n : Nat) : (pageOver p s).zone n = s.zone n := rfl

/-- A page in progress that is cancelled is cut everywhere and is over (R152). -/
theorem cancelPageNow_eq {p : PageRec} (hp : s.zae.page = some p) :
    cancelPageNow send s = publish send (pageOver p.cutEverywhere (cutPage (fun _ => true) s)) Item.paging := by
  have page : (cutPage (fun _ => true) s).zae.page = some p.cutEverywhere := by rw [cutPage_everywhere hp]
  unfold cancelPageNow endPageIfDone
  rw [page]
  exact if_neg (by rw [cutEverywhere_unplayed]; nofun)

/-- After a cancel no page is in progress (R152). -/
theorem cancelPageNow_page (s : State) : (cancelPageNow send s).zae.page = none := by
  cases hp : s.zae.page with
  | none => exact (cascade_cancelPageNow cascades_send (.refl s)).noPage hp
  | some p =>
    rw [cancelPageNow_eq hp]
    exact (cascade_publish cascades_send _ (.refl _)).noPage rfl

/-! ## LINK_LOST raised -/

/-- A raise of LINK_LOST, which holds no machine, up to its event (R106, steps 1 to 4). -/
def linkLostAnnounced (s : State) : State :=
  queueEvent (.faultRaised causeLinkLost (s.affectedSet causeLinkLost) (s.causeSetting causeLinkLost).trip)
    (publish send (setCause causeLinkLost { s.cause causeLinkLost with active := true, raisedAt := some s.now } s)
      (Item.cause causeLinkLost))

/-- What a raise of LINK_LOST does once it has cancelled the page is a cascade (R106, R152). -/
theorem raise_linkLost_cancels (s : State) :
    Cascade (cancelPageNow send (linkLostAnnounced s)) (raise send causeLinkLost s) := by
  have core : Cascade (cancelPageNow send (linkLostAnnounced s)) (raiseCore send causeLinkLost s) :=
    cascade_when (.refl _) fun k => cascade_requestWrite cascades_send _ _ k
  have tripped := cascade_when (p := (s.causeSetting causeLinkLost).trip = true) core fun k =>
    cascade_takeTrip cascades_send causeLinkLost k
  rw [raise_eq]
  exact cascade_ite (fun _ => tripped) fun _ => cascade_afterRelease cascades_send _ (cascade_handOver cascades_send tripped)

/-- A raise of LINK_LOST ends a page in progress (R152). -/
theorem raise_linkLost_page (s : State) : (raise send causeLinkLost s).zae.page = none :=
  (raise_linkLost_cancels s).noPage (cancelPageNow_page _)

/-- An appearance of LINK_LOST's condition while the cause is inactive ends a page in progress (R105, R152). -/
theorem report_linkLost_page (hp : (s.cause causeLinkLost).present = false) (ha : (s.cause causeLinkLost).active = false) :
    (report send causeLinkLost true s).zae.page = none := by
  have raises : report send causeLinkLost true s =
      raise send causeLinkLost (setCause causeLinkLost { s.cause causeLinkLost with present := true } s) := by
    unfold report
    simp only [hp, ha, if_true, Bool.false_eq_true, if_false]
  rw [raises]
  exact raise_linkLost_page _

/-! ## The expiry -/

/-- The part with the link-quiet timer run out, before LINK_OK follows (R177). -/
def linkGone (s : State) : State := s.onSlp fun l => { l with quiet := none, linkOk := false }

/-- The part with the link-quiet timer run out and LINK_OK published, before LINK_LOST is reported. -/
def linkGoneTold (s : State) : State := publish send (linkGone s) Item.linkOk

theorem linkGoneTold_cascade (s : State) : Cascade (linkGone s) (linkGoneTold s) := cascade_publish cascades_send _ (.refl _)

theorem linkQuietTimerExpiry_running (h : s.slp.quiet.isSome = true) :
    linkQuietTimerExpiry send s = report send causeLinkLost true (linkGoneTold s) := by
  obtain ⟨n, hn⟩ := Option.isSome_iff_exists.mp h
  unfold linkQuietTimerExpiry
  rw [hn]
  rfl

theorem linkQuietTimerExpiry_stopped (h : s.slp.quiet = none) : linkQuietTimerExpiry send s = s := by
  unfold linkQuietTimerExpiry
  rw [h]

/-- What stands once LINK_LOST's condition has appeared (R105, R106, R177). -/
theorem report_linkLost (hp : (s.cause causeLinkLost).present = false) :
    let t := report send causeLinkLost true s
    t.slp = s.slp ∧ t.settings = s.settings ∧ t.pins = s.pins ∧ (∀ m, (t.chan m).position = (s.chan m).position) ∧
      (t.cause causeLinkLost).active = true ∧ (t.cause causeLinkLost).present = true ∧
      ((s.cause causeLinkLost).active = false → (t.cause causeLinkLost).raisedAt = some s.now) := by
  obtain ⟨x, after, present, -, appeared⟩ := report_present causeLinkLost (by decide) s
  obtain ⟨active, raisedAt⟩ := appeared hp
  have record : (setCause causeLinkLost x s).cause causeLinkLost = x := by rw [setCause_cause, if_pos ⟨rfl, by decide⟩]
  obtain ⟨stands, still, since⟩ := after.causeStands (c := causeLinkLost) (by decide) (by decide)
    (by rw [record]; exact active) (by rw [record]; exact present)
  refine ⟨after.slp, after.settings, after.pins, after.position, stands, still, fun ha => ?_⟩
  rw [since, record, raisedAt, ha]
  rfl

/-- Settles O14: what the report leaves by `report_linkLost`, the page by `report_linkLost_page`. -/
theorem linkQuietExpiryRaisesLinkLost : Obligations.LinkQuietExpiryRaisesLinkLost := by
  refine fun s => ⟨fun hq hrest => ?_, fun hq hp => ?_⟩
  · show finish (linkQuietTimerExpiry send s) = _
    rw [linkQuietTimerExpiry_stopped hq, fin_next, beginWrite_atRest hrest]
  have told := linkGoneTold_cascade s
  have absent : ((linkGoneTold s).cause causeLinkLost).present = false := (told.causePresent (by decide) (by decide)).trans hp
  have inactive (ha : (s.cause causeLinkLost).active = false) : ((linkGoneTold s).cause causeLinkLost).active = false :=
    told.causeInactive (by decide) ha
  obtain ⟨slp, settings, pins, position, active, present, raisedAt⟩ := report_linkLost absent
  refine ⟨beginWrite (report send causeLinkLost true (linkGoneTold s)), ?_, ?_⟩
  · show finish (linkQuietTimerExpiry send s) = _
    rw [linkQuietTimerExpiry_running hq, fin_next]
  rw [beginWrite_cause, beginWrite_slp, beginWrite_settings, beginWrite_pins, beginWrite_zae]
  refine ⟨slp.trans told.slp, active, present, fun ha => ⟨?_, report_linkLost_page absent (inactive ha)⟩,
    settings.trans told.settings, pins.trans told.pins, fun m => ?_⟩
  · rw [raisedAt (inactive ha), told.now]
    rfl
  · rw [beginWrite_chan, position, told.position]
    rfl

end Sys2Proof.Machine
end

section
/-! PROOFS. PAGE and CANCEL PAGE (O42). -/

namespace Sys2Proof.Machine

variable {s : State}

/-! ## The zones of a page -/

/-- Zone `n` is in the set `z`, holds no announcement, and is safety or not QUIET (R150). -/
def State.mayPage (s : State) (z : Byte) (n : Nat) : Bool :=
  z.getLsbD n && (s.zone n).list.isEmpty && ((s.zoneConfig n).safety || !(s.zone n).quiet)

theorem peek_pageable (s : State) (z : Byte) {n : Nat} (hn : n < 8) : peek (s.pageable (zonesOf z)) n = s.mayPage z n := by
  unfold State.pageable zonesOf
  rw [peek_ofFn _ n hn, peek_ofFn _ n hn]
  rfl

theorem pageable_eq (s : State) (z : Byte) : s.pageable (zonesOf z) = Vector.ofFn fun n : Fin 8 => s.mayPage z n.val := by
  unfold State.pageable zonesOf
  simp only [peek_ofFn, Fin.is_lt]
  rfl

theorem pageable_any (s : State) (z : Byte) : (s.pageable (zonesOf z)).any id = true ↔ ∃ n, n < 8 ∧ s.mayPage z n = true := by
  rw [pageable_eq, any_ofFn]
  simp only [exists_prop]

/-! ## PAGE judged -/

theorem servePage_unnamed {k : Byte} (h : 15 < k.toNat) (z d : Byte) : servePage send k z d s = refuse .refusedValue s := by
  unfold servePage
  rw [index_none (n := 16) h]

/-- The check of R150 on a clip slot that exists. -/
theorem servePage_named {k : Byte} (h : k.toNat ≤ 15) (z d : Byte) : servePage send k z d s =
    if (s.clip k.toNat).state ≠ .ready ∨ s.zae.page.isSome = true then refuse .refusedState s
    else reply (accepted (min d.toNat 23 != d.toNat)) (set8 (s.mayPage z))
      (if (s.pageable (zonesOf z)).any id then startPage send k.toNat (min d.toNat 23) (s.pageable (zonesOf z)) s else s) := by
  unfold servePage
  rw [index_some (n := 16) (Nat.lt_succ_of_le h), ← set8_congr fun _ => peek_pageable s z]

/-! ## The start of a page -/

/-- The record of a page of clip `k` that starts in the zones `paged` (R150). -/
def PageRec.starting (k duck : Nat) (paged : Vector Bool 8) : PageRec :=
  { clip := k, duck := duck, playing := paged, completed := Vector.replicate 8 false, cut := Vector.replicate 8 false, place := 0 }

/-- The voices of the zones `paged` in PAGE. -/
def pageVoices (paged : Vector Bool 8) (s : State) : State :=
  zoneIndexes.foldl (fun s z => if peek paged z then setZone z { s.zone z with voice := .page, place := 0, since := 0 } s else s) s

/-- The page begun, before PAGING follows. -/
def pageBegun (k duck : Nat) (paged : Vector Bool 8) (s : State) : State :=
  (pageVoices paged s).onZae fun a => { a with page := some (.starting k duck paged) }

theorem startPage_eq (k duck : Nat) (paged : Vector Bool 8) (s : State) :
    startPage send k duck paged s = publish send (pageBegun k duck paged s) Item.paging := rfl

theorem pageVoices_zonesOnly (paged : Vector Bool 8) (s : State) : ZonesOnly s (pageVoices paged s) :=
  (setVoice_foldl (peek paged) s zoneIndexes (by decide) s rfl fun _ _ => rfl).1

theorem pageVoices_zone (paged : Vector Bool 8) (s : State) {n : Nat} (hn : n < 8) : (pageVoices paged s).zone n =
    if peek paged n = true then { s.zone n with voice := .page, place := 0, since := 0 } else s.zone n := by
  refine ((setVoice_foldl (peek paged) s zoneIndexes (by decide) s rfl fun _ _ => rfl).2 n).trans (if_congr ?_ rfl rfl)
  exact ⟨fun ⟨_, _, h⟩ => h, fun h => ⟨List.mem_range.mpr hn, hn, h⟩⟩

theorem pageBegun_zone (k duck : Nat) (paged : Vector Bool 8) (s : State) {n : Nat} (hn : n < 8) :
    (pageBegun k duck paged s).zone n =
      if peek paged n = true then { s.zone n with voice := .page, place := 0, since := 0 } else s.zone n :=
  pageVoices_zone paged s hn

theorem pageBegun_voicesOnly (k duck : Nat) (paged : Vector Bool 8) (s : State) : VoicesOnly s (pageBegun k duck paged s) :=
  (pageVoices_zonesOnly paged s).voicesOnly.trans (voicesOnly_page _ _)

/-! ## PAGING published -/

theorem VoicesOnly.kept {t : State} (h : VoicesOnly s t) : t.settings = s.settings ∧ t.pins = s.pins ∧ t.slp = s.slp ∧
    t.zae.memory = s.zae.memory ∧ t.zae.clips = s.zae.clips := by
  rw [h]
  exact ⟨rfl, rfl, rfl, rfl, rfl⟩

/-- Whatever a change of PAGING gives rise to, settings, pins, link port and clips stay. -/
theorem paging_kept {b : State} (h : VoicesOnly s b) :
    let u := publish send b Item.paging
    u.settings = s.settings ∧ u.pins = s.pins ∧ u.slp = s.slp ∧ u.zae.memory = s.zae.memory ∧ u.zae.clips = s.zae.clips := by
  have k : Cascade b (publish send b Item.paging) := cascade_publish cascades_send _ (.refl _)
  obtain ⟨settings, pins, slp, memory, clips⟩ := h.kept
  exact ⟨k.settings.trans settings, k.pins.trans pins, k.slp.trans slp, k.memory.trans memory, k.clips.trans clips⟩

theorem zone_of_zae {t u : State} (h : t.zae = u.zae) (n : Nat) : t.zone n = u.zone n := congrArg (fun a : Zae => peek a.zones n) h

/-- Without host entries PAGING follows the page record and gives rise to nothing but events (R150, R151). -/
theorem paging_quiet (hno : NoHostEntries s) {b : State} (h : VoicesOnly s b) :
    let u := publish send b Item.paging
    u = { s with zae := { s.zae with zones := u.zae.zones, page := u.zae.page }, seu := u.seu } ∧ u.zae = b.zae ∧
      u.item Item.paging = b.zae.page.isSome := by
  have hb : NoHostEntries b := hno.of_settings h.kept.1
  have silent : Silent b (publish send b Item.paging) := silent_publish quiet_send hb paging_plain.1
  refine ⟨h.trans silent.voicesOnly, silent_zae silent, ?_⟩
  rw [item_publish quiet_send hb paging_plain.1 paging_plain.2, if_pos rfl]
  rfl

/-! ## PAGE -/

/-- PAGE in an idle link port (R150). -/
theorem page_judged (h : Serving s) (k z d : Byte) :
    let v := heard s
    let st : Byte := if d.toNat ≤ 23 then 0x00 else 0x01
    (15 < k.toNat → exec (.page k z d) s = refusal 0xD9 0x82 s) ∧
    (k.toNat ≤ 15 → (s.clip k.toNat).state ≠ .ready ∨ v.zae.page.isSome = true → exec (.page k z d) s = refusal 0xD9 0x83 s) ∧
    (k.toNat ≤ 15 → (s.clip k.toNat).state = .ready → v.zae.page = none →
      ((∀ n, n < 8 → v.mayPage z n = false) → exec (.page k z d) s = .next (answered 0xD9 (st :: set8 fun _ => false) v)) ∧
      ((∃ n, n < 8 ∧ v.mayPage z n = true) → ∃ u, exec (.page k z d) s = .next (answered 0xD9 (st :: set8 (v.mayPage z)) u) ∧
        u.settings = s.settings ∧ u.pins = s.pins ∧ u.slp = v.slp ∧ u.zae.memory = s.zae.memory ∧ u.zae.clips = s.zae.clips ∧
        (NoHostEntries s →
          u = { v with zae := { v.zae with zones := u.zae.zones, page := u.zae.page }, seu := u.seu } ∧
          u.zae.page = some
            { clip := k.toNat, duck := min d.toNat 23, playing := Vector.ofFn fun n : Fin 8 => v.mayPage z n.val,
              completed := Vector.replicate 8 false, cut := Vector.replicate 8 false, place := 0 } ∧
          (∀ n, n < 8 → u.zone n = if v.mayPage z n then { v.zone n with voice := .page, place := 0, since := 0 } else v.zone n) ∧
          u.item Item.paging = true))) := by
  intro v st
  refine ⟨fun hk => exec_refused (x := .refusedValue) h (servePage_unnamed hk z d) rfl, fun hk hbad => ?_, fun hk hready hpage => ?_⟩
  all_goals
    have served := servePage_named (s := v) hk z d
    rw [clip_heard] at served
  · exact exec_refused (x := .refusedState) h (served.trans (if_pos hbad)) rfl
  rw [if_neg (by rw [hready, hpage]; decide)] at served
  have status : (accepted (min d.toNat 23 != d.toNat)).code = st := by
    rw [accepted_ne, if_congr min_eq_left_iff rfl rfl]
  unfold reply at served
  rw [status] at served
  refine ⟨fun nowhere => ?_, fun somewhere => ?_⟩
  · have nobody : ¬ (v.pageable (zonesOf z)).any id = true := fun any => by
      obtain ⟨n, hn, may⟩ := (pageable_any v z).mp any
      rw [nowhere n hn] at may
      cases may
    rw [if_neg nobody, set8_congr nowhere] at served
    exact exec_served h served rfl
  · rw [if_pos ((pageable_any v z).mpr somewhere), startPage_eq] at served
    have begun := pageBegun_voicesOnly k.toNat (min d.toNat 23) (v.pageable (zonesOf z)) v
    obtain ⟨settings, pins, slp, memory, clips⟩ := paging_kept begun
    refine ⟨_, exec_served h served rfl, settings.trans (heard_settings s), pins.trans (heard_pins s), slp,
      memory.trans (heard_memory s), clips.trans (heard_clips s), fun hno => ?_⟩
    obtain ⟨alone, zae, item⟩ := paging_quiet (noHost_heard hno) begun
    refine ⟨alone, ?_, fun n hn => ?_, item⟩
    · rw [zae, ← pageable_eq]
      rfl
    · rw [zone_of_zae zae, pageBegun_zone _ _ _ v hn, peek_pageable v z hn]

/-! ## CANCEL PAGE -/

/-- A cancelled page and its voices, before PAGING follows. -/
theorem pageOver_voicesOnly {p : PageRec} (hp : s.zae.page = some p) :
    VoicesOnly s (pageOver p.cutEverywhere (cutPage (fun _ => true) s)) := by
  have cut : VoicesOnly s (cutPage (fun _ => true) s) := by
    unfold VoicesOnly
    rw [cutPage_everywhere hp]
  exact cut.trans ((voicesOnly_event _ _).trans (voicesOnly_page _ _))

theorem pageOver_events {p : PageRec} (hp : s.zae.page = some p) :
    (pageOver p.cutEverywhere (cutPage (fun _ => true) s)).seu.events = pushEvent
      { kind := .pageEnded p.clip p.completed p.cutEverywhere.cut, time := s.now, lost := false } s.seu.events := by
  unfold pageOver
  rw [cutPage_everywhere hp]
  rfl

theorem serveCancelPage_paging {p : PageRec} (hp : s.zae.page = some p) :
    serveCancelPage send s = (cancelPageNow send s, 0x00 :: set8 (peek p.playing)) := by
  unfold serveCancelPage
  rw [hp]
  rfl

theorem serveCancelPage_idle (hp : s.zae.page = none) : serveCancelPage send s = (s, 0x00 :: set8 fun _ => false) := by
  unfold serveCancelPage
  rw [hp]
  rfl

/-- CANCEL PAGE with a page in progress, in an idle link port (R152). -/
theorem cancelPage_cuts (h : Serving s) {p : PageRec} (hp : (heard s).zae.page = some p) :
    let v := heard s
    ∃ u, exec .cancelPage s = .next (answered 0xDA (0x00 :: set8 (peek p.playing)) u) ∧
      u.settings = s.settings ∧ u.pins = s.pins ∧ u.slp = v.slp ∧
      (NoHostEntries s →
        u = { v with zae := { v.zae with zones := u.zae.zones, page := none }, seu := u.seu } ∧
        (∀ n, n < 8 → u.zone n = if peek p.playing n = true ∧ (v.zone n).voice = .page then
          { v.zone n with voice := .silent, place := 0, since := 0 } else v.zone n) ∧
        u.item Item.paging = false ∧
        let ended := EventKind.pageEnded p.clip p.completed (Vector.ofFn fun n : Fin 8 => peek p.cut n.val || peek p.playing n.val)
        (pushEvent { kind := ended, time := s.now, lost := false } v.seu.events).map Event.kind <+: u.seu.events.map Event.kind) := by
  intro v
  let ended := pageOver p.cutEverywhere (cutPage (fun _ => true) v)
  have served : serveCancelPage send v = (publish send ended Item.paging, 0x00 :: set8 (peek p.playing)) := by
    rw [serveCancelPage_paging hp, cancelPageNow_eq hp]
  have only : VoicesOnly v ended := pageOver_voicesOnly hp
  obtain ⟨settings, pins, slp, -⟩ := paging_kept only
  refine ⟨_, exec_served h served rfl, settings.trans (heard_settings s), pins.trans (heard_pins s), slp, fun hno => ?_⟩
  obtain ⟨alone, zae, item⟩ := paging_quiet (noHost_heard hno) only
  have page : (publish send ended Item.paging).zae.page = none := by rw [zae]; rfl
  rw [page] at alone
  refine ⟨alone, fun n hn => ?_, item, ?_⟩
  · rw [zone_of_zae zae, pageOver_zone, cutPage_everywhere_zone hp hn]
  · rw [← heard_now s]
    have after := (cascade_publish cascades_send Item.paging (.refl ended)).events
    rwa [pageOver_events hp] at after

/-- Settles O42: PAGE by `page_judged`, CANCEL PAGE by the two cases of the page record. -/
theorem pageStartsAndIsCancelled : Obligations.PageStartsAndIsCancelled := fun _ h =>
  ⟨page_judged h, fun hp => exec_served h (serveCancelPage_idle hp) rfl, fun _ => cancelPage_cuts h⟩

end Sys2Proof.Machine
end

section
/-! PROOFS. CONFIGURE ANNOUNCE (O41). -/

namespace Sys2Proof.Machine

variable {s : State} {b : Byte} {f : AnnounceFields} {m : MachineId}

/-! ## The record carried -/

/-- The code of a clip slot or NONE names one (R143). -/
def ClipNamed (b : Byte) : Prop := b.toNat ≤ 15 ∨ b = 0xFF

theorem clip_named (h : ClipNamed b) : indexOrNoneNamed 16 0xFF b = some (if b = 0xFF then none else some b.toNat) := by
  unfold indexOrNoneNamed
  by_cases e : b = 0xFF
  · subst e
    rfl
  · rw [if_neg fun k : b.toNat = 0xFF => e (BitVec.eq_of_toNat_eq k), if_neg e,
      index_some (n := 16) (Nat.lt_succ_of_le (h.resolve_right e))]
    rfl

theorem clip_unnamed (h : 15 < b.toNat) (e : b ≠ 0xFF) : indexOrNoneNamed 16 0xFF b = none := by
  unfold indexOrNoneNamed
  rw [if_neg fun k : b.toNat = 0xFF => e (BitVec.eq_of_toNat_eq k), index_none (n := 16) h]
  rfl

/-- The record that the fields of CONFIGURE ANNOUNCE carry, A and RepeatInterval not yet clamped. -/
def carriedAnnounce (f : AnnounceFields) : AnnounceRecord :=
  { clip := if f.clip = 0xFF then none else some f.clip.toNat, zones := zonesOf f.zones, duck := f.duck.toNat,
    repeatInterval := f.repeatInterval.toNat }

theorem announceClamped_iff (r : AnnounceRecord) : r.clamped = r ↔ r.duck ≤ 23 ∧ clampRepeat r.repeatInterval = r.repeatInterval := by
  obtain ⟨_, _, _, _⟩ := r
  simp [AnnounceRecord.clamped]

theorem serveConfigureAnnounce_unnamed (h : machineNamed b = none ∨ (15 < f.clip.toNat ∧ f.clip ≠ 0xFF)) :
    serveConfigureAnnounce send b f s = refuse .refusedValue s := by
  unfold serveConfigureAnnounce
  split
  · rename_i hm hc
    rcases h with h | ⟨h, e⟩
    · rw [h] at hm
      cases hm
    · rw [clip_unnamed h e] at hc
      cases hc
  · rfl

theorem serveConfigureAnnounce_named (hm : machineNamed b = some m) (hc : ClipNamed f.clip) :
    serveConfigureAnnounce send b f s =
      reply (accepted ((carriedAnnounce f).clamped != carriedAnnounce f)) [] (applyAnnounce send m (carriedAnnounce f).clamped s) := by
  unfold serveConfigureAnnounce
  rw [hm, clip_named hc]
  rfl

/-! ## The lists and voices that follow -/

/-- The state with the record of machine `m` taken, before the lists are reconsidered. -/
def withAnnounce (m : MachineId) (r : AnnounceRecord) (s : State) : State :=
  s.onSettings fun t => { t with audio := { t.audio with announce := t.audio.announce.set m r } }

theorem withAnnounce_announce (m k : MachineId) (r : AnnounceRecord) (s : State) :
    (withAnnounce m r s).announce k = if m = k then r else s.announce k := Three.get_set _ _ _ _

/-- The voices once each that waits for `m`, or has played for it, has followed its RepeatInterval (R148). -/
def repeatsRewritten (m : MachineId) (s : State) : State :=
  zoneIndexes.foldl (fun s z => setZone z (s.repeatRewritten m (s.zone z)) s) s

theorem applyAnnounce_eq (m : MachineId) (r : AnnounceRecord) (s : State) : applyAnnounce send m r s =
    publish send (repeatsRewritten m (reconsiderLists send (withAnnounce m r s))) Item.toneAny := rfl

theorem repeatsRewritten_zonesOnly (m : MachineId) (s : State) : ZonesOnly s (repeatsRewritten m s) :=
  (repeat_foldl m s zoneIndexes (by decide) s rfl fun _ _ => rfl).1

theorem repeatsRewritten_zone (m : MachineId) (s : State) {z : Nat} (hz : z < 8) :
    (repeatsRewritten m s).zone z = s.repeatRewritten m (s.zone z) :=
  ((repeat_foldl m s zoneIndexes (by decide) s rfl fun _ _ => rfl).2 z).trans (if_pos ⟨List.mem_range.mpr hz, hz⟩)

theorem repeatsRewritten_cascade (m : MachineId) (s : State) :
    Cascade s (publish send (repeatsRewritten m s) Item.toneAny) :=
  cascade_publish cascades_send _ (cascade_rewritten m (.refl s))

theorem applyAnnounce_cascade (m : MachineId) (r : AnnounceRecord) (s : State) :
    Cascade (withAnnounce m r s) (applyAnnounce send m r s) :=
  (cascade_reconsiderLists cascades_send (.refl _)).trans (repeatsRewritten_cascade m _)

/-- A voice that is not of machine `m`, plays or is silent, or has what the new RepeatInterval asks of it, stays (R148). -/
theorem repeatRewritten_stays {x : ZoneRec}
    (h : x.list.head? ≠ some m ∨ (x.voice ≠ .repeatWait ∧ x.voice ≠ .played) ∨
      (x.voice = .repeatWait ∧ (s.announce m).repeatInterval ≠ 0) ∨ (x.voice = .played ∧ (s.announce m).repeatInterval = 0)) :
    s.repeatRewritten m x = x := by
  unfold State.repeatRewritten
  split
  · rename_i hl
    cases hv : x.voice with
    | silent | play | page => rfl
    | repeatWait =>
      have kept : (s.announce m).repeatInterval ≠ 0 := by simpa [hl, hv] using h
      exact if_neg kept
    | played =>
      have kept : (s.announce m).repeatInterval = 0 := by simpa [hl, hv] using h
      exact if_pos kept
  · rfl

/-- A wait ends at a RepeatInterval of 0 (log entry 17). -/
theorem repeatRewritten_waits {x : ZoneRec} (hl : x.list.head? = some m) (hv : x.voice = .repeatWait)
    (hr : (s.announce m).repeatInterval = 0) : s.repeatRewritten m x = { x with voice := .played } := by
  unfold State.repeatRewritten
  rw [if_pos hl, hv]
  exact if_pos hr

/-- A voice that has played once plays again at a RepeatInterval above 0 (R148). -/
theorem repeatRewritten_played {x : ZoneRec} (hl : x.list.head? = some m) (hv : x.voice = .played)
    (hr : (s.announce m).repeatInterval ≠ 0) : s.repeatRewritten m x = s.beginPlay m x := by
  unfold State.repeatRewritten
  rw [if_pos hl, hv]
  exact if_neg hr

/-- Without host entries only the voices of `m` follow a RepeatInterval (R148). -/
theorem repeatsRewritten_quiet (hno : NoHostEntries s) (m : MachineId) :
    let u := publish send (repeatsRewritten m s) Item.toneAny
    u.zae.page = s.zae.page ∧ u.mc = s.mc ∧ u.hsc = s.hsc ∧ ∀ z, z < 8 → u.zone z = s.repeatRewritten m (s.zone z) := by
  have only := repeatsRewritten_zonesOnly m s
  obtain ⟨mc, hsc, page⟩ := only.parts
  have silent : Silent (repeatsRewritten m s) (publish send (repeatsRewritten m s) Item.toneAny) :=
    silent_publish quiet_send (hno.of_settings only.settings) (by decide)
  have zae := silent_zae silent
  refine ⟨(congrArg Zae.page zae).trans page, ?_, ?_, fun z hz => (zone_of_zae zae z).trans (repeatsRewritten_zone m s hz)⟩
  · rw [silent]
    exact mc
  · rw [silent]
    exact hsc

/-- What a new record leaves, whatever the lists and voices give rise to (R143). -/
theorem applyAnnounce_takes (m : MachineId) (r : AnnounceRecord) (s : State) :
    let u := applyAnnounce send m r s
    u.settings = (withAnnounce m r s).settings ∧ u.announce m = r ∧ (∀ k, k ≠ m → u.announce k = s.announce k) ∧
      (∀ z, (u.zone z).quiet = (s.zone z).quiet) ∧ u.pins = s.pins ∧ u.slp = s.slp := by
  have taken := applyAnnounce_cascade m r s
  have record (k : MachineId) : (applyAnnounce send m r s).announce k = if m = k then r else s.announce k := by
    rw [← withAnnounce_announce]
    unfold State.announce
    rw [taken.settings]
  exact ⟨taken.settings, (record m).trans (if_pos rfl), fun k hk => (record k).trans (if_neg (Ne.symm hk)),
    fun z => (taken.zone z).1, taken.pins, taken.slp⟩

/-- Without host entries a new record relists every zone, and then each voice follows the RepeatInterval (R144, R148). -/
theorem applyAnnounce_quiet (hno : NoHostEntries s) (m : MachineId) (r : AnnounceRecord) :
    let u := applyAnnounce send m r s
    ∃ v, Relisted (withAnnounce m r s) v ∧ v.seu.events.map Event.kind <+: u.seu.events.map Event.kind ∧
      u.zae.page = v.zae.page ∧ u.mc = v.mc ∧ u.hsc = v.hsc ∧
      ∀ z, z < 8 →
        let x := v.zone z
        (x.list.head? = some m → x.voice = .repeatWait → r.repeatInterval = 0 → u.zone z = { x with voice := .played }) ∧
        (x.list.head? = some m → x.voice = .played → r.repeatInterval ≠ 0 → (u.zone z).voice = .play ∧ (u.zone z).place = 0 ∧
          (u.zone z).list = x.list) ∧
        (x.list.head? ≠ some m ∨ (x.voice ≠ .repeatWait ∧ x.voice ≠ .played) ∨ (x.voice = .repeatWait ∧ r.repeatInterval ≠ 0) ∨
          (x.voice = .played ∧ r.repeatInterval = 0) → u.zone z = x) := by
  have hbase : NoHostEntries (withAnnounce m r s) := hno
  have relists : Cascade (withAnnounce m r s) (reconsiderLists send (withAnnounce m r s)) :=
    cascade_reconsiderLists cascades_send (.refl _)
  have relisted := relisted_reconsiderLists quiet_send cascades_send hbase
  rw [applyAnnounce_eq]
  generalize reconsiderLists send (withAnnounce m r s) = v at relists relisted
  have repeats : (v.announce m).repeatInterval = r.repeatInterval := by
    refine congrArg AnnounceRecord.repeatInterval (Eq.trans ?_ ((withAnnounce_announce m m r s).trans (if_pos rfl)))
    unfold State.announce
    rw [relists.settings]
  obtain ⟨page, mc, hsc, zone⟩ := repeatsRewritten_quiet (hbase.of_settings relists.settings) m
  refine ⟨v, relisted, (repeatsRewritten_cascade m v).events, page, mc, hsc, fun z hz => ?_⟩
  rw [zone z hz, ← repeats]
  refine ⟨repeatRewritten_waits, fun hl hp hr => ?_, repeatRewritten_stays⟩
  rw [repeatRewritten_played hl hp hr]
  exact ⟨rfl, rfl, rfl⟩

/-! ## The request -/

theorem withAnnounce_heard (m : MachineId) (r : AnnounceRecord) (s : State) : withAnnounce m r (heard s) =
    { heard s with settings := { s.settings with audio := { s.settings.audio with announce := s.settings.audio.announce.set m r } } } := by
  show ({ heard s with settings := { (heard s).settings with audio := { (heard s).settings.audio with
    announce := (heard s).settings.audio.announce.set m r } } } : State) = _
  rw [heard_settings]

/-- CONFIGURE ANNOUNCE of a record that has a meaning, in an idle link port (R143). -/
theorem configureAnnounce_taken (h : Serving s) (hm : machineNamed b = some m) (hc : ClipNamed f.clip) :
    exec (.configureAnnounce b f) s = .next (answered 0xD8
      [if f.duck.toNat ≤ 23 ∧ clampRepeat f.repeatInterval.toNat = f.repeatInterval.toNat then 0x00 else 0x01]
      (applyAnnounce send m (carriedAnnounce f).clamped (heard s))) := by
  refine exec_served h ((serveConfigureAnnounce_named hm hc).trans ?_) rfl
  unfold reply
  rw [accepted_ne, if_congr (announceClamped_iff _) rfl rfl]
  rfl

/-- Settles O41: what the record changes at once by `applyAnnounce_takes`, the lists and voices by `applyAnnounce_quiet`. -/
theorem configureAnnounceReconsidersTheLists : Obligations.ConfigureAnnounceReconsidersTheLists := by
  intro s b f h
  refine ⟨fun hbad => exec_refused (x := .refusedValue) h (serveConfigureAnnounce_unnamed hbad) rfl, fun m hm hc => ?_⟩
  obtain ⟨settings, record, records, quiet, pins, slp⟩ := applyAnnounce_takes m (carriedAnnounce f).clamped (heard s)
  rw [withAnnounce_heard] at settings
  refine ⟨_, configureAnnounce_taken h hm hc, settings, record, fun k hk => (records k hk).trans (announce_heard s k),
    fun z => (quiet z).trans (heard_quiet s z), pins.trans (heard_pins s), slp, fun hno => ?_⟩
  rw [← withAnnounce_heard]
  exact applyAnnounce_quiet (noHost_heard hno) m (carriedAnnounce f).clamped

end Sys2Proof.Machine
end

section
/-! PROOFS. The segments and lamps as driven, and the timers of the indicator driver (O44). -/

namespace Sys2Proof.Machine

variable {s t : State} {m : MachineId} {n : Nat}

/-! ## Segments and lamps -/

theorem segment_unlit (h : n = 0 ∨ (s.display m).lit < n) : s.segment m n = false := by
  have dark : ¬ (1 ≤ n ∧ n ≤ (s.display m).lit) := by omega
  simp [State.segment, dark]

/-- A lit segment is driven on under no overlay and in every on half (R159). -/
theorem segment_on (h : 1 ≤ n ∧ n ≤ (s.display m).lit) (ho : (s.display m).overlay = .none ∨ (s.display m).overlayOn = true) :
    s.segment m n = true := by
  rcases ho with ho | ho
  · simp [State.segment, h, ho]
  · cases hk : (s.display m).overlay <;> simp [State.segment, h, ho, hk]

theorem segment_flash (ho : (s.display m).overlay = .flash) (off : (s.display m).overlayOn = false) : s.segment m n = false := by
  simp [State.segment, ho, off]

/-- The off half of BLINK darkens the top lit segment alone (R159). -/
theorem segment_blink (h : 1 ≤ n ∧ n ≤ (s.display m).lit) (ho : (s.display m).overlay = .blink)
    (off : (s.display m).overlayOn = false) : s.segment m n = decide (n ≠ (s.display m).lit) := by
  simp [State.segment, h, ho, off, bne, beq_eq_decide]

theorem lamp_outside (h : s.phase ≠ .running) (l : Nat) : s.lamp l = false := by
  simp [State.lamp, h]

theorem lamp_running (h : s.phase = .running) (l : Nat) :
    s.lamp l = (s.lampCalled l && (!(peek s.settings.indicators.lamps l).flash || s.ind.flashOn)) := by
  simp [State.lamp, h]

/-! ## The end of a handling of one display -/

/-- A handling that touches one display alone begins no store write. -/
theorem DisplayOnly.finish (h : DisplayOnly m s t) (hrest : StoreAtRest s) : finish t = .next t := by
  obtain ⟨only, -⟩ := h
  refine finish_atRest ?_
  rw [only]
  exact hrest

theorem setDisplay_same (m : MachineId) (d : DisplayRec) (s : State) : (setDisplay m d s).display m = d := by
  rw [setDisplay_display, if_pos rfl]

/-! ## The ramp timer -/

/-- A ramp whose lit count has reached the target ends (R157). -/
theorem continueRamp_ends (h : s.target m ≤ (s.display m).lit) : continueRamp m s = enterShowing m s := if_pos h

/-- A ramp below the target, its timer stopped, starts it again (R157). -/
theorem continueRamp_restarts (h : (s.display m).lit < s.target m) (hr : (s.display m).ramp = none)
    (hd : 0 < (s.displayParams m).rampDelay) :
    continueRamp m s = setDisplay m { s.display m with ramp := some (s.displayParams m).rampDelay } s := by
  unfold continueRamp
  dsimp only
  rw [if_neg (Nat.not_le.mpr h), hr]
  exact if_neg (Nat.ne_of_gt hd)

/-- The display with one more segment lit, as the ramp timer leaves it before the ramp goes on. -/
def stepLit (m : MachineId) (s : State) : State :=
  setDisplay m { s.display m with lit := min ((s.display m).lit + 1) (s.target m), ramp := none } s

theorem stepLit_display (m : MachineId) (s : State) : (stepLit m s).display m =
    { s.display m with lit := min ((s.display m).lit + 1) (s.target m), ramp := none } := setDisplay_same ..

theorem stepLit_target (m : MachineId) (s : State) : (stepLit m s).target m = s.target m := rfl

theorem rampExpiry_stopped (h : (s.display m).state ≠ .ramping ∨ (s.display m).ramp = none) : rampExpiry m s = s := by
  refine if_neg fun ⟨ramping, runs⟩ => ?_
  rcases h with h | h
  · exact h ramping
  · rw [h] at runs
    cases runs

theorem rampExpiry_runs (hs : (s.display m).state = .ramping) (hr : (s.display m).ramp.isSome = true) :
    rampExpiry m s = judgeOverlay m (continueRamp m (stepLit m s)) := if_pos ⟨hs, hr⟩

theorem displayOnly_rampExpiry (m : MachineId) (s : State) : DisplayOnly m s (rampExpiry m s) := by
  unfold rampExpiry
  dsimp only
  split
  · exact (displayOnly_set _ _ _).trans ((displayOnly_ramp m _).trans (displayOnly_judge m _))
  · exact .refl m s

section
variable (hs : (s.display m).state = .ramping) (hr : (s.display m).ramp.isSome = true)
include hs hr

/-- The last step of a ramp: SHOWING at the target, the hold timer running if the machine is at rest (R157, R158). -/
theorem rampExpiry_last (h : s.target m ≤ (s.display m).lit + 1) :
    let d := (rampExpiry m s).display m
    d.state = .showing ∧ d.lit = s.target m ∧ d.ramp = none ∧
      d.hold = if (s.chan m).state = .idle ∨ (s.chan m).state = .disabled then
        some ((s.displayParams m).holdTime * 1000) else none := by
  have reached : (stepLit m s).target m ≤ ((stepLit m s).display m).lit := by
    rw [stepLit_display, stepLit_target]
    exact Nat.le_min.mpr ⟨h, Nat.le_refl _⟩
  obtain ⟨state, lit, ramp, hold⟩ := judge_fields m (enterShowing m (stepLit m s))
  rw [rampExpiry_runs hs hr, continueRamp_ends reached]
  rw [showing_fields] at state lit ramp hold
  refine ⟨state, lit, ramp, hold.trans ?_⟩
  exact if_congr (atRest_iff _) rfl rfl

/-- A step below the target: one more segment, and the timer runs again (R157). -/
theorem rampExpiry_step (h : (s.display m).lit + 1 < s.target m) (hd : 0 < (s.displayParams m).rampDelay) :
    let d := (rampExpiry m s).display m
    d.state = .ramping ∧ d.lit = (s.display m).lit + 1 ∧ d.ramp = some (s.displayParams m).rampDelay := by
  have one : min ((s.display m).lit + 1) (s.target m) = (s.display m).lit + 1 := Nat.min_eq_left (Nat.le_of_lt h)
  have below : ((stepLit m s).display m).lit < (stepLit m s).target m := by
    rw [stepLit_display, stepLit_target, one]
    exact h
  have stopped : ((stepLit m s).display m).ramp = none := by rw [stepLit_display]
  have goesOn : (continueRamp m (stepLit m s)).display m =
      { s.display m with lit := (s.display m).lit + 1, ramp := some (s.displayParams m).rampDelay } := by
    rw [continueRamp_restarts below stopped hd, setDisplay_same, stepLit_display, one]
    rfl
  obtain ⟨state, lit, ramp, -⟩ := judge_fields m (continueRamp m (stepLit m s))
  rw [rampExpiry_runs hs hr]
  rw [goesOn] at state lit ramp
  exact ⟨state.trans hs, lit, ramp⟩

end

/-! ## The hold timer -/

theorem holdExpiry_stopped (h : (s.display m).state ≠ .showing ∨ (s.display m).hold = none) : holdExpiry m s = s := by
  refine if_neg fun ⟨showing, runs⟩ => ?_
  rcases h with h | h
  · exact h showing
  · rw [h] at runs
    cases runs

theorem holdExpiry_runs (hs : (s.display m).state = .showing) (hr : (s.display m).hold.isSome = true) :
    holdExpiry m s = displayOff m s := if_pos ⟨hs, hr⟩

theorem displayOnly_off (m : MachineId) (s : State) : DisplayOnly m s (displayOff m s) := displayOnly_set _ _ _

theorem displayOff_display (m : MachineId) (s : State) : (displayOff m s).display m = .fresh := setDisplay_same ..

/-- A display that is OFF drives no segment (R158). -/
theorem displayOff_segment (m : MachineId) (s : State) (n : Nat) : (displayOff m s).segment m n = false := by
  refine segment_unlit ?_
  rw [displayOff_display]
  exact Nat.eq_zero_or_pos n

/-! ## The overlay and the lamp flash clock -/

theorem period_of_overlay (p : DisplayParams) {o : Overlay} (h : o ≠ .none) :
    p.period o = if o = .flash then p.flashPeriod else p.blinkPeriod := by
  cases o with
  | none => exact absurd rfl h
  | flash => rfl
  | blink => rfl

theorem overlayExpiry_stopped (h : (s.display m).overlay = .none ∨ (s.display m).overlayTimer = none) : overlayExpiry m s = s := by
  refine if_neg fun ⟨runs, inForce⟩ => ?_
  rcases h with h | h
  · exact inForce h
  · rw [h] at runs
    cases runs

/-- The other half begins, with the period now in force (R159). -/
theorem overlayExpiry_runs (ho : (s.display m).overlay ≠ .none) (hr : (s.display m).overlayTimer.isSome = true) :
    let d := s.display m
    let period := if d.overlay = .flash then (s.displayParams m).flashPeriod else (s.displayParams m).blinkPeriod
    overlayExpiry m s = setDisplay m { d with
      overlayOn := !d.overlayOn, overlayTimer := some (if d.overlayOn then period - period / 2 else period / 2) } s := by
  unfold overlayExpiry
  dsimp only
  rw [if_pos ⟨hr, ho⟩, period_of_overlay _ ho]

theorem flashClock_stopped (h : s.ind.flashTimer = none) : flashClockExpiry s = s := by
  unfold flashClockExpiry
  rw [h]
  rfl

theorem flashClock_runs (h : s.ind.flashTimer.isSome = true) :
    flashClockExpiry s = { s with ind := { s.ind with flashOn := !s.ind.flashOn, flashTimer := some 250 } } := if_pos h

/-! ## The statement -/

/-- Settles O44: the pins by the rules of `segment` and `lamp`, each timer by its stopped and its running case. -/
theorem indicatorTimersExpire : Obligations.IndicatorTimersExpire := by
  refine ⟨fun s m n => ⟨segment_unlit, fun h1 h2 => ⟨segment_on ⟨h1, h2⟩, segment_flash, segment_blink ⟨h1, h2⟩⟩⟩,
    fun s l => ⟨fun h => lamp_outside h l, fun h => lamp_running h l⟩, fun s m hrest => ?_⟩
  have still : ∀ {f : State → State}, f s = s → finish (f s) = .next s := fun h => by rw [h, finish_atRest hrest]
  refine ⟨fun h => still (rampExpiry_stopped h), fun hs hr => ?ramp, fun h => still (holdExpiry_stopped h), fun hs hr => ?hold,
    fun h => still (overlayExpiry_stopped h), fun ho hr => ?overlay, fun h => still (flashClock_stopped h), fun h => ?flash⟩
  case ramp =>
    have only := displayOnly_rampExpiry m s
    exact ⟨_, only.finish hrest, only, rampExpiry_last hs hr, rampExpiry_step hs hr⟩
  case hold =>
    have only := displayOnly_off m s
    refine ⟨_, ?_, only, displayOff_display m s, displayOff_segment m s⟩
    show finish (holdExpiry m s) = _
    rw [holdExpiry_runs hs hr, only.finish hrest]
  case overlay =>
    refine ⟨_, ?_, displayOnly_set .., setDisplay_same ..⟩
    show finish (overlayExpiry m s) = _
    rw [overlayExpiry_runs ho hr]
    exact (displayOnly_set ..).finish hrest
  case flash =>
    show finish (flashClockExpiry s) = _
    rw [flashClock_runs h]
    exact finish_atRest (s := { s with ind := _ }) hrest

end Sys2Proof.Machine
end

section
/-! PROOFS. CONFIGURE DISPLAY, DISPLAY REQUEST and CONFIGURE LAMP (O43). -/

namespace Sys2Proof.Machine

variable {s : State} {m : MachineId} {b : Byte}

/-! ## The parameters of a display -/

theorem displayTop_eq (m : MachineId) : displayTop m = if m = .w then 1600 else 1000 := by cases m <;> rfl

/-- The parameters of CONFIGURE DISPLAY with every field clamped, field by field (R160). -/
theorem displayOf_clamped (f : DisplayFields) (m : MachineId) :
    let top := if m = .w then 1600 else 1000
    (displayOf f).clamped m =
      { outThresholds := f.outThresholds.map fun x => min x.toNat top, inThresholds := f.inThresholds.map fun x => min x.toNat top,
        rampDelay := min f.rampDelay.toNat 500, holdTime := max 1 (min f.holdTime.toNat 60),
        blinkPeriod := if f.blinkPeriod.toNat = 0 then 0 else max 100 (min f.blinkPeriod.toNat 2000),
        flashPeriod := max 100 (min f.flashPeriod.toNat 2000), flashHigh := min f.flashHigh.toNat top } := by
  intro top
  simp only [DisplayParams.clamped, displayOf, Vector.map_map, displayTop_eq, clampBlink, clamp]
  rfl

/-- Neither threshold set falls (R160). -/
def DisplayParams.Rises (p : DisplayParams) : Prop :=
  ∀ j k, j < k → k < 8 → peek p.outThresholds j ≤ peek p.outThresholds k ∧ peek p.inThresholds j ≤ peek p.inThresholds k

theorem DisplayParams.rises_iff (p : DisplayParams) :
    (nonDecreasing p.outThresholds.toList && nonDecreasing p.inThresholds.toList) = true ↔ p.Rises := by
  rw [Bool.and_eq_true, Machine.rises_iff, Machine.rises_iff]
  exact ⟨fun ⟨hout, hin⟩ j k hj hk => ⟨hout j k hj hk, hin j k hj hk⟩,
    fun h => ⟨fun j k hj hk => (h j k hj hk).1, fun j k hj hk => (h j k hj hk).2⟩⟩

/-! ## A display whose parameters are new -/

theorem refreshDisplay_showing (h : (s.display m).state = .showing) :
    ((refreshDisplay m s).display m).state = .showing ∧ ((refreshDisplay m s).display m).lit = s.target m := by
  have judged : refreshDisplay m s = judgeOverlay m (setDisplay m { s.display m with lit := s.target m } s) := by
    unfold refreshDisplay
    rw [h]
  obtain ⟨state, lit, -⟩ := judge_fields m (setDisplay m { s.display m with lit := s.target m } s)
  rw [judged, state, lit, setDisplay_same]
  exact ⟨h, rfl⟩

/-- A display that is OFF has no overlay to begin (R159). -/
theorem refreshDisplay_off (h : (s.display m).state = .off) (ho : (s.display m).overlay = .none) : refreshDisplay m s = s := by
  have wanted : s.overlayWanted m = (s.display m).overlay := by
    rw [ho]
    exact if_pos h
  have judged : refreshDisplay m s = judgeOverlay m s := by
    unfold refreshDisplay
    rw [h]
  rw [judged]
  exact if_pos wanted

theorem setDisplayParams_heard (m : MachineId) (p : DisplayParams) (s : State) : setDisplayParams m p (heard s) =
    { heard s with settings := { s.settings with indicators := { s.settings.indicators with
      displays := s.settings.indicators.displays.set m p } } } := by
  show ({ heard s with settings := { (heard s).settings with indicators := { (heard s).settings.indicators with
    displays := (heard s).settings.indicators.displays.set m p } } } : State) = _
  rw [heard_settings]

/-- With new parameters of a display, its target is the number of the new thresholds in use that the quantity reaches (R154). -/
theorem setDisplayParams_target (m : MachineId) (p : DisplayParams) (s : State) : (setDisplayParams m p s).target m =
    ((if (s.chan m).dirOut then p.outThresholds else p.inThresholds).toList.filter fun t => decide (t ≤ s.quantity m)).length := by
  have params : (setDisplayParams m p s).displayParams m = p := Three.get_set_same ..
  have quantity : (setDisplayParams m p s).quantity m = s.quantity m := by cases m <;> rfl
  unfold State.target
  rw [params, quantity]
  rfl

/-! ## CONFIGURE DISPLAY -/

section
variable {f : DisplayFields}

theorem serveConfigureDisplay_unnamed (h : machineNamed b = none) : serveConfigureDisplay b f s = refuse .refusedValue s := by
  unfold serveConfigureDisplay displayNamed
  rw [h]

theorem serveConfigureDisplay_falls (hm : machineNamed b = some m) (h : ¬ ((displayOf f).clamped m).Rises) :
    serveConfigureDisplay b f s = refuse .refusedValue s := by
  unfold serveConfigureDisplay displayNamed
  rw [hm]
  exact if_neg fun k => h ((DisplayParams.rises_iff _).mp k)

theorem serveConfigureDisplay_rises (hm : machineNamed b = some m) (h : ((displayOf f).clamped m).Rises) :
    serveConfigureDisplay b f s = reply (accepted ((displayOf f).clamped m != displayOf f)) []
      (refreshDisplay m (setDisplayParams m ((displayOf f).clamped m) s)) := by
  unfold serveConfigureDisplay displayNamed
  rw [hm]
  exact if_pos ((DisplayParams.rises_iff _).mpr h)

end

/-- The display once its new parameters have been taken (R160). -/
theorem refreshDisplay_configured (m : MachineId) (p : DisplayParams) (s : State) :
    let v := heard s
    let u := refreshDisplay m (setDisplayParams m p v)
    u = { v with settings := u.settings, ind := u.ind } ∧
    u.settings = { s.settings with indicators := { s.settings.indicators with
      displays := s.settings.indicators.displays.set m p } } ∧
    (∀ k, k ≠ m → u.display k = v.display k) ∧ u.ind.flashOn = v.ind.flashOn ∧ u.ind.flashTimer = v.ind.flashTimer ∧
    ((v.display m).state = .showing → (u.display m).state = .showing ∧ (u.display m).lit =
      ((if (v.chan m).dirOut then p.outThresholds else p.inThresholds).toList.filter fun t => decide (t ≤ v.quantity m)).length) ∧
    ((v.display m).state = .off → (v.display m).overlay = .none → u.display m = v.display m) := by
  intro v u
  obtain ⟨only, others, flashOn, flashTimer⟩ : DisplayOnly m (setDisplayParams m p v) u := displayOnly_refresh ..
  have settings : u.settings = (setDisplayParams m p v).settings := by rw [only]
  refine ⟨?_, ?_, others, flashOn, flashTimer, fun h => ?_, fun h ho => ?_⟩
  · rw [settings]
    exact only
  · rw [settings, setDisplayParams_heard]
  · rw [← setDisplayParams_target]
    exact refreshDisplay_showing (s := setDisplayParams m p v) h
  · have still : u = setDisplayParams m p v := refreshDisplay_off h ho
    rw [still]
    rfl

/-! ## DISPLAY REQUEST -/

theorem displayAction_none {a : Byte} (h : 1 < a.toNat) : displayAction a = none := by
  unfold displayAction
  split
  · omega
  · omega
  · rfl

theorem serveDisplayRequest_unnamed {a : Byte} (h : machinesNamed b = none ∨ 1 < a.toNat) :
    serveDisplayRequest b a s = refuse .refusedValue s := by
  unfold serveDisplayRequest
  split
  · rename_i hms hf
    rcases h with h | h
    · rw [h] at hms
      cases hms
    · rw [displayAction_none h] at hf
      cases hf
  · rfl

/-- The displays `ms` once each has taken the action `f`, in order (R161). -/
def displaysActed (f : MachineId → State → State) (ms : List MachineId) (s : State) : State :=
  ms.foldl (fun s m => f m s) s

/-- DISPLAY REQUEST of an action on one display, in an idle link port (R161). -/
theorem displayRequest_taken {a : Byte} {ms : List MachineId} {f : MachineId → State → State} (h : Serving s)
    (hms : machinesNamed b = some ms) (ha : displayAction a = some f) (hf : ∀ m s, DisplayOnly m s (f m s)) :
    let v := heard s
    let u := displaysActed f ms v
    exec (.displayRequest b a) s = .next (answered 0xE1 (0x00 :: (byte ms.length ++ ms.flatMap fun m =>
      byte (u.display m).state.code ++ byte (u.display m).lit ++ byte (v.target m) ++ byte (u.display m).overlay.code)) u) ∧
    u = { v with ind := u.ind } ∧ (∀ m, m ∉ ms → u.display m = v.display m) ∧
    u.ind.flashOn = v.ind.flashOn ∧ u.ind.flashTimer = v.ind.flashTimer ∧
    ∀ m, m ∈ ms → ∃ t, t = { v with ind := t.ind } ∧ t.display m = v.display m ∧ u.display m = (f m t).display m := by
  intro v u
  obtain ⟨⟨only, others, flashOn, flashTimer⟩, acted⟩ := display_foldl f hf ms (machinesNamed_nodup hms) v
  have served : serveDisplayRequest b a v = reply .ok (counted u.displayReport ms) u := by
    unfold serveDisplayRequest
    rw [hms, ha]
    rfl
  refine ⟨exec_served h (served.trans ?_) rfl, only, others, flashOn, flashTimer, acted⟩
  have report : u.displayReport = fun m =>
      byte (u.display m).state.code ++ byte (u.display m).lit ++ byte (v.target m) ++ byte (u.display m).overlay.code := by
    funext m
    unfold State.displayReport
    rw [show u.target m = v.target m from ind_target only m]
  unfold reply counted
  rw [report]
  rfl

/-! ## CONFIGURE LAMP -/

/-- What the binding code and the item of CONFIGURE LAMP name (R162, R163). -/
def LampNamed (c : Byte) (x : Option LampItemFields) (r : Option LampBinding) : Prop :=
  match x with
  | none => (c = 0 ∧ r = some .off) ∨ (c = 1 ∧ r = some .on)
  | some y => c = 2 ∧ ∃ i sense, itemNamed y.group y.place = some i ∧ yesNoNamed y.sense = some sense ∧ r = some (.item i sense)

theorem bindingNamed_iff_lampNamed {c : Byte} {x : Option LampItemFields} {r : LampBinding} :
    bindingNamed c x = some r ↔ LampNamed c x (some r) := by
  have code : ∀ n : Byte, c = n ↔ c.toNat = n.toNat := fun n => BitVec.toNat_inj.symm
  cases x with
  | none =>
    simp only [bindingNamed, LampNamed, code]
    split
    case h_1 hc _ => simp [hc, eq_comm]
    case h_2 hc _ => simp [hc, eq_comm]
    case h_3 hx => cases hx
    case h_4 not0 not1 _ => simpa using ⟨fun h _ => not0 h rfl, fun h _ => not1 h rfl⟩
  | some y =>
    simp only [bindingNamed, LampNamed, code]
    split
    case h_1 hx => cases hx
    case h_2 hx => cases hx
    case h_3 hc hx =>
      cases hx
      cases itemNamed y.group y.place <;> cases yesNoNamed y.sense <;> simp [hc, eq_comm]
    case h_4 not2 => simpa using fun h => (not2 y h rfl).elim

section
variable {c mode : Byte} {x : Option LampItemFields} {r : LampBinding}

theorem serveConfigureLamp_unnamed (h : 5 < b.toNat ∨ 1 < mode.toNat ∨ ∀ r, ¬ LampNamed c x (some r)) :
    serveConfigureLamp b c x mode s = refuse .refusedValue s := by
  unfold serveConfigureLamp
  split
  · rename_i hl hr hf
    rcases h with h | h | h
    · rw [index_none (n := 6) h] at hl
      cases hl
    · rw [yesNo_none h] at hf
      cases hf
    · exact absurd (bindingNamed_iff_lampNamed.mp hr) (h _)
  · rfl

theorem serveConfigureLamp_named (hb : b.toNat ≤ 5) (hmode : mode.toNat ≤ 1) (hr : LampNamed c x (some r)) :
    serveConfigureLamp b c x mode s = reply .ok [] (setLamp b.toNat { binding := r, flash := decide (mode = 1) } s) := by
  unfold serveConfigureLamp
  rw [index_some (n := 6) (Nat.lt_succ_of_le hb), bindingNamed_iff_lampNamed.mpr hr, yesNo_of hmode]

end

theorem setLamp_heard (l : Nat) (c : LampConfig) (s : State) : setLamp l c (heard s) =
    { heard s with settings := { s.settings with indicators := { s.settings.indicators with
      lamps := poke s.settings.indicators.lamps l c } } } := by
  show ({ heard s with settings := { (heard s).settings with indicators := { (heard s).settings.indicators with
    lamps := poke (heard s).settings.indicators.lamps l c } } } : State) = _
  rw [heard_settings]

/-- A lamp follows its new binding and mode at once (R162, R163). -/
theorem setLamp_lamp (hp : s.phase = .running) {l : Nat} (hl : l < 6) (r : LampBinding) (flash : Bool) :
    (setLamp l { binding := r, flash := flash } s).lamp l = ((match r with
      | .off => false
      | .on => true
      | .item i sense => s.item i == sense) && (!flash || s.ind.flashOn)) := by
  have written : peek (setLamp l { binding := r, flash := flash } s).settings.indicators.lamps l = { binding := r, flash := flash } :=
    peek_poke_same _ hl _
  rw [lamp_running (s := setLamp l _ s) hp, State.lampCalled, written]
  rfl

theorem not_flash_iff {mode : Byte} (h : mode.toNat ≤ 1) : (!decide (mode = 1)) = decide (mode = 0) := by
  rcases (by omega : mode.toNat = 0 ∨ mode.toNat = 1) with h | h
  · obtain rfl : mode = 0 := BitVec.eq_of_toNat_eq h
    rfl
  · obtain rfl : mode = 1 := BitVec.eq_of_toNat_eq h
    rfl

/-! ## The statement -/

/-- Settles O43: CONFIGURE DISPLAY by `refreshDisplay_configured`, DISPLAY REQUEST by what each action does to one display, and
CONFIGURE LAMP by the binding that its codes name. -/
theorem indicatorRequestsAct : Obligations.IndicatorRequestsAct := by
  intro s h
  refine ⟨fun b f => ⟨fun hb => ?displayRefused, fun m hm => ?display⟩, fun b a => ⟨fun hbad => ?requestRefused, fun ms hms ha => ?request⟩,
    fun b c x mode => ⟨fun hbad => ?lampRefused, fun r hb hmode hr => ?lamp⟩⟩
  case displayRefused =>
    exact exec_refused (x := .refusedValue) h (serveConfigureDisplay_unnamed (machineNamed_none hb)) rfl
  case display =>
    intro top out inn rises new carried
    have clamped : (displayOf f).clamped m = new := displayOf_clamped f m
    refine ⟨fun hfalls => exec_refused (x := .refusedValue) h (serveConfigureDisplay_falls hm (clamped ▸ hfalls)) rfl,
      fun hrises => ⟨_, exec_served h ((serveConfigureDisplay_rises hm (clamped ▸ hrises)).trans ?_) rfl,
        refreshDisplay_configured m new s⟩⟩
    rw [clamped]
    unfold reply
    rw [accepted_ne]
    rfl
  case requestRefused => exact exec_refused (x := .refusedValue) h (serveDisplayRequest_unnamed hbad) rfl
  case request =>
    rcases (by omega : a.toNat = 0 ∨ a.toNat = 1) with e | e
    · obtain rfl : a = 0 := BitVec.eq_of_toNat_eq e
      obtain ⟨exec, only, others, flashOn, flashTimer, acted⟩ := displayRequest_taken (a := 0) h hms rfl displayOnly_activate
      refine ⟨_, exec, only, others, flashOn, flashTimer, nofun, fun _ m hm => ?_⟩
      obtain ⟨t, indOnly, same, display⟩ := acted m hm
      rw [display]
      exact (activate_spec m t).transfer indOnly same
    · obtain rfl : a = 1 := BitVec.eq_of_toNat_eq e
      obtain ⟨exec, only, others, flashOn, flashTimer, acted⟩ := displayRequest_taken (a := 1) h hms rfl displayOnly_off
      refine ⟨_, exec, only, others, flashOn, flashTimer, fun _ m hm => ?_, nofun⟩
      obtain ⟨t, -, -, display⟩ := acted m hm
      rw [display, displayOff_display]
      rfl
  case lampRefused =>
    exact exec_refused (x := .refusedValue) h (serveConfigureLamp_unnamed hbad) (by cases x <;> rfl) (by cases x <;> rfl)
  case lamp =>
    refine ⟨_, exec_served h (serveConfigureLamp_named hb hmode hr) (by cases x <;> rfl) (by cases x <;> rfl),
      setLamp_heard .., ?_⟩
    rw [← not_flash_iff hmode]
    exact setLamp_lamp ((heard_phase s).trans h.1) (Nat.lt_succ_of_le hb) r _

end Sys2Proof.Machine
end

section
/-! PROOFS. The event queue, and the requests of the status and event unit: READ STATUS, SET WATCH, FETCH EVENTS (O16, O17, O19, O20). -/

namespace Sys2Proof.Machine

/-! ## The event queue -/

theorem markLost_append_singleton (front : List Event) (tail : Event) :
    markLost (front ++ [tail]) = front ++ [{ tail with lost := true }] := by
  induction front with
  | nil => rfl
  | cons e front ih =>
    cases front with
    | nil => rfl
    | cons f front => exact congrArg (e :: ·) ih

/-- Settles O19: a full queue has a tail record, the only one that `markLost` changes. -/
theorem eventQueueAppendsOrMarksLost : Obligations.EventQueueAppendsOrMarksLost := by
  intro e q
  refine ⟨fun hroom => if_pos hroom, fun hfull => ?_⟩
  have waiting : q ≠ [] := List.ne_nil_of_length_pos (by omega)
  refine ⟨q.dropLast, q.getLast waiting, (List.dropLast_concat_getLast waiting).symm, ?_⟩
  calc pushEvent e q
    _ = markLost q := if_neg (Nat.not_lt.mpr hfull)
    _ = markLost (q.dropLast ++ [q.getLast waiting]) := by rw [List.dropLast_concat_getLast waiting]
    _ = _ := markLost_append_singleton ..

/-! ## READ STATUS -/

/-- A code names a group exactly when it is the group's own. -/
theorem groupNamed_eq_some_iff {b : Byte} {g : Group} : groupNamed b = some g ↔ b.toNat = g.code := by
  unfold groupNamed
  constructor
  · intro named
    split at named <;> cases named <;> assumption
  · intro code
    rw [code]
    cases g <;> rfl

theorem groupNamed_none {b : Byte} (h : 8 < b.toNat) : groupNamed b = none := by
  refine Option.eq_none_iff_forall_ne_some.mpr fun g named => ?_
  have code_le : g.code ≤ 8 := by cases g <;> decide
  have := groupNamed_eq_some_iff.mp named
  omega

theorem exists_group_of_code {n : Nat} (h : n ≤ 8) : ∃ g : Group, g.code = n := by
  interval_cases n
  exacts [⟨.sys, rfl⟩, ⟨.win, rfl⟩, ⟨.plat, rfl⟩, ⟨.hatch, rfl⟩, ⟨.hsu, rfl⟩, ⟨.stn, rfl⟩, ⟨.flt, rfl⟩, ⟨.aud, rfl⟩, ⟨.zone, rfl⟩]

theorem byte_toNat (b : Byte) : byte b.toNat = [b] := by simp [byte]

/-- A group word has the bit of each item of the group, and no bit beyond its last. -/
theorem groupWord_testBit (s : State) (g : Group) {k : Nat} (h : k < 16) :
    (s.groupWord g).testBit k = (decide (k < g.size) && peek s.seu.items (16 * g.code + k)) := by
  unfold State.groupWord
  rw [maskOf_testBit, decide_eq_true h, Bool.true_and]
  rfl

theorem serveReadStatus_named {b : Byte} {g : Group} (hg : groupNamed b = some g) (s : State) :
    serveReadStatus b s = reply .ok ([b] ++ word (s.groupWord g) ++ long s.now) s := by
  unfold serveReadStatus
  rw [hg]
  dsimp only
  rw [← groupNamed_eq_some_iff.mp hg, byte_toNat]

theorem serveReadStatus_unnamed {b : Byte} (hg : groupNamed b = none) (s : State) : serveReadStatus b s = refuse .refusedValue s := by
  unfold serveReadStatus
  rw [hg]

/-- Settles O16: the reply by the group that the code names, its bits by `groupWord_testBit`. -/
theorem readStatusReportsTheGroup : Obligations.ReadStatusReportsTheGroup := by
  intro s b h
  refine ⟨fun g hg => ?reported, fun hb => ?refused, fun hb => ?bits⟩
  case reported =>
    rw [← heard_now s]
    exact exec_served h (serveReadStatus_named hg (heard s)) rfl
  case refused => exact exec_refused (x := .refusedValue) h (serveReadStatus_unnamed (groupNamed_none hb) _) rfl
  case bits =>
    obtain ⟨g, code⟩ := exists_group_of_code hb
    exact ⟨g, groupNamed_eq_some_iff.mpr code.symm, code, fun k hk => groupWord_testBit (heard s) g hk⟩

/-! ## SET WATCH -/

section
variable {s : State} {i g c e : Byte} {items : Half} {gr : Group} {cm : WatchCombine} {ed : WatchEdge}

/-- A SET WATCH whose fields name a watch, a group, places of it, a combine and an edge leaves the watch that they describe. -/
theorem serveSetWatch_named (hi : i.toNat < 8) (hg : groupNamed g = some gr) (hc : combineNamed c = some cm)
    (he : edgeNamed e = some ed) (hp : items.toNat < 2 ^ gr.size) :
    serveSetWatch i g items c e s =
      let w := s.watchSet gr items.toNat cm ed (peek s.seu.watches i.toNat)
      reply .ok (optional flag w.last) (s.onSeu fun u => { u with watches := poke u.watches i.toNat w }) := by
  unfold serveSetWatch
  rw [index_some hi, hg, hc, he]
  exact if_pos (decide_eq_true hp)

theorem serveSetWatch_unnamed (h : 8 ≤ i.toNat ∨ groupNamed g = none ∨ combineNamed c = none ∨ edgeNamed e = none ∨
    ∃ gr, groupNamed g = some gr ∧ 2 ^ gr.size ≤ items.toNat) : serveSetWatch i g items c e s = refuse .refusedValue s := by
  unfold serveSetWatch
  split
  · rename_i hi hg hc he
    rcases h with h | h | h | h | ⟨gr, hgr, hplace⟩
    · rw [index_none h] at hi
      cases hi
    · rw [h] at hg
      cases hg
    · rw [h] at hc
      cases hc
    · rw [h] at he
      cases he
    · obtain rfl := Option.some.inj (hgr.symm.trans hg)
      exact if_neg (by rw [placesExist, decide_eq_true_eq]; exact Nat.not_lt.mpr hplace)
  · rfl

end

/-- Settles O17: the watch that is left is `watchSet`, disarmed by an empty set and armed by any other. -/
theorem setWatchArmsOrDisarms : Obligations.SetWatchArmsOrDisarms := by
  intro s i g c e items h
  refine ⟨fun gr cm ed hi hg hc he hp => ?_, fun hbad => exec_refused (x := .refusedValue) h (serveSetWatch_unnamed hbad) rfl⟩
  have served := serveSetWatch_named (s := heard s) hi hg hc he hp
  refine ⟨fun hempty => ?disarmed, fun hitems => ?armed⟩
  case disarmed =>
    subst hempty
    exact exec_served h served rfl
  case armed =>
    have nonempty : items.toNat ≠ 0 := fun hz => hitems (BitVec.eq_of_toNat_eq hz)
    unfold State.watchSet at served
    rw [if_neg nonempty] at served
    exact exec_served h served rfl

/-! ## FETCH EVENTS -/

theorem atnLow_iff (s : State) : s.atnLow = true ↔ s.phase = .running ∧ s.seu.events ≠ [] := by
  simp [State.atnLow]

/-- The first record fits the payload, whatever it is. -/
theorem takeable_pos {n room : Nat} {q : List Event} (hn : 0 < n) (hroom : 193 ≤ room) (hq : q ≠ []) : 0 < takeable n room q := by
  obtain ⟨e, rest, rfl⟩ := List.exists_cons_of_ne_nil hq
  obtain ⟨n, rfl⟩ := Nat.exists_eq_succ_of_ne_zero (Nat.pos_iff_ne_zero.mp hn)
  unfold takeable
  rw [if_pos ((eventBytes_le e).trans hroom)]
  omega

/-- The count that FETCH EVENTS uses is the count asked for when that is in its range. -/
theorem clamp_count_eq_iff (b : Byte) : clamp 1 8 b.toNat = b.toNat ↔ 1 ≤ b.toNat ∧ b.toNat ≤ 8 := by
  unfold clamp
  omega

/-- The payload of a FETCH EVENTS reply that takes `k` records from the head of `q`. -/
def fetchPayload (status : Byte) (now k : Nat) (q : List Event) : List Byte :=
  [status] ++ long now ++ byte (min k q.length) ++ (q.take k).flatMap Event.bytes ++ byte (q.length - k)

theorem fetchPayload_length (status : Byte) (now k : Nat) (q : List Event) :
    (fetchPayload status now k q).length = fetchFixed + ((q.take k).flatMap Event.bytes).length := by
  have hlong : (long now).length = 4 := rfl
  have hbyte (n : Nat) : (byte n).length = 1 := rfl
  simp only [fetchPayload, fetchFixed, List.length_append, List.length_singleton, hlong, hbyte]
  omega

theorem serveFetchEvents_takes (b : Byte) (s : State) :
    let k := takeable (clamp 1 8 b.toNat) (maxPayload - fetchFixed) s.seu.events
    serveFetchEvents b s = (s.onSeu fun u => { u with events := u.events.drop k },
      fetchPayload (if 1 ≤ b.toNat ∧ b.toNat ≤ 8 then 0x00 else 0x01) s.now k s.seu.events) := by
  intro k
  have status : (accepted (clamp 1 8 b.toNat != b.toNat)).code = if 1 ≤ b.toNat ∧ b.toNat ≤ 8 then 0x00 else 0x01 := by
    rw [accepted_ne]
    exact if_congr (clamp_count_eq_iff b) rfl rfl
  simp only [serveFetchEvents, reply, counted, fetchPayload, status, List.length_take, List.length_drop, List.append_assoc]
  rfl

/-- Settles O20: the records taken are those that `takeable` counts, and the reply is `fetchPayload`. -/
theorem fetchEventsTakesFromTheHead : Obligations.FetchEventsTakesFromTheHead := by
  refine ⟨atnLow_iff, fun s b h => ?_⟩
  have served := serveFetchEvents_takes b (heard s)
  rw [heard_now] at served
  have taken := takeable_le (clamp 1 8 b.toNat) (maxPayload - fetchFixed) (heard s).seu.events
  have fits := takeable_fits (clamp 1 8 b.toNat) (maxPayload - fetchFixed) (heard s).seu.events
  have stops := takeable_stops (clamp 1 8 b.toNat) (maxPayload - fetchFixed) (heard s).seu.events
  have first := takeable_pos (n := clamp 1 8 b.toNat) (room := maxPayload - fetchFixed) (q := (heard s).seu.events)
    (by unfold clamp; omega) (by decide)
  generalize takeable (clamp 1 8 b.toNat) (maxPayload - fetchFixed) (heard s).seu.events = k at *
  have len := fetchPayload_length (if 1 ≤ b.toNat ∧ b.toNat ≤ 8 then 0x00 else 0x01) s.now k (heard s).seu.events
  refine ⟨k, _, exec_served h served rfl, ?payload, ?bound, taken.1, taken.2, first, ?stops⟩
  case payload => unfold fetchPayload; split <;> rfl
  case bound => rw [len]; unfold maxPayload fetchFixed at *; omega
  case stops =>
    rcases stops with all | all | ⟨e, next, exceeds⟩
    · exact .inl all
    · exact .inr (.inl all)
    · exact .inr (.inr ⟨e, next, by rw [len]; unfold maxPayload fetchFixed at *; omega⟩)

end Sys2Proof.Machine
end

section
/-! PROOFS. A step with no command waiting: one millisecond in service (O2). -/

namespace Sys2Proof.Machine

/-! ## Each timer after a millisecond -/

section
variable (s : State)

theorem elapse_refresh (m : MachineId) : ((elapse s).chan m).refresh = lessOne (s.chan m).refresh := by cases m <;> rfl

theorem elapse_input (i : HoldInput) : (elapse s).input i = (s.input i).elapsed := by
  obtain ⟨m, d⟩ := i
  cases m <;> cases d <;> rfl

theorem timerOf_elapsed (x : HoldRec) (k : StationTimer) : x.elapsed.timerOf k = lessOne (x.timerOf k) := by
  unfold HoldRec.timerOf HoldRec.elapsed
  cases x.timer with
  | none => rfl
  | some t => exact (apply_ite lessOne (t.1 = k) (some t.2) none).symm

theorem elapse_contact (c : ContactId) : contactOf (elapse s).siq c = (contactOf s.siq c).elapsed := by
  cases c with
  | display m => cases m <;> rfl
  | reset m => cases m <;> rfl
  | key k => exact peek_map _ _ _ k.isLt

theorem elapse_longPress (m : MachineId) : (elapse s).siq.longPress.get m = lessOne (s.siq.longPress.get m) := by cases m <;> rfl

theorem elapse_pumpTimer (p : PumpState) : (elapse s).pumpTimer p = lessOne (s.pumpTimer p) :=
  (apply_ite lessOne (s.hsc.pump = p) s.hsc.timer none).symm

theorem elapse_frameTimer (n : Fin 3) : ((elapse s).source n.val).frameTimer = lessOne (s.source n.val).frameTimer :=
  congrArg SourceRec.frameTimer (peek_map _ _ _ n.isLt)

theorem elapse_display (m : MachineId) : (elapse s).display m = (s.display m).elapsed := by cases m <;> rfl

/-- Every timer of the part counts down alike. -/
theorem elapse_timers : (elapse s).timers = s.timers.map fun e => (e.1, lessOne e.2) := by
  simp only [State.timers, List.map_append, List.map_map, List.map_cons, List.map_nil, Function.comp_def, elapse_refresh,
    elapse_input, timerOf_elapsed, elapse_contact, elapse_longPress, elapse_pumpTimer, elapse_frameTimer, elapse_display]
  rfl

end

/-! ## The millisecond as a whole -/

section
variable {s : State}

theorem tick_asleep (hp : s.phase ≠ .running) : tick s = s := by
  unfold tick
  split
  · exact absurd ‹_› hp
  all_goals rfl

theorem tick_running (hp : s.phase = .running) :
    tick s = (((elapse s).timers.filter fun e => ranOut e.2).map Prod.fst).foldl expire (elapse s) := by
  unfold tick
  rw [hp]

/-- A due expiry is its own command. -/
theorem exec_of_due {c : Instr} (h : s.due c = true) : exec c s = .next (expire s c) := by
  unfold expire
  rw [if_pos h, exec_eq_finish]
  rfl

theorem due_of_ranOut {c : Instr} (h : c ∈ (s.timers.filter fun e => ranOut e.2).map Prod.fst) : s.due c = true := by
  obtain ⟨e, he, rfl⟩ := List.mem_map.mp h
  obtain ⟨running, out⟩ := List.mem_filter.mp he
  exact due_of_mem running ((ranOut_iff e.2).mp out)

theorem step_of_idle (hidle : s.pending = []) : step s = .next (tick s) := by
  unfold step
  rw [hidle]

end

/-- Settles O2: the timers by `elapse_timers`, a step as the expiries of those that have run out. -/
theorem idleStepIsOneMillisecond : Obligations.IdleStepIsOneMillisecond := by
  intro s hidle
  refine ⟨fun hp => ?asleep, fun _ => ⟨rfl, rfl, rfl, rfl, rfl, rfl, elapse_timers s⟩, fun hp hnone => ?quiet, fun hp c hone => ?one⟩
  case asleep => rw [step_of_idle hidle, tick_asleep hp]
  case quiet =>
    have nothingDue : ((elapse s).timers.filter fun e => ranOut e.2) = [] :=
      List.filter_eq_nil_iff.mpr fun e he out => hnone e he ((ranOut_iff e.2).mp out)
    rw [step_of_idle hidle, tick_running hp, nothingDue]
    rfl
  case one =>
    have onlyDue : ((elapse s).timers.filter fun e => ranOut e.2).map Prod.fst = [c] := hone
    have due : (elapse s).due c = true := due_of_ranOut (by rw [onlyDue]; exact List.mem_singleton_self c)
    rw [step_of_idle hidle, tick_running hp, onlyDue, exec_of_due due]
    rfl

end Sys2Proof.Machine
end

section
/-! PROOFS. The steps and the resets (O1, O3, O4), and the link port: its receiver, a request that waits, and the end of a reply
(O7, O8, O12, O13, O15). -/

namespace Sys2Proof.Machine

/-! ## Steps and handlings -/

theorem step_of_pending {s : State} {c : Instr} {rest : List Instr} (h : s.pending = c :: rest) :
    step s = exec c { s with pending := rest } := by
  unfold step
  rw [h]

/-- Settles O1. -/
theorem stepRunsTheFrontCommand : Obligations.StepRunsTheFrontCommand := fun _ _ _ h => step_of_pending h

/-- Settles O3: every command is a handling, and every handling ends in a next state. -/
theorem noCommandStops : Obligations.NoCommandStops := fun c s => ⟨beginWrite (handling c s), exec_eq_finish c s⟩

/-! ## Resets -/

/-- A command whose handling is a reset starts the part over, and outside service no store write begins after it. -/
theorem exec_boot {c : Instr} {s u : State} {cause : ResetCause} {phase : Phase} {straps : Straps}
    (hc : handling c s = boot cause phase straps u) (hp : phase ≠ .running) :
    ∃ t, exec c s = .next t ∧ StartsOver cause phase straps u t := by
  refine ⟨boot cause phase straps u, ?_, boot_startsOver cause phase hp straps u⟩
  rw [exec_eq_finish, hc]
  exact finish_of_phase hp

theorem rstGoesHigh_held {s : State} (h : s.phase = .heldInReset) (straps : Straps) :
    rstGoesHigh straps s = boot .pin .initializing straps s := by
  unfold rstGoesHigh
  rw [h]

theorem rstGoesHigh_awake {s : State} (h : s.phase ≠ .heldInReset) (straps : Straps) : rstGoesHigh straps s = s := by
  unfold rstGoesHigh
  split
  · exact absurd ‹_› h
  all_goals rfl

/-- Settles O4: each reset is a `boot`. -/
theorem resetBeginsInitialization : Obligations.ResetBeginsInitialization := by
  intro s straps
  refine ⟨exec_boot rfl nofun, exec_boot rfl nofun, fun held => exec_boot (rstGoesHigh_held held straps) nofun, fun awake rest => ?_⟩
  rw [exec_eq_finish]
  exact (congrArg finish (rstGoesHigh_awake awake straps)).trans (finish_atRest rest)

/-! ## The receiver, state by state -/

section
variable {s : State} {r : Receiver} {b : Byte} {go : Go}

theorem receivedByte_asleep (hp : s.phase ≠ .running) : receivedByte go b s = s := by
  unfold receivedByte
  split
  · rfl
  · rfl
  · exact absurd ‹_› hp

theorem receivedByte_hunt (hp : s.phase = .running) (h : s.slp.rx.state = .hunt) :
    receivedByte go b s = if b = sync0 then setReceiver (Receiver.hunting.next .syncSeen) s else s := by
  unfold receivedByte
  dsimp only
  rw [hp, h]

theorem receivedByte_syncSeen (hp : s.phase = .running) (h : s.slp.rx.state = .syncSeen) :
    receivedByte go b s =
      if b = sync1 then setReceiver (s.slp.rx.next .length) s
      else if b = sync0 then setReceiver (s.slp.rx.next .syncSeen) s
      else setReceiver Receiver.hunting s := by
  unfold receivedByte
  dsimp only
  rw [hp, h]

theorem receivedByte_length (hp : s.phase = .running) (h : s.slp.rx.state = .length) :
    receivedByte go b s =
      if b.toNat ≤ maxPayload then setReceiver ({ s.slp.rx with len := b.toNat }.next .code) s
      else setReceiver Receiver.hunting s := by
  unfold receivedByte
  dsimp only
  rw [hp, h]

theorem receivedByte_code (hp : s.phase = .running) (h : s.slp.rx.state = .code) :
    receivedByte go b s = setReceiver ({ s.slp.rx with code := b }.next (if s.slp.rx.len = 0 then .check else .payload)) s := by
  unfold receivedByte
  dsimp only
  rw [hp, h]

theorem receivedByte_payload (hp : s.phase = .running) (h : s.slp.rx.state = .payload) :
    receivedByte go b s =
      setReceiver ({ s.slp.rx with payload := s.slp.rx.payload ++ [b] }.next
        (if s.slp.rx.len ≤ s.slp.rx.payload.length + 1 then .check else .payload)) s := by
  unfold receivedByte
  dsimp only
  rw [hp, h]
  simp only [List.length_append, List.length_singleton]

theorem receivedByte_checkHigh (hp : s.phase = .running) (h : s.slp.rx.state = .check) (hc : s.slp.rx.crcHigh = none) :
    receivedByte go b s = setReceiver ({ s.slp.rx with crcHigh := some b }.next .check) s := by
  unfold receivedByte
  dsimp only
  rw [hp, h, hc]

theorem receivedByte_checkLow {high : Byte} (hp : s.phase = .running) (h : s.slp.rx.state = .check)
    (hc : s.slp.rx.crcHigh = some high) : receivedByte go b s = frameCompleted go s.slp.rx high b s := by
  unfold receivedByte
  dsimp only
  rw [hp, h, hc]

/-- A receiver that stays in its state has its gap timer restarted. -/
theorem setReceiver_next_same {st : RxState} (h : r.state = st) :
    setReceiver (r.next st) s = setReceiver { r with gap := some 25 } s := by
  subst h
  rfl

/-- A command whose handling moves the receiver leaves that receiver and changes nothing else. -/
theorem exec_setReceiver {c : Instr} (hrest : StoreAtRest s) (h : handling c s = setReceiver r s) :
    exec c s = .next (setReceiver r s) := by
  rw [exec_eq_finish, h, finish_setReceiver hrest]

theorem exec_still {c : Instr} (hrest : StoreAtRest s) (h : handling c s = s) : exec c s = .next s := by
  rw [exec_eq_finish, h, finish_atRest hrest]

end

/-- Settles O7: one clause for each arm of the receiver. -/
theorem receivedByteMovesTheReceiver : Obligations.ReceivedByteMovesTheReceiver := by
  intro s b rest
  refine ⟨fun hp => exec_still rest (receivedByte_asleep hp), fun hp =>
    ⟨fun h hb => exec_still rest ((receivedByte_hunt hp h).trans (if_neg hb)),
      fun h hb => exec_setReceiver rest ((receivedByte_hunt hp h).trans (if_pos hb)),
      fun h hb => exec_setReceiver rest ((receivedByte_syncSeen hp h).trans (if_pos hb)),
      fun h hb => exec_setReceiver rest ((receivedByte_syncSeen hp h).trans ?sync),
      fun h not1 not0 => exec_setReceiver rest ((receivedByte_syncSeen hp h).trans ((if_neg not1).trans (if_neg not0))),
      fun h hb => exec_setReceiver rest ((receivedByte_length hp h).trans (if_pos hb)),
      fun h hb => exec_setReceiver rest ((receivedByte_length hp h).trans (if_neg (Nat.not_le.mpr hb))),
      fun h hl => exec_setReceiver rest ((receivedByte_code hp h).trans (by rw [if_pos hl]; rfl)),
      fun h hl => exec_setReceiver rest ((receivedByte_code hp h).trans (by rw [if_neg hl]; rfl)),
      fun h hl => exec_setReceiver rest ((receivedByte_payload hp h).trans ?more),
      fun h hl => exec_setReceiver rest ((receivedByte_payload hp h).trans (by rw [if_pos hl]; rfl)),
      fun h hc => exec_setReceiver rest ((receivedByte_checkHigh hp h hc).trans (setReceiver_next_same (by exact h)))⟩⟩
  case sync =>
    subst hb
    exact (if_neg (by decide)).trans (if_pos rfl)
  case more =>
    rw [if_neg (Nat.not_le.mpr hl)]
    exact setReceiver_next_same (by exact h)

/-! ## Frames discarded -/

section
variable {s : State} {go : Go}

theorem discardFrame_hunt (h : s.slp.rx.state = .hunt) : discardFrame s = s := by
  unfold discardFrame
  rw [h]

theorem discardFrame_inside (h : s.slp.rx.state ≠ .hunt) : discardFrame s = setReceiver Receiver.hunting s := by
  unfold discardFrame
  split
  · exact absurd ‹_› h
  all_goals rfl

end

/-- Settles O8. -/
theorem discardedFrameChangesNothing : Obligations.DiscardedFrameChangesNothing := by
  intro s rest
  refine ⟨fun inside => ?_, fun hunt => ?_, exec_setReceiver rest rfl, fun low high hp h hc crc => ?mismatch⟩
  · exact ⟨exec_setReceiver rest (discardFrame_inside inside), exec_setReceiver rest (discardFrame_inside inside)⟩
  · exact ⟨exec_still rest (discardFrame_hunt hunt), exec_still rest (discardFrame_hunt hunt)⟩
  case mismatch => exact exec_setReceiver rest ((receivedByte_checkLow hp h hc).trans (if_neg crc))

/-! ## A request while one is in service -/

section
variable {s : State} {t : Ticket} {go : Go}

theorem requestArrives_asleep (hp : s.phase ≠ .running) (i : Instr) : requestArrives i s = s := by
  unfold requestArrives
  split
  · exact absurd ‹_› hp
  all_goals rfl

theorem requestArrives_running (hp : s.phase = .running) (i : Instr) : requestArrives i s = offer send (.ask i) (heard s) := by
  unfold requestArrives
  rw [hp]
  rfl

theorem offer_held (hs : s.slp.inService.isSome = true) (hh : s.slp.held = none) :
    offer go t s = s.onSlp fun l => { l with held := some t } := by
  obtain ⟨r, hr⟩ := Option.isSome_iff_exists.mp hs
  unfold offer
  rw [hr, hh]

theorem offer_lost (hs : s.slp.inService.isSome = true) (hh : s.slp.held.isSome = true) : offer go t s = s := by
  obtain ⟨r, hr⟩ := Option.isSome_iff_exists.mp hs
  obtain ⟨q, hq⟩ := Option.isSome_iff_exists.mp hh
  unfold offer
  rw [hr, hq]

end

/-- Settles O12: `finish` after `offer`, in the state that the link supervision leaves. -/
theorem requestWaitsOrIsLost : Obligations.RequestWaitsOrIsLost := by
  intro i s request
  rw [exec_request i request]
  refine ⟨fun hp => ?_, fun hp hs hh => ?_, fun hp hs hh => ?_⟩
  · rw [requestArrives_asleep hp, finish_of_phase hp]
  · rw [requestArrives_running hp]
    exact congrArg finish (offer_held (by rwa [heard_inService]) (by rwa [heard_held]))
  · rw [requestArrives_running hp]
    exact congrArg finish (offer_lost (by rwa [heard_inService]) (by rwa [heard_held]))

/-! ## The last byte of a reply -/

theorem ticketResets_ask {i : Instr} (h : i ≠ .reset) : ticketResets (.ask i) = false := by
  unfold ticketResets
  split
  · exact absurd (Ticket.ask.inj ‹_›) h
  · rfl

section
variable {s : State} {t : Ticket} {r : Reply} {go : Go}

/-- A ticket taken that is not RESET is answered with what its owner, or the port itself, gives. -/
theorem finish_take (h : ticketResets t = false) :
    finish (take go t s) = .next (answered (ticketCode t + 0x80) (serve go t s).2 (serve go t s).1) := by
  unfold take
  rw [h]
  rfl

theorem replySent_idle (h : s.slp.inService = none) : replySent go s = s := by
  unfold replySent
  rw [h]

theorem replySent_resets (h : s.slp.inService = some r) (hr : r.resets = true) :
    replySent go s = boot .request .initializing s.strapsNow s.countStrapRead := by
  unfold replySent
  rw [h]
  exact if_pos hr

theorem replySent_free (h : s.slp.inService = some r) (hr : r.resets = false) (hh : s.slp.held = none) :
    replySent go s = s.onSlp fun l => { l with inService := none } := by
  unfold replySent
  rw [h, hh]
  exact if_neg (by rw [hr]; nofun)

theorem replySent_takes (h : s.slp.inService = some r) (hr : r.resets = false) (hh : s.slp.held = some t) :
    replySent go s = take go t (s.onSlp fun l => { l with inService := none, held := none }) := by
  unfold replySent
  rw [h, hh]
  exact if_neg (by rw [hr]; nofun)

/-- The held ticket, unless it is RESET, is answered when the reply before it has been sent. -/
theorem exec_replySent_takes (h : s.slp.inService = some r) (hr : r.resets = false) (hh : s.slp.held = some t)
    (ht : ticketResets t = false) :
    exec .replySent s =
      .next (answered (ticketCode t + 0x80) (serve send t (s.onSlp fun l => { l with inService := none, held := none })).2
        (serve send t (s.onSlp fun l => { l with inService := none, held := none })).1) :=
  (congrArg finish (replySent_takes h hr hh)).trans (finish_take ht)

end

/-- Settles O13: one clause for each arm of `replySent`, and one for each kind of held ticket. -/
theorem replySentTakesTheHeldRequest : Obligations.ReplySentTakesTheHeldRequest := by
  intro s
  exact ⟨fun idle rest => exec_still rest (replySent_idle idle),
    fun r h hr => exec_boot (replySent_resets h hr) nofun,
    fun r h hr hh rest => (congrArg finish (replySent_free h hr hh)).trans (finish_slp rest _),
    fun r code h hr hh => exec_replySent_takes h hr hh rfl,
    fun r code h hr hh => exec_replySent_takes h hr hh rfl,
    fun r i h hr hh hi => exec_replySent_takes h hr hh (ticketResets_ask hi)⟩

/-! ## IDENTIFY, RESET, undefined codes -/

theorem serveIdentify_eq (s : State) :
    serveIdentify s =
      (s, [0x00, 0x00, 0x42, 0x04, 0x60, 0x01] ++ byte (strapsCode s.slp.rate) ++ byte s.resetCause.code) := rfl

/-- Settles O15. -/
theorem identifyResetAndUndefinedCodes : Obligations.IdentifyResetAndUndefinedCodes := by
  intro s serving
  refine ⟨?identify, ?reset, fun code _ => exec_refused (x := .refusedCode) serving rfl rfl⟩
  case identify =>
    have served := serveIdentify_eq (heard s)
    rw [heard_rate, heard_resetCause] at served
    exact exec_served serving served rfl
  case reset =>
    rw [exec_request .reset rfl, requestArrives_serving serving]
    rfl

end Sys2Proof.Machine
end

section
/-! PROOFS. The bytes of a frame are its request or its refusal (O10). -/

namespace Sys2Proof.Machine

/-! ## What a frame that is no request says -/

section
variable {code c : Byte} {payload : List Byte}

theorem parseFrame_undefined (h : codeUndefined code = true) : parseFrame code payload = .ask (.undefinedRequestCode code) := by
  obtain ⟨other, none⟩ : code ≠ 0x10 ∧ parsePayload code.toNat = none := by simpa [codeUndefined] using h
  unfold parseFrame
  rw [if_neg other, none]

theorem parseMachine_refused (h : parseMachine payload = .wrongLength c ∨ parseMachine payload = .undefinedSelector c) : c = 0x10 := by
  unfold parseMachine at h
  dsimp only at h
  repeat' split at h
  all_goals rcases h with h | h <;> cases h <;> rfl

/-- A frame that the port itself refuses is refused under its own code. -/
theorem parseFrame_refused (h : parseFrame code payload = .wrongLength c ∨ parseFrame code payload = .undefinedSelector c) :
    c = code := by
  unfold parseFrame at h
  split at h
  · rename_i hc
    rw [hc]
    exact parseMachine_refused h
  · repeat' split at h
    all_goals rcases h with h | h <;> cases h <;> rfl

end

/-! ## Layouts read back -/

theorem parseCommon_bytes {f : MachineFields} {tail : List Byte → Option MachineTail}
    (h : tail (tailBytes f.tail) = some f.tail) : parseCommon tail (machineFieldBytes f) = some f := by
  simp [machineFieldBytes, halfBytes, parseCommon, halfOf_bytes, h]

/-- The machine code tells which tail follows the common fields. -/
theorem tail_bytes {m : Byte} {t : MachineTail} (h : machineLayout m t = true) :
    (m = 0 ∧ windlassTail (tailBytes t) = some t) ∨ (m = 1 ∧ platformTail (tailBytes t) = some t) ∨
      (m = 2 ∧ hatchTail (tailBytes t) = some t) := by
  cases t with
  | windlass => exact .inl ⟨beq_iff_eq.mp h, by simp [tailBytes, halfBytes, windlassTail, halfOf_bytes]⟩
  | platform => exact .inr (.inl ⟨beq_iff_eq.mp h, rfl⟩)
  | hatch => exact .inr (.inr ⟨beq_iff_eq.mp h, by simp [tailBytes, halfBytes, hatchTail, halfOf_bytes]⟩)

theorem parseMachine_bytes {m : Byte} {f : MachineFields} (h : machineLayout m f.tail = true) :
    parseMachine (m :: machineFieldBytes f) = .ask (.configureMachine m f) := by
  rcases tail_bytes h with ⟨rfl, tail⟩ | ⟨rfl, tail⟩ | ⟨rfl, tail⟩
  all_goals simp [parseMachine, parseCommon_bytes tail]

theorem parseInterlock_bytes {e : EntryFields} (i : Byte) (h : e.wf = true) :
    parseInterlock (i :: entryBytes e) = some (.writeInterlock i (some e)) := by
  obtain ⟨m, d, g, p, s, a, cap⟩ := e
  cases cap with
  | none =>
    have noCap : a ≠ 2 := by simpa [EntryFields.wf] using h
    exact if_neg noCap
  | some v =>
    have isCap : a = 2 := by simpa [EntryFields.wf] using h
    exact (if_pos isCap).trans (by rw [halfOf_bytes])

theorem parseStation_bytes (f : StationFields) :
    parseStation ([f.qualifyTime, f.releaseTime] ++ halfBytes f.disagreeTime ++ f.bindings.toList) = some (.configureStation f) := by
  rw [vector8_list]
  simp [parseStation, halfBytes, halfOf_bytes, ← vector8]

theorem parseClipData_bytes {xs : List Half} (k : Byte) (o : Half) (h : 1 ≤ xs.length ∧ xs.length ≤ 96) :
    parseClipData (k :: (halfBytes o ++ xs.flatMap halfBytes)) = some (.clipData k o xs) := by
  simp [halfBytes, parseClipData, halvesOf_flatMap, halfOf_bytes, h]

theorem length_flatMap_halfBytes (xs : List Half) : (xs.flatMap halfBytes).length = 2 * xs.length := by
  induction xs with
  | nil => rfl
  | cons x xs ih => simp [halfBytes, ih]; omega

theorem parseDisplayFields_thresholds (d : Byte) (f : DisplayFields) :
    parseDisplayFields d (f.outThresholds.toList ++ f.inThresholds.toList ++ [f.rampDelay]) =
      some fun hold blink flash high => .configureDisplay d
        { f with holdTime := hold, blinkPeriod := blink, flashPeriod := flash, flashHigh := high } := by
  rw [vector8_list, vector8_list]
  simp [parseDisplayFields, ← vector8]

theorem parseDisplay_front {front : List Byte} {hs : List Half} (d : Byte) (f : DisplayFields) (long : front.length = 34)
    (halves : halvesOf front = some hs) (fields : hs = f.outThresholds.toList ++ f.inThresholds.toList ++ [f.rampDelay]) :
    parseDisplay (d :: (front ++ [f.holdTime] ++ halfBytes f.blinkPeriod ++ halfBytes f.flashPeriod ++ halfBytes f.flashHigh)) =
      some (.configureDisplay d f) := by
  have parsed := parseDisplayFields_thresholds d f
  rw [← fields] at parsed
  simp [parseDisplay, long, halves, parsed, halfBytes, halfOf_bytes]

theorem parseDisplay_bytes (d : Byte) (f : DisplayFields) :
    parseDisplay (d :: (f.outThresholds.toList.flatMap halfBytes ++ f.inThresholds.toList.flatMap halfBytes
      ++ halfBytes f.rampDelay ++ [f.holdTime] ++ halfBytes f.blinkPeriod ++ halfBytes f.flashPeriod ++ halfBytes f.flashHigh)) =
      some (.configureDisplay d f) := by
  have front : f.outThresholds.toList.flatMap halfBytes ++ f.inThresholds.toList.flatMap halfBytes ++ halfBytes f.rampDelay =
      (f.outThresholds.toList ++ f.inThresholds.toList ++ [f.rampDelay]).flatMap halfBytes := by simp
  rw [front]
  exact parseDisplay_front d f (by rw [length_flatMap_halfBytes]; simp) (halvesOf_flatMap _) rfl

theorem parseLamp_bytes {b : Byte} {x : Option LampItemFields} (l m : Byte) (h : lampLayout b x = true) :
    ∃ payload, encodeRequest (.configureLamp l b x m) = some (0x62, payload) ∧ parseLamp payload = some (.configureLamp l b x m) := by
  cases x with
  | none =>
    have noItem : b ≠ 2 := by simpa [lampLayout] using h
    exact ⟨_, rfl, if_neg noItem⟩
  | some x =>
    have item : b = 2 := by simpa [lampLayout] using h
    exact ⟨_, rfl, if_pos item⟩

/-! ## Requests read back -/

/-- The frame of a well-formed request says that request: a command that is no request has no frame, and the layouts without a
lemma above are bytes and two-byte fields in their order. -/
theorem parseFrame_encode {i : Instr} {code : Byte} {payload : List Byte} (hwf : i.wf = true)
    (he : encodeRequest i = some (code, payload)) : parseFrame code payload = .ask i := by
  cases i
  case undefinedRequestCode => cases he; exact parseFrame_undefined hwf
  case configureMachine m f => cases he; exact parseMachine_bytes hwf
  case configureMachineGlobal r q => cases he; rw [parse10]; simp [parseMachine, parseGlobal, halfBytes, halfOf_bytes]
  case run m d t => 
    cases t <;> cases he
    · rfl
    · exact parse_layout _ _ _ _ (by decide) rfl (by simp [parseRun, halfBytes, halfOf_bytes])
  case writeInterlock i e =>
    cases e <;> cases he
    · rfl
    · exact parse_layout _ _ _ _ (by decide) rfl (parseInterlock_bytes i hwf)
  case configureStation f => cases he; exact parse_layout _ _ _ _ (by decide) rfl (parseStation_bytes f)
  case clipData k o xs => cases he; exact parse_layout _ _ _ _ (by decide) rfl (parseClipData_bytes k o (of_decide_eq_true hwf))
  case configureDisplay d f => cases he; exact parse_layout _ _ _ _ (by decide) rfl (parseDisplay_bytes d f)
  case configureLamp l b x m =>
    obtain ⟨bytes, encoded, parsed⟩ := parseLamp_bytes l m hwf
    cases encoded.symm.trans he
    exact parse_layout _ _ _ _ (by decide) rfl parsed
  all_goals cases he
  all_goals refine parse_layout _ _ _ _ (by decide) rfl ?_
  all_goals simp [bytes0, bytes1, bytes2, bytes3, byteHalf, oneHalf, parseWatch, parseHsu, parseSource, parseZone, parseAnnounce,
    halfBytes, halfOf_bytes]

theorem length_machineFieldBytes (f : MachineFields) : (machineFieldBytes f).length ≤ 24 := by
  cases h : f.tail <;> simp [machineFieldBytes, tailBytes, halfBytes, h]

theorem length_entryBytes (e : EntryFields) : (entryBytes e).length ≤ 8 := by
  cases h : e.cap <;> simp [entryBytes, halfBytes, h]

/-- The payload of a well-formed request fits a frame (R172). -/
theorem encodeRequest_length {i : Instr} {code : Byte} {payload : List Byte} (hwf : i.wf = true)
    (he : encodeRequest i = some (code, payload)) : payload.length ≤ maxPayload := by
  unfold maxPayload
  cases i
  case configureMachine m f =>
    cases he
    have := length_machineFieldBytes f
    simp
    omega
  case run m d t => cases t <;> cases he <;> simp [halfBytes]
  case writeInterlock i e =>
    cases e <;> cases he
    · simp
    · rename_i e
      have := length_entryBytes e
      simp
      omega
  case clipData k o xs =>
    cases he
    have : 1 ≤ xs.length ∧ xs.length ≤ 96 := of_decide_eq_true hwf
    simp only [List.length_cons, List.length_append, length_flatMap_halfBytes, halfBytes, List.length_nil]
    omega
  case configureDisplay d f =>
    cases he
    simp only [List.length_cons, List.length_append, length_flatMap_halfBytes, halfBytes, List.length_nil, Vector.length_toList]
    omega
  case configureLamp l b x m => cases x <;> cases he <;> simp
  all_goals cases he
  all_goals simp [halfBytes]

/-! ## The bytes of a frame, one after another -/

/-- A receiver inside a frame, before its check bytes. -/
def inFrame (state : RxState) (len : Nat) (code : Byte) (taken : List Byte) : Receiver :=
  { state := state, len := len, code := code, payload := taken, crcHigh := none, gap := some gapTime }

section
variable {s : State} {r : Receiver} {b code : Byte} {bytes : List Byte} {len : Nat}

/-- Until the last byte of a frame, feeding it moves the receiver alone. -/
theorem feed_moves (hrest : StoreAtRest s) (h : receivedByte send b s = setReceiver r s) :
    feedBytes (b :: bytes) s = feedBytes bytes (setReceiver r s) :=
  feed_step (exec_setReceiver (c := .receivedByte b) hrest h)

/-- The payload bytes are taken in order, and with the last of them the receiver waits for the check bytes. -/
theorem feed_payload (hp : s.phase = .running) (hrest : StoreAtRest s) (payload taken : List Byte)
    (hlen : taken.length + payload.length = len) :
    feedBytes (payload ++ bytes) (setReceiver (inFrame (if len ≤ taken.length then .check else .payload) len code taken) s) =
      feedBytes bytes (setReceiver (inFrame .check len code (taken ++ payload)) s) := by
  induction payload generalizing taken with
  | nil => rw [if_pos (show len ≤ taken.length from Nat.le_of_eq hlen.symm), List.append_nil, List.nil_append]
  | cons b payload ih =>
    rw [List.length_cons] at hlen
    rw [if_neg (by omega), List.cons_append, List.append_cons]
    have more := ih (taken ++ [b]) (by simp; omega)
    rw [List.length_append, List.length_singleton] at more
    rw [← more]
    exact feed_moves (s := setReceiver (inFrame .payload len code taken) s) hrest (receivedByte_payload hp rfl)

/-- The synchronization bytes, the length and the code take a hunting receiver to the payload, or past it when there is none. -/
theorem feed_header (hp : s.phase = .running) (hrest : StoreAtRest s) (hr : s.slp.rx = Receiver.hunting) (hlen : len ≤ maxPayload) :
    feedBytes (sync0 :: sync1 :: BitVec.ofNat 8 len :: code :: bytes) s =
      feedBytes bytes (setReceiver (inFrame (if len ≤ 0 then .check else .payload) len code []) s) := by
  have byteLen : (BitVec.ofNat 8 len).toNat = len := Nat.mod_eq_of_lt (by unfold maxPayload at hlen; omega)
  have length := (receivedByte_length (s := setReceiver (inFrame .length 0 0 []) s) (go := send) hp rfl).trans
    (if_pos (byteLen.symm ▸ hlen))
  rw [byteLen] at length
  calc feedBytes (sync0 :: sync1 :: BitVec.ofNat 8 len :: code :: bytes) s
    _ = feedBytes (sync1 :: BitVec.ofNat 8 len :: code :: bytes) (setReceiver (inFrame .syncSeen 0 0 []) s) :=
      feed_moves hrest ((receivedByte_hunt hp (congrArg Receiver.state hr)).trans (if_pos rfl))
    _ = feedBytes (BitVec.ofNat 8 len :: code :: bytes) (setReceiver (inFrame .length 0 0 []) s) :=
      feed_moves (s := setReceiver (inFrame .syncSeen 0 0 []) s) hrest
        ((receivedByte_syncSeen (s := setReceiver (inFrame .syncSeen 0 0 []) s) hp rfl).trans (if_pos rfl))
    _ = feedBytes (code :: bytes) (setReceiver (inFrame .code len 0 []) s) :=
      feed_moves (s := setReceiver (inFrame .length 0 0 []) s) hrest length
    _ = feedBytes bytes (setReceiver (inFrame (if len ≤ 0 then .check else .payload) len code []) s) := by
      simp only [Nat.le_zero]
      exact feed_moves (s := setReceiver (inFrame .code len 0 []) s) hrest (receivedByte_code hp rfl)

/-- The two check bytes, when they agree, make the frame a valid one (R173). -/
theorem feed_check (hp : s.phase = .running) (hrest : StoreAtRest s) (payload : List Byte) :
    feedBytes (halfBytes (crcOf (frameBody len code payload))) (setReceiver (inFrame .check len code payload) s) =
      finish (validFrame send (parseFrame code payload) s) := by
  generalize hcrc : crcOf (frameBody len code payload) = crc
  let awaitsLow : State := setReceiver { inFrame .check len code payload with crcHigh := some (crc.extractLsb' 8 8) } s
  calc feedBytes (halfBytes crc) (setReceiver (inFrame .check len code payload) s)
    _ = feedBytes [crc.extractLsb' 0 8] awaitsLow :=
      feed_moves (s := setReceiver (inFrame .check len code payload) s) hrest (receivedByte_checkHigh hp rfl rfl)
    _ = finish (receivedByte send (crc.extractLsb' 0 8) awaitsLow) := rfl
    _ = finish (frameCompleted send awaitsLow.slp.rx (crc.extractLsb' 8 8) (crc.extractLsb' 0 8) awaitsLow) :=
      congrArg finish (receivedByte_checkLow (s := awaitsLow) hp rfl rfl)
    _ = finish (validFrame send (parseFrame code payload) awaitsLow) := congrArg finish (if_pos (hcrc.trans (halfOf_bytes crc).symm))
    _ = finish (validFrame send (parseFrame code payload) s) := by
      unfold validFrame
      rw [note_setReceiver]

/-- A frame fed to a hunting receiver is, with its last byte, what its code and payload say (R172, R173). -/
theorem feedBytes_frame (hp : s.phase = .running) (hrest : StoreAtRest s) (hr : s.slp.rx = Receiver.hunting) (code : Byte)
    {payload : List Byte} (hlen : payload.length ≤ maxPayload) :
    feedBytes (frameBytes code payload) s = finish (validFrame send (parseFrame code payload) s) :=
  (feed_header hp hrest hr hlen).trans
    ((feed_payload hp hrest payload [] (Nat.zero_add _)).trans (feed_check hp hrest payload))

end

/-- A frame that the port itself refuses, fed to a port that serves nothing, is answered with the status alone. -/
theorem feedBytes_refused {s : State} {code : Byte} {payload : List Byte} {t : Ticket} {x : Status} (serving : Serving s)
    (hrest : StoreAtRest s) (hr : s.slp.rx = Receiver.hunting) (hlen : payload.length ≤ maxPayload)
    (ht : parseFrame code payload = t) (resets : ticketResets t = false) (hc : ticketCode t = code)
    (refused : serve send t (heard s) = refuse x (heard s)) :
    feedBytes (frameBytes code payload) s = refusal (code + 0x80) x.code s := by
  rw [feedBytes_frame serving.1 hrest hr code hlen, ht]
  calc finish (validFrame send t s)
    _ = finish (take send t (heard s)) := congrArg finish (offer_idle send t ((heard_inService s).trans serving.2))
    _ = _ := finish_take resets
    _ = refusal (code + 0x80) x.code s := by rw [refused, hc]; rfl

/-- Settles O10: the frame of a well-formed request says that request, and one that the port refuses is refused under its code. -/
theorem frameBytesAreTheRequest : Obligations.FrameBytesAreTheRequest := by
  refine ⟨fun i code payload s hwf he hp hrest hr => ?request, fun code c payload s hlen ht serving hrest hr => ?wrongLength,
    fun code c payload s hlen ht serving hrest hr => ?undefinedSelector⟩
  case request =>
    rw [feedBytes_frame hp hrest hr code (encodeRequest_length hwf he), parseFrame_encode hwf he,
      exec_request i (by rw [he]; rfl), requestArrives_running hp]
    rfl
  case wrongLength =>
    exact feedBytes_refused (x := .refusedLength) serving hrest hr hlen ht rfl (parseFrame_refused (.inl ht)) rfl
  case undefinedSelector =>
    exact feedBytes_refused (x := .refusedValue) serving hrest hr hlen ht rfl (parseFrame_refused (.inr ht)) rfl

end Sys2Proof.Machine
end

section
/-! PROOFS. The settings store: SAVE SETTINGS and a completed write (O21, O58). -/

namespace Sys2Proof.Machine

/-! ## The write that can begin -/

section
variable {s t : State}

theorem contentsNow_name (s : State) (x : SectionName) : (contentsNow s x).name = x := by cases x <;> rfl

theorem contentsNow_congr (mc : t.mc = s.mc) (fis : t.fis = s.fis) (settings : t.settings = s.settings) (sfe : t.sfe = s.sfe)
    (x : SectionName) : contentsNow t x = contentsNow s x := by
  unfold contentsNow
  rw [settings, recordsNow_congr mc fis settings sfe]

theorem contentsNow_beginWrite (s : State) (x : SectionName) : contentsNow (beginWrite s) x = contentsNow s x :=
  contentsNow_congr (beginWrite_mc s) (beginWrite_fis s) (beginWrite_settings s) (beginWrite_sfe s) x

theorem beginWrite_of_empty (hq : s.sto.queue = []) : beginWrite s = s := beginWrite_atRest fun _ => .inl hq

theorem beginWrite_begins {x : SectionName} {mark : Bool} {rest : List (SectionName × Bool)} (hp : s.phase = .running)
    (hw : s.sto.writing = none) (hq : s.sto.queue = (x, mark) :: rest) :
    (beginWrite s).sto = { s.sto with queue := rest, writing := some { data := contentsNow s x, mark := mark } } := by
  unfold beginWrite
  rw [hp, hw, hq]
  rfl

/-- In service either nothing begins, or the head of the queue does. -/
theorem beginWrite_cases (hp : s.phase = .running) :
    beginWrite s = s ∨ (s.sto.writing = none ∧ ∃ e rest, s.sto.queue = e :: rest ∧
      (beginWrite s).sto = { s.sto with queue := rest, writing := some { data := contentsNow s e.1, mark := e.2 } }) := by
  cases hw : s.sto.writing with
  | some w => exact .inl (beginWrite_of_writing (by rw [hw]; rfl))
  | none =>
    cases hq : s.sto.queue with
    | nil => exact .inl (beginWrite_of_empty hq)
    | cons e rest => exact .inr ⟨rfl, e, rest, rfl, beginWrite_begins hp hw hq⟩

/-- No copy changes when a write begins. -/
theorem beginWrite_copies (s : State) :
    (beginWrite s).sto = { s.sto with queue := (beginWrite s).sto.queue, writing := (beginWrite s).sto.writing } := by
  unfold beginWrite
  split <;> rfl

/-- A pending section goes on waiting, or begins its write under its mark. -/
theorem beginWrite_pending_entry (hp : s.phase = .running) {e : SectionName × Bool} (he : e ∈ s.sto.queue) :
    e ∈ (beginWrite s).sto.queue ∨
      (s.sto.writing = none ∧ (beginWrite s).sto.writing = some { data := contentsNow s e.1, mark := e.2 }) := by
  rcases beginWrite_cases hp with same | ⟨hw, f, rest, hq, begun⟩
  · exact .inl (by rwa [same])
  · rw [begun]
    rw [hq] at he
    rcases List.mem_cons.mp he with rfl | waits
    · exact .inr ⟨hw, rfl⟩
    · exact .inl waits

theorem beginWrite_queue_subset (hp : s.phase = .running) : (beginWrite s).sto.queue ⊆ s.sto.queue := by
  rcases beginWrite_cases hp with same | ⟨-, f, rest, hq, begun⟩
  · rw [same]
    exact List.Subset.refl _
  · rw [begun, hq]
    exact List.subset_cons_self f rest

/-- A write that has begun is of a section that was pending. -/
theorem beginWrite_was_pending (hp : s.phase = .running) (hw : s.sto.writing = none) {w : StoreWrite}
    (hb : (beginWrite s).sto.writing = some w) : ∃ e ∈ s.sto.queue, e.1 = w.data.name := by
  rcases beginWrite_cases hp with same | ⟨-, e, rest, hq, begun⟩
  · rw [same, hw] at hb
    cases hb
  · rw [begun] at hb
    cases hb
    exact ⟨e, hq ▸ List.mem_cons_self, (contentsNow_name s e.1).symm⟩

end

/-! ## STORE_BUSY -/

section
variable {s : State} (hn : NoHostEntries s)
include hn

theorem silent_publish_storeBusy : Silent s (publish send s Item.storeBusy) := silent_publish quiet_send hn (by decide)

theorem item_publish_storeBusy :
    (publish send s Item.storeBusy).item Item.storeBusy = (!s.sto.queue.isEmpty || s.sto.writing.isSome) :=
  (item_publish quiet_send hn (r := Item.storeBusy) (by unfold Plain; decide) rfl Item.storeBusy).trans (if_pos rfl)

end

/-! ## The sections that SAVE SETTINGS names -/

/-- The sections of the set, in section order. -/
def sectionsNamed (set : Byte) : List SectionName := sections.filter fun x => memberOf set (sectionCode x)

theorem mem_sectionsNamed {set : Byte} {x : SectionName} : x ∈ sectionsNamed set ↔ set.getLsbD (sectionCode x) = true := by
  have all : x ∈ sections := by cases x <;> decide
  simp [sectionsNamed, memberOf, all]

/-- The sections requested one after another with the host mark, as SAVE SETTINGS does (R181). -/
def requestWrites (names : List SectionName) (s : State) : State := names.foldl (fun s x => requestWrite send x true s) s

section
variable {s : State} {names : List SectionName}

theorem serveSaveSettings_eq (set : Byte) (s : State) :
    let u := beginWrite (requestWrites (sectionsNamed set) s)
    serveSaveSettings send set s = (u, 0x00 :: set8 fun k => u.sto.queue.any fun e => sectionCode e.1 == k) := rfl

theorem cascade_requestWrites (names : List SectionName) (s : State) : Cascade s (requestWrites names s) :=
  cascade_foldl names (fun _ _ h => cascade_requestWrite cascades_send _ _ h) (Cascade.refl s)

theorem requestWrite_marked (x : SectionName) (s : State) : (x, true) ∈ (requestWrite send x true s).sto.queue :=
  (cascade_publish cascades_send Item.storeBusy (Cascade.refl _)).pendingStays.2 x (pend_enqueue x x true s.sto.queue).2.2

theorem requestWrites_marked {x : SectionName} (hx : x ∈ names) : (x, true) ∈ (requestWrites names s).sto.queue := by
  induction names generalizing s with
  | nil => cases hx
  | cons y names ih =>
    rcases List.mem_cons.mp hx with rfl | later
    · exact (cascade_requestWrites names _).pendingStays.2 x (requestWrite_marked x s)
    · exact ih later

theorem mem_enqueueWrite {x : SectionName} {mark : Bool} {q : List (SectionName × Bool)} {e : SectionName × Bool}
    (he : e ∈ enqueueWrite x mark q) : e.1 = x ∨ e ∈ q := by
  unfold enqueueWrite at he
  split at he
  · obtain ⟨f, hf, rfl⟩ := List.mem_map.mp he
    split
    · exact .inl ‹_›
    · exact .inr hf
  · split at he
    · rcases List.mem_cons.mp he with rfl | old
      · exact .inl rfl
      · exact .inr old
    · rcases List.mem_append.mp he with old | new
      · exact .inr old
      · exact .inl (congrArg Prod.fst (List.mem_singleton.mp new))

/-- Without host entries nothing but the section requested becomes pending. -/
theorem requestWrite_queue (hn : NoHostEntries s) (x : SectionName) (mark : Bool) :
    (requestWrite send x mark s).sto.queue = enqueueWrite x mark s.sto.queue := by
  let t := s.onSto fun t => { t with queue := enqueueWrite x mark t.queue }
  have silent : Silent t (requestWrite send x mark s) := silent_publish_storeBusy (s := t) hn
  rw [silent]
  rfl

theorem requestWrite_settings (x : SectionName) (mark : Bool) (s : State) : (requestWrite send x mark s).settings = s.settings :=
  (cascade_requestWrite cascades_send x mark (Cascade.refl s)).settings

theorem mem_requestWrites (hn : NoHostEntries s) {e : SectionName × Bool} (he : e ∈ (requestWrites names s).sto.queue) :
    e.1 ∈ names ∨ e ∈ s.sto.queue := by
  induction names generalizing s with
  | nil => exact .inr he
  | cons x names ih =>
    rcases ih (hn.of_settings (requestWrite_settings x true s)) he with later | waits
    · exact .inl (List.mem_cons_of_mem x later)
    · rcases mem_enqueueWrite (requestWrite_queue hn x true ▸ waits) with rfl | old
      · exact .inl List.mem_cons_self
      · exact .inr old

end

/-! ## SAVE SETTINGS -/

theorem heard_writing (s : State) : (heard s).sto.writing = s.sto.writing :=
  heard_keeps (fun s => s.sto.writing) (fun _ _ h => by rw [h.sto]) (fun _ => rfl) s

theorem heard_storeOrdered {s : State} (h : StoreOrdered s) : StoreOrdered (heard s) := by
  rcases heard_cascade s with casc | ⟨v, told, back⟩
  · exact casc.storeOrdered h
  · exact back.storeOrdered (told.storeOrdered h)

/-- Settles O21: what is pending by `requestWrites`, and of that the head begins its write when none is in progress. -/
theorem saveSettingsRequestsWrites : Obligations.SaveSettingsRequestsWrites := by
  intro s x serving ordered
  have casc := cascade_requestWrites (sectionsNamed x) (heard s)
  have marked : ∀ n, x.getLsbD (sectionCode n) = true → (n, true) ∈ (requestWrites (sectionsNamed x) (heard s)).sto.queue :=
    fun n hn => requestWrites_marked (mem_sectionsNamed.mpr hn)
  have only : NoHostEntries s → ∀ e ∈ (requestWrites (sectionsNamed x) (heard s)).sto.queue,
      x.getLsbD (sectionCode e.1) = true ∨ e ∈ (heard s).sto.queue := fun hn e he =>
    (mem_requestWrites (hn.of_settings (heard_settings s)) he).imp_left mem_sectionsNamed.mp
  have empty : x = 0 → requestWrites (sectionsNamed x) (heard s) = heard s := by
    rintro rfl
    rfl
  refine ⟨beginWrite (requestWrites (sectionsNamed x) (heard s)), exec_served serving (serveSaveSettings_eq x (heard s)) rfl, ?_⟩
  generalize requestWrites (sectionsNamed x) (heard s) = v at casc marked only empty
  have running : v.phase = .running := casc.phase.trans ((heard_phase s).trans serving.1)
  have writing : v.sto.writing = s.sto.writing := by rw [casc.sto]; exact heard_writing s
  refine ⟨fun n hn => ?named, fun w hw => ?kept, fun e he => ?pending, fun hx hq => ?none,
    fun hn => ⟨fun e he hx => ?unnamed, fun hw w hb => ?begun⟩,
    storeOrdered_beginWrite (casc.storeOrdered (heard_storeOrdered ordered)), storeAtRest_beginWrite v, ?_, ?_, ?_, ?_, ?_⟩
  case named =>
    refine (beginWrite_pending_entry running (marked n hn)).imp_right fun ⟨hw, hb⟩ => ⟨writing.symm.trans hw, _, hb, rfl, ?_⟩
    exact (contentsNow_beginWrite v n).symm
  case kept =>
    rw [beginWrite_of_writing (by rw [writing, hw]; rfl), writing, hw]
  case pending =>
    obtain ⟨m, hm⟩ := casc.pendingStays.1 e he
    exact (beginWrite_pending_entry running hm).imp (fun h => ⟨m, h⟩) fun ⟨hw, hb⟩ =>
      ⟨writing.symm.trans hw, _, hb, contentsNow_name v e.1⟩
  case none =>
    rw [empty hx, beginWrite_of_empty hq]
  case unnamed =>
    exact (only hn e (beginWrite_queue_subset running he)).resolve_left (by rw [hx]; nofun)
  case begun =>
    obtain ⟨e, he, name⟩ := beginWrite_was_pending running (writing.trans hw) hb
    exact (only hn e he).imp (fun h => name ▸ h) fun h => ⟨e, h, name⟩
  · rw [beginWrite_settings, casc.settings, heard_settings]
  · rw [beginWrite_phase, casc.phase, heard_phase]
  · rw [beginWrite_now, casc.now, heard_now]
  · rw [beginWrite_pins, casc.pins, heard_pins]
  · rw [beginWrite_slp, casc.slp]

/-! ## A write completed -/

/-- The part with the write `w` ended: its section's copy as it was verified or not, and STORE_DONE queued when it failed or carried the
host mark (R180). -/
def writeDone (w : StoreWrite) (ok : Bool) (s : State) : State :=
  { s with
    sto := { s.sto.store w.data ok with writing := none }
    seu := { s.seu with
      events :=
        if w.mark = true ∨ ok = false then pushEvent { kind := .storeDone w.data.name ok, time := s.now, lost := false } s.seu.events
        else s.seu.events } }

section
variable {s : State} {w : StoreWrite} {go : Go} {ok : Bool}

theorem storeWriteCompletion_none (h : s.sto.writing = none) : storeWriteCompletion go ok s = s := by
  unfold storeWriteCompletion
  rw [h]

theorem storeWriteCompletion_some (h : s.sto.writing = some w) :
    storeWriteCompletion go ok s = publish go (beginWrite (writeDone w ok s)) Item.storeBusy := by
  have mark : (w.mark || !ok) = true ↔ w.mark = true ∨ ok = false := by simp
  unfold storeWriteCompletion writeDone
  rw [h]
  dsimp only
  simp only [mark]
  split <;> rfl

end

section
variable {s : State} {w : StoreWrite} {ok : Bool}

/-- What is pending and what begins after a completed write. -/
theorem beginWrite_writeDone (w : StoreWrite) (ok : Bool) (hp : s.phase = .running) :
    (s.sto.queue = [] → (beginWrite (writeDone w ok s)).sto.queue = [] ∧ (beginWrite (writeDone w ok s)).sto.writing = none) ∧
    (∀ x mark rest, s.sto.queue = (x, mark) :: rest →
      (beginWrite (writeDone w ok s)).sto.queue = rest ∧
        (beginWrite (writeDone w ok s)).sto.writing = some { data := contentsNow s x, mark := mark }) := by
  have queue : (writeDone w ok s).sto.queue = s.sto.queue := store_queue s.sto w.data ok
  refine ⟨fun hq => ?_, fun x mark rest hq => ?_⟩
  · rw [beginWrite_of_empty (queue.trans hq)]
    exact ⟨queue.trans hq, rfl⟩
  · rw [beginWrite_begins (s := writeDone w ok s) hp rfl (queue.trans hq)]
    exact ⟨rfl, rfl⟩

/-- A completed write leaves the store to what begins, and STORE_BUSY is published (R179, R180). -/
theorem exec_storeWriteCompletion (hw : s.sto.writing = some w) (hn : NoHostEntries s) :
    exec (.storeWriteCompletion ok) s = .next (publish send (beginWrite (writeDone w ok s)) Item.storeBusy) := by
  have silent := silent_publish_storeBusy (s := beginWrite (writeDone w ok s)) (hn.of_settings (beginWrite_settings _))
  rw [exec_eq_finish]
  refine (congrArg finish (storeWriteCompletion_some hw)).trans (finish_atRest ?_)
  rw [silent]
  exact storeAtRest_beginWrite (writeDone w ok s)

theorem beginWrite_writeDone_eq (w : StoreWrite) (ok : Bool) (s : State) :
    beginWrite (writeDone w ok s) = { s with sto := (beginWrite (writeDone w ok s)).sto, seu := (writeDone w ok s).seu } := by
  conv_lhs => rw [beginWrite_eq]
  rfl

end

/-- Settles O58: what begins by `beginWrite_writeDone`, the copies by the laws of `Sto.store`, the events by a publication that
queues none of its own when no watch is armed. -/
theorem writeCompletesAndTheNextBegins : Obligations.WriteCompletesAndTheNextBegins := by
  intro s ok
  refine ⟨fun hw rest => exec_still rest (storeWriteCompletion_none hw), fun w hw hp hn => ⟨_, exec_storeWriteCompletion hw hn, ?_⟩⟩
  have noHost : NoHostEntries (beginWrite (writeDone w ok s)) := hn.of_settings (beginWrite_settings _)
  have copies := beginWrite_copies (writeDone w ok s)
  have events := beginWrite_seu (writeDone w ok s)
  have frame := beginWrite_writeDone_eq w ok s
  obtain ⟨empty, next⟩ := beginWrite_writeDone w ok hp
  generalize beginWrite (writeDone w ok s) = b at *
  have silent := silent_publish_storeBusy noHost
  have sto : (publish send b Item.storeBusy).sto = b.sto := by rw [silent]
  have casc : Cascade b (publish send b Item.storeBusy) := cascade_publish cascades_send _ (Cascade.refl b)
  rw [sto, item_publish_storeBusy noHost]
  refine ⟨fun x => ?passes, ?verified, fun d hd => ?others, fun hq => ?idle, fun x mark rest hq => ?begins, fun hdone room => ?told,
    fun disarmed => ?events, ?frame⟩
  case passes => rw [passes_of copies]; exact store_passes s.sto w.data ok x
  case verified =>
    rintro rfl
    rw [holds_of copies]
    exact store_holds s.sto w.data
  case others => rw [holds_of copies]; exact store_holds_other s.sto w.data d ok hd
  case idle =>
    obtain ⟨queue, writing⟩ := empty hq
    exact ⟨queue, writing, by rw [queue, writing]; rfl⟩
  case begins =>
    obtain ⟨queue, writing⟩ := next x mark rest hq
    exact ⟨queue, writing, by rw [writing]; exact Bool.or_true _⟩
  case told =>
    have queued : b.seu.events = (queueEvent (.storeDone w.data.name ok) s).seu.events := by
      rw [events]
      exact if_pos hdone
    exact kind_queued _ s _ (queued ▸ casc.events) room
  case events =>
    rw [publish_disarmed quiet_send noHost _ (by decide), events]
    · rfl
    · rw [events]; exact disarmed
  case frame =>
    rw [silent, frame]

end Sys2Proof.Machine
end

section
/-! PROOFS. The frame of a request says the request (O9). -/

namespace Sys2Proof.Machine

/-- Beyond 3, the code of GLOBAL, a machine code names no layout: the length alone says which refusal the frame gets (log entry 8). -/
theorem parseMachine_undefined {m : Byte} (rest : List Byte) (hm : 3 < m.toNat) :
    parseMachine (m :: rest) = if rest.length ∈ machineLengths then .undefinedSelector 0x10 else .wrongLength 0x10 := by
  have windlass : m ≠ 0 := by bv_omega
  have platform : m ≠ 1 := by bv_omega
  have hatch : m ≠ 2 := by bv_omega
  have global : m ≠ 3 := by bv_omega
  simp only [parseMachine, if_neg windlass, if_neg platform, if_neg hatch, if_neg global]

/-- Settles O9: a request is read back by `parseFrame_encode`, and a machine code without a layout is judged by
`parseMachine_undefined`. -/
theorem requestFramesDecodeToTheirRequests : Obligations.RequestFramesDecodeToTheirRequests := by
  refine ⟨fun i code payload hwf he => ⟨parseFrame_encode hwf he, encodeRequest_length hwf he⟩, ?noCode, fun m rest hm => ?undefined⟩
  case noCode => exact parse10 []
  case undefined => exact (parse10 (m :: rest)).trans (parseMachine_undefined rest hm)

end Sys2Proof.Machine
end
